-- ==== Sys2Proof/Word.lean ====
section
/-! DEFINITION. Word.lean: the bit strings of the part (R2, R3) and the plainest arithmetic on them. -/

namespace Sys2Proof

/-- A byte (R3). -/
abbrev Byte := BitVec 8
/-- A word: 32 bits (R3). -/
abbrev Word := BitVec 32
/-- A dword: 64 bits (R3). -/
abbrev Dword := BitVec 64

/-- The low word of a dword. -/
abbrev lo32 (x : Dword) : Word := x.extractLsb' 0 32
/-- The high word of a dword. -/
abbrev hi32 (x : Dword) : Word := x.extractLsb' 32 32
/-- The dword with high word `h` and low word `l` (R58). -/
abbrev pair (h l : Word) : Dword := h ++ l

end Sys2Proof
end

