-- ==== Sys2Proof/Syntax.lean ====
section
/-! DEFINITION. Syntax.lean: the instructions and events of the part, one constructor of `Instr` for each
row of spec/opcode_table.json. Instruction constructors hold the fields of the instruction, extension and
literal words (R183 to R190, R289); event constructors hold what the outside world, the scheduler or an
engine supplies to that step. -/

namespace Sys2Proof

/-- The four opcode spaces, the CLASS field of a clause header (R179). -/
inductive Cls where
  | v | m | x | c
  deriving DecidableEq, Repr

/-- An operand selector (R185), with the literal word of an IMM selector. `x n` is the latch x(n+1). -/
inductive Sel where
  | v (n : BitVec 7)
  | s (n : BitVec 6)
  | zero
  | slot
  | x (n : BitVec 2)
  | imm (w : Word)
  | widlo
  | widhi
  | spid
  | coreid
  | gangid
  | dpc
  deriving DecidableEq, Repr

/-- A VD destination: a v register, or the latch only (NW = 1, R60). -/
inductive VDst where
  | latch
  | v (n : BitVec 7)
  deriving DecidableEq, Repr

/-- An SD destination of the uniform ALU: an s register, or the latch only (NW = 1, R60). -/
inductive UDst where
  | latch
  | s (n : BitVec 6)
  deriving DecidableEq, Repr

/-- A destination "VD pair or SD" of `time`, `slack` and `csrr` (R195). -/
inductive TDst where
  | latch
  | v (n : BitVec 7)
  | s (n : BitVec 6)
  deriving DecidableEq, Repr

/-- ITYPE (R189). -/
inductive IType where
  | sgn | uns | sgn64 | uns64 | sgn16x2 | uns16x2
  deriving DecidableEq, Repr

/-- UTYPE (R189). -/
inductive UType where
  | sgn64 | uns64 | sgn | uns
  deriving DecidableEq, Repr

/-- COND (R189). -/
inductive Cond where
  | eq | ne | lt | le | gt | ge
  deriving DecidableEq, Repr

/-- FTYPE (R189). -/
inductive FType where
  | f32 | f64 | f16x2 | bf16x2
  deriving DecidableEq, Repr

/-- RND (R189). -/
inductive Rnd where
  | rn | rz | ru | rd
  deriving DecidableEq, Repr

/-- FCOND (R189, R222). -/
inductive FCond where
  | eq | ne | lt | le | gt | ge | equ | neu | ltu | leu | gtu | geu | num | nan
  deriving DecidableEq, Repr

/-- DFMT and SFMT of the conversions (R189). -/
inductive CFmt where
  | f64 | f32 | f16 | bf16 | e4m3 | e5m2
  | int8 | uint8 | int16 | uint16 | int32 | uint32 | int64 | uint64
  deriving DecidableEq, Repr

/-- XTYPE (R189). -/
inductive XType where
  | b32 | sgn | uns | f32 | b64 | sgn64 | uns64 | f64
  deriving DecidableEq, Repr

/-- SEG (R258). -/
inductive Seg where
  | whole | seg2 | seg4 | seg8 | seg16
  deriving DecidableEq, Repr

/-- MODE of `shfl` (R261). -/
inductive ShMode where
  | idx | up | down | xor
  deriving DecidableEq, Repr

/-- MODE of `vote` (R263). -/
inductive VoteMode where
  | any | all | uni
  deriving DecidableEq, Repr

/-- MODE of `redux` and, less bit 3, of `scan` (R265, R266). -/
inductive RedOp where
  | add | min | max | and | or | xor
  deriving DecidableEq, Repr

/-- TAG of `shape` (R234). -/
inductive TagSel where
  | u | a | g
  deriving DecidableEq, Repr

/-- The four forms of `pmov` (R233). -/
inductive PMov where
  | test (p : BitVec 5) (a : Sel)
  | copy (p pa : BitVec 5)
  | get (d : VDst)
  | put (a : Sel)
  deriving DecidableEq, Repr

/-- POL (R109). -/
inductive Pol where
  | l1 | l2 | str | sys | ro
  deriving DecidableEq, Repr

/-- SCOPE (R148, R189). -/
inductive Scope where
  | no | sp | blk | gang | dev | sys
  deriving DecidableEq, Repr

/-- ORD (R189). -/
inductive Ord where
  | no | acq | rel | acqrel
  deriving DecidableEq, Repr

/-- SIZE (R189, R242). -/
inductive Size where
  | b8 | i8 | b16 | i16 | b32 | b64 | b128
  deriving DecidableEq, Repr

/-- AOP of `atom` (R248). -/
inductive AOp where
  | add | min | max | minu | maxu | and | or | xor | exch | cas | inc | fadd
  deriving DecidableEq, Repr

/-- FSET (R154, R189). -/
inductive FSet where
  | ll | ls | sl | ss | all | win | async
  deriving DecidableEq, Repr

/-- STATE of `vpub` (R46, R189). -/
inductive VState where
  | no | partial_ | complete
  deriving DecidableEq, Repr

/-- Rounding modes of the engines (R85). -/
inductive RMode where
  | rne | rz | ru | rd | sr
  deriving DecidableEq, Repr

/-- DFMT of `zrnd` (R302). -/
inductive ZFmt where
  | f32 | bf16 | f16 | int32 | f64
  deriving DecidableEq, Repr

/-- SFMT of `mgstage` (R311). -/
inductive MgFmt where
  | f32 | bf16 | f16
  deriving DecidableEq, Repr

/-- RED of `coll` (R314). -/
inductive Red where
  | sum | max | min | clip
  deriving DecidableEq, Repr

/-- The VF modifiers of an arithmetic instruction (R217). -/
structure FMod where
  ft  : FType
  rnd : Rnd
  ftz : Bool
  deriving DecidableEq, Repr

/-- The CV modifiers of a conversion (R227). -/
structure CMod where
  dst   : CFmt
  src   : CFmt
  rnd   : Rnd
  ftz   : Bool
  nosat : Bool
  deriving DecidableEq, Repr

/-- A memory operand: base, offset and the signed immediate of 13 bits (R186, R188, R191). EF-group and
CP-group operands have no immediate part. -/
structure MemOp where
  base : Sel
  off  : Sel
  imm  : BitVec 13
  deriving DecidableEq, Repr

/-- The ME modifiers of a global access (R242). -/
structure AMod where
  pol : Pol
  sc  : Scope
  ord : Ord
  deriving DecidableEq, Repr

/-- A request of a host agent to memory (R169, R403, R405): the port and PASID it came by, the physical
address, the bytes of a write, or the length of a read. -/
structure HostReq where
  port  : Nat
  pasid : BitVec 20
  pa    : Nat
  write : Bool
  data  : List Byte
  len   : Nat
  deriving DecidableEq, Repr

/-- What a window request asks of its slot (R134, R136): a store of bytes at an operator offset, a fire, a
release, or a load of bytes. -/
inductive WinKind where
  | store (off : Nat) (data : List Byte)
  /-- The parts of a store in one slot, where its pages do not follow each other in the window (R134). -/
  | parts (ps : List (Nat × List Byte))
  | fire (off : Nat)
  | release (off : Nat)
  | load (off : Nat) (len : Nat)
  deriving DecidableEq, Repr

/-- A host request to an operator window (R139): the PASID, the operator, what the mapping permits, the
request. -/
structure HostWinReq where
  pasid : BitVec 20
  op    : BitVec 10
  permR : Bool
  permW : Bool
  kind  : WinKind
  deriving DecidableEq, Repr

/-- What a peer device's request asks (R166, R394): an exact addition is that of `atomx` (R249), and a transfer's
packet names the counter it adds to (R318). -/
inductive PeerKind where
  | read (len : Nat)
  | write (data : List Byte)
  | atomic (op : AOp) (wide : Bool) (data cmp : Dword)
  | exact (units : Int)
  | xfer (data : List Byte) (ctr : Dword)
  | window (k : WinKind)
  deriving DecidableEq, Repr

/-- A peer request arriving at this device (R394): the source device, core and context and the stream, the
target context and virtual address, the request. -/
structure PeerReq where
  dev    : BitVec 12
  core   : BitVec 8
  ctx    : BitVec 12
  stream : BitVec 8
  tctx   : BitVec 12
  va     : Dword
  kind   : PeerKind
  deriving DecidableEq, Repr

/-- The name of a stream at its source (R394). -/
structure StreamId where
  core   : Nat
  ctx    : Nat
  number : Nat
  deriving DecidableEq, Repr

/-- The outcome of an arrived active message's addressing (R319). -/
structure AMsg where
  dev     : BitVec 12
  sctx    : BitVec 12
  tctx    : BitVec 12
  index   : BitVec 8
  ctr     : Dword
  payload : List Dword
  deriving DecidableEq, Repr

/-- The member at a table position is silent beyond TSILENT along an axis; its buddy there holds its contribution, or does
not (R317). -/
structure Silent where
  pos        : Nat
  axis       : Nat
  buddyHolds : Bool
  deriving DecidableEq, Repr

/-- The signed configuration record of the package EEPROM (R10, R14, R404, R416): the physical core of each logical core,
none for one that no spare replaces, the enabled dies, the lowest SVN, the bytes of the firmware region, the boot port with
the device physical address of the boot region, and the identity key to which the record is bound. -/
structure BootRecord where
  coreMap  : List (Option Nat)
  diemask  : BitVec 4
  minsvn   : BitVec 16
  fwres    : Nat
  bootPort : Nat
  regionAt : Nat
  key      : BitVec 256
  deriving DecidableEq, Repr

/-- What the boot ROM and the firmware meet (R409 to R412, R416): the EEPROM's readability, the PUF seed that the ROM
reconstructs, the configuration record with its signature, the state of the boot port, the bytes of the boot region, and
whether bed memory trains. -/
structure BootIn where
  eepromOk  : Bool
  pufSeed   : Option (BitVec 256)
  record    : BootRecord
  recSig    : BitVec 512
  portUp    : Bool
  region    : List Byte
  bedOk     : Bool
  deriving DecidableEq, Repr

/-- A device of stock memory as the firmware enumerates it (R408): its port, where its memory stands in the port's window,
whether it is HDM-DB, and whether it advertises a persistence domain. -/
structure StockDev where
  port    : Nat
  base    : Nat
  size    : Nat
  db      : Bool
  persist : Bool
  deriving DecidableEq, Repr

/-- One constructor per row of spec/opcode_table.json. -/
inductive Instr where
  -- V class: integer, bit and predicate operations (R204 to R216, R232, R233)
  | iadd (d : VDst) (a b : Sel)
  | isub (d : VDst) (a b : Sel)
  | imul (d : VDst) (t : IType) (sat : Bool) (a b : Sel)
  | imulhi (d : VDst) (t : IType) (a b : Sel)
  | imad (d : VDst) (t : IType) (sat : Bool) (a b c : Sel)
  | iabs (d : VDst) (a : Sel)
  | ineg (d : VDst) (a : Sel)
  | imin (d : VDst) (t : IType) (a b : Sel)
  | imax (d : VDst) (t : IType) (a b : Sel)
  | iaddc (d : VDst) (a b : Sel) (p : BitVec 5)
  | isubb (d : VDst) (a b : Sel) (p : BitVec 5)
  | iadds (d : VDst) (t : IType) (a b : Sel)
  | shl (d : VDst) (a b : Sel)
  | shr (d : VDst) (a b : Sel)
  | sar (d : VDst) (a b : Sel)
  | rot (d : VDst) (a b : Sel)
  | and (d : VDst) (a b : Sel)
  | or (d : VDst) (a b : Sel)
  | xor (d : VDst) (a b : Sel)
  | andn (d : VDst) (a b : Sel)
  | orn (d : VDst) (a b : Sel)
  | not (d : VDst) (a : Sel)
  | logic3 (d : VDst) (lut : Byte) (a b c : Sel)
  | popc (d : VDst) (a : Sel)
  | clz (d : VDst) (a : Sel)
  | ctz (d : VDst) (a : Sel)
  | brev (d : VDst) (a : Sel)
  | bfx (d : VDst) (t : IType) (a b c : Sel)
  | bfi (d : VDst) (a b c : Sel)
  | bperm (d : VDst) (a b c : Sel)
  | icmp (p : BitVec 5) (c : Cond) (t : IType) (a b : Sel)
  | sel (d : VDst) (a b : Sel) (p : BitVec 5)
  | mov (d : VDst) (a : Sel)
  -- V class: floating point (R217 to R226)
  | fadd (d : VDst) (m : FMod) (a b : Sel)
  | fsub (d : VDst) (m : FMod) (a b : Sel)
  | fmul (d : VDst) (m : FMod) (a b : Sel)
  | ffma (d : VDst) (m : FMod) (a b c : Sel)
  | fmin (d : VDst) (t : FType) (ftz : Bool) (a b : Sel)
  | fmax (d : VDst) (t : FType) (ftz : Bool) (a b : Sel)
  | fminn (d : VDst) (t : FType) (ftz : Bool) (a b : Sel)
  | fmaxn (d : VDst) (t : FType) (ftz : Bool) (a b : Sel)
  | fabs (d : VDst) (t : FType) (a : Sel)
  | fneg (d : VDst) (t : FType) (a : Sel)
  | fsgn (d : VDst) (t : FType) (a b : Sel)
  | fcmp (p : BitVec 5) (c : FCond) (t : FType) (ftz : Bool) (a b : Sel)
  | fclass (p : BitVec 5) (t : FType) (a b : Sel)
  | fround (d : VDst) (m : FMod) (a : Sel)
  | fscale (d : VDst) (m : FMod) (a b : Sel)
  | fexpn (d : VDst) (t : FType) (ftz : Bool) (a : Sel)
  | fmant (d : VDst) (t : FType) (ftz : Bool) (a : Sel)
  -- V class: conversions (R227 to R231)
  | cvt (d : VDst) (m : CMod) (a : Sel)
  | cvtp (d : VDst) (m : CMod) (part : BitVec 2) (a b : Sel)
  | cvtu (d : VDst) (m : CMod) (part : BitVec 2) (a : Sel)
  -- V class: predicates (R232, R233)
  | pand (p pa pb : BitVec 5)
  | por (p pa pb : BitVec 5)
  | pxor (p pa pb : BitVec 5)
  | pnot (p pa : BitVec 5)
  | pmov (f : PMov)
  -- V class: cross-slot (R258 to R268) and shapes (R234, R235)
  | shfl (d : VDst) (m : ShMode) (wide : Bool) (g : Seg) (a b : Sel)
  | spush (d : VDst) (wide : Bool) (g : Seg) (a b : Sel)
  | vote (p : BitVec 5) (m : VoteMode) (g : Seg) (pa : BitVec 5)
  | ballot (d : VDst) (g : Seg) (pa : BitVec 5)
  | matchSlots (d : VDst) (all : Bool) (t : XType) (g : Seg) (a : Sel)
  | redux (d : VDst) (op : RedOp) (t : XType) (g : Seg) (a : Sel)
  | scan (d : VDst) (op : RedOp) (excl : Bool) (t : XType) (g : Seg) (a : Sel)
  | nact (d : VDst)
  | shape (d : VDst) (t : TagSel) (a : Sel)
  | shapeof (d : VDst) (a : Sel)
  -- M class: memory (R242 to R257)
  | ld (d : BitVec 7) (k : AMod) (sz : Size) (m : MemOp)
  | st (k : AMod) (sz : Size) (m : MemOp) (data : Sel)
  | ldl (d : BitVec 7) (sz : Size) (m : MemOp)
  | stl (sz : Size) (m : MemOp) (data : Sel)
  | atom (d : Option (BitVec 7)) (k : AMod) (wide : Bool) (op : AOp) (m : MemOp) (data : Sel)
  | atomx (k : AMod) (wide flt : Bool) (m : MemOp) (data : Sel)
  | fence (sc : Scope) (set : FSet)
  | pref (pol : Pol) (m : MemOp)
  | roinv
  | persist (m : MemOp) (len : Sel)
  | wfence
  | wfire (m : MemOp)
  | wrel (m : MemOp)
  | pclr (m : MemOp) (len : Sel)
  | arcset (base count target : Sel) (off : BitVec 16)
  | arcadd (base addend : Sel) (off : BitVec 16)
  -- M class: the uniform ALU (R238 to R241)
  | sadd (d : UDst) (a b : Sel)
  | ssub (d : UDst) (a b : Sel)
  | smul (d : UDst) (a b : Sel)
  | smulhi (d : UDst) (t : UType) (a b : Sel)
  | smad (d : UDst) (t : UType) (a b c : Sel)
  | sshl (d : UDst) (a b : Sel)
  | sshr (d : UDst) (a b : Sel)
  | ssar (d : UDst) (a b : Sel)
  | sand (d : UDst) (a b : Sel)
  | sor (d : UDst) (a b : Sel)
  | sxor (d : UDst) (a b : Sel)
  | snot (d : UDst) (a : Sel)
  | smin (d : UDst) (t : UType) (a b : Sel)
  | smax (d : UDst) (t : UType) (a b : Sel)
  | smov (d : UDst) (a : Sel)
  | scmp (d : UDst) (c : Cond) (t : UType) (a b : Sel)
  | ssel (d : UDst) (a b c : Sel)
  | spopc (d : UDst) (a : Sel)
  | sclz (d : UDst) (a : Sel)
  | rfa (d : UDst) (a : Sel)
  -- X class: special functions and the divider (R291, R292)
  | rcp (d : BitVec 7) (f64 ftz cr : Bool) (a : Sel)
  | rsq (d : BitVec 7) (ftz : Bool) (a : Sel)
  | sqrt (d : BitVec 7) (f64 ftz cr : Bool) (a : Sel)
  | exp2 (d : BitVec 7) (ftz : Bool) (a : Sel)
  | log2 (d : BitVec 7) (ftz : Bool) (a : Sel)
  | sinpi (d : BitVec 7) (ftz : Bool) (a : Sel)
  | cospi (d : BitVec 7) (ftz : Bool) (a : Sel)
  | tanh (d : BitVec 7) (ftz : Bool) (a : Sel)
  | erf (d : BitVec 7) (ftz : Bool) (a : Sel)
  | fdiv (d : BitVec 7) (f64 ftz cr : Bool) (a b : Sel)
  | idiv (d : BitVec 7) (uns : Bool) (a b : Sel)
  -- X class: copies and the stash (R293 to R295)
  | cpy (pol : Pol) (out : Bool) (ctr : Option (BitVec 16)) (l : Sel) (base off : Sel) (count : Sel)
  | cpyw (pol : Pol) (out : Bool) (ctr : Option (BitVec 16)) (l : Sel) (base off : Sel) (shp : Sel)
  | stmap (d : BitVec 6) (l v bytes : Sel)
  | stunmap (d : BitVec 6) (l : Sel)
  | stflush (d : BitVec 6) (l bytes : Sel)
  -- X class: tiles (R296 to R306)
  | zdef (z : BitVec 4) (clr : Bool) (base rows cols : Sel)
  | zclr (z : BitVec 4)
  | mma (z : BitVec 4) (a b bcore fw : Sel)
  | mmaGang (z : BitVec 4) (a b bcore fw : Sel)
  | opfence
  | zrnd (d : BitVec 7) (f : ZFmt) (rm : RMode) (z : BitVec 4) (pos origin seed : Sel)
  | zdrain (z : BitVec 4) (hasDesc : Bool) (base off desc fw : Sel)
  | zld (z : BitVec 4) (base off : Sel)
  | zst (z : BitVec 4) (base off : Sel)
  | quant (z : Option (BitVec 4)) (desc fw : Sel)
  -- X class: operators (R307, R308)
  | opinst (d : BitVec 6) (re : Bool) (desc op : Sel)
  | opbind (d : BitVec 6) (op ib rb : Sel)
  | opunbind (d : BitVec 6) (free : Bool) (op : Sel)
  | opstat (d : BitVec 6) (op k : Sel)
  | opread (d : BitVec 6) (op dst : Sel)
  -- X class: the merge (R309 to R313)
  | mgopen (d : BitVec 6) (target contrib : Sel)
  | mgstage (d : BitVec 6) (f : MgFmt) (h src offset count : Sel)
  | mgclose (d : BitVec 6) (h : Sel)
  | mgcommit (d : BitVec 6) (h : Sel)
  | mgread (d : BitVec 7) (stable : Bool) (target idx : Sel)
  | mgabort (d : BitVec 6) (h : Sel)
  -- X class: communication and pack (R314 to R323)
  | coll (d : BitVec 6) (red : Red) (desc inp out ctr : Sel)
  | xferw (stream : Byte) (dst src bytes ctr : Sel)
  | xferr (stream : Byte) (dst src bytes ctr : Sel)
  | amsg (first : BitVec 6) (n : BitVec 4) (target ctr : Sel)
  | amsgReply (first : BitVec 6) (n : BitVec 4) (token ctr : Sel)
  | rwr (src : BitVec 7) (target ctr : Sel)
  | bepack (d : BitVec 6) (f64 : Bool) (dst src count eb : Sel)
  | beunpack (d : BitVec 6) (f64 : Bool) (dst src cap : Sel)
  -- C class (R269 to R285)
  | bra (off : BitVec 24)
  | jmp (a : Sel)
  | brx (a : Sel) (off : BitVec 24)
  | call (off : BitVec 24)
  | calli (a : Sel)
  | ret
  | enrol (b : BitVec 3)
  | rejoin (b : BitVec 3)
  | bar
  | gbar
  | arcwait (base : Sel) (off : BitVec 16)
  | acq
  | rela
  | exit
  | yield
  | nop
  | trap (code : Byte)
  | sleep (a : Sel)
  | time (d : TDst)
  | slack (d : TDst)
  | vpub (st : VState) (sc : Scope) (m : MemOp) (cover : Sel)
  | sys (code : Byte) (a b : Sel)
  | csrr (d : TDst) (csr : BitVec 12)
  | csrw (csr : BitVec 12) (a : Sel)
  | tret
  -- every class
  | brk (tag : BitVec 25)
  -- a register write of the host or of a thread's MMIO store (R362)
  | registerWrite (off : Nat) (data : List Byte)
  -- events: issue, completion and the local machinery
  | clauseIssue (core spid slot : Nat)
  | tokenClear (op : Nat)
  | copyWrite (op n : Nat)
  | stashFillComplete (blk line : Nat)
  | stashRecall (blk line : Nat)
  | orphanWait (core spid slot : Nat)
  | divert (l : Nat)
  | deadlineStop (l : Nat)
  | blockAdmit (cores : List Nat)
  | blockEvict (blks : List Nat)
  | blockReadmit (blk core : Nat)
  | allotmentGrant (core : Nat)
  | spindleRelease (core spid : Nat)
  | blockFree (blk : Nat)
  | sleepExpire (core spid slot : Nat)
  | serviceComplete (core : Nat) (retry : Bool)
  | stopRecords (n : Nat)
  -- events: the firmware mailbox (R415)
  | fault (core : Nat)
  | faultReply
  | attest
  | unknownTdMessage
  | coreFailed (core : Nat)
  | uncorr (line : Nat)
  | tdprod (v : BitVec 16)
  | thcons (v : BitVec 16)
  -- events: the host, peers and the fabric
  | hostMemRequest (r : HostReq)
  | biasFlipCommand (w : Dword)
  | flipComplete (page : Nat)
  | hostWindowRequest (r : HostWinReq)
  | peerRequest (r : PeerReq)
  | streamResume (k : StreamId)
  | remoteReject (k : StreamId)
  | amsgArrival (m : AMsg)
  | replyArrival (ctr : Dword) (payload : List Dword)
  | deposit (op : Nat)
  | xferPacket (op n : Nat) (data : List Byte)
  | collComplete (op : Nat) (inputs : Option (List (List Byte))) (degraded : Bool)
  | tsilent (op : Nat) (m : Silent)
  | directoryAcknowledgement (die line : Nat)
  -- events: operators, tiles and merge
  | inputStoreJoin (n : Nat)
  | wfireJoin (n : Nat)
  | wrelJoin (n : Nat)
  | resultLoadJoin (op : Nat)
  | fireComplete (op slot : Nat)
  | gangMmaMatch (blk : Nat)
  | mergeTimeout (gang slot : Nat)
  | operatorMoveOut (op : Nat)
  | operatorRestore (op : Nat)
  | unitLoad (ctx unit : Nat) (digest : BitVec 512)
  -- events: queues (R362 to R370, R379)
  | qtail (q : Nat) (v : Dword)
  | queueEnable (q : Nat) (v : Dword)
  | queueDisable (q : Nat) (v : Dword)
  | quar (q : Nat)
  | queueSwitchIn (q : Nat)
  | queueSwitchOut (q : Nat)
  | nopPacket (q : Nat)
  | launch (q : Nat)
  | indirect (q : Nat)
  | waitmem (q : Nat)
  | waitmemRecheck (q : Nat)
  | signal (q : Nat)
  | fencePacket (q : Nat)
  | setctx (q : Nat)
  | timestamp (q : Nat)
  -- events: contexts (R383 to R392)
  | define (n : Nat)
  | reload (n : Nat)
  | halt (n : Nat)
  | resume (n : Nat)
  | destroy (n : Nat)
  | tinvctl (w : Dword)
  | tinvDone
  | retire (w : Dword)
  -- events: fabric planes, time, power and health
  | planemapWrite (n : Nat) (w : Dword)
  | planeDeath (p : Nat)
  | sync (offset : Int) (traceable : Bool)
  | syncTimeout
  | stepTime
  | servoEnable (w : Dword)
  | servoDisable (w : Dword)
  | clockThrottle (mhz : Nat)
  | thermalTrip (die : Nat)
  | coreFailure (core : Nat)
  | uncorrectableError (line : Nat)
  | correctedError (line : Nat)
  | linkDown (port : Nat)
  | powerLoss (reverts : List (Nat × Nat))
  -- events: boot (R409 to R412)
  | reset (b : BootIn)
  | bootok
  | bootokTimeout
  | codePageFill (page : Nat) (digest : BitVec 512)
  | firmwareCoreStop (die : Nat)
  | retry
  | standbyPowerLoss
  | slicePeriodEnd
  -- events: tailstock, registers and coherence
  | hsel (core : Nat) (w : Dword)
  | hdata (core : Nat) (w : Dword)
  | clockclassChange
  | hostCxlCacheSnoop (line : Nat) (data : Option (List Byte)) (inv : Bool)
  | downstreamBackInvalidate (line : Nat) (data : Option (List Byte))
  deriving DecidableEq, Repr

/-- Smaller moves that the rules give the part or its surroundings and that no row of the opcode table names (DESIGN
CHOICE, log entry 8). -/
inductive Micro where
  /-- One register write of an operation in flight is made ahead of the others (R63). -/
  | deliver (op i : Nat)
  /-- A tile operation performs its next step or row (R389). -/
  | tile (op : Nat)
  /-- A core's TLB takes the leaf that maps an address, or gives up its entry for it (R386). -/
  | tlbFill (core ctx : Nat) (va : Dword)
  | tlbDrop (core ctx : Nat) (va : Dword)
  /-- The host gives up its copy of a bed line (R405). -/
  | hostEvict (line : Nat)
  /-- A packet of a transfer leaves (R318). -/
  | sendPacket (op n : Nat)
  /-- A fault at the target freezes a stream (R394). -/
  | freeze (k : StreamId)
  /-- The boot ROM, or the firmware as it starts, does the work of its next state (R409). -/
  | boot
  /-- The firmware extends a measurement register (R413). -/
  | extend (n : Nat) (d : List Byte)
  /-- The firmware enumerates a device of stock memory (R408). -/
  | enumerate (d : StockDev)
  /-- A write of another host or part to an HDM-H line (R408). -/
  | foreignWrite (line : Nat) (data : List Byte)
  /-- The part's caches give up an HDM-H line. -/
  | stockDrop (line : Nat)
  /-- The devices acknowledge the flush of a `persist` (R127, R408). -/
  | persistAck (op : Nat)
  /-- BOOTSTAT read through the DVSEC or the management port, BOOTCTL written through the DVSEC (R412). -/
  | readBootstat
  | writeBootctl (w : Dword)
  /-- The tailstock hart of a core reads HDATA (R398). -/
  | readHdata (core : Nat)
  /-- IBK_n is set to an address (R359). -/
  | ibkWrite (n : Nat) (addr : Dword)
  /-- The local stores of a spindle begin to be seen late by the others of its block, and are all seen (R151, R157). -/
  | slowStl (blk m : Nat)
  | landStl (blk m : Nat)
  /-- Two local stores of different threads of a spindle are performed in the other order (R145, R151). -/
  | swapStl (blk n : Nat)
  /-- The master announces currentUtcOffset (R418). -/
  | announce (utcOffset : Int)
  /-- A peer acknowledges the first request of a stream that no operation in flight waits for (R166). -/
  | peerAck (k : StreamId)
  /-- An operator's unit turns to the requests of other agents that waited for it (R143, R380). -/
  | windowGo (op : Nat)
  deriving DecidableEq, Repr

/-- What moves next (the model's own, DESIGN CHOICE, log entry 8): an event of the table, the next instruction of the
clause that a spindle has in progress, or a smaller move. -/
inductive Turn where
  | event (i : Instr)
  | run (core spid : Nat)
  | part (m : Micro)
  deriving DecidableEq, Repr

end Sys2Proof
end

