-- ==== Sys2Proof/WellFormed.lean ====
section
/-! DEFINITION. WellFormed.lean: the checks of R184 to R190 and of the reference descriptions that depend on the
instruction alone, with the trap each breach raises (R181). The checks that need the clause (R59) or the
allotment (R33) are made where a clause issues. -/

namespace Sys2Proof

/-- The trap of a decode failure (R181). -/
inductive DecErr where
  | illegalInsn
  | illegalOperand
  deriving DecidableEq, Repr

/-- Breach of a code rule raises ILLEGAL_INSN (R188 to R190). -/
def needInsn (b : Bool) : Option DecErr := if b then none else some .illegalInsn

/-- Breach of a selector rule raises ILLEGAL_OPERAND (R184 to R187). -/
def needOpnd (b : Bool) : Option DecErr := if b then none else some .illegalOperand

/-- The first failing check in a list. -/
def firstErr : List (Option DecErr) → Option DecErr
  | [] => none
  | none :: r => firstErr r
  | some e :: _ => some e

namespace Sel

/-- Kind V with a 64-bit operand: a v register is the even one of a pair (R58). The data operand of `atom` and `atomx` takes
every other selector of kind V (R186, R193), of which R247 lists three: DESIGN CHOICE, log entry 68. -/
def okV64 : Sel → Bool
  | .v n => n.toNat % 2 == 0
  | _ => true

/-- Kind U (R186, R187). -/
def okU : Sel → Bool
  | .s _ | .zero | .imm _ | .widhi | .spid | .coreid | .gangid => true
  | _ => false

/-- A global base: kind U or a v pair (R186). -/
def okGBase : Sel → Bool
  | .v n => n.toNat % 2 == 0
  | r => r.okU

/-- A local base: kind V, but no latch (R186, R187). -/
def okLBase : Sel → Bool
  | .x _ => false
  | _ => true

/-- A memory offset: a v register or ZERO (R186). -/
def okOff : Sel → Bool
  | .v _ | .zero => true
  | _ => false

/-- The `.b64` data operand of `st` and `stl` (R244, R245). -/
def okData64 : Sel → Bool
  | .v n => n.toNat % 2 == 0
  | .s _ | .zero | .imm _ => true
  | _ => false

/-- The `.b128` data operand (R244): a v register whose number is a multiple of 4. -/
def okData128 : Sel → Bool
  | .v n => n.toNat % 4 == 0
  | _ => false

/-- Not IMM: position E never selects a literal (R184). -/
def notImm : Sel → Bool
  | .imm _ => false
  | _ => true

end Sel

/-- A destination pair is named by its even register (R58). -/
def evenReg (n : BitVec 7) : Bool := n.toNat % 2 == 0

def VDst.ok64 : VDst → Bool
  | .latch => true
  | .v n => evenReg n

/-- The v form of a 64-bit "VD pair or SD" destination is even (R195, R280). -/
def TDst.ok : TDst → Bool
  | .v n => evenReg n
  | _ => true

def IType.is64 : IType → Bool
  | .sgn64 | .uns64 => true
  | _ => false

def IType.packed : IType → Bool
  | .sgn16x2 | .uns16x2 => true
  | _ => false

def XType.is64 : XType → Bool
  | .b64 | .sgn64 | .uns64 | .f64 => true
  | _ => false

def CFmt.is64 : CFmt → Bool
  | .f64 | .int64 | .uint64 => true
  | _ => false

def CFmt.isFloat : CFmt → Bool
  | .f64 | .f32 | .f16 | .bf16 | .e4m3 | .e5m2 => true
  | _ => false

/-- The width of a conversion format in bits (R71, R72, R189). -/
def CFmt.width : CFmt → Nat
  | .f64 | .int64 | .uint64 => 64
  | .f32 | .int32 | .uint32 => 32
  | .f16 | .bf16 | .int16 | .uint16 => 16
  | .e4m3 | .e5m2 | .int8 | .uint8 => 8

/-- A check of the destination and operands of a V-class instruction whose operands are 64-bit when `w`. -/
def laneOpnds (w : Bool) (d : VDst) (srcs : List Sel) : Option DecErr :=
  needOpnd (!w || (d.ok64 && srcs.all Sel.okV64))

/-- The accepted scope and order pairs (R190): ORD and SCOPE are given together. -/
def AMod.ordOk (k : AMod) : Bool := (k.ord == .no) == (k.sc == .no)

/-- A global memory operand (R186). -/
def MemOp.okG (m : MemOp) : Bool := m.base.okGBase && m.off.okOff
/-- The immediate offset of an atomic is one of ten bits, signed (R188). -/
def MemOp.fits10 (m : MemOp) : Bool := (m.imm.extractLsb' 0 10).signExtend 13 == m.imm
/-- A local memory operand (R186). -/
def MemOp.okL (m : MemOp) : Bool := m.base.okLBase && m.off.okOff

/-- The `.b64` and `.b128` destinations of a load (R190). -/
def Size.dstOk (sz : Size) (d : BitVec 7) : Bool :=
  match sz with
  | .b64 => evenReg d
  | .b128 => d.toNat % 4 == 0
  | _ => true

/-- The data operand of a store by size (R244, R245). -/
def Size.dataOk (sz : Size) (x : Sel) : Bool :=
  match sz with
  | .b64 => x.okData64
  | .b128 => x.okData128
  | _ => true

/-- A store has no sign-extended size (R245). -/
def Size.storable : Size → Bool
  | .i8 | .i16 => false
  | _ => true

/-- The control registers kernel code may read (R285). -/
def csrReadable (n : BitVec 12) : Bool :=
  n.toNat ∈ [0x000, 0x001, 0x002, 0x003, 0x010, 0x011, 0x012, 0x020, 0x021, 0x022, 0x023, 0x024]

/-- The accepted operation and type pairs of `redux` and `scan` (R260). -/
def redOk (op : RedOp) (t : XType) : Bool :=
  match op with
  | .add | .min | .max => t != .b32 && t != .b64
  | .and | .or | .xor => t == .b32 || t == .b64

/-- The formats a conversion accepts (R227, R228): two different formats; RND only where a float takes part;
FTZ likewise; NOSAT on an E4M3 destination. -/
def CMod.ok (m : CMod) : Bool :=
  m.dst != m.src &&
  (m.src.isFloat || m.dst.isFloat || m.rnd == .rn) &&
  (m.src.isFloat || m.dst.isFloat || !m.ftz) &&
  (!m.nosat || m.dst == .e4m3)

/-- The checks of one special function with `.f64` and `.cr` forms (R291). -/
def crOpnds (d : BitVec 7) (f64 cr : Bool) (srcs : List Sel) : Option DecErr :=
  firstErr [needInsn (!f64 || cr), needOpnd (!f64 || (evenReg d && srcs.all Sel.okV64))]

/-- Operands of kind U (R186). -/
def allU (l : List Sel) : Option DecErr := needOpnd (l.all Sel.okU)

/-- The first breach of an instruction's own rules, none for a legal instruction. An event has none. -/
def Instr.check : Instr → Option DecErr
  | .imul d t _ a b => laneOpnds t.is64 d [a, b]
  | .imulhi d t a b => laneOpnds t.is64 d [a, b]
  | .imad d t _ a b c => firstErr [needInsn (!t.packed), laneOpnds t.is64 d [a, b, c]]
  | .imin d t a b => laneOpnds t.is64 d [a, b]
  | .imax d t a b => laneOpnds t.is64 d [a, b]
  | .iadds d t a b => laneOpnds t.is64 d [a, b]
  | .bfx _ t _ _ _ => needInsn (t == .sgn || t == .uns)
  | .icmp _ _ t a b => firstErr [needInsn (!t.packed), laneOpnds t.is64 .latch [a, b]]
  | .fadd d m a b => laneOpnds (m.ft == .f64) d [a, b]
  | .fsub d m a b => laneOpnds (m.ft == .f64) d [a, b]
  | .fmul d m a b => laneOpnds (m.ft == .f64) d [a, b]
  | .ffma d m a b c => laneOpnds (m.ft == .f64) d [a, b, c]
  | .fmin d t _ a b => laneOpnds (t == .f64) d [a, b]
  | .fmax d t _ a b => laneOpnds (t == .f64) d [a, b]
  | .fminn d t _ a b => laneOpnds (t == .f64) d [a, b]
  | .fmaxn d t _ a b => laneOpnds (t == .f64) d [a, b]
  | .fabs d t a => laneOpnds (t == .f64) d [a]
  | .fneg d t a => laneOpnds (t == .f64) d [a]
  | .fsgn d t a b => laneOpnds (t == .f64) d [a, b]
  | .fcmp _ _ t _ a b =>
      firstErr [needInsn (t == .f32 || t == .f64), laneOpnds (t == .f64) .latch [a, b]]
  | .fclass _ t a _ => firstErr [needInsn (t == .f32 || t == .f64), laneOpnds (t == .f64) .latch [a]]
  | .fround d m a => laneOpnds (m.ft == .f64) d [a]
  | .fscale d m a _ => firstErr [needInsn (m.ft == .f32 || m.ft == .f64), laneOpnds (m.ft == .f64) d [a]]
  | .fexpn _ t _ a => firstErr [needInsn (t == .f32 || t == .f64), laneOpnds (t == .f64) .latch [a]]
  | .fmant d t _ a => firstErr [needInsn (t == .f32 || t == .f64), laneOpnds (t == .f64) d [a]]
  | .cvt d m a =>
      firstErr [needInsn m.ok, laneOpnds m.dst.is64 d [], laneOpnds m.src.is64 .latch [a]]
  | .cvtp _ m part _ _ =>
      firstErr [needInsn (m.ok && (m.src == .f32 || m.src == .f16 || m.src == .bf16 || m.src == .int32 || m.src == .uint32)
        && (m.dst.width == 16 && part == 0 || m.dst.width == 8 && part.toNat < 2))]
  | .cvtu d m part _ =>
      firstErr [needInsn (m.ok && (m.src.width == 16 && part.toNat < 2 || m.src.width == 8)),
        laneOpnds m.dst.is64 d []]
  | .shfl d _ w _ a _ => laneOpnds w d [a]
  | .spush d w _ a _ => laneOpnds w d [a]
  | .matchSlots d _ t _ a =>
      firstErr [needInsn (t == .b32 || t == .f32 || t == .b64 || t == .f64), laneOpnds t.is64 d [a]]
  | .redux d op t _ a => firstErr [needInsn (redOk op t), laneOpnds t.is64 d [a]]
  | .scan d op _ t _ a => firstErr [needInsn (redOk op t), laneOpnds t.is64 d [a]]
  | .ld d k sz m =>
      firstErr [needInsn (k.ordOk && (k.ord == .no || k.ord == .acq) && !(k.pol == .ro && k.ord == .acq)),
        needOpnd (sz.dstOk d && m.okG)]
  | .st k sz m x =>
      firstErr [needInsn (k.ordOk && (k.ord == .no || k.ord == .rel) && k.pol != .ro && sz.storable),
        needOpnd (m.okG && sz.dataOk x)]
  | .ldl d sz m => needOpnd (sz.dstOk d && m.okL)
  | .stl sz m x => firstErr [needInsn sz.storable, needOpnd (m.okL && sz.dataOk x)]
  | .atom d k w op m x =>
      firstErr [needInsn (k.ordOk && (k.ord == .no || k.ord == .acqrel) && k.pol != .ro && (op != .cas || d.isSome)),
        needOpnd (m.fits10 && m.okG && (!w || (x.okV64 && match d with | some r => evenReg r | none => true)))]
  | .atomx k w _ m x =>
      firstErr [needInsn (k.ordOk && (k.ord == .no || k.ord == .acqrel) && k.pol != .ro),
        needOpnd (m.fits10 && m.okG && (!w || x.okV64))]
  | .fence sc _ => needInsn (sc != .no)
  | .pref pol m => firstErr [needInsn (pol != .ro), needOpnd m.okG]
  | .persist m len => needOpnd (m.okG && len.okU)
  | .wfire m => needOpnd m.okG
  | .wrel m => needOpnd m.okG
  | .pclr m len => needOpnd (m.okL && len.okU)
  | .arcset b n t _ => needOpnd (b.okLBase && n.okData64 && t.okData64)
  | .arcadd b n _ => needOpnd (b.okLBase && n.okData64)
  | .sadd _ a b => allU [a, b]
  | .ssub _ a b => allU [a, b]
  | .smul _ a b => allU [a, b]
  | .smulhi _ t a b => firstErr [needInsn (t == .sgn64 || t == .uns64), allU [a, b]]
  | .smad _ t a b c => firstErr [needInsn (t == .sgn64 || t == .uns64), allU [a, b, c]]
  | .sshl _ a b => allU [a, b]
  | .sshr _ a b => allU [a, b]
  | .ssar _ a b => allU [a, b]
  | .sand _ a b => allU [a, b]
  | .sor _ a b => allU [a, b]
  | .sxor _ a b => allU [a, b]
  | .snot _ a => allU [a]
  | .smin _ _ a b => allU [a, b]
  | .smax _ _ a b => allU [a, b]
  | .smov _ a => allU [a]
  | .scmp _ _ _ a b => allU [a, b]
  | .ssel _ a b c => allU [a, b, c]
  | .spopc _ a => allU [a]
  | .sclz _ a => allU [a]
  | .rcp d f _ cr a => crOpnds d f cr [a]
  | .sqrt d f _ cr a => crOpnds d f cr [a]
  | .fdiv d f _ cr a b => crOpnds d f cr [a, b]
  | .idiv d _ _ _ => needOpnd (evenReg d)
  | .cpy pol _ _ l base off _ =>
      firstErr [needInsn (pol != .ro), needOpnd (l.notImm && base.okGBase && off.okOff)]
  | .cpyw pol _ _ l base off shp =>
      firstErr [needInsn (pol != .ro), needOpnd (l.notImm && base.okGBase && off.okOff && shp.okU)]
  | .stmap _ l v b => allU [l, v, b]
  | .stunmap _ l => allU [l]
  | .stflush _ l b => allU [l, b]
  | .zdef _ _ b r c => allU [b, r, c]
  | .mma _ _ _ bc fw => needOpnd (bc.okU && fw.notImm)
  | .mmaGang _ _ _ bc fw => needOpnd (bc.okU && fw.notImm)
  | .zrnd d f _ _ p o s => needOpnd ((f != .f64 || evenReg d) && p.okU && o.okU && s.okU && s.notImm)
  | .zdrain _ _ base off desc fw =>
      needOpnd (base.okGBase && off.okOff && desc.okU && fw.notImm)
  | .zld _ base off => needOpnd (base.okGBase && off.okOff)
  | .zst _ base off => needOpnd (base.okGBase && off.okOff)
  | .quant _ desc fw => needOpnd (desc.okU && fw.notImm)
  | .opinst _ _ a b => allU [a, b]
  | .opbind _ a b c => allU [a, b, c]
  | .opunbind _ _ a => allU [a]
  | .opstat _ a b => allU [a, b]
  | .opread _ a b => allU [a, b]
  | .mgopen _ a b => allU [a, b]
  | .mgstage _ _ a b c e => firstErr [allU [a, b, c, e], needOpnd e.notImm]
  | .mgclose _ a => allU [a]
  | .mgcommit _ a => allU [a]
  | .mgread d _ t _ => needOpnd (evenReg d && t.okU)
  | .mgabort _ a => allU [a]
  | .coll _ _ a b c e => firstErr [allU [a, b, c, e], needOpnd e.notImm]
  | .xferw _ a b c e => firstErr [allU [a, b, c, e], needOpnd e.notImm]
  | .xferr _ a b c e => firstErr [allU [a, b, c, e], needOpnd e.notImm]
  | .amsg f n a b => firstErr [needInsn (n.toNat ≤ 8 && f.toNat + n.toNat ≤ 64), allU [a, b]]
  | .amsgReply f n a b => firstErr [needInsn (n.toNat ≤ 8 && f.toNat + n.toNat ≤ 64), allU [a, b]]
  | .rwr _ a b => allU [a, b]
  | .bepack _ _ a b c e => firstErr [allU [a, b, c, e], needOpnd e.notImm]
  | .beunpack _ _ a b c => allU [a, b, c]
  | .jmp a => allU [a]
  | .calli a => allU [a]
  | .arcwait b _ => needOpnd b.okLBase
  | .sleep a => allU [a]
  | .time d => needOpnd d.ok
  | .slack d => needOpnd d.ok
  | .vpub _ sc m _ => firstErr [needInsn (sc != .no), needOpnd m.okG]
  | .sys _ a b => allU [a, b]
  | .csrr d n => firstErr [needInsn (csrReadable n), needOpnd d.ok]
  | .csrw n a => firstErr [needInsn (n == 0x012), needOpnd a.okU]
  | _ => none

/-- An instruction that breaks no rule of its own. -/
def Instr.wf (i : Instr) : Bool := i.check.isNone

end Sys2Proof
end

