-- ==== Sys2Proof/Decode.lean ====
section
/-! DEFINITION. Decode.lean: from the words of a clause to instructions (R179, R181, R183 to R197), and the
encoder. Decoding is total and refuses by the name of the trap; a reserved code never falls through. -/

namespace Sys2Proof

/-- The code of ITYPE (R189). -/
def IType.enc : IType → BitVec 3
  | .sgn => 0
  | .uns => 1
  | .sgn64 => 2
  | .uns64 => 3
  | .sgn16x2 => 4
  | .uns16x2 => 5

/-- ITYPE (R189), none for a reserved code. -/
def IType.dec (c : BitVec 3) : Option IType :=
  match c.toNat with
  | 0 => some .sgn
  | 1 => some .uns
  | 2 => some .sgn64
  | 3 => some .uns64
  | 4 => some .sgn16x2
  | 5 => some .uns16x2
  | _ => none

theorem IType.dec_enc (x : IType) : IType.dec x.enc = some x := by cases x <;> rfl

/-- The code of UTYPE (R189). -/
def UType.enc : UType → BitVec 3
  | .sgn64 => 0
  | .uns64 => 1
  | .sgn => 2
  | .uns => 3

/-- UTYPE (R189), none for a reserved code. -/
def UType.dec (c : BitVec 3) : Option UType :=
  match c.toNat with
  | 0 => some .sgn64
  | 1 => some .uns64
  | 2 => some .sgn
  | 3 => some .uns
  | _ => none

theorem UType.dec_enc (x : UType) : UType.dec x.enc = some x := by cases x <;> rfl

/-- The code of COND (R189). -/
def Cond.enc : Cond → BitVec 4
  | .eq => 0
  | .ne => 1
  | .lt => 2
  | .le => 3
  | .gt => 4
  | .ge => 5

/-- COND (R189), none for a reserved code. -/
def Cond.dec (c : BitVec 4) : Option Cond :=
  match c.toNat with
  | 0 => some .eq
  | 1 => some .ne
  | 2 => some .lt
  | 3 => some .le
  | 4 => some .gt
  | 5 => some .ge
  | _ => none

theorem Cond.dec_enc (x : Cond) : Cond.dec x.enc = some x := by cases x <;> rfl

/-- The code of FTYPE (R189). -/
def FType.enc : FType → BitVec 2
  | .f32 => 0
  | .f64 => 1
  | .f16x2 => 2
  | .bf16x2 => 3

/-- FTYPE (R189), none for a reserved code. -/
def FType.dec (c : BitVec 2) : Option FType :=
  match c.toNat with
  | 0 => some .f32
  | 1 => some .f64
  | 2 => some .f16x2
  | 3 => some .bf16x2
  | _ => none

theorem FType.dec_enc (x : FType) : FType.dec x.enc = some x := by cases x <;> rfl

/-- The code of RND (R189). -/
def Rnd.enc : Rnd → BitVec 2
  | .rn => 0
  | .rz => 1
  | .ru => 2
  | .rd => 3

/-- RND (R189), none for a reserved code. -/
def Rnd.dec (c : BitVec 2) : Option Rnd :=
  match c.toNat with
  | 0 => some .rn
  | 1 => some .rz
  | 2 => some .ru
  | 3 => some .rd
  | _ => none

theorem Rnd.dec_enc (x : Rnd) : Rnd.dec x.enc = some x := by cases x <;> rfl

/-- The code of FCOND (R189). -/
def FCond.enc : FCond → BitVec 4
  | .eq => 0
  | .ne => 1
  | .lt => 2
  | .le => 3
  | .gt => 4
  | .ge => 5
  | .equ => 6
  | .neu => 7
  | .ltu => 8
  | .leu => 9
  | .gtu => 10
  | .geu => 11
  | .num => 12
  | .nan => 13

/-- FCOND (R189), none for a reserved code. -/
def FCond.dec (c : BitVec 4) : Option FCond :=
  match c.toNat with
  | 0 => some .eq
  | 1 => some .ne
  | 2 => some .lt
  | 3 => some .le
  | 4 => some .gt
  | 5 => some .ge
  | 6 => some .equ
  | 7 => some .neu
  | 8 => some .ltu
  | 9 => some .leu
  | 10 => some .gtu
  | 11 => some .geu
  | 12 => some .num
  | 13 => some .nan
  | _ => none

theorem FCond.dec_enc (x : FCond) : FCond.dec x.enc = some x := by cases x <;> rfl

/-- The code of DFMT and SFMT (R189). -/
def CFmt.enc : CFmt → BitVec 4
  | .f64 => 0
  | .f32 => 1
  | .f16 => 2
  | .bf16 => 3
  | .e4m3 => 4
  | .e5m2 => 5
  | .int8 => 6
  | .uint8 => 7
  | .int16 => 8
  | .uint16 => 9
  | .int32 => 10
  | .uint32 => 11
  | .int64 => 12
  | .uint64 => 13

/-- DFMT and SFMT (R189), none for a reserved code. -/
def CFmt.dec (c : BitVec 4) : Option CFmt :=
  match c.toNat with
  | 0 => some .f64
  | 1 => some .f32
  | 2 => some .f16
  | 3 => some .bf16
  | 4 => some .e4m3
  | 5 => some .e5m2
  | 6 => some .int8
  | 7 => some .uint8
  | 8 => some .int16
  | 9 => some .uint16
  | 10 => some .int32
  | 11 => some .uint32
  | 12 => some .int64
  | 13 => some .uint64
  | _ => none

theorem CFmt.dec_enc (x : CFmt) : CFmt.dec x.enc = some x := by cases x <;> rfl

/-- The code of XTYPE (R189). -/
def XType.enc : XType → BitVec 3
  | .b32 => 0
  | .sgn => 1
  | .uns => 2
  | .f32 => 3
  | .b64 => 4
  | .sgn64 => 5
  | .uns64 => 6
  | .f64 => 7

/-- XTYPE (R189), none for a reserved code. -/
def XType.dec (c : BitVec 3) : Option XType :=
  match c.toNat with
  | 0 => some .b32
  | 1 => some .sgn
  | 2 => some .uns
  | 3 => some .f32
  | 4 => some .b64
  | 5 => some .sgn64
  | 6 => some .uns64
  | 7 => some .f64
  | _ => none

theorem XType.dec_enc (x : XType) : XType.dec x.enc = some x := by cases x <;> rfl

/-- The code of SEG (R189). -/
def Seg.enc : Seg → BitVec 3
  | .whole => 0
  | .seg2 => 1
  | .seg4 => 2
  | .seg8 => 3
  | .seg16 => 4

/-- SEG (R189), none for a reserved code. -/
def Seg.dec (c : BitVec 3) : Option Seg :=
  match c.toNat with
  | 0 => some .whole
  | 1 => some .seg2
  | 2 => some .seg4
  | 3 => some .seg8
  | 4 => some .seg16
  | _ => none

theorem Seg.dec_enc (x : Seg) : Seg.dec x.enc = some x := by cases x <;> rfl

/-- The code of MODE of `shfl` (R189). -/
def ShMode.enc : ShMode → BitVec 4
  | .idx => 0
  | .up => 1
  | .down => 2
  | .xor => 3

/-- MODE of `shfl` (R189), none for a reserved code. -/
def ShMode.dec (c : BitVec 4) : Option ShMode :=
  match c.toNat with
  | 0 => some .idx
  | 1 => some .up
  | 2 => some .down
  | 3 => some .xor
  | _ => none

theorem ShMode.dec_enc (x : ShMode) : ShMode.dec x.enc = some x := by cases x <;> rfl

/-- The code of MODE of `vote` (R189). -/
def VoteMode.enc : VoteMode → BitVec 4
  | .any => 0
  | .all => 1
  | .uni => 2

/-- MODE of `vote` (R189), none for a reserved code. -/
def VoteMode.dec (c : BitVec 4) : Option VoteMode :=
  match c.toNat with
  | 0 => some .any
  | 1 => some .all
  | 2 => some .uni
  | _ => none

theorem VoteMode.dec_enc (x : VoteMode) : VoteMode.dec x.enc = some x := by cases x <;> rfl

/-- The code of MODE of `redux`, the low three bits of MODE of `scan` (R189). -/
def RedOp.enc : RedOp → BitVec 3
  | .add => 0
  | .min => 1
  | .max => 2
  | .and => 3
  | .or => 4
  | .xor => 5

/-- MODE of `redux`, the low three bits of MODE of `scan` (R189), none for a reserved code. -/
def RedOp.dec (c : BitVec 3) : Option RedOp :=
  match c.toNat with
  | 0 => some .add
  | 1 => some .min
  | 2 => some .max
  | 3 => some .and
  | 4 => some .or
  | 5 => some .xor
  | _ => none

theorem RedOp.dec_enc (x : RedOp) : RedOp.dec x.enc = some x := by cases x <;> rfl

/-- The code of TAG (R189). -/
def TagSel.enc : TagSel → BitVec 2
  | .u => 0
  | .a => 1
  | .g => 2

/-- TAG (R189), none for a reserved code. -/
def TagSel.dec (c : BitVec 2) : Option TagSel :=
  match c.toNat with
  | 0 => some .u
  | 1 => some .a
  | 2 => some .g
  | _ => none

theorem TagSel.dec_enc (x : TagSel) : TagSel.dec x.enc = some x := by cases x <;> rfl

/-- The code of POL (R109). -/
def Pol.enc : Pol → BitVec 3
  | .l1 => 0
  | .l2 => 1
  | .str => 2
  | .sys => 3
  | .ro => 4

/-- POL (R109), none for a reserved code. -/
def Pol.dec (c : BitVec 3) : Option Pol :=
  match c.toNat with
  | 0 => some .l1
  | 1 => some .l2
  | 2 => some .str
  | 3 => some .sys
  | 4 => some .ro
  | _ => none

theorem Pol.dec_enc (x : Pol) : Pol.dec x.enc = some x := by cases x <;> rfl

/-- The code of SCOPE (R189). -/
def Scope.enc : Scope → BitVec 3
  | .no => 0
  | .sp => 1
  | .blk => 2
  | .gang => 3
  | .dev => 4
  | .sys => 5

/-- SCOPE (R189), none for a reserved code. -/
def Scope.dec (c : BitVec 3) : Option Scope :=
  match c.toNat with
  | 0 => some .no
  | 1 => some .sp
  | 2 => some .blk
  | 3 => some .gang
  | 4 => some .dev
  | 5 => some .sys
  | _ => none

theorem Scope.dec_enc (x : Scope) : Scope.dec x.enc = some x := by cases x <;> rfl

/-- The code of ORD (R189). -/
def Ord.enc : Ord → BitVec 2
  | .no => 0
  | .acq => 1
  | .rel => 2
  | .acqrel => 3

/-- ORD (R189), none for a reserved code. -/
def Ord.dec (c : BitVec 2) : Option Ord :=
  match c.toNat with
  | 0 => some .no
  | 1 => some .acq
  | 2 => some .rel
  | 3 => some .acqrel
  | _ => none

theorem Ord.dec_enc (x : Ord) : Ord.dec x.enc = some x := by cases x <;> rfl

/-- The code of SIZE (R189). -/
def Size.enc : Size → BitVec 3
  | .b8 => 0
  | .i8 => 1
  | .b16 => 2
  | .i16 => 3
  | .b32 => 4
  | .b64 => 5
  | .b128 => 6

/-- SIZE (R189), none for a reserved code. -/
def Size.dec (c : BitVec 3) : Option Size :=
  match c.toNat with
  | 0 => some .b8
  | 1 => some .i8
  | 2 => some .b16
  | 3 => some .i16
  | 4 => some .b32
  | 5 => some .b64
  | 6 => some .b128
  | _ => none

theorem Size.dec_enc (x : Size) : Size.dec x.enc = some x := by cases x <;> rfl

/-- The code of AOP of `atom` (R189). -/
def AOp.enc : AOp → BitVec 4
  | .add => 0
  | .min => 1
  | .max => 2
  | .minu => 3
  | .maxu => 4
  | .and => 5
  | .or => 6
  | .xor => 7
  | .exch => 8
  | .cas => 9
  | .inc => 10
  | .fadd => 11

/-- AOP of `atom` (R189), none for a reserved code. -/
def AOp.dec (c : BitVec 4) : Option AOp :=
  match c.toNat with
  | 0 => some .add
  | 1 => some .min
  | 2 => some .max
  | 3 => some .minu
  | 4 => some .maxu
  | 5 => some .and
  | 6 => some .or
  | 7 => some .xor
  | 8 => some .exch
  | 9 => some .cas
  | 10 => some .inc
  | 11 => some .fadd
  | _ => none

theorem AOp.dec_enc (x : AOp) : AOp.dec x.enc = some x := by cases x <;> rfl

/-- The code of FSET (R189). -/
def FSet.enc : FSet → BitVec 4
  | .ll => 0
  | .ls => 1
  | .sl => 2
  | .ss => 3
  | .all => 4
  | .win => 5
  | .async => 6

/-- FSET (R189), none for a reserved code. -/
def FSet.dec (c : BitVec 4) : Option FSet :=
  match c.toNat with
  | 0 => some .ll
  | 1 => some .ls
  | 2 => some .sl
  | 3 => some .ss
  | 4 => some .all
  | 5 => some .win
  | 6 => some .async
  | _ => none

theorem FSet.dec_enc (x : FSet) : FSet.dec x.enc = some x := by cases x <;> rfl

/-- The code of STATE of `vpub` (R189). -/
def VState.enc : VState → BitVec 2
  | .no => 0
  | .partial_ => 1
  | .complete => 2

/-- STATE of `vpub` (R189), none for a reserved code. -/
def VState.dec (c : BitVec 2) : Option VState :=
  match c.toNat with
  | 0 => some .no
  | 1 => some .partial_
  | 2 => some .complete
  | _ => none

theorem VState.dec_enc (x : VState) : VState.dec x.enc = some x := by cases x <;> rfl

/-- The code of RM of `zrnd` and DRND (R68, R302). -/
def RMode.enc : RMode → BitVec 3
  | .rne => 0
  | .rz => 1
  | .ru => 2
  | .rd => 3
  | .sr => 4

/-- RM of `zrnd` and DRND (R68, R302), none for a reserved code. -/
def RMode.dec (c : BitVec 3) : Option RMode :=
  match c.toNat with
  | 0 => some .rne
  | 1 => some .rz
  | 2 => some .ru
  | 3 => some .rd
  | 4 => some .sr
  | _ => none

theorem RMode.dec_enc (x : RMode) : RMode.dec x.enc = some x := by cases x <;> rfl

/-- The code of DFMT of `zrnd` (R302). -/
def ZFmt.enc : ZFmt → BitVec 4
  | .f32 => 0
  | .bf16 => 1
  | .f16 => 2
  | .int32 => 3
  | .f64 => 4

/-- DFMT of `zrnd` (R302), none for a reserved code. -/
def ZFmt.dec (c : BitVec 4) : Option ZFmt :=
  match c.toNat with
  | 0 => some .f32
  | 1 => some .bf16
  | 2 => some .f16
  | 3 => some .int32
  | 4 => some .f64
  | _ => none

theorem ZFmt.dec_enc (x : ZFmt) : ZFmt.dec x.enc = some x := by cases x <;> rfl

/-- The code of SFMT of `mgstage` (R311). -/
def MgFmt.enc : MgFmt → BitVec 2
  | .f32 => 0
  | .bf16 => 1
  | .f16 => 2

/-- SFMT of `mgstage` (R311), none for a reserved code. -/
def MgFmt.dec (c : BitVec 2) : Option MgFmt :=
  match c.toNat with
  | 0 => some .f32
  | 1 => some .bf16
  | 2 => some .f16
  | _ => none

theorem MgFmt.dec_enc (x : MgFmt) : MgFmt.dec x.enc = some x := by cases x <;> rfl

/-- The code of RED of `coll` (R314). -/
def Red.enc : Red → BitVec 3
  | .sum => 0
  | .max => 1
  | .min => 2
  | .clip => 3

/-- RED of `coll` (R314), none for a reserved code. -/
def Red.dec (c : BitVec 3) : Option Red :=
  match c.toNat with
  | 0 => some .sum
  | 1 => some .max
  | 2 => some .min
  | 3 => some .clip
  | _ => none

theorem Red.dec_enc (x : Red) : Red.dec x.enc = some x := by cases x <;> rfl
/-- A selector code with its literal (R185), none for the reserved codes. -/
def Sel.dec (c : Byte) (lit : Word) : Option Sel :=
  if c.toNat < 0x80 then some (.v (c.extractLsb' 0 7))
  else if c.toNat < 0xC0 then some (.s (c.extractLsb' 0 6))
  else match c.toNat with
    | 0xC0 => some .zero
    | 0xC1 => some .slot
    | 0xC2 => some (.x 0)
    | 0xC3 => some (.x 1)
    | 0xC4 => some (.x 2)
    | 0xC5 => some (.x 3)
    | 0xC6 => some (.imm lit)
    | 0xC8 => some .widlo
    | 0xC9 => some .widhi
    | 0xCA => some .spid
    | 0xCB => some .coreid
    | 0xCC => some .gangid
    | 0xCD => some .dpc
    | _ => none

/-- The code of a selector (R185). -/
def Sel.enc : Sel → Byte
  | .v n => 0#1 ++ n
  | .s n => 2#2 ++ n
  | .zero => 0xC0
  | .slot => 0xC1
  | .x n => (0xC2#8 + n.setWidth 8)
  | .imm _ => 0xC6
  | .widlo => 0xC8
  | .widhi => 0xC9
  | .spid => 0xCA
  | .coreid => 0xCB
  | .gangid => 0xCC
  | .dpc => 0xCD

/-- The literal word of a selector (R184). -/
def Sel.lit : Sel → List Word
  | .imm w => [w]
  | _ => []

/-- The decoder's results: an instruction or the trap of R181. -/
abbrev Dec := Except DecErr

def insn {α : Type} : Option α → Dec α
  | some x => .ok x
  | none => .error .illegalInsn

def opnd {α : Type} : Option α → Dec α
  | some x => .ok x
  | none => .error .illegalOperand

/-- A code rule (R188 to R190). -/
def guardInsn (b : Bool) : Dec Unit := if b then .ok () else .error .illegalInsn
/-- A selector rule (R184 to R187). -/
def guardOpnd (b : Bool) : Dec Unit := if b then .ok () else .error .illegalOperand

/-- The fields of one instruction's words: opcode, NW, D, A, B, C, MOD and the literals of A, B and C. -/
structure Raw where
  op : Nat
  nw : Bool
  d  : Byte
  a  : Byte
  b  : Byte
  c  : Byte
  md : BitVec 24
  la : Word
  lb : Word
  lc : Word
  deriving DecidableEq, Repr

namespace Raw

/-- The `w` bits of MOD from bit `lo` up. -/
def f (r : Raw) (lo w : Nat) : BitVec w := r.md.extractLsb' lo w
/-- One bit of MOD. -/
def bit (r : Raw) (i : Nat) : Bool := r.md.getLsbD i

def selA (r : Raw) : Dec Sel := opnd (Sel.dec r.a r.la)
def selB (r : Raw) : Dec Sel := opnd (Sel.dec r.b r.lb)
def selC (r : Raw) : Dec Sel := opnd (Sel.dec r.c r.lc)
/-- The EF group's fourth selector (R184, R188): no literal, and IMM is refused by the checks. -/
def selE (r : Raw) : Dec Sel := opnd (Sel.dec (r.f 16 8) 0)

/-- Unused positions hold 0xC0 (R184). -/
def noA (r : Raw) : Dec Unit := guardOpnd (r.a == 0xC0)
def noB (r : Raw) : Dec Unit := guardOpnd (r.b == 0xC0)
def noC (r : Raw) : Dec Unit := guardOpnd (r.c == 0xC0)
def noD (r : Raw) : Dec Unit := guardOpnd (r.d == 0xC0)
def noE (r : Raw) : Dec Unit := guardOpnd (r.f 16 8 == 0xC0)

/-- NW = 1 is refused (R60). -/
def noNW (r : Raw) : Dec Unit := guardInsn (!r.nw)

/-- A VD destination; D is ignored with NW = 1 (R184). -/
def vd (r : Raw) : Dec VDst :=
  if r.nw then .ok .latch
  else if r.d.toNat < 0x80 then .ok (.v (r.d.extractLsb' 0 7))
  else .error .illegalOperand

/-- An SD destination of the uniform ALU. -/
def ud (r : Raw) : Dec UDst :=
  if r.nw then .ok .latch
  else if 0x80 ≤ r.d.toNat ∧ r.d.toNat < 0xC0 then .ok (.s (r.d.extractLsb' 0 6))
  else .error .illegalOperand

/-- A "VD pair or SD" destination. -/
def td (r : Raw) : Dec TDst :=
  if r.nw then .ok .latch
  else if r.d.toNat < 0x80 then .ok (.v (r.d.extractLsb' 0 7))
  else if r.d.toNat < 0xC0 then .ok (.s (r.d.extractLsb' 0 6))
  else .error .illegalOperand

/-- A v register number in a selector field. -/
def vnum (c : Byte) : Dec (BitVec 7) :=
  if c.toNat < 0x80 then .ok (c.extractLsb' 0 7) else .error .illegalOperand

/-- An s register number in a selector field. -/
def snum (c : Byte) : Dec (BitVec 6) :=
  if 0x80 ≤ c.toNat ∧ c.toNat < 0xC0 then .ok (c.extractLsb' 0 6) else .error .illegalOperand

/-- A predicate number (kinds PD and P, R186). -/
def pnum (c : Byte) : Dec (BitVec 5) :=
  if c.toNat < 32 then .ok (c.extractLsb' 0 5) else .error .illegalOperand

/-- A barrier number (kind B). -/
def bnum (c : Byte) : Dec (BitVec 3) :=
  if c.toNat < 8 then .ok (c.extractLsb' 0 3) else .error .illegalOperand

/-- A tile number (kind Z). -/
def znum (c : Byte) : Dec (BitVec 4) :=
  if c.toNat < 16 then .ok (c.extractLsb' 0 4) else .error .illegalOperand

/-- A v destination of a long-latency instruction: NW is refused first (R60). -/
def vlong (r : Raw) : Dec (BitVec 7) := do r.noNW; vnum r.d
/-- An s destination of a long-latency instruction. -/
def slong (r : Raw) : Dec (BitVec 6) := do r.noNW; snum r.d

/-- VI fields (R203): ITYPE, with SAT, COND and LUT refused unless the instruction takes them. -/
def vi (r : Raw) (sat cond lut : Bool) : Dec (IType × Bool) := do
  let t ← insn (IType.dec (r.f 21 3))
  guardInsn (sat || !r.bit 20)
  guardInsn (cond || r.f 16 4 == 0)
  guardInsn (lut || r.f 8 8 == 0)
  guardInsn (r.f 0 8 == 0)
  return (t, r.bit 20)

/-- VI fields with every code 0 but LUT where it is taken (R204). -/
def vi0 (r : Raw) (lut : Bool) : Dec Unit := do
  let (t, _) ← r.vi false false lut
  guardInsn (t == .sgn)

/-- VF fields (R217): FTYPE, RND and FTZ, with those an instruction does not take refused. -/
def vf (r : Raw) (rnd ftz cr fc : Bool) : Dec (FMod × Bool) := do
  let t ← insn (FType.dec (r.f 22 2))
  let m ← insn (Rnd.dec (r.f 20 2))
  guardInsn (rnd || m == .rn)
  guardInsn (ftz || !r.bit 19)
  guardInsn (cr || !r.bit 18)
  guardInsn (fc || r.f 14 4 == 0)
  guardInsn (r.f 0 14 == 0)
  return (⟨t, m, r.bit 19⟩, r.bit 18)

/-- CV fields (R227), with PART. -/
def cv (r : Raw) : Dec (CMod × BitVec 2) := do
  let d ← insn (CFmt.dec (r.f 20 4))
  let s ← insn (CFmt.dec (r.f 16 4))
  let m ← insn (Rnd.dec (r.f 13 2))
  guardInsn (!r.bit 15 && r.f 0 9 == 0)
  return (⟨d, s, m, r.bit 12, r.bit 11⟩, r.f 9 2)

/-- VX fields SEG and the zero bits (R260); MODE and XTYPE are read by the instruction. -/
def vx (r : Raw) : Dec Seg := do
  let g ← insn (Seg.dec (r.f 14 3))
  guardInsn (r.f 0 14 == 0)
  return g

/-- An XTYPE that is `.b32` or `.b64` (R260). -/
def xwide (r : Raw) : Dec Bool := do
  let t ← insn (XType.dec (r.f 17 3))
  guardInsn (t == .b32 || t == .b64)
  return t == .b64

/-- The A and B fields of a memory operand, with an immediate. -/
def mem (r : Raw) (imm : BitVec 13) : Dec MemOp := do
  let b ← r.selA
  let o ← r.selB
  return ⟨b, o, imm⟩

/-- ME fields of a global access (R242). -/
def me (r : Raw) : Dec (AMod × Size) := do
  let p ← insn (Pol.dec (r.f 21 3))
  let s ← insn (Scope.dec (r.f 18 3))
  let o ← insn (Ord.dec (r.f 16 2))
  let z ← insn (Size.dec (r.f 13 3))
  return (⟨p, s, o⟩, z)

/-- ME fields that are all zero but the policy, where `pol` allows one, and OFF (R190). -/
def me0 (r : Raw) (pol : Bool) : Dec Pol := do
  let p ← insn (Pol.dec (r.f 21 3))
  guardInsn (pol || p == .l1)
  guardInsn (r.f 18 3 == 0 && r.f 16 2 == 0 && r.f 13 3 == 0)
  return p

/-- The local access's size, its policy, scope and order zero (R190, R246). -/
def meLocal (r : Raw) : Dec Size := do
  let z ← insn (Size.dec (r.f 13 3))
  guardInsn (r.f 21 3 == 0 && r.f 18 3 == 0 && r.f 16 2 == 0)
  return z

/-- MA fields (R247) but RES; the offset is signed in 10 bits and kept sign-extended to 13. -/
def ma (r : Raw) : Dec (AMod × Bool) := do
  let p ← insn (Pol.dec (r.f 21 3))
  let s ← insn (Scope.dec (r.f 18 3))
  let o ← insn (Ord.dec (r.f 16 2))
  return (⟨p, s, o⟩, r.bit 15)

/-- LC fields (R257): the offset. -/
def lcOff (r : Raw) : Dec (BitVec 16) := do
  guardInsn (r.f 16 8 == 0)
  return r.f 0 16

/-- UA fields (R238): UTYPE and COND, refused where the instruction takes none. -/
def ua (r : Raw) (cond : Bool) : Dec (UType × Cond) := do
  let t ← insn (UType.dec (r.f 21 3))
  let c ← insn (Cond.dec (r.f 16 4))
  guardInsn (cond || c == .eq)
  guardInsn (!r.bit 20 && r.f 0 16 == 0)
  return (t, c)

/-- CP fields (R293): policy, direction and counter; CTR is not read when CNT = 0. -/
def cp (r : Raw) : Dec (Pol × Bool × Option (BitVec 16)) := do
  let p ← insn (Pol.dec (r.f 21 3))
  guardInsn (r.f 16 3 == 0)
  return (p, r.bit 20, if r.bit 19 then some (r.f 0 16) else none)

/-- EF FLAGS with only the bits of `m` allowed (R289). -/
def flags (r : Raw) (m : BitVec 16) : Dec (BitVec 16) := do
  guardInsn (r.f 0 16 &&& ~~~m == 0)
  return r.f 0 16

/-- TC fields (R282): the code. -/
def tc (r : Raw) : Dec Byte := do
  guardInsn (r.f 8 16 == 0)
  return r.f 0 8

end Raw

/-- A V-class instruction of two lane operands and no extension (R192). -/
def decV2 (r : Raw) (mk : VDst → Sel → Sel → Instr) : Dec Instr := do
  let d ← r.vd
  let a ← r.selA
  let b ← r.selB
  return mk d a b

/-- A V-class instruction of one lane operand. -/
def decV1 (r : Raw) (mk : VDst → Sel → Instr) : Dec Instr := do
  let d ← r.vd
  let a ← r.selA
  r.noB
  return mk d a

/-- A predicate operation (R232). -/
def decP (r : Raw) (mk : BitVec 5 → BitVec 5 → BitVec 5 → Instr) : Dec Instr := do
  r.noNW
  let d ← Raw.pnum r.d
  let a ← Raw.pnum r.a
  let b ← Raw.pnum r.b
  return mk d a b

/-- A typed two-operand integer instruction (VI) without saturation. -/
def decVI (r : Raw) (mk : VDst → IType → Sel → Sel → Instr) : Dec Instr := do
  let (t, _) ← r.vi false false false
  let d ← r.vd
  let a ← r.selA
  let b ← r.selB
  r.noC
  return mk d t a b

/-- Three lane operands under a VI word of zero codes (R204). -/
def decVI3 (r : Raw) (mk : VDst → Sel → Sel → Sel → Instr) : Dec Instr := do
  r.vi0 false
  let d ← r.vd
  let a ← r.selA
  let b ← r.selB
  let c ← r.selC
  return mk d a b c

/-- Two lane operands and a predicate in C (R208, R216). -/
def decVIP (r : Raw) (mk : VDst → Sel → Sel → BitVec 5 → Instr) : Dec Instr := do
  r.vi0 false
  let d ← r.vd
  let a ← r.selA
  let b ← r.selB
  let p ← Raw.pnum r.c
  return mk d a b p

/-- `fadd`, `fsub`, `fmul`. -/
def decF2 (r : Raw) (mk : VDst → FMod → Sel → Sel → Instr) : Dec Instr := do
  let (m, _) ← r.vf true true false false
  let d ← r.vd
  let a ← r.selA
  let b ← r.selB
  r.noC
  return mk d m a b

/-- `fmin`, `fmax`, `fminn`, `fmaxn`. -/
def decFM (r : Raw) (mk : VDst → FType → Bool → Sel → Sel → Instr) : Dec Instr := do
  let (m, _) ← r.vf false true false false
  let d ← r.vd
  let a ← r.selA
  let b ← r.selB
  r.noC
  return mk d m.ft m.ftz a b

/-- A one-operand float instruction. -/
def decF1 (r : Raw) (rnd ftz : Bool) (mk : VDst → FMod → Sel → Instr) : Dec Instr := do
  let (m, _) ← r.vf rnd ftz false false
  let d ← r.vd
  let a ← r.selA
  r.noB
  r.noC
  return mk d m a

/-- V class (R192). Of several breaches the first in this order gives the trap: the codes of the extension word, NW, the
selectors, and last what `Instr.check` refuses. DESIGN CHOICE, log entry 16. -/
def decodeV (r : Raw) : Dec Instr :=
  match r.op with
  | 0x00 => decV2 r .iadd
  | 0x01 => decV2 r .isub
  | 0x02 => do
      let (t, s) ← r.vi true false false
      let d ← r.vd; let a ← r.selA; let b ← r.selB; r.noC
      return .imul d t s a b
  | 0x03 => decVI r .imulhi
  | 0x04 => do
      let (t, s) ← r.vi true false false
      let d ← r.vd; let a ← r.selA; let b ← r.selB; let c ← r.selC
      return .imad d t s a b c
  | 0x05 => decV1 r .iabs
  | 0x06 => decV1 r .ineg
  | 0x07 => decVI r .imin
  | 0x08 => decVI r .imax
  | 0x09 => decVIP r .iaddc
  | 0x0A => decVIP r .isubb
  | 0x0B => decVI r .iadds
  | 0x10 => decV2 r .shl
  | 0x11 => decV2 r .shr
  | 0x12 => decV2 r .sar
  | 0x13 => decV2 r .rot
  | 0x14 => decV2 r .and
  | 0x15 => decV2 r .or
  | 0x16 => decV2 r .xor
  | 0x17 => decV2 r .andn
  | 0x18 => decV2 r .orn
  | 0x19 => decV1 r .not
  | 0x1A => do
      r.vi0 true
      let d ← r.vd; let a ← r.selA; let b ← r.selB; let c ← r.selC
      return .logic3 d (r.f 8 8) a b c
  | 0x1B => decV1 r .popc
  | 0x1C => decV1 r .clz
  | 0x1D => decV1 r .ctz
  | 0x1E => decV1 r .brev
  | 0x1F => do
      let (t, _) ← r.vi false false false
      let d ← r.vd; let a ← r.selA; let b ← r.selB; let c ← r.selC
      return .bfx d t a b c
  | 0x20 => decVI3 r .bfi
  | 0x21 => decVI3 r .bperm
  | 0x22 => do
      let (t, _) ← r.vi false true false
      let c ← insn (Cond.dec (r.f 16 4))
      r.noNW
      let p ← Raw.pnum r.d; let a ← r.selA; let b ← r.selB; r.noC
      return .icmp p c t a b
  | 0x23 => decVIP r .sel
  | 0x24 => decV1 r .mov
  | 0x30 => decF2 r .fadd
  | 0x31 => decF2 r .fsub
  | 0x32 => decF2 r .fmul
  | 0x33 => do
      let (m, _) ← r.vf true true false false
      let d ← r.vd; let a ← r.selA; let b ← r.selB; let c ← r.selC
      return .ffma d m a b c
  | 0x34 => decFM r .fmin
  | 0x35 => decFM r .fmax
  | 0x36 => decFM r .fminn
  | 0x37 => decFM r .fmaxn
  | 0x38 => decF1 r false false (fun d m a => .fabs d m.ft a)
  | 0x39 => decF1 r false false (fun d m a => .fneg d m.ft a)
  | 0x3A => do
      let (m, _) ← r.vf false false false false
      let d ← r.vd; let a ← r.selA; let b ← r.selB; r.noC
      return .fsgn d m.ft a b
  | 0x3B => do
      let (m, _) ← r.vf false true false true
      let c ← insn (FCond.dec (r.f 14 4))
      r.noNW
      let p ← Raw.pnum r.d; let a ← r.selA; let b ← r.selB; r.noC
      return .fcmp p c m.ft m.ftz a b
  | 0x3C => do
      let (m, _) ← r.vf false false false false
      r.noNW
      let p ← Raw.pnum r.d; let a ← r.selA; let b ← r.selB; r.noC
      return .fclass p m.ft a b
  | 0x3D => decF1 r true true .fround
  | 0x3E => decF2 r .fscale
  | 0x3F => decF1 r false true (fun d m a => .fexpn d m.ft m.ftz a)
  | 0x40 => decF1 r false true (fun d m a => .fmant d m.ft m.ftz a)
  | 0x48 => do
      let (m, p) ← r.cv
      guardInsn (p == 0)
      let d ← r.vd; let a ← r.selA; r.noB; r.noC
      return .cvt d m a
  | 0x49 => do
      let (m, p) ← r.cv
      let d ← r.vd; let a ← r.selA; let b ← r.selB; r.noC
      return .cvtp d m p a b
  | 0x4A => do
      let (m, p) ← r.cv
      let d ← r.vd; let a ← r.selA; r.noB; r.noC
      return .cvtu d m p a
  | 0x50 => decP r .pand
  | 0x51 => decP r .por
  | 0x52 => decP r .pxor
  | 0x53 => do
      r.noNW
      let d ← Raw.pnum r.d; let a ← Raw.pnum r.a; r.noB
      return .pnot d a
  | 0x54 => do
      guardInsn (r.f 0 22 == 0)
      r.noB; r.noC
      match (r.f 22 2).toNat with
      | 0 => do r.noNW; let p ← Raw.pnum r.d; let a ← r.selA; return .pmov (.test p a)
      | 1 => do r.noNW; let p ← Raw.pnum r.d; let a ← Raw.pnum r.a; return .pmov (.copy p a)
      | 2 => do let d ← r.vd; r.noA; return .pmov (.get d)
      | _ => do r.noNW; r.noD; let a ← r.selA; return .pmov (.put a)
  | 0x60 => do
      let g ← r.vx
      let m ← insn (ShMode.dec (r.f 20 4))
      let w ← r.xwide
      let d ← r.vd; let a ← r.selA; let b ← r.selB; r.noC
      return .shfl d m w g a b
  | 0x61 => do
      let g ← r.vx
      guardInsn (r.f 20 4 == 0)
      let w ← r.xwide
      let d ← r.vd; let a ← r.selA; let b ← r.selB; r.noC
      return .spush d w g a b
  | 0x62 => do
      let g ← r.vx
      let m ← insn (VoteMode.dec (r.f 20 4))
      guardInsn (r.f 17 3 == 0)
      r.noNW
      let p ← Raw.pnum r.d; let a ← Raw.pnum r.a; r.noB; r.noC
      return .vote p m g a
  | 0x63 => do
      let g ← r.vx
      guardInsn (r.f 20 4 == 0 && r.f 17 3 == 0)
      let d ← r.vd; let a ← Raw.pnum r.a; r.noB; r.noC
      return .ballot d g a
  | 0x64 => do
      let g ← r.vx
      guardInsn (r.f 21 3 == 0)
      let t ← insn (XType.dec (r.f 17 3))
      let d ← r.vd; let a ← r.selA; r.noB; r.noC
      return .matchSlots d (r.bit 20) t g a
  | 0x65 => do
      let g ← r.vx
      guardInsn (!r.bit 23)
      let o ← insn (RedOp.dec (r.f 20 3))
      let t ← insn (XType.dec (r.f 17 3))
      let d ← r.vd; let a ← r.selA; r.noB; r.noC
      return .redux d o t g a
  | 0x66 => do
      let g ← r.vx
      let o ← insn (RedOp.dec (r.f 20 3))
      let t ← insn (XType.dec (r.f 17 3))
      let d ← r.vd; let a ← r.selA; r.noB; r.noC
      return .scan d o (r.bit 23) t g a
  | 0x67 => do
      let d ← r.vd; r.noA; r.noB
      return .nact d
  | 0x70 => do
      guardInsn (r.f 0 22 == 0)
      let t ← insn (TagSel.dec (r.f 22 2))
      let d ← r.vd; let a ← r.selA; r.noB; r.noC
      return .shape d t a
  | 0x71 => decV1 r .shapeof
  | _ => .error .illegalInsn

/-- A uniform instruction of two operands and no extension (R238). -/
def decU2 (r : Raw) (mk : UDst → Sel → Sel → Instr) : Dec Instr := do
  let d ← r.ud
  let a ← r.selA
  let b ← r.selB
  return mk d a b

/-- A uniform instruction of one operand. -/
def decU1 (r : Raw) (mk : UDst → Sel → Instr) : Dec Instr := do
  let d ← r.ud
  let a ← r.selA
  r.noB
  return mk d a

/-- A uniform instruction of two operands under a UA word without condition. -/
def decUA (r : Raw) (mk : UDst → UType → Sel → Sel → Instr) : Dec Instr := do
  let (t, _) ← r.ua false
  let d ← r.ud
  let a ← r.selA
  let b ← r.selB
  r.noC
  return mk d t a b

/-- M class (R193). -/
def decodeM (r : Raw) : Dec Instr :=
  match r.op with
  | 0x00 => do
      let (k, z) ← r.me
      let d ← r.vlong; let m ← r.mem (r.f 0 13); r.noC
      return .ld d k z m
  | 0x01 => do
      let (k, z) ← r.me
      r.noNW; r.noD; let m ← r.mem (r.f 0 13); let x ← r.selC
      return .st k z m x
  | 0x02 => do
      let z ← r.meLocal
      let d ← r.vlong; let m ← r.mem (r.f 0 13); r.noC
      return .ldl d z m
  | 0x03 => do
      let z ← r.meLocal
      r.noNW; r.noD; let m ← r.mem (r.f 0 13); let x ← r.selC
      return .stl z m x
  | 0x04 => do
      let (k, w) ← r.ma
      let o ← insn (AOp.dec (r.f 11 4))
      r.noNW
      let d ← if r.bit 10 then (do let d ← Raw.vnum r.d; return some d) else (do r.noD; return none)
      let m ← r.mem ((r.f 0 10).signExtend 13); let x ← r.selC
      return .atom d k w o m x
  | 0x05 => do
      let (k, w) ← r.ma
      guardInsn ((r.f 11 4).toNat < 2 && !r.bit 10)
      r.noNW; r.noD
      let m ← r.mem ((r.f 0 10).signExtend 13); let x ← r.selC
      return .atomx k w (r.f 11 4 == 1) m x
  | 0x06 => do
      let s ← insn (Scope.dec (r.f 18 3))
      let f ← insn (FSet.dec (r.f 14 4))
      guardInsn (r.f 21 3 == 0 && r.f 0 14 == 0)
      r.noNW; r.noD; r.noA; r.noB; r.noC
      return .fence s f
  | 0x07 => do
      let p ← r.me0 true
      r.noNW; r.noD; let m ← r.mem (r.f 0 13); r.noC
      return .pref p m
  | 0x08 => do
      r.noNW; r.noD; r.noA; r.noB
      return .roinv
  | 0x09 => do
      let _ ← r.me0 false
      r.noNW; r.noD; let m ← r.mem (r.f 0 13); let x ← r.selC
      return .persist m x
  | 0x0A => do
      r.noNW; r.noD; r.noA; r.noB
      return .wfence
  | 0x0B => do
      let _ ← r.me0 false
      r.noNW; r.noD; let m ← r.mem (r.f 0 13); r.noC
      return .wfire m
  | 0x0C => do
      let _ ← r.me0 false
      r.noNW; r.noD; let m ← r.mem (r.f 0 13); r.noC
      return .wrel m
  | 0x0D => do
      let _ ← r.me0 false
      r.noNW; r.noD; let m ← r.mem (r.f 0 13); let x ← r.selC
      return .pclr m x
  | 0x0E => do
      let o ← r.lcOff
      r.noNW; r.noD; let a ← r.selA; let b ← r.selB; let c ← r.selC
      return .arcset a b c o
  | 0x0F => do
      let o ← r.lcOff
      r.noNW; r.noD; let a ← r.selA; let b ← r.selB; r.noC
      return .arcadd a b o
  | 0x20 => decU2 r .sadd
  | 0x21 => decU2 r .ssub
  | 0x22 => decU2 r .smul
  | 0x23 => decUA r .smulhi
  | 0x24 => do
      let (t, _) ← r.ua false
      let d ← r.ud; let a ← r.selA; let b ← r.selB; let c ← r.selC
      return .smad d t a b c
  | 0x25 => decU2 r .sshl
  | 0x26 => decU2 r .sshr
  | 0x27 => decU2 r .ssar
  | 0x28 => decU2 r .sand
  | 0x29 => decU2 r .sor
  | 0x2A => decU2 r .sxor
  | 0x2B => decU1 r .snot
  | 0x2C => decUA r .smin
  | 0x2D => decUA r .smax
  | 0x2E => decU1 r .smov
  | 0x2F => do
      let (t, c) ← r.ua true
      let d ← r.ud; let a ← r.selA; let b ← r.selB; r.noC
      return .scmp d c t a b
  | 0x30 => do
      let (t, _) ← r.ua false
      guardInsn (t == .sgn64)
      let d ← r.ud; let a ← r.selA; let b ← r.selB; let c ← r.selC
      return .ssel d a b c
  | 0x31 => decU1 r .spopc
  | 0x32 => decU1 r .sclz
  | 0x33 => decU1 r .rfa
  | _ => .error .illegalInsn

/-- A special function with FTZ alone (R291). -/
def decSF (r : Raw) (mk : BitVec 7 → Bool → Sel → Instr) : Dec Instr := do
  let (m, _) ← r.vf false true false false
  guardInsn (m.ft == .f32)
  let d ← r.vlong
  let a ← r.selA
  r.noB
  r.noC
  return mk d m.ftz a

/-- A special function with `.cr` and `.f64` forms (R291). -/
def decCR (r : Raw) (mk : BitVec 7 → Bool → Bool → Bool → Sel → Instr) : Dec Instr := do
  let (m, c) ← r.vf false true true false
  guardInsn (m.ft == .f32 || m.ft == .f64)
  let d ← r.vlong
  let a ← r.selA
  r.noB
  r.noC
  return mk d (m.ft == .f64) m.ftz c a

/-- An EF instruction that writes a status into sD and takes one operand (R289). -/
def decS1 (r : Raw) (mk : BitVec 6 → Sel → Instr) : Dec Instr := do
  let _ ← r.flags 0
  let d ← r.slong
  let a ← r.selA
  r.noB
  r.noC
  r.noE
  return mk d a

/-- The same with two operands. -/
def decS2 (r : Raw) (mk : BitVec 6 → Sel → Sel → Instr) : Dec Instr := do
  let _ ← r.flags 0
  let d ← r.slong
  let a ← r.selA
  let b ← r.selB
  r.noC
  r.noE
  return mk d a b

/-- X class (R194, R289). -/
def decodeX (r : Raw) : Dec Instr :=
  match r.op with
  | 0x00 => decCR r .rcp
  | 0x01 => decSF r .rsq
  | 0x02 => decCR r .sqrt
  | 0x03 => decSF r .exp2
  | 0x04 => decSF r .log2
  | 0x05 => decSF r .sinpi
  | 0x06 => decSF r .cospi
  | 0x07 => decSF r .tanh
  | 0x08 => decSF r .erf
  | 0x09 => do
      let (m, c) ← r.vf false true true false
      guardInsn (m.ft == .f32 || m.ft == .f64)
      let d ← r.vlong; let a ← r.selA; let b ← r.selB; r.noC
      return .fdiv d (m.ft == .f64) m.ftz c a b
  | 0x0A => do
      let (t, _) ← r.vi false false false
      guardInsn (t == .sgn || t == .uns)
      let d ← r.vlong; let a ← r.selA; let b ← r.selB; r.noC
      return .idiv d (t == .uns) a b
  | 0x10 => do
      let (p, o, ctr) ← r.cp
      r.noNW
      let l ← opnd (Sel.dec r.d 0); guardOpnd l.notImm
      let a ← r.selA; let b ← r.selB; let c ← r.selC
      return .cpy p o ctr l a b c
  | 0x11 => do
      let (p, o, ctr) ← r.cp
      r.noNW
      let l ← opnd (Sel.dec r.d 0); guardOpnd l.notImm
      let a ← r.selA; let b ← r.selB; let c ← r.selC
      return .cpyw p o ctr l a b c
  | 0x12 => do
      let _ ← r.flags 0
      let d ← r.slong; let a ← r.selA; let b ← r.selB; let c ← r.selC; r.noE
      return .stmap d a b c
  | 0x13 => decS1 r .stunmap
  | 0x14 => decS2 r .stflush
  | 0x20 => do
      let f ← r.flags 1
      r.noNW
      let z ← Raw.znum r.d; let a ← r.selA; let b ← r.selB; let c ← r.selC; r.noE
      return .zdef z (f.getLsbD 0) a b c
  | 0x21 => do
      let _ ← r.flags 0
      r.noNW
      let z ← Raw.znum r.d; r.noA; r.noB; r.noC; r.noE
      return .zclr z
  | 0x22 => do
      let f ← r.flags 0x8000
      r.noNW
      let z ← Raw.znum r.d; let a ← r.selA; let b ← r.selB; let c ← r.selC; let e ← r.selE
      return if f.getLsbD 15 then .mmaGang z a b c e else .mma z a b c e
  | 0x23 => do
      r.noNW; r.noD; r.noA; r.noB
      return .opfence
  | 0x24 => do
      let f ← r.flags 0x7F
      let fm ← insn (ZFmt.dec (f.extractLsb' 0 4))
      let rm ← insn (RMode.dec (f.extractLsb' 4 3))
      let d ← r.vlong; let z ← Raw.znum r.a; let b ← r.selB; let c ← r.selC; let e ← r.selE
      guardOpnd e.notImm
      return .zrnd d fm rm z b c e
  | 0x25 => do
      let f ← r.flags 1
      r.noNW
      let z ← Raw.znum r.d; let a ← r.selA; let b ← r.selB; let c ← r.selC; let e ← r.selE
      return .zdrain z (f.getLsbD 0) a b c e
  | 0x26 => do
      let _ ← r.flags 0
      r.noNW
      let z ← Raw.znum r.d; let a ← r.selA; let b ← r.selB; r.noC; r.noE
      return .zld z a b
  | 0x27 => do
      let _ ← r.flags 0
      r.noNW
      let z ← Raw.znum r.d; let a ← r.selA; let b ← r.selB; r.noC; r.noE
      return .zst z a b
  | 0x28 => do
      let _ ← r.flags 0
      r.noNW
      let z ← if r.d == 0xC0 then (return none) else (do let z ← Raw.znum r.d; return some z)
      let a ← r.selA; r.noB; r.noC; let e ← r.selE
      return .quant z a e
  | 0x30 => do
      let f ← r.flags 1
      let d ← r.slong; let a ← r.selA; let b ← r.selB; r.noC; r.noE
      return .opinst d (f.getLsbD 0) a b
  | 0x31 => do
      let _ ← r.flags 0
      let d ← r.slong; let a ← r.selA; let b ← r.selB; let c ← r.selC; r.noE
      return .opbind d a b c
  | 0x32 => do
      let f ← r.flags 1
      let d ← r.slong; let a ← r.selA; r.noB; r.noC; r.noE
      return .opunbind d (f.getLsbD 0) a
  | 0x33 => decS2 r .opstat
  | 0x34 => decS2 r .opread
  | 0x38 => decS2 r .mgopen
  | 0x39 => do
      let f ← r.flags 3
      let fm ← insn (MgFmt.dec (f.extractLsb' 0 2))
      let d ← r.slong; let a ← r.selA; let b ← r.selB; let c ← r.selC; let e ← r.selE
      return .mgstage d fm a b c e
  | 0x3A => decS1 r .mgclose
  | 0x3B => decS1 r .mgcommit
  | 0x3C => do
      let f ← r.flags 1
      let d ← r.vlong; let a ← r.selA; let b ← r.selB; r.noC; r.noE
      return .mgread d (f.getLsbD 0) a b
  | 0x3D => decS1 r .mgabort
  | 0x40 => do
      let f ← r.flags 7
      let red ← insn (Red.dec (f.extractLsb' 0 3))
      let d ← r.slong; let a ← r.selA; let b ← r.selB; let c ← r.selC; let e ← r.selE
      return .coll d red a b c e
  | 0x41 => do
      let f ← r.flags 0xFF
      r.noNW; r.noD
      let a ← r.selA; let b ← r.selB; let c ← r.selC; let e ← r.selE
      return .xferw (f.extractLsb' 0 8) a b c e
  | 0x42 => do
      let f ← r.flags 0xFF
      r.noNW; r.noD
      let a ← r.selA; let b ← r.selB; let c ← r.selC; let e ← r.selE
      return .xferr (f.extractLsb' 0 8) a b c e
  | 0x43 => do
      let f ← r.flags 0x7FF
      r.noNW; r.noD
      let a ← r.selA; let b ← r.selB; r.noC; r.noE
      return if f.getLsbD 10 then .amsgReply (f.extractLsb' 0 6) (f.extractLsb' 6 4) a b
        else .amsg (f.extractLsb' 0 6) (f.extractLsb' 6 4) a b
  | 0x44 => do
      let _ ← r.flags 0
      r.noNW; r.noD
      let v ← Raw.vnum r.a; let b ← r.selB; let c ← r.selC; r.noE
      return .rwr v b c
  | 0x45 => do
      let f ← r.flags 1
      let d ← r.slong; let a ← r.selA; let b ← r.selB; let c ← r.selC; let e ← r.selE
      return .bepack d (f.getLsbD 0) a b c e
  | 0x46 => do
      let f ← r.flags 1
      let d ← r.slong; let a ← r.selA; let b ← r.selB; let c ← r.selC; r.noE
      return .beunpack d (f.getLsbD 0) a b c
  | _ => .error .illegalInsn

/-- A C-class instruction without fields or operands. -/
def decC0 (r : Raw) (i : Instr) : Dec Instr := do
  r.noNW
  r.noD
  r.noA
  r.noB
  return i

/-- C class (R195, R269). -/
def decodeC (r : Raw) : Dec Instr :=
  match r.op with
  | 0x00 => do r.noNW; r.noD; r.noA; r.noB; r.noC; return .bra r.md
  | 0x01 => do r.noNW; r.noD; let a ← r.selA; r.noB; return .jmp a
  | 0x02 => do r.noNW; r.noD; let a ← r.selA; r.noB; r.noC; return .brx a r.md
  | 0x03 => do r.noNW; r.noD; r.noA; r.noB; r.noC; return .call r.md
  | 0x04 => do r.noNW; r.noD; let a ← r.selA; r.noB; return .calli a
  | 0x05 => decC0 r .ret
  | 0x06 => do r.noNW; r.noD; let b ← Raw.bnum r.a; r.noB; return .enrol b
  | 0x07 => do r.noNW; r.noD; let b ← Raw.bnum r.a; r.noB; return .rejoin b
  | 0x08 => decC0 r .bar
  | 0x09 => decC0 r .gbar
  | 0x0A => do
      let o ← r.lcOff
      r.noNW; r.noD; let a ← r.selA; r.noB; r.noC
      return .arcwait a o
  | 0x0B => decC0 r .acq
  | 0x0C => decC0 r .rela
  | 0x0D => decC0 r .exit
  | 0x0E => decC0 r .yield
  | 0x0F => decC0 r .nop
  | 0x10 => do
      let c ← r.tc
      r.noNW; r.noD; r.noA; r.noB; r.noC
      return .trap c
  | 0x11 => do r.noNW; r.noD; let a ← r.selA; r.noB; return .sleep a
  | 0x12 => do let d ← r.td; r.noA; r.noB; return .time d
  | 0x13 => do let d ← r.td; r.noA; r.noB; return .slack d
  | 0x14 => do
      let s ← insn (VState.dec (r.f 22 2))
      let sc ← insn (Scope.dec (r.f 18 3))
      guardInsn (!r.bit 21 && r.f 13 5 == 0)
      r.noNW; r.noD; let m ← r.mem (r.f 0 13); let x ← r.selC
      return .vpub s sc m x
  | 0x15 => do
      let c ← r.tc
      r.noNW; r.noD; let a ← r.selA; let b ← r.selB; r.noC
      return .sys c a b
  | 0x16 => do
      guardInsn (r.f 12 12 == 0)
      let d ← r.td; r.noA; r.noB; r.noC
      return .csrr d (r.f 0 12)
  | 0x17 => do
      guardInsn (r.f 12 12 == 0)
      r.noNW; r.noD; let a ← r.selA; r.noB; r.noC
      return .csrw (r.f 0 12) a
  | 0x18 => decC0 r .tret
  | _ => .error .illegalInsn

/-- Whether an opcode of a class is followed by an extension word, none for a reserved opcode (R192 to R195,
R197). -/
def hasExt (c : Cls) (op : Nat) : Option Bool :=
  match c with
  | .v =>
      if op ∈ [0x00, 0x01, 0x05, 0x06, 0x10, 0x11, 0x12, 0x13, 0x14, 0x15, 0x16, 0x17, 0x18, 0x19, 0x1B, 0x1C,
        0x1D, 0x1E, 0x24, 0x50, 0x51, 0x52, 0x53, 0x67, 0x71] then some false
      else if op ≤ 0x0B ∨ 0x1A ≤ op ∧ op ≤ 0x24 ∨ 0x30 ≤ op ∧ op ≤ 0x40 ∨ 0x48 ≤ op ∧ op ≤ 0x4A ∨ op = 0x54 ∨
        0x60 ≤ op ∧ op ≤ 0x66 ∨ op = 0x70 then some true
      else none
  | .m =>
      if op ∈ [0x08, 0x0A, 0x20, 0x21, 0x22, 0x25, 0x26, 0x27, 0x28, 0x29, 0x2A, 0x2B, 0x2E, 0x31, 0x32, 0x33]
      then some false
      else if op ≤ 0x0F ∨ 0x20 ≤ op ∧ op ≤ 0x33 then some true
      else none
  | .x =>
      if op = 0x23 then some false
      else if op ≤ 0x0A ∨ 0x10 ≤ op ∧ op ≤ 0x14 ∨ 0x20 ≤ op ∧ op ≤ 0x28 ∨ 0x30 ≤ op ∧ op ≤ 0x34 ∨
        0x38 ≤ op ∧ op ≤ 0x3D ∨ 0x40 ≤ op ∧ op ≤ 0x46 then some true
      else none
  | .c =>
      if op ∈ [0x00, 0x02, 0x03, 0x0A, 0x10, 0x14, 0x15, 0x16, 0x17] then some true
      else if op ≤ 0x18 then some false
      else none

/-- Whether positions A, B and C hold selectors, so that 0xC6 in them brings a literal (R181, R184, R186). A of `pmov.copy`
holds a predicate number (R233). -/
def litPos (c : Cls) (op : Nat) (md : BitVec 24) : Bool × Bool × Bool :=
  match c with
  | .v =>
      if op ∈ [0x09, 0x0A, 0x23] then (true, true, false)
      else if op ∈ [0x50, 0x51, 0x52, 0x53, 0x62, 0x63] then (false, false, false)
      else if op == 0x54 && md.extractLsb' 22 2 == 1 then (false, true, true)
      else (true, true, true)
  | .m => (true, true, true)
  | .x => (!(op ∈ [0x24, 0x44] : Bool), true, true)
  | .c => (!(op ∈ [0x06, 0x07] : Bool), true, true)

/-- Takes a literal word where one belongs. -/
def takeLit (want : Bool) (ws : List Word) : Dec (Word × List Word) :=
  if want then match ws with
    | w :: r => .ok (w, r)
    | [] => .error .illegalInsn
  else .ok (0, ws)

/-- The fields of the instruction whose first word is `w`, and the words after it (R181, R183, R184). -/
def readRaw (c : Cls) (w : Word) (ws : List Word) : Dec (Raw × List Word) := do
  let op := (w.extractLsb' 25 7).toNat
  let x ← insn (hasExt c op)
  let (e, ws) ← (if x then match ws with
      | e :: r => .ok (e, r)
      | [] => .error .illegalInsn
    else .ok (0xC0000000#32, ws) : Dec (Word × List Word))
  let a := w.extractLsb' 8 8
  let b := w.extractLsb' 0 8
  let cc := e.extractLsb' 24 8
  let p := litPos c op (e.extractLsb' 0 24)
  let (la, ws) ← takeLit (p.1 && a == 0xC6) ws
  let (lb, ws) ← takeLit (p.2.1 && b == 0xC6) ws
  let (lc, ws) ← takeLit (p.2.2 && x && cc == 0xC6) ws
  return ({ op := op, nw := w.getLsbD 24, d := w.extractLsb' 16 8, a := a, b := b, c := cc,
            md := e.extractLsb' 0 24, la := la, lb := lb, lc := lc }, ws)

/-- The instruction of a class with given fields (R192 to R195). -/
def decodeRaw (c : Cls) (r : Raw) : Dec Instr :=
  match c with
  | .v => decodeV r
  | .m => decodeM r
  | .x => decodeX r
  | .c => decodeC r

/-- One instruction of a clause of class `c`, and the words after it (R181). `brk` is the same word in every
class (R196). -/
def decodeInstr (c : Cls) (ws : List Word) : Dec (Instr × List Word) :=
  match ws with
  | [] => .error .illegalInsn
  | w :: ws =>
    if (w.extractLsb' 25 7).toNat = 0x7F then .ok (.brk (w.extractLsb' 0 25), ws)
    else do
      let (r, ws) ← readRaw c w ws
      let i ← decodeRaw c r
      match i.check with
      | some e => .error e
      | none => .ok (i, ws)

/-- The fields of a clause header (R179). -/
structure Header where
  cls   : Cls
  gen   : Bool
  gneg  : Bool
  gpred : BitVec 5
  chain : Bool
  token : Option (BitVec 3)
  wait  : Byte
  count : Nat
  deriving DecidableEq, Repr

/-- A clause header, none where any field's value is not accepted (R179). -/
def decodeHeader (w : Word) : Option Header :=
  if w.extractLsb' 28 4 == 0b1010 && w.extractLsb' 4 2 == 0 && w.extractLsb' 0 4 != 0 &&
     (w.getLsbD 24 || (!w.getLsbD 25 && w.extractLsb' 19 5 == 0)) &&
     (w.getLsbD 14 || w.extractLsb' 15 3 == 0) then
    some
      { cls := match (w.extractLsb' 26 2).toNat with
          | 0 => .v
          | 1 => .m
          | 2 => .x
          | _ => .c
        gen := w.getLsbD 24
        gneg := w.getLsbD 25
        gpred := w.extractLsb' 19 5
        chain := w.getLsbD 18
        token := if w.getLsbD 14 then some (w.extractLsb' 15 3) else none
        wait := w.extractLsb' 6 8
        count := (w.extractLsb' 0 4).toNat }
  else none

/-- The header word of a clause of class `c` of `n` words without guard, token or wait (R179). -/
def plainHeader (c : Cls) (n : Nat) : Word :=
  (0b1010#4 ++ (match c with | .v => 0#2 | .m => 1#2 | .x => 2#2 | .c => 3#2) ++ 0#22 ++ BitVec.ofNat 4 n : BitVec 32)

/-! The encoder, from the same tables. -/

/-- An instruction word (R183). -/
def word (op : BitVec 7) (nw : Bool) (d a b : Byte) : Word := op ++ BitVec.ofBool nw ++ d ++ a ++ b

/-- An extension word (R183). -/
def extw (c : Byte) (md : BitVec 24) : Word := c ++ md

def VDst.enc : VDst → Bool × Byte
  | .latch => (true, 0xC0)
  | .v n => (false, 0#1 ++ n)

def UDst.enc : UDst → Bool × Byte
  | .latch => (true, 0xC0)
  | .s n => (false, 2#2 ++ n)

def TDst.enc : TDst → Bool × Byte
  | .latch => (true, 0xC0)
  | .v n => (false, 0#1 ++ n)
  | .s n => (false, 2#2 ++ n)

def encP (p : BitVec 5) : Byte := 0#3 ++ p
def encV (n : BitVec 7) : Byte := 0#1 ++ n
def encS (n : BitVec 6) : Byte := 2#2 ++ n
def encZ (z : BitVec 4) : Byte := 0#4 ++ z
def encB (b : BitVec 3) : Byte := 0#5 ++ b

/-- MOD of the VI group (R188). -/
def modVI (t : IType) (sat : Bool) (c : BitVec 4) (lut : Byte) : BitVec 24 :=
  t.enc ++ BitVec.ofBool sat ++ c ++ lut ++ 0#8
/-- MOD of the VF group. -/
def modVF (t : FType) (r : Rnd) (ftz cr : Bool) (fc : BitVec 4) : BitVec 24 :=
  t.enc ++ r.enc ++ BitVec.ofBool ftz ++ BitVec.ofBool cr ++ fc ++ 0#14
/-- MOD of the CV group. -/
def modCV (m : CMod) (part : BitVec 2) : BitVec 24 :=
  m.dst.enc ++ m.src.enc ++ 0#1 ++ m.rnd.enc ++ BitVec.ofBool m.ftz ++ BitVec.ofBool m.nosat ++ part ++ 0#9
/-- MOD of the VX group. -/
def modVX (mode : BitVec 4) (t : XType) (g : Seg) : BitVec 24 := mode ++ t.enc ++ g.enc ++ 0#14
/-- MOD of the ME group. -/
def modME (k : AMod) (sz : BitVec 3) (off : BitVec 13) : BitVec 24 :=
  k.pol.enc ++ k.sc.enc ++ k.ord.enc ++ sz ++ off
/-- MOD of the MA group. -/
def modMA (k : AMod) (w : Bool) (op : BitVec 4) (res : Bool) (off : BitVec 10) : BitVec 24 :=
  k.pol.enc ++ k.sc.enc ++ k.ord.enc ++ BitVec.ofBool w ++ op ++ BitVec.ofBool res ++ off
/-- MOD of the UA group. -/
def modUA (t : UType) (c : BitVec 4) : BitVec 24 := t.enc ++ 0#1 ++ c ++ 0#16
/-- MOD of the CP group. -/
def modCP (pol : Pol) (out : Bool) (ctr : Option (BitVec 16)) : BitVec 24 :=
  pol.enc ++ BitVec.ofBool out ++ BitVec.ofBool ctr.isSome ++ 0#3 ++ ctr.getD 0
/-- MOD of the EF group. -/
def modEF (e : Byte) (flags : BitVec 16) : BitVec 24 := e ++ flags

/-- A one-word instruction with two selectors and their literals. -/
def enc2 (op : BitVec 7) (d : Bool × Byte) (a b : Sel) : List Word :=
  word op d.1 d.2 a.enc b.enc :: (a.lit ++ b.lit)
/-- The same with one selector. -/
def enc1 (op : BitVec 7) (d : Bool × Byte) (a : Sel) : List Word :=
  word op d.1 d.2 a.enc 0xC0 :: a.lit
/-- An instruction and extension word with two selectors and C unused. -/
def encX2 (op : BitVec 7) (d : Bool × Byte) (a b : Sel) (md : BitVec 24) : List Word :=
  word op d.1 d.2 a.enc b.enc :: extw 0xC0 md :: (a.lit ++ b.lit)
/-- The same with one selector. -/
def encX1 (op : BitVec 7) (d : Bool × Byte) (a : Sel) (md : BitVec 24) : List Word :=
  word op d.1 d.2 a.enc 0xC0 :: extw 0xC0 md :: a.lit
/-- The same with three selectors. -/
def encX3 (op : BitVec 7) (d : Bool × Byte) (a b c : Sel) (md : BitVec 24) : List Word :=
  word op d.1 d.2 a.enc b.enc :: extw c.enc md :: (a.lit ++ b.lit ++ c.lit)
/-- A word whose fields hold numbers or nothing. -/
def encN (op : BitVec 7) (d a b : Byte) : List Word := [word op false d a b]
/-- The same with an extension word. -/
def encNX (op : BitVec 7) (d a b c : Byte) (md : BitVec 24) : List Word := [word op false d a b, extw c md]

/-- The D field of an instruction that writes no register. -/
def dNone : Bool × Byte := (false, 0xC0)

/-- The class and words of an instruction (R183 to R195, R289), none for an event. -/
def encode : Instr → Option (Cls × List Word)
  | .iadd d a b => some (.v, enc2 0x00 d.enc a b)
  | .isub d a b => some (.v, enc2 0x01 d.enc a b)
  | .imul d t s a b => some (.v, encX2 0x02 d.enc a b (modVI t s 0 0))
  | .imulhi d t a b => some (.v, encX2 0x03 d.enc a b (modVI t false 0 0))
  | .imad d t s a b c => some (.v, encX3 0x04 d.enc a b c (modVI t s 0 0))
  | .iabs d a => some (.v, enc1 0x05 d.enc a)
  | .ineg d a => some (.v, enc1 0x06 d.enc a)
  | .imin d t a b => some (.v, encX2 0x07 d.enc a b (modVI t false 0 0))
  | .imax d t a b => some (.v, encX2 0x08 d.enc a b (modVI t false 0 0))
  | .iaddc d a b p => some (.v, word 0x09 d.enc.1 d.enc.2 a.enc b.enc :: extw (encP p) 0 :: (a.lit ++ b.lit))
  | .isubb d a b p => some (.v, word 0x0A d.enc.1 d.enc.2 a.enc b.enc :: extw (encP p) 0 :: (a.lit ++ b.lit))
  | .iadds d t a b => some (.v, encX2 0x0B d.enc a b (modVI t false 0 0))
  | .shl d a b => some (.v, enc2 0x10 d.enc a b)
  | .shr d a b => some (.v, enc2 0x11 d.enc a b)
  | .sar d a b => some (.v, enc2 0x12 d.enc a b)
  | .rot d a b => some (.v, enc2 0x13 d.enc a b)
  | .and d a b => some (.v, enc2 0x14 d.enc a b)
  | .or d a b => some (.v, enc2 0x15 d.enc a b)
  | .xor d a b => some (.v, enc2 0x16 d.enc a b)
  | .andn d a b => some (.v, enc2 0x17 d.enc a b)
  | .orn d a b => some (.v, enc2 0x18 d.enc a b)
  | .not d a => some (.v, enc1 0x19 d.enc a)
  | .logic3 d l a b c => some (.v, encX3 0x1A d.enc a b c (modVI .sgn false 0 l))
  | .popc d a => some (.v, enc1 0x1B d.enc a)
  | .clz d a => some (.v, enc1 0x1C d.enc a)
  | .ctz d a => some (.v, enc1 0x1D d.enc a)
  | .brev d a => some (.v, enc1 0x1E d.enc a)
  | .bfx d t a b c => some (.v, encX3 0x1F d.enc a b c (modVI t false 0 0))
  | .bfi d a b c => some (.v, encX3 0x20 d.enc a b c 0)
  | .bperm d a b c => some (.v, encX3 0x21 d.enc a b c 0)
  | .icmp p c t a b => some (.v, encX2 0x22 (false, encP p) a b (modVI t false c.enc 0))
  | .sel d a b p => some (.v, word 0x23 d.enc.1 d.enc.2 a.enc b.enc :: extw (encP p) 0 :: (a.lit ++ b.lit))
  | .mov d a => some (.v, enc1 0x24 d.enc a)
  | .fadd d m a b => some (.v, encX2 0x30 d.enc a b (modVF m.ft m.rnd m.ftz false 0))
  | .fsub d m a b => some (.v, encX2 0x31 d.enc a b (modVF m.ft m.rnd m.ftz false 0))
  | .fmul d m a b => some (.v, encX2 0x32 d.enc a b (modVF m.ft m.rnd m.ftz false 0))
  | .ffma d m a b c => some (.v, encX3 0x33 d.enc a b c (modVF m.ft m.rnd m.ftz false 0))
  | .fmin d t z a b => some (.v, encX2 0x34 d.enc a b (modVF t .rn z false 0))
  | .fmax d t z a b => some (.v, encX2 0x35 d.enc a b (modVF t .rn z false 0))
  | .fminn d t z a b => some (.v, encX2 0x36 d.enc a b (modVF t .rn z false 0))
  | .fmaxn d t z a b => some (.v, encX2 0x37 d.enc a b (modVF t .rn z false 0))
  | .fabs d t a => some (.v, encX1 0x38 d.enc a (modVF t .rn false false 0))
  | .fneg d t a => some (.v, encX1 0x39 d.enc a (modVF t .rn false false 0))
  | .fsgn d t a b => some (.v, encX2 0x3A d.enc a b (modVF t .rn false false 0))
  | .fcmp p c t z a b => some (.v, encX2 0x3B (false, encP p) a b (modVF t .rn z false c.enc))
  | .fclass p t a b => some (.v, encX2 0x3C (false, encP p) a b (modVF t .rn false false 0))
  | .fround d m a => some (.v, encX1 0x3D d.enc a (modVF m.ft m.rnd m.ftz false 0))
  | .fscale d m a b => some (.v, encX2 0x3E d.enc a b (modVF m.ft m.rnd m.ftz false 0))
  | .fexpn d t z a => some (.v, encX1 0x3F d.enc a (modVF t .rn z false 0))
  | .fmant d t z a => some (.v, encX1 0x40 d.enc a (modVF t .rn z false 0))
  | .cvt d m a => some (.v, encX1 0x48 d.enc a (modCV m 0))
  | .cvtp d m p a b => some (.v, encX2 0x49 d.enc a b (modCV m p))
  | .cvtu d m p a => some (.v, encX1 0x4A d.enc a (modCV m p))
  | .pand p a b => some (.v, encN 0x50 (encP p) (encP a) (encP b))
  | .por p a b => some (.v, encN 0x51 (encP p) (encP a) (encP b))
  | .pxor p a b => some (.v, encN 0x52 (encP p) (encP a) (encP b))
  | .pnot p a => some (.v, encN 0x53 (encP p) (encP a) 0xC0)
  | .pmov (.test p a) => some (.v, encX1 0x54 (false, encP p) a 0)
  | .pmov (.copy p a) => some (.v, encNX 0x54 (encP p) (encP a) 0xC0 0xC0 (1#2 ++ 0#22))
  | .pmov (.get d) => some (.v, [word 0x54 d.enc.1 d.enc.2 0xC0 0xC0, extw 0xC0 (2#2 ++ 0#22)])
  | .pmov (.put a) => some (.v, encX1 0x54 dNone a (3#2 ++ 0#22))
  | .shfl d m w g a b => some (.v, encX2 0x60 d.enc a b (modVX m.enc (if w then .b64 else .b32) g))
  | .spush d w g a b => some (.v, encX2 0x61 d.enc a b (modVX 0 (if w then .b64 else .b32) g))
  | .vote p m g a => some (.v, encNX 0x62 (encP p) (encP a) 0xC0 0xC0 (modVX m.enc .b32 g))
  | .ballot d g a => some (.v, [word 0x63 d.enc.1 d.enc.2 (encP a) 0xC0, extw 0xC0 (modVX 0 .b32 g)])
  | .matchSlots d all t g a => some (.v, encX1 0x64 d.enc a (modVX (if all then 1 else 0) t g))
  | .redux d o t g a => some (.v, encX1 0x65 d.enc a (modVX (0#1 ++ o.enc) t g))
  | .scan d o e t g a => some (.v, encX1 0x66 d.enc a (modVX (BitVec.ofBool e ++ o.enc) t g))
  | .nact d => some (.v, [word 0x67 d.enc.1 d.enc.2 0xC0 0xC0])
  | .shape d t a => some (.v, encX1 0x70 d.enc a (t.enc ++ 0#22))
  | .shapeof d a => some (.v, enc1 0x71 d.enc a)
  | .ld d k z m => some (.m, encX2 0x00 (false, encV d) m.base m.off (modME k z.enc m.imm))
  | .st k z m x => some (.m, encX3 0x01 dNone m.base m.off x (modME k z.enc m.imm))
  | .ldl d z m => some (.m, encX2 0x02 (false, encV d) m.base m.off (modME ⟨.l1, .no, .no⟩ z.enc m.imm))
  | .stl z m x => some (.m, encX3 0x03 dNone m.base m.off x (modME ⟨.l1, .no, .no⟩ z.enc m.imm))
  | .atom d k w o m x =>
      some (.m, encX3 0x04 (match d with | some d => (false, encV d) | none => dNone) m.base m.off x
        (modMA k w o.enc d.isSome (m.imm.extractLsb' 0 10)))
  | .atomx k w f m x =>
      some (.m, encX3 0x05 dNone m.base m.off x (modMA k w (if f then 1 else 0) false (m.imm.extractLsb' 0 10)))
  | .fence s f => some (.m, encNX 0x06 0xC0 0xC0 0xC0 0xC0 (0#3 ++ s.enc ++ f.enc ++ 0#14))
  | .pref p m => some (.m, encX2 0x07 dNone m.base m.off (modME ⟨p, .no, .no⟩ 0 m.imm))
  | .roinv => some (.m, encN 0x08 0xC0 0xC0 0xC0)
  | .persist m l => some (.m, encX3 0x09 dNone m.base m.off l (modME ⟨.l1, .no, .no⟩ 0 m.imm))
  | .wfence => some (.m, encN 0x0A 0xC0 0xC0 0xC0)
  | .wfire m => some (.m, encX2 0x0B dNone m.base m.off (modME ⟨.l1, .no, .no⟩ 0 m.imm))
  | .wrel m => some (.m, encX2 0x0C dNone m.base m.off (modME ⟨.l1, .no, .no⟩ 0 m.imm))
  | .pclr m l => some (.m, encX3 0x0D dNone m.base m.off l (modME ⟨.l1, .no, .no⟩ 0 m.imm))
  | .arcset a b c o => some (.m, encX3 0x0E dNone a b c (0#8 ++ o))
  | .arcadd a b o => some (.m, encX2 0x0F dNone a b (0#8 ++ o))
  | .sadd d a b => some (.m, enc2 0x20 d.enc a b)
  | .ssub d a b => some (.m, enc2 0x21 d.enc a b)
  | .smul d a b => some (.m, enc2 0x22 d.enc a b)
  | .smulhi d t a b => some (.m, encX2 0x23 d.enc a b (modUA t 0))
  | .smad d t a b c => some (.m, encX3 0x24 d.enc a b c (modUA t 0))
  | .sshl d a b => some (.m, enc2 0x25 d.enc a b)
  | .sshr d a b => some (.m, enc2 0x26 d.enc a b)
  | .ssar d a b => some (.m, enc2 0x27 d.enc a b)
  | .sand d a b => some (.m, enc2 0x28 d.enc a b)
  | .sor d a b => some (.m, enc2 0x29 d.enc a b)
  | .sxor d a b => some (.m, enc2 0x2A d.enc a b)
  | .snot d a => some (.m, enc1 0x2B d.enc a)
  | .smin d t a b => some (.m, encX2 0x2C d.enc a b (modUA t 0))
  | .smax d t a b => some (.m, encX2 0x2D d.enc a b (modUA t 0))
  | .smov d a => some (.m, enc1 0x2E d.enc a)
  | .scmp d c t a b => some (.m, encX2 0x2F d.enc a b (modUA t c.enc))
  | .ssel d a b c => some (.m, encX3 0x30 d.enc a b c (modUA .sgn64 0))
  | .spopc d a => some (.m, enc1 0x31 d.enc a)
  | .sclz d a => some (.m, enc1 0x32 d.enc a)
  | .rfa d a => some (.m, enc1 0x33 d.enc a)
  | .rcp d f z c a => some (.x, encX1 0x00 (false, encV d) a (modVF (if f then .f64 else .f32) .rn z c 0))
  | .rsq d z a => some (.x, encX1 0x01 (false, encV d) a (modVF .f32 .rn z false 0))
  | .sqrt d f z c a => some (.x, encX1 0x02 (false, encV d) a (modVF (if f then .f64 else .f32) .rn z c 0))
  | .exp2 d z a => some (.x, encX1 0x03 (false, encV d) a (modVF .f32 .rn z false 0))
  | .log2 d z a => some (.x, encX1 0x04 (false, encV d) a (modVF .f32 .rn z false 0))
  | .sinpi d z a => some (.x, encX1 0x05 (false, encV d) a (modVF .f32 .rn z false 0))
  | .cospi d z a => some (.x, encX1 0x06 (false, encV d) a (modVF .f32 .rn z false 0))
  | .tanh d z a => some (.x, encX1 0x07 (false, encV d) a (modVF .f32 .rn z false 0))
  | .erf d z a => some (.x, encX1 0x08 (false, encV d) a (modVF .f32 .rn z false 0))
  | .fdiv d f z c a b => some (.x, encX2 0x09 (false, encV d) a b (modVF (if f then .f64 else .f32) .rn z c 0))
  | .idiv d u a b => some (.x, encX2 0x0A (false, encV d) a b (modVI (if u then .uns else .sgn) false 0 0))
  | .cpy p o ctr l a b c => some (.x, encX3 0x10 (false, l.enc) a b c (modCP p o ctr))
  | .cpyw p o ctr l a b c => some (.x, encX3 0x11 (false, l.enc) a b c (modCP p o ctr))
  | .stmap d a b c => some (.x, encX3 0x12 (false, encS d) a b c (modEF 0xC0 0))
  | .stunmap d a => some (.x, encX1 0x13 (false, encS d) a (modEF 0xC0 0))
  | .stflush d a b => some (.x, encX2 0x14 (false, encS d) a b (modEF 0xC0 0))
  | .zdef z clr a b c => some (.x, encX3 0x20 (false, encZ z) a b c (modEF 0xC0 (if clr then 1 else 0)))
  | .zclr z => some (.x, encNX 0x21 (encZ z) 0xC0 0xC0 0xC0 (modEF 0xC0 0))
  | .mma z a b c e => some (.x, encX3 0x22 (false, encZ z) a b c (modEF e.enc 0))
  | .mmaGang z a b c e => some (.x, encX3 0x22 (false, encZ z) a b c (modEF e.enc 0x8000))
  | .opfence => some (.x, encN 0x23 0xC0 0xC0 0xC0)
  | .zrnd d f rm z b c e =>
      some (.x, word 0x24 false (encV d) (encZ z) b.enc :: extw c.enc (modEF e.enc (0#9 ++ rm.enc ++ f.enc)) ::
        (b.lit ++ c.lit))
  | .zdrain z h a b c e => some (.x, encX3 0x25 (false, encZ z) a b c (modEF e.enc (if h then 1 else 0)))
  | .zld z a b => some (.x, encX2 0x26 (false, encZ z) a b (modEF 0xC0 0))
  | .zst z a b => some (.x, encX2 0x27 (false, encZ z) a b (modEF 0xC0 0))
  | .quant z a e =>
      some (.x, encX1 0x28 (false, match z with | some z => encZ z | none => 0xC0) a (modEF e.enc 0))
  | .opinst d re a b => some (.x, encX2 0x30 (false, encS d) a b (modEF 0xC0 (if re then 1 else 0)))
  | .opbind d a b c => some (.x, encX3 0x31 (false, encS d) a b c (modEF 0xC0 0))
  | .opunbind d f a => some (.x, encX1 0x32 (false, encS d) a (modEF 0xC0 (if f then 1 else 0)))
  | .opstat d a b => some (.x, encX2 0x33 (false, encS d) a b (modEF 0xC0 0))
  | .opread d a b => some (.x, encX2 0x34 (false, encS d) a b (modEF 0xC0 0))
  | .mgopen d a b => some (.x, encX2 0x38 (false, encS d) a b (modEF 0xC0 0))
  | .mgstage d f a b c e => some (.x, encX3 0x39 (false, encS d) a b c (modEF e.enc (0#14 ++ f.enc)))
  | .mgclose d a => some (.x, encX1 0x3A (false, encS d) a (modEF 0xC0 0))
  | .mgcommit d a => some (.x, encX1 0x3B (false, encS d) a (modEF 0xC0 0))
  | .mgread d s a b => some (.x, encX2 0x3C (false, encV d) a b (modEF 0xC0 (if s then 1 else 0)))
  | .mgabort d a => some (.x, encX1 0x3D (false, encS d) a (modEF 0xC0 0))
  | .coll d r a b c e => some (.x, encX3 0x40 (false, encS d) a b c (modEF e.enc (0#13 ++ r.enc)))
  | .xferw n a b c e => some (.x, encX3 0x41 dNone a b c (modEF e.enc (0#8 ++ n)))
  | .xferr n a b c e => some (.x, encX3 0x42 dNone a b c (modEF e.enc (0#8 ++ n)))
  | .amsg f n a b => some (.x, encX2 0x43 dNone a b (modEF 0xC0 (0#6 ++ n ++ f)))
  | .amsgReply f n a b => some (.x, encX2 0x43 dNone a b (modEF 0xC0 (1#6 ++ n ++ f)))
  | .rwr v b c =>
      some (.x, word 0x44 false 0xC0 (encV v) b.enc :: extw c.enc (modEF 0xC0 0) :: (b.lit ++ c.lit))
  | .bepack d f a b c e => some (.x, encX3 0x45 (false, encS d) a b c (modEF e.enc (if f then 1 else 0)))
  | .beunpack d f a b c => some (.x, encX3 0x46 (false, encS d) a b c (modEF 0xC0 (if f then 1 else 0)))
  | .bra o => some (.c, encNX 0x00 0xC0 0xC0 0xC0 0xC0 o)
  | .jmp a => some (.c, enc1 0x01 dNone a)
  | .brx a o => some (.c, encX1 0x02 dNone a o)
  | .call o => some (.c, encNX 0x03 0xC0 0xC0 0xC0 0xC0 o)
  | .calli a => some (.c, enc1 0x04 dNone a)
  | .ret => some (.c, encN 0x05 0xC0 0xC0 0xC0)
  | .enrol b => some (.c, encN 0x06 0xC0 (encB b) 0xC0)
  | .rejoin b => some (.c, encN 0x07 0xC0 (encB b) 0xC0)
  | .bar => some (.c, encN 0x08 0xC0 0xC0 0xC0)
  | .gbar => some (.c, encN 0x09 0xC0 0xC0 0xC0)
  | .arcwait a o => some (.c, encX1 0x0A dNone a (0#8 ++ o))
  | .acq => some (.c, encN 0x0B 0xC0 0xC0 0xC0)
  | .rela => some (.c, encN 0x0C 0xC0 0xC0 0xC0)
  | .exit => some (.c, encN 0x0D 0xC0 0xC0 0xC0)
  | .yield => some (.c, encN 0x0E 0xC0 0xC0 0xC0)
  | .nop => some (.c, encN 0x0F 0xC0 0xC0 0xC0)
  | .trap c => some (.c, encNX 0x10 0xC0 0xC0 0xC0 0xC0 (0#16 ++ c))
  | .sleep a => some (.c, enc1 0x11 dNone a)
  | .time d => some (.c, [word 0x12 d.enc.1 d.enc.2 0xC0 0xC0])
  | .slack d => some (.c, [word 0x13 d.enc.1 d.enc.2 0xC0 0xC0])
  | .vpub s sc m x =>
      some (.c, encX3 0x14 dNone m.base m.off x (s.enc ++ 0#1 ++ sc.enc ++ 0#5 ++ m.imm))
  | .sys c a b => some (.c, encX2 0x15 dNone a b (0#16 ++ c))
  | .csrr d n => some (.c, [word 0x16 d.enc.1 d.enc.2 0xC0 0xC0, extw 0xC0 (0#12 ++ n)])
  | .csrw n a => some (.c, encX1 0x17 dNone a (0#12 ++ n))
  | .tret => some (.c, encN 0x18 0xC0 0xC0 0xC0)
  | .brk t => some (.v, [0x7F#7 ++ t])
  | _ => none

/-- The 32-bit words of an instruction whose bits are `w`, the first lowest, at most five (R184). -/
def tableWords (w : Nat) : List Word :=
  (List.range 5).map (fun k => BitVec.ofNat 32 (w / 2 ^ (32 * k)))

/-- The class whose opcode map accepts the words, and the instruction. A word does not say its class, which the
clause header gives (R183): the maps are tried in the order C, V, M, X (DESIGN CHOICE, log entry 9). -/
def decodeAny (ws : List Word) : Option (Cls × Instr × Nat) :=
  let try1 (c : Cls) : Option (Cls × Instr × Nat) :=
    match decodeInstr c ws with
    | .ok (i, r) => some (c, i, ws.length - r.length)
    | .error _ => none
  ((try1 .c).or ((try1 .v).or ((try1 .m).or (try1 .x))))

/-- The instruction the decoder reads from an instruction whose bits are `w`, bit 0 the least significant bit
of the first word. Bits from `nbits` up are zero. -/
def decodeTableWord (nbits w : Nat) : Option Instr :=
  (decodeAny (tableWords (w % 2 ^ nbits))).map (fun x => x.2.1)

end Sys2Proof
end

