-- ==== Sys2Proof/Config.lean ====
section
/-! DEFINITION. Config.lean: what the part or its surroundings fix (constants of the manual) and the free
values, which no proof can evaluate. -/

namespace Sys2Proof.Config

/-- The byte that a physical address holds when nothing has written it since the reset numbered `epoch`
(R434: unpredictable). Free value, log entry 2. -/
opaque coldByte (epoch addr : Nat) : Byte

/-- The byte that an address of the local memory of the block `blk` holds when nothing has written it since
admission (R118: unpredictable). Free value, log entry 2. -/
opaque coldLocal (blk addr : Nat) : Byte

/-- The contents of accumulator word `n` of block `blk` that nothing has written since admission (R65:
unpredictable). Free value, log entry 2. -/
opaque coldAcc (blk n : Nat) : BitVec 256

/-- The carry count of such a word (R65, R84). Free value, log entry 2. -/
opaque coldCarry (blk n : Nat) : BitVec 8

/-- The n-th unpredictable word the part produces (R5): a register gained by `acq`, an exited sender slot of
`rwr`, a tile element read too early. The state field `freeCtr` numbers the uses. Free value, log entry 3. -/
opaque freeWord (n : Nat) : BitVec 64

/-- The value a device register of a downstream device returns (R402: the device is outside the part). Free
value, log entry 4. -/
opaque deviceByte (n addr : Nat) : Byte

/-- The byte that an address of a retired frame reads as at a moment (R429: unpredictable). Free value, log entry 2. -/
opaque retiredByte (clk addr : Nat) : Byte

/-- The bytes of a configuration record, whose layout is not in the manual, and whether a signature over them verifies
against Darano's key (R413, R416). Uninterpreted, log entry 5. -/
opaque recordBytes (r : BootRecord) : List Byte
opaque recordVerifies (sig : BitVec 512) (m : List Byte) : Bool

/-- The digest of the program that the firmware loads into a unit for a context (R380, R413). Free value, log
entry 5. -/
opaque unitProgram (unit ctx : Nat) : BitVec 512

/-- SHA-512 (R410, R413, R416), named by the manual and defined outside it. Uninterpreted, log entry 5. -/
opaque sha512 (m : List Byte) : BitVec 512

/-- The Ed25519 public key of a private seed (R416). Uninterpreted, log entry 5. -/
opaque ed25519Public (seed : BitVec 256) : BitVec 256

/-- The Ed25519 signature of a message under a private seed (R416, R417). Uninterpreted, log entry 5. -/
opaque ed25519Sign (seed : BitVec 256) (m : List Byte) : BitVec 512

/-- Whether a signature over a message verifies against Darano's firmware key held in the ROM (R410).
Uninterpreted, log entry 5. -/
opaque romKeyVerifies (sig : BitVec 512) (m : List Byte) : Bool

/-- The device identity certificate held in the package EEPROM (R416, R417). Free value, log entry 5. -/
opaque identityCert (publicKey : BitVec 256) : List Byte

/-- The encoding of the alias certificate the ROM signs (R416, R417): its layout is not in the manual. Free
value, log entry 5. -/
opaque aliasCert (aliasPublic identityPublic : BitVec 256) (sig : BitVec 512) : List Byte

/-- The hottest junction, in 0.1 °C, and the package power the sensors report at a moment (R430). Free
values, log entry 6. -/
opaque tjmax (n : Nat) : BitVec 16
opaque powerWatts (n : Nat) : BitVec 16

/-- PROP_MAX (R432), in core clocks. -/
def propMax : Nat := 16384

/-- The architecture and transcendental revisions (R1). -/
def archrev : Dword := 0x0100#64
def sfrev : Dword := 0x01#64

/-- User cores per gang and gangs per die (R11). -/
def gangCores : Nat := 16
/-- Physical cores of a die, of which 64 are user cores, one the firmware core and 3 are spares (R9). -/
def dieCores : Nat := 68
def dieGangs : Nat := 4

/-- Accumulator words of a core and words of a lane file (R9 to R13, R30). -/
def accWords : Nat := 65536
def laneWords : Nat := 4096

/-- Chuck bytes of a core (R13). -/
def chuckBytes : Nat := 2 * 1024 * 1024

/-- Bytes of bed memory per die, 96 GiB (R9, R402). -/
def bedBytes : Nat := 0x18_0000_0000

end Sys2Proof.Config
end

