-- ==== Sys2Proof/Machine/State.lean ====
section
/-! DEFINITION. State.lean: everything the manual gives the part, as plain data, and the state after reset. -/

namespace Sys2Proof.Machine

/-- Why the model stops. -/
inductive Fault where
  /-- Raised by `step` when the part has lost its power (R126) and the agenda holds no event that brings it
  back: nothing can move. Safe: the hardware does nothing either. -/
  | unpowered
  deriving DecidableEq, Repr

/-- What the model gives no meaning. -/
inductive Refusal where
  /-- An instruction of the opcode table without a meaning; raised by an arm of `exec`. Safe: nothing is
  claimed about it. No arm raises it. -/
  | notModelled (mnemonic : String)
  deriving DecidableEq, Repr

/-- The causes of precise traps and halting faults (R199, R389). -/
inductive Trap where
  | stopped | illegalInsn | illegalOperand | formatDivergence | translation | protection | window
  | uncorrectable | orphanWait | breakpoint | software | remoteReject | coreFailed | driver
  deriving DecidableEq, Repr

/-- A shape tag (R51): uniform, affine with its base and stride, or general. -/
inductive Tag where
  | u
  | a (base stride : Word)
  | g
  deriving DecidableEq, Repr

/-- A vector register: its tag and its 32 slots (R49, R51). -/
structure VReg where
  tag  : Tag
  vals : List Word
  deriving DecidableEq, Repr

/-- The result an instruction left in its latch (R59): its width, tag and value in each slot. -/
structure Latch where
  wide : Bool
  tag  : Tag
  vals : List Dword
  deriving DecidableEq, Repr

/-- One thread's part of a latch, kept while the thread stands inside a clause (R360). -/
structure LatchVal where
  wide : Bool
  tag  : Tag
  val  : Dword
  deriving DecidableEq, Repr

/-- Where a thread stands inside a clause (R34, R360): the header, the index of the instruction it stands at,
the latches as that instruction sees them, the clause's token, what the clause's s sources had as it issued. -/
structure Mid where
  hdr     : Dword
  idx     : Nat
  latches : List (Option LatchVal)
  token   : Option (BitVec 3)
  after   : Option Dword       -- where the thread continues when that instruction is the clause's last
  copy    : Dword := 0         -- the header of the copy that it is inside on a displaced resume, else 0 (R361)
  olds    : List (Nat × Dword) := [] -- s registers that others have changed since the clause issued (R55)
  deriving DecidableEq, Repr

/-- The parking conditions (R34). -/
inductive Park where
  | lines (ls : List Nat) (since : Nat)
  | result (op : Nat)
  | counter (addr : Nat)
  | bar
  | gbar
  | rejoin (b : BitVec 3)
  | allot
  | tokens (mask : Byte)
  deriving DecidableEq, Repr

/-- The state of a thread of a block on a core or in a save area (R21). PENDING is a launch's block not yet
made, EVICTED a block whose `evicted` is true, STALLED a thread whose core has a serviced fault open. -/
inductive TState where
  | ready
  | parked (c : Park)
  | exited
  | stopped
  | halted
  deriving DecidableEq, Repr

/-- Why a thread was stopped by a halt, for its stop record (R390). -/
structure StopInfo where
  cause  : Trap
  detail : Dword
  deriving DecidableEq, Repr

/-- A thread (R21, R49, R272, R283, R285). -/
structure Thread where
  st       : TState
  before   : TState            -- the state a halt found it in (R391)
  pc       : Dword
  dpc      : Dword
  diverted : Bool
  divertDue : Bool             -- the divert time passed while it ran a clause or its core was stalled (R43)
  preds    : Word
  tok      : Byte
  rs       : List Dword        -- the held return-stack entries, newest first (R273)
  rsd      : Nat               -- RSDEPTH
  insys    : Bool              -- SYSCODE (R287)
  code     : Byte
  sysa     : Dword
  sysb     : Dword
  sysret   : Dword
  tls      : Dword             -- TLSBASE
  wake     : Option Nat        -- a sleeping thread's wake time (R279)
  yielded  : Bool              -- R279
  grp      : Nat               -- the batch it last issued a clause in, 0 before the first (R344)
  mid      : Option Mid
  stop     : Option StopInfo
  stopRec  : Option Nat        -- its record in the stop area (R390)
  finish   : Bool := false     -- it ran a clause at its divert time, and ends it first (R43)
  served   : List Nat := []    -- lines whose fill woke it for an access that it has not made again (R295)
  deriving DecidableEq, Repr

/-- A spindle (R21, R29, R49). -/
structure Spindle where
  spid    : Nat
  lane    : Nat                -- its lane in its partition, 0 to 31 (R12)
  m       : Nat                -- field-1 value
  e0      : Nat
  cons    : Bool
  vpro    : Nat
  vfull   : Nat
  apro    : Nat
  afull   : Nat
  full    : Bool               -- it holds its full allotment (R32)
  acq     : Option Nat         -- a pending request, with its order
  v       : List VReg
  s       : List Dword
  bars    : List (Word × Word) -- ENROLLED and ARRIVED of b0 to b7 (R24)
  threads : List Thread
  deriving DecidableEq, Repr

/-- An accumulator tile handle (R65, R81, R84). -/
structure Tile where
  uid  : Nat                     -- numbers the definitions, the model's own
  base : Nat
  rows : Nat
  cols : Nat
  nf   : Bool
  ovf  : Bool
  deriving DecidableEq, Repr

/-- An exact word with its carry count (R82, R84). -/
structure AccWord where
  n     : Nat
  w     : BitVec 256
  carry : BitVec 8
  deriving DecidableEq, Repr

/-- A stash mapping (R120). -/
structure StashMap where
  l     : Nat
  v     : Dword
  bytes : Nat
  deriving DecidableEq, Repr

/-- An `mma` that no thread has yet waited for on the token that covers it (R66): its operation, the spindle and slots
that issued it, the token, its tile's words, the ranges of the block's local memory that it reads. -/
structure MmaMark where
  op    : Nat
  m     : Nat
  slots : List Nat
  token : Option (BitVec 3)
  base  : Nat
  size  : Nat
  opnds : List (Nat × Nat)
  deriving DecidableEq, Repr

/-- A local store that only its own spindle sees yet (R151, R156, R157): its instruction, numbered among those in the list, and
whether a load of its spindle has come behind it. -/
structure LateStl where
  m    : Nat
  slot : Nat
  addr : Nat
  data : List Byte
  ins  : Nat := 0
  read : Bool := false
  deriving DecidableEq, Repr

/-- Local bytes that an `stl` replaced and that an operand read of an `mma` may still find until an `opfence` of the
storing thread (R162, R300): the thread, the address, the bytes before. -/
structure Unseen where
  m    : Nat
  slot : Nat
  addr : Nat
  old  : List Byte
  deriving DecidableEq, Repr

/-- A stash fill in progress (R118, R121): its local line, the clause header and spindle that started it (R390). -/
structure FillBy where
  line : Nat
  hdr  : Dword
  spid : Nat
  deriving DecidableEq, Repr

/-- A block, resident or evicted (R26, R31, R118, R120, R275). -/
structure Block where
  uid      : Nat
  launch   : Nat
  ctx      : Nat
  core     : Nat
  gl       : Nat               -- index of its gang launch in its launch
  f2       : Nat               -- field-2 value
  wid      : Dword             -- WID with fields 0 and 1 zero
  order    : Nat               -- admission order
  evicted  : Bool
  saveRec  : Option Nat        -- save-area record that holds it (R397)
  spindles : List Spindle
  lsize    : Nat               -- local reservation in bytes (R31)
  lmem     : List Host.Cell    -- local bytes written since admission
  absent   : List Nat          -- local lines whose presence bit is clear (R118)
  fills    : List (Nat × Nat)  -- pending-fill counts that are not zero
  stash    : List StashMap
  owned    : List (Nat × Nat)  -- stash lines filled: local line, physical line (R120)
  dirty    : List Nat          -- stash lines written and not written back (R123)
  acc      : List AccWord      -- accumulator words written since admission
  tiles    : List (Option Tile)
  barArr   : List (Nat × Nat)  -- (spindle, slot) arrived at `bar` (R275)
  gbarArr  : List (Nat × Nat)
  barPh    : Nat
  gbarPh   : Nat
  gangN    : Nat               -- `mma.gang`s issued (R301)
  gangX    : List Nat          -- numbers of those cancelled (R301)
  mmas     : List MmaMark := []   -- R66
  unseen   : List Unseen := []    -- newest first (R162)
  fillBy   : List FillBy := []    -- stash fills in progress (R390)
  slow     : List Nat := []       -- spindles whose `stl` stores the others of the block do not see at once (R151, R156)
  late     : List LateStl := []   -- such stores, in order
  deriving DecidableEq, Repr

/-- A clause in progress on a spindle (R22, R180, R181). `active` is false when none is. -/
structure Run where
  active  : Bool
  blk     : Nat                -- the block
  m       : Nat                -- the spindle's field-1 value
  hdr     : Dword              -- address of the clause header
  base    : Dword              -- address its words were fetched from: a copy's on a displaced resume (R361)
  cls     : Cls
  exec    : List Nat           -- slots whose guard passed, ascending
  token   : Option (BitVec 3)
  words   : List Word          -- the clause's words not yet executed
  cur     : List Word          -- the words from the instruction being executed on
  idx     : Nat                -- instructions fetched so far
  lat     : Option Latch       -- the result of the instruction being executed
  latches : List (Option Latch) -- results of the instructions before it, newest first
  npc     : Dword              -- where the clause continues (R182)
  olds    : List (Nat × Dword) := [] -- s registers that long-latency writes have changed since its issue (R55)
  deriving DecidableEq, Repr

/-- An allotment dword's figures (R372), in registers, bytes and words. -/
structure Allot where
  vpro  : Nat
  vfull : Nat
  lpro  : Nat
  lfull : Nat
  apro  : Nat
  afull : Nat
  deriving DecidableEq, Repr

/-- A queue class (R375). -/
inductive QClass where
  | d | l | q
  deriving DecidableEq, Repr

/-- An accepted launch or an active-message task (R16, R29, R371, R319). -/
structure Launch where
  uid     : Nat
  seq     : Dword
  ctx     : Nat
  queue   : Nat
  cls     : QClass
  task    : Option (List Dword)  -- payload and reply token of an active-message task
  tok     : Dword                -- its reply token (R319)
  w       : List Nat             -- field widths
  e       : List Nat             -- field extents
  pcount  : Nat
  dl      : Nat                  -- deadline, ns
  budget  : Nat
  det     : Bool
  nparam  : Nat
  pentry  : Dword                -- entry and parting addresses of the roles
  centry  : Dword
  ppart   : Dword
  cpart   : Dword
  pal     : Allot
  cal     : Allot
  param   : Dword
  recaddr : Dword
  tlsarea : Dword
  tlssize : Nat
  next    : Nat                  -- gang launches admitted so far
  fin     : Nat
  parted  : Nat
  notst   : Nat
  overrun : Nat
  start   : Nat                  -- STARTTIME, 0 while none issued
  startClk : Nat
  issued  : Bool
  halted  : Bool                 -- threads of it were HALTED when it ended
  div     : Bool                 -- its divert has happened (R45)
  ended   : Bool                 -- its record is written or dropped
  rejected : Bool := false       -- it was not accepted (R373, R421)
  deriving DecidableEq, Repr

/-- The registers of a queue (R362) and what its front end holds (R365, R367). -/
structure Queue where
  n       : Nat
  base    : Dword
  log2    : Nat
  tickets : Nat
  ctxid   : Nat
  priv    : Bool
  quar    : Bool
  lcls    : Bool                 -- CLASS: true L, false D
  en      : Bool
  tail    : Nat
  prog    : Nat
  erroff  : Nat
  reason  : Nat
  tailerr : Bool
  mirror  : Dword
  out     : Bool                 -- SWITCHED_OUT
  waiting : Bool                 -- held at a WAITMEM, FENCE or WAITDONE packet
  ctx     : Nat                  -- context in force (SETCTX, R370)
  stack   : List (Dword × Nat × Nat × Nat) -- indirect buffers: address, length, position, context; innermost first
  serv    : Bool                 -- held by the service of a page (R366)
  stopping : Bool := false       -- EN is 0 and the packet in progress is not over (R365)
  deriving DecidableEq, Repr

/-- A context descriptor as read (R381). -/
structure Desc where
  sysvec : Dword
  htab   : Dword
  errbase : Dword
  alogbase : Dword
  stopbase : Dword
  savebase : Dword
  slice  : Nat
  parklim : Nat
  mgto   : Nat
  domain : Nat
  qcores : Nat
  qvreg  : Nat
  qlocal : Nat
  qacc   : Nat
  ceil   : BitVec 5
  aloglog2 : Nat
  errlog2 : Nat
  stoplog2 : Nat
  savecnt : Nat
  root   : Nat
  deriving DecidableEq, Repr

/-- A context that is not FREE (R382, R383). -/
structure Ctx where
  id      : Nat
  halted  : Bool                 -- STATE HALTED, else DEFINED
  halting : Bool                 -- its halt line is raised and its stop records are not yet written
  dying   : Bool                 -- a DESTROY waits for that halt (R392)
  cause   : Trap
  desc    : Desc
  alogmask : BitVec 5
  logdrops : Nat
  stopcnt : Nat
  stopdrop : Bool
  prodA   : Nat                  -- PRODUCED of the arithmetic log (R393)
  prodE   : Nat
  msgs    : Nat                  -- active messages accepted since DEFINE (R319)
  charge  : Nat                  -- core-ns charged in this period (R388)
  deriving DecidableEq, Repr

/-- An engine's stop (R390): what its record will hold. -/
structure EngStop where
  ctx    : Nat
  hdr    : Dword
  core   : Nat
  spid   : Nat
  cause  : Trap
  engine : Nat
  state  : Nat
  amount : Nat
  detail : Dword
  deriving DecidableEq, Repr

/-- Where a byte of a page lies (R108, R385). -/
inductive Loc where
  | mem (pa : Nat)
  | peer (dev : BitVec 12) (pa : Nat)
  | win (result : Bool) (op off : Nat)
  | mmio (pa : Nat)
  | nowhere
  deriving DecidableEq, Repr

/-- A piece of a copy: the place and the virtual address of its global bytes, its local address, its length (R293,
R294), and whether its write has left for a peer that has not acknowledged it (R160). -/
structure CopySeg where
  loc : Loc
  va  : Dword
  la  : Nat
  len : Nat
  sent : Bool := false
  deriving DecidableEq, Repr

/-- One register write that a long-latency operation will make: slot, register, value (R50, R63). -/
structure RegW where
  slot : Nat
  reg  : Nat
  val  : Word
  deriving DecidableEq, Repr

/-- The drain descriptor's values as read at issue (R303). -/
structure DrainD where
  seed : Dword
  col0   : Nat
  row0   : Nat
  bias   : List Word             -- empty with BIAS = 0
  nosat  : Bool
  dfmt   : Nat
  deriving DecidableEq, Repr

/-- The quantise descriptor's values as read at issue (R306). -/
structure QuantD where
  seed : Dword
  caddr : Nat
  raddr : Nat
  srcaddr : Nat
  srcpitch : Nat
  col0 : Nat
  row0 : Nat
  cols : Nat
  rows : Nat
  src  : Bool
  sbf16 : Bool
  dfmt : Nat
  rcopy : Bool
  ccopy : Bool
  deriving DecidableEq, Repr

/-- The collective descriptor's values as read at issue (R314). -/
structure CollD where
  limit : Dword
  dims  : List Nat
  froms : List Byte
  tos   : List Byte
  sizes : List Nat
  elem  : Nat
  tsilent : Nat
  collid : Nat
  table : List Nat
  red   : Red
  deriving DecidableEq, Repr

/-- What an issued long-latency operation still has to do (R50, R288). -/
inductive OpKind where
  | regs (ws : List RegW)
  | sreg (r : Nat) (val : Dword)
  | fence (sys : Bool)
  | winFence (reqs : List Nat) (all : Bool)
  | acks (engine detail amount : Nat)
  | asyncFence (before : List Nat) (sc : Scope)
  | persist (ranges : List (Nat × Nat)) (sent : Option Nat)
  | copy (out : Bool) (pol : Pol) (ctr : Option Nat) (segs : List CopySeg) (bytes grp : Nat)
  | stash (r : Nat) (val : Dword) (unmap : Option Nat)
  | resultLoad (op : Nat) (parts : List (Nat × List (Nat × Nat × Nat))) (dst : Option Nat) (sz : Size) (got : List Byte) (va : Dword) (sc : Scope)
  | mma (tile : Tile) (z : Nat) (xa xb kb : Nat) (fw : Word) (bcore : Option Nat) (n : Nat) (src : Option Nat)
  | zrnd (tile : Tile) (z : Nat) (ws : List RegW)
  | zdrain (tile : Tile) (z : Nat) (d : DrainD) (rm : RMode) (dst : List (List (Loc × Nat)))
  | zld (tile : Tile) (z : Nat) (locs : List (Loc × Nat))
  | zst (tile : Tile) (z : Nat) (locs : List (Loc × Nat))
  | quant (tile : Option Tile) (z : Nat) (d : QuantD) (rm : RMode)
  | coll (r : Nat) (d : CollD) (inp out : List (Loc × Nat)) (ctr : Dword) (silent : List Silent) (status : Option Nat)
  | xfer (wr : Bool) (dst src : List (Loc × Nat)) (todo sent : List (Nat × Nat)) (bytes : Nat) (ctr : Dword) (stream : Nat)
  | amsg (target ctr : Dword) (payload : List Dword) (reply : Bool)
  | rwr (vals : List Word) (tcore spid reg : Nat) (ctr : Dword)
  | mgclose (r : Nat) (h : Dword)
  | mgcommit (r : Nat) (h : Dword)
  | mgread (slot dst : Nat) (live : List Nat) (target : Dword) (idx : Nat)
  | mgstable (dst : Nat) (live : List (Nat × Nat)) (reqs : List (Nat × Dword × Nat))  -- waits while STATE reads 0b01 (R313)
  deriving DecidableEq, Repr

/-- An issued operation that has not completed: who issued it, the slots whose token it holds, its clause. -/
structure Op where
  id    : Nat
  blk   : Nat
  m     : Nat
  ctx   : Nat
  core  : Nat
  spid  : Nat
  slots : List Nat
  token : Option (BitVec 3)
  hdr   : Dword
  start : Nat                    -- DEVTIME at issue
  kind  : OpKind
  done  : Nat := 0               -- steps or rows performed so far (R389, R396)
  lost  : Bool := false          -- a later write of its s register has been performed (R62)
  early : Bool := false          -- it reads a tile whose `mma` its thread has not waited for (R66)
  deriving DecidableEq, Repr

/-- Who makes a window request (R138, R139). -/
inductive Agent where
  | ctx (n : Nat)
  | host (pasid : BitVec 20)
  | peer (dev ctx : BitVec 12)
  deriving DecidableEq, Repr

/-- A window request that has passed its checks and has not joined slot order (R140), by its number. `thr` names the issuing
thread (block, spindle, slot) of a spindle's request; `grp` is shared by the requests of one access to several slots, 0
for the only request of its access (R134). -/
structure Posted where
  id    : Nat
  op    : Nat
  agent : Agent
  thr   : Option (Nat × Nat × Nat)
  kind  : WinKind
  grp   : Nat := 0
  deriving DecidableEq, Repr

/-- The states of an operator slot (R136). -/
inductive OState where
  | idle | filling | fired | ready
  deriving DecidableEq, Repr

/-- A request held at a FIRED slot, or a load parked at a FILLING or FIRED one (R136): for a load, the
operation that waits. -/
inductive Held where
  | store (parts : List (Nat × List Byte))
  | fire
  | release
  | load (id : Nat)
  | hostLoad (r : HostWinReq)
  | peerLoad (r : PeerReq) (parts : List (Nat × Nat))
  deriving DecidableEq, Repr

/-- An operator slot that is not as `opbind` left it (R136). -/
structure OSlot where
  k      : Nat
  st     : OState
  elems  : List (Nat × BitVec 16)  -- elements stored in this generation; the mask is their indices
  result : List Byte
  gen    : Word
  held   : List Held
  deriving DecidableEq, Repr

/-- A grantee entry (R138). -/
structure Grant where
  reinstall : Bool
  readW : Bool
  readOut : Bool
  writeIn : Bool
  kind  : BitVec 2
  id    : BitVec 24
  deriving DecidableEq, Repr

/-- Where the firmware keeps a moved-out operator (R139). -/
inductive OpStore where
  | ownerSaveArea
  | firmwareRegion
  deriving DecidableEq, Repr

/-- An installed operator (R128 to R130, R133). -/
structure Operator where
  num    : Nat
  owner  : Nat
  rows   : Nat
  cols   : Nat
  slots  : Nat
  wfmt   : Nat
  ifmt   : Nat
  ofmt   : Nat
  isOpaque : Bool
  bias   : Bool
  weights : List Byte
  scales : List Byte
  biases : List Byte
  grants : List Grant
  bound  : Bool
  resident : Bool
  slotst : List OSlot
  waiting : List Turn            -- host and peer requests held until a restore (R143) or until its unit serves it (R380)
  store   : Option OpStore := none -- where it is while it is moved out (R139)
  deriving DecidableEq, Repr

/-- The states of a merge contributor slot (R311). -/
inductive MState where
  | opened | measured | nonfinite
  deriving DecidableEq, Repr

/-- A merge slot that is not FREE (R310, R311). -/
structure MSlot where
  gang   : Nat
  idx    : Nat
  ctx    : Nat
  target : Dword                -- its virtual address in the context
  pa     : Nat                  -- physical address of the target
  contrib : Dword
  count  : Nat
  limit  : Dword
  st     : MState
  elems  : List (Nat × MgFmt × Word)
  scale  : Dword                -- s of R91, FP64
  last   : Nat                  -- DEVTIME of its last `mgopen` or `mgstage`
  deriving DecidableEq, Repr

/-- A serviced fault that stalls a core (R36, R387), or a queue's page service (core none, R366). -/
structure Service where
  core  : Nat
  ctx   : Nat
  va    : Dword
  write : Bool
  fetch : Bool
  tag   : Nat
  sent  : Bool
  spid  : Nat
  slots : List Nat
  slot  : Nat := 0              -- the faulting slot
  op    : Option Nat            -- the moved-out operator (R143)
  queue : Option Nat            -- the queue that waits for the page (R366)
  record : Option Nat           -- the launch whose completion record waits for it (R373)
  mirror : Bool                 -- the queue waits to mirror its PROG (R364)
  deriving DecidableEq, Repr

/-- A store performed at a die L2 that the directory has not acknowledged (R115, R432). -/
structure Pend where
  die  : Nat
  pa   : Nat
  data : List Byte
  clk  : Nat
  core : Nat
  spid : Nat
  deriving DecidableEq, Repr

/-- A copy of a line in a core's L1, its lease ending at `clk`, or in its read-only path (R111, R112, R116). -/
structure LineCopy where
  core : Nat
  line : Nat
  data : List Byte
  clk  : Nat
  deriving DecidableEq, Repr

/-- A leaf as a walk finds it (R385). -/
structure Page where
  mtype  : Nat
  target : Nat       -- bits [51:16] of the entry, in place
  log2   : Nat       -- page size
  p : Bool
  x : Bool
  w : Bool
  r : Bool
  deriving DecidableEq, Repr

/-- An entry of a core's TLB, tagged with its context (R386): the leaf that maps the page of `va`. -/
structure TlbEnt where
  core : Nat
  ctx  : Nat
  va   : Dword
  page : Page
  deriving DecidableEq, Repr

/-- The state of a host's copy of a bed line as the snoop filter holds it (R405): E or M, or S; no entry is I. -/
inductive HostCopy where
  | owned | shared
  deriving DecidableEq, Repr

/-- A page flip in progress, with the host requests it holds, each with its number of arrival (R406). -/
structure Flip where
  page   : Nat
  toHost : Bool
  cmd    : Bool
  held   : List (Nat × HostReq)
  deriving DecidableEq, Repr

/-- Messages and transactions that leave the part. -/
inductive OutMsg where
  | hostData (r : HostReq) (data : List Byte)
  | hostDone (r : HostReq)
  | hostAbort (r : HostReq)
  | hostError (r : HostReq)
  | winData (r : HostWinReq) (data : List Byte)
  | winDone (r : HostWinReq)
  | winAbort (r : HostWinReq)
  | snoopInv (line : Nat)
  | snoopData (line : Nat)
  | peerReq (stream : StreamId) (plane : Nat) (dev : BitVec 12) (pa : Nat) (k : PeerKind)
  | peerReply (r : PeerReq) (data : List Byte)
  | peerResume (r : PeerReq)
  | peerReject (r : PeerReq)
  | peerError (r : PeerReq)
  | message (target ctr : Dword) (payload : List Dword) (reply : Bool)
  | collStart (id : Nat)
  | msix
  | deviceWrite (pa : Nat) (data : List Byte)
  | downFlush (pa len : Nat)
  | registerAbort (off : Nat)
  | bootstat (v : Dword)
  | hdata (core : Nat) (v : Dword)
  | utcOffset (v : Int)
  deriving DecidableEq, Repr

/-- A request of this device outstanding at a peer (R166, R394): its stream, the peer, the operation that waits, the
issuing thread (block, spindle, slot), the plane it travels, the peer address of its first byte and its length. -/
structure PeerOut where
  key  : StreamId
  dev  : BitVec 12 := 0
  plane : Nat := 0
  op   : Option Nat
  thr  : Option (Nat × Nat × Nat)
  addr : Dword
  len  : Nat := 1
  deriving DecidableEq, Repr

/-- A request held at this device: its stream is frozen, or its line's plane is being remapped (R166, R394). -/
structure HeldOut where
  kind : PeerKind
  x    : PeerOut
  deriving DecidableEq, Repr

/-- A peer's request frozen here until its page is serviced (R394). -/
structure HeldPeer where
  r    : PeerReq
  tag  : Nat
  deriving DecidableEq, Repr

/-- The coherence machinery's state (R111 to R116, R405 to R407, R432). -/
structure Coh where
  pend     : List Pend
  l1       : List LineCopy
  ro       : List LineCopy
  tlb      : List TlbEnt         -- R386
  hostLines : List (Nat × HostCopy) -- bed lines the host holds (snoop filter, R405)
  device   : List (Nat × List Byte) -- HDM-H lines that another agent has written at the device (R408)
  hostBias : List Nat            -- 4 KiB bed pages in host bias (R405)
  flips    : List Flip
  biascmd  : Dword
  flipCount : Nat
  biasErr  : Bool
  autoflip : Bool
  leaseMax : Nat
  deriving DecidableEq, Repr

/-- The boot ROM's and firmware's state (R409 to R413, R416). -/
structure Boot where
  state   : BitVec 4
  fails   : Nat                  -- BOOTFAIL count
  reason  : Byte
  meas    : List (BitVec 512)
  aliasSeed : BitVec 256
  idPub   : BitVec 256
  aliasSig : BitVec 512
  fwStart : Nat                  -- DEVTIME of FIRMWARE
  fwRunning : List Nat           -- dies whose firmware core runs
  fwres   : Nat                  -- bytes of the firmware region of each die (R404)
  pageDigests : List (BitVec 512)
  inp     : Option BootIn        -- what the ROM finds at each attempt; none before the first RESET
  puf     : Option (BitVec 256)  -- the seed S, erased before FIRMWARE (R416)
  trained : Bool                 -- the firmware has trained bed memory
  coreMap : List (Option Nat)    -- the physical core of each logical core (R10)
  region  : Option (Nat × Nat)   -- the boot region: physical address and bytes (R411)
  upstream : Bool := false       -- the firmware has brought up the upstream ports (R409)
  deriving DecidableEq, Repr

/-- The mailbox (R415). -/
structure Mail where
  base   : Dword
  log2n  : Nat
  tdprod : BitVec 16
  tdcons : BitVec 16
  thprod : BitVec 16
  thcons : BitVec 16
  failedDue : List Nat         -- CORE_FAILED messages that wait for ring space
  uncorrDue : List Nat         -- UNCORR messages that wait for ring space
  deriving DecidableEq, Repr

/-- The servo's states (R419, R420). -/
inductive Servo where
  | freerun | locking | locked | holdover
  deriving DecidableEq, Repr

/-- DEVTIME's discipline (R418 to R421). -/
structure Ptp where
  slewmax : BitVec 16
  domnum  : Byte
  delay   : Bool
  en      : Bool
  adj     : Dword
  offset  : Int
  stepref : Bool
  st      : Servo
  good    : Nat                  -- consecutive Sync intervals below 100 ns
  first   : Bool                 -- no lock since reset
  trace   : Bool := false        -- the class that the master's clockClass last had: traceable (R420)
  utcOff  : Int := 0             -- the currentUtcOffset that the master announced last (R418)
  deriving DecidableEq, Repr

/-- Power, cooling, health and the part log (R399, R400, R428 to R431). -/
structure Health where
  pwrcap  : BitVec 16
  mhz     : BitVec 16
  trip    : Bool
  errMap  : List Nat             -- physical lines
  corrected : Nat
  plogbase : Dword
  ploglog2 : Nat
  prodP   : Nat
  retireReg : Dword
  deadCores : List Nat
  deadDies : List Nat
  downPorts : List Nat
  unmapped : List Nat            -- retired frames
  lostErrs : List Nat := []      -- uncorrectable lines that found the error map full (R399)
  deriving DecidableEq, Repr

/-- The fabric (R166, R167, R394). -/
structure Fabric where
  planes : List (Nat × Bool)     -- PLANEMAP_0 to PLANEMAP_63: plane, LIVE
  dead   : List Nat
  outst  : List PeerOut
  heldIn : List HeldPeer
  device : BitVec 12             -- this device's number
  frozen : List StreamId         -- streams frozen by a fault at their target (R394)
  held   : List HeldOut          -- in order
  msgs   : List (Dword × Nat)    -- active messages sent: reply token, launch (R290, R320)
  deriving DecidableEq, Repr

/-- A port of a partition: the class it issues, the position it last granted in its round robin, and its round: the spindle,
and the batches that have issued, by slot, with how many clauses and whether the last had CHAIN (R345). -/
structure Port where
  core  : Nat
  part  : Nat
  cls   : Cls
  pos   : Nat
  cur   : Option Nat
  used  : List (Nat × Nat × Bool)
  deriving DecidableEq, Repr

/-- A batch seen ready: core, SPID, lowest slot, and since when (R344, R345). -/
structure Ready where
  core : Nat
  spid : Nat
  slot : Nat
  clk  : Nat
  deriving DecidableEq, Repr

/-- The scheduler's registers (R376, R377, R379). -/
structure Sched where
  lseed  : Word
  urgent : Word
  qlimit : Word
  qgangs : BitVec 16
  rr     : Nat                   -- the port that issued last
  ports  : List Port             -- R345
  ready  : List Ready
  qrr    : Nat                   -- queue last served in class Q (R375)
  period : Nat                   -- start of the accounting period (R388)
  accepted : Bool                -- a launch has been accepted since reset (R421)
  units  : List (Nat × Nat)      -- unit number, context it is loaded for (R380)
  drawn  : Bool := false         -- eight draws have failed since cores were last released (R375)
  doms   : List (Nat × Nat) := [] -- cores with the domain each last worked for (R382)
  waits  : List (Nat × Nat × Nat) := [] -- a stopped unit, the context it is to be loaded for, since when (R380)
  deriving DecidableEq, Repr

/-- Translation registers (R386) and the context command registers (R383). -/
structure Xlat where
  ctxtab   : Dword
  ctxcmd   : BitVec 12           -- CTXID of the last command
  tinvaddr : Dword
  tinvctl  : Dword
  tinvBusy : Bool
  busy     : Option Nat          -- the context whose HALT or DESTROY command still runs (CTXCMD.BUSY)
  deriving DecidableEq, Repr

/-- The part. -/
structure State where
  -- the model's own fields (DESIGN CHOICE, log entries 1, 3, 8)
  agenda  : List Turn
  paceNs  : Nat
  paceClk : Nat
  freeCtr : Nat
  nextId  : Nat
  turn    : Nat                  -- which kind of work the machine looks at first when no turn is given
  -- time
  powered : Bool
  devtime : Nat
  clk     : Nat
  -- memory
  epoch   : Nat
  mem     : List Host.Cell
  durable : List (Nat × Nat × List Byte) -- earlier values of stock and host lines since their last persist, newest first, numbered
  writes  : Nat                -- how many such values there have been
  kept    : List Nat           -- lines of persistence domains that have been written (R126, R127, R434)
  stock   : List StockDev      -- R408
  coh     : Coh
  -- configuration
  diemask : BitVec 4
  -- work
  ctxs    : List Ctx
  freed   : List Ctx             -- as FREE contexts ended, for CTXSTAT (R383, R392)
  queues  : List Queue
  launches : List Launch
  blocks  : List Block
  run     : Run
  runs    : List Run             -- other clauses in progress
  ops     : List Op
  services : List Service
  engStops : List EngStop
  sched   : Sched
  xlat    : Xlat
  ibk     : List Dword           -- IBK_0 to IBK_3 (R359)
  hsel    : List (Nat × Dword)   -- HSEL of each core whose hart has written it (R398)
  -- units
  operators : List Operator
  posted  : List Posted
  mslots  : List MSlot
  fabric  : Fabric
  -- headstock
  boot    : Boot
  mail    : Mail
  ptp     : Ptp
  health  : Health
  out     : List OutMsg
  deriving DecidableEq, Repr

/-- A clause in progress: none. -/
def Run.idle : Run :=
  { active := false, blk := 0, m := 0, hdr := 0, base := 0, cls := .v, exec := [], token := none, words := [], cur := [],
    idx := 0, lat := none, latches := [], npc := 0 }

/-- Coherence state after reset: nothing cached, every page in device bias (R405), LEASE_MAX 2,048 (R114). -/
def Coh.reset : Coh :=
  { pend := [], l1 := [], ro := [], tlb := [], hostLines := [], device := [], hostBias := [], flips := [], biascmd := 0,
    flipCount := 0, biasErr := false, autoflip := true, leaseMax := 2048 }

/-- The boot state after reset, with the retained failure count and reason (R412, R413).
DESIGN CHOICE, log entry 7. -/
def Boot.reset (fails : Nat) (reason : Byte) : Boot :=
  { state := 0, fails := fails, reason := reason, meas := List.replicate 8 0, aliasSeed := 0, idPub := 0,
    aliasSig := 0, fwStart := 0, fwRunning := [], fwres := 0, pageDigests := [], inp := none, puf := none
    trained := false, coreMap := (List.range 256).map (fun c => some (Config.dieCores * (c / 64) + c % 64)), region := none }

def Mail.reset : Mail := { base := 0, log2n := 0, tdprod := 0, tdcons := 0, thprod := 0, thcons := 0, failedDue := [], uncorrDue := [] }

def Ptp.reset : Ptp :=
  { slewmax := 100, domnum := 0, delay := false, en := false, adj := 0, offset := 0, stepref := false,
    st := .freerun, good := 0, first := true }

def Health.reset : Health :=
  { pwrcap := 0x0A28, mhz := 3600, trip := false, errMap := [], corrected := 0, plogbase := 0, ploglog2 := 0,
    prodP := 0, retireReg := 0, deadCores := [], deadDies := [], downPorts := [], unmapped := [] }

/-- PLANEMAP_i names plane i mod 12 (R167). The device number is no register of the manual: DESIGN CHOICE, log entry 7. -/
def Fabric.reset : Fabric :=
  { planes := (List.range 64).map (fun i => (i % 12, true)), dead := [], outst := [], heldIn := [], device := 0
    frozen := [], held := [], msgs := [] }

def Sched.reset : Sched :=
  { lseed := 0x2545F491, urgent := 0xC350, qlimit := 0x3E8, qgangs := 0x8000, rr := 0, ports := [], ready := [], qrr := 0, period := 0,
    accepted := false, units := [] }

def Xlat.reset : Xlat := { ctxtab := 0, ctxcmd := 0, tinvaddr := 0, tinvctl := 0, tinvBusy := false, busy := none }

/-- A queue's registers at reset (R362). -/
def Queue.reset (n : Nat) : Queue :=
  { n := n, base := 0, log2 := 0, tickets := 1, ctxid := 0, priv := false, quar := false, lcls := true,
    en := false, tail := 0, prog := 0, erroff := 0, reason := 0, tailerr := false, mirror := 0, out := false,
    waiting := false, ctx := 0, stack := [], serv := false }

/-- The part right after reset (R409, and the Reset columns of the register tables). -/
def State.reset : State :=
  { agenda := [], paceNs := 1, paceClk := 1, freeCtr := 0, nextId := 0, turn := 0, powered := true, devtime := 0, clk := 0,
    epoch := 0, mem := [], durable := [], writes := 0, kept := [], stock := [], coh := Coh.reset, diemask := 0xF, ctxs := [], freed := [], queues := [],
    launches := [], blocks := [], run := Run.idle, runs := [], ops := [], services := [], engStops := [],
    sched := Sched.reset, xlat := Xlat.reset, ibk := [0, 0, 0, 0], hsel := [],
    operators := [], posted := [], mslots := [], fabric := Fabric.reset, boot := Boot.reset 0 0,
    mail := Mail.reset, ptp := Ptp.reset, health := Health.reset, out := [] }

end Sys2Proof.Machine
end

