-- ==== Sys2Proof/Machine/Mem.lean ====
section
/-! DEFINITION. Mem.lean: the byte memories in canonical form, little-endian values (R3), coherence of physical
memory (R109 to R116, R122, R126, R405, R432), and translation (R107, R108, R384 to R386). -/

namespace Sys2Proof.Machine

/-- A memory: (address, byte) pairs with rising addresses. An unlisted address has no value of its own. -/
abbrev Memory := List Host.Cell

namespace Memory

/-- The byte written at an address, none where nothing has written it. -/
def get : Memory → Nat → Option Byte
  | [], _ => none
  | (k, v) :: r, a => if k = a then some v else get r a

/-- The cells of bytes that stand at an address and up. -/
def cells : Nat → List Byte → Memory
  | _, [] => []
  | a, b :: r => (a, b) :: cells (a + 1) r

/-- Bytes written from an address up. -/
def setMany (m : Memory) (a : Nat) (d : List Byte) : Memory :=
  let e := a + d.length
  m.filter (fun c => decide (c.1 < a)) ++ (cells a d ++ m.filter (fun c => decide (e ≤ c.1)))

/-- The canonical form: addresses strictly rise, so no address is listed twice. -/
def wf : Memory → Bool
  | [] => true
  | [_] => true
  | (a, _) :: (b, y) :: r => decide (a < b) && wf ((b, y) :: r)

/-- The cells whose addresses satisfy a test are dropped. -/
def drop (m : Memory) (p : Nat → Bool) : Memory := m.filter (fun c => !p c.1)

end Memory

/-- The little-endian value of bytes (R3). -/
def leNat : List Byte → Nat
  | [] => 0
  | b :: r => b.toNat + 256 * leNat r

/-- The n little-endian bytes of a value (R3). -/
def leBytes : Nat → Nat → List Byte
  | 0, _ => []
  | n + 1, x => BitVec.ofNat 8 x :: leBytes n (x / 256)

/-- The bytes f(a), …, f(a + n − 1). -/
def bytesAt (f : Nat → Byte) (a n : Nat) : List Byte := (List.range n).map (fun i => f (a + i))

/-- The dword at a place. -/
def dwordAt (f : Nat → Byte) (a : Nat) : Dword := BitVec.ofNat 64 (leNat (bytesAt f a 8))

/-- The 128-byte line of an address. -/
abbrev lineOf (a : Nat) : Nat := a / 128

/-- A range of n bytes at a, cut at multiples of `u`: (start, length) pieces in ascending order. -/
def cutAt (u : Nat) : Nat → Nat → Nat → List (Nat × Nat)
  | 0, _, _ => []
  | fuel + 1, a, n =>
    if n = 0 then []
    else
      let k := min n (u - a % u)
      (a, k) :: cutAt u fuel (a + k) (n - k)

/-- The lines that [a, a + n) touches, as pieces. -/
def linePieces (a n : Nat) : List (Nat × Nat) := cutAt 128 (n / 128 + 2) a n

/-- The physical classes of R402. -/
inductive PClass where
  | bed (die : Nat)
  | stock (port : Nat)
  | host
  | bar
  | dev (port : Nat)
  | outside
  deriving DecidableEq, Repr

/-- R402: the class of a physical address. -/
def pclass (pa : Nat) : PClass :=
  if pa < 4 * 0x20_0000_0000 then
    (if pa % 0x20_0000_0000 < Config.bedBytes then .bed (pa / 0x20_0000_0000) else .outside)
  else if 0x4_0000_0000_0000 ≤ pa && pa < 0x4_0000_0000_0000 + 8 * 0x800_0000_0000 then
    .stock ((pa - 0x4_0000_0000_0000) / 0x800_0000_0000)
  else if 0x8_0000_0000_0000 ≤ pa && pa < 0xC_0000_0000_0000 then .host
  else if 0xC_0000_0000_0000 ≤ pa && pa < 0xC_0000_0100_0000 then .bar
  else if 0xC_0001_0000_0000 ≤ pa && pa < 0xC_0009_0000_0000 then .dev ((pa - 0xC_0001_0000_0000) / 0x1_0000_0000)
  else .outside

/-- The physical dies that DIEMASK enables, ascending (R14, R15). -/
def State.dies (s : State) : List Nat := (List.range 4).filter (fun n => s.diemask.getLsbD n)

/-- USERCORES (R14). -/
def State.userCores (s : State) : Nat := s.dies.length * Config.dieGangs * Config.gangCores

/-- Some firmware core runs Enade (R409, R414). -/
def State.firmware (s : State) : Bool := (s.boot.state == 5 || s.boot.state == 6) && !s.boot.fwRunning.isEmpty

/-- The firmware core of an enabled die, counted from 0, runs. -/
def State.firmwareOn (s : State) (die : Nat) : Bool :=
  (s.boot.state == 5 || s.boot.state == 6) && ((s.dies[die]?).map (fun d => s.boot.fwRunning.contains d)).getD false

/-- The enabled die, counted from 0, of a logical core (R11, R15). -/
def dieOf (core : Nat) : Nat := core / (Config.dieGangs * Config.gangCores)
/-- The gang of a logical core (R11). -/
def gangOf (core : Nat) : Nat := core / Config.gangCores

/-! Coherence. `mem` holds each byte's last acknowledged value. A store performed at a die L2 and not yet
acknowledged stands in `coh.pend` and is visible on its own die only (R115, R432). -/

/-- An address in a retired frame (R429). -/
def State.retired (s : State) (pa : Nat) : Bool := s.health.unmapped.contains (pa / 0x10000)

/-- A byte of acknowledged memory, or its unpredictable value (R429, R434). -/
def State.home (s : State) (pa : Nat) : Byte :=
  if s.retired pa then Config.retiredByte s.clk pa else (Memory.get s.mem pa).getD (Config.coldByte s.epoch pa)

/-- The byte that pending stores give an address, in the order performed. -/
def pendByte (die : Nat) (pa : Nat) : List Pend → Option Byte
  | [] => none
  | p :: r =>
    match pendByte die pa r with
    | some b => some b
    | none => if p.die = die ∧ p.pa ≤ pa ∧ pa < p.pa + p.data.length then p.data[pa - p.pa]? else none

/-- A byte as the agents of a die see it at L2; `none` is an agent outside the dies (R115, R148). -/
def State.view (s : State) (die : Option Nat) (pa : Nat) : Byte :=
  match die with
  | none => s.home pa
  | some d => (pendByte d pa s.coh.pend).getD (s.home pa)

/-- The stock device whose memory a line is (R408). -/
def State.deviceAt (s : State) (line : Nat) : Option StockDev :=
  match pclass (128 * line) with
  | .stock p =>
    let off := (128 * line - 0x4_0000_0000_0000) % 0x800_0000_0000
    s.stock.find? (fun d => d.port == p && decide (d.base ≤ off) && decide (off < d.base + d.size))
  | _ => none

/-- The earlier contents of a line that is written (R126); a line of a device with a persistence domain outlives a reset
(R408, R434). -/
def State.keepLine (s : State) (l : Nat) : State :=
  { s with durable := (l, s.writes, bytesAt s.home (128 * l) 128) :: s.durable, writes := s.writes + 1
           kept := if (s.deviceAt l).any (·.persist) && !s.kept.contains l then l :: s.kept else s.kept }

/-- Bytes of acknowledged memory written, with the earlier contents of a stock or host line for R126. -/
def State.commit (s : State) (pa : Nat) (data : List Byte) : State :=
  let keep := match pclass pa with
    | .stock _ | .host => true
    | _ => false
  let s1 := if keep then s.keepLine (lineOf pa) else s
  { s1 with mem := Memory.setMany s1.mem pa data }

/-- The directory acknowledges every pending store that satisfies a test, in the order performed (R115, R432). -/
def State.ack (s : State) (p : Pend → Bool) : State :=
  let todo := s.coh.pend.filter p
  let s1 := { s with coh := { s.coh with pend := s.coh.pend.filter (fun x => !p x) } }
  todo.foldl (fun t x => t.commit x.pa x.data) s1

/-- A store waits in the directory behind the stores other dies have performed on the line (R115). -/
def State.ackOthers (s : State) (die : Option Nat) (line : Nat) : State :=
  s.ack (fun p => lineOf p.pa == line && some p.die != die)

/-- A read at a die L2 waits until the directory has acknowledged the die's own stores to the line, so that no agent
sees a store before every die can (R433). DESIGN CHOICE, log entry 11. -/
def State.seeLine (s : State) (die : Option Nat) (line : Nat) : State :=
  s.ack (fun p => lineOf p.pa == line && some p.die == die)

/-- Every pending store of a line is acknowledged. -/
def State.ackLine (s : State) (line : Nat) : State := s.ack (fun p => lineOf p.pa == line)

/-- Bytes laid over a line's copy. -/
def overlay (base : Nat) (old : List Byte) (pa : Nat) (data : List Byte) : List Byte :=
  (old.zipIdx).map (fun x =>
    let a := base + x.2
    if pa ≤ a ∧ a < pa + data.length then (data[a - pa]?).getD x.1 else x.1)

/-! Local memory (R117 to R120). -/

/-- A byte of a block's local memory (R118). -/
def Block.lbyte (b : Block) (a : Nat) : Byte := (Memory.get b.lmem a).getD (Config.coldLocal b.uid a)

/-- Local bytes. -/
def Block.lbytes (b : Block) (a n : Nat) : List Byte := bytesAt b.lbyte a n

/-- The stash mapping that covers a local address (R120). -/
def Block.stashAt (b : Block) (a : Nat) : Option StashMap := b.stash.find? (fun m => m.l ≤ a && a < m.l + m.bytes)

/-- Local bytes written. A stash line written becomes dirty (R123). -/
def Block.lwrite (b : Block) (a : Nat) (data : List Byte) : Block :=
  let dirty := (linePieces a data.length).filterMap (fun p =>
    if (b.stashAt p.1).isSome then some (lineOf p.1) else none)
  { b with lmem := Memory.setMany b.lmem a data, dirty := b.dirty ++ dirty.filter (fun l => !b.dirty.contains l) }

/-- Every operand read of an `mma` sees the bytes of a local range (R162). -/
def Block.seenAll (b : Block) (a n : Nat) : Block :=
  { b with unseen := b.unseen.filter (fun u => !(decide (u.addr < a + n) && decide (a < u.addr + u.old.length))) }

/-- The presence bit of a local line (R118). -/
def Block.present (b : Block) (l : Nat) : Bool := !b.absent.contains l

/-- Its pending-fill count (R118). -/
def Block.fillCount (b : Block) (l : Nat) : Nat := ((b.fills.find? (fun x => x.1 == l)).map (·.2)).getD 0

/-- A local line made absent. -/
def Block.clearLine (b : Block) (l : Nat) : Block := if b.absent.contains l then b else { b with absent := l :: b.absent }

/-- A fill begins on a line: bit cleared, count + 1 (R118). -/
def Block.fillStart (b : Block) (l : Nat) : Block :=
  let n := b.fillCount l
  let b := b.clearLine l
  { b with fills := (l, n + 1) :: b.fills.filter (fun x => x.1 != l) }

/-- A fill of a line ends: count − 1, bit set when it reaches 0 (R118). -/
def Block.fillEnd (b : Block) (l : Nat) : Block :=
  let n := b.fillCount l - 1
  let rest := b.fills.filter (fun x => x.1 != l)
  if n = 0 then { b with fills := rest, absent := b.absent.filter (· != l) }
  else { b with fills := (l, n) :: rest }

/-! Blocks and spindles. -/

/-- A block by its number. -/
def State.blk (s : State) (uid : Nat) : Option Block := s.blocks.find? (fun b => b.uid == uid)

/-- A block changed. -/
def State.updBlk (s : State) (uid : Nat) (f : Block → Block) : State :=
  { s with blocks := s.blocks.map (fun b => if b.uid == uid then f b else b) }

/-- A spindle of a block by its field-1 value. -/
def Block.sp (b : Block) (m : Nat) : Option Spindle := b.spindles.find? (fun x => x.m == m)

def Block.updSp (b : Block) (m : Nat) (f : Spindle → Spindle) : Block :=
  { b with spindles := b.spindles.map (fun x => if x.m == m then f x else x) }

/-- A spindle changed. -/
def State.updSp (s : State) (uid m : Nat) (f : Spindle → Spindle) : State := s.updBlk uid (fun b => b.updSp m f)

/-- A thread changed. -/
def Spindle.updThr (sp : Spindle) (k : Nat) (f : Thread → Thread) : Spindle :=
  { sp with threads := sp.threads.zipIdx.map (fun x => if x.2 == k then f x.1 else x.1) }

def State.updThr (s : State) (uid m k : Nat) (f : Thread → Thread) : State := s.updSp uid m (fun x => x.updThr k f)

/-- A context by its number. -/
def State.ctx (s : State) (n : Nat) : Option Ctx := s.ctxs.find? (fun c => c.id == n)

def State.updCtx (s : State) (n : Nat) (f : Ctx → Ctx) : State :=
  { s with ctxs := s.ctxs.map (fun c => if c.id == n then f c else c) }

/-- A launch by its number. -/
def State.launch (s : State) (u : Nat) : Option Launch := s.launches.find? (fun l => l.uid == u)

def State.updLaunch (s : State) (u : Nat) (f : Launch → Launch) : State :=
  { s with launches := s.launches.map (fun l => if l.uid == u then f l else l) }

/-- Two threads' parked state that any of the listed lines held: woken when all are present (R34). -/
def wakeLines (b : Block) : Block :=
  { b with spindles := b.spindles.map (fun sp =>
      { sp with threads := sp.threads.map (fun t =>
          match t.st with
          | .parked (.lines ls _) => if ls.all b.present then { t with st := .ready, served := ls } else t
          | _ => t) }) }

/-- A line's copies in every L1 are dropped. -/
def State.dropL1 (s : State) (line : Nat) : State :=
  { s with coh := { s.coh with l1 := s.coh.l1.filter (fun c => c.line != line) } }

/-- A core's copy of a line is dropped. -/
def State.dropOwn (s : State) (core line : Nat) : State :=
  { s with coh := { s.coh with l1 := s.coh.l1.filter (fun c => !(c.core == core && c.line == line)) } }

/-! Stash ownership and recall (R122, R123). -/

/-- Bytes written in a block's local memory. A line of a stash is a copy of its global line: its L1 copies go, so that no
later load returns the value before the store (R111, R121, R123). -/
def State.localWrite (s : State) (uid a : Nat) (data : List Byte) : State :=
  match s.blk uid with
  | none => s
  | some b =>
    let ls := (linePieces a data.length).map (fun p => lineOf p.1)
    let s := s.updBlk uid (fun b => b.lwrite a data)
    (b.owned.filter (fun x => ls.contains x.1)).foldl (fun t x => t.dropL1 x.2) s

/-- A range meets the boot region, which the part never writes (R411). -/
def State.inRegion (s : State) (pa len : Nat) : Bool :=
  match s.boot.region with
  | some (a, n) => decide (pa < a + n) && decide (a < pa + len)
  | none => false

/-- The write-back of a stash line of a block, by its local and its physical line (R123). -/
def State.stashBack (s : State) (b : Block) (x : Nat × Nat) : State :=
  if s.inRegion (128 * x.2) 128 then s else (s.ackLine x.2).commit (128 * x.2) (b.lbytes (128 * x.1) 128)

/-- A stash line of a block gives up its line: a dirty one is written back, its presence bit is cleared. -/
def State.recallFrom (s : State) (uid : Nat) (x : Nat × Nat) : State :=
  match s.blk uid with
  | none => s
  | some b =>
    let s1 := if b.dirty.contains x.1 then s.stashBack b x else s
    s1.updBlk uid (fun b =>
      { (b.clearLine x.1) with owned := b.owned.filter (· != x), dirty := b.dirty.filter (· != x.1) })

/-- R122: every stash line that holds a physical line is recalled. -/
def State.recall (s : State) (line : Nat) : State :=
  s.blocks.foldl (fun t b => (b.owned.filter (fun x => x.2 == line)).foldl (fun u x => u.recallFrom b.uid x) t) s

/-! Host copies (R405): the model performs a host store when it becomes globally visible (R403), so a snoop
carries no value. -/

/-- A part load of a line with a host copy sends BISnpData, and the host keeps it in S; a store sends BISnpInv, and the
host's copy becomes I. -/
def State.snoopHost (s : State) (line : Nat) (write : Bool) : State :=
  if s.coh.hostLines.any (fun x => x.1 == line) then
    if write then
      { s with out := s.out ++ [.snoopInv line], coh := { s.coh with hostLines := s.coh.hostLines.filter (fun x => x.1 != line) } }
    else
      { s with out := s.out ++ [.snoopData line]
               coh := { s.coh with hostLines := s.coh.hostLines.map (fun x => if x.1 == line then (line, .shared) else x) } }
  else s

/-! Stock memory that others write (R408). -/

/-- A device of HDM-H memory holds a line. -/
def State.hdmH (s : State) (line : Nat) : Bool := (s.deviceAt line).any (fun d => !d.db)

/-- The part sees an HDM-H line as its device holds it: a `.sys` access is performed there, or its caches give the line
up. -/
def State.refresh (s : State) (line : Nat) : State :=
  match s.coh.device.find? (fun x => x.1 == line) with
  | none => s
  | some x =>
    let s := (s.ackLine line).commit (128 * line) x.2
    { s with coh := { s.coh with device := s.coh.device.filter (fun x => x.1 != line) } }

/-- A store in the part's caches goes over what another agent wrote at the device. DESIGN CHOICE, log entry 72. -/
def State.overDevice (s : State) (line : Nat) : State :=
  { s with coh := { s.coh with device := s.coh.device.filter (fun x => x.1 != line) } }

/-! Uncorrectable lines (R399, R408). -/

/-- A line that its consumers meet as uncorrectable: one of the error map or one that found the map full, until its frame is
retired (R429); and every line behind a link that is down. -/
def State.badLine (s : State) (l : Nat) : Bool :=
  ((s.health.errMap.contains l || s.health.lostErrs.contains l) && !s.retired (128 * l)) ||
  (match pclass (128 * l) with
    | .stock p => s.health.downPorts.contains p
    | _ => false)

/-- The first line of a range behind a downstream port whose link is down: a store to it fails too (R408). -/
def State.downIn (s : State) (pa n : Nat) : Option Nat :=
  ((linePieces pa n).find? (fun p =>
    match pclass p.1 with
    | .stock k => s.health.downPorts.contains k
    | _ => false)).map (fun p => lineOf p.1)

/-- The first such line of a range. -/
def State.badIn (s : State) (pa n : Nat) : Option Nat :=
  ((linePieces pa n).find? (fun p => s.badLine (lineOf p.1))).map (fun p => lineOf p.1)

/-! Host requests and bias flips (R403 to R406). Pages of bias are numbered by their address over 4,096. -/

/-- A line is taken from the part for the host: stashes give it up, stores of the dies are acknowledged. -/
def State.giveLine (s : State) (line : Nat) : State := (s.recall line).ackLine line

/-- A host request leaves copies of its lines in the host (snoop filter): E or M, but S where a read meets an S copy. -/
def State.hostTakes (s : State) (write : Bool) (ls : List Nat) : State :=
  let had (l : Nat) : Bool := s.coh.hostLines.any (fun x => x.1 == l)
  let old := s.coh.hostLines.map (fun x => if write && ls.contains x.1 then (x.1, HostCopy.owned) else x)
  { s with coh := { s.coh with hostLines := old ++ (ls.filter (fun l => !had l)).map (fun l => (l, HostCopy.owned)) } }

/-- An admitted host request is served at the home (R405, R399). DESIGN CHOICE, log entry 42. -/
def State.serveHost (s : State) (r : HostReq) : State :=
  let n := if r.write then r.data.length else r.len
  let ps := linePieces r.pa n
  let s := ps.foldl (fun t p => t.giveLine (lineOf p.1)) s
  let ls := ps.map (fun p => lineOf p.1)
  if r.write then
    let s := ps.foldl (fun t p => (t.commit p.1 ((r.data.drop (p.1 - r.pa)).take p.2)).dropL1 (lineOf p.1)) s
    { (s.hostTakes true ls) with out := s.out ++ [.hostDone r] }
  else if (s.badIn r.pa n).isSome then { s with out := s.out ++ [.hostError r] }
  else { (s.hostTakes false ls) with out := s.out ++ [.hostData r (bytesAt s.home r.pa n)] }

/-- The lines of a page. -/
def pageLines (page : Nat) : List Nat := (List.range 32).map (fun i => 32 * page + i)

/-- Steps 2 and 3 of a flip (R406). -/
def State.flipWork (s : State) (page : Nat) (toHost : Bool) : State :=
  if toHost == s.coh.hostBias.contains page then s
  else if toHost then
    let s := (pageLines page).foldl State.giveLine s
    { s with coh := { s.coh with hostBias := page :: s.coh.hostBias, flipCount := s.coh.flipCount + 1 } }
  else
    let mine := s.coh.hostLines.filter (fun x => x.1 / 32 == page)
    { s with out := s.out ++ mine.map (fun x => .snoopInv x.1)
             coh := { s.coh with hostLines := s.coh.hostLines.filter (fun x => x.1 / 32 != page)
                                 hostBias := s.coh.hostBias.filter (fun p => p != page)
                                 flipCount := s.coh.flipCount + 1 } }

/-- The bias pages that a range touches. -/
def pagesTouched (pa n : Nat) : List Nat := (cutAt 4096 (n / 4096 + 2) pa n).map (fun p => p.1 / 4096)

/-- The pages of a host's request. -/
def hostPages (r : HostReq) : List Nat := pagesTouched r.pa (if r.write then r.data.length else r.len)

/-- The first of a request's pages that is FLIPPING (R406). -/
def State.flipping (s : State) (r : HostReq) : Option Nat :=
  (hostPages r).find? (fun p => s.coh.flips.any (fun f => f.page == p))

/-- The first of a request's pages in device bias. -/
def State.devicePage (s : State) (r : HostReq) : Option Nat := (hostPages r).find? (fun p => !s.coh.hostBias.contains p)

/-- A request waits behind the last flip of a page, in order of arrival. DEDUCED, log entry 51. -/
def State.holdHost (s : State) (page n : Nat) (r : HostReq) : State :=
  let i := ((s.coh.flips.reverse.findIdx? (fun f => f.page == page)).map (fun i => s.coh.flips.length - 1 - i)).getD 0
  { s with coh := { s.coh with flips := s.coh.flips.zipIdx.map (fun x =>
      if x.2 == i then
        { x.1 with held := x.1.held.filter (fun y => decide (y.1 < n)) ++ (n, r) :: x.1.held.filter (fun y => decide (n < y.1)) }
      else x.1) } }

/-- A request of the offered ranges numbered `n` on arrival goes on (R405, R406): served where every page it touches is in
host bias, held behind a flip, or the start of one. -/
def State.hostGo (s : State) (n : Nat) (r : HostReq) : State :=
  match s.flipping r with
  | some p => s.holdHost p n r
  | none =>
    match s.devicePage r with
    | some p => { s with coh := { s.coh with flips := s.coh.flips ++ [{ page := p, toHost := true, cmd := false, held := [(n, r)] }] } }
    | none => s.serveHost r

/-- A request that meets device bias with AUTOFLIP 0 (R405). -/
def State.turnedAway (s : State) (r : HostReq) : Bool :=
  !s.coh.autoflip && (s.flipping r).isNone && (s.devicePage r).isSome

/-- The first flip of a page completes, and the requests it held proceed in order of arrival (R406), ahead of every later
one: under device bias they start a flip back, or are turned away where AUTOFLIP is 0. -/
def State.endFlip (s : State) (page : Nat) : State :=
  match s.coh.flips.find? (fun f => f.page == page) with
  | none => s
  | some f =>
    let s := { s with coh := { s.coh with flips := s.coh.flips.erase f } }
    let s := s.flipWork page f.toHost
    let away := f.held.filter (fun x => s.turnedAway x.2)
    let s := { s with agenda := away.map (fun x => Turn.event (.hostMemRequest x.2)) ++ s.agenda }
    (f.held.filter (fun x => !s.turnedAway x.2)).foldl (fun t x => t.hostGo x.1 x.2) s

/-- Every flip of a page completes before an access of the part that was held behind it (R406). -/
def State.endFlips (s : State) (page : Nat) : Nat → State
  | 0 => s
  | n + 1 => if s.coh.flips.any (fun f => f.page == page) then (s.endFlip page).endFlips page n else s

/-- The line is taken from stashes and other dies before an access at L2 or beyond. DESIGN CHOICE, log entry 41. -/
def State.takeLine (s : State) (die : Option Nat) (line : Nat) (write : Bool) : State :=
  let s := s.endFlips (line / 32) (2 * s.coh.flips.length + 2)
  let s := (s.recall line).snoopHost line write
  if write then s.ackOthers die line else s.seeLine die line

/-- One piece of a store, inside one line, performed at the die L2, or at the home when `home` (R109). -/
def State.storeLine (s : State) (die : Option Nat) (home : Bool) (who : Nat × Nat) (pa : Nat) (data : List Byte) : State :=
  let s := s.takeLine die (lineOf pa) true
  let s := if home then s.refresh (lineOf pa) else s.overDevice (lineOf pa)
  match die with
  | some d =>
    if home then (s.ackLine (lineOf pa)).commit pa data
    else
      { s with coh := { s.coh with
          pend := s.coh.pend ++ [{ die := d, pa := pa, data := data, clk := s.clk, core := who.1, spid := who.2 }] } }
  | none => (s.ackLine (lineOf pa)).commit pa data

/-- The storing core's own L1 copies are brought up to date (R109, R111). -/
def State.l1Update (s : State) (core : Nat) (pa : Nat) (data : List Byte) : State :=
  { s with coh := { s.coh with
      l1 := s.coh.l1.map (fun c =>
        if c.core == core then { c with data := overlay (128 * c.line) c.data pa data } else c) } }

/-- A leased copy of a line as the core's die sees it now is put in its L1 (R111). DESIGN CHOICE, log entry 38. -/
def State.l1Fill (s : State) (core line : Nat) : State :=
  if s.coh.l1.any (fun c => c.core == core && c.line == line) then s
  else
    { s with coh := { s.coh with
        l1 := { core := core, line := line, data := bytesAt (s.view (some (dieOf core))) (128 * line) 128, clk := s.clk + s.coh.leaseMax }
          :: s.coh.l1 } }

/-- A store of bytes by a core or by an agent outside the dies (R109). `who` is the storing core and spindle.
DESIGN CHOICE, log entry 11. -/
def State.storePhys (s : State) (die : Option Nat) (pol : Pol) (who : Nat × Nat) (pa : Nat) (data : List Byte) : State :=
  let s := (linePieces pa data.length).foldl (fun t p =>
    t.storeLine die (pol == .sys) who p.1 ((data.drop (p.1 - pa)).take p.2)) s
  let s := s.l1Update who.1 pa data
  if pol == .l1 && die.isSome then (linePieces pa data.length).foldl (fun t p => t.l1Fill who.1 (lineOf p.1)) s else s

/-- A line is taken for a read-modify-write (R147): every store performed on it comes before, and at the home so does what
another agent wrote at the device (R109, R408). -/
def State.rmwLine (s : State) (line : Nat) (home : Bool) : State :=
  let s := s.takeLine none line true
  if home then s.refresh line else s

/-- A piece of a store that every die sees when it is performed: by an engine, an atomic, a front end or a host agent; at
the home when `home`. The L1 copies of the line go with it. DESIGN CHOICE, log entry 11. -/
def State.storeSeen (s : State) (pa : Nat) (data : List Byte) (home : Bool := false) : State :=
  let line := lineOf pa
  (((s.rmwLine line home).overDevice line).commit pa data).dropL1 line

/-- A store of an engine, a front end or a host agent (R161). -/
def State.engineStore (s : State) (pa : Nat) (data : List Byte) (home : Bool := false) : State :=
  (linePieces pa data.length).foldl (fun t p => t.storeSeen p.1 ((data.drop (p.1 - pa)).take p.2) home) s

/-- The leases that have run out are dropped; each keeps the term it was granted for (R112, R114). -/
def State.expireLeases (s : State) : State :=
  { s with coh := { s.coh with l1 := s.coh.l1.filter (fun c => decide (s.clk < c.clk)) } }

/-- R113: every lease of a core ages. -/
def State.ageLeases (s : State) (core : Nat) : State :=
  { s with coh := { s.coh with l1 := s.coh.l1.filter (fun c => c.core != core) } }

/-- A piece of a load, inside one line, under a policy (R109, R116). -/
def State.loadLine (s : State) (core : Nat) (pol : Pol) (pa n : Nat) : List Byte × State :=
  let line := lineOf pa
  let die := some (dieOf core)
  let cut (d : List Byte) := (d.drop (pa - 128 * line)).take n
  match pol with
  | .l1 =>
    let s := s.expireLeases
    match s.coh.l1.find? (fun c => c.core == core && c.line == line) with
    | some c => (cut c.data, s.seeLine die line)
    | none =>
      let s := s.takeLine die line false
      (bytesAt (s.view die) pa n, s.l1Fill core line)
  | .ro =>
    match s.coh.ro.find? (fun c => c.core == core && c.line == line) with
    | some c => (cut c.data, s)
    | none =>
      let s := s.takeLine die line false
      let d := bytesAt (s.view die) (128 * line) 128
      (cut d, { s with coh := { s.coh with ro := { core := core, line := line, data := d, clk := s.clk } :: s.coh.ro } })
  | .l2 | .str | .sys =>
    let s := (s.takeLine die line false).dropOwn core line
    let s := if pol == .sys then s.refresh line else s
    (bytesAt (s.view die) pa n, s)

/-- A load of bytes by a core (R109). -/
def State.loadPhys (s : State) (core : Nat) (pol : Pol) (pa n : Nat) : List Byte × State :=
  (linePieces pa n).foldl (fun acc p =>
    let (d, t) := acc.2.loadLine core pol p.1 p.2
    (acc.1 ++ d, t)) ([], s)

/-- A read by an engine at the die L2 of the core that issued it, or at the home for a front end and under `home` (R109,
R161). The core's own L1 gives the lines up, so that no later load of it returns what stood there before (R158, R159). -/
def State.engineLoad (s : State) (core : Option Nat) (pa n : Nat) (home : Bool := false) : List Byte × State :=
  let die := core.map dieOf
  let s := (linePieces pa n).foldl (fun (t : State) p =>
    let t := t.takeLine die (lineOf p.1) false
    let t := match core with
      | some c => t.dropOwn c (lineOf p.1)
      | none => t
    if home || core.isNone then t.refresh (lineOf p.1) else t) s
  (bytesAt (s.view die) pa n, s)

/-! Translation (R107, R384 to R386). -/

/-- The outcomes of a walk (R386). -/
inductive Walk where
  | page (p : Page)
  | service
  | fail
  deriving DecidableEq, Repr

/-- R107: bits [63:56] equal bit 55. -/
def canonical (va : Dword) : Bool :=
  let t := va.toNat / 2 ^ 55
  t == 0 || t == 2 ^ 9 - 1

/-- R402 against a leaf's MTYPE (R386): the class a physical leaf's target has to have; no leaf maps the
firmware region at the top of a die's stack (R404). -/
def State.targetOk (s : State) (mtype target size : Nat) : Bool :=
  match mtype, pclass target with
  | 0, .bed n => s.diemask.getLsbD n && target % 0x20_0000_0000 + size ≤ Config.bedBytes - s.boot.fwres
  | 1, .stock _ => true
  | 2, .host => true
  | 6, .bar => true
  | 6, .dev _ => true
  | _, _ => false

/-- R385, R386: one leaf entry. -/
def State.leaf (s : State) (e : Dword) (log2 : Nat) : Walk :=
  let t := e.toNat % 2 ^ 52 / 2 ^ 16 * 2 ^ 16
  let mt := (e.extractLsb' 8 3).toNat
  let aligned := t % 2 ^ log2 == 0
  let ok :=
    if mt == 3 then e.getLsbD 51 == false && (e.extractLsb' 28 23).toNat * 2 ^ 16 % 2 ^ log2 == 0
    else if mt == 4 || mt == 5 then e.extractLsb' 42 10 == 0
    else if mt == 7 then true
    else aligned && s.targetOk mt t 0
  if e.extractLsb' 52 12 == 0 && e.extractLsb' 11 5 == 0 && !e.getLsbD 7 && ok then
    .page { mtype := mt, target := t, log2 := log2, p := e.getLsbD 6, x := e.getLsbD 5, w := e.getLsbD 4, r := e.getLsbD 3 }
  else .fail

/-- R384: the levels below a table: index position, width, and the leaf size where a leaf is allowed. -/
def walkLevels : List (Nat × Nat × Option Nat) :=
  [(48, 8, none), (39, 9, none), (30, 9, some 30), (21, 9, some 21), (16, 5, some 16)]

/-- R402: a table lies in memory of the part's map; a walker reads entries of no register or device (R386). DESIGN CHOICE, log entry 18. -/
def State.tableAt (s : State) (base : Nat) : Bool :=
  match pclass base with
  | .bed n => s.diemask.getLsbD n
  | .stock _ | .host => true
  | .bar | .dev _ | .outside => false

/-- The walk through a table at `base`. -/
def State.walkGo (s : State) (read : Nat → Dword) (va : Nat) : List (Nat × Nat × Option Nat) → Nat → Walk
  | [], _ => .fail
  | (lo, w, lf) :: rest, base =>
    let e := read (base + 8 * (va / 2 ^ lo % 2 ^ w))
    if !s.tableAt base then .fail
    else if !e.getLsbD 0 then (if e.getLsbD 2 then .service else .fail)
    else if e.getLsbD 1 then
      match lf with
      | some k => s.leaf e k
      | none => .fail
    else
      let next := e.toNat % 2 ^ 52 / 2 ^ 8 * 2 ^ 8
      let size := match rest with
        | (_, w', _) :: _ => 8 * 2 ^ w'
        | [] => 1
      if e.extractLsb' 52 12 == 0 && e.extractLsb' 2 6 == 0 && next % size == 0 && !rest.isEmpty then
        s.walkGo read va rest next
      else .fail

/-- Who translates: the core whose TLB serves it, the die at whose L2 its walker reads, the context and the base of
its tables (R384, R386). -/
structure Walker where
  core : Option Nat
  die  : Option Nat
  ctx  : Nat
  root : Nat
  deriving DecidableEq, Repr

/-- A front end walks for a context, without a TLB. -/
def Ctx.walker (c : Ctx) : Walker := { core := none, die := none, ctx := c.id, root := c.desc.root }

/-- An engine outside the cores walks at a die. -/
def Ctx.walkerAt (c : Ctx) (die : Option Nat) : Walker := { c.walker with die := die }

/-- The L0 table of a context (R384). -/
def State.rootOf (s : State) (n : Nat) : Nat := ((s.ctx n).map (fun c => c.desc.root)).getD 0

/-- A core walks for a context, through its TLB and the walkers of its die. -/
def State.walkerOf (s : State) (core ctx : Nat) : Walker :=
  { core := some core, die := some (dieOf core), ctx := ctx, root := s.rootOf ctx }

/-- An entry as a walker reads it (R386): an `.l2` load, for which stashes and flips give the line up. -/
def State.entryAt (s : State) (die : Option Nat) (a : Nat) : Dword := dwordAt ((s.takeLine die (lineOf a) false).view die) a

/-- R384, R386: the walk of an address through a context's tables, read at the die L2 of the walker. -/
def State.walkTables (s : State) (w : Walker) (va : Dword) : Walk :=
  if canonical va then s.walkGo (s.entryAt w.die) (va.toNat % 2 ^ 56) walkLevels w.root else .fail

/-- The leaf that a core's TLB holds for an address of a context (R386). -/
def State.tlbHit (s : State) (w : Walker) (va : Dword) : Option Page :=
  (s.coh.tlb.find? (fun x => some x.core == w.core && x.ctx == w.ctx &&
    x.va.toNat / 2 ^ x.page.log2 == va.toNat / 2 ^ x.page.log2)).map (·.page)

/-- R386: an address translates through the TLB's entry where it has one, else through the tables.
DESIGN CHOICE, log entry 18. -/
def State.walk (s : State) (w : Walker) (va : Dword) : Walk :=
  match s.tlbHit w va with
  | some p => .page p
  | none => s.walkTables w va

/-- What the loads of a walk's entries do to their lines (R122, R386, R405, R406). -/
def State.walkLoads (s : State) (die : Option Nat) (va : Nat) : List (Nat × Nat × Option Nat) → Nat → State
  | [], _ => s
  | (lo, w, _) :: rest, base =>
    if s.tableAt base then
      let a := base + 8 * (va / 2 ^ lo % 2 ^ w)
      let t := s.takeLine die (lineOf a) false
      let e := dwordAt (t.view die) a
      if e.getLsbD 0 && !e.getLsbD 1 then t.walkLoads die va rest (e.toNat % 2 ^ 52 / 2 ^ 8 * 2 ^ 8) else t
    else s

/-- The walks of an access of n bytes, one for each 64 KiB unit that no TLB entry maps (R386). -/
def State.walked (s : State) (w : Walker) (va : Dword) (n : Nat) : State :=
  (cutAt 0x10000 (n / 0x10000 + 2) va.toNat n).foldl (fun (t : State) p =>
    let a : Dword := BitVec.ofNat 64 p.1
    if (t.tlbHit w a).isSome || !canonical a then t else t.walkLoads w.die (a.toNat % 2 ^ 56) walkLevels w.root) s

/-- The walks of several ranges. -/
def State.walkedAll (s : State) (w : Walker) (l : List (Dword × Nat)) : State := l.foldl (fun t r => t.walked w r.1 r.2) s

/-- A core's TLB takes the leaf that maps an address, as the tables now stand (R386). -/
def State.tlbFill (s : State) (core ctx : Nat) (va : Dword) : State :=
  let w := s.walkerOf core ctx
  let s := s.walked w va 1
  match s.tlbHit w va, s.walkTables w va with
  | none, .page p =>
    if (s.ctx ctx).isSome then { s with coh := { s.coh with tlb := { core := core, ctx := ctx, va := va, page := p } :: s.coh.tlb } }
    else s
  | _, _ => s

/-- The TLB entries that satisfy a test are dropped. -/
def State.tlbDrop (s : State) (p : TlbEnt → Bool) : State :=
  { s with coh := { s.coh with tlb := s.coh.tlb.filter (fun x => !p x) } }

/-- The place of the byte at `va` in a page (R132, R385). -/
def Page.loc (p : Page) (va : Dword) : Loc :=
  let off := va.toNat % 2 ^ p.log2
  match p.mtype with
  | 0 | 1 | 2 => .mem (p.target + off)
  | 3 => .peer (BitVec.ofNat 12 (p.target / 2 ^ 16)) (p.target / 2 ^ 28 % 2 ^ 23 * 2 ^ 16 + off)
  | 4 | 5 => .win (p.mtype == 5) (p.target / 2 ^ 16 % 2 ^ 10) (p.target / 2 ^ 26 % 2 ^ 16 * 2 ^ p.log2 + off)
  | 6 => .mmio (p.target + off)
  | _ => .nowhere

/-- A piece of an access: its virtual address and length, and the walk's outcome. -/
structure Piece where
  va  : Dword
  len : Nat
  wk  : Walk
  deriving DecidableEq, Repr

/-- R402: the bytes of a piece lie in the range its MTYPE names; another address fails in the walk. The boot region cannot
be written through any page: DESIGN CHOICE, log entry 73. -/
def State.inRange (s : State) (va : Dword) (len : Nat) (w : Walk) : Walk :=
  match w with
  | .page p =>
    let pa := p.target + va.toNat % 2 ^ p.log2
    if p.mtype < 3 || p.mtype == 6 then
      (if !s.targetOk p.mtype pa len then .fail
        else if p.mtype == 1 && s.inRegion pa len then .page { p with w := false } else w)
    else w
  | _ => w

/-- The pieces of an access, cut at 64 KiB units. -/
def State.pieces (s : State) (w : Walker) (va : Dword) (n : Nat) : List Piece :=
  (cutAt 0x10000 (n / 0x10000 + 2) va.toNat n).map (fun p =>
    { va := BitVec.ofNat 64 p.1, len := p.2
      wk := s.inRange (BitVec.ofNat 64 p.1) p.2 (s.walk w (BitVec.ofNat 64 p.1)) })

/-- The pages of the pieces. -/
def pagesOf (l : List Piece) : List Page :=
  l.filterMap (fun p => match p.wk with | .page g => some g | _ => none)

/-- The places of the pieces. -/
def locsOf (l : List Piece) : List (Loc × Nat) :=
  l.filterMap (fun p => match p.wk with | .page g => some (g.loc p.va, p.len) | _ => none)

/-- Why an access does not go on: a trap with its detail, or a serviced fault at an address (R36, R236). -/
inductive Stop where
  | trap (t : Trap) (detail : Dword)
  | service (va : Dword) (op : Option Nat)
  deriving DecidableEq, Repr

/-- What an access asks of its pages, in the order of R236: the class, the permission, the window right, its own
conditions. -/
structure Ask where
  allow : Page → Option Trap
  perm  : Page → Bool
  own   : List Page → Option Trap

/-- The first result of a list of checks. -/
def firstSome {α : Type} : List (Option α) → Option α
  | [] => none
  | some x :: _ => some x
  | none :: r => firstSome r

/-- Two pages of different MTYPE, or of two operators (R245). -/
def pagesAlike : List Page → Bool
  | [] => true
  | p :: r => r.all (fun q => q.mtype == p.mtype &&
      (p.mtype != 4 && p.mtype != 5 || q.target / 2 ^ 16 % 2 ^ 10 == p.target / 2 ^ 16 % 2 ^ 10))

/-- R236, steps 1 to 4 and 6, on one access. `right` is step 5. -/
def State.checkAccess (s : State) (w : Walker) (va : Dword) (n : Nat) (ask : Ask)
    (right : List (Loc × Nat) → Option Stop) : Except Stop (List (Loc × Nat)) :=
  let ps := s.pieces w va n
  let pages := pagesOf ps
  let locs := locsOf ps
  let st1 := firstSome (ps.map (fun p => match p.wk with
    | .fail => some (Stop.trap .translation va)
    | .service => some (Stop.service p.va none)
    | .page _ => none))
  let st2 := if pages.any (fun p => p.mtype == 7) then some (Stop.trap .protection va) else none
  let st3 := (firstSome (pages.map ask.allow)).map (fun t => Stop.trap t va)
  let st4 := firstSome (pages.map (fun p =>
    if ask.perm p then none
    else some (Stop.trap (if p.mtype == 4 || p.mtype == 5 then .window else .protection) va)))
  let st5 := right locs
  let st6 := (ask.own pages).map (fun t => Stop.trap t va)
  match firstSome [st1, st2, st3, st4, st5, st6] with
  | some e => .error e
  | none => .ok locs

/-! Requests to peers (R166, R394). -/

/-- The entry of the plane map that the line of a peer address names: PA[11:6] of the line's address (R3, R166). -/
def planeEntry (pa : Nat) : Nat := 128 * lineOf pa / 64 % 64

/-- The plane that it names there (R166). -/
def State.planeOf (s : State) (pa : Nat) : Nat := ((s.fabric.planes[planeEntry pa]?).map (·.1)).getD 0

/-- The entry of the plane map that a request goes by. -/
def PeerOut.entry (x : PeerOut) : Nat := planeEntry x.addr.toNat

/-- A request has to wait at this device: its stream is frozen or waits already (R394), a request to its line waits, its
plane is dead, or its entry has been remapped while earlier requests are outstanding by the old plane (R166). -/
def State.mustHold (s : State) (x : PeerOut) : Bool :=
  s.fabric.frozen.contains x.key ||
  s.fabric.held.any (fun h => h.x.key == x.key || (h.x.dev == x.dev && lineOf h.x.addr.toNat == lineOf x.addr.toNat)) ||
  s.fabric.dead.contains x.plane || s.fabric.outst.any (fun y => y.entry == x.entry && y.plane != x.plane)

/-- A request leaves. -/
def State.sendOut (s : State) (h : HeldOut) : State :=
  { s with
    out := s.out ++ [OutMsg.peerReq h.x.key h.x.plane h.x.dev h.x.addr.toNat h.kind]
    fabric := { s.fabric with outst := s.fabric.outst ++ [h.x] } }

/-- The part of a request's bytes from `off` on, n of them: a request goes by the plane of each line it reaches (R166). -/
def peerPart (k : PeerKind) (off n : Nat) : PeerKind :=
  match k with
  | .read _ => .read n
  | .write d => .write ((d.drop off).take n)
  | .xfer d c => .xfer ((d.drop off).take n) c
  | k => k

/-- The bytes that a request reaches. -/
def peerSize : PeerKind → Nat
  | .read n => n
  | .write d | .xfer d _ => d.length
  | .atomic _ wide _ _ => if wide then 8 else 4
  | .exact _ => 32
  | .window (.store _ d) => d.length
  | .window (.load _ n) => n
  | .window _ => 1

/-- A request of this device to a peer, made for an operation or a thread, one for each line: it leaves, or waits its turn.
DESIGN CHOICE, log entry 53. -/
def State.sendPeer (s : State) (key : StreamId) (dev : BitVec 12) (pa : Nat) (k : PeerKind) (op : Option Nat)
    (thr : Option (Nat × Nat × Nat)) : State :=
  (linePieces pa (peerSize k)).foldl (fun (t : State) p =>
    let x : PeerOut := { key := key, dev := dev, plane := t.planeOf p.1, op := op, thr := thr, addr := BitVec.ofNat 64 p.1, len := p.2 }
    let h : HeldOut := { kind := peerPart k (p.1 - pa) p.2, x := x }
    if t.mustHold x then { t with fabric := { t.fabric with held := t.fabric.held ++ [h] } } else t.sendOut h) s

/-- The requests that waited leave, in order, as far as they may. -/
def State.flushHeld (s : State) : State :=
  s.fabric.held.foldl (fun (t : State) h =>
    let x := { h.x with plane := t.planeOf h.x.addr.toNat }
    let h := { h with x := x }
    if t.mustHold x then { t with fabric := { t.fabric with held := t.fabric.held ++ [h] } } else t.sendOut h)
    { s with fabric := { s.fabric with held := [] } }

/-- The stream of requests that no spindle and no transfer makes. -/
def partStream (ctx : Nat) : StreamId := ⟨0x100, ctx, 0⟩

/-- The bytes that physical pieces hold, read by an engine of a core or by a front end. -/
def State.readLocs (s : State) (core : Option Nat) : List (Loc × Nat) → List Byte × State
  | [] => ([], s)
  | (l, n) :: r =>
    let (d, t) := match l with
      | .mem pa => s.engineLoad core pa n
      | .peer dev pa => ((List.range n).map (fun i => Config.deviceByte s.freeCtr (pa + i)),
          { s with freeCtr := s.freeCtr + 1 }.sendPeer (partStream 0) dev pa (.read n) none none)
      | .mmio pa => ((List.range n).map (fun i => Config.deviceByte s.freeCtr (pa + i)), { s with freeCtr := s.freeCtr + 1 })
      | _ => (List.replicate n 0, s)
    let (d2, u) := t.readLocs core r
    (d ++ d2, u)

/-- Bytes written to pieces by an engine, for an operation, or at the home by a front end. -/
def State.writeLocs (s : State) (stream : StreamId) (op : Option Nat) : List (Loc × Nat) → List Byte → State
  | [], _ => s
  | (l, n) :: r, data =>
    let t := match l with
      | .mem pa => s.engineStore pa (data.take n) op.isNone
      | .peer dev pa => s.sendPeer stream dev pa (.write (data.take n)) op none
      | _ => s
    t.writeLocs stream op r (data.drop n)

/-- Pages an engine or front end reads: bed, stock, host or peer with R. -/
def askRead : Ask :=
  { allow := fun p => if p.mtype < 4 then none else some (if p.mtype == 6 then .protection else .window)
    perm := fun p => p.r
    own := fun _ => none }

/-- Pages an engine or front end writes. -/
def askWrite : Ask := { askRead with perm := fun p => p.w }

/-- The first uncorrectable line of an access (R399, R408). -/
def State.badLocs (s : State) (locs : List (Loc × Nat)) : Option Nat :=
  firstSome (locs.map (fun x => match x.1 with | .mem pa => s.badIn pa x.2 | _ => none))

/-- The first line of a store's places that a link gone down cuts off (R408). -/
def State.downLocs (s : State) (locs : List (Loc × Nat)) : Option Nat :=
  firstSome (locs.map (fun x => match x.1 with | .mem pa => s.downIn pa x.2 | _ => none))

/-- A read of a context's virtual memory by a front end or an engine. One that meets an uncorrectable line or a link that
is down fails. DESIGN CHOICE, log entry 75. -/
def State.readVirt (s : State) (core : Option Nat) (c : Ctx) (va : Dword) (n : Nat) : Except Stop (List Byte × State) :=
  let s := s.walked (c.walkerAt (core.map dieOf)) va n
  match s.checkAccess (c.walkerAt (core.map dieOf)) va n askRead (fun _ => none) with
  | .error e => .error e
  | .ok locs =>
    match s.badLocs locs with
    | some l => .error (.trap .uncorrectable (BitVec.ofNat 64 (128 * l)))
    | none => .ok (s.readLocs core locs)

/-- A write of a context's virtual memory by a front end; one that meets a link that is down fails.
DESIGN CHOICE, log entry 75. -/
def State.writeVirt (s : State) (c : Ctx) (va : Dword) (data : List Byte) : Except Stop State :=
  let s := s.walked c.walker va data.length
  match s.checkAccess c.walker va data.length askWrite (fun _ => none) with
  | .error e => .error e
  | .ok locs =>
    match s.downLocs locs with
    | some l => .error (.trap .uncorrectable (BitVec.ofNat 64 (128 * l)))
    | none => .ok (s.writeLocs (partStream c.id) none locs data)

end Sys2Proof.Machine
end

