-- ==== Sys2Proof/Machine/Num.lean ====
section
/-! DEFINITION. Num.lean: the number formats (R71 to R76), exact values, and rounding (R85 to R87, R94, R95). -/

namespace Sys2Proof.Machine

/-- Exceptions and saturation of one operation (R76, R96): bit 0 invalid, 1 division by zero, 2 overflow,
3 underflow, 4 inexact, 5 saturating conversion. -/
abbrev Exc := BitVec 6

namespace Exc
def invalid : Exc := 0x01
def divZero : Exc := 0x02
def overflow : Exc := 0x04
def underflow : Exc := 0x08
def inexact : Exc := 0x10
def sat : Exc := 0x20
/-- The exception when the flag holds. -/
def when (b : Bool) (x : Exc) : Exc := if b then x else 0
end Exc

/-- A binary floating-point format (R72). -/
structure FFmt where
  fbits : Nat
  ebits : Nat
  bias  : Nat
  e4m3  : Bool
  deriving DecidableEq, Repr

namespace FFmt
def f64 : FFmt := ⟨52, 11, 1023, false⟩
def f32 : FFmt := ⟨23, 8, 127, false⟩
def f16 : FFmt := ⟨10, 5, 15, false⟩
def bf16 : FFmt := ⟨7, 8, 127, false⟩
def e5m2 : FFmt := ⟨2, 5, 15, false⟩
def e4m3f : FFmt := ⟨3, 4, 7, true⟩
end FFmt

end Sys2Proof.Machine

namespace Sys2Proof

/-- RND as a rounding mode (R94). -/
def Rnd.mode : Rnd → RMode
  | .rn => .rne
  | .rz => .rz
  | .ru => .ru
  | .rd => .rd

/-- The floating format of a conversion code (R189). -/
def CFmt.float : CFmt → Option Machine.FFmt
  | .f64 => some Machine.FFmt.f64
  | .f32 => some Machine.FFmt.f32
  | .f16 => some Machine.FFmt.f16
  | .bf16 => some Machine.FFmt.bf16
  | .e4m3 => some Machine.FFmt.e4m3f
  | .e5m2 => some Machine.FFmt.e5m2
  | _ => none

def CFmt.isSigned : CFmt → Bool
  | .int8 | .int16 | .int32 | .int64 => true
  | _ => false

/-- The value of an integer format's low bits (R71). -/
def CFmt.intValue (f : CFmt) (x : Nat) : Int :=
  let n := f.width
  let y := x % 2 ^ n
  if f.isSigned && 2 ^ (n - 1) ≤ y then (y : Int) - 2 ^ n else y

/-- R229: the clamp of an exact integer into an integer format, and whether it clamped. -/
def CFmt.clamp (f : CFmt) (v : Int) : Int × Bool :=
  let n := f.width
  let lo : Int := if f.isSigned then -(2 ^ (n - 1)) else 0
  let hi : Int := if f.isSigned then 2 ^ (n - 1) - 1 else 2 ^ n - 1
  if v < lo then (lo, true) else if hi < v then (hi, true) else (v, false)

end Sys2Proof

namespace Sys2Proof.Machine

/-- A datum: (−1)^neg × m × 2^e, an infinity, or a NaN with its fraction field (R72). -/
inductive FVal where
  | fin (neg : Bool) (m : Nat) (e : Int)
  | inf (neg : Bool)
  | nan (neg : Bool) (frac : Nat)
  deriving DecidableEq, Repr

namespace FFmt

/-- The exponent of the subnormal spacing. -/
def qmin (F : FFmt) : Int := 1 - (F.bias : Int) - F.fbits

/-- The sign bit as a number. -/
def signBit (F : FFmt) (neg : Bool) : Nat := if neg then 2 ^ (F.fbits + F.ebits) else 0

/-- The magnitude bits of infinity (of no E4M3 use). -/
def infBits (F : FFmt) : Nat := (2 ^ F.ebits - 1) * 2 ^ F.fbits

/-- The magnitude bits of the largest finite value (R72). -/
def maxBits (F : FFmt) : Nat := if F.e4m3 then 0x7E else F.infBits - 1

/-- The canonical NaN (R73). -/
def canon (F : FFmt) : Nat := if F.e4m3 then 0x7F else F.infBits + 2 ^ (F.fbits - 1)

/-- R72: the value of a bit pattern. -/
def decode (F : FFmt) (x : Nat) : FVal :=
  let frac := x % 2 ^ F.fbits
  let ex := x / 2 ^ F.fbits % 2 ^ F.ebits
  let neg := x / 2 ^ (F.fbits + F.ebits) % 2 == 1
  if F.e4m3 && ex == 15 && frac == 7 then .nan neg 0
  else if !F.e4m3 && ex == 2 ^ F.ebits - 1 then (if frac == 0 then .inf neg else .nan neg frac)
  else if ex == 0 then .fin neg frac F.qmin
  else .fin neg (2 ^ F.fbits + frac) (F.qmin + (ex - 1))

/-- A subnormal read as zero of its sign (R95). -/
def flush (F : FFmt) (v : FVal) : FVal :=
  match v with
  | .fin n m e => if e == F.qmin && m < 2 ^ F.fbits then .fin n 0 e else v
  | _ => v

/-- An operand as the operation reads it (R72, R95). -/
def read (F : FFmt) (ftz : Bool) (x : Nat) : FVal := if ftz then F.flush (F.decode x) else F.decode x

/-- A signalling NaN (R72); E4M3 has none. -/
def isSnan (F : FFmt) (v : FVal) : Bool :=
  match v with
  | .nan _ f => !F.e4m3 && f < 2 ^ (F.fbits - 1)
  | _ => false

/-- R73: a NaN of format `F` given in format `G`: quieted, its payload's high bits kept. -/
def nanTo (F G : FFmt) (neg : Bool) (frac : Nat) : Nat :=
  if G.e4m3 then G.signBit neg + 0x7F
  else
    let p := if F.e4m3 then 0 else frac * 2 ^ G.fbits / 2 ^ F.fbits
    G.signBit neg + G.infBits + (p ||| 2 ^ (G.fbits - 1))

/-- R73: the first NaN among the operands, quieted. -/
def firstNan (F : FFmt) : List FVal → Option Nat
  | [] => none
  | .nan n f :: _ => some (F.nanTo F n f)
  | _ :: r => F.firstNan r

end FFmt

/-- The multiple of 2^q that a magnitude of m × 2^e, or a little more when `st`, rounds to, and whether that is
inexact (R85, R87: `r` is SR's random word). -/
def roundGrid (mode : RMode) (r : Nat) (neg st : Bool) (m : Nat) (e q : Int) : Nat × Bool :=
  if q ≤ e then (m * 2 ^ (e - q).toNat, st)
  else
    let d := (q - e).toNat
    let k := m / 2 ^ d
    let rem := m % 2 ^ d
    let inx := rem != 0 || st
    let up : Bool := match mode with
      | .rne => 2 ^ (d - 1) < rem || (rem == 2 ^ (d - 1) && (st || k % 2 == 1))
      | .rz => false
      | .ru => inx && !neg
      | .rd => inx && neg
      | .sr => r < rem * 2 ^ 32 / 2 ^ d
    (if up then k + 1 else k, inx)

/-- A rounded value: its bits, whether it overflowed, whether it was tiny after rounding, whether inexact. -/
structure Rounded where
  bits : Nat
  ovf  : Bool
  tiny : Bool
  inx  : Bool
  deriving DecidableEq, Repr

/-- R85 to R87: RoundTo(±(m × 2^e), F, mode). An overflow gives the result of R86, with `nosat` for E4M3. -/
def FFmt.round (F : FFmt) (mode : RMode) (r : Nat) (nosat neg st : Bool) (m : Nat) (e : Int) : Rounded :=
  if m == 0 && !st then ⟨F.signBit neg, false, false, false⟩
  else
    let E := e + (Nat.log2 m : Int)
    let q := max (E - F.fbits) F.qmin
    let (k, inx) := roundGrid mode r neg st m e q
    let (k2, _) := roundGrid mode r neg st m e (E - F.fbits)
    let tiny := E < 1 - (F.bias : Int) && !(E == -(F.bias : Int) && k2 == 2 ^ (F.fbits + 1))
    let bits := (q - F.qmin).toNat * 2 ^ F.fbits + k
    if bits > F.maxBits then
      let big :=
        if F.e4m3 then (if nosat then 0x7F else 0x7E)
        else match mode with
          | .rne => F.infBits
          | .rz | .sr => F.maxBits
          | .ru => if neg then F.maxBits else F.infBits
          | .rd => if neg then F.infBits else F.maxBits
      ⟨F.signBit neg + big, true, false, true⟩
    else ⟨F.signBit neg + bits, false, tiny, inx⟩

/-- The result and exceptions of a V-class operation that rounds (R76, R94, R95, R228). -/
def FFmt.result (F : FFmt) (mode : RMode) (ftz nosat neg st : Bool) (m : Nat) (e : Int) : Nat × Exc :=
  let x := F.round mode 0 nosat neg st m e
  let mag := x.bits % 2 ^ (F.fbits + F.ebits)
  if x.ovf then
    (x.bits, if F.e4m3 && !nosat then Exc.sat else Exc.overflow ||| Exc.inexact)
  else if ftz && mag != 0 && mag < 2 ^ F.fbits then
    (F.signBit neg, Exc.underflow ||| Exc.inexact)
  else
    (x.bits, Exc.when (x.tiny && x.inx) Exc.underflow ||| Exc.when x.inx Exc.inexact)

namespace FVal

def isNan : FVal → Bool
  | .nan _ _ => true
  | _ => false

def neg : FVal → Bool
  | .fin n _ _ | .inf n | .nan n _ => n

def isZero : FVal → Bool
  | .fin _ 0 _ => true
  | _ => false

def isInf : FVal → Bool
  | .inf _ => true
  | _ => false

/-- The same datum with its sign inverted; a NaN keeps its sign (IEEE 754 subtraction). -/
def negate : FVal → FVal
  | .fin n m e => .fin (!n) m e
  | .inf n => .inf (!n)
  | v => v

/-- Signed m of a finite datum at the exponent `q`, which is not above its own. -/
def scaled (neg : Bool) (m : Nat) (e q : Int) : Int :=
  let v : Int := m * 2 ^ (e - q).toNat
  if neg then -v else v

/-- The order of two data that are not NaNs; −0 equals +0 (R222). -/
def order (a b : FVal) : Option Ordering :=
  match a, b with
  | .nan _ _, _ => none
  | _, .nan _ _ => none
  | .inf x, .inf y => some (compare y.toNat x.toNat)
  | .inf x, .fin _ _ _ => some (if x then .lt else .gt)
  | .fin _ _ _, .inf y => some (if y then .gt else .lt)
  | .fin n1 m1 e1, .fin n2 m2 e2 =>
      let q := min e1 e2
      some (compare (scaled n1 m1 e1 q) (scaled n2 m2 e2 q))

end FVal

/-- Invalid when any operand is a signalling NaN. -/
def FFmt.snanExc (F : FFmt) (l : List FVal) : Exc := Exc.when (l.any F.isSnan) Exc.invalid

/-- The rounded sum of two data that are not NaNs (R218, R219). -/
def FFmt.sum (F : FFmt) (mode : RMode) (ftz : Bool) (a b : FVal) : Nat × Exc :=
  match a, b with
  | .inf x, .inf y => if x == y then (F.signBit x + F.infBits, 0) else (F.canon, Exc.invalid)
  | .inf x, _ => (F.signBit x + F.infBits, 0)
  | _, .inf y => (F.signBit y + F.infBits, 0)
  | .fin n1 m1 e1, .fin n2 m2 e2 =>
      let q := min e1 e2
      let t := FVal.scaled n1 m1 e1 q + FVal.scaled n2 m2 e2 q
      if t == 0 then (F.signBit (if n1 == n2 then n1 else mode == .rd), 0)
      else F.result mode ftz false (decide (t < 0)) false t.natAbs q
  | _, _ => (F.canon, 0)

/-- The exact product of two data that are not NaNs; none for 0 × ∞. -/
def FVal.mul (a b : FVal) : Option FVal :=
  match a, b with
  | .fin n1 m1 e1, .fin n2 m2 e2 => some (.fin (n1 != n2) (m1 * m2) (e1 + e2))
  | .inf _, .fin _ 0 _ => none
  | .fin _ 0 _, .inf _ => none
  | a, b => some (.inf (a.neg != b.neg))

/-- `fadd`, and `fsub` when `sub` (R219). -/
def FFmt.add (F : FFmt) (mode : RMode) (ftz sub : Bool) (x y : Nat) : Nat × Exc :=
  let a := F.read ftz x
  let b := F.read ftz y
  match F.firstNan [a, b] with
  | some n => (n, F.snanExc [a, b])
  | none => F.sum mode ftz a (if sub then b.negate else b)

/-- `fmul` (R219). -/
def FFmt.mul (F : FFmt) (mode : RMode) (ftz : Bool) (x y : Nat) : Nat × Exc :=
  let a := F.read ftz x
  let b := F.read ftz y
  match F.firstNan [a, b] with
  | some n => (n, F.snanExc [a, b])
  | none =>
    match FVal.mul a b with
    | none => (F.canon, Exc.invalid)
    | some (.fin n m e) => F.result mode ftz false n false m e
    | some v => (F.signBit v.neg + F.infBits, 0)

/-- `ffma` (R219): 0 × ∞ raises invalid, also where c is a NaN. -/
def FFmt.fma (F : FFmt) (mode : RMode) (ftz : Bool) (x y z : Nat) : Nat × Exc :=
  let a := F.read ftz x
  let b := F.read ftz y
  let c := F.read ftz z
  let bad := !a.isNan && !b.isNan && (FVal.mul a b).isNone
  match F.firstNan [a, b, c] with
  | some n => (n, F.snanExc [a, b, c] ||| Exc.when bad Exc.invalid)
  | none =>
    match FVal.mul a b with
    | none => (F.canon, Exc.invalid)
    | some p => F.sum mode ftz p c

/-- The operand bits with a subnormal flushed under `.ftz`, for operations that return an operand (R95). -/
def FFmt.ftzBits (F : FFmt) (ftz : Bool) (x : Nat) : Nat :=
  let y := x % 2 ^ (F.fbits + F.ebits)
  if ftz && y < 2 ^ F.fbits then x - y else x

/-- a orders below b, with −0 below +0 (R220). -/
def FVal.below (a b : FVal) : Bool :=
  match FVal.order a b with
  | some .lt => true
  | some .eq => a.neg && !b.neg
  | _ => false

/-- `fmin`, `fmax`, `fminn`, `fmaxn` (R220): `mx` takes the maximum, `num` prefers a number to a NaN. -/
def FFmt.minmax (F : FFmt) (mx num ftz : Bool) (x y : Nat) : Nat × Exc :=
  let a := F.read ftz x
  let b := F.read ftz y
  let exc := F.snanExc [a, b]
  let r :=
    match F.firstNan [a, b] with
    | some n =>
      if num && !a.isNan then F.ftzBits ftz x
      else if num && !b.isNan then F.ftzBits ftz y
      else n
    | none =>
      if (if mx then FVal.below a b else FVal.below b a) then F.ftzBits ftz y else F.ftzBits ftz x
  (r, exc)

/-- `fcmp` (R222): the condition and the exceptions. -/
def FFmt.cmp (F : FFmt) (c : FCond) (ftz : Bool) (x y : Nat) : Bool × Exc :=
  let a := F.read ftz x
  let b := F.read ftz y
  let o := FVal.order a b
  let un := o.isNone
  let lt := o == some .lt
  let eq := o == some .eq
  let gt := o == some .gt
  let quiet := F.snanExc [a, b]
  let any := Exc.when un Exc.invalid
  match c with
  | .eq => (eq, quiet)
  | .ne => (lt || gt, quiet)
  | .lt => (lt, any)
  | .le => (lt || eq, any)
  | .gt => (gt, any)
  | .ge => (gt || eq, any)
  | .equ => (un || eq, quiet)
  | .neu => (un || lt || gt, quiet)
  | .ltu => (un || lt, quiet)
  | .leu => (un || lt || eq, quiet)
  | .gtu => (un || gt, quiet)
  | .geu => (un || gt || eq, quiet)
  | .num => (!un, quiet)
  | .nan => (un, quiet)

/-- `fclass` (R223): the class bit's number. -/
def FFmt.classOf (F : FFmt) (x : Nat) : Nat :=
  match F.decode x with
  | .nan n f => if F.isSnan (.nan n f) then 8 else 9
  | .inf n => if n then 0 else 7
  | .fin n m e =>
    if m == 0 then (if n then 3 else 4)
    else if e == F.qmin && m < 2 ^ F.fbits then (if n then 2 else 5)
    else (if n then 1 else 6)

/-- `fround` (R224). -/
def FFmt.roundInt (F : FFmt) (mode : RMode) (ftz : Bool) (x : Nat) : Nat × Exc :=
  match F.read ftz x with
  | .nan n f => (F.nanTo F n f, F.snanExc [.nan n f])
  | .inf n => (F.signBit n + F.infBits, 0)
  | .fin n m e =>
    if 0 ≤ e then (F.ftzBits ftz x, 0)
    else
      let k := (roundGrid mode 0 n false m e 0).1
      ((F.round .rne 0 false n false k 0).bits, 0)

/-- `fscale` (R225). The power is cut at ±10,000, beyond which every format has overflowed or vanished. -/
def FFmt.scale (F : FFmt) (mode : RMode) (ftz : Bool) (x : Nat) (k : Int) : Nat × Exc :=
  match F.read ftz x with
  | .nan n f => (F.nanTo F n f, F.snanExc [.nan n f])
  | .inf n => (F.signBit n + F.infBits, 0)
  | .fin n m e =>
    if m == 0 then (F.signBit n, 0)
    else F.result mode ftz false n false m (e + max (-10000) (min k 10000))

/-- `fexpn` (R226). -/
def FFmt.expn (F : FFmt) (ftz : Bool) (x : Nat) : Word × Exc :=
  match F.read ftz x with
  | .nan _ _ => (0x80000000, Exc.invalid)
  | .inf _ => (0x7FFFFFFF, Exc.invalid)
  | .fin _ m e =>
    if m == 0 then (0x80000000, Exc.invalid)
    else (BitVec.ofInt 32 (e + (Nat.log2 m : Int)), 0)

/-- `fmant` (R226). -/
def FFmt.mant (F : FFmt) (ftz : Bool) (x : Nat) : Nat × Exc :=
  match F.read ftz x with
  | .nan n f => (F.nanTo F n f, F.snanExc [.nan n f])
  | .inf n => (F.signBit n + F.infBits, 0)
  | .fin n m _ =>
    if m == 0 then (F.signBit n, 0)
    else ((F.round .rne 0 false n false m (-(Nat.log2 m : Int))).bits, 0)

/-- The bits of an integer in a format of n bits. -/
def intBits (n : Nat) (v : Int) : Nat := (v % (2 ^ n : Int)).toNat

/-- R228, R229: one conversion. The result stands in the destination's width. -/
def convert (m : CMod) (x : Nat) : Nat × Exc :=
  match m.src.float, m.dst.float with
  | some F, some G =>
    match F.read m.ftz (x % 2 ^ (1 + F.fbits + F.ebits)) with
    | .nan n f => (F.nanTo G n f, F.snanExc [.nan n f])
    | .inf n =>
      if G.e4m3 then
        (if m.nosat then (G.signBit n + 0x7F, Exc.invalid) else (G.signBit n + 0x7E, Exc.sat))
      else (G.signBit n + G.infBits, 0)
    | .fin n k e => G.result m.rnd.mode m.ftz m.nosat n false k e
  | some F, none =>
    match F.read m.ftz (x % 2 ^ (1 + F.fbits + F.ebits)) with
    | .nan _ _ => (0, Exc.invalid ||| Exc.sat)
    | .inf n => (intBits m.dst.width (m.dst.clamp (if n then -(2 ^ 64) else 2 ^ 64)).1, Exc.invalid ||| Exc.sat)
    | .fin n k e =>
      let v := (roundGrid m.rnd.mode 0 n false k e 0).1
      let (w, c) := m.dst.clamp (if n then -(v : Int) else v)
      (intBits m.dst.width w, Exc.when c (Exc.invalid ||| Exc.sat))
  | none, some G =>
    let v := m.src.intValue x
    G.result m.rnd.mode m.ftz m.nosat (decide (v < 0)) false v.natAbs 0
  | none, none =>
    let (w, c) := m.dst.clamp (m.src.intValue x)
    (intBits m.dst.width w, Exc.when c Exc.sat)

/-- The 64-bit stochastic-rounding hash of R87. -/
def srHash (seed : Dword) (row0 col0 : Nat) (idx : Nat) : Nat :=
  let z : Dword := seed ^^^ (BitVec.ofNat 64 (row0 * 2 ^ 48) ||| BitVec.ofNat 64 (col0 * 2 ^ 32) ||| BitVec.ofNat 64 idx)
  let z := z + 0x9E3779B97F4A7C15#64
  let z := (z ^^^ (z >>> 30)) * 0xBF58476D1CE4E5B9#64
  let z := (z ^^^ (z >>> 27)) * 0x94D049BB133111EB#64
  let z := z ^^^ (z >>> 31)
  (z >>> 32).toNat

/-- The integer square root of n by bits: `r` is the root found so far, `k` the number of bits left. -/
def isqrtGo (n : Nat) : Nat → Nat → Nat
  | 0, r => r
  | k + 1, r => if (r + 2 ^ k) * (r + 2 ^ k) ≤ n then isqrtGo n k (r + 2 ^ k) else isqrtGo n k r

/-- floor(sqrt n). -/
def isqrt (n : Nat) : Nat := isqrtGo n (Nat.log2 n / 2 + 1) 0

/-- sqrt(m × 2^e) as a magnitude with at least 600 bits and a sticky bit. -/
def sqrtExact (m : Nat) (e : Int) : Nat × Int × Bool :=
  let sh : Nat := 1200 + (if (e - 1200) % 2 == 0 then 0 else 1)
  let n := m * 2 ^ sh
  let r := isqrt n
  (r, (e - sh) / 2, r * r != n)

/-- (a × 2^ea) / (b × 2^eb) as a magnitude with at least 200 bits and a sticky bit. -/
def divExact (a : Nat) (ea : Int) (b : Nat) (eb : Int) : Nat × Int × Bool :=
  let sh := 200 + Nat.log2 b
  (a * 2 ^ sh / b, ea - eb - sh, a * 2 ^ sh % b != 0)

end Sys2Proof.Machine
end

