-- ==== Sys2Proof/Machine/Ops.lean ====
section
/-! DEFINITION. Ops.lean: the clause in progress, parking, long-latency operations and tokens, the logs, and
taking a trap: the shared operations of the meanings. -/

namespace Sys2Proof.Machine

/-- The outcome of a step or an instruction. -/
abbrev Out := Host.Outcome State Fault Refusal

/-- The clause in progress with its block and spindle. -/
structure Env where
  b  : Block
  sp : Spindle
  r  : Run

/-- The clause in progress, none where no clause runs or no slot executes: then an instruction has no effect
(R200, R236, R240, R288). -/
def State.env (s : State) : Option Env :=
  if s.run.active && !s.run.exec.isEmpty then
    match s.blk s.run.blk with
    | some b =>
      match b.sp s.run.m with
      | some sp => some ⟨b, sp, s.run⟩
      | none => none
    | none => none
  else none

/-- An instruction's effect where slots execute it; elsewhere nothing happens. -/
def State.within (s : State) (f : Env → State) : Out :=
  match s.env with
  | some e => .next (f e)
  | none => .next s

/-- The lowest executing slot. -/
def Env.low (e : Env) : Nat := e.r.exec.headD 0

/-- The executing slots. -/
def Env.slots (e : Env) : List Nat := e.r.exec

/-- The thread of a slot. -/
def Env.thr (e : Env) (k : Nat) : Option Thread := e.sp.threads[k]?

/-- The die of the core (R11). -/
def Env.die (e : Env) : Option Nat := some (dieOf e.b.core)

/-- How the core translates for the block (R386). -/
def Env.walker (e : Env) (s : State) : Walker := s.walkerOf e.b.core e.b.ctx

/-- A fresh number. -/
def State.fresh (s : State) : Nat × State := (s.nextId, { s with nextId := s.nextId + 1 })

/-- A fresh unpredictable word (R5). -/
def State.free (s : State) : Dword × State := (Config.freeWord s.freeCtr, { s with freeCtr := s.freeCtr + 1 })

/-! Slots that do not run. -/

/-- A slot without a running thread: at or above E0, or EXITED (R18). -/
def Spindle.gone (sp : Spindle) (k : Nat) : Bool :=
  match sp.threads[k]? with
  | some t => t.st == .exited
  | none => true

/-- R53: every slot that is not EXITED executes. -/
def Env.full (e : Env) : Bool := (List.range 32).all (fun k => e.sp.gone k || e.r.exec.contains k)

/-! The arithmetic and error logs (R393). -/

/-- The 32 bytes of a log record. -/
def logBytes (detail seq pc : Dword) (cause spid core slot : Nat) (eng : Bool) : List Byte :=
  leBytes 8 ((if eng then 1 else 0) + slot * 2 ^ 8 + core * 2 ^ 16 + spid * 2 ^ 24 + cause * 2 ^ 56) ++
  leBytes 8 pc.toNat ++ leBytes 8 seq.toNat ++ leBytes 8 detail.toNat

/-- One record appended to a ring at `base` that holds `size` records, of which `k` were produced: the record,
then PRODUCED as a release at `.sys`. -/
def State.appendRing (s : State) (c : Ctx) (base : Dword) (size k : Nat) (rec : List Byte) : Except Stop State :=
  match s.writeVirt c (base + 64 + BitVec.ofNat 64 (32 * (k % size))) rec with
  | .error e => .error e
  | .ok t => t.writeVirt c base (leBytes 8 (k + 1))

/-- A record for a context's arithmetic log (`arith`) or error log. A ring base of 0 drops it; a failing write
counts in LOGDROPS. -/
def State.logTo (s : State) (n : Nat) (arith : Bool) (rec : List Byte) : State :=
  match s.ctx n with
  | none => s
  | some c =>
    let base := if arith then c.desc.alogbase else c.desc.errbase
    let size := 2 ^ ((if arith then c.desc.aloglog2 else c.desc.errlog2) + 6)
    let k := if arith then c.prodA else c.prodE
    if base == 0 then s
    else
      match s.appendRing c base size k rec with
      | .ok t => t.updCtx n (fun c => if arith then { c with prodA := k + 1 } else { c with prodE := k + 1 })
      | .error _ => s.updCtx n (fun c => { c with logdrops := min 255 (c.logdrops + 1) })

/-- An error-log record (R393) with its SEQ and DETAIL. -/
def State.logErrorOf (s : State) (n cause : Nat) (seq detail : Dword) : State :=
  s.logTo n false (logBytes detail seq 0 cause 0 0 0 false)

/-- The same where the manual does not say which address or status DETAIL holds: it is free.
DESIGN CHOICE, log entry 26. -/
def State.logError (s : State) (n cause : Nat) (seq : Dword) : State :=
  let (v, s) := s.free
  s.logErrorOf n cause seq v

/-- The part log (R428): a ring in host memory. -/
def State.logPart (s : State) (cause : Nat) (detail : Dword) : State :=
  if s.health.plogbase == 0 then s
  else
    let base := 0x8_0000_0000_0000 + s.health.plogbase.toNat
    let k := s.health.prodP
    let t := s.engineStore (base + 64 + 32 * (k % 2 ^ (s.health.ploglog2 + 6))) (logBytes detail 0 0 cause 0 0 0 false)
    let t := t.engineStore base (leBytes 8 (k + 1))
    { t with health := { t.health with prodP := k + 1 } }

/-- The sequence number of a block's launch. -/
def State.seqOf (s : State) (b : Block) : Dword := ((s.launch b.launch).map (·.seq)).getD 0

/-- `LogArith` for a slot of the clause in progress (R198, R393). -/
def State.logArith (s : State) (e : Env) (cause slot : Nat) (eng : Bool) : State :=
  s.logTo e.b.ctx true
    (logBytes (BitVec.ofNat 64 s.devtime) (s.seqOf e.b) e.r.hdr cause e.sp.spid e.b.core slot eng)

/-- R96, R286: the records of the exceptions a slot raised, an IEEE exception only where ALOGMASK enables it.
DESIGN CHOICE, log entry 80. -/
def State.logExc (s : State) (e : Env) (slot : Nat) (x : Exc) : State :=
  let mask := ((s.ctx e.b.ctx).map (·.alogmask)).getD 0
  (List.range 6).foldl (fun t i =>
    if x.getLsbD i && (i == 5 || mask.getLsbD i) then t.logArith e (if i == 5 then 0x10 else i + 1) slot false else t) s

/-! Long-latency operations (R50, R61 to R63, R237). -/

/-- An operation issued by the clause in progress for some slots; `early` where it reads a tile whose `mma` its thread has
not waited for (R66). -/
def State.addOp (s : State) (e : Env) (slots : List Nat) (k : OpKind) (early : Bool := false) : State :=
  let (id, s) := s.fresh
  let o : Op :=
    { id := id, blk := e.b.uid, m := e.sp.m, ctx := e.b.ctx, core := e.b.core, spid := e.sp.spid, slots := slots
      token := e.r.token, hdr := e.r.hdr, start := s.devtime, kind := k, early := early }
  { s with ops := s.ops ++ [o] }

/-- An operation changes. -/
def State.updOpn (s : State) (id : Nat) (f : Op → Op) : State :=
  { s with ops := s.ops.map (fun (o : Op) => if o.id == id then f o else o) }

/-- What an operation still has to do changes. -/
def State.setKind (s : State) (id : Nat) (k : OpKind) : State :=
  { s with ops := s.ops.map (fun (o : Op) => if o.id == id then { o with kind := k } else o) }

/-- The register writes of an operation to (slot, register) pairs that satisfy a test are dropped (R62). -/
def OpKind.dropRegs (k : OpKind) (p : Nat → Nat → Bool) : OpKind :=
  match k with
  | .regs ws => .regs (ws.filter (fun w => !p w.slot w.reg))
  | .zrnd t z ws => .zrnd t z (ws.filter (fun w => !p w.slot w.reg))
  | .mgread k d live x i => .mgread k d (live.filter (fun r => !p k r)) x i
  | .mgstable d live q => .mgstable d (live.filter (fun x => !p x.1 x.2)) q
  | k => k

/-- R62: earlier pending writes to registers just written are dropped. `below` bounds the operations' numbers. -/
def State.dropPending (s : State) (uid m below : Nat) (p : Nat → Nat → Bool) : State :=
  { s with ops := s.ops.map (fun o =>
      if o.blk == uid && o.m == m && o.id < below then { o with kind := o.kind.dropRegs p } else o) }

/-- The s register that an operation writes when it completes. -/
def OpKind.sdst : OpKind → Option Nat
  | .sreg r _ | .stash r _ _ | .coll r _ _ _ _ _ _ | .mgclose r _ | .mgcommit r _ => some r
  | _ => none

/-- Earlier pending writes of an s register just written are lost (R55, R62). `below` bounds the operations' numbers. -/
def State.loseS (s : State) (uid m below n : Nat) : State :=
  { s with ops := s.ops.map (fun (o : Op) =>
      if o.blk == uid && o.m == m && o.id < below && o.kind.sdst == some n then { o with lost := true } else o) }

/-- The run's slots hold a token while the clause is in progress. -/
def Run.holds (r : Run) (uid m k : Nat) (w : BitVec 3) : Bool :=
  r.active && r.blk == uid && r.m == m && r.exec.contains k && r.token == some w

/-- R61: a set token stays set while an operation, a clause in progress or a parked clause of the thread covers it. -/
def State.covered (s : State) (uid m k : Nat) (t : Thread) (w : BitVec 3) : Bool :=
  s.ops.any (fun o => o.blk == uid && o.m == m && o.slots.contains k && o.token == some w) ||
  (s.run :: s.runs).any (fun r => r.holds uid m k w) ||
  (match t.mid with
    | some d => d.token == some w
    | none => false)

/-- A thread's tokens after completions. -/
def State.tokOf (s : State) (uid m k : Nat) (t : Thread) : Byte :=
  (List.range 8).foldl (fun (x : Byte) i =>
    if t.tok.getLsbD i && s.covered uid m k t (BitVec.ofNat 3 i) then x ||| BitVec.ofNat 8 (2 ^ i) else x) 0

/-- R34, R61: tokens whose operations have completed clear, and threads parked on them become READY. -/
def State.settle (s : State) (uid m : Nat) : State :=
  s.updSp uid m (fun sp =>
    { sp with threads := sp.threads.zipIdx.map (fun x =>
        let t := { x.1 with tok := s.tokOf uid m x.2 x.1 }
        match t.st with
        | .parked (.tokens mask) => if t.tok &&& mask == 0 then { t with st := .ready } else t
        | _ => t) })

/-! The clause in progress: stepping back, parking, ending. -/

/-- The run as it stood before the instruction being executed was fetched. -/
def Run.back (r : Run) : Run :=
  { r with words := r.cur, idx := r.idx - 1, lat := r.latches.headD none, latches := r.latches.drop 1 }

/-- A slot's part of a latch. -/
def Latch.at (l : Latch) (k : Nat) : LatchVal := { wide := l.wide, tag := l.tag, val := (l.vals[k]?).getD 0 }

/-- Where a slot stands in a run that has been stepped back (R360). -/
def Run.mid (r : Run) (k : Nat) : Mid :=
  { hdr := r.hdr, idx := r.idx, token := r.token, after := none, copy := if r.base == r.hdr then 0 else r.base, olds := r.olds
    latches := ((r.lat :: r.latches).take 4).map (fun l => l.map (fun x => x.at k)) }

/-- The run loses slots; with none left it ends. -/
def Run.without (r : Run) (ks : List Nat) : Run :=
  let ex := r.exec.filter (fun k => !ks.contains k)
  if ex.isEmpty then Run.idle else { r with exec := ex }

/-- The halt line of a context is up, or it is HALTED (R389). -/
def State.halting (s : State) (n : Nat) : Bool := ((s.ctx n).map (fun c => c.halting || c.halted)).getD false

/-- A thread parks; under the halt line it stops at the parking instruction (R389). -/
def Thread.parkOn (t : Thread) (halt : Bool) (c : Park) : Thread :=
  if halt then { t with st := .halted, before := .parked c } else { t with st := .parked c }

/-- Slots park mid-clause at the instruction being executed (R34). -/
def State.park (s : State) (e : Env) (ks : List Nat) (c : Nat → Park) : State :=
  let r := e.r.back
  let after := if e.r.words.isEmpty then some e.r.npc else none
  let halt := s.halting e.b.ctx
  let s := s.updSp e.b.uid e.sp.m (fun sp =>
    { sp with threads := sp.threads.zipIdx.map (fun x =>
        if ks.contains x.2 then { (x.1.parkOn halt (c x.2)) with mid := some { r.mid x.2 with after := after }, served := [] } else x.1) })
  { s with run := s.run.without ks }

/-- The batch is held at the instruction being executed, which issues again later. -/
def State.hold (s : State) (e : Env) : State := { s with run := Run.idle, runs := s.runs ++ [e.r.back] }

/-- A thread goes on behind the instruction it stands at. -/
def Thread.past (t : Thread) : Thread :=
  match t.mid with
  | some m =>
    match m.after with
    | some pc => { t with st := .ready, pc := pc, mid := none }
    | none => { t with st := .ready, mid := some { m with idx := m.idx + 1, latches := (none :: m.latches).take 4 } }
  | none => { t with st := .ready }

/-- A thread parked on a condition that satisfies a test is released past its instruction; a halted one keeps the
wake (R39, R275). -/
def Thread.release (t : Thread) (p : Park → Bool) : Thread :=
  match t.st, t.before with
  | .parked c, _ => if p c then t.past else t
  | .halted, .parked c => if p c then { t.past with st := .halted, before := .ready } else t
  | _, _ => t

/-- A thread parked on a counter or an absent line wakes: past an `arcwait`, or, in an evicted block, to issue its
instruction again (R396). A halted one keeps the wake for RESUME (R391). -/
def Thread.wakeIf (t : Thread) (again : Bool) (p : Park → Bool) : Thread :=
  match t.st, t.before with
  | .parked c, _ => if p c then (if again then { t with st := .ready } else t.past) else t
  | .halted, .parked c => if p c then { (if again then t else t.past) with st := .halted, before := .ready } else t
  | _, _ => t

/-- The threads of a block woken. -/
def Block.wake (b : Block) (again : Bool) (p : Park → Bool) : Block :=
  { b with spindles := b.spindles.map (fun sp => { sp with threads := sp.threads.map (fun t => t.wakeIf again p) }) }

/-- The threads of a block released. -/
def Block.release (b : Block) (p : Park → Bool) : Block :=
  { b with spindles := b.spindles.map (fun sp => { sp with threads := sp.threads.map (fun t => t.release p) }) }

/-! Halting (R389, R390). -/

/-- The code of a cause (R199, R389). -/
def Trap.code : Trap → Nat
  | .stopped => 0x00
  | .illegalInsn => 0x01
  | .illegalOperand => 0x02
  | .formatDivergence => 0x03
  | .translation => 0x04
  | .protection => 0x05
  | .window => 0x06
  | .uncorrectable => 0x07
  | .orphanWait => 0x08
  | .breakpoint => 0x09
  | .software => 0x0A
  | .remoteReject => 0x0B
  | .coreFailed => 0x0C
  | .driver => 0x0D

/-- The engine number of an operation in its stop record (R390), none for those that write no record. -/
def OpKind.engine : OpKind → Option Nat
  | .regs _ | .sreg _ _ | .fence _ | .winFence _ _ | .asyncFence _ _ | .persist _ _ | .resultLoad _ _ _ _ _ _ _ => none
  | .acks n _ _ => some n
  | .copy _ _ _ _ _ _ | .stash _ _ _ => some 0x01
  | .mma _ _ _ _ _ _ _ _ _ | .zrnd _ _ _ | .zdrain _ _ _ _ _ | .zld _ _ _ | .zst _ _ _ | .quant _ _ _ _ => some 0x02
  | .mgclose _ _ | .mgcommit _ _ | .mgread _ _ _ _ _ | .mgstable _ _ _ => some 0x04
  | .coll _ _ _ _ _ _ _ => some 0x05
  | .xfer _ _ _ _ _ _ _ _ | .amsg _ _ _ _ | .rwr _ _ _ _ _ => some 0x06

/-- The column groups of an `mma` (R389): of up to 128 consecutive tile columns. -/
def Tile.groups (t : Tile) : Nat := (t.cols + 127) / 128

/-- The steps, rows or bytes that an operation performs in all (R389, R390); 0 for one that is performed whole. -/
def OpKind.total : OpKind → Nat
  | .copy _ _ _ _ bytes _ | .xfer _ _ _ _ _ bytes _ _ => bytes
  | .mma t _ _ _ kb _ _ _ _ => kb * t.groups
  | .zdrain t _ _ _ _ | .zld t _ _ | .zst t _ _ => t.rows
  | .quant _ _ d _ => d.rows
  | _ => 0

/-- What it has performed of that (R390). -/
def Op.amount (o : Op) : Nat :=
  match o.kind with
  | .copy _ _ _ segs bytes _ => bytes - (segs.map (·.len)).sum
  | .xfer _ _ _ todo sent bytes _ _ => bytes - ((todo ++ sent).map (·.2)).sum
  | .zrnd _ _ _ => o.slots.length
  | .acks _ _ n => n
  | _ => o.done

/-- The DETAIL of an engine's stop record where the cause gives none (R390): by engine. -/
def OpKind.detail : OpKind → Nat
  | .copy out _ _ segs _ _ => (segs.head?.map (fun x => if out then x.va.toNat else x.la)).getD 0
  | .stash _ _ u => u.getD 0
  | .mgclose _ h | .mgcommit _ h => h.toNat
  | .mma _ z _ _ _ _ _ _ _ | .zdrain _ z _ _ _ | .zld _ z _ | .zst _ z _ | .quant _ z _ _ | .zrnd _ z _ => z
  | .coll _ d _ _ _ _ _ => d.collid
  | .acks _ d _ => d
  | .xfer _ _ _ _ _ _ _ n => n
  | _ => 0

/-- The pending register writes of an operation are made (R50, R62): each slot's register, tagged G at issue.
DESIGN CHOICE, log entry 12. -/
def Spindle.deliver (sp : Spindle) (ws : List RegW) : Spindle :=
  { sp with v := sp.v.zipIdx.map (fun x =>
      let mine := ws.filter (fun w => w.reg == x.2 && !sp.gone w.slot)
      if mine.isEmpty then x.1
      else { x.1 with vals := x.1.vals.zipIdx.map (fun y =>
        ((mine.find? (fun w => w.slot == y.2)).map (·.val)).getD y.1) }) }

/-- Whether a register of a spindle is below its allotment (R33). -/
def Spindle.vcount (sp : Spindle) : Nat := if sp.full then sp.vfull else sp.vpro

/-- A spindle holds its full allotment: by a grant, or because its prologue figures are its full ones (R32). -/
def Spindle.hasFull (sp : Spindle) : Bool := sp.full || (sp.vfull == sp.vpro && sp.afull == sp.apro)

/-- Register writes of an operation are made, and earlier ones to the same registers are dropped (R62). -/
def State.deliver (s : State) (o : Op) (ws : List RegW) : State :=
  (s.updSp o.blk o.m (fun sp => sp.deliver ws)).dropPending o.blk o.m o.id
    (fun k r => ws.any (fun w => w.slot == k && w.reg == r))

/-- What a clause's s sources had when it issued, where another write has come since (R55). -/
def keepOld (olds : List (Nat × Dword)) (n : Nat) (v : Dword) : List (Nat × Dword) :=
  if olds.any (fun x => x.1 == n) then olds else (n, v) :: olds

/-- A clause in progress goes on with the value its s sources had when it issued (R55). -/
def Run.keepOld (r : Run) (uid m n : Nat) (v : Dword) : Run :=
  if r.active && r.blk == uid && r.m == m then { r with olds := Machine.keepOld r.olds n v } else r

/-- So does a thread that stands inside a clause. -/
def Thread.keepOld (t : Thread) (n : Nat) (v : Dword) : Thread :=
  { t with mid := t.mid.map (fun d => { d with olds := Machine.keepOld d.olds n v }) }

/-- An s register written, and its value before kept for the clauses set aside and the threads inside one (R55). -/
def State.writeS (s : State) (uid m n : Nat) (v : Dword) : State :=
  let old (sp : Spindle) : Dword := (sp.s[n]?).getD 0
  let was := (((s.blk uid).bind (fun b => b.sp m)).map old).getD 0
  let s := s.updSp uid m (fun sp => { sp with s := sp.s.set n v, threads := sp.threads.map (fun t => t.keepOld n (old sp)) })
  { s with runs := s.runs.map (fun r => r.keepOld uid m n was) }

/-- A long-latency write of an s register is made (R55, R62): unless a later one has been, or every thread that issued it
is EXITED (R278). -/
def State.deliverS (s : State) (o : Op) (n : Nat) (v : Dword) : State :=
  match (s.blk o.blk).bind (fun b => b.sp o.m) with
  | none => s
  | some sp =>
    if o.lost || o.slots.all (fun k => sp.gone k) then s
    else
      let old := (sp.s[n]?).getD 0
      let s := (s.writeS o.blk o.m n v).loseS o.blk o.m o.id n
      { s with run := s.run.keepOld o.blk o.m n old }

/-- An operation of registers only completes. -/
def State.finishRegs (s : State) (o : Op) : State :=
  match o.kind with
  | .regs ws | .zrnd _ _ ws => s.deliver o ws
  | .sreg r v | .stash r v none => s.deliverS o r v
  | _ => s

/-- One of the register writes of an operation in flight is made ahead of the others: until its thread waits, each
register of each slot is old or new (R63, R64). -/
def State.deliverOne (s : State) (o : Op) (i : Nat) : State :=
  let one (ws : List RegW) (mk : List RegW → OpKind) : State :=
    match ws[i]? with
    | some w => (s.deliver o [w]).setKind o.id (mk (ws.take i ++ ws.drop (i + 1)))
    | none => s
  match o.kind with
  | .regs ws => one ws .regs
  | .zrnd t z ws => one ws (.zrnd t z)
  | _ => s

/-- An operation leaves the list, and its token may clear. -/
def State.dropOp (s : State) (o : Op) : State :=
  ({ s with ops := s.ops.filter (fun x => x.id != o.id) }).settle o.blk o.m

/-- A request of an operation waits at this device, or its stream is frozen (R160, R394). -/
def State.unsent (s : State) (o : Op) : Bool :=
  s.fabric.held.any (fun h => h.x.op == some o.id) ||
    s.fabric.outst.any (fun x => x.op == some o.id && s.fabric.frozen.contains x.key)

/-- An operation that has performed everything leaves the list, but while a request of it waits at this device or its stream
is frozen: a cleared token means that its writes have left the part (R160). -/
def State.leaveOp (s : State) (o : Op) : State :=
  if s.unsent o then
    s.setKind o.id (.acks ((o.kind.engine).getD 0) o.kind.detail (if o.kind.total == 0 then o.amount else o.kind.total))
  else s.dropOp o

/-- An engine's stop record (R390). -/
def Op.engStop (o : Op) (cause : Trap) (n : Nat) (detail : Nat) : EngStop :=
  { ctx := o.ctx, hdr := o.hdr, core := o.core, spid := o.spid, cause := cause, engine := n
    state := if o.amount == 0 then 0 else if o.amount < o.kind.total then 1 else 2, amount := o.amount, detail := BitVec.ofNat 64 detail }

/-- A tile engine's operation, which stops at the end of a step or a row (R389). -/
def OpKind.rows : OpKind → Bool
  | .mma _ _ _ _ _ _ _ _ _ | .zdrain _ _ _ _ _ | .zld _ _ _ | .zst _ _ _ | .quant _ _ _ _ => true
  | _ => false

/-- A halt stops an engine where it stands: register results complete, what it has performed stays, and it leaves a stop
record (R389). A tile engine ends its step or row first: it stops as the records are written. DESIGN CHOICE, log entry 13. -/
def State.stopOp (s : State) (o : Op) : State :=
  let s1 := s.finishRegs o
  let s2 := match o.kind.engine with
    | none => s1
    | some n =>
      match o.kind with
      | .stash _ _ none => s1
      | k => { s1 with engStops := s1.engStops ++ [o.engStop .stopped n k.detail] }
  if o.kind.rows then s else s2.dropOp o

/-- A slot belongs to a clause in progress. -/
def State.running (s : State) (uid m k : Nat) : Bool :=
  (s.run :: s.runs).any (fun r => r.active && r.blk == uid && r.m == m && r.exec.contains k)

/-- A thread stopped by the halt line keeps its state for RESUME (R21, R391). -/
def Thread.halt (t : Thread) : Thread :=
  match t.st with
  | .ready | .parked _ => { t with st := .halted, before := t.st }
  | _ => t

/-- The threads of a context that run no clause stop (R389). -/
def State.haltThreads (s : State) (n : Nat) : State :=
  { s with blocks := s.blocks.map (fun b =>
      if b.ctx == n && !b.evicted then
        { b with spindles := b.spindles.map (fun sp =>
            { sp with threads := sp.threads.zipIdx.map (fun x =>
                if s.running b.uid sp.m x.2 then x.1 else x.1.halt) }) }
      else b) }

/-- The slots of a run stop at the instruction the run stands before, `who` with a cause of its own. -/
def State.stopAt (s : State) (r : Run) (inClause : Bool) (who : Option (Nat × StopInfo)) : State :=
  s.updSp r.blk r.m (fun sp =>
    { sp with threads := sp.threads.zipIdx.map (fun x =>
        if r.exec.contains x.2 then
          { x.1 with st := .halted, before := .ready, mid := if inClause then some (r.mid x.2) else none
                     stop := match who with
                       | some w => if w.1 == x.2 then some w.2 else none
                       | none => none }
        else x.1) })

/-- The stash fills in progress of a context stop: each leaves its line absent, and a record (R389, R390). -/
def State.stopFills (s : State) (n : Nat) : State :=
  let mine := s.blocks.filter (fun b => b.ctx == n && !b.evicted && !b.fillBy.isEmpty)
  let stop (b : Block) (f : FillBy) : EngStop :=
    { ctx := n, hdr := f.hdr, core := b.core, spid := f.spid, cause := .stopped, engine := 1, state := 0, amount := 0
      detail := BitVec.ofNat 64 (128 * f.line) }
  let stops := mine.flatMap (fun b => b.fillBy.map (stop b))
  { s with engStops := s.engStops ++ stops
           blocks := s.blocks.map (fun b =>
             if b.ctx == n && !b.evicted then
               { b with fills := b.fills.filter (fun f => !b.fillBy.any (fun x => x.line == f.1)), fillBy := [] }
             else b) }

/-- The runs that a serviced fault of the context stalls stop at the faulting instruction (R389). -/
def State.stopStalled (s : State) (n : Nat) : State :=
  let mine := s.services.filter (fun v => v.ctx == n && v.core != 0x100)
  let stalled (r : Run) : Bool := mine.any (fun v =>
    match s.blk r.blk with
    | some b => b.ctx == n && b.core == v.core && r.active &&
        (match b.sp r.m with | some sp => sp.spid == v.spid && r.exec == v.slots | none => false)
    | none => false)
  let t := (s.runs.filter stalled).foldl (fun t r => t.stopAt r true none) s
  { t with runs := t.runs.filter (fun r => !stalled r), services := t.services.filter (fun v => !(v.ctx == n && v.core != 0x100)) }

/-- R301: gang operations of some launches that not every block has issued are cancelled, for good. -/
def State.cancelGangs (s : State) (p : Block → Bool) : State :=
  let mine (b : Block) (o : Op) : Option Nat :=
    if o.blk == b.uid && p b then
      (match o.kind with | .mma _ _ _ _ _ _ (some _) n none => some n | _ => none)
    else none
  let dead (o : Op) : Bool := s.blocks.any (fun b =>
    match mine b o with
    | some n => s.blocks.any (fun c => c.launch == b.launch && c.gl == b.gl && c.gangN ≤ n)
    | none => false)
  let gone := s.ops.filter dead
  let s := { s with blocks := s.blocks.map (fun b =>
    let ns := gone.filterMap (fun o =>
      match s.blk o.blk with
      | some c => if c.launch == b.launch && c.gl == b.gl then mine c o else none
      | none => none)
    { b with gangX := b.gangX ++ ns.filter (fun n => !b.gangX.contains n) }) }
  gone.foldl (fun t o => t.dropOp o) s

/-- R389: the halt line of a context is raised with a cause. -/
def State.haltCtx (s : State) (n : Nat) (cause : Trap) : State :=
  match s.ctx n with
  | none => s
  | some c =>
    if c.halted || c.halting then s
    else
      let s := s.updCtx n (fun c => { c with halting := true, cause := cause })
      let s := ((s.stopStalled n).cancelGangs (fun b => b.ctx == n)).stopFills n
      let s := (s.ops.filter (fun o => o.ctx == n)).foldl (fun t o => t.stopOp o) s
      s.haltThreads n

/-- `Trap` (R181, R198, R389): the batch stops at the instruction being executed, none of whose slots takes
effect, and the context halts. This is taking an exception on this part: no handler is entered. -/
def State.trap (s : State) (e : Env) (slot : Nat) (cause : Trap) (detail : Dword) : State :=
  let r := e.r.back
  let s := s.stopAt r true (some (slot, ⟨cause, detail⟩))
  ({ s with run := Run.idle }).haltCtx e.b.ctx cause

/-- A serviced fault (R36, R387): the core stalls, and the instruction is checked again afterwards. Under the halt line the
batch stops at the instruction, and nothing is serviced (R389). -/
def State.service (s : State) (e : Env) (slot : Nat) (va : Dword) (write : Bool) (op : Option Nat) : State :=
  if s.halting e.b.ctx then { (s.stopAt e.r.back true none) with run := Run.idle } else
  let (tag, s) := s.fresh
  let v : Service :=
    { core := e.b.core, ctx := e.b.ctx, va := va, write := write, fetch := false, tag := tag, sent := false
      spid := e.sp.spid, slots := e.r.exec, slot := slot, op := op, queue := none, record := none, mirror := false }
  { s with run := Run.idle, runs := s.runs ++ [e.r.back], services := s.services ++ [v] }

/-- The outcome of a failed check of a slot (R236). -/
def State.stopped (s : State) (e : Env) (slot : Nat) (write : Bool) : Stop → State
  | .trap c d => s.trap e slot c d
  | .service va op => s.service e slot va write op

/-! Names of the block's core for other cores: counter words (R290). -/

/-- R290: reserved bits of a counter word are zero. -/
def counterOk (w : Dword) : Bool := w.extractLsb' 33 31 == 0 && w.extractLsb' 24 8 == 0

/-- A counter's COUNT read and TARGET read (R124). -/
def Block.counter (b : Block) (a : Nat) : Nat × Nat := (leNat (b.lbytes a 8), leNat (b.lbytes (a + 8) 8))

/-- A thread parked in `arcwait` on the counter at `x`, whose condition holds. -/
def Block.counterMet (b : Block) (x : Nat) (c : Park) : Bool :=
  match c with
  | .counter a => a == x && decide ((b.counter a).2 ≤ (b.counter a).1)
  | _ => false

/-- An acquire at a scope by a core (R113, R433). -/
def State.acquire (s : State) (core : Nat) (sc : Scope) : State :=
  match sc with
  | .gang => s.ageLeases core
  | .dev | .sys => (s.ack (fun p => p.die == dieOf core)).ageLeases core
  | _ => s

/-- The bytes of a counter written, after which every `arcwait` parked on it reads it again (R124, R276); a thread that
passes acquires at `.sys`. -/
def State.updCounter (s : State) (uid a : Nat) (data : List Byte) : State :=
  let s := s.updBlk uid (fun b => b.lwrite a data)
  match s.blk uid with
  | none => s
  | some b =>
    let wakes := b.spindles.any (fun sp => sp.threads.any (fun t =>
      match t.st, t.before with
      | .parked c, _ => b.counterMet a c
      | .halted, .parked c => b.counterMet a c
      | _, _ => false))
    if wakes then
      let s := (s.updBlk uid (fun b => b.wake b.evicted (b.counterMet a))).acquire b.core .sys
      b.spindles.foldl (fun (t : State) sp => t.settle uid sp.m) s
    else s

/-- A single-copy atomic add to a counter's COUNT (R124). -/
def State.arcAdd (s : State) (uid a x : Nat) : State :=
  match s.blk uid with
  | some b => s.updCounter uid a (leBytes 8 ((b.counter a).1 + x))
  | none => s

/-- R290: the block whose local memory a counter word names on a core: the launch's own, else the earliest
admitted of the context that covers the address. DESIGN CHOICE, log entry 83. -/
def State.counterBlock (s : State) (launch ctx core a : Nat) : Option Block :=
  match s.blocks.find? (fun b => b.core == core && b.launch == launch) with
  | some b => if a + 16 ≤ b.lsize then some b else none
  | none =>
    (s.blocks.filter (fun b => b.core == core && b.ctx == ctx && a + 16 ≤ b.lsize)).foldl (fun best b =>
      match best with
      | some x => if b.order < x.order then some b else some x
      | none => some b) none

/-- R124: the local address of a counter word that names a counter in a stash range. -/
def State.counterStash (s : State) (launch ctx : Nat) (w : Dword) : Option Nat :=
  if !w.getLsbD 32 then none
  else
    let a := 16 * (w.extractLsb' 0 16).toNat
    match s.counterBlock launch ctx (w.extractLsb' 16 8).toNat a with
    | some b => if (b.stashAt a).isSome then some a else none
    | none => none

/-- The checks of a counter word at issue: its reserved bits (R290), then its place (R124). -/
def State.counterFault (s : State) (launch ctx : Nat) (w : Dword) : Option (Trap × Dword) :=
  if !counterOk w then some (.illegalOperand, 0)
  else (s.counterStash launch ctx w).map (fun a => (.protection, BitVec.ofNat 64 a))

/-- An update of the counter a counter word names, or the record of its drop (R290). -/
def State.bumpWord (s : State) (launch ctx : Nat) (w : Dword) (x : Nat) : State :=
  if !w.getLsbD 32 then s
  else
    let a := 16 * (w.extractLsb' 0 16).toNat
    match s.counterBlock launch ctx (w.extractLsb' 16 8).toNat a with
    | some b => s.arcAdd b.uid a x
    | none => s.logError ctx 0x40 (((s.launch launch).map (·.seq)).getD 0)

end Sys2Proof.Machine
end

