-- ==== Sys2Proof/Machine/Regs.lean ====
section
/-! DEFINITION. Regs.lean: reading the register BAR (R362, R383, R386, R407, R412, R415, R419, R428, R430) and the
control registers (R14, R285). -/

namespace Sys2Proof.Machine

/-- PKGCFG (R14). -/
def State.pkgcfg (s : State) : Dword :=
  BitVec.ofNat 64 (Config.gangCores + (s.dies.length * Config.dieGangs) * 2 ^ 8 + s.diemask.toNat * 2 ^ 16 +
    s.userCores * 2 ^ 20 + 0x60 * 2 ^ 32)

/-- A write of the register BAR takes effect; in MINIMAL the BAR is not served (R412). -/
def State.bar (s : State) (f : State → State) : State := if s.boot.state == 7 then s else f s

/-- A queue's registers. -/
def State.queue (s : State) (n : Nat) : Queue := (s.queues.find? (fun q => q.n == n)).getD (Queue.reset n)

/-- A queue changed. -/
def State.updQueue (s : State) (n : Nat) (f : Queue → Queue) : State :=
  if s.queues.any (fun q => q.n == n) then { s with queues := s.queues.map (fun q => if q.n == n then f q else q) }
  else { s with queues := s.queues ++ [f (Queue.reset n)] }

/-- R382: a context's state is held by a core, an engine or a unit. -/
def State.resident (s : State) (n : Nat) : Bool :=
  s.blocks.any (fun b => b.ctx == n && !b.evicted) || s.ops.any (fun o => o.ctx == n) ||
  s.operators.any (fun o => o.owner == n && o.resident) || s.mslots.any (fun m => m.ctx == n)

/-- CTXSTAT_n (R383); a FREE context keeps what its last halt left (R392). -/
def State.ctxstat (s : State) (n : Nat) : Dword :=
  let word (c : Ctx) (st : Nat) : Dword := BitVec.ofNat 64 (st + (s.resident n).toNat * 4 + c.logdrops * 2 ^ 16 +
    c.cause.code * 2 ^ 24 + c.stopcnt * 2 ^ 32 + c.stopdrop.toNat * 2 ^ 48)
  match s.ctx n, s.freed.find? (fun c => c.id == n) with
  | some c, _ => word c (if c.halted then 2 else 1)
  | none, some c => word c 0
  | none, none => 0

/-- A queue's register at a word of its block (R362). -/
def Queue.reg (q : Queue) (k : Nat) : Dword :=
  match k with
  | 0 => q.base ||| BitVec.ofNat 64 q.log2
  | 1 => BitVec.ofNat 64 (q.en.toNat + (if q.lcls then 2 ^ 4 else 0) + q.quar.toNat * 2 ^ 6 + q.priv.toNat * 2 ^ 7 +
      q.ctxid * 2 ^ 32 + q.tickets * 2 ^ 48)
  | 2 => BitVec.ofNat 64 q.tail
  | 3 => BitVec.ofNat 64 q.prog
  | 4 => BitVec.ofNat 64 ((if !q.en && !q.stopping then 0 else if q.out then 2 else if q.waiting then 3 else 1) + q.tailerr.toNat * 4 +
      q.reason * 2 ^ 8 + q.erroff * 2 ^ 16)
  | 5 => q.mirror
  | _ => 0

/-- The code of a servo state (R419). -/
def Servo.code : Servo → Nat
  | .freerun => 0
  | .locking => 1
  | .locked => 2
  | .holdover => 3

/-- The register at an 8-aligned offset of the BAR; 0 where none is. -/
def State.reg (s : State) (off : Nat) : Dword :=
  let h := s.health
  if 0x18_0000 ≤ off && off < 0x18_8000 then s.ctxstat ((off - 0x18_0000) / 8)
  else if 0x20_0000 ≤ off && off < 0x21_0000 then (s.queue ((off - 0x20_0000) / 64)).reg (off % 64 / 8)
  else if 0x40_0000 ≤ off && off < 0x80_0000 then
    let q := s.queue ((off - 0x40_0000) / 4096)
    if off % 4096 == 0 then q.reg 2 else if off % 4096 == 8 then q.reg 3 else 0
  else if 0x30_0700 ≤ off && off < 0x30_0900 then
    match s.fabric.planes[(off - 0x30_0700) / 8]? with
    | some p => BitVec.ofNat 64 (p.1 + p.2.toNat * 16)
    | none => 0
  else if off == 0x10_0000 then s.xlat.ctxtab
  else if off == 0x10_0008 then BitVec.ofNat 64 (s.xlat.ctxcmd.toNat * 2 ^ 16 + if s.xlat.busy.isSome then 2 ^ 63 else 0)
  else if off == 0x10_0010 then s.xlat.tinvaddr
  else if off == 0x10_0018 then s.xlat.tinvctl ||| (if s.xlat.tinvBusy then (0 : Dword) else (1#64 <<< 63 : Dword))
  else if off == 0x10_0020 then BitVec.ofNat 64 s.coh.leaseMax
  else if off == 0x30_0000 then
    s.coh.biascmd ||| (if s.coh.flips.any (fun (f : Flip) => f.cmd) then (1#64 <<< 63 : Dword) else (0 : Dword))
  else if off == 0x30_0008 then BitVec.ofNat 64 (s.coh.biasErr.toNat + s.coh.flipCount % 2 ^ 32 * 2 ^ 32)
  else if off == 0x30_0010 then BitVec.ofNat 64 s.coh.autoflip.toNat
  else if off == 0x30_0100 then
    BitVec.ofNat 64 (s.boot.state.toNat + s.boot.reason.toNat * 2 ^ 16 + s.boot.fails * 2 ^ 32)
  else if off == 0x30_0200 then s.mail.base ||| BitVec.ofNat 64 s.mail.log2n
  else if off == 0x30_0208 then s.mail.tdprod ++ s.mail.tdcons ++ s.mail.thprod ++ s.mail.thcons
  else if off == 0x30_0300 then s.sched.lseed.setWidth 64
  else if off == 0x30_0308 then s.sched.urgent.setWidth 64
  else if off == 0x30_0310 then s.sched.qlimit ++ 0#16 ++ s.sched.qgangs
  else if off == 0x30_0400 then
    BitVec.ofNat 64 (s.ptp.en.toNat + s.ptp.delay.toNat * 4 + s.ptp.domnum.toNat * 2 ^ 8 + s.ptp.slewmax.toNat * 2 ^ 16)
  else if off == 0x30_0408 then s.ptp.adj
  else if off == 0x30_0410 then
    BitVec.ofInt 32 s.ptp.offset ++ BitVec.ofNat 32 (s.ptp.st.code + s.ptp.stepref.toNat * 2 ^ 7)
  else if off == 0x30_0500 then h.pwrcap.setWidth 64
  else if off == 0x30_0508 then
    Config.tjmax s.devtime ++ Config.powerWatts s.devtime ++ h.mhz ++
      BitVec.ofNat 16 ((if h.mhz.toNat < 3600 then 2 else 0) + h.trip.toNat)
  else if off == 0x30_0600 then h.plogbase ||| BitVec.ofNat 64 h.ploglog2
  else if off == 0x30_0608 then h.retireReg
  else 0

/-- A read of the BAR (R362): inside one register its bytes; wider, whole registers; an access that crosses a
register boundary without covering whole registers is aborted. In MINIMAL the BAR is not served (R412). -/
def State.readBar (s : State) (off n : Nat) : Option (List Byte) :=
  if s.boot.state == 7 then none
  else if off % 8 + n ≤ 8 then some (((leBytes 8 (s.reg (off / 8 * 8)).toNat).drop (off % 8)).take n)
  else if off % 8 == 0 && n % 8 == 0 then some ((List.range (n / 8)).flatMap (fun i => leBytes 8 (s.reg (off + 8 * i)).toNat))
  else none

/-- A control register as a thread reads it (R285, R287); none where the number is refused at decode. -/
def Env.csr (e : Env) (s : State) (n : BitVec 12) (k : Nat) : Dword :=
  let t := e.thr k
  let g (f : Thread → Dword) : Dword := (t.map f).getD 0
  match n.toNat with
  | 0x000 => Config.archrev
  | 0x001 => Config.sfrev
  | 0x002 => s.pkgcfg
  | 0x003 => BitVec.ofNat 64 s.coh.leaseMax
  | 0x010 => g (fun t => t.tls)
  | 0x011 => g (fun t => BitVec.ofNat 64 t.rsd)
  | 0x012 => ((s.ctx e.b.ctx).map (fun c => c.alogmask.setWidth 64)).getD 0
  | 0x020 => ((s.ctx e.b.ctx).map (fun c => c.desc.sysvec)).getD 0
  | 0x021 => g (fun t => BitVec.ofNat 64 (t.insys.toNat * 256 + t.code.toNat))
  | 0x022 => g (fun t => t.sysa)
  | 0x023 => g (fun t => t.sysb)
  | 0x024 => g (fun t => t.sysret)
  | _ => 0

end Sys2Proof.Machine
end

