-- ==== Sys2Proof/Machine/Operands.lean ====
section
/-! DEFINITION. Operands.lean: every operand form read and written (R54, R55, R57 to R60, R185, R191, R198). -/

namespace Sys2Proof.Machine

/-- A v register's word in a slot. -/
def Spindle.vword (sp : Spindle) (n k : Nat) : Word := ((sp.v[n]?).bind (fun r => r.vals[k]?)).getD 0

/-- A v register's tag. -/
def Spindle.vtag (sp : Spindle) (n : Nat) : Tag := ((sp.v[n]?).map (·.tag)).getD .u

/-- An s register. -/
def Spindle.sval (sp : Spindle) (n : Nat) : Dword := (sp.s[n]?).getD 0

/-- An s register as the clause in progress reads it: as it stood when the batch issued the clause, but for the clause's
own writes (R55). -/
def Env.sval (e : Env) (n : Nat) : Dword := ((e.r.olds.find? (fun x => x.1 == n)).map (·.2)).getD (e.sp.sval n)

/-- The WID of a slot (R16, R19). -/
def Env.wid (e : Env) (k : Nat) : Dword := e.b.wid + BitVec.ofNat 64 (32 * e.sp.m + k)

/-- Latch xN as the instruction being executed sees it (R59). -/
def Env.latch (e : Env) (n : BitVec 2) : Option Latch := (e.r.latches[n.toNat]?).join

/-- `ReadOp` (R198): the value of a selector for a slot, 32 bits zero-extended or 64 bits. A special of 32 bits read as
64 is zero-extended in every slot, as R239 has it in a uniform source. DESIGN CHOICE, log entry 59. -/
def Env.read (e : Env) (wide : Bool) (x : Sel) (k : Nat) : Dword :=
  match x with
  | .v n => if wide then pair (e.sp.vword (n.toNat + 1) k) (e.sp.vword n.toNat k) else (e.sp.vword n.toNat k).setWidth 64
  | .s n => if wide then e.sval n.toNat else (lo32 (e.sval n.toNat)).setWidth 64
  | .zero => 0
  | .slot => (BitVec.ofNat 32 k).setWidth 64
  | .x n =>
    let v := ((e.latch n).bind (fun l => l.vals[k]?)).getD 0
    if wide then v else (lo32 v).setWidth 64
  | .imm w => if wide then w.signExtend 64 else w.setWidth 64
  | .widlo => (lo32 (e.wid k)).setWidth 64
  | .widhi => (hi32 (e.wid k)).setWidth 64
  | .spid => (BitVec.ofNat 32 e.sp.spid).setWidth 64
  | .coreid => (BitVec.ofNat 32 e.b.core).setWidth 64
  | .gangid => (BitVec.ofNat 32 (gangOf e.b.core)).setWidth 64
  | .dpc =>
    let v := ((e.thr k).map (·.dpc)).getD 0
    if wide then v else (lo32 v).setWidth 64

/-- A 32-bit operand. -/
def Env.read32 (e : Env) (x : Sel) (k : Nat) : Word := lo32 (e.read false x k)

/-- A uniform operand, read once (R239): the value in the lowest executing slot. -/
def Env.readU (e : Env) (x : Sel) : Dword := e.read true x e.low

/-- Predicate n of a slot's thread (R57). -/
def Env.pred (e : Env) (n : BitVec 5) (k : Nat) : Bool := ((e.thr k).map (fun t => t.preds.getLsbD n.toNat)).getD false

/-- The tag of a selector (R54); of a 64-bit operand, U where both registers are U. -/
def Env.tag (e : Env) (wide : Bool) (x : Sel) : Tag :=
  match x with
  | .v n =>
    if wide then (if e.sp.vtag n.toNat == .u && e.sp.vtag (n.toNat + 1) == .u then .u else .g) else e.sp.vtag n.toNat
  | .s _ | .zero | .imm _ | .widhi | .spid | .coreid | .gangid => .u
  | .slot => .a 0 1
  | .widlo => .a (lo32 (e.wid 0)) 1
  | .x n => ((e.latch n).map (·.tag)).getD .u
  | .dpc => .g

/-- R51, R52: a U or A source as base and stride, a U source with stride 0. -/
def Env.affine (e : Env) (x : Sel) : Option (Word × Word) :=
  match e.tag false x with
  | .u => some (e.read32 x e.low, 0)
  | .a b s => some (b, s)
  | .g => none

/-- A register written in the executing slots (R53): `f` gives each slot's word, `tag` the tag of a full write. -/
def Env.putReg (e : Env) (f : Nat → Word) (tag : Tag) (r : VReg) : VReg :=
  { tag := if e.full then tag else .g
    vals := r.vals.zipIdx.map (fun x => if e.r.exec.contains x.2 then f x.2 else x.1) }

/-- One v register of a spindle written. -/
def Spindle.setV (sp : Spindle) (n : Nat) (f : VReg → VReg) : Spindle :=
  { sp with v := sp.v.zipIdx.map (fun x => if x.2 == n then f x.1 else x.1) }

/-- The latch that an instruction with a register result leaves (R59). -/
def Env.mkLatch (wide : Bool) (f : Nat → Dword) (tag : Tag) : Latch :=
  { wide := wide, tag := tag, vals := (List.range 32).map (fun k => if wide then f k else (lo32 (f k)).setWidth 64) }

/-- The tag a latch holds: that of the result, G where the write is not full (R53, R59). -/
def Env.resultTag (e : Env) (tag : Tag) : Tag := if e.full then tag else .g

/-- `WriteDest` of a V-class result (R53, R58, R60, R62, R198): the latch, and the register or pair unless NW = 1.
`tag` is the tag of a full write; each register of a pair takes it from the 32 bits it receives. -/
def State.putV (s : State) (e : Env) (d : VDst) (wide : Bool) (f : Nat → Dword) (tag : Tag) : State :=
  let s := { s with run := { s.run with lat := some (Env.mkLatch wide f (e.resultTag tag)) } }
  match d with
  | .latch => s
  | .v n =>
    let s := s.updSp e.b.uid e.sp.m (fun sp => sp.setV n.toNat (e.putReg (fun k => lo32 (f k)) tag))
    let s := if wide then s.updSp e.b.uid e.sp.m (fun sp => sp.setV (n.toNat + 1) (e.putReg (fun k => hi32 (f k)) tag)) else s
    s.dropPending e.b.uid e.sp.m s.nextId
      (fun k r => e.r.exec.contains k && (r == n.toNat || (wide && r == n.toNat + 1)))

/-- The write of an s register, once per batch (R55, R62). -/
def State.setS (s : State) (uid m : Nat) (n : Nat) (v : Dword) : State :=
  let s := (s.writeS uid m n v).loseS uid m s.nextId n
  { s with run := { s.run with olds := s.run.olds.filter (fun x => x.1 != n) } }

/-- `WriteDest` of a uniform result (R55, R60). -/
def State.putU (s : State) (e : Env) (d : UDst) (v : Dword) : State :=
  let s := { s with run := { s.run with lat := some (Env.mkLatch true (fun _ => v) .u) } }
  match d with
  | .latch => s
  | .s n => s.setS e.b.uid e.sp.m n.toNat v

/-- `WriteDest` of a predicate in the executing threads (R57). -/
def State.putP (s : State) (e : Env) (p : BitVec 5) (f : Nat → Bool) : State :=
  s.updSp e.b.uid e.sp.m (fun sp =>
    { sp with threads := sp.threads.zipIdx.map (fun x =>
        if e.r.exec.contains x.2 then
          { x.1 with preds :=
              (x.1.preds &&& ~~~(1#32 <<< p.toNat)) ||| (if f x.2 then 1#32 <<< p.toNat else 0) }
        else x.1) })

/-- The registers of a long-latency vector destination are tagged G at issue (R52, R63). -/
def State.tagG (s : State) (e : Env) (base count : Nat) : State :=
  s.updSp e.b.uid e.sp.m (fun sp =>
    { sp with v := sp.v.zipIdx.map (fun x =>
        if base ≤ x.2 ∧ x.2 < base + count then { x.1 with tag := .g } else x.1) })

/-- A long-latency vector destination at issue (R50, R52, R63): the registers are tagged G, and one operation
per slot will deliver its words, `f` giving them from the base register up. -/
def State.issueRegsAt (s : State) (e : Env) (ks : List Nat) (base count : Nat) (f : Nat → List Word) : State :=
  let s := s.tagG e base count
  ks.foldl (fun t k =>
    t.addOp e [k] (.regs ((f k).zipIdx.map (fun w => { slot := k, reg := base + w.2, val := w.1 })))) s

/-- The same for every executing slot. -/
def State.issueRegs (s : State) (e : Env) (base count : Nat) (f : Nat → List Word) : State :=
  s.issueRegsAt e e.r.exec base count f

/-- A long-latency s destination: the value is written when the operation completes (R288). -/
def State.issueS (s : State) (e : Env) (d : BitVec 6) (v : Dword) : State := s.addOp e e.r.exec (.sreg d.toNat v)

/-! Addresses (R191). -/

/-- A global address: base + SInt(offset) + SInt(OFF) × scale mod 2^64. -/
def Env.gaddr (e : Env) (m : MemOp) (scale k : Nat) : Dword :=
  e.read true m.base k + (e.read32 m.off k).signExtend 64 + m.imm.signExtend 64 * BitVec.ofNat 64 scale

/-- A local address, mod 2^32. -/
def Env.laddr (e : Env) (m : MemOp) (scale k : Nat) : Nat :=
  (lo32 (e.read true m.base k) + e.read32 m.off k + m.imm.signExtend 32 * BitVec.ofNat 32 scale).toNat

/-- The address of a counter operand (R257): UInt(base[31:0]) + 16 × OFF. -/
def Env.caddr (e : Env) (base : Sel) (off : BitVec 16) (k : Nat) : Nat :=
  (lo32 (e.read true base k)).toNat + 16 * off.toNat

end Sys2Proof.Machine
end

