-- ==== Sys2Proof/Machine/Exact.lean ====
section
/-! DEFINITION. Exact.lean: engine element formats, block scales and exact words (R68, R77 to R84, R88). -/

namespace Sys2Proof.Machine

/-- An exact finite value: m × 2^e. -/
structure Ex where
  m : Int
  e : Int
  deriving DecidableEq, Repr

namespace Ex

/-- The value in units of 2^−q, exact where it is a multiple of them. -/
def units (x : Ex) (q : Int) : Int :=
  if 0 ≤ x.e + q then x.m * 2 ^ (x.e + q).toNat else x.m / 2 ^ (-(x.e + q)).toNat

/-- A product. -/
def mul (x y : Ex) : Ex := ⟨x.m * y.m, x.e + y.e⟩

end Ex

/-- The exact value of a datum, none for an infinity or a NaN. -/
def FVal.exact (v : FVal) : Option Ex :=
  match v with
  | .fin n m e => some ⟨if n then -(m : Int) else m, e⟩
  | _ => none

/-- R79: eight times the value of a four-bit code in a type. -/
def fourBit (ty code : Nat) : Int :=
  let k := code % 8
  let mag : Nat := match ty with
    | 1 => ([0, 4, 8, 12, 16, 24, 32, 48] : List Nat).getD k 0
    | 2 => ([0, 1, 2, 4, 8, 16, 32, 64] : List Nat).getD k 0
    | _ => ([0, 8, 16, 24, 32, 48, 64, 96] : List Nat).getD k 0
  if ty == 0 then (if code < 8 then 8 * (code : Int) else 8 * ((code : Int) - 16))
  else if code < 8 then mag else -(mag : Int)

/-- The bits of an element of a format code (R68, R298). -/
def codeBits (c : Nat) : Nat := if c == 4 || c == 5 then 16 else if c == 6 then 4 else 8

/-- Format codes that carry scale bytes (R78). -/
def codeScaled (c : Nat) : Bool := c == 2 || c == 3 || c == 4 || c == 6

/-- R78: an element's value from its bits and its block's scale byte, none for an infinity or a NaN. -/
def codeValue (c scale bits : Nat) : Option Ex :=
  let sc : Int := if codeScaled c then (scale % 64 : Int) - 32 else 0
  let shift (v : Option Ex) : Option Ex := v.map (fun x => { x with e := x.e + sc })
  match c with
  | 0 => some ⟨if bits < 128 then bits else (bits : Int) - 256, 0⟩
  | 1 => some ⟨bits, 0⟩
  | 2 => shift (FFmt.e4m3f.decode bits).exact
  | 3 => shift (FFmt.e5m2.decode bits).exact
  | 4 => shift (FFmt.f16.decode bits).exact
  | 5 => (FFmt.f16.decode bits).exact
  | _ => shift (some ⟨fourBit (scale / 64) bits, -3⟩)

/-- The bits of element `i` of a row packed from byte `base` up (R80, R129, R298). -/
def elemBits (rd : Nat → Byte) (c base i : Nat) : Nat :=
  if c == 6 then (rd (base + i / 2)).toNat / (if i % 2 == 0 then 1 else 16) % 16
  else if codeBits c == 16 then leNat (bytesAt rd (base + 2 * i) 2)
  else (rd (base + i)).toNat

/-- Bytes of a row of n elements of a code. -/
def rowBytes (c n : Nat) : Nat := (n * codeBits c + 7) / 8

/-- A number rounded up to a multiple of `u`. -/
def roundUp (u x : Nat) : Nat := (x + u - 1) / u * u

/-- R88: the exponent of a block whose largest magnitude is m × 2^−q, for T. -/
def blockExp (t : Int) (m : Nat) (q : Int) : Nat :=
  if m == 0 then 32 else (min (max ((Nat.log2 m : Int) - q - t + 32) 0) 63).toNat

/-! Exact words in a block's accumulator memory. -/

/-- An accumulator word and its carry count; one nothing has written holds an unpredictable value (R65). -/
def Block.accGet (b : Block) (n : Nat) : BitVec 256 × BitVec 8 :=
  match b.acc.find? (fun x => x.n == n) with
  | some x => (x.w, x.carry)
  | none => (Config.coldAcc b.uid n, Config.coldCarry b.uid n)

/-- An accumulator word written. -/
def Block.accSet (b : Block) (n : Nat) (w : BitVec 256) (c : BitVec 8) : Block :=
  { b with acc := { n := n, w := w, carry := c } :: b.acc.filter (fun x => x.n != n) }

/-- R84: an addition of units of 2^−112, with the signed carry out of bit 255. -/
def exactAdd (w : BitVec 256) (c : BitVec 8) (u : Int) : BitVec 256 × BitVec 8 :=
  let sum := w.toInt + u
  (BitVec.ofInt 256 sum, c + BitVec.ofInt 8 ((sum + 2 ^ 255) / 2 ^ 256))

/-- An addition into an accumulator word. -/
def Block.accAdd (b : Block) (n : Nat) (u : Int) : Block :=
  let x := b.accGet n
  let y := exactAdd x.1 x.2 u
  b.accSet n y.1 y.2

/-- RoundTo of a number of units of 2^−q into a floating format, none of the IEEE exceptions raised (R85, R86): its
bits and whether it overflowed. -/
def roundUnits (F : FFmt) (mode : RMode) (r : Nat) (nosat : Bool) (u q : Int) : Nat × Bool :=
  let x := F.round mode r nosat (decide (u < 0)) false u.natAbs (-q)
  (x.bits, x.ovf)

/-- RoundTo of units of 2^−q into a signed integer of n bits (R85, R86). -/
def roundInts (n : Nat) (mode : RMode) (r : Nat) (u q : Int) : Nat × Bool :=
  let k := (roundGrid mode r (decide (u < 0)) false u.natAbs (-q) 0).1
  let v : Int := if u < 0 then -(k : Int) else k
  let lo : Int := -(2 ^ (n - 1))
  let hi : Int := 2 ^ (n - 1) - 1
  if v < lo then (intBits n lo, true) else if hi < v then (intBits n hi, true) else (intBits n v, false)

end Sys2Proof.Machine
end

