-- ==== Sys2Proof/Machine/Window.lean ====
section
/-! DEFINITION. Window.lean: operators as their windows show them: strides and rights (R132, R135, R138, R139),
slot order and slot states (R134, R136), and the fire (R137). -/

namespace Sys2Proof

/-- The bytes of an access (R242). -/
def Size.bytes : Size → Nat
  | .b8 | .i8 => 1
  | .b16 | .i16 => 2
  | .b32 => 4
  | .b64 => 8
  | .b128 => 16

/-- The registers a load writes (R243). -/
def Size.regs : Size → Nat
  | .b64 => 2
  | .b128 => 4
  | _ => 1

end Sys2Proof

namespace Sys2Proof.Machine

/-! Units (R380). Units are numbered: the collective sequencer 0, the merge unit of gang g 1 + 2g, its operator unit
2 + 2g. -/

/-- R413: MEAS_n := SHA-512(MEAS_n ‖ d). -/
def Boot.extend (b : Boot) (n : Nat) (d : List Byte) : Boot :=
  { b with meas := b.meas.set n (Config.sha512 (leBytes 64 ((b.meas[n]?).getD 0).toNat ++ d)) }

/-- R380: a unit serves a context: it holds that context's program or configuration. -/
def State.loadUnit (s : State) (unit ctx : Nat) (digest : BitVec 512) : State :=
  { s with sched := { s.sched with units := (unit, ctx) :: s.sched.units.filter (fun x => x.1 != unit) }
           boot := s.boot.extend 2 (leBytes 64 digest.toNat) }

/-- The firmware that loads a unit runs (R380, R414): for the sequencer some core's, else that of the gang's die. -/
def State.loader (s : State) (unit : Nat) : Bool :=
  if unit == 0 then s.firmware else s.firmwareOn ((unit - 1) / 2 / Config.dieGangs)

/-- The unit that an operation of a core keeps busy (R380). -/
def OpKind.unit (k : OpKind) (core : Nat) : Option Nat :=
  match k with
  | .coll _ _ _ _ _ _ none => some 0
  | .mgclose _ _ | .mgcommit _ _ | .mgread _ _ _ _ _ | .mgstable _ _ _ => some (1 + 2 * gangOf core)
  | _ => none

/-- The unit of an operator's gang. -/
def Operator.unit (o : Operator) : Nat := 2 + 2 * (o.num / 64)

/-- Operations of a unit for other contexts are in flight; for an operator unit, fires. -/
def State.unitBusy (s : State) (unit ctx : Nat) : Bool :=
  s.ops.any (fun o => o.ctx != ctx && o.kind.unit o.core == some unit) ||
  s.operators.any (fun o => o.unit == unit && o.owner != ctx && o.slotst.any (fun x => x.st == .fired))

/-- A request for a unit and a context still waits: a batch of the context, or a request to one of its operators. -/
def State.unitWanted (s : State) (unit ctx : Nat) : Bool :=
  s.runs.any (fun r => (s.blk r.blk).any (fun b => b.ctx == ctx)) ||
  s.operators.any (fun o => o.unit == unit && o.owner == ctx && (!o.waiting.isEmpty || s.posted.any (fun p => p.op == o.num) ||
    s.ops.any (fun x => match x.kind with | .resultLoad n _ _ _ _ _ _ => n == o.num | _ => false)))

/-- A unit is stopped for another context, whose request came before those of this one. -/
def State.unitStopped (s : State) (unit ctx : Nat) : Bool :=
  (s.sched.waits.takeWhile (fun x => !(x.1 == unit && x.2.1 == ctx))).any (fun x => x.1 == unit && s.unitWanted unit x.2.1)

/-- The load ends a unit's stop: its time is charged to the context (R380, R388). -/
def State.chargeLoad (s : State) (unit ctx : Nat) : State :=
  let since := ((s.sched.waits.find? (fun x => x.1 == unit && x.2.1 == ctx)).map (·.2.2)).getD s.devtime
  ({ s with sched := { s.sched with waits := s.sched.waits.filter (fun x => !(x.1 == unit && x.2.1 == ctx)) } }).updCtx ctx
    (fun c => { c with charge := c.charge + (s.devtime - since) + s.paceNs })

/-- A unit serves a context (R380): it holds that context's program, or the firmware loads it once the operations in flight
for others are complete; none while the request has to wait. DESIGN CHOICE, log entry 44. -/
def State.serve (s : State) (unit ctx : Nat) : Option State :=
  let mine := s.sched.units.contains (unit, ctx)
  if s.unitStopped unit ctx || (!mine && (s.unitBusy unit ctx || !s.loader unit)) then none
  else if mine then some s
  else some ((s.loadUnit unit ctx (Config.unitProgram unit ctx)).chargeLoad unit ctx)

/-- A unit that has to be loaded for a context stops accepting requests (R380). -/
def State.stopUnit (s : State) (unit ctx : Nat) : State :=
  if s.sched.units.contains (unit, ctx) || s.sched.waits.any (fun x => x.1 == unit && x.2.1 == ctx) then s
  else { s with sched := { s.sched with waits := s.sched.waits ++ [(unit, ctx, s.devtime)] } }

/-! Operators. -/

/-- An installed operator by its number. -/
def State.operator (s : State) (n : Nat) : Option Operator := s.operators.find? (fun o => o.num == n)

/-- An operator changed. -/
def State.updOp (s : State) (n : Nat) (f : Operator → Operator) : State :=
  { s with operators := s.operators.map (fun o => if o.num == n then f o else o) }

/-- Bytes of an input element (R132). -/
def Operator.inSize (o : Operator) : Nat := if o.ifmt == 0 then 2 else 1
/-- Bytes of an output element (R132). -/
def Operator.outSize (o : Operator) : Nat :=
  match o.ofmt with
  | 0 => 4
  | 3 => 1
  | _ => 2
/-- ISTRIDE and RSTRIDE (R132). -/
def Operator.istride (o : Operator) : Nat := roundUp 64 (o.cols * o.inSize)
def Operator.rstride (o : Operator) : Nat := roundUp 64 (o.rows * o.outSize + if o.ofmt == 3 then 1 else 0)

/-- Whether an entry names an agent (R138). -/
def Grant.names (g : Grant) (a : Agent) : Bool :=
  match a with
  | .ctx n => g.kind == 1 && g.id.toNat == n
  | .host p => g.kind == 2 && g.id == p.setWidth 24
  | .peer d c => g.kind == 3 && g.id == d ++ c

/-- The owner. -/
def Operator.isOwner (o : Operator) (a : Agent) : Bool := a == .ctx o.owner

/-- R138: an agent holds a right; `own` says whether the owner holds it. -/
def Operator.holds (o : Operator) (a : Agent) (own : Bool) (f : Grant → Bool) : Bool :=
  (o.isOwner a && own) || o.grants.any (fun g => g.names a && f g)

def Operator.canIn (o : Operator) (a : Agent) : Bool := o.holds a true (·.writeIn)
def Operator.canOut (o : Operator) (a : Agent) : Bool := o.holds a true (·.readOut)

/-- R139: the right a window access needs. -/
def Operator.mayDo (o : Operator) (a : Agent) (k : WinKind) : Bool :=
  match k with
  | .load _ _ => o.canOut a
  | _ => o.canIn a

/-- R133, R135, R255: the conditions of a window access: whole aligned elements of a store, nothing beyond the last
slot. -/
def Operator.fits (o : Operator) (k : WinKind) : Bool :=
  match k with
  | .store off d =>
    off % o.inSize == 0 && d.length % o.inSize == 0 && off + d.length ≤ o.slots * o.istride
  | .parts ps => ps.all (fun p => p.1 % o.inSize == 0 && p.2.length % o.inSize == 0 && p.1 + p.2.length ≤ o.slots * o.istride)
  | .fire off | .release off => off < o.slots * o.istride
  | .load off n => off + n ≤ o.slots * o.rstride

/-- An operator slot; one not listed is as `opbind` leaves it (R133). -/
def Operator.slot (o : Operator) (k : Nat) : OSlot :=
  (o.slotst.find? (fun x => x.k == k)).getD { k := k, st := .idle, elems := [], result := [], gen := 0, held := [] }

/-- A slot changed. -/
def State.putSlot (s : State) (op : Nat) (x : OSlot) : State :=
  s.updOp op (fun o => { o with slotst := x :: o.slotst.filter (fun y => y.k != x.k) })

/-! The fire (R137). -/

/-- Weight (i, j) (R129). -/
def Operator.weight (o : Operator) (i j : Nat) : Option Ex :=
  let rd (a : Nat) : Byte := (o.weights[a]?).getD 0
  let sc := ((o.scales[i * ((o.cols + 31) / 32) + j / 32]?).getD 0).toNat
  codeValue o.wfmt sc (elemBits rd o.wfmt (i * rowBytes o.wfmt o.cols) j)

/-- An input element's value: FP16, E4M3 or INT8 (R128, R129). -/
def Operator.input (o : Operator) (x : BitVec 16) : Option Ex :=
  match o.ifmt with
  | 0 => (FFmt.f16.decode x.toNat).exact
  | 1 => (FFmt.e4m3f.decode (x.toNat % 256)).exact
  | _ => some ⟨(x.setWidth 8).toInt, 0⟩

/-- Units of the exact sums: 2^−149 reaches every product and every bias. -/
def fireQ : Int := 149

/-- The exact sum of a row. -/
def Operator.rowSum (o : Operator) (xs : List (Nat × BitVec 16)) (i : Nat) : Int :=
  let dot := xs.foldl (fun (a : Int) x =>
    match o.weight i x.1, o.input x.2 with
    | some w, some v => a + (w.mul v).units fireQ
    | _, _ => a) 0
  if o.bias then
    match (FFmt.f32.decode (leNat ((o.biases.drop (4 * i)).take 4))).exact with
    | some b => dot + b.units fireQ
    | none => dot
  else dot

/-- The format of a result element. -/
def Operator.outFmt (o : Operator) : FFmt :=
  match o.ofmt with
  | 0 => FFmt.f32
  | 1 => FFmt.bf16
  | 2 => FFmt.f16
  | _ => FFmt.e4m3f

/-- R137: the result slot's bytes, the row whose result overflowed first, and whether an input was not finite. -/
def Operator.fire (o : Operator) (xs : List (Nat × BitVec 16)) : List Byte × Option Nat × Bool :=
  let bad := xs.any (fun x => (o.input x.2).isNone)
  let sums := (List.range o.rows).map (o.rowSum xs)
  let e := blockExp 7 ((sums.map Int.natAbs).foldl max 0) fireQ
  let one (v : Int) : Nat × Bool :=
    if bad then (o.outFmt.canon, false)
    else roundUnits o.outFmt .rne 0 false v (if o.ofmt == 3 then fireQ + ((e : Int) - 32) else fireQ)
  let outs := sums.map one
  let bytes := outs.flatMap (fun x => leBytes o.outSize x.1) ++
    (if o.ofmt == 3 then [if bad then 0x20 else BitVec.ofNat 8 e] else [])
  (bytes ++ List.replicate (o.rstride - bytes.length) 0,
    if bad then none else (outs.zipIdx.find? (fun x => x.1.2)).map (·.2), bad)

/-- The core that holds a row (R130). -/
def Operator.rowCore (o : Operator) (i : Nat) : Nat :=
  let n := Config.gangCores
  o.num / 64 * n + ((List.range n).find? (fun c => i < (c + 1) * o.rows / n)).getD 0

/-- The record of a fire's cause (R137). -/
def State.logFire (s : State) (o : Operator) (k cause row : Nat) : State :=
  s.logTo o.owner true
    (logBytes (BitVec.ofNat 64 s.devtime) (BitVec.ofNat 64 (o.num + 1024 * k)) 0 cause 0 (o.rowCore row) 0 true)

/-! Loads of results. -/

/-- The words a loaded value puts into its destination registers (R243). -/
def loadWords (sz : Size) (d : List Byte) : List Word :=
  let x := leNat d
  match sz with
  | .i8 => [(BitVec.ofNat 8 x).signExtend 32]
  | .i16 => [(BitVec.ofNat 16 x).signExtend 32]
  | .b8 | .b16 | .b32 => [BitVec.ofNat 32 x]
  | .b64 => [BitVec.ofNat 32 x, BitVec.ofNat 32 (x / 2 ^ 32)]
  | .b128 => (List.range 4).map (fun i => BitVec.ofNat 32 (x / 2 ^ (32 * i)))

/-- A slot of a spindle still waits for a result load. -/
def State.loadsOf (s : State) (uid m k : Nat) : Bool :=
  s.ops.any (fun o => o.blk == uid && o.m == m && o.slots.contains k &&
    (match o.kind with | .resultLoad _ _ _ _ _ _ _ => true | _ => false))

/-- The batch of threads parked on results runs on when the last of its loads has been served. -/
def State.wakeResults (s : State) (uid m : Nat) : State :=
  s.updSp uid m (fun sp =>
    let waits (g : Nat) : Bool := sp.threads.zipIdx.any (fun x => x.1.grp == g && s.loadsOf uid m x.2)
    { sp with threads := sp.threads.map (fun t =>
        match t.st with
        | .parked (.result _) => if waits t.grp then t else t.past
        | _ => t) })

/-- A parked thread takes a halting fault at its parking instruction (R35, R136, R141). -/
def State.trapThread (s : State) (uid m k : Nat) (cause : Trap) (detail : Dword) : State :=
  match s.blk uid with
  | none => s
  | some b =>
    (s.updThr uid m k (fun t => { t with st := .halted, before := .ready, stop := some ⟨cause, detail⟩ })).haltCtx b.ctx cause

/-- The thread that waits for an operation takes it. -/
def State.trapParked (s : State) (o : Op) (cause : Trap) (detail : Dword) : State :=
  (s.dropOp o).trapThread o.blk o.m (o.slots.headD 0) cause detail

/-- A block is saved. -/
def State.saved (s : State) (uid : Nat) : Bool := ((s.blk uid).map (·.evicted)).getD false

/-- The thread of a saved block that waits for a load wakes, to issue it again when its block is back (R39, R142). -/
def State.wakeSaved (s : State) (o : Op) : State :=
  (s.dropOp o).updThr o.blk o.m (o.slots.headD 0) (fun t => match t.st with
    | .parked (.result _) => { t with st := .ready }
    | _ => t)

/-- A pop; `back` is the entry read from its home (R273). -/
def Thread.pop (t : Thread) (back : Option Dword) : Thread :=
  { t with st := .ready, pc := t.rs.headD 0, rsd := t.rsd - 1
           rs := t.rs.drop 1 ++ (match back with | some x => [x] | none => []) }

/-- The thread that waits for the fill of its return stack returns (R273). -/
def State.wakeRet (s : State) (o : Op) (v : Dword) : State :=
  (s.dropOp o).updThr o.blk o.m (o.slots.headD 0) (fun t => match t.st with
    | .parked (.result _) => { (t.pop (some v)) with mid := none, served := [] }
    | _ => t)

/-- The bytes of one slot laid into a load at the positions of its pieces: offset within the slot, length, position. -/
def layPieces (got res : List Byte) (ps : List (Nat × Nat × Nat)) : List Byte :=
  ps.foldl (fun g p => overlay 0 g p.2.2 ((res.drop p.1).take p.2.1)) got

/-- A parked or joining load of a spindle receives the bytes of the slot it stands at, at one point of its order (R134). -/
def State.serveLoad (s : State) (id : Nat) (slotBytes : List Byte) : State :=
  match s.ops.find? (fun o => o.id == id) with
  | none => s
  | some o =>
    match o.kind with
    | .resultLoad op parts dst sz got va sc =>
      if s.saved o.blk then s.wakeSaved o else
      let got := layPieces got slotBytes ((parts.head?.map (·.2)).getD [])
      let parts := parts.tail
      if parts.isEmpty then
        let s := s.acquire o.core sc
        match dst with
        | none => s.wakeRet o (BitVec.ofNat 64 (leNat got))
        | some dst =>
          let ws := (loadWords sz got).zipIdx.map (fun w => ({ slot := o.slots.headD 0, reg := dst + w.2, val := w.1 } : RegW))
          (s.setKind id (.regs ws)).wakeResults o.blk o.m
      else s.setKind id (.resultLoad op parts dst sz got va sc)
    | _ => s

/-- A host agent's refused access (R139): completer abort, with one record in the owner's error log. -/
def State.refuseHost (s : State) (owner : Nat) (r : HostWinReq) : State :=
  { s.logError owner 0x41 0 with out := s.out ++ [.winAbort r] }

/-- A load parked at a slot takes its window violation (R136, R141). -/
def State.failLoad (s : State) (owner : Nat) (h : Held) : State :=
  match h with
  | .load id =>
    match s.ops.find? (fun o => o.id == id) with
    | some o =>
      match o.kind with
      | .resultLoad _ _ _ _ _ va _ => if s.saved o.blk then s.wakeSaved o else s.trapParked o .window va
      | _ => s
    | none => s
  | .hostLoad r => s.refuseHost owner r
  | .peerLoad r _ => { s.logError owner 0x45 0 with out := s.out ++ [.peerReject r] }
  | _ => s

/-- A parked load is served with a slot's result. -/
def State.giveLoad (s : State) (res : List Byte) (stride : Nat) (h : Held) : State :=
  match h with
  | .load id => s.serveLoad id res
  | .hostLoad r =>
    match r.kind with
    | .load off len => { s with out := s.out ++ [.winData r ((res.drop (off % stride)).take len)] }
    | _ => s
  | .peerLoad r ps => { s with out := s.out ++ ps.map (fun p => .peerReply r ((res.drop p.1).take p.2)) }
  | _ => s

/-- Loads among held requests. -/
def Held.isLoad : Held → Bool
  | .load _ | .hostLoad _ | .peerLoad _ _ => true
  | _ => false

/-! Slot order (R136). -/

/-- The elements of a store of bytes at an offset within the slot; padding is ignored (R135). -/
def Operator.elemsOf (o : Operator) (off : Nat) (d : List Byte) : List (Nat × BitVec 16) :=
  (List.range (d.length / o.inSize)).filterMap (fun i =>
    let e := off / o.inSize + i
    if e < o.cols then some (e, BitVec.ofNat 16 (leNat ((d.drop (i * o.inSize)).take o.inSize))) else none)

/-- The elements that the parts of one store give a slot. -/
def Operator.elemsIn (o : Operator) (ps : List (Nat × List Byte)) : List (Nat × BitVec 16) :=
  ps.flatMap (fun p => o.elemsOf p.1 p.2)

/-- A merge (R136): a later store of an element overwrites the earlier. -/
def mergeElems (old new : List (Nat × BitVec 16)) : List (Nat × BitVec 16) :=
  new.foldl (fun acc x => x :: acc.filter (fun y => y.1 != x.1)) old

/-- Fire, if the mask is full. -/
def Operator.fireIfFull (o : Operator) (x : OSlot) : OSlot :=
  if x.elems.length == o.cols then { x with st := .fired, gen := x.gen + 1 } else x

/-- A store joins (R136), merged whole, the offsets of its parts counted within the slot. -/
def State.joinStore (s : State) (op k : Nat) (ps : List (Nat × List Byte)) : State :=
  match s.operator op with
  | none => s
  | some o =>
    let x := o.slot k
    match x.st with
    | .fired => s.putSlot op { x with held := x.held ++ [.store ps] }
    | .filling => s.putSlot op (o.fireIfFull { x with elems := mergeElems x.elems (o.elemsIn ps) })
    | .idle | .ready =>
      s.putSlot op (o.fireIfFull { x with st := .filling, result := [], elems := mergeElems [] (o.elemsIn ps) })

/-- A `wfire` joins. -/
def State.joinFire (s : State) (op k : Nat) : State :=
  match s.operator op with
  | none => s
  | some o =>
    let x := o.slot k
    match x.st with
    | .fired => s.putSlot op { x with held := x.held ++ [.fire] }
    | .filling => s.putSlot op { x with st := .fired, gen := x.gen + 1 }
    | .idle | .ready => s

/-- A `wrel` joins (R136); in FILLING its parked loads take a window violation. In READY it discards the element mask with
the result: DESIGN CHOICE, log entry 66. -/
def State.joinRelease (s : State) (op k : Nat) : State :=
  match s.operator op with
  | none => s
  | some o =>
    let x := o.slot k
    match x.st with
    | .fired => s.putSlot op { x with held := x.held ++ [.release] }
    | .filling => x.held.foldl (fun t h => t.failLoad o.owner h) (s.putSlot op { x with st := .idle, elems := [], held := [] })
    | .ready => s.putSlot op { x with st := .idle, elems := [], result := [] }
    | .idle => s

/-- A load of result bytes joins: served, parked, or a window violation. DESIGN CHOICE, log entry 19. -/
def State.joinLoad (s : State) (op k : Nat) (h : Held) : State :=
  match s.operator op with
  | none => s
  | some o =>
    let x := o.slot k
    match x.st with
    | .idle => s.failLoad o.owner h
    | .filling | .fired => s.putSlot op { x with held := x.held ++ [h] }
    | .ready => s.giveLoad x.result o.rstride h

/-- A held request proceeds. -/
def State.joinHeld (s : State) (op k : Nat) (h : Held) : State :=
  match h with
  | .store ps => s.joinStore op k ps
  | .fire => s.joinFire op k
  | .release => s.joinRelease op k
  | h => s.joinLoad op k h

/-- A fire completes (R136, R137): the result is present, parked loads are served, held requests proceed. Its record names
the core of the first row that overflows, or row 0's core for a non-finite input: DESIGN CHOICE, log entry 67. -/
def State.completeFire (s : State) (op k : Nat) : State :=
  match s.operator op with
  | none => s
  | some o =>
    let x := o.slot k
    if x.st == .fired && o.resident then
      let (res, ovf, bad) := o.fire x.elems
      let s := s.putSlot op { x with st := .ready, result := res, held := [] }
      let s := if bad then s.logFire o k 0x13 0 else match ovf with
        | some row => s.logFire o k 0x10 row
        | none => s
      let loads := x.held.filter Held.isLoad
      let rest := x.held.filter (fun h => !h.isLoad)
      let s := loads.foldl (fun t h => t.giveLoad res o.rstride h) s
      rest.foldl (fun t h => t.joinHeld op k h) s
    else s

/-- The pieces of a window request, one per slot it touches (R134): slot, offset within it, length, position. -/
def slotPieces (stride off n : Nat) : List (Nat × Nat × Nat × Nat) :=
  (cutAt stride (n / stride + 2) off n).map (fun p => (p.1 / stride, p.1 % stride, p.2, p.1 - off))

/-- A number put into a rising list without repeats. -/
def putNat (x : Nat) : List Nat → List Nat
  | [] => [x]
  | y :: r => if x < y then x :: y :: r else if x == y then y :: r else y :: putNat x r

/-- The pieces of the parts of an access, each part an operator offset and a length, from a position on: slot, offset within
it, length, position. -/
def partPieces (stride : Nat) : Nat → List (Nat × Nat) → List (Nat × Nat × Nat × Nat)
  | _, [] => []
  | at_, (off, n) :: r =>
    (slotPieces stride off n).map (fun p => (p.1, p.2.1, p.2.2.1, at_ + p.2.2.2)) ++ partPieces stride (at_ + n) r

/-- They stand by slot, the lower first: an access acts on each slot at one point (R134). -/
def slotParts (stride : Nat) (parts : List (Nat × Nat)) : List (Nat × List (Nat × Nat × Nat)) :=
  let ps := partPieces stride 0 parts
  ((ps.map (·.1)).foldl (fun l k => putNat k l) []).map (fun k => (k, (ps.filter (fun p => p.1 == k)).map (·.2)))

/-- A request joins slot order at its unit, the lower slot first. -/
def State.joinKind (s : State) (o : Operator) (k : WinKind) : State :=
  match k with
  | .store off d =>
    (slotPieces o.istride off d.length).foldl (fun t p =>
      t.joinStore o.num p.1 [(p.2.1, (d.drop p.2.2.2).take p.2.2.1)]) s
  | .parts ps => s.joinStore o.num ((ps.head?.map (·.1)).getD 0 / o.istride) (ps.map (fun p => (p.1 % o.istride, p.2)))
  | .fire off => s.joinFire o.num (off / o.istride)
  | .release off => s.joinRelease o.num (off / o.istride)
  | .load _ _ => s

/-- A posted request joins (R140). -/
def State.joinPosted (s : State) (p : Posted) : State :=
  match s.operator p.op with
  | some o => s.joinKind o p.kind
  | none => s

/-- The slot that a posted request joins. -/
def Operator.slotOf (o : Operator) (k : WinKind) : Nat :=
  match k with
  | .store a _ | .fire a | .release a => a / o.istride
  | .parts ps => (ps.head?.map (·.1)).getD 0 / o.istride
  | .load a _ => a / o.rstride

/-- The i-th posted request may join (R134, R140, R143): its operator is in the chucks, and no earlier request of its spindle
to its slot and none of a lower slot of its access waits. -/
def State.mayJoin (s : State) (i : Nat) (x : Posted) (o : Operator) : Bool :=
  o.bound && o.resident && !(s.posted.take i).any (fun y =>
    y.op == x.op && y.thr.map (fun t => (t.1, t.2.1)) == x.thr.map (fun t => (t.1, t.2.1)) &&
      (o.slotOf y.kind == o.slotOf x.kind || (x.grp != 0 && y.grp == x.grp)))

/-- It joins, once its unit serves the operator's owner (R380). -/
def State.joinAt (s : State) (i : Nat) : State :=
  match s.posted[i]? with
  | none => s
  | some x =>
    match s.operator x.op with
    | none => s
    | some o =>
      if s.mayJoin i x o then
        match s.serve o.unit o.owner with
        | some t => ({ t with posted := t.posted.take i ++ t.posted.drop (i + 1) }).joinPosted x
        | none => s.stopUnit o.unit o.owner
      else s

/-- `fence.win` and `wfence` (R140, R254): every posted request that satisfies a test joins, in order, as far as it may.
DESIGN CHOICE, log entry 23. -/
def State.joinAll (s : State) (t : Posted → Bool) : State :=
  (s.posted.filter t).foldl (fun (u : State) p => ((u.posted.findIdx? (fun x => x.id == p.id)).map u.joinAt).getD u) s

end Sys2Proof.Machine
end

