-- ==== Sys2Proof/Machine/Access.lean ====
section
/-! DEFINITION. Access.lean: a thread's accesses: the checks of R236 on every executing slot, and the performing of
loads, stores and atomics on each class of page (R109, R110, R243 to R249, R399). -/

namespace Sys2Proof.Machine

/-- A check of each slot in ascending order; the first failure decides (R236). -/
def checkSlots {α : Type} (f : Nat → Except Stop α) : List Nat → Except (Nat × Stop) (List (Nat × α))
  | [] => .ok []
  | k :: r =>
    match f k with
    | .error x => .error (k, x)
    | .ok a =>
      match checkSlots f r with
      | .error x => .error x
      | .ok l => .ok ((k, a) :: l)

/-- R133, R135, R139: the operator, its binding, the agent's right and the conditions of a window access. -/
def State.winRight (s : State) (a : Agent) (va : Dword) (mk : Nat → Nat → WinKind) (locs : List (Loc × Nat)) : Option Stop :=
  firstSome (locs.map (fun x =>
    match x.1 with
    | .win _ op off =>
      match s.operator op with
      | some o =>
        if o.bound && o.mayDo a (mk off x.2) && o.fits (mk off x.2) then none else some (Stop.trap .window va)
      | none => some (Stop.trap .window va)
    | _ => none))

/-- The moved-out operator an access reaches (R143). -/
def State.movedOut (s : State) (locs : List (Loc × Nat)) : Option Nat :=
  firstSome (locs.map (fun x =>
    match x.1 with
    | .win _ op _ => if ((s.operator op).map (fun o => o.resident)).getD true then none else some op
    | _ => none))

/-- The checks of one access of a thread (R236, R143). -/
def State.access (s : State) (e : Env) (va : Dword) (n : Nat) (ask : Ask) (mk : Nat → Nat → WinKind) :
    Except Stop (List (Loc × Nat)) :=
  match s.checkAccess (e.walker s) va n ask (s.winRight (.ctx e.b.ctx) va mk) with
  | .error x => .error x
  | .ok locs =>
    match s.movedOut locs with
    | some op => .error (.service va (some op))
    | none => .ok locs

/-- The window store an access would make, for its checks. -/
def mkStore (off n : Nat) : WinKind := .store off (List.replicate n 0)
def mkLoad (off n : Nat) : WinKind := .load off n
def mkFire (off _n : Nat) : WinKind := .fire off
def mkRelease (off _n : Nat) : WinKind := .release off

/-- The pages of `ld` (R110, R243, R245). -/
def askLd (k : AMod) (n : Nat) : Ask :=
  { allow := fun p =>
      if p.mtype == 4 || (p.mtype == 5 && k.pol == .ro) then some .window
      else if p.mtype == 6 && k.pol == .ro then some .protection else none
    perm := fun p => p.r
    own := fun ps => if pagesAlike ps && !(n == 16 && ps.any (fun p => p.mtype == 6)) then none else some .protection }

/-- The pages of `st` (R110, R245). -/
def askSt (k : AMod) (n : Nat) : Ask :=
  { allow := fun p => if p.mtype == 5 || (p.mtype == 4 && k.ord == .rel) then some .window else none
    perm := fun p => p.w
    own := fun ps => if pagesAlike ps && !(n == 16 && ps.any (fun p => p.mtype == 6)) then none else some .protection }

/-- The pages of an atomic (R110, R247); `al` says that its address is aligned. -/
def askAtom (al : Bool) : Ask :=
  { allow := fun p => if p.mtype == 4 || p.mtype == 5 then some .window else if p.mtype == 6 then some .protection else none
    perm := fun p => p.r && p.w
    own := fun ps => if pagesAlike ps && al then none else some .protection }

/-- The pages of `wfire` and `wrel` (R255). -/
def askWin : Ask :=
  { allow := fun p => if p.mtype == 4 then none else some .window
    perm := fun p => p.w
    own := fun _ => none }

/-! Uncorrectable lines (R399, R408). -/

/-- R408: the lowest slot whose store goes to one. -/
def State.downSlot (s : State) (l : List (Nat × List (Loc × Nat))) : Option (Nat × Nat) :=
  firstSome (l.map (fun x => (s.downLocs x.2).map (fun b => (x.1, b))))

/-- R236: the lowest slot whose data is uncorrectable. -/
def State.badSlot (s : State) (l : List (Nat × List (Loc × Nat))) : Option (Nat × Nat) :=
  firstSome (l.map (fun x => (s.badLocs x.2).map (fun b => (x.1, b))))

/-! Performing. -/

/-- The thread of a slot as a name, which an eviction and a readmission do not change. -/
def Env.name (e : Env) (k : Nat) : Nat × Nat × Nat := (e.b.uid, e.sp.m, k)

/-- The stream of a spindle's peer accesses (R394). -/
def Env.stream (e : Env) : StreamId := ⟨e.b.core, e.b.ctx, e.sp.spid⟩

/-- Free bytes: what a device, a peer or an aborted read returns. -/
def State.freeBytes (s : State) (a n : Nat) : List Byte × State :=
  ((List.range n).map (fun i => Config.deviceByte s.freeCtr (a + i)), { s with freeCtr := s.freeCtr + 1 })

/-- An MMIO load: a register of the part, or a device's (R362, R402). -/
def State.mmioLoad (s : State) (pa n : Nat) : List Byte × State :=
  match pclass pa with
  | .bar =>
    match s.readBar (pa - 0xC_0000_0000_0000) n with
    | some d => (d, s)
    | none => s.freeBytes pa n
  | _ => s.freeBytes pa n

/-- A register write among the turns. -/
def Turn.isWrite : Turn → Bool
  | .event (.registerWrite _ _) => true
  | _ => false

/-- An MMIO store: a register write of the part, the next turn behind the register writes already to come, so that every
later access of the thread follows it (R110, R169); or a device's. -/
def State.mmioStore (s : State) (pa : Nat) (d : List Byte) : State :=
  match pclass pa with
  | .bar =>
    { s with agenda := s.agenda.takeWhile Turn.isWrite ++
        .event (.registerWrite (pa - 0xC_0000_0000_0000) d) :: s.agenda.dropWhile Turn.isWrite }
  | _ => { s with out := s.out ++ [.deviceWrite pa d] }

/-- The bytes of a load's pieces outside the windows; `id` is the operation that waits for a peer. -/
def State.loadLocs (s : State) (e : Env) (pol : Pol) (k id : Nat) : List (Loc × Nat) → List Byte × State
  | [] => ([], s)
  | (l, n) :: r =>
    let (d, t) := match l with
      | .mem pa => s.loadPhys e.b.core pol pa n
      | .mmio pa => s.mmioLoad pa n
      | .peer dev pa =>
        let (d, t) := s.freeBytes pa n
        (d, t.sendPeer e.stream dev pa (.read n) (some id) (some (e.name k)))
      | _ => (List.replicate n 0, s)
    let (d2, u) := t.loadLocs e pol k id r
    (d ++ d2, u)

/-- A store's pieces outside the windows. -/
def State.storeLocs (s : State) (e : Env) (pol : Pol) (k : Nat) : List (Loc × Nat) → List Byte → State
  | [], _ => s
  | (l, n) :: r, d =>
    let t := match l with
      | .mem pa => s.storePhys e.die pol (e.b.core, e.sp.spid) pa (d.take n)
      | .mmio pa => s.mmioStore pa (d.take n)
      | .peer dev pa => s.sendPeer e.stream dev pa (.write (d.take n)) none (some (e.name k))
      | _ => s
    t.storeLocs e pol k r (d.drop n)

/-- A window request of a thread is posted, one per slot it touches (R134, R140). -/
def State.post (s : State) (e : Env) (k : Nat) (op : Nat) (kinds : List WinKind) : State :=
  { s with
    nextId := s.nextId + kinds.length
    posted := s.posted ++ kinds.zipIdx.map (fun w =>
      ({ id := s.nextId + w.2, op := op, agent := .ctx e.b.ctx, thr := some (e.name k), kind := w.1
         grp := if kinds.length ≤ 1 then 0 else s.nextId + 1 } : Posted)) }

/-- The operator ranges of window places, offset and length, those that go on from each other as one (R132, R134). -/
def winParts : List (Loc × Nat) → List (Nat × Nat)
  | [] => []
  | (.win _ _ off, n) :: r =>
    match winParts r with
    | (off', m) :: t => if off' == off + n then (off, n + m) :: t else (off, n) :: (off', m) :: t
    | [] => [(off, n)]
  | _ :: r => winParts r

/-- The stores that the bytes of a window store make: one into each slot, of all its bytes there (R134, R136). -/
def storeKinds (o : Operator) (parts : List (Nat × Nat)) (d : List Byte) : List WinKind :=
  (slotParts o.istride parts).map (fun x =>
    match x.2.map (fun p => (x.1 * o.istride + p.1, (d.drop p.2.2).take p.2.1)) with
    | [p] => .store p.1 p.2
    | ps => .parts ps)

/-- A window store of one thread: posted as one request for each slot it touches (R134). -/
def State.postStore (s : State) (e : Env) (k : Nat) (locs : List (Loc × Nat)) (d : List Byte) : State :=
  match locs with
  | (.win _ op _, _) :: _ =>
    match s.operator op with
    | some o => s.post e k op (storeKinds o (winParts locs) d)
    | none => s
  | _ => s

/-- A release of the thread waits for the acknowledgements it needs (R115, R157 to R160, R166): at `.dev` and
`.sys` every pending store of its die is acknowledged, and at `.sys` its peer requests are. -/
def State.release (s : State) (e : Env) (sc : Scope) : State :=
  match sc with
  | .dev => s.ack (fun p => p.die == dieOf e.b.core)
  | .sys =>
    let s := s.ack (fun p => p.die == dieOf e.b.core)
    { s with fabric := { s.fabric with outst := s.fabric.outst.filter (fun x =>
        !(x.op.isNone && !s.fabric.frozen.contains x.key && e.r.exec.any (fun k => x.thr == some (e.name k)))) } }.flushHeld
  | _ => s

/-- A thread's acquire (R113, R433). -/
def State.acq (s : State) (e : Env) (sc : Scope) : State := s.acquire e.b.core sc

/-- A whole access lies in a window. -/
def isWin (locs : List (Loc × Nat)) : Bool :=
  match locs with
  | (.win _ _ _, _) :: _ => true
  | _ => false

end Sys2Proof.Machine
end

