-- ==== Sys2Proof/Machine/Memory.lean ====
section
/-! DEFINITION. Memory.lean: loads, stores, atomics, local accesses, window requests, presence and counters
(R236 to R257); `fence` and `wfence` stand in Complete.lean. -/

namespace Sys2Proof.Machine

/-- The bytes that a store's data operand gives (R244). -/
def Env.data (e : Env) (sz : Size) (x : Sel) (k : Nat) : List Byte :=
  match sz with
  | .b128 =>
    match x with
    | .v n => (List.range 4).flatMap (fun i => leBytes 4 (e.sp.vword (n.toNat + i) k).toNat)
    | _ => List.replicate 16 0
  | .b64 => leBytes 8 (e.read true x k).toNat
  | sz => leBytes sz.bytes (e.read false x k).toNat

/-! Global loads and stores. -/

/-- A slot's result load is issued, and waits for its join (R136, R140). -/
def State.issueResult (s : State) (e : Env) (k : Nat) (locs : List (Loc × Nat)) (sz : Size) (d : Option Nat) (va : Dword) (sc : Scope) : State :=
  match locs with
  | (.win _ op _, _) :: _ =>
    let stride := ((s.operator op).map (·.rstride)).getD 64
    s.addOp e [k] (.resultLoad op (slotParts stride (winParts locs)) d sz (List.replicate sz.bytes 0) va sc)
  | _ => s

/-- The batch stands behind a result load that some of its slots wait for (R34). -/
def State.parkResults (s : State) (e : Env) (first : Nat) : State := s.park e e.r.exec (fun _ => .result first)

/-- The values of the slots that load outside the windows, in ascending order. `i` numbers the operations. -/
def State.loadSlots (s : State) (e : Env) (pol : Pol) (i : Nat) : List (Nat × List (Loc × Nat)) → List (Nat × List Byte) × State
  | [] => ([], s)
  | (k, locs) :: r =>
    let (d, t) := s.loadLocs e pol k i locs
    let (l, u) := t.loadSlots e pol (i + 1) r
    ((k, d) :: l, u)

/-- The bytes loaded by a slot. -/
def bytesOf (l : List (Nat × List Byte)) (k : Nat) : List Byte := ((l.find? (fun x => x.1 == k)).map (·.2)).getD []

/-- R243. -/
def execLd (d : BitVec 7) (k : AMod) (sz : Size) (m : MemOp) (s : State) : Out :=
  s.within (fun e =>
    match checkSlots (fun j => s.access e (e.gaddr m sz.bytes j) sz.bytes (askLd k sz.bytes) mkLoad) e.r.exec with
    | .error (j, x) => s.stopped e j false x
    | .ok l =>
      match s.badSlot l with
      | some (j, b) => s.trap e j .uncorrectable (BitVec.ofNat 64 (128 * b))
      | none =>
        let plain := l.filter (fun x => !isWin x.2)
        let wins := l.filter (fun x => isWin x.2)
        let s := s.acq e k.sc
        let (vals, s) := s.loadSlots e k.pol s.nextId plain
        let s := s.issueRegsAt e (plain.map (·.1)) d.toNat sz.regs (fun j => loadWords sz (bytesOf vals j))
        if wins.isEmpty then s
        else
          let first := s.nextId
          let s := wins.foldl (fun t x => t.issueResult e x.1 x.2 sz (some d.toNat) (e.gaddr m sz.bytes x.1) k.sc) s
          s.parkResults e first)

/-- R244, R245. -/
def execSt (k : AMod) (sz : Size) (m : MemOp) (data : Sel) (s : State) : Out :=
  s.within (fun e =>
    match checkSlots (fun j => s.access e (e.gaddr m sz.bytes j) sz.bytes (askSt k sz.bytes) mkStore) e.r.exec with
    | .error (j, x) => s.stopped e j true x
    | .ok l =>
      match s.downSlot l with
      | some (j, b) => s.trap e j .uncorrectable (BitVec.ofNat 64 (128 * b))
      | none =>
        let s := if k.ord == .rel then s.release e k.sc else s
        l.foldl (fun t x =>
          if isWin x.2 then t.postStore e x.1 x.2 (e.data sz data x.1)
          else t.storeLocs e k.pol x.1 x.2 (e.data sz data x.1)) s)

/-! Atomics (R247 to R249). -/

/-- R248: the new value of a w-bit word, and the exceptions of `.fadd`. -/
def atomNew (op : AOp) (wide : Bool) (old v d : Nat) : Nat × Exc :=
  let w := if wide then 64 else 32
  let sg (x : Nat) : Int := if 2 ^ (w - 1) ≤ x then (x : Int) - 2 ^ w else x
  match op with
  | .add => ((old + v) % 2 ^ w, 0)
  | .min => (if sg v < sg old then v else old, 0)
  | .max => (if sg old < sg v then v else old, 0)
  | .minu => (min old v, 0)
  | .maxu => (max old v, 0)
  | .and => (old &&& v, 0)
  | .or => (old ||| v, 0)
  | .xor => (old ^^^ v, 0)
  | .exch => (v, 0)
  | .cas => (if old == d then v else old, 0)
  | .inc => (if v ≤ old then 0 else old + 1, 0)
  | .fadd => (if wide then FFmt.f64 else FFmt.f32).add .rne false false old v

/-- The old value of an atomic's address as it is performed (R109, R147): at the die L2, or at the home. -/
def State.atomRead (s : State) (e : Env) (pol : Pol) (pa n : Nat) : List Byte × State :=
  let s := s.takeLine e.die (lineOf pa) true
  let s := if pol == .sys then (s.refresh (lineOf pa)).ackLine (lineOf pa) else s
  (bytesAt (s.view e.die) pa n, s)

/-- One slot's read-modify-write; `f` gives the new bytes, which every die sees at once (R158). On a peer the new value is
computed there and the old one is free. DESIGN CHOICE, log entry 11. -/
def State.atomOne (s : State) (e : Env) (k : AMod) (slot : Nat) (id : Option Nat) (locs : List (Loc × Nat)) (n : Nat)
    (f : List Byte → List Byte) (pk : PeerKind) : List Byte × State :=
  match locs with
  | (.mem pa, _) :: _ =>
    let (old, s) := s.atomRead e k.pol pa n
    (old, (s.storePhys e.die k.pol (e.b.core, e.sp.spid) pa (f old)).ackLine (lineOf pa))
  | (.peer dev pa, _) :: _ =>
    let (old, s) := s.freeBytes pa n
    (old, s.sendPeer e.stream dev pa pk id (some (e.name slot)))
  | _ => ([], s)

/-- The launch of the block has DET set (R248). -/
def State.det (s : State) (b : Block) : Bool := ((s.launch b.launch).map (fun l => l.det)).getD false

/-- R247, R248. -/
def execAtom (d : Option (BitVec 7)) (k : AMod) (wide : Bool) (op : AOp) (m : MemOp) (data : Sel) (s : State) : Out :=
  s.within (fun e =>
    let n := if wide then 8 else 4
    if op == .fadd && s.det e.b then s.trap e e.low .illegalInsn 0
    else
      match checkSlots (fun j => s.access e (e.gaddr m n j) n (askAtom ((e.gaddr m n j).toNat % n == 0)) mkStore) e.r.exec with
      | .error (j, x) => s.stopped e j true x
      | .ok l =>
        match s.badSlot l with
        | some (j, b) => s.trap e j .uncorrectable (BitVec.ofNat 64 (128 * b))
        | none =>
          let s := if k.ord == .acqrel then (s.release e k.sc).acq e k.sc else s
          let id0 := s.nextId
          let step (acc : List (Nat × List Byte) × State) (x : Nat × List (Loc × Nat)) : List (Nat × List Byte) × State :=
            let v := (e.read wide data x.1).toNat
            let c := (match d with | some r => (e.read wide (.v r) x.1).toNat | none => 0)
            let (old, t) := acc.2.atomOne e k x.1 (if d.isSome then some (id0 + acc.1.length) else none) x.2 n
              (fun o => leBytes n (atomNew op wide (leNat o) v c).1) (.atomic op wide (e.read wide data x.1) (BitVec.ofNat 64 c))
            (acc.1 ++ [(x.1, old)], t.logExc e x.1 (atomNew op wide (leNat old) v c).2)
          let (vals, s) := l.foldl step ([], s)
          match d with
          | some r => s.issueRegs e r.toNat (if wide then 2 else 1) (fun j => loadWords (if wide then .b64 else .b32) (bytesOf vals j))
          | none => s)

/-- R249: the units an operand adds and the cause it logs. -/
def exactUnits (wide flt : Bool) (v : Dword) : Int × Option Nat :=
  let lim (u : Int) : Int × Option Nat := if u ≤ -(2 ^ 255) || 2 ^ 255 ≤ u then (0, some 0x11) else (u, none)
  if flt then
    match (if wide then FFmt.f64 else FFmt.f32).decode v.toNat with
    | .fin neg mg ex =>
      let k := (roundGrid .rne 0 neg false mg (ex + 112) 0).1
      lim (if neg then -(k : Int) else k)
    | _ => (0, some 0x13)
  else lim ((if wide then v.toInt else (lo32 v).toInt) * 2 ^ 112)

/-- R249. -/
def execAtomx (k : AMod) (wide flt : Bool) (m : MemOp) (data : Sel) (s : State) : Out :=
  s.within (fun e =>
    match checkSlots (fun j => s.access e (e.gaddr m 32 j) 32 (askAtom ((e.gaddr m 32 j).toNat % 32 == 0)) mkStore) e.r.exec with
    | .error (j, x) => s.stopped e j true x
    | .ok l =>
      match s.badSlot l with
      | some (j, b) => s.trap e j .uncorrectable (BitVec.ofNat 64 (128 * b))
      | none =>
        let s := if k.ord == .acqrel then (s.release e k.sc).acq e k.sc else s
        l.foldl (fun t x =>
          let (u, cause) := exactUnits wide flt (e.read wide data x.1)
          let t := match cause with | some c => t.logArith e c x.1 false | none => t
          let add (o : List Byte) : Int := (BitVec.ofNat 256 (leNat o)).toInt + u
          let (old, t) := t.atomOne e k x.1 none x.2 32 (fun o => leBytes 32 (BitVec.ofInt 256 (add o)).toNat)
            (.exact u)
          if add old < -(2 ^ 255) || 2 ^ 255 ≤ add old then t.logArith e 0x11 x.1 false else t) s)

/-! Local accesses (R246). -/

/-- The local bounds check (R117). -/
def Env.localOk (e : Env) (a n : Nat) : Except Stop Nat :=
  if a + n ≤ e.b.lsize then .ok a else .error (.trap .protection (BitVec.ofNat 64 a))

/-- R121: the absent stash lines with no fill pending among some lines. -/
def Block.unfilled (b : Block) (ls : List Nat) : List Nat :=
  (ls.filter (fun l => !b.present l && b.fillCount l == 0 && (b.stashAt (128 * l)).isSome)).eraseDups

/-- The virtual address of a local stash line. -/
def Block.stashVa (b : Block) (l : Nat) : Dword :=
  match b.stashAt (128 * l) with
  | some m => m.v + BitVec.ofNat 64 (128 * l - m.l)
  | none => 0

/-- The pages of a stash fill (R120, R121): bed, stock or host memory that the context may read. -/
def askStash : Ask :=
  { allow := fun p => if p.mtype < 3 then none else some .protection
    perm := fun p => p.r
    own := fun _ => none }

/-- The check of a fill's page (R36, R121). -/
def State.fillCheck (s : State) (e : Env) (l : Nat) : Except Stop Nat :=
  match s.checkAccess (e.walker s) (e.b.stashVa l) 128 askStash (fun _ => none) with
  | .error x => .error x
  | .ok _ => .ok l

/-- The lines that local accesses of n bytes touch. -/
def linesOf (l : List (Nat × Nat)) (n : Nat) : List Nat :=
  (l.flatMap (fun x => (linePieces x.2 n).map (fun p => lineOf p.1))).eraseDups

/-- Fills begin on lines. -/
def State.startFills (s : State) (uid : Nat) (ls : List Nat) : State :=
  s.updBlk uid (fun b => ls.foldl (fun b l => b.fillStart l) b)

/-- Stash fills begin, started by the clause in progress (R121, R390). -/
def State.stashFills (s : State) (e : Env) (ls : List Nat) : State :=
  (s.startFills e.b.uid ls).updBlk e.b.uid (fun b =>
    { b with fillBy := b.fillBy ++ ls.map (fun l => { line := l, hdr := e.r.hdr, spid := e.sp.spid }) })

/-- The physical line of a local stash line. -/
def State.stashLine (s : State) (b : Block) (l : Nat) : Option Nat :=
  match s.checkAccess (s.walkerOf b.core b.ctx) (b.stashVa l) 128 askStash (fun _ => none) with
  | .ok ((.mem pa, _) :: _) => some (lineOf pa)
  | _ => none

/-- R236, R399: the lowest slot with an absent stash line whose global line is uncorrectable, and that line. -/
def State.badStash (s : State) (e : Env) (l : List (Nat × Nat)) (n : Nat) : Option (Nat × Nat) :=
  firstSome (l.map (fun x => firstSome ((linesOf [x] n).map (fun i =>
    if e.b.present i || (e.b.stashAt (128 * i)).isNone then none
    else (s.stashLine e.b i).bind (fun p => if s.badLine p then some (x.1, p) else none)))))

/-- A fill meets an uncorrectable line with no `ldl` to take it: a record of the copy engine, and the context halts (R399). -/
def State.fillHalt (s : State) (b : Block) (hdr : Dword) (spid line : Nat) : State :=
  let x : EngStop :=
    { ctx := b.ctx, hdr := hdr, core := b.core, spid := spid, cause := .uncorrectable, engine := 1, state := 0, amount := 0
      detail := BitVec.ofNat 64 (128 * line) }
  ({ s with engStops := s.engStops ++ [x] }).haltCtx b.ctx .uncorrectable

/-- The first local line whose fill cannot start, in slot order. -/
def State.fillsOk (s : State) (e : Env) (l : List (Nat × Nat)) (n : Nat) : Except (Nat × Stop) (List Nat) :=
  match checkSlots (fun j =>
      match checkSlots (s.fillCheck e) (e.b.unfilled (linesOf (l.filter (fun x => x.1 == j)) n)) with
      | .error (_, x) => .error x
      | .ok r => .ok (r.map (·.1))) (l.map (·.1)) with
  | .error x => .error x
  | .ok r => .ok (r.flatMap (·.2)).eraseDups

/-- Local bytes as the loads of a spindle see them: its own stores too that the others do not see yet (R156). -/
def Block.lread (b : Block) (m a n : Nat) : List Byte :=
  (b.late.filter (fun x => x.m == m)).foldl (fun d x => overlay a d x.addr x.data) (b.lbytes a n)

/-- R119, R246. -/
def execLdl (d : BitVec 7) (sz : Size) (m : MemOp) (s : State) : Out :=
  s.within (fun e =>
    match checkSlots (fun j => e.localOk (e.laddr m sz.bytes j) sz.bytes) e.r.exec with
    | .error (j, x) => s.stopped e j false x
    | .ok l =>
      match s.fillsOk e l sz.bytes with
      | .error (j, x) => s.stopped e j false x
      | .ok fills =>
        let missing := (linesOf l sz.bytes).filter (fun x => !e.b.present x)
        match s.badStash e l sz.bytes with
        | some (j, p) => s.trap e j .uncorrectable (BitVec.ofNat 64 (128 * p))
        | none =>
          if missing.isEmpty then
            s.issueRegs e d.toNat sz.regs (fun j => loadWords sz (e.b.lread e.sp.m (e.laddr m sz.bytes j) sz.bytes))
          else (s.stashFills e fills).park e e.r.exec (fun _ => .lines missing s.devtime))

/-- The bytes that an `stl` replaces may still be read by an `mma` until the thread's `opfence` (R162). One that stores
again to the same place keeps the oldest. DESIGN CHOICE, log entry 69. -/
def Block.hide (b : Block) (m slot a n : Nat) : Block :=
  if b.unseen.any (fun u => u.m == m && u.slot == slot && u.addr == a && u.old.length == n) then b
  else { b with unseen := { m := m, slot := slot, addr := a, old := b.lbytes a n } :: b.unseen }

/-- A local store is performed: the block's other threads see it, and a tile engine may still find what it replaced. -/
def State.seenStl (s : State) (uid : Nat) (x : LateStl) : State :=
  (s.updBlk uid (fun b => b.hide x.m x.slot x.addr x.data.length)).localWrite uid x.addr x.data

/-- The local stores of the spindles of a block that satisfy a test are performed, in order (R157). -/
def State.landNow (s : State) (uid : Nat) (p : Nat → Bool) : State :=
  match s.blk uid with
  | none => s
  | some b =>
    if b.late.any (fun x => p x.m) then
      (b.late.filter (fun x => p x.m)).foldl (fun t x => t.seenStl uid x)
        (s.updBlk uid (fun b => { b with late := b.late.filter (fun x => !p x.m) }))
    else s

/-- From now on a spindle's stores to scratchpad are seen late (R151, R157, R331), or all are seen.
DESIGN CHOICE, log entry 11. -/
def State.slowStl (s : State) (uid m : Nat) : State :=
  s.updBlk uid (fun b => if b.slow.contains m || b.evicted then b else { b with slow := m :: b.slow })
def State.landStl (s : State) (uid m : Nat) : State :=
  (s.landNow uid (· == m)).updBlk uid (fun b => { b with slow := b.slow.filter (· != m) })

/-- A load of a spindle comes behind its late stores, so that they keep the order in which it saw them (R153). -/
def State.sealStl (s : State) (uid m : Nat) : State :=
  s.updBlk uid (fun b => { b with late := b.late.map (fun x => if x.m == m then { x with read := true } else x) })

/-- Two late stores may be performed in the other order (R145, R151): they are of different threads, and, where these are of
one spindle, no load of it has come behind the first, and two of one instruction share no byte. -/
def LateStl.passes (x y : LateStl) : Bool :=
  x.m != y.m || (x.slot != y.slot && !x.read &&
    (x.ins != y.ins || decide (x.addr + x.data.length ≤ y.addr ∨ y.addr + y.data.length ≤ x.addr)))

/-- Late store n + 1 of a block is performed ahead of store n. DESIGN CHOICE, log entry 11. -/
def State.swapStl (s : State) (uid n : Nat) : State :=
  s.updBlk uid (fun b =>
    match b.late[n]?, b.late[n + 1]? with
    | some x, some y => if x.passes y then { b with late := (b.late.set n y).set (n + 1) x } else b
    | _, _ => b)

/-- One slot's `stl`, of an instruction of this number: performed, or, to scratchpad by a spindle whose stores are seen late,
kept for its own loads. -/
def State.stlOne (s : State) (e : Env) (ins slot a : Nat) (d : List Byte) : State :=
  let x : LateStl := { m := e.sp.m, slot := slot, addr := a, data := d, ins := ins }
  let late (b : Block) : Bool := b.slow.contains e.sp.m && (linePieces a d.length).all (fun p => (b.stashAt p.1).isNone)
  if (s.blk e.b.uid).any late then s.updBlk e.b.uid (fun b => { b with late := b.late ++ [x] })
  else (s.landNow e.b.uid (· == e.sp.m)).seenStl e.b.uid x

/-- A store to a stash line of the boot region, which the part never writes (R411): the lowest slot, with the line's
virtual address. DESIGN CHOICE, log entry 73. -/
def State.regionStl (s : State) (e : Env) (l : List (Nat × Nat)) (n : Nat) : Option (Nat × Dword) :=
  firstSome (l.map (fun x => firstSome ((linesOf [x] n).map (fun i =>
    if (e.b.stashAt (128 * i)).isSome && (s.stashLine e.b i).any (fun p => s.inRegion (128 * p) 128) then some (x.1, e.b.stashVa i)
    else none))))

/-- R118, R121, R246: an `stl` waits only for stash lines. -/
def execStl (sz : Size) (m : MemOp) (data : Sel) (s : State) : Out :=
  s.within (fun e =>
    match checkSlots (fun j => e.localOk (e.laddr m sz.bytes j) sz.bytes) e.r.exec with
    | .error (j, x) => s.stopped e j true x
    | .ok l =>
      match s.fillsOk e l sz.bytes, s.regionStl e l sz.bytes with
      | .error (j, x), _ => s.stopped e j true x
      | .ok _, some (j, va) => s.trap e j .protection va
      | .ok fills, none =>
        let missing := (linesOf l sz.bytes).filter (fun x => !e.b.present x && (e.b.stashAt (128 * x)).isSome)
        if missing.isEmpty then
          let ins := e.b.late.foldl (fun n x => max n (x.ins + 1)) 0
          l.foldl (fun (t : State) x => t.stlOne e ins x.1 x.2 (e.data sz data x.1)) s
        else
          let s := s.park e e.r.exec (fun _ => .lines missing s.devtime)
          match s.badStash e l sz.bytes with
          | some (_, p) => s.fillHalt e.b e.r.hdr e.sp.spid p
          | none => s.stashFills e fills)

/-! Prefetch, the read-only path, durability. -/

/-- R252: a line with a lease for `.l1`; nothing else a value could show, and never a fault. -/
def execPref (pol : Pol) (m : MemOp) (s : State) : Out :=
  s.within (fun e =>
    e.r.exec.foldl (fun t k =>
      match t.access e (e.gaddr m 1 k) 1 { askLd ⟨pol, .no, .no⟩ 1 with allow := fun p => if p.mtype < 3 then none else some .window }
          mkLoad with
      | .ok ((.mem pa, _) :: _) =>
        if pol == .l1 && (t.badIn pa 1).isNone then (t.loadPhys e.b.core .l1 pa 1).2 else t
      | _ => t) s)

/-- R116, R251: the core's read-only copies are dropped, once per batch. -/
def execRoinv (s : State) : Out :=
  s.within (fun e => { s with coh := { s.coh with ro := s.coh.ro.filter (fun c => c.core != e.b.core) } })

/-- The pages of `persist` (R127, R253): stock or host pages with the persistence bit. -/
def askPersist : Ask :=
  { allow := fun p => if (p.mtype == 1 || p.mtype == 2) && p.p then none else some .protection
    perm := fun _ => true
    own := fun _ => none }

/-- R253: a slot's range, its address and length. -/
def State.persistRange (s : State) (e : Env) (va : Dword) (n : Nat) : Except Stop (List (Nat × Nat)) :=
  if n == 0 then .ok []
  else if 2 ^ 56 < va.toNat % 2 ^ 56 + n then .error (.trap .translation va)
  else
    match s.checkAccess (e.walker s) va n askPersist (fun _ => none) with
    | .error x => .error x
    | .ok locs => .ok (locs.filterMap (fun x => match x.1 with | .mem pa => some (pa, x.2) | _ => none))

/-- R127, R237, R253: performed when the operation completes. A range behind a link that is down fails (R408). -/
def execPersist (m : MemOp) (len : Sel) (s : State) : Out :=
  s.within (fun e =>
    match checkSlots (fun k => s.persistRange e (e.gaddr m 1 k) (e.readU len).toNat) e.r.exec with
    | .error (j, x) => s.stopped e j true x
    | .ok l =>
      match s.downSlot (l.map (fun x => (x.1, x.2.map (fun r => (Loc.mem r.1, r.2))))) with
      | some (j, b) => s.trap e j .uncorrectable (BitVec.ofNat 64 (128 * b))
      | none => s.addOp e e.r.exec (.persist (l.flatMap (·.2)) none))

/-! Window requests (R255). -/

/-- A `wfire` or `wrel`. -/
def State.winReq (s : State) (e : Env) (m : MemOp) (mk : Nat → Nat → WinKind) : State :=
  match checkSlots (fun k => s.access e (e.gaddr m 1 k) 1 askWin mk) e.r.exec with
  | .error (j, x) => s.stopped e j true x
  | .ok l =>
    l.foldl (fun t x => match x.2 with
      | (.win _ op off, _) :: _ => t.post e x.1 op [mk off 1]
      | _ => t) s

def execWfire (m : MemOp) (s : State) : Out := s.within (fun e => s.winReq e m mkFire)
def execWrel (m : MemOp) (s : State) : Out := s.within (fun e => s.winReq e m mkRelease)

/-- A posted request of a thread of the batch. -/
def Env.posted (e : Env) (p : Posted) : Bool := e.r.exec.any (fun k => p.thr == some (e.name k))

/-- R140, R254: the batch's window requests join slot order, and the operation completes when all have: one to a moved-out
operator waits for its restore (R143), one to a stopped unit for its load (R380). The batch's later events that the fence
orders wait with it: `all` for `wfence`. DESIGN CHOICE, log entry 23. -/
def State.winFence (s : State) (e : Env) (all : Bool) : State :=
  let s := s.joinAll e.posted
  s.addOp e e.r.exec (.winFence ((s.posted.filter e.posted).map (·.id)) all)

def execWfence (s : State) : Out := s.within (fun e => s.winFence e true)

/-! Presence and counters (R256, R257). -/

/-- R256: a slot's range. -/
def Env.pclrRange (e : Env) (a n : Nat) : Except Stop (List Nat) :=
  if n == 0 then .ok []
  else if e.b.lsize < a + n || e.b.stash.any (fun m => m.l < a + n && a < m.l + m.bytes) then
    .error (.trap .protection (BitVec.ofNat 64 a))
  else .ok ((linePieces a n).map (fun p => lineOf p.1))

def execPclr (m : MemOp) (len : Sel) (s : State) : Out :=
  s.within (fun e =>
    match checkSlots (fun k => e.pclrRange (e.laddr m 1 k) (e.readU len).toNat) e.r.exec with
    | .error (j, x) => s.stopped e j true x
    | .ok l => s.updBlk e.b.uid (fun b => (l.flatMap (·.2)).foldl (fun b x => b.clearLine x) b))

/-- R124, R257: a counter's address. -/
def Env.counterOk (e : Env) (a : Nat) : Except Stop Nat :=
  if a % 16 == 0 && a + 16 ≤ e.b.lsize && (e.b.stashAt a).isNone then .ok a
  else .error (.trap .protection (BitVec.ofNat 64 a))

def execArcset (base count target : Sel) (off : BitVec 16) (s : State) : Out :=
  s.within (fun e =>
    match checkSlots (fun k => e.counterOk (e.caddr base off k)) e.r.exec with
    | .error (j, x) => s.stopped e j true x
    | .ok l =>
      l.foldl (fun (t : State) x => t.updCounter e.b.uid x.2
        (leBytes 8 (e.read true count x.1).toNat ++ leBytes 8 (e.read true target x.1).toNat)) s)

def execArcadd (base addend : Sel) (off : BitVec 16) (s : State) : Out :=
  s.within (fun e =>
    match checkSlots (fun k => e.counterOk (e.caddr base off k)) e.r.exec with
    | .error (j, x) => s.stopped e j true x
    | .ok l =>
      l.foldl (fun (t : State) x => t.arcAdd e.b.uid x.2 (e.read true addend x.1).toNat) s)

end Sys2Proof.Machine
end

