-- ==== Sys2Proof/Machine/Copy.lean ====
section
/-! DEFINITION. Copy.lean: copies, the stash and the events of local presence (R34, R35, R118 to R124, R293 to
R295). -/

namespace Sys2Proof.Machine

/-- An engine detects a halting condition (R288, R389): its operation ends unperformed with a record of its own
cause, and the context halts. DEDUCED, log entry 25. -/
def State.engineHalt (s : State) (o : Op) (cause : Trap) (detail : Nat) : State :=
  let s := { s with engStops := s.engStops ++ [o.engStop cause ((o.kind.engine).getD 0) detail] }
  (s.dropOp o).haltCtx o.ctx cause

/-- A unit's engine meets an uncorrectable line while it serves a batch (R288, R399): nothing is performed, its record
holds the line, the issuing instruction takes no fault, and the context halts. -/
def State.unitHalt (s : State) (e : Env) (engine line : Nat) : State :=
  let x : EngStop :=
    { ctx := e.b.ctx, hdr := e.r.hdr, core := e.b.core, spid := e.sp.spid, cause := .uncorrectable, engine := engine, state := 0
      amount := 0, detail := BitVec.ofNat 64 (128 * line) }
  ({ s with engStops := s.engStops ++ [x] }).haltCtx e.b.ctx .uncorrectable

/-- Lines whose fills end, with the threads they held (R34, R118). -/
def State.endFill (s : State) (uid l : Nat) : State := s.updBlk uid (fun b => wakeLines (b.fillEnd l))

/-! Copies. -/

/-- A place moved on. -/
def locAdd (l : Loc) (n : Nat) : Loc :=
  match l with
  | .mem pa => .mem (pa + n)
  | .peer d pa => .peer d (pa + n)
  | .win r op off => .win r op (off + n)
  | .mmio pa => .mmio (pa + n)
  | .nowhere => .nowhere

/-- The packets of a copy of consecutive bytes: inside one page and one local line each. -/
def copySegs : List (Loc × Nat) → Dword → Nat → List CopySeg
  | [], _, _ => []
  | (l, n) :: r, va, la =>
    (linePieces la n).map (fun p =>
      ({ loc := locAdd l (p.1 - la), va := va + BitVec.ofNat 64 (p.1 - la), la := p.1, len := p.2 } : CopySeg)) ++
    copySegs r (va + BitVec.ofNat 64 n) (la + n)

/-- The pages of a copy (R293): bed, stock, host or peer. -/
def askCopy (out : Bool) : Ask :=
  { allow := fun p => if p.mtype < 4 then none else some .protection
    perm := fun p => if out then p.w else p.r
    own := fun _ => none }

/-- The local conditions of a copy: its range is scratchpad of the reservation (R117, R293), and so is its counter
(R124). -/
def Env.copyLocal (e : Env) (la n : Nat) (ctr : Option (BitVec 16)) : Option Stop :=
  if e.b.lsize < la + n || e.b.stash.any (fun m => m.l < la + n && la < m.l + m.bytes) then
    some (.trap .protection (BitVec.ofNat 64 la))
  else
    match ctr with
    | some c =>
      let a := 16 * c.toNat
      if a + 16 ≤ e.b.lsize && (e.b.stashAt a).isNone then none else some (.trap .protection (BitVec.ofNat 64 a))
    | none => none

/-- The rows of a copy checked and cut into packets: (virtual address, local address) of each row of `n` bytes. -/
def State.copyRows (s : State) (e : Env) (out : Bool) (n : Nat) : List (Dword × Nat) → Except Stop (List CopySeg)
  | [] => .ok []
  | (va, la) :: r =>
    match s.checkAccess (e.walker s) va n (askCopy out) (fun _ => none) with
    | .error x => .error x
    | .ok locs =>
      match s.copyRows e out n r with
      | .error x => .error x
      | .ok l => .ok (copySegs locs va la ++ l)

/-- One slot's copy: the operand limits, the global range by R236, then its local conditions. -/
def State.copyCheck (s : State) (e : Env) (out : Bool) (ctr : Option (BitVec 16)) (va : Dword) (la rows bytes pitch : Nat) :
    Except Stop (List CopySeg) :=
  match s.copyRows e out bytes ((List.range rows).map (fun r => (va + BitVec.ofNat 64 (r * pitch), la + r * bytes))) with
  | .error x => .error x
  | .ok l =>
    match e.copyLocal la (rows * bytes) ctr with
    | some x => .error x
    | none => .ok l

/-- The local lines of packets. -/
def segLines (l : List CopySeg) : List Nat := (l.map (fun x => lineOf x.la)).eraseDups

/-- A copy is issued for some slots: with DIR 0 each line it touches is absent with a fill pending (R118). -/
def State.issueCopy (s : State) (e : Env) (ks : List Nat) (out : Bool) (pol : Pol) (ctr : Option (BitVec 16)) (grp : Nat)
    (l : List CopySeg) : State :=
  if l.isEmpty then s
  else
    let s := if out then s else s.startFills e.b.uid (segLines l)
    s.addOp e ks (.copy out pol (ctr.map (fun c => 16 * c.toNat)) l (l.map (·.len)).sum grp)

/-- R293. -/
def execCpy (pol : Pol) (out : Bool) (ctr : Option (BitVec 16)) (l : Sel) (base off : Sel) (count : Sel) (s : State) : Out :=
  s.within (fun e =>
    match checkSlots (fun k =>
        let n := (e.read32 count k).toNat
        if 2 ^ 20 < n then .error (.trap .illegalOperand 0)
        else if n == 0 then .ok []
        else s.copyCheck e out ctr (e.gaddr ⟨base, off, 0⟩ 1 k) (e.read32 l k).toNat 1 n 0) e.r.exec with
    | .error (k, x) => s.stopped e k out x
    | .ok jobs => jobs.foldl (fun t x => t.issueCopy e [x.1] out pol ctr s.nextId x.2) s)

/-- R294: once per batch, its V operands read in the lowest executing slot (R288). -/
def execCpyw (pol : Pol) (out : Bool) (ctr : Option (BitVec 16)) (l : Sel) (base off : Sel) (shp : Sel) (s : State) : Out :=
  s.within (fun e =>
    let w := e.readU shp
    let pitch := (hi32 w).toNat
    let rows := (w.extractLsb' 16 16).toNat
    let bytes := (w.extractLsb' 0 16).toNat
    if rows == 0 || bytes == 0 || 2 ^ 20 < rows * bytes || pitch < bytes then s.trap e e.low .illegalOperand 0
    else
      match s.copyCheck e out ctr (e.gaddr ⟨base, off, 0⟩ 1 e.low) (e.read32 l e.low).toNat rows bytes pitch with
      | .error x => s.stopped e e.low out x
      | .ok segs => s.issueCopy e e.r.exec out pol ctr s.nextId segs)

/-- Bytes at which two places meet. -/
def locsMeet (x : Loc) (n : Nat) (y : Loc) (m : Nat) : Bool :=
  match x, y with
  | .mem a, .mem b => a < b + m && b < a + n
  | .peer d a, .peer f b => d == f && a < b + m && b < a + n
  | _, _ => false

/-- Bytes that two packets both write, whatever the pages they are reached through. -/
def segClash (out : Bool) (x y : CopySeg) : Bool :=
  if out then locsMeet x.loc x.len y.loc y.len
  else x.la < y.la + y.len && y.la < x.la + x.len

/-- Writes of one instruction to a byte are made in ascending slot and row order (R236, R293, R294): packets
issued before that write the same bytes. -/
def State.copyBefore (s : State) (o : Op) (out : Bool) (grp : Nat) (before : List CopySeg) (x : CopySeg) : Bool :=
  before.any (segClash out x) ||
  s.ops.any (fun p => p.id < o.id &&
    (match p.kind with
      | .copy out' _ _ segs _ g => g == grp && p.blk == o.blk && out' == out && segs.any (segClash out x)
      | _ => false))

/-- A request of an operation for some of the bytes of some places. -/
def PeerOut.isFor (x : PeerOut) (op : Nat) (locs : List (Loc × Nat)) : Bool :=
  x.op == some op && locs.any (fun l => match l.1 with
    | .peer dev pa => x.dev == dev && decide (pa ≤ x.addr.toNat) && decide (x.addr.toNat < pa + l.2)
    | _ => false)

/-- The requests of an operation for some places are acknowledged; others that waited for them may leave (R166). -/
def State.acked (s : State) (op : Nat) (locs : List (Loc × Nat)) : State :=
  { s with fabric := { s.fabric with outst := s.fabric.outst.filter (fun x => !x.isFor op locs) } }.flushHeld

/-- The stream of a spindle's operation (R394). -/
def Op.stream (o : Op) : StreamId := ⟨o.core, o.ctx, o.spid⟩

/-- A packet of a copy whose global bytes have been written, or have arrived: its bytes land, its local line may become
present, its counter gains them (R118, R124, R161). -/
def State.copyLand (s : State) (o : Op) (x : CopySeg) (rest : List CopySeg) (d : Option (List Byte)) : State :=
  match o.kind with
  | .copy out pol ctr _ bytes grp =>
    let s := match d with
      | some d =>
        let s := s.updBlk o.blk (fun b => (b.lwrite x.la d).seenAll x.la x.len)
        if rest.any (fun y => lineOf y.la == lineOf x.la) then s else s.endFill o.blk (lineOf x.la)
      | none => s
    let s := s.setKind o.id (.copy out pol ctr rest bytes grp)
    match ctr with
    | some a => s.arcAdd o.blk a x.len
    | none => s
  | _ => s

/-- A packet to or from a peer leaves, and is performed once the peer has acknowledged it, which it cannot while it waits at
this device or its stream is frozen (R125, R160, R166, R394). -/
def State.copyPeer (s : State) (o : Op) (x : CopySeg) (rest : List CopySeg) (out : Bool) (d : List Byte) (sent : OpKind) :
    Option State :=
  match x.loc with
  | .peer dev pa =>
    let at_ := [(x.loc, x.len)]
    if !x.sent then
      some ((s.setKind o.id sent).sendPeer o.stream dev pa (if out then .write d else .read x.len) (some o.id) none)
    else if s.fabric.held.any (fun h => h.x.isFor o.id at_) || s.fabric.frozen.contains o.stream then none
    else
      let got := (List.range x.len).map (fun i => Config.deviceByte s.freeCtr (pa + i))
      let s := s.acked o.id at_
      some (if out then s.copyLand o x rest none else ({ s with freeCtr := s.freeCtr + 1 }).copyLand o x rest (some got))
  | _ => none

/-- One packet performed (R161), at the home under `.sys` (R109). None while it has to wait. -/
def State.copyPacket (s : State) (o : Op) (n : Nat) : Option State :=
  match o.kind with
  | .copy out pol ctr segs bytes grp =>
    match segs[n]?, s.blk o.blk with
    | some x, some b =>
      if s.copyBefore o out grp (segs.take n) x || (out && !b.present (lineOf x.la)) then none
      else
        let rest := segs.take n ++ segs.drop (n + 1)
        match x.loc with
        | .mem pa =>
          match (if out then s.downIn pa x.len else s.badIn pa x.len) with
          | some l => some (s.engineHalt o .uncorrectable (128 * l))
          | none =>
            if out then some ((s.engineStore pa (b.lbytes x.la x.len) (pol == .sys)).copyLand o x rest none)
            else
              let (d, s) := s.engineLoad (some o.core) pa x.len (pol == .sys)
              some (s.copyLand o x rest (some d))
        | _ => s.copyPeer o x rest out (b.lbytes x.la x.len) (.copy out pol ctr (segs.set n { x with sent := true }) bytes grp)
    | _, _ => none
  | _ => none

/-- COPY_WRITE. -/
def execCopyWrite (op n : Nat) (s : State) : Out :=
  match s.ops.find? (fun o => o.id == op) with
  | some o => .next ((s.copyPacket o n).getD s)
  | none => .next s

/-! The stash (R120 to R123, R295). -/

/-- The status of `stmap`. DEDUCED, log entry 24. -/
def State.stmapStatus (s : State) (e : Env) (l : Nat) (v : Dword) (n : Nat) : Nat :=
  let unit (x : Nat) : Bool := x != 0 && x % 0x10000 == 0
  let lines := (List.range (n / 128)).map (fun i => l / 128 + i)
  let pages := s.pieces (e.walker s) v n
  if !unit l || !unit n || v.toNat % 128 != 0 then 1
  else if e.b.lsize < l + n then 2
  else if e.b.stash.any (fun m => m.l < l + n && l < m.l + m.bytes) || e.b.fills.any (fun f => lines.contains f.1) then 3
  else if pages.any (fun p => match p.wk with
      | .page g => !(decide (g.mtype < 3))
      | .service => false
      | .fail => true) then 4
  else 0

def execStmap (d : BitVec 6) (l v bytes : Sel) (s : State) : Out :=
  s.within (fun e =>
    let la := (e.readU l).toNat
    let n := (e.readU bytes).toNat
    let st := s.stmapStatus e la (e.readU v) n
    let s := if st != 0 then s
      else s.updBlk e.b.uid (fun b =>
        (List.range (n / 128)).foldl (fun b i => b.clearLine (la / 128 + i))
          { b with stash := b.stash ++ [{ l := la, v := e.readU v, bytes := n }] })
    s.addOp e e.r.exec (.stash d.toNat (BitVec.ofNat 64 st) none))

/-- Dirty lines of a local range are written back (R123). -/
def State.writeBack (s : State) (uid lo n : Nat) : State :=
  match s.blk uid with
  | none => s
  | some b =>
    let mine := b.owned.filter (fun x => b.dirty.contains x.1 && decide (lo ≤ 128 * x.1) && decide (128 * x.1 < lo + n))
    let s := mine.foldl (fun t x => t.stashBack b x) s
    s.updBlk uid (fun b => { b with dirty := b.dirty.filter (fun l => !mine.any (fun x => x.1 == l)) })

def execStflush (d : BitVec 6) (l bytes : Sel) (s : State) : Out :=
  s.within (fun e =>
    let la := (e.readU l).toNat
    let n := (e.readU bytes).toNat
    let ok := la % 128 == 0 && n % 128 == 0 && e.b.stash.any (fun m => m.l ≤ la && la + n ≤ m.l + m.bytes)
    let s := if ok then s.writeBack e.b.uid la n else s
    s.addOp e e.r.exec (.stash d.toNat (if ok then 0 else 5) none))

/-- `stunmap` waits for its fills; it is performed when it completes. -/
def execStunmap (d : BitVec 6) (l : Sel) (s : State) : Out :=
  s.within (fun e =>
    let la := (e.readU l).toNat
    if e.b.stash.any (fun m => m.l == la) then s.addOp e e.r.exec (.stash d.toNat 0 (some la))
    else s.addOp e e.r.exec (.stash d.toNat 5 none))

/-- A thread that the fill of a line serves has not made its access yet: it woke, or waits for a further line. -/
def Block.waitsOn (b : Block) (p : Nat → Bool) : Bool :=
  !b.evicted && b.spindles.any (fun sp => sp.threads.any (fun t =>
    match t.st with
    | .ready => t.served.any p
    | .parked (.lines ls _) => ls.any (fun l => p l && b.present l)
    | _ => false))

/-- The mapping is removed: dirty lines written back, every line scratchpad, absent, with no fill pending. None
while a fill is pending, or an access that a fill served has not yet been made (R295). -/
def State.unmapStash (s : State) (uid la : Nat) : Option State :=
  match s.blk uid with
  | none => some s
  | some b =>
    match b.stash.find? (fun m => m.l == la) with
    | none => some s
    | some m =>
      let inMap (l : Nat) : Bool := decide (m.l ≤ 128 * l) && decide (128 * l < m.l + m.bytes)
      if b.fills.any (fun f => inMap f.1) || b.waitsOn inMap then none
      else
        let s := s.writeBack uid m.l m.bytes
        some (s.updBlk uid (fun b =>
          (List.range (m.bytes / 128)).foldl (fun b i => b.clearLine (m.l / 128 + i))
            { b with stash := b.stash.filter (fun x => x.l != la), owned := b.owned.filter (fun x => !inMap x.1) }))

/-- A thread is parked on a line. -/
def Block.waitsFor (b : Block) (line : Nat) : Bool :=
  b.spindles.any (fun sp => sp.threads.any (fun t => match t.st with | .parked (.lines ls _) => ls.contains line | _ => false))

/-- The threads parked on a line issue their access again. -/
def Block.reissue (b : Block) (line : Nat) : Block :=
  { b with spindles := b.spindles.map (fun sp => { sp with threads := sp.threads.map (fun t =>
      match t.st with | .parked (.lines ls _) => if ls.contains line then { t with st := .ready } else t | _ => t) }) }

/-- STASH_FILL_COMPLETE (R118, R121): the directory grants the line once every store performed on it is acknowledged, so that
no reader of the stash sees one before the other dies can (R433), and the core's L1 gives its copy up (R158); its bytes
arrive, the line is present. Where the line is uncorrectable, the accesses that wait for it meet that as they issue again (R399). -/
def execStashFillComplete (blk line : Nat) (s : State) : Out :=
  match s.blk blk with
  | none => .next s
  | some b =>
    if b.fillCount line == 0 || (b.stashAt (128 * line)).isNone then .next s
    else
      let s := s.walked (s.walkerOf b.core b.ctx) (b.stashVa line) 128
      match s.stashLine b line with
      | none => .next s
      | some p =>
        let by_ := b.fillBy.find? (fun f => f.line == line)
        let s := s.updBlk blk (fun b => { b with fillBy := b.fillBy.filter (fun f => f.line != line) })
        if s.badLine p then
          let s := s.updBlk blk (fun b => { b with fills := b.fills.filter (fun f => f.1 != line) })
          if b.waitsFor line then .next (s.updBlk blk (fun b => b.reissue line))
          else .next (s.fillHalt b ((by_.map (·.hdr)).getD 0) ((by_.map (·.spid)).getD 0) p)
        else
          let s := ((s.takeLine (some (dieOf b.core)) p true).ackLine p).dropOwn b.core p
          let d := bytesAt (s.view (some (dieOf b.core))) (128 * p) 128
          let s := s.updBlk blk (fun b =>
            { b with lmem := Memory.setMany b.lmem (128 * line) d, owned := b.owned ++ [(line, p)] })
          .next (s.endFill blk line)

/-- STASH_RECALL (R122, R123): the directory takes a line back. -/
def execStashRecall (blk line : Nat) (s : State) : Out :=
  match s.blk blk with
  | none => .next s
  | some b => .next ((b.owned.filter (fun x => x.1 == line)).foldl (fun t x => t.recallFrom blk x) s)

/-! Orphan waits (R35, R288). -/

/-- A line that nothing will fill. -/
def Block.orphan (b : Block) (l : Nat) : Bool :=
  !b.present l && b.fillCount l == 0 && (b.stashAt (128 * l)).isNone

/-- The park limit of a context in nanoseconds. -/
def State.parkLimit (s : State) (n : Nat) : Nat := 1000 * ((s.ctx n).map (fun c => c.desc.parklim)).getD 0

end Sys2Proof.Machine
end

