-- ==== Sys2Proof/Machine/Operators.lean ====
section
/-! DEFINITION. Operators.lean: installing, binding and reading operators (R128 to R144, R307, R308), and the events
of their windows. -/

namespace Sys2Proof.Machine

/-- The bytes that places hold, as an engine of the issuing core reads them (R161), with the uncorrectable line met;
none where the access fails. -/
def State.fetchVirt (s : State) (e : Env) (va : Dword) (n : Nat) : Option (List Byte × Option Nat) × State :=
  let s := s.walked (e.walker s) va n
  match s.checkAccess (e.walker s) va n askRead (fun _ => none) with
  | .error _ => (none, s)
  | .ok locs =>
    let (d, t) := s.readLocs (some e.b.core) locs
    (some (d, s.badLocs locs), t)

/-- An operation uses a unit. One that holds another context's program is stopped, its operations in flight complete, and it
is loaded by the firmware; the batch is held until then (R380, R414). DESIGN CHOICE, log entry 44. -/
def State.withUnit (s : State) (e : Env) (unit : Nat) (f : State → State) : State :=
  match s.serve unit e.b.ctx with
  | some t => f t
  | none => (s.stopUnit unit e.b.ctx).hold e

/-- The bytes that a range holds as far as it can be read, 0 elsewhere, whether it can be read whole, and the uncorrectable
line met (R131). -/
def State.fetchPart (s : State) (e : Env) : List (Nat × Nat) → List Byte × Bool × Option Nat × State
  | [] => ([], true, none, s)
  | (a, n) :: r =>
    let (x, s) := s.fetchVirt e (BitVec.ofNat 64 a) n
    let (d, whole, bad, s) := s.fetchPart e r
    match x with
    | some (b, l) => (b ++ d, whole, firstSome [l, bad], s)
    | none => (List.replicate n 0 ++ d, false, bad, s)

/-- A range cut at its pages' smallest size. -/
def pageCuts (va : Dword) (n : Nat) : List (Nat × Nat) := cutAt 0x10000 (n / 0x10000 + 2) va.toNat n

/-- A field of a little-endian descriptor: bits [lo + n − 1 : lo]. -/
def bitsOf (d : List Byte) (lo n : Nat) : Nat := leNat d / 2 ^ lo % 2 ^ n

/-! Shares of the chucks (R130). -/

/-- Bytes of a row of weights with its scale bytes and bias. -/
def opRowBytes (wfmt cols : Nat) (bias : Bool) : Nat :=
  rowBytes wfmt cols + (if codeScaled wfmt then (cols + 31) / 32 else 0) + (if bias then 4 else 0)

/-- The rows that core c of a gang holds. -/
def shareRows (rows c : Nat) : Nat := (c + 1) * rows / Config.gangCores - c * rows / Config.gangCores

/-- Chuck bytes in use on core c of a gang, leaving out an operator. -/
def State.chuckUsed (s : State) (gang c : Nat) (but : Option Nat) : Nat :=
  ((s.operators.filter (fun o => o.num / 64 == gang && o.resident && some o.num != but)).map
    (fun o => shareRows o.rows c * opRowBytes o.wfmt o.cols o.bias)).sum

/-! `opinst` (R128 to R131, R138, R141). -/

/-- A grantee entry (R138). -/
def grantOf (w : Nat) : Grant :=
  { reinstall := w.testBit 31, readW := w.testBit 30, readOut := w.testBit 29, writeIn := w.testBit 28
    kind := BitVec.ofNat 2 (w / 2 ^ 26), id := BitVec.ofNat 24 w }

/-- A malformed entry among the eight; the owner counts as an entry of KIND 0b01. -/
def grantBad (owner : Nat) (ws : List Nat) : Bool :=
  let one (w : Nat) : Bool :=
    let g := grantOf w
    let width := match g.kind.toNat with | 1 => 12 | 2 => 20 | _ => 24
    if g.kind == 0 then w != 0
    else w / 2 ^ 24 % 4 != 0 || decide (2 ^ width ≤ g.id.toNat) || (g.kind == 1 && g.id.toNat == owner)
  let full := ws.filter (fun w => (grantOf w).kind != 0)
  ws.any one || !(decide ((full.map (fun w => ((grantOf w).kind, (grantOf w).id))).Nodup))

/-- The operator that a descriptor describes, without its weights. -/
def descOp (d : List Byte) (num owner : Nat) : Operator :=
  { num := num, owner := owner, rows := bitsOf d 0 16, cols := bitsOf d 16 16, slots := bitsOf d 32 13
    wfmt := bitsOf d 45 4, ifmt := bitsOf d 49 2, ofmt := bitsOf d 51 2, isOpaque := bitsOf d 54 1 == 1
    bias := bitsOf d 53 1 == 1, weights := [], scales := [], biases := []
    grants := ((List.range 8).map (fun i => grantOf (bitsOf d (256 + 32 * i) 32))).filter (fun g => g.kind != 0)
    bound := false, resident := true, slotst := [], waiting := [] }

/-- Shape, formats, SLOTS, OPAQUE and rights are equal (R141). -/
def Operator.alike (a b : Operator) : Bool :=
  a.rows == b.rows && a.cols == b.cols && a.slots == b.slots && a.wfmt == b.wfmt && a.ifmt == b.ifmt && a.ofmt == b.ofmt &&
  a.isOpaque == b.isOpaque && a.grants.all (fun g => b.grants.contains g) && b.grants.all (fun g => a.grants.contains g)

/-- A weight or bias value that was read is not finite (R131). -/
def Operator.notFinite (o : Operator) : Bool :=
  (!o.weights.isEmpty && (List.range o.rows).any (fun i => (List.range o.cols).any (fun j => (o.weight i j).isNone))) ||
  (List.range (o.biases.length / 4)).any (fun i =>
    (FFmt.f32.decode (leNat ((o.biases.drop (4 * i)).take 4))).exact.isNone)

/-- What an `opinst` comes to: a status, an operator to install, or an uncorrectable line. -/
inductive Install where
  | status (n : Nat)
  | put (o : Operator)
  | bad (line : Nat)
  deriving DecidableEq, Repr

/-- The statuses of R131 in the order of its table; `old` is the operator to reinstall. -/
def State.install (s : State) (e : Env) (va : Dword) (old : Option Operator) : Install × State :=
  if va.toNat % 64 != 0 then (.status 1, s)
  else
    match s.fetchVirt e va 64 with
    | (none, s) => (.status 7, s)
    | (some (_, some l), s) => (.bad l, s)
    | (some (d, none), s) =>
      let gang := match old with | some o => o.num / 64 | none => gangOf e.b.core
      let used := s.operators.filter (fun o => o.num / 64 == gang)
      let free := (List.range 64).find? (fun i => !used.any (fun o => o.num % 64 == i))
      let num := match old with | some o => o.num | none => gang * 64 + free.getD 0
      let owner := match old with | some o => o.owner | none => e.b.ctx
      let o := descOp d num owner
      let mism := match old with | some p => !o.alike p | none => false
      if bitsOf d 55 9 != 0 || !([0, 2, 3, 4, 5, 6].contains o.wfmt) || o.ifmt == 3 ||
          (o.bias && bitsOf d 192 64 % 4 != 0) || mism then (.status 1, s)
      else if o.rows == 0 || o.cols == 0 || o.slots == 0 || decide (4096 < o.slots) then (.status 2, s)
      else if (List.range Config.gangCores).any (fun c => decide (Config.chuckBytes <
          s.chuckUsed gang c (old.map (·.num)) + shareRows o.rows c * opRowBytes o.wfmt o.cols o.bias)) then (.status 3, s)
      else if old.isNone && free.isNone then (.status 4, s)
      else
        let get (s : State) (use : Bool) (lo n : Nat) : List Byte × Bool × Option Nat × State :=
          if use then s.fetchPart e (pageCuts (BitVec.ofNat 64 (bitsOf d lo 64)) n) else ([], true, none, s)
        let (w, wOk, wBad, s) := get s true 64 (o.rows * rowBytes o.wfmt o.cols)
        let (sc, scOk, scBad, s) := get s (codeScaled o.wfmt) 128 (o.rows * ((o.cols + 31) / 32))
        let (bi, biOk, biBad, s) := get s o.bias 192 (4 * o.rows)
        match firstSome [wBad, scBad, biBad] with
        | some l => (.bad l, s)
        | none =>
          let o := { o with weights := w, scales := sc, biases := bi }
          let gs := (List.range 8).map (fun i => bitsOf d (256 + 32 * i) 32)
          if o.notFinite then (.status 5, s)
          else if grantBad owner gs || (o.isOpaque && o.grants.any (·.readW)) then (.status 6, s)
          else if !wOk || !scOk || !biOk then (.status 7, s)
          else (.put o, s)

/-- An operator's loads that wait take a window violation, its FIRED slots' fires complete and are discarded
(R141). The requests held behind them are answered. -/
def State.endSlots (s : State) (o : Operator) : State :=
  o.slotst.foldl (fun t x =>
    let t := if x.st == .fired then
        let (_, ovf, bad) := o.fire x.elems
        if bad then t.logFire o x.k 0x13 0 else match ovf with
          | some row => t.logFire o x.k 0x10 row
          | none => t
      else t
    (x.held.filter Held.isLoad).foldl (fun u h => u.failLoad o.owner h) t) s

/-- R141: a reinstall: new weights, every slot IDLE, generations kept; the requests held behind a fire proceed. -/
def State.reinstall (s : State) (old new : Operator) : State :=
  let s := s.endSlots old
  let s := s.updOp old.num (fun o =>
    { o with weights := new.weights, scales := new.scales, biases := new.biases, bias := new.bias
             slotst := o.slotst.map (fun x => { x with st := .idle, elems := [], result := [], held := [] }) })
  old.slotst.foldl (fun t x => (x.held.filter (fun h => !h.isLoad)).foldl (fun u h => u.joinHeld old.num x.k h) t) s

/-- R308: an operand names an operator. -/
def State.operatorOf (s : State) (x : Dword) : Option Operator :=
  if x.toNat < 1024 then s.operator x.toNat else none

/-- R308, R139: a window violation of an operator instruction. It has no faulting address: its DETAIL is free.
DESIGN CHOICE, log entry 27. -/
def State.trapWin (s : State) (e : Env) : State :=
  let (v, s) := s.free
  s.trap e e.low .window v

/-- An operator instruction's operator, with its right; a moved-out one is a serviced fault (R143, R308). -/
def State.withOp (s : State) (e : Env) (x : Dword) (right : Operator → Bool) (f : Operator → State) : State :=
  match s.operatorOf x with
  | none => s.trapWin e
  | some o =>
    if !right o then s.trapWin e
    else if !o.resident then s.service e e.low 0 false (some o.num)
    else f o

/-- R307. -/
def execOpinst (d : BitVec 6) (re : Bool) (desc op : Sel) (s : State) : Out :=
  s.within (fun e =>
    let va := e.readU desc
    s.withUnit e (2 + 2 * gangOf e.b.core) (fun s =>
      if re then
        s.withOp e (e.readU op) (fun o => o.holds (.ctx e.b.ctx) true (·.reinstall)) (fun o =>
          match s.install e va (some o) with
          | (.status n, s) => s.issueS e d (BitVec.ofNat 64 n)
          | (.bad l, s) => s.unitHalt e 3 l
          | (.put new, s) => (s.reinstall o new).issueS e d (BitVec.ofNat 64 (o.num * 2 ^ 8)))
      else
        match s.install e va none with
        | (.status n, s) => s.issueS e d (BitVec.ofNat 64 n)
        | (.bad l, s) => s.unitHalt e 3 l
        | (.put o, s) => ({ s with operators := s.operators ++ [o] }).issueS e d (BitVec.ofNat 64 (o.num * 2 ^ 8))))

/-! `opbind`, `opunbind` (R133, R141). -/

/-- A range of window pages: each piece maps the operator at its own offset, its base is aligned to its page. -/
def State.bindOk (s : State) (e : Env) (o : Operator) (result : Bool) (base : Dword) (n : Nat) : Bool :=
  let ps := s.pieces (e.walker s) base (roundUp 0x10000 n)
  let first := match ps.head?.map (·.wk) with
    | some (.page p) => base.toNat % 2 ^ p.log2 == 0
    | _ => false
  first && ps.all (fun p =>
    match p.wk with
    | .page g => g.loc p.va == .win result o.num ((p.va - base).toNat)
    | _ => false)

def execOpbind (d : BitVec 6) (op ib rb : Sel) (s : State) : Out :=
  s.within (fun e =>
    s.withUnit e (2 + 2 * gangOf e.b.core) (fun s =>
      s.withOp e (e.readU op) (fun o => o.isOwner (.ctx e.b.ctx)) (fun o =>
        if o.bound then s.issueS e d 8
        else if s.bindOk e o false (e.readU ib) (o.slots * o.istride) && s.bindOk e o true (e.readU rb) (o.slots * o.rstride) then
          (s.updOp o.num (fun o => { o with bound := true, slotst := [] })).issueS e d 0
        else s.issueS e d 9)))

/-- The launch whose thread posted a request. -/
def State.postedSeq (s : State) (p : Posted) : Dword :=
  match p.thr with
  | none => 0
  | some (uid, _, _) => ((s.blk uid).map (fun b => s.seqOf b)).getD 0

/-- R141: posted requests are dropped, each with a record. -/
def State.dropPosted (s : State) (o : Operator) : State :=
  let mine := s.posted.filter (fun p => p.op == o.num)
  let s := { s with posted := s.posted.filter (fun p => p.op != o.num) }
  mine.foldl (fun t p =>
    match p.agent with
    | .ctx n => t.logError n 0x47 (s.postedSeq p)
    | _ => t.logError o.owner 0x47 0) s

/-- R141: an unbound operator, freed where `free`. One only unbound keeps no slot: until it is bound again `opstat` gives
IDLE and GEN 0. DESIGN CHOICE, log entry 65. DESIGN CHOICE, log entry 79. -/
def State.unbind (s : State) (o : Operator) (free : Bool) : State :=
  let s := (s.endSlots o).dropPosted o
  let s := { s with agenda := s.agenda ++ o.waiting }
  if free then { s with operators := s.operators.filter (fun x => x.num != o.num) }
  else s.updOp o.num (fun x => { x with bound := false, slotst := [], waiting := [] })

def execOpunbind (d : BitVec 6) (free : Bool) (op : Sel) (s : State) : Out :=
  s.within (fun e =>
    s.withUnit e (2 + 2 * gangOf e.b.core) (fun s =>
      s.withOp e (e.readU op) (fun o => o.isOwner (.ctx e.b.ctx)) (fun o =>
        if !o.bound && !free then s.issueS e d 0x0A
        else (s.unbind o free).issueS e d (if o.bound then 0 else 0x0A))))

/-! `opstat`, `opread` (R144). -/

/-- The code of a slot state. -/
def OState.code : OState → Nat
  | .idle => 0
  | .filling => 1
  | .fired => 2
  | .ready => 3

/-- The dword of R144. -/
def Operator.stat (o : Operator) (k : Nat) : Dword :=
  let x := o.slot k
  BitVec.ofNat 64 (x.gen.toNat + min x.elems.length 0xFFF * 2 ^ 32 + o.resident.toNat * 2 ^ 44 + o.bound.toNat * 2 ^ 45 +
    x.st.code * 2 ^ 46)

def execOpstat (d : BitVec 6) (op k : Sel) (s : State) : Out :=
  s.within (fun e =>
    s.withUnit e (2 + 2 * gangOf e.b.core) (fun s =>
      match s.operatorOf (e.readU op) with
      | none => s.trapWin e
      | some o =>
        if o.holds (.ctx e.b.ctx) true (fun g => g.reinstall || g.readW || g.readOut || g.writeIn) &&
            decide ((e.readU k).toNat < o.slots) then s.issueS e d (o.stat (e.readU k).toNat)
        else s.trapWin e))

/-- The pages that `opread` writes. -/
def State.opreadLocs (s : State) (e : Env) (va : Dword) (n : Nat) : Option (List (Loc × Nat)) :=
  if n == 0 then some []
  else
    match s.checkAccess (e.walker s) va n askWrite (fun _ => none) with
    | .ok l => some l
    | .error _ => none

/-- The scale bytes that the part writes: bits [7:6] are 0 but for four-bit blocks (R78). -/
def Operator.scalesOut (o : Operator) : List Byte := if o.wfmt == 6 then o.scales else o.scales.map (· &&& 0x3F)

def execOpread (d : BitVec 6) (op dst : Sel) (s : State) : Out :=
  s.within (fun e =>
    s.withUnit e (2 + 2 * gangOf e.b.core) (fun s =>
    match s.operatorOf (e.readU op) with
    | none => s.trapWin e
    | some o =>
      if o.isOpaque then s.issueS e d 6
      else if !o.holds (.ctx e.b.ctx) true (·.readW) then s.trapWin e
      else if !o.resident then s.service e e.low 0 false (some o.num)
      else
        let va := e.readU dst
        let sc := roundUp 64 o.weights.length
        let bi := roundUp 64 (sc + o.scales.length)
        let s := s.walkedAll (e.walker s) [(va, o.weights.length), (va + BitVec.ofNat 64 sc, o.scales.length),
          (va + BitVec.ofNat 64 bi, o.biases.length)]
        match s.opreadLocs e va o.weights.length, s.opreadLocs e (va + BitVec.ofNat 64 sc) o.scales.length,
            s.opreadLocs e (va + BitVec.ofNat 64 bi) o.biases.length with
        | some a, some b, some c =>
          match s.downLocs (a ++ b ++ c) with
          | some l => s.unitHalt e 3 l
          | none =>
          let w (t : State) (l : List (Loc × Nat)) (x : List Byte) : State := t.writeLocs e.stream (some s.nextId) l x
          (w (w (w s a o.weights) b o.scalesOut) c o.biases).issueS e d 0
        | _, _, _ => s.issueS e d 7))

/-! Events of the windows. -/

/-- The i-th posted request joins (R134, R140), if it is of a kind. -/
def State.joinNth (s : State) (i : Nat) (p : WinKind → Bool) : State :=
  if ((s.posted[i]?).map (fun x => p x.kind)).getD false then s.joinAt i else s

def execInputStoreJoin (i : Nat) (s : State) : Out :=
  .next (s.joinNth i (fun k => match k with | .store _ _ | .parts _ => true | _ => false))
def execWfireJoin (i : Nat) (s : State) : Out :=
  .next (s.joinNth i (fun k => match k with | .fire _ => true | _ => false))
def execWrelJoin (i : Nat) (s : State) : Out :=
  .next (s.joinNth i (fun k => match k with | .release _ => true | _ => false))

/-- RESULT_LOAD_JOIN (R134, R136): a waiting result load joins the order of its next slot, once the unit serves the operator's
owner (R380). An operator unbound or freed in between is a window violation of the load (R141). A load of a saved block joins
when it is issued again (R142). -/
def execResultLoadJoin (op : Nat) (s : State) : Out :=
  match s.ops.find? (fun o => o.id == op) with
  | none => .next s
  | some o =>
    match o.kind with
    | .resultLoad n ((k, _) :: _) _ _ _ va _ =>
      match s.operator n with
      | none => .next (if s.saved o.blk then s.wakeSaved o else s.trapParked o .window va)
      | some w =>
        let held := w.slotst.any (fun x => x.held.contains (.load op))
        if s.saved o.blk then .next (if (w.slot k).st == .ready then s.wakeSaved o else s)
        else if !w.bound then .next (s.trapParked o .window va)
        else if held || !w.resident then .next s
        else
          match s.serve w.unit w.owner with
          | some t => .next (t.joinLoad n k (.load op))
          | none => .next (s.stopUnit w.unit w.owner)
    | _ => .next s

/-- FIRE_COMPLETE (R136, R137). -/
def execFireComplete (op slot : Nat) (s : State) : Out := .next (s.completeFire op slot)

/-- OPERATOR_MOVE_OUT (R139, R143, R414): the firmware of its die saves it, once no slot is FIRED, in its owner's save area or,
where it is opaque, in the firmware's region. Their layout there is not given: what it saves stays in the operator's entry.
DESIGN CHOICE, log entry 74. -/
def execOperatorMoveOut (op : Nat) (s : State) : Out :=
  match s.operator op with
  | none => .next s
  | some o =>
    if !s.firmwareOn (o.num / 64 / Config.dieGangs) || o.slotst.any (fun x => x.st == .fired) then .next s
    else .next (s.updOp op (fun o => { o with resident := false, store := some (if o.isOpaque then .firmwareRegion else .ownerSaveArea) }))

/-- OPERATOR_RESTORE (R143, R414): by the firmware, once its chuck bytes are free. The requests held for it come again. -/
def execOperatorRestore (op : Nat) (s : State) : Out :=
  match s.operator op with
  | none => .next s
  | some o =>
    let fits := (List.range Config.gangCores).all (fun c => decide
      (s.chuckUsed (o.num / 64) c (some o.num) + shareRows o.rows c * opRowBytes o.wfmt o.cols o.bias ≤ Config.chuckBytes))
    if o.resident || !fits || !s.firmwareOn (o.num / 64 / Config.dieGangs) then .next s
    else
      let s := s.updOp op (fun o => { o with resident := true, store := none, waiting := [] })
      .next { s with agenda := s.agenda ++ o.waiting }

end Sys2Proof.Machine
end

