-- ==== Sys2Proof/Machine/Merge.lean ====
section
/-! DEFINITION. Merge.lean: the merge units (R90 to R93, R164, R309 to R313). -/

namespace Sys2Proof.Machine

/-! Arithmetic. -/

/-- A quotient rounded to an integer, to nearest, ties to even. -/
def rneDiv (n : Int) (d : Nat) : Int :=
  let q := n.natAbs / d
  let r := n.natAbs % d
  let k := if d < 2 * r || (2 * r == d && q % 2 == 1) then q + 1 else q
  if n < 0 then -(k : Int) else k

/-- R90: a positive, finite, normal FP64. -/
def limitOk (l : Dword) : Bool :=
  let ex := l.toNat / 2 ^ 52
  decide (0 < ex) && decide (ex < 0x7FF)

/-- The exact parts m × 2^e of a positive finite FP64. -/
def parts64 (x : Dword) : Nat × Int :=
  match FFmt.f64.decode x.toNat with
  | .fin _ m e => (m, e)
  | _ => (0, 0)

/-- The format of a staged element (R311). -/
def mgFFmt (f : MgFmt) : FFmt :=
  match f with
  | .f32 => FFmt.f32
  | .bf16 => FFmt.bf16
  | .f16 => FFmt.f16

/-- Its bytes. -/
def mgSize (f : MgFmt) : Nat := match f with | .f32 => 4 | _ => 2

/-- A staged element in units of 2^−149, none for an infinity or a NaN. -/
def stagedUnits (f : MgFmt) (w : Word) : Option Int := ((mgFFmt f).decode w.toNat).exact.map (fun x => x.units 149)

/-- R91: norm, as FP64 bits, of a sum of squares in units of 2^−298. -/
def normOf (sq : Nat) : Nat :=
  let (r, e, st) := sqrtExact sq (-298)
  (FFmt.f64.round .rne 0 false false st r e).bits

/-- R91: s, as FP64 bits. -/
def clipScale (sq : Nat) (limit : Dword) : Dword :=
  let one : Dword := 0x3FF0000000000000
  if sq == 0 then one
  else
    let (lm, le) := parts64 limit
    let (nm, ne) := parts64 (BitVec.ofNat 64 (normOf sq))
    let (q, e, st) := divExact lm le nm ne
    let b := (FFmt.f64.round .rne 0 false false st q e).bits
    if one.toNat ≤ b then one else BitVec.ofNat 64 b

/-- R91: the units that an element g × 2^−149 adds under scale s and limit L. -/
def mergeUnits (scale limit : Dword) (g : Int) : Int :=
  let (sm, se) := parts64 scale
  let (lm, le) := parts64 limit
  let x := se - 149 - (le - 64)
  if 0 ≤ x then rneDiv ((sm : Int) * g * 2 ^ x.toNat) lm else rneDiv ((sm : Int) * g) (lm * 2 ^ (-x).toNat)

/-- R93: the FP32 that `mgread` returns for a merge word. -/
def mergeValue (w : BitVec 128) (limit : Dword) : Nat :=
  let (lm, le) := parts64 limit
  let m := w.toInt
  (FFmt.f32.round .rne 0 false (decide (m < 0)) false (m.natAbs * lm) (le - 64)).bits

/-! Targets (R309, R310). -/

/-- A target's header as read. -/
structure MHdr where
  pa    : Nat
  raw   : List Byte
  limit : Dword
  count : Nat
  deriving DecidableEq, Repr

/-- What reading a header comes to. -/
inductive MRead where
  | status (n : Nat)
  | ok (h : MHdr)
  | bad (line : Nat)
  deriving DecidableEq, Repr

/-- Pages of a merge target: any class may be asked, so that R310 can say which status applies. -/
def askTarget (write : Bool) : Ask :=
  { allow := fun _ => none
    perm := fun p => p.r && (!write || p.w)
    own := fun _ => none }

/-- The physical address of places in bed memory. -/
def bedPa : List (Loc × Nat) → Option Nat
  | [] => none
  | l@((.mem pa, _) :: _) =>
    if l.all (fun x => match x.1 with
      | .mem p => (match pclass p with | .bed _ => true | _ => false)
      | _ => false) then some pa else none
  | _ => none

/-- The header: 0x01 for a target not aligned, not in bed memory or with a bad field, 0x07 where it cannot be read. -/
def State.mergeHdr (s : State) (e : Env) (target : Dword) : MRead × State :=
  let s := s.walked (e.walker s) target 64
  match s.checkAccess (e.walker s) target 64 (askTarget false) (fun _ => none) with
  | .error _ => (.status 7, s)
  | .ok locs =>
    if target.toNat % 64 != 0 then (.status 1, s)
    else
      match bedPa locs with
      | none => (.status 1, s)
      | some pa =>
        match s.badIn pa 64 with
        | some l => (.bad l, s)
        | none =>
          let (d, s) := s.engineLoad (some e.b.core) pa 64
          let h : MHdr := { pa := pa, raw := d, limit := BitVec.ofNat 64 (bitsOf d 0 64), count := bitsOf d 64 64 }
          if bitsOf d 262 250 != 0 || decide (1 < bitsOf d 260 2) || bitsOf d 256 4 != gangOf e.b.core || !limitOk h.limit ||
              h.count == 0 || decide (4194304 < h.count) then (.status 1, s)
          else (.ok h, s)

/-- A slot of the issuing context on its gang's unit, by handle (R310). -/
def State.mslot (s : State) (e : Env) (h : Dword) : Option MSlot :=
  if h.toNat < 8 then
    s.mslots.find? (fun m => m.gang == gangOf e.b.core && m.idx == h.toNat && m.ctx == e.b.ctx)
  else none

/-- A slot replaced, or freed. -/
def State.putMslot (s : State) (old : MSlot) (new : Option MSlot) : State :=
  { s with mslots := (match new with | some m => [m] | none => []) ++
      s.mslots.filter (fun m => !(m.gang == old.gang && m.idx == old.idx)) }

/-- The status of a merge instruction. -/
def State.mergeStatus (s : State) (e : Env) (d : BitVec 6) (n : Nat) : State := s.issueS e d (BitVec.ofNat 64 n)

/-- A merge instruction acts at its gang's merge unit. -/
def State.atMerge (s : State) (e : Env) (f : State → State) : State := s.withUnit e (1 + 2 * gangOf e.b.core) f

/-! The instructions (R310 to R313). -/

def execMgopen (d : BitVec 6) (target contrib : Sel) (s : State) : Out :=
  s.within (fun e => s.atMerge e (fun s =>
    match s.mergeHdr e (e.readU target) with
    | (.bad l, s) => s.unitHalt e 4 l
    | (.status n, s) => s.mergeStatus e d n
    | (.ok h, s) =>
      let gang := gangOf e.b.core
      let mine := s.mslots.filter (fun m => m.gang == gang)
      match (List.range 8).find? (fun i => !mine.any (fun m => m.idx == i)) with
      | none => s.mergeStatus e d 2
      | some i =>
        if mine.any (fun m => m.pa == h.pa && m.contrib == e.readU contrib && m.st != .nonfinite) then s.mergeStatus e d 3
        else
          let m : MSlot :=
            { gang := gang, idx := i, ctx := e.b.ctx, target := e.readU target, pa := h.pa, contrib := e.readU contrib
              count := h.count, limit := h.limit, st := .opened, elems := [], scale := 0, last := s.devtime }
          ({ s with mslots := m :: s.mslots }).mergeStatus e d (i * 2 ^ 8)))

/-- The staged elements that a chunk of bytes gives. -/
def stageElems (f : MgFmt) (off count : Nat) (d : List Byte) : List (Nat × MgFmt × Word) :=
  (List.range count).map (fun i => (off + i, f, BitVec.ofNat 32 (leNat ((d.drop (i * mgSize f)).take (mgSize f)))))

/-- The firmware of the gang's die stages elements (R310, R414); the batch is held while it does not run. -/
def State.atStaging (s : State) (e : Env) (f : State → State) : State :=
  if s.firmwareOn (dieOf e.b.core) then s.atMerge e f else s.hold e

/-- A range can be read, one page after another. -/
def State.canRead (s : State) (e : Env) : Nat → Nat → Nat → Bool
  | 0, _, _ => true
  | fuel + 1, a, n =>
    if n == 0 then true
    else
      let k := min n (0x10000 - a % 0x10000)
      (match s.checkAccess (e.walker s) (BitVec.ofNat 64 a) k askRead (fun _ => none) with
        | .ok _ => true
        | .error _ => false) && s.canRead e fuel (a + k) (n - k)

/-- R311. A source that cannot be read gives 0x07 before anything else is checked (R310). -/
def execMgstage (d : BitVec 6) (f : MgFmt) (h src offset count : Sel) (s : State) : Out :=
  s.within (fun e => s.atStaging e (fun s =>
    let n := (e.readU count).toNat
    let off := (e.readU offset).toNat
    let sized := decide (1 ≤ n) && decide (n ≤ 65536)
    let (data, s) := if sized then s.fetchVirt e (e.readU src) (n * mgSize f)
      else if s.canRead e (n * mgSize f / 0x10000 + 2) (e.readU src).toNat (n * mgSize f) then (some ([], none), s) else (none, s)
    match data, s.mslot e (e.readU h) with
    | none, _ => s.mergeStatus e d 7
    | some _, none => s.mergeStatus e d 4
    | some (bytes, bad), some m =>
      if m.st != .opened then s.mergeStatus e d 4
      else if !sized || decide (m.count < off + n) || m.elems.any (fun x => off ≤ x.1 && x.1 < off + n) then
        s.mergeStatus e d 5
      else
        match bad with
        | some l => s.unitHalt e 4 l
        | none =>
          (s.putMslot m (some { m with elems := m.elems ++ stageElems f off n bytes, last := s.devtime })).mergeStatus e d 0))

/-- The sum of squares of staged elements in units of 2^−298, none where one is not finite (R91). -/
def sumSquares (l : List (Nat × MgFmt × Word)) : Option Nat :=
  l.foldl (fun acc x =>
    match acc, stagedUnits x.2.1 x.2.2 with
    | some a, some g => some (a + g.natAbs * g.natAbs)
    | _, _ => none) (some 0)

/-- R311: an `mgclose` performed, with its status. -/
def State.closeNow (s : State) (e : Env) (h : Dword) : Nat × State :=
  match s.mslot e h with
  | none => (4, s)
  | some m =>
    if m.st != .opened then (4, s)
    else
      match sumSquares m.elems with
      | none => (0, s.putMslot m (some { m with st := .nonfinite }))
      | some sq => (0, s.putMslot m (some { m with st := .measured, scale := clipScale sq m.limit }))

/-- R311: the close is performed when the operation completes (R164). -/
def execMgclose (d : BitVec 6) (h : Sel) (s : State) : Out :=
  s.within (fun e => s.atMerge e (fun s => s.addOp e e.r.exec (.mgclose d.toNat (e.readU h))))

/-- One merge word added to (R91, R92), and whether it wrapped. -/
def State.addMerge (s : State) (e : Env) (pa : Nat) (u : Int) : State × Bool :=
  let (d, s) := (s.rmwLine (lineOf pa) false).engineLoad (some e.b.core) pa 16
  let v := (BitVec.ofNat 128 (leNat d)).toInt + u
  (s.engineStore pa (leBytes 16 (BitVec.ofInt 128 v).toNat), decide (v < -(2 ^ 127)) || decide (2 ^ 127 ≤ v))

/-- The physical address of the byte at an offset of some places. -/
def paAt : List (Loc × Nat) → Nat → Option Nat
  | [], _ => none
  | (.mem pa, n) :: r, off => if off < n then some (pa + off) else paAt r (off - n)
  | (_, n) :: r, off => if off < n then none else paAt r (off - n)

/-- The commit, one indivisible step of the target's commit order (R164, R312). L of R91 is the LIMIT that the slot's
`mgopen` read. DESIGN CHOICE, log entry 64. -/
def State.commitSlot (s : State) (e : Env) (m : MSlot) (h : MHdr) (locs : List (Loc × Nat)) : State :=
  let s := s.release e .dev
  let (s, wrap) := m.elems.foldl (fun (acc : State × Bool) x =>
    match stagedUnits x.2.1 x.2.2, paAt locs (64 + 16 * x.1) with
    | some g, some pa =>
      let (t, w) := acc.1.addMerge e pa (mergeUnits m.scale m.limit g)
      (t, acc.2 || w)
    | _, _ => acc) (s, false)
  let inc (lo : Nat) : Nat := (bitsOf h.raw lo 64 + 1) % 2 ^ 64
  let s := s.engineStore (h.pa + 16) (leBytes 8 (inc 128))
  let s := s.engineStore (h.pa + 24) (leBytes 8 (inc 192))
  let s := s.engineStore (h.pa + 32) (leBytes 8 (bitsOf h.raw 256 4))
  let s := if wrap then s.logArith e 0x12 e.low true else s
  s.putMslot m none

/-- R312: an `mgcommit` performed: its status, the lowest that applies but for a header that cannot be read (R310), or the
uncorrectable line met. -/
def State.commitNow (s : State) (e : Env) (h : Dword) : Except Nat Nat × State :=
  match s.mslot e h with
  | none => (.ok 4, s)
  | some m =>
    match s.mergeHdr e m.target with
    | (.bad l, s) => (.error l, s)
    | (.status n, s) => (.ok n, s)
    | (.ok hd, s) =>
      let s := s.walked (e.walker s) m.target (64 + 16 * m.count)
      let acc := s.checkAccess (e.walker s) m.target (64 + 16 * m.count) (askTarget true) (fun _ => none)
      if (match acc with | .ok locs => (bedPa locs).isNone | .error _ => false) then (.ok 1, s)
      else if m.st == .opened then (.ok 4, s)
      else if m.st == .nonfinite then (.ok 6, s)
      else
        match acc with
        | .error _ => (.ok 7, s)
        | .ok locs =>
          match s.badLocs locs with
          | some l => (.error l, s)
          | none => (.ok 0, s.commitSlot e m hd locs)

/-- R312: the commit is performed when the operation completes (R164). -/
def execMgcommit (d : BitVec 6) (h : Sel) (s : State) : Out :=
  s.within (fun e => s.atMerge e (fun s => s.addOp e e.r.exec (.mgcommit d.toNat (e.readU h))))

def execMgabort (d : BitVec 6) (h : Sel) (s : State) : Out :=
  s.within (fun e => s.atMerge e (fun s =>
    match s.mslot e (e.readU h) with
    | none => s.mergeStatus e d 4
    | some m => (s.putMslot m none).mergeStatus e d 0))

/-- What one slot's `mgread` reads: the value and COMMITTED's low half, or an uncorrectable line. -/
def State.mergeRead (s : State) (e : Env) (target : Dword) (idx : Nat) : Except Nat (Word × Word) × State :=
  match s.mergeHdr e target with
  | (.bad l, s) => (.error l, s)
  | (.status _, s) => (.ok (0x7FC00000, 0), s)
  | (.ok h, s) =>
    let n := BitVec.ofNat 32 (bitsOf h.raw 128 32)
    if h.count ≤ idx then (.ok (0x7FC00000, n), s)
    else
      let s := s.walked (e.walker s) (target + 64 + BitVec.ofNat 64 (16 * idx)) 16
      match s.checkAccess (e.walker s) (target + 64 + BitVec.ofNat 64 (16 * idx)) 16 (askTarget false) (fun _ => none) with
      | .error _ => (.ok (0x7FC00000, 0), s)
      | .ok locs =>
        match bedPa locs with
        | none => (.ok (0x7FC00000, 0), s)
        | some pa =>
          match s.badIn pa 16 with
          | some l => (.error l, s)
          | none =>
            let (d, s) := s.engineLoad (some e.b.core) pa 16
            (.ok (BitVec.ofNat 32 (mergeValue (BitVec.ofNat 128 (leNat d)) h.limit), n), s)

/-- The reads of some slots in ascending order. -/
def State.mergeReads (s : State) (e : Env) (f : Nat → Dword × Nat) : List Nat → Except Nat (List (Nat × Word × Word)) × State
  | [] => (.ok [], s)
  | k :: r =>
    match s.mergeRead e (f k).1 (f k).2 with
    | (.error l, s) => (.error l, s)
    | (.ok x, s) =>
      match s.mergeReads e f r with
      | (.error l, s) => (.error l, s)
      | (.ok xs, s) => (.ok ((k, x) :: xs), s)

/-- A target's header reads STATE 0b01 (R309, R313). -/
def State.committing (s : State) (e : Env) (target : Dword) : Bool :=
  match (s.mergeHdr e target).1 with
  | .ok h => bitsOf h.raw 260 2 == 1
  | _ => false

/-- A slot's request among those of an `mgread.stable`. -/
def reqOf (q : List (Nat × Dword × Nat)) (k : Nat) : Dword × Nat := ((q.find? (fun x => x.1 == k)).map (·.2)).getD (0, 0)

/-- R313. A plain `mgread` reads each slot's word when that slot's read completes, so that the words may come from
different prefixes of commit order; `.stable` reads them all at once, commits being indivisible steps, and is a Q event at
`.dev` (R164): at issue, or once no target's STATE reads 0b01. -/
def execMgread (d : BitVec 7) (stable : Bool) (target idx : Sel) (s : State) : Out :=
  s.within (fun e => s.atMerge e (fun s =>
    if stable then
      let q := e.r.exec.map (fun k => (k, e.read true target k, (e.read32 idx k).toNat))
      if q.any (fun x => s.committing e x.2.1) then
        (s.tagG e d.toNat 2).addOp e e.r.exec
          (.mgstable d.toNat (e.r.exec.flatMap (fun k => [(k, d.toNat), (k, d.toNat + 1)])) q)
      else
      let s := s.acq e .dev
      match s.mergeReads e (fun k => (e.read true target k, (e.read32 idx k).toNat)) e.r.exec with
      | (.error l, s) => s.unitHalt e 4 l
      | (.ok res, s) =>
        s.issueRegs e d.toNat 2 (fun k =>
          match res.find? (fun x => x.1 == k) with
          | some x => [x.2.1, x.2.2]
          | none => [0, 0])
    else
      let s := s.tagG e d.toNat 2
      e.r.exec.foldl (fun t k =>
        t.addOp e [k] (.mgread k d.toNat [d.toNat, d.toNat + 1] (e.read true target k) (e.read32 idx k).toNat)) s))

/-- The clause in which an operation was issued, as its engine knows it. -/
def State.opEnv (s : State) (o : Op) : Option Env :=
  match s.blk o.blk with
  | none => none
  | some b => (b.sp o.m).map (fun sp =>
      ⟨b, sp, { Run.idle with active := true, blk := o.blk, m := o.m, hdr := o.hdr, exec := o.slots, token := o.token }⟩)

/-- A merge operation performed (R311 to R313). -/
def State.doMerge (s : State) (o : Op) : State :=
  match s.opEnv o with
  | none => s.dropOp o
  | some e =>
    match o.kind with
    | .mgclose r h =>
      let (n, s) := s.closeNow e h
      (s.deliverS o r (BitVec.ofNat 64 n)).dropOp o
    | .mgcommit r h =>
      match s.commitNow e h with
      | (.error l, s) => s.engineHalt o .uncorrectable (128 * l)
      | (.ok n, s) => (s.deliverS o r (BitVec.ofNat 64 n)).dropOp o
    | .mgread k d live target idx =>
      match s.mergeRead e target idx with
      | (.error l, s) => s.engineHalt o .uncorrectable (128 * l)
      | (.ok (v, n), s) =>
        (s.deliver o (([(d, v), (d + 1, n)].filter (fun x => live.contains x.1)).map (fun x =>
          ({ slot := k, reg := x.1, val := x.2 } : RegW)))).dropOp o
    | .mgstable d live q =>
      if q.any (fun x => s.committing e x.2.1) then s
      else
        match (s.acq e .dev).mergeReads e (reqOf q) (q.map (·.1)) with
        | (.error l, s) => s.engineHalt o .uncorrectable (128 * l)
        | (.ok res, s) =>
          let ws := res.flatMap (fun x => [(⟨x.1, d, x.2.1⟩ : RegW), ⟨x.1, d + 1, x.2.2⟩])
          (s.deliver o (ws.filter (fun w => live.contains (w.slot, w.reg)))).dropOp o
    | _ => s

/-- One register write of an operation is made ahead of the others (R63, R64): a plain `mgread` has read its word by then,
and its other half stays pending. -/
def State.deliverPart (s : State) (o : Op) (i : Nat) : State :=
  match o.kind, s.opEnv o with
  | .mgread k d live target idx, some e =>
    match s.mergeRead e target idx with
    | (.error l, s) => s.engineHalt o .uncorrectable (128 * l)
    | (.ok (v, n), s) =>
      let ws := ([(d, v), (d + 1, n)].filter (fun x => live.contains x.1)).map (fun x =>
        ({ slot := k, reg := x.1, val := x.2 } : RegW))
      (s.setKind o.id (.regs ws)).deliverOne { o with kind := .regs ws } i
  | _, _ => s.deliverOne o i

/-- MERGE_TIMEOUT (R311). -/
def execMergeTimeout (gang slot : Nat) (s : State) : Out :=
  match s.mslots.find? (fun m => m.gang == gang && m.idx == slot) with
  | none => .next s
  | some m =>
    let lim := 1000 * ((s.ctx m.ctx).map (fun c => c.desc.mgto)).getD 0
    if m.st == .opened && decide (m.last + lim ≤ s.devtime) then .next (s.putMslot m none) else .next s

end Sys2Proof.Machine
end

