-- ==== Sys2Proof/Machine/Threads.lean ====
section
/-! DEFINITION. Threads.lean: how threads leave a clause, barriers, divert, exit and the completion record (R24,
R25, R32, R43, R44, R48, R275, R284). -/

namespace Sys2Proof.Machine

/-- The role of a spindle: consumers have field-1 values from P up (R29). -/
def Launch.consumer (l : Launch) (m : Nat) : Bool := l.pcount != 0 && decide (l.pcount ≤ m)
/-- The entry and parting addresses of a spindle (R29, R371). -/
def Launch.entry (l : Launch) (m : Nat) : Dword := if l.consumer m then l.centry else l.pentry
def Launch.parting (l : Launch) (m : Nat) : Dword := if l.consumer m then l.cpart else l.ppart
/-- The divert time (R42). -/
def Launch.divertAt (l : Launch) : Int := (l.dl : Int) - l.budget
/-- The thread count of a launch (R17). -/
def Launch.threads (l : Launch) : Nat := l.e.foldl (· * ·) 1
/-- A launch whose threads are all counted and whose record is not written (R48, R155). -/
def Launch.unwritten (l : Launch) : Bool := !l.ended && l.fin + l.parted + l.notst + l.overrun == l.threads
/-- The allotment of a spindle's role. -/
def Launch.allot (l : Launch) (m : Nat) : Allot := if l.consumer m then l.cal else l.pal

/-- R43, R44, R284: a thread jumps to its parting entry; DPC names the clause it left. -/
def Thread.divert (t : Thread) (entry : Dword) : Thread :=
  { t with st := .ready, before := .ready, pc := entry, diverted := true, divertDue := false, finish := false
           dpc := match t.mid with | some m => m.hdr | none => t.pc
           rs := [], rsd := 0, insys := false, wake := none, yielded := false, mid := none, served := [] }

/-- A thread's divert is due, and no clause that it has still to end comes first (R43). -/
def Thread.leaves (t : Thread) : Bool :=
  t.divertDue && !t.finish && (match t.st with | .exited | .stopped => false | _ => true)

/-- A core is stalled by a serviced fault (R36). -/
def State.stalled (s : State) (core : Nat) : Bool :=
  s.services.any (fun v => v.core == core)

/-- A thread between clauses meets a raised halt line or a divert that waited for its clause (R43, R389). -/
def Thread.between (t : Thread) (halt : Bool) (entry : Dword) : Thread :=
  if t.st != .ready then t
  else if halt then { t.halt with finish := false }
  else if t.divertDue then t.divert entry
  else t

/-- Slots of the clause in progress leave it: `f` gives each its new state (R182), and its token may clear. -/
def State.leave (s : State) (e : Env) (ks : List Nat) (f : Nat → Thread → Thread) : State :=
  let entry := ((s.launch e.b.launch).map (fun l => l.parting e.sp.m)).getD 0
  let halt := s.halting e.b.ctx
  let s := s.updSp e.b.uid e.sp.m (fun sp =>
    { sp with threads := sp.threads.zipIdx.map (fun x =>
        if ks.contains x.2 then (f x.2 { x.1 with mid := none, served := [] }).between halt entry else x.1) })
  ({ s with run := s.run.without ks }).settle e.b.uid e.sp.m

/-- Every executing thread branches (R181, R182). -/
def State.branch (s : State) (e : Env) (f : Nat → Dword) : State :=
  s.leave e e.r.exec (fun k t => { t with st := .ready, pc := f k })

/-- The clause ends: its threads continue at the next (R182). -/
def State.endClause (s : State) : State :=
  match s.env with
  | some e => s.branch e (fun _ => e.r.npc)
  | none => { s with run := Run.idle }

/-! Completion records (R48, R319). -/

/-- STATUS (R48). -/
def Launch.status (l : Launch) : Nat :=
  if l.halted then 4 else if 0 < l.overrun then 2 else if l.notst == l.threads then 3
  else if 0 < l.parted || 0 < l.notst then 1 else 0

/-- The 64 bytes of the record. -/
def State.record (s : State) (l : Launch) : List Byte :=
  leBytes 8 l.seq.toNat ++ leBytes 8 (l.status + Config.sfrev.toNat * 2 ^ 8) ++ leBytes 8 l.fin ++ leBytes 8 l.parted ++
  leBytes 8 l.notst ++ leBytes 8 l.overrun ++ leBytes 8 l.start ++ leBytes 8 s.devtime

/-- A peer request of a thread of a launch waits at this device, or its stream is frozen (R166, R394). -/
def State.launchHeld (s : State) (u : Nat) : Bool :=
  let mine (x : PeerOut) : Bool := x.thr.any (fun n => (s.blk n.1).any (fun b => b.launch == u))
  s.fabric.held.any (fun h => mine h.x) || s.fabric.outst.any (fun x => mine x && s.fabric.frozen.contains x.key)

/-- Every store of a launch's threads is acknowledged: by the directory, and by the peers (R155, R166). -/
def State.releaseAll (s : State) (u : Nat) : State :=
  let s := s.ack (fun _ => true)
  { s with fabric := { s.fabric with outst := s.fabric.outst.filter (fun x =>
      !(x.op.isNone && x.thr.any (fun (n : Nat × Nat × Nat) => (s.blk n.1).any (fun (b : Block) => b.launch == u)))) } }.flushHeld

/-- The launch's record is written, a release at `.sys`, for which it waits until its threads' peer requests have left (R155,
R394); a page that requests service is serviced first, and any other failure drops the record (R373). A task writes none
(R319). -/
def State.writeRecord (s : State) (l : Launch) : State :=
  match s.ctx l.ctx with
  | none => s.updLaunch l.uid (fun l => { l with ended := true })
  | some c =>
    if s.launchHeld l.uid then s
    else if l.task.isSome then
      let s := s.updLaunch l.uid (fun l => { l with ended := true })
      if l.fin == 1 then s
      else s.logErrorOf l.ctx 0x46 l.seq (BitVec.ofNat 64 l.status)
    else
      match (s.releaseAll l.uid).writeVirt c l.recaddr (s.record l) with
      | .ok t => t.updLaunch l.uid (fun l => { l with ended := true })
      | .error (.service va _) =>
        if s.services.any (fun v => v.record == some l.uid) then s
        else
          let (tag, s) := s.fresh
          let v : Service :=
            { core := 0x100, ctx := l.ctx, va := va, write := true, fetch := false, tag := tag, sent := false
              spid := 0, slots := [], op := none, queue := none, record := some l.uid, mirror := false }
          { s with services := s.services ++ [v] }
      | .error (.trap _ _) => (s.logError l.ctx 0x44 l.seq).updLaunch l.uid (fun l => { l with ended := true })

/-- A launch whose every thread is counted ends (R48). -/
def State.checkLaunch (s : State) (u : Nat) : State :=
  match s.launch u with
  | some l => if l.unwritten then s.writeRecord l else s
  | none => s

/-! Barriers. -/

/-- A rejoin barrier releases its parked threads when every enrolled thread has arrived or exited (R24, R25). -/
def Spindle.checkRejoin (sp : Spindle) (b : Nat) : Spindle :=
  match sp.bars[b]? with
  | none => sp
  | some (en, ar) =>
    let waits := sp.threads.any (fun t => t.st == .parked (.rejoin (BitVec.ofNat 3 b)))
    if waits && (List.range 32).all (fun k => !en.getLsbD k || ar.getLsbD k || sp.gone k) then
      { sp with bars := sp.bars.set b (0, 0)
                threads := sp.threads.map (fun t => t.wakeIf false (· == .rejoin (BitVec.ofNat 3 b))) }
    else sp

/-- The blocks of a block's gang launch (R27). -/
def State.gangBlocks (s : State) (b : Block) : List Block :=
  s.blocks.filter (fun x => x.launch == b.launch && x.gl == b.gl)

/-- Every thread of a block that is not EXITED is among some arrivals (R275). -/
def Block.allArrived (b : Block) (arr : List (Nat × Nat)) : Bool :=
  b.spindles.all (fun sp => sp.threads.zipIdx.all (fun x => x.1.st == .exited || arr.contains (sp.m, x.2)))

/-- Tokens of the threads of a block may clear. -/
def State.settleBlock (s : State) (uid : Nat) : State :=
  match s.blk uid with
  | some b => b.spindles.foldl (fun t sp => t.settle uid sp.m) s
  | none => s

/-- `bar` releases its arrived threads when the phase is complete (R275). -/
def State.checkBar (s : State) (uid : Nat) : State :=
  match s.blk uid with
  | some b =>
    if !b.barArr.isEmpty && b.allArrived b.barArr then
      (s.updBlk uid (fun b => { (b.release (· == .bar)) with barArr := [], barPh := b.barPh + 1 })).settleBlock uid
    else s
  | none => s

/-- `gbar` likewise over the gang launch; the released threads acquire at `.gang` (R155). -/
def State.checkGbar (s : State) (uid : Nat) : State :=
  match s.blk uid with
  | some b =>
    let g := s.gangBlocks b
    if g.any (fun x => !x.gbarArr.isEmpty) && g.all (fun x => x.allArrived x.gbarArr) then
      g.foldl (fun t x =>
        ((t.acquire x.core .gang).updBlk x.uid (fun x =>
          { (x.release (· == .gbar)) with gbarArr := [], gbarPh := x.gbarPh + 1 })).settleBlock x.uid) s
    else s
  | none => s

/-! Exit. -/

/-- A thread that has exited or stopped runs no more. -/
def TState.over : TState → Bool
  | .exited | .stopped => true
  | _ => false

/-- Threads exit (R25, R275, R278). -/
def State.exitThreads (s : State) (e : Env) : State :=
  let ks := e.r.exec
  let n := (ks.filter (fun k => ((e.thr k).map (·.diverted)).getD false)).length
  let s := s.leave e ks (fun _ t => { t with st := .exited })
  let s := s.updSp e.b.uid e.sp.m (fun sp => (List.range 8).foldl (fun sp b => sp.checkRejoin b) sp)
  let s := ((s.settle e.b.uid e.sp.m).checkBar e.b.uid).checkGbar e.b.uid
  (s.updLaunch e.b.launch (fun l => { l with parted := l.parted + n, fin := l.fin + (ks.length - n) })).checkLaunch e.b.launch

/-! Allotments (R31, R32). -/

/-- The first accumulator word of a spindle (R31). -/
def Block.accBase (b : Block) (m : Nat) : Nat := ((b.spindles.filter (fun sp => sp.m < m)).map (·.afull)).sum

/-- An accumulator word is held (R296). -/
def Block.accHeld (b : Block) (n : Nat) : Bool :=
  b.spindles.any (fun sp =>
    let a := b.accBase sp.m
    a ≤ n && n < a + (if sp.full then sp.afull else sp.apro))

/-- Every word of a range is held. -/
def Block.accHeldAll (b : Block) (base n : Nat) : Bool := (List.range n).all (fun i => b.accHeld (base + i))

/-- The accumulator words that an operation reads or writes. -/
def OpKind.accRange (k : OpKind) : Option (Nat × Nat) :=
  match k with
  | .mma t _ _ _ _ _ _ _ _ | .zrnd t _ _ | .zdrain t _ _ _ _ | .zld t _ _ | .zst t _ _ => some (t.base, t.rows * t.cols)
  | .quant (some t) _ _ _ => some (t.base, t.rows * t.cols)
  | _ => none

/-- An operation touches words that a spindle's return to its prologue allotment releases (R277). -/
def State.accBusy (s : State) (b : Block) (sp : Spindle) : Bool :=
  let a := b.accBase sp.m
  s.ops.any (fun o => o.blk == b.uid && decide (sp.apro < sp.afull) &&
    (match o.kind.accRange with
      | some (base, n) => base < a + sp.afull && a + sp.apro < base + n
      | none => false))

/-- The spindle returns to its prologue allotment (R32, R277): registers and words above it are given up, and
writes in flight to them are dropped. -/
def State.toPrologue (s : State) (b : Block) (sp : Spindle) : State :=
  if sp.full then
    let a := b.accBase sp.m
    let s := s.updBlk b.uid (fun b =>
      { (b.updSp sp.m (fun sp => { sp with full := false, v := sp.v.take sp.vpro })) with
        acc := b.acc.filter (fun x => !(a + sp.apro ≤ x.n && x.n < a + sp.afull)) })
    s.dropPending b.uid sp.m s.nextId (fun _ r => sp.vpro ≤ r)
  else s

end Sys2Proof.Machine
end

