-- ==== Sys2Proof/Machine/Save.lean ====
section
/-! DEFINITION. Save.lean: the save area (R397) and the stop area (R390): the bytes of a saved spindle and block, how a
spindle is read back, and the stop records. -/

namespace Sys2Proof.Machine

/-- RECSIZE (R397). -/
def Ctx.recSize (c : Ctx) : Nat := 0xA_D000 + c.desc.qlocal * 0x1_1000 + c.desc.qacc * 0x2_1000

/-- The address of a save record. -/
def Ctx.recAt (c : Ctx) (i : Nat) : Dword := c.desc.savebase + BitVec.ofNat 64 (i * c.recSize)

/-- The code of a tag (R235). -/
def tagCode : Tag → Nat
  | .u => 0
  | .a _ _ => 1
  | .g => 2

/-- Bits packed into bytes, the first lowest. -/
def boolBytes : Nat → List Bool → List Byte
  | 0, _ => []
  | n + 1, l =>
    BitVec.ofNat 8 ((l.take 8).zipIdx.map (fun x => if x.1 then 2 ^ x.2 else 0)).sum :: boolBytes n (l.drop 8)

/-- A saved vector register; `k` is the lowest slot that is not EXITED (R51, R397). -/
def VReg.image (r : VReg) (k : Nat) : List Byte :=
  match r.tag with
  | .u => leBytes 4 ((r.vals[k]?).getD 0).toNat
  | .a b st => leBytes 4 b.toNat ++ leBytes 4 st.toNat
  | .g => r.vals.flatMap (fun w => leBytes 4 w.toNat)

/-- A saved thread's header or PC. -/
def Thread.place (t : Thread) : Dword :=
  match t.mid with
  | some m => m.hdr
  | none => t.pc

/-- One dword for each of the 32 slots. -/
def Spindle.perSlot (sp : Spindle) (n : Nat) (f : Thread → Nat) : List Byte :=
  (List.range 32).flatMap (fun k => leBytes n (((sp.threads[k]?).map f).getD 0))

/-- Latch xn of a thread inside a clause (R360). -/
def Thread.latchOf (t : Thread) (n : Nat) : Option LatchVal := t.mid.bind (fun m => (m.latches[n]?).join)

/-- The code of a thread's state in its saved words. -/
def TState.code : TState → Nat
  | .ready => 0
  | .parked _ => 1
  | .exited => 2
  | .stopped => 3
  | .halted => 4

/-- The code of a parking condition there. -/
def Park.code : Park → Nat
  | .lines _ _ => 1
  | .result _ => 2
  | .counter _ => 3
  | .bar => 4
  | .gbar => 5
  | .rejoin b => 8 + b.toNat
  | .allot => 6
  | .tokens _ => 7

/-- A slot's saved word at 0x480: state, park condition, RIDX, tokens, RSDEPTH, a byte each from the lowest up,
then SYSCODE (R287). DESIGN CHOICE, log entry 14. -/
def Thread.word (t : Thread) : Nat :=
  let park := match t.st, t.before with
    | .parked c, _ => c.code
    | .halted, .parked c => c.code
    | _, _ => 0
  t.st.code + park * 2 ^ 8 + ((t.mid.map (·.idx)).getD 0) * 2 ^ 16 + t.tok.toNat * 2 ^ 24 + t.rsd * 2 ^ 32 +
    (t.code.toNat + t.insys.toNat * 2 ^ 8) * 2 ^ 40

/-- The parts of a saved spindle: offset and bytes (R397). -/
def Spindle.image (sp : Spindle) : List (Nat × List Byte) :=
  [(0x000, sp.perSlot 8 (fun t => t.place.toNat)),
   (0x100, sp.perSlot 8 (fun t => t.dpc.toNat)),
   (0x200, sp.s.flatMap (fun x => leBytes 8 x.toNat)),
   (0x400, sp.perSlot 4 (fun t => t.preds.toNat)),
   (0x480, sp.perSlot 8 Thread.word),
   (0x580, sp.bars.flatMap (fun x => leBytes 4 x.1.toNat) ++ sp.bars.flatMap (fun x => leBytes 4 x.2.toNat)),
   (0x5C0, leBytes 64 ((sp.v.zipIdx.map (fun x => tagCode x.1.tag * 2 ^ (2 * x.2))).sum)),
   (0x600, (List.range 32).flatMap (fun k =>
     (List.range 8).flatMap (fun i => leBytes 8 ((((sp.threads[k]?).bind (fun t => t.rs[i]?)).getD 0).toNat)))),
   (0xE00, (List.range 32).flatMap (fun k =>
     (match sp.threads[k]? with
      | some t => leBytes 8 t.sysa.toNat ++ leBytes 8 t.sysb.toNat ++ leBytes 8 t.sysret.toNat
      | none => List.replicate 24 0))),
   (0x1200, (List.range 32).flatMap (fun k =>
     (List.range 4).flatMap (fun n => leBytes 8 ((((sp.threads[k]?).bind (fun t => t.latchOf n)).map (fun l => l.val.toNat)).getD 0)))),
   (0x1600, sp.v.flatMap (fun r => r.image (((List.range 32).find? (fun k => !sp.gone k)).getD 0)))]

/-- Bytes of a spindle record (R397). -/
def spSize : Nat := 0x5600

/-- A write of parts of a record; none where one fails. -/
def State.putParts (s : State) (c : Ctx) (at_ : Dword) : List (Nat × List Byte) → Option State
  | [] => some s
  | (off, d) :: r =>
    match s.writeVirt c (at_ + BitVec.ofNat 64 off) d with
    | .error _ => none
    | .ok t => t.putParts c at_ r

/-- The part at 0x1100 (R397): the allotment in force, as registers and accumulator words, SPID, then the steps or rows at
which the spindle's tile operations stand (R396), a dword each. DESIGN CHOICE, log entry 14. -/
def State.allotImage (s : State) (uid : Nat) (sp : Spindle) : List Byte :=
  let ops := (s.ops.filter (fun o => o.blk == uid && o.m == sp.m && o.kind.rows)).map (fun o => leBytes 8 o.done)
  let d := leBytes 8 sp.v.length ++ leBytes 8 (if sp.full then sp.afull else sp.apro) ++ leBytes 8 sp.spid ++ ops.flatMap id
  (d ++ List.replicate 256 0).take 256

/-- A spindle saved in a record. -/
def State.saveSpindle (s : State) (c : Ctx) (i uid : Nat) (sp : Spindle) : Option State :=
  s.putParts c (c.recAt i + BitVec.ofNat 64 (0x200 + spSize * sp.m)) (sp.image ++ [(0x1100, s.allotImage uid sp)])

/-- The record of a saved spindle is brought up to date (R39, R321). -/
def State.resave (s : State) (uid m : Nat) : State :=
  match s.blk uid with
  | none => s
  | some b =>
    match b.saveRec, s.ctx b.ctx, b.sp m with
    | some i, some c, some sp => (s.saveSpindle c i uid sp).getD s
    | _, _, _ => s

/-- An accumulator word of a block, or its unpredictable contents. -/
def Block.accWord (b : Block) (n : Nat) : AccWord :=
  (b.acc.find? (fun x => x.n == n)).getD { n := n, w := Config.coldAcc b.uid n, carry := Config.coldCarry b.uid n }

/-- The 16 bytes of a tile handle (R397): base, rows, cols, then NF, OVF and defined in bits 0 to 2, four bytes each.
DESIGN CHOICE, log entry 14. -/
def tileImage (t : Option Tile) : List Byte :=
  match t with
  | some t => leBytes 4 t.base ++ leBytes 4 t.rows ++ leBytes 4 t.cols ++ leBytes 4 (t.nf.toNat + 2 * t.ovf.toNat + 4)
  | none => List.replicate 16 0

/-- The header of a record. -/
def State.headImage (s : State) (b : Block) : List Byte :=
  leBytes 8 1 ++ leBytes 8 (s.seqOf b).toNat ++ leBytes 8 b.wid.toNat ++ leBytes 8 b.spindles.length ++
    leBytes 8 b.lsize ++ leBytes 8 (b.spindles.map (·.afull)).sum ++ leBytes 8 s.devtime

/-- The rest of a record: tiles, local image, presence bits and pending counts, exact words and carry counts.
DESIGN CHOICE, log entry 14. -/
def Block.image (c : Ctx) (b : Block) : List (Nat × List Byte) :=
  let loc := 0xA_D000
  let pres := loc + c.desc.qlocal * 0x1_0000
  let acc := loc + c.desc.qlocal * 0x1_1000
  let lines := b.lsize / 128
  let words := (b.spindles.map (·.afull)).sum
  [(0x100, b.tiles.flatMap tileImage),
   (loc, b.lbytes 0 b.lsize),
   (pres, boolBytes ((lines + 7) / 8) ((List.range lines).map b.present)),
   (pres + 64 * c.desc.qlocal, (List.range lines).map (fun l => BitVec.ofNat 8 (b.fillCount l))),
   (acc, (List.range words).flatMap (fun n => leBytes 32 (b.accWord n).w.toNat)),
   (acc + c.desc.qacc * 0x2_0000, (List.range words).map (fun n => (b.accWord n).carry))]

/-- A block's parts written into a record; none where a write fails. -/
def State.saveParts (s : State) (c : Ctx) (i : Nat) (b : Block) : Option State :=
  b.spindles.foldl (fun (acc : Option State) sp => acc.bind (fun t => t.saveSpindle c i b.uid sp))
    (s.putParts c (c.recAt i) (b.image c))

/-- A block saved in a record; none where a write fails. -/
def State.saveBlock (s : State) (c : Ctx) (i : Nat) (b : Block) : Option State :=
  (s.putParts c (c.recAt i) [(0, s.headImage b)]).bind (fun t => t.saveParts c i b)

/-- The runs of bytes in which a part of a record has changed. -/
def diffRuns : Nat → List Byte → List Byte → List (Nat × List Byte)
  | _, _, [] => []
  | off, o, x :: r =>
    let rest := diffRuns (off + 1) (o.drop 1) r
    if o.head? == some x then rest
    else
      match rest with
      | (k, d) :: t => if k == off + 1 then (off, x :: d) :: t else (off, [x]) :: rest
      | [] => [(off, [x])]

/-- Those of some parts. -/
def diffParts (old new : List (Nat × List Byte)) : List (Nat × List Byte) :=
  (old.zip new).flatMap (fun x => if x.1.2 == x.2.2 then [] else diffRuns x.2.1 x.1.2 x.2.2)

/-- What has changed in the image of a block: edits made in its record elsewhere stand (R398). -/
def State.changedParts (s old : State) (c : Ctx) (was b : Block) : List (Nat × List Byte) :=
  diffParts (was.image c) (b.image c) ++
  b.spindles.flatMap (fun sp =>
    match was.sp sp.m with
    | some w => (diffParts (w.image ++ [(0x1100, old.allotImage b.uid w)]) (sp.image ++ [(0x1100, s.allotImage b.uid sp)])).map
        (fun p => (0x200 + spSize * sp.m + p.1, p.2))
    | none => [])

/-- What a step changes in the saved blocks reaches their images (R39, R125, R396): each block that is saved before and
after and has changed. -/
def State.syncImages (s old : State) : State :=
  s.blocks.foldl (fun t b =>
    match b.evicted, b.saveRec, s.ctx b.ctx, old.blk b.uid with
    | true, some i, some c, some was =>
      if was.evicted && was != b then (t.putParts c (c.recAt i) (s.changedParts old c was b)).getD t else t
    | _, _, _, _ => t) s

/-- The lowest-numbered record that is free. -/
def State.freeRec (s : State) (c : Ctx) : Option Nat :=
  (List.range c.desc.savecnt).find? (fun i =>
    match s.readVirt none c (c.recAt i) 8 with
    | .ok (d, _) => leNat d == 0
    | .error _ => false)

/-! Reading a saved spindle back. -/

/-- The saved registers: by their tags, packed from an offset on. -/
def readRegs (rd : Nat → Nat → Nat) (tags : Nat) : Nat → Nat → Nat → List VReg
  | 0, _, _ => []
  | n + 1, i, off =>
    match tags / 2 ^ (2 * i) % 4 with
    | 0 =>
      let x := BitVec.ofNat 32 (rd off 4)
      { tag := .u, vals := List.replicate 32 x } :: readRegs rd tags n (i + 1) (off + 4)
    | 1 =>
      let b := BitVec.ofNat 32 (rd off 4)
      let st := BitVec.ofNat 32 (rd (off + 4) 4)
      { tag := .a b st, vals := (List.range 32).map (fun k => b + BitVec.ofNat 32 k * st) } ::
        readRegs rd tags n (i + 1) (off + 8)
    | _ =>
      { tag := .g, vals := (List.range 32).map (fun k => BitVec.ofNat 32 (rd (off + 4 * k) 4)) } ::
        readRegs rd tags n (i + 1) (off + 128)

/-- A thread of slot k as its record gives it; what R397 lays out comes from the record. -/
def Thread.restore (t : Thread) (rd : Nat → Nat → Nat) (k : Nat) : Thread :=
  let dw (off : Nat) : Dword := BitVec.ofNat 64 (rd off 8)
  let place := dw (8 * k)
  let word := rd (0x480 + 8 * k) 8
  { t with
    pc := if t.mid.isSome then t.pc else place
    tok := BitVec.ofNat 8 (word / 2 ^ 24), rsd := word / 2 ^ 32 % 2 ^ 8, code := BitVec.ofNat 8 (word / 2 ^ 40)
    insys := word.testBit 48
    mid := t.mid.map (fun m =>
      { m with hdr := place, idx := word / 2 ^ 16 % 2 ^ 8
               latches := m.latches.zipIdx.map (fun x => x.1.map (fun l => { l with val := dw (0x1200 + 32 * k + 8 * x.2) })) })
    dpc := dw (0x100 + 8 * k)
    preds := BitVec.ofNat 32 (rd (0x400 + 4 * k) 4)
    rs := t.rs.zipIdx.map (fun x => dw (0x600 + 64 * k + 8 * x.2))
    sysa := dw (0xE00 + 24 * k), sysb := dw (0xE00 + 24 * k + 8), sysret := dw (0xE00 + 24 * k + 16) }

/-- A spindle as its record gives it. -/
def Spindle.restore (sp : Spindle) (rd : Nat → Nat → Nat) : Spindle :=
  { sp with
    s := (List.range 64).map (fun i => BitVec.ofNat 64 (rd (0x200 + 8 * i) 8))
    bars := (List.range 8).map (fun i => (BitVec.ofNat 32 (rd (0x580 + 4 * i) 4), BitVec.ofNat 32 (rd (0x5A0 + 4 * i) 4)))
    v := readRegs rd (rd 0x5C0 32) sp.v.length 0 0x1600
    threads := sp.threads.zipIdx.map (fun x => x.1.restore rd x.2) }

/-- A tile handle as its 16 bytes give it; its number is that of the handle saved. -/
def Tile.restore (t : Option Tile) (d : List Byte) : Option Tile :=
  let f := leNat ((d.drop 12).take 4)
  if f.testBit 2 then
    some { uid := (t.map (·.uid)).getD 0, base := leNat (d.take 4), rows := leNat ((d.drop 4).take 4)
           cols := leNat ((d.drop 8).take 4), nf := f.testBit 0, ovf := f.testBit 1 }
  else none

/-- What stands in a record outside its spindles, taken back where it differs from what was saved. `get` reads it. -/
def Block.restore (b : Block) (c : Ctx) (get : Nat → Nat → Option (List Byte)) : Option Block :=
  let loc := 0xA_D000
  let pres := loc + c.desc.qlocal * 0x1_0000
  let acc := loc + c.desc.qlocal * 0x1_1000
  let lines := b.lsize / 128
  let words := (b.spindles.map (·.afull)).sum
  match get 0x100 256, get loc b.lsize, get pres ((lines + 7) / 8), get (pres + 64 * c.desc.qlocal) lines,
      get acc (32 * words), get (acc + c.desc.qacc * 0x2_0000) words with
  | some z, some l, some p, some f, some w, some y =>
    let bit (i : Nat) : Bool := ((p[i / 8]?).getD 0).getLsbD (i % 8)
    let changed := (List.range words).filterMap (fun n =>
      let x : AccWord := { n := n, w := BitVec.ofNat 256 (leNat ((w.drop (32 * n)).take 32)), carry := (y[n]?).getD 0 }
      if x == b.accWord n then none else some x)
    some { b with
      tiles := b.tiles.zipIdx.map (fun x => Tile.restore x.1 ((z.drop (16 * x.2)).take 16))
      lmem := if l == b.lbytes 0 b.lsize then b.lmem else Memory.setMany b.lmem 0 l
      absent := if (List.range lines).all (fun i => bit i == b.present i) then b.absent
        else (List.range lines).filter (fun i => !bit i)
      fills := if (List.range lines).all (fun i => ((f[i]?).getD 0).toNat == b.fillCount i) then b.fills
        else (List.range lines).filterMap (fun i => if (f[i]?).getD 0 == 0 then none else some (i, ((f[i]?).getD 0).toNat))
      acc := changed ++ b.acc.filter (fun x => !changed.any (fun y => y.n == x.n)) }
  | _, _, _, _, _, _ => none

/-- A saved block read back; none where a read fails. -/
def State.loadBlock (s : State) (c : Ctx) (i : Nat) (b : Block) : Option Block :=
  let get (off n : Nat) : Option (List Byte) :=
    if n == 0 then some []
    else
      match s.readVirt none c (c.recAt i + BitVec.ofNat 64 off) n with
      | .ok (d, _) => some d
      | .error _ => none
  let sp (m : Nat) : Option (List Byte) := get (0x200 + spSize * m) spSize
  if b.spindles.all (fun x => (sp x.m).isSome) then
    let b' : Block := { b with spindles := b.spindles.map (fun x =>
      let d := (sp x.m).getD []
      x.restore (fun off n => leNat ((d.drop off).take n))) }
    b'.restore c get
  else none

/-- A saved block as its record now stands, edits of a tailstock hart among them (R398); as it was where that cannot be read. -/
def State.reload (s : State) (uid : Nat) : State :=
  match s.blk uid with
  | none => s
  | some b =>
    match b.saveRec, s.ctx b.ctx with
    | some i, some c => ((s.loadBlock c i b).map (fun x => s.updBlk uid (fun _ => x))).getD s
    | _, _ => s

/-! Stop records (R390). -/

/-- A thread record. -/
def Thread.stopRecord (t : Thread) (core spid slot : Nat) : List Byte :=
  let cause := (t.stop.map (fun x => x.cause.code)).getD 0
  let idx := (t.mid.map (·.idx)).getD 0
  let lat (n : Nat) : Option LatchVal := t.latchOf n
  let valid := ((List.range 4).map (fun n => if (lat n).isSome then 2 ^ n else 0)).sum
  let tags := ((List.range 4).map (fun n => ((lat n).map (fun l => tagCode l.tag)).getD 0 * 4 ^ n)).sum
  leBytes 8 t.place.toNat ++
  leBytes 8 (slot + core * 2 ^ 16 + spid * 2 ^ 24 + tags * 2 ^ 32 + valid * 2 ^ 40 + idx * 2 ^ 44 + cause * 2 ^ 48 + 2 ^ 56) ++
  leBytes 8 ((t.stop.map (fun x => x.detail.toNat)).getD 0) ++
  leBytes 8 0 ++
  (List.range 4).flatMap (fun n => leBytes 8 (((lat n).map (fun l => l.val.toNat)).getD 0))

/-- An engine record. -/
def EngStop.record (x : EngStop) : List Byte :=
  leBytes 8 x.hdr.toNat ++
  leBytes 8 (x.core * 2 ^ 16 + x.spid * 2 ^ 24 + x.state * 2 ^ 38 + x.engine * 2 ^ 40 + x.cause.code * 2 ^ 48 + 2 * 2 ^ 56) ++
  leBytes 8 x.detail.toNat ++ leBytes 8 x.amount ++ List.replicate 32 0

/-- Records written one after another into the stop area: the number of each, none for one that is dropped. -/
def State.putStops (s : State) (c : Ctx) : List (List Byte) → Nat → State × List (Option Nat)
  | [], _ => (s, [])
  | r :: rs, k =>
    let put := if c.desc.stopbase == 0 || 2 ^ (c.desc.stoplog2 + 8) ≤ k then none
      else
        match s.writeVirt c (c.desc.stopbase + BitVec.ofNat 64 (64 + 64 * k)) r with
        | .error _ => none
        | .ok t => some t
    match put with
    | none => let (t, l) := s.putStops c rs k; (t, none :: l)
    | some t => let (u, l) := t.putStops c rs (k + 1); (u, some k :: l)

end Sys2Proof.Machine
end

