-- ==== Sys2Proof/Machine/Tiles.lean ====
section
/-! DEFINITION. Tiles.lean: accumulator tiles (R65 to R69, R77 to R89, R162, R296 to R306). -/

namespace Sys2Proof.Machine

/-! Shared checks and reads. -/

/-- A tile's words. -/
def Tile.size (t : Tile) : Nat := t.rows * t.cols

/-- The tile a handle names at issue: none where it is undefined or covers a word that is not held (R65, R296). -/
def Block.tile (b : Block) (z : BitVec 4) : Option Tile :=
  match (b.tiles[z.toNat]?).join with
  | some t => if b.accHeldAll t.base t.size then some t else none
  | none => none

/-- A tile's flags now; a handle defined anew has another number (R296). -/
def Block.tileNow (b : Block) (t : Tile) : Tile :=
  ((b.tiles.find? (fun x => x.map (·.uid) == some t.uid)).join).getD t

/-- A tile's flags changed. -/
def Block.setTile (b : Block) (t : Tile) : Block :=
  { b with tiles := b.tiles.map (fun x => if x.map (·.uid) == some t.uid then some t else x) }

/-- Consecutive accumulator words written. -/
def Block.accPut (b : Block) (base : Nat) (l : List (BitVec 256 × BitVec 8)) : Block :=
  { b with acc := l.zipIdx.map (fun x => ({ n := base + x.2, w := x.1.1, carry := x.1.2 } : AccWord)) ++
      b.acc.filter (fun x => !(base ≤ x.n && x.n < base + l.length)) }

/-- The words of a tile. -/
def Block.accAll (b : Block) (t : Tile) : List (BitVec 256 × BitVec 8) :=
  (List.range t.size).map (fun i => b.accGet (t.base + i))

/-- R68: the rounding mode of a format word, none where the word raises ILLEGAL_INSN. -/
def fwMode (fw : Word) : Option RMode :=
  if fw.extractLsb' 13 19 != 0 || 6 < (fw.extractLsb' 0 4).toNat || 6 < (fw.extractLsb' 4 4).toNat then none
  else
    match (fw.extractLsb' 8 3).toNat with
    | 0 => some .rne
    | 1 => some .rz
    | 2 => some .ru
    | 3 => some .rd
    | 4 => some .sr
    | _ => none

/-- An arithmetic record of an operation in flight. -/
def State.logOp (s : State) (o : Op) (cause : Nat) : State :=
  match s.blk o.blk with
  | some b =>
    s.logTo o.ctx true
      (logBytes (BitVec.ofNat 64 s.devtime) (s.seqOf b) o.hdr cause o.spid o.core (o.slots.headD 0) true)
  | none => s

/-- Two ranges of words overlap. -/
def rangesMeet (a n b m : Nat) : Bool := a < b + m && b < a + n

/-- R66: an `mma` into some of a tile's words that no thread has waited for on the token that covers it. One without a token
keeps its words unpredictable until a `zdef` over them once it is complete: DESIGN CHOICE, log entry 71. -/
def Block.mmaOver (b : Block) (t : Tile) : Bool := b.mmas.any (fun x => rangesMeet t.base t.size x.base x.size)

/-- The n-th free exact word and carry count after `c` (R5, R66). -/
def freeAcc (c n : Nat) : BitVec 256 × BitVec 8 :=
  (Config.freeWord (c + 5 * n) ++ Config.freeWord (c + 5 * n + 1) ++ Config.freeWord (c + 5 * n + 2) ++
    Config.freeWord (c + 5 * n + 3), (Config.freeWord (c + 5 * n + 4)).setWidth 8)

/-- R66: the operand buffers of an `mma` in flight, or of one that a token covers and that no thread has waited for, meet some
of a local range. -/
def State.opndOver (s : State) (b : Block) (l : List (Nat × Nat)) : Bool :=
  b.mmas.any (fun x => (x.token.isSome || s.ops.any (fun o => o.id == x.op)) &&
    l.any (fun r => x.opnds.any (fun q => rangesMeet r.1 r.2 q.1 q.2)))

/-- A tile as an operation reads it: its words, its NF and OVF, and whether they are unpredictable, the `mma` that covers it
not waited for (R66). Such a read has no other effect (R5). -/
structure TileRead where
  ws   : List (BitVec 256 × BitVec 8)
  nf   : Bool
  ovf  : Bool
  free : Bool
  deriving DecidableEq, Repr

/-- The read of a tile; `early` says that it was issued before that wait. -/
def State.tileRead (s : State) (uid : Nat) (t : Tile) (early : Bool) : TileRead × State :=
  match s.blk uid with
  | some b =>
    if early || b.mmaOver t then
      let fl := Config.freeWord (s.freeCtr + 5 * t.size)
      ({ ws := (List.range t.size).map (freeAcc s.freeCtr), nf := fl.getLsbD 0, ovf := fl.getLsbD 1, free := true },
        { s with freeCtr := s.freeCtr + 5 * t.size + 1 })
    else
      let ws := b.accAll t
      ({ ws := ws, nf := (b.tileNow t).nf, ovf := (b.tileNow t).ovf || ws.any (fun w => w.2 != 0), free := false }, s)
  | none => ({ ws := List.replicate t.size (0, 0), nf := false, ovf := false, free := false }, s)

/-- R84: a read that finds a carry count sets OVF; whether it is the first to set it. -/
def State.seeOvf (s : State) (uid : Nat) (t : Tile) (r : TileRead) : Bool × State :=
  match s.blk uid with
  | some b =>
    let now := b.tileNow t
    if !r.free && r.ws.any (fun w => w.2 != 0) && !now.ovf then
      (true, s.updBlk uid (fun b => b.setTile { now with ovf := true }))
    else (false, s)
  | none => (false, s)

/-- A local descriptor of n bytes read at issue as an `ldl` of the thread in the lowest slot (R288). -/
def State.withDesc (s : State) (e : Env) (a n : Nat) (f : State → List Byte → State) : State :=
  match e.localOk a n with
  | .error x => s.stopped e e.low false x
  | .ok _ =>
    match s.fillsOk e [(e.low, a)] n with
    | .error (j, x) => s.stopped e j false x
    | .ok fills =>
      let missing := (linesOf [(e.low, a)] n).filter (fun x => !e.b.present x)
      if missing.isEmpty then f s (e.b.lread e.sp.m a n)
      else
        match s.badStash e [(e.low, a)] n with
        | some (j, p) => s.trap e j .uncorrectable (BitVec.ofNat 64 (128 * p))
        | none => (s.stashFills e fills).park e e.r.exec (fun _ => .lines missing s.devtime)

/-- A field of a descriptor: bits [lo + n − 1 : lo]. -/
def dfield (d : List Byte) (lo n : Nat) : Nat := leNat d / 2 ^ lo % 2 ^ n

/-! `zdef`, `zclr`, `opfence`. -/

/-- R296. The words of a finished `mma` that no token covers can be read again through the new handle.
DESIGN CHOICE, log entry 71. -/
def execZdef (z : BitVec 4) (clr : Bool) (base rows cols : Sel) (s : State) : Out :=
  s.within (fun e =>
    let ba := (e.readU base).toNat
    let r := (e.readU rows).toNat
    let c := (e.readU cols).toNat
    if ba % 64 == 0 && decide (1 ≤ r) && decide (r ≤ 64) && decide (1 ≤ c) && decide (c ≤ 1024) && e.b.accHeldAll ba (r * c) then
      let (uid, s) := s.fresh
      let t : Tile := { uid := uid, base := ba, rows := r, cols := c, nf := false, ovf := false }
      s.updBlk e.b.uid (fun b =>
        { (b.accPut ba ((b.accAll t).map (fun w => (if clr then 0 else w.1, 0)))) with
          tiles := b.tiles.set z.toNat (some t)
          mmas := b.mmas.filter (fun x => x.token.isSome || s.ops.any (fun o => o.id == x.op) || !rangesMeet ba (r * c) x.base x.size) })
    else s.trap e e.low .illegalOperand 0)

/-- R297: performed at issue, before the additions of an `mma` in flight (R67). -/
def execZclr (z : BitVec 4) (s : State) : Out :=
  s.within (fun e =>
    match e.b.tile z with
    | none => s.trap e e.low .illegalOperand 0
    | some t =>
      s.updBlk e.b.uid (fun b =>
        (b.accPut t.base (List.replicate t.size (0, 0))).setTile { t with nf := false, ovf := false }))

/-- The earlier `stl` stores of some threads of a spindle are visible to every operand read (R162). -/
def Block.opfence (b : Block) (m : Nat) (ks : List Nat) : Block :=
  { b with unseen := b.unseen.filter (fun u => !(u.m == m && ks.contains u.slot)) }

/-- R300. -/
def execOpfence (s : State) : Out :=
  s.within (fun e => s.updBlk e.b.uid (fun b => b.opfence e.sp.m e.r.exec))

/-! `mma` (R298, R299, R301). -/

/-- The geometry of a stored operand: pitch, offset of its scales, bytes through the last one read (R298). -/
structure Geom where
  p   : Nat
  s   : Nat
  ext : Nat
  deriving DecidableEq, Repr

/-- R298. -/
def geom (c rows kb : Nat) (tr : Bool) : Geom :=
  let k := 32 * kb
  let row := rowBytes c (if tr then rows else k)
  let stored := if tr then k else rows
  let p := roundUp 16 row
  let sc := roundUp 128 (stored * p)
  { p := p, s := sc, ext := if codeScaled c then sc + rows * kb else (stored - 1) * p + row }

/-- The value of element (r, k) of an operand at `x`, none for an infinity or a NaN. -/
def opndElem (rd : Nat → Byte) (c rows kb : Nat) (tr : Bool) (x r k : Nat) : Option Ex :=
  let g := geom c rows kb tr
  let sc := (rd (x + g.s + (if tr then k / 32 * rows + r else r * kb + k / 32))).toNat
  codeValue c sc (elemBits rd c (x + (if tr then k else r) * g.p) (if tr then r else k))

/-- Its row r in units of 2^−56, a non-finite element as 0 (R81). -/
def opndRow (rd : Nat → Byte) (c rows kb : Nat) (tr : Bool) (x r : Nat) : List (Option Int) :=
  (List.range (32 * kb)).map (fun k => (opndElem rd c rows kb tr x r k).map (fun v => v.units 56))

/-- The exact sum of products of two rows, in units of 2^−112. -/
def dotRows : List (Option Int) → List (Option Int) → Int
  | a :: r, b :: t => a.getD 0 * b.getD 0 + dotRows r t
  | _, _ => 0

/-- What an `mma` reads of an operand: address and length. -/
def mmaRanges (t : Tile) (xa xb kb : Nat) (fw : Word) : (Nat × Nat) × (Nat × Nat) :=
  ((xa, (geom (fw.extractLsb' 0 4).toNat t.rows kb (fw.getLsbD 11)).ext),
    (xb, (geom (fw.extractLsb' 4 4).toNat t.cols kb (fw.getLsbD 12)).ext))

/-- The block of a gang launch on a core of the gang (R301). -/
def State.gangBlockAt (s : State) (b : Block) (core : Nat) : Option Block :=
  (s.gangBlocks b).find? (fun x => !x.evicted && x.core % Config.gangCores == core && gangOf x.core == gangOf b.core)

/-- A tile operation is issued that reads a tile and local ranges; `early` where an `mma` not waited for covers one of them
(R66). -/
def State.addTile (s : State) (e : Env) (t : Option Tile) (l : List (Nat × Nat)) (k : OpKind) : State :=
  s.addOp e e.r.exec k ((t.map (fun t => e.b.mmaOver t)).getD false || s.opndOver e.b l)

/-- An `mma` is issued: its tile and the operand buffers it has in its block's memory are unpredictable until a wait on the
token that covers it (R66). -/
def State.addMma (s : State) (e : Env) (t : Tile) (l : List (Nat × Nat)) (k : OpKind) : State :=
  let mark : MmaMark :=
    { op := s.nextId, m := e.sp.m, slots := e.r.exec, token := e.r.token, base := t.base, size := t.size, opnds := l }
  (s.addOp e e.r.exec k).updBlk e.b.uid (fun b => { b with mmas := mark :: b.mmas })

/-- The issue of an `mma` (R68, R69, R298, R299, R301). -/
def State.issueMma (s : State) (e : Env) (gang : Bool) (z : BitVec 4) (a b bcore fw : Sel) : State :=
  match e.b.tile z with
  | none => s.trap e e.low .illegalOperand 0
  | some t =>
    let w := e.read32 fw e.low
    let av := e.read32 a e.low
    let bv := e.read32 b e.low
    let xa := (av.extractLsb' 0 20).toNat
    let xb := (bv.extractLsb' 0 20).toNat
    let kb := (av.extractLsb' 20 12).toNat
    let w2 := (((s.launch e.b.launch).bind (fun l => l.w[2]?))).getD 0
    if gang && w2 == 0 then s.trap e e.low .illegalInsn 0
    else if e.r.exec.any (fun k => e.read32 fw k != w) then s.trap e e.low .formatDivergence (w.setWidth 64)
    else if (fwMode w).isNone then s.trap e e.low .illegalInsn 0
    else if kb == 0 || decide (2048 < kb) || bv.extractLsb' 20 12 != 0 then s.trap e e.low .illegalOperand 0
    else
      let src := if gang then s.gangBlockAt e.b (e.readU bcore).toNat else some e.b
      match src with
      | none => s.trap e e.low .illegalOperand 0
      | some src =>
        let (ra, rb) := mmaRanges t xa xb kb w
        let mine := if src.uid == e.b.uid then [ra, rb] else [ra]
        if e.b.lsize < ra.1 + ra.2 then s.trap e e.low .protection (BitVec.ofNat 64 xa)
        else if src.uid == e.b.uid && decide (e.b.lsize < rb.1 + rb.2) then s.trap e e.low .protection (BitVec.ofNat 64 xb)
        else if gang then
          let n := e.b.gangN
          let s := s.updBlk e.b.uid (fun b => { b with gangN := n + 1 })
          if e.b.gangX.contains n then s
          else s.addMma e t mine (.mma t z.toNat xa xb kb w (some (e.readU bcore).toNat) n none)
        else s.addMma e t mine (.mma t z.toNat xa xb kb w none 0 (some e.b.uid))

def execMma (z : BitVec 4) (a b bcore fw : Sel) (s : State) : Out := s.within (fun e => s.issueMma e false z a b bcore fw)
def execMmaGang (z : BitVec 4) (a b bcore fw : Sel) (s : State) : Out := s.within (fun e => s.issueMma e true z a b bcore fw)

/-- A byte as an operand read finds it (R162): it may be missing the newest stores that no `opfence` has made visible, how
many of them is free. `c` numbers the read. -/
def Block.opndByte (b : Block) (c a : Nat) : Byte :=
  let rec go : List Unseen → Nat → Byte → Byte
    | [], _, v => v
    | u :: r, i, v => if (Config.freeWord (c + a)).getLsbD i then go r (i + 1) ((u.old[a - u.addr]?).getD v) else v
  go (b.unseen.filter (fun u => decide (u.addr ≤ a) && decide (a < u.addr + u.old.length))) 0 (b.lbyte a)

/-- The elements of a row that the first `n` steps of an `mma` take (R389), the others as 0: `g` is the column group,
`groups` their number. -/
def firstSteps (n groups g : Nat) (l : List (Option Int)) : List (Option Int) :=
  l.zipIdx.map (fun x => if x.2 / 32 * groups + g < n then x.1 else some 0)

/-- The additions of one `mma` (R299), B read from `rdB`: all of them, or those of its first steps (R389). -/
def State.mmaWork (s : State) (o : Op) (rdB : Nat → Byte) (xb : Nat) (steps : Option Nat) : State :=
  match o.kind, s.blk o.blk with
  | .mma t _ xa _ kb fw _ _ _, some b =>
    let fa := (fw.extractLsb' 0 4).toNat
    let fb := (fw.extractLsb' 4 4).toNat
    let cut (g : Nat) (r : List (Option Int)) : List (Option Int) := match steps with
      | some n => firstSteps n t.groups g r
      | none => r
    let ra := (List.range t.rows).map (fun i => cut 0 (opndRow (b.opndByte s.freeCtr) fa t.rows kb (fw.getLsbD 11) xa i))
    let rb := (List.range t.cols).map (fun j => cut (j / 128) (opndRow rdB fb t.cols kb (fw.getLsbD 12) xb j))
    let sums := ra.flatMap (fun x => rb.map (dotRows x))
    let ws := List.zipWith (fun w u => exactAdd w.1 w.2 u) (b.accAll t) sums
    let bad := (ra ++ rb).foldl (fun n r => n + (r.filter (fun v => v.isNone)).length) 0
    let s := if b.unseen.isEmpty then s else { s with freeCtr := s.freeCtr + b.lsize }
    let s := s.updBlk o.blk (fun b => b.accPut t.base ws)
    let s := if bad == 0 then s
      else s.updBlk o.blk (fun b => b.setTile { b.tileNow t with nf := true })
    (List.range bad).foldl (fun u _ => u.logOp o 0x13) s
  | _, _ => s

/-- The lines of ranges are present. -/
def Block.allPresent (b : Block) (l : List (Nat × Nat)) : Bool :=
  l.all (fun r => (linePieces r.1 r.2).all (fun p => b.present (lineOf p.1)))

/-- The operations of one gang operation (R301). -/
def State.gangOps (s : State) (b : Block) (n : Nat) : List Op :=
  (s.gangBlocks b).filterMap (fun x => s.ops.find? (fun o => o.blk == x.uid &&
    (match o.kind with | .mma _ _ _ _ _ _ (some _) k _ => k == n | _ => false)))

/-- The blocks' operations that an `mma` goes on with, itself or those of its gang operation in lockstep, and the block
that holds B with its address. None while a line is absent or a block has not issued. -/
def State.mmaReady (s : State) (o : Op) : Option (List Op × Block × Nat) :=
  match o.kind with
  | .mma t _ xa xb kb fw core n (some src) =>
    match s.blk o.blk, s.blk src with
    | some b, some sb =>
      let (ra, rb) := mmaRanges t xa xb kb fw
      match core with
      | none => if b.allPresent [ra, rb] then some ([o], b, xb) else none
      | some _ =>
        let os := s.gangOps b n
        let here (x : Op) : Bool := match x.kind, s.blk x.blk with
          | .mma t _ xa xb kb fw _ _ _, some c => c.allPresent [(mmaRanges t xa xb kb fw).1]
          | _, _ => false
        if os.all here && sb.allPresent [rb] then some (os, sb, xb) else none
    | _, _ => none
  | _ => none

/-- An `mma` performed: its own additions, or those of every block of its gang operation. -/
def State.doMma (s : State) (o : Op) : Option State :=
  (s.mmaReady o).map (fun x =>
    x.1.foldl (fun u p => (u.mmaWork p (x.2.1.opndByte (s.freeCtr + 2 ^ 20)) x.2.2 none).dropOp p)
      (if x.2.1.unseen.isEmpty then s else { s with freeCtr := s.freeCtr + 2 ^ 21 }))

/-- The fields that the blocks of a gang operation have to agree in (R301). -/
def OpKind.gangKey (k : OpKind) : Option (Word × Nat × Nat × Nat) :=
  match k with
  | .mma t _ _ _ kb fw (some core) _ _ => some (fw, kb, t.cols, core)
  | _ => none

/-- GANG_MMA_MATCH (R301): once every block of the gang launch has issued its n-th `mma.gang`, they are compared.
The X_B of the core that holds B goes to every block. -/
def execGangMmaMatch (blk : Nat) (s : State) : Out :=
  match s.blk blk with
  | none => .next s
  | some b =>
    let open_ := s.ops.filterMap (fun o =>
      match o.kind with
      | .mma _ _ _ _ _ _ (some core) n none => if o.blk == blk then some (n, core) else none
      | _ => none)
    match open_ with
    | [] => .next s
    | (n, core) :: _ =>
      let os := s.gangOps b n
      let members := (((s.launch b.launch).bind (fun l => l.e[2]?))).getD 0
      if os.length < members || os.isEmpty then .next s
      else
        let keys := os.map (fun o => o.kind.gangKey)
        if keys.any (fun k => k != keys.headD none) then
          let stops := os.map (fun o =>
            o.engStop .formatDivergence 2 (match o.kind with | .mma _ _ _ _ _ fw _ _ _ => fw.toNat | _ => 0))
          let s := os.foldl (fun t o => t.dropOp o) { s with engStops := s.engStops ++ stops }
          .next (s.haltCtx b.ctx .formatDivergence)
        else
          match s.gangBlockAt b core with
          | none => .next s
          | some sb =>
            let xb := firstSome (os.map (fun o =>
              match o.kind with
              | .mma _ _ _ xb _ _ _ _ _ => if o.blk == sb.uid then some xb else none
              | _ => none))
            .next (os.foldl (fun t o =>
              match o.kind with
              | .mma u z xa x kb fw c k _ => t.setKind o.id (.mma u z xa (xb.getD x) kb fw c k (some sb.uid))
              | _ => t) s)

/-! `zrnd` (R302). -/

/-- The result of RoundTo of units of 2^−112 and whether it overflowed. -/
def zrndRound (f : ZFmt) (rm : RMode) (r : Nat) (u : Int) : Nat × Bool :=
  match f with
  | .f32 => roundUnits FFmt.f32 rm r false u 112
  | .bf16 => roundUnits FFmt.bf16 rm r false u 112
  | .f16 => roundUnits FFmt.f16 rm r false u 112
  | .f64 => roundUnits FFmt.f64 rm r false u 112
  | .int32 => roundInts 32 rm r u 112

/-- R81: what a destination receives while NF is set. -/
def zrndNf (f : ZFmt) : Nat :=
  match f with
  | .f32 => FFmt.f32.canon
  | .bf16 => FFmt.bf16.canon
  | .f16 => FFmt.f16.canon
  | .f64 => FFmt.f64.canon
  | .int32 => 0x80000000

/-- One slot of `zrnd`. -/
def zrndSlot (t : Tile) (nf : Bool) (ws : List (BitVec 256 × BitVec 8)) (f : ZFmt) (rm : RMode) (k : Nat)
    (pos origin seed : Dword) : Nat × Bool :=
  let r := pos.toNat % 2 ^ 16
  let c := pos.toNat / 2 ^ 16 % 2 ^ 16 + k
  if t.rows ≤ r || t.cols ≤ c then (0, false)
  else if nf then (zrndNf f, false)
  else
    let idx := r * t.cols + c
    let u : Int := ((ws[idx]?).map (fun (w : BitVec 256 × BitVec 8) => w.1.toInt)).getD 0
    zrndRound f rm (if rm == .sr then srHash seed (origin.toNat % 2 ^ 16) (origin.toNat / 2 ^ 16 % 2 ^ 16) idx else 0) u

def execZrnd (d : BitVec 7) (f : ZFmt) (rm : RMode) (z : BitVec 4) (pos origin seed : Sel) (s : State) : Out :=
  s.within (fun e =>
    match e.b.tile z with
    | none => s.trap e e.low .illegalOperand 0
    | some t =>
      let (r, s) := s.tileRead e.b.uid t false
      let (first, s) := s.seeOvf e.b.uid t r
      let res := e.r.exec.map (fun k =>
        (k, zrndSlot t r.nf r.ws f rm k (e.read true pos k) (e.read true origin k) (e.read true seed k)))
      let s := if first then s.logArith e 0x11 e.low true else s
      let s := if !r.free && res.any (fun x => x.2.2) then s.logArith e 0x10 e.low true else s
      let n := if f == .f64 then 2 else 1
      let words := res.flatMap (fun x =>
        (List.range n).map (fun i => ({ slot := x.1, reg := d.toNat + i, val := BitVec.ofNat 32 (x.2.1 / 2 ^ (32 * i)) } : RegW)))
      (s.tagG e d.toNat n).addOp e e.r.exec (.zrnd t z.toNat words))

/-! `zdrain` (R303, R304). -/

/-- The format of a drain's element, none for an integer. -/
def drainFmt (c : Nat) : Option FFmt :=
  match c with
  | 0 => some FFmt.f32
  | 1 => some FFmt.bf16
  | 2 | 5 => some FFmt.f16
  | 3 => some FFmt.e4m3f
  | 4 => some FFmt.e5m2
  | _ => none

/-- Its bytes. -/
def drainSize (c : Nat) : Nat :=
  match c with
  | 0 | 7 => 4
  | 1 | 2 | 5 => 2
  | _ => 1

/-- T of R88 for a scaled format. -/
def drainT (c : Nat) : Option Int :=
  match c with
  | 3 => some 7
  | 4 | 5 => some 14
  | _ => none

/-- One element in units of 2^−q: its bits and whether it overflowed. -/
def drainElem (c : Nat) (rm : RMode) (nosat nf : Bool) (r : Nat) (u q : Int) : Nat × Bool :=
  match drainFmt c with
  | some F => if nf then (F.canon, false) else roundUnits F rm r nosat u q
  | none =>
    let n := 8 * drainSize c
    if nf then (2 ^ (n - 1), false) else roundInts n rm r u q

/-- Consecutive elements cut into blocks of 32. -/
def blocks32 {α : Type} : Nat → List α → List (List α)
  | 0, _ => []
  | fuel + 1, l => if l.isEmpty then [] else l.take 32 :: blocks32 fuel (l.drop 32)

/-- The largest magnitude of some values. -/
def maxAbs (l : List Int) : Nat := (l.map Int.natAbs).foldl max 0

/-- A line of a drain: element bytes, scale bytes, whether an element overflowed. A value comes with its idx and is
in units of 2^−149. -/
def drainLine (c : Nat) (rm : RMode) (nosat nf : Bool) (rw : Nat → Nat) (vals : List (Int × Nat)) :
    List Byte × List Byte × Bool :=
  let one (q : Int) (x : Int × Nat) : Nat × Bool := drainElem c rm nosat nf (if rm == .sr then rw x.2 else 0) x.1 q
  match drainT c with
  | none =>
    let o := vals.map (one 149)
    (o.flatMap (fun x => leBytes (drainSize c) x.1), [], o.any (·.2))
  | some t =>
    let parts := (blocks32 vals.length vals).map (fun b =>
      let ex := blockExp t (maxAbs (b.map (fun (x : Int × Nat) => x.1))) 149
      (ex, b.map (one (149 + (ex : Int) - 32))))
    (parts.flatMap (fun p => p.2.flatMap (fun x => leBytes (drainSize c) x.1)),
      parts.map (fun p => BitVec.ofNat 8 p.1), parts.any (fun p => p.2.any (·.2)))

/-- The pages of the amax word: read and written by an atomic (R304). -/
def askAmax : Ask := { askCopy true with perm := fun p => p.r && p.w }

/-- The places of rows of n bytes at a pitch (R303: every range written is checked). -/
def State.rowLocs (s : State) (e : Env) (va : Dword) (pitch n : Nat) (ask : Ask) : Nat → Except Stop (List (Loc × Nat))
  | 0 => .ok []
  | k + 1 =>
    match s.rowLocs e va pitch n ask k with
    | .error x => .error x
    | .ok l =>
      match s.checkAccess (e.walker s) (va + BitVec.ofNat 64 (k * pitch)) n ask (fun _ => none) with
      | .error x => .error x
      | .ok m => .ok (l ++ m)

/-- A range checked where it is used. -/
def State.rangeIf (s : State) (e : Env) (use : Bool) (va : Dword) (n : Nat) (ask : Ask) : Except Stop (List (Loc × Nat)) :=
  if use then s.checkAccess (e.walker s) va n ask (fun _ => none) else .ok []

/-- The virtual ranges that the walkers of a drain reach: those of its descriptor, its main copy row by row. -/
def drainRanges (t : Tile) (va : Dword) (d : List Byte) (dfmt dpitch : Nat) : List (Dword × Nat) :=
  let at_ (lo : Nat) : Dword := BitVec.ofNat 64 (dfield d lo 64)
  let use (b : Bool) (r : List (Dword × Nat)) := if b then r else []
  let tr := dfield d 13 1 == 1
  let sc := (drainT dfmt).isSome
  let n := drainSize dfmt
  use (dfield d 15 1 == 1) [(at_ 32, 4 * t.cols)] ++
    (List.range t.rows).map (fun i => (va + BitVec.ofNat 64 (i * dpitch), t.cols * n)) ++
    use sc [(at_ 192, t.rows * ((t.cols + 31) / 32))] ++
    use tr ((List.range t.cols).map (fun j => (at_ 256 + BitVec.ofNat 64 (j * dfield d 160 32), t.rows * n))) ++
    use (tr && sc) [(at_ 320, t.cols * ((t.rows + 31) / 32))] ++
    use (dfield d 14 1 == 1) [(at_ 384, 4)]

/-- The ranges of a drain: main copy, its scale bytes, transposed copy, its scale bytes, amax word, whose alignment is a
condition of that access (R236, step 6). DESIGN CHOICE, log entry 81. -/
def State.drainLocs (s : State) (e : Env) (t : Tile) (va : Dword) (d : List Byte) (dfmt dpitch : Nat) :
    Except Stop (List (List (Loc × Nat))) :=
  let at_ (lo : Nat) : Dword := BitVec.ofNat 64 (dfield d lo 64)
  let tr := dfield d 13 1 == 1
  let sc := (drainT dfmt).isSome
  let n := drainSize dfmt
  match s.rowLocs e va dpitch (t.cols * n) (askCopy true) t.rows with
  | .error x => .error x
  | .ok a =>
    match s.rangeIf e sc (at_ 192) (t.rows * ((t.cols + 31) / 32)) (askCopy true) with
    | .error x => .error x
    | .ok b =>
      match s.rowLocs e (at_ 256) (dfield d 160 32) (t.rows * n) (askCopy true) (if tr then t.cols else 0) with
      | .error x => .error x
      | .ok c =>
        match s.rangeIf e (tr && sc) (at_ 320) (t.cols * ((t.rows + 31) / 32)) (askCopy true) with
        | .error x => .error x
        | .ok f =>
          match s.rangeIf e (dfield d 14 1 == 1) (at_ 384) 4 askAmax with
          | .error x => .error x
          | .ok g =>
            if dfield d 14 1 == 1 && dfield d 384 64 % 4 != 0 then .error (.trap .illegalOperand 0) else .ok [a, b, c, f, g]

/-- The issue of a drain whose descriptor's bytes are `d`; without one its bytes are 0 and its pitch cols × 4. -/
def State.issueDrain (s : State) (e : Env) (z : BitVec 4) (t : Tile) (rm : RMode) (va : Dword) (d : List Byte) (dpitch : Nat) : State :=
  let dfmt := dfield d 8 4
  let n := drainSize dfmt
  let bad := dfield d 0 8 != 0 || dfield d 16 16 != 0 || decide (7 < dfmt) || decide (dpitch < t.cols * n) ||
    (dfield d 13 1 == 1 && decide (dfield d 160 32 < t.rows * n))
  if bad then s.trap e e.low .illegalOperand 0
  else
    let s := s.walkedAll (e.walker s) (drainRanges t va d dfmt dpitch)
    match s.rangeIf e (dfield d 15 1 == 1) (BitVec.ofNat 64 (dfield d 32 64)) (4 * t.cols) (askCopy false) with
    | .error x => s.stopped e e.low false x
    | .ok bl =>
      match s.badLocs bl with
      | some l => s.unitHalt e 2 l
      | none =>
        let (raw, s) := s.readLocs (some e.b.core) bl
        let bias := (List.range (raw.length / 4)).map (fun j => BitVec.ofNat 32 (leNat ((raw.drop (4 * j)).take 4)))
        if bias.any (fun w => (FFmt.f32.decode w.toNat).exact.isNone) then s.trap e e.low .illegalOperand 0
        else
          match s.drainLocs e t va d dfmt dpitch with
          | .error x => s.stopped e e.low true x
          | .ok ls =>
            let rec_ : DrainD :=
              { seed := BitVec.ofNat 64 (dfield d 448 64), col0 := dfield d 112 16, row0 := dfield d 96 16, bias := bias
                nosat := dfield d 12 1 == 1, dfmt := dfmt }
            s.addTile e (some t) [] (.zdrain t z.toNat rec_ rm ls)

/-- R303. -/
def execZdrain (z : BitVec 4) (hasDesc : Bool) (base off desc fw : Sel) (s : State) : Out :=
  s.within (fun e =>
    match e.b.tile z with
    | none => s.trap e e.low .illegalOperand 0
    | some t =>
      match fwMode (e.read32 fw e.low) with
      | none => s.trap e e.low .illegalInsn 0
      | some rm =>
        let va := e.gaddr ⟨base, off, 0⟩ 1 e.low
        if hasDesc then
          let a := (e.readU desc).toNat
          if a % 64 != 0 then s.trap e e.low .illegalOperand 0
          else s.withDesc e a 64 (fun s d => s.issueDrain e z t rm va d (dfield d 128 32))
        else if desc != .zero then s.trap e e.low .illegalOperand 0
        else s.issueDrain e z t rm va (List.replicate 64 0) (t.cols * 4))

/-- An engine's write of issue-checked places; a link gone down fails it (R408). -/
def State.opWrite (s : State) (o : Op) (locs : List (Loc × Nat)) (d : List Byte) : State :=
  match s.downLocs locs with
  | some l => s.engineHalt o .uncorrectable (128 * l)
  | none => s.writeLocs o.stream (some o.id) locs d

/-- The amax merge (R304). -/
def State.mergeMax (s : State) (o : Op) (w : Nat) (locs : List (Loc × Nat)) : State :=
  match locs with
  | (.mem pa, _) :: _ =>
    let s := s.rmwLine (lineOf pa) false
    let old := leNat (bytesAt s.home pa 4)
    s.engineStore pa (leBytes 4 (max old w))
  | (.peer dev pa, _) :: _ =>
    s.sendPeer o.stream dev pa (.atomic .maxu false (BitVec.ofNat 64 w) 0) (some o.id) none
  | _ => s

/-- The first n bytes of some places. -/
def takeLocs : List (Loc × Nat) → Nat → List (Loc × Nat)
  | [], _ => []
  | (l, m) :: r, n => if n = 0 then [] else (l, min m n) :: takeLocs r (n - m)

/-- A drain performed (R304), whole or in its first rows (R389). -/
def State.doDrain (s : State) (o : Op) (rows : Option Nat) : Option State :=
  match o.kind with
  | .zdrain t _ d rm ls =>
    let (r, s) := s.tileRead o.blk t o.early
    let (first, s) := s.seeOvf o.blk t r
    let ws := r.ws
    let nf := r.nf
    let bias (j : Nat) : Int := match (d.bias[j]?).map (fun w => (FFmt.f32.decode w.toNat).exact) with
      | some (some x) => x.units 149
      | _ => 0
    let v (i j : Nat) : Int := ((ws[i * t.cols + j]?).map (fun w => w.1.toInt * 2 ^ 37)).getD 0 + bias j
    let main := (List.range t.rows).map (fun i =>
      drainLine d.dfmt rm d.nosat nf (srHash d.seed d.row0 d.col0) ((List.range t.cols).map (fun j => (v i j, i * t.cols + j))))
    let main := main.take (rows.getD t.rows)
    let tr := if (ls.getD 2 []).isEmpty || rows.isSome then [] else
      (List.range t.cols).map (fun j =>
        drainLine d.dfmt rm d.nosat nf (srHash d.seed d.col0 d.row0) ((List.range t.rows).map (fun i => (v i j, j * t.rows + i))))
    let put (s : State) (locs : List (Loc × Nat)) (d : List Byte) : State := s.opWrite o (takeLocs locs d.length) d
    let s := put s (ls.getD 0 []) (main.flatMap (fun x => x.1))
    let s := put s (ls.getD 1 []) (main.flatMap (fun x => x.2.1))
    let s := put s (ls.getD 2 []) (tr.flatMap (fun x => x.1))
    let s := put s (ls.getD 3 []) (tr.flatMap (fun x => x.2.1))
    let top := maxAbs ((List.range t.rows).flatMap (fun i => (List.range t.cols).map (v i)))
    let amax := if rows.isSome then [] else ls.getD 4 []
    match s.badLocs amax with
    | some l => some (s.engineHalt o .uncorrectable (128 * l))
    | none =>
      let s := s.mergeMax o (if nf then 0x7FC00000 else (roundUnits FFmt.f32 .ru 0 false top 149).1) amax
      let s := if first then s.logOp o 0x11 else s
      let s := if !r.free && (main ++ tr).any (fun x => x.2.2) then s.logOp o 0x10 else s
      some (s.leaveOp o)
  | _ => none

/-! `zld`, `zst` (R305). -/

/-- The pages of either; `al` says that the address is aligned to 32 bytes. -/
def askTile (out al : Bool) : Ask := { askCopy out with own := fun _ => if al then none else some .protection }

/-- The issue of either. -/
def State.tileMem (s : State) (e : Env) (z : BitVec 4) (base off : Sel) (out : Bool) (mk : Tile → List (Loc × Nat) → OpKind) : State :=
  match e.b.tile z with
  | none => s.trap e e.low .illegalOperand 0
  | some t =>
    let va := e.gaddr ⟨base, off, 0⟩ 1 e.low
    match s.checkAccess (e.walker s) va (32 * (t.size + 1)) (askTile out (va.toNat % 32 == 0)) (fun _ => none) with
    | .error x => s.stopped e e.low out x
    | .ok l => s.addTile e (if out then some t else none) [] (mk t l)

def execZld (z : BitVec 4) (base off : Sel) (s : State) : Out :=
  s.within (fun e => s.tileMem e z base off false (fun t l => .zld t z.toNat l))
def execZst (z : BitVec 4) (base off : Sel) (s : State) : Out :=
  s.within (fun e => s.tileMem e z base off true (fun t l => .zst t z.toNat l))

/-- A `zld` performed, whole or in its first rows (R389). -/
def State.doZld (s : State) (o : Op) (rows : Option Nat) : Option State :=
  match o.kind with
  | .zld t _ locs =>
    match s.badLocs locs with
    | some l => some (s.engineHalt o .uncorrectable (128 * l))
    | none =>
      let (d, s) := s.readLocs (some o.core) locs
      let ws := (List.range t.size).map (fun i => (BitVec.ofNat 256 (leNat ((d.drop (32 * i)).take 32)), (0 : BitVec 8)))
      let tr := ((d.drop (32 * t.size)).headD 0)
      some ((s.updBlk o.blk (fun b =>
        match rows with
        | some n => b.accPut t.base (ws.take (n * t.cols))
        | none => (b.accPut t.base ws).setTile { b.tileNow t with ovf := tr.getLsbD 0, nf := tr.getLsbD 1 })).dropOp o)
  | _ => none

/-- A `zst` performed, whole or in its first rows (R389). -/
def State.doZst (s : State) (o : Op) (rows : Option Nat) : Option State :=
  match o.kind with
  | .zst t _ locs =>
    let (r, s) := s.tileRead o.blk t o.early
    let (first, s) := s.seeOvf o.blk t r
    let body := r.ws.flatMap (fun w => leBytes 32 w.1.toNat)
    let s := match rows with
      | some n => s.opWrite o (takeLocs locs (32 * (n * t.cols))) (body.take (32 * (n * t.cols)))
      | none => s.opWrite o locs (body ++ leBytes 32 (r.ovf.toNat + 2 * r.nf.toNat))
    some ((if first then s.logOp o 0x11 else s).leaveOp o)
  | _ => none

/-! `quant` (R89, R306). -/

/-- The bytes of a source element. -/
def QuantD.srcSize (d : QuantD) : Nat := if d.sbf16 then 2 else 4

/-- Pitch, scale offset and extent of a copy of rows × cols elements with n scale bytes. -/
def quantGeom (dfmt rows cols n : Nat) : Geom :=
  let p := roundUp 16 (cols * drainSize dfmt)
  let sc := roundUp 128 (rows * p)
  { p := p, s := sc, ext := sc + n }

/-- The drain code of a quantiser's format: E4M3, E5M2, SF16. -/
def quantFmt (c : Nat) : Nat := c + 1

/-- The local ranges that it reads. -/
def QuantD.reads (d : QuantD) : List (Nat × Nat) :=
  if d.src then (List.range d.rows).map (fun i => (d.srcaddr + i * d.srcpitch, d.cols * d.srcSize)) else []

/-- The local ranges that it writes. -/
def QuantD.writes (d : QuantD) : List (Nat × Nat) :=
  (if d.rcopy then [(d.raddr, (quantGeom d.dfmt d.rows d.cols (d.rows * ((d.cols + 31) / 32))).ext)] else []) ++
  (if d.ccopy then [(d.caddr, (quantGeom d.dfmt d.rows d.cols ((d.rows + 31) / 32 * d.cols)).ext)] else [])

/-- The descriptor as read, none where it is refused. -/
def quantDesc (d : List Byte) (t : Option Tile) (named : Bool) : Option QuantD :=
  let src := dfield d 12 1 == 1
  let f := dfield d 4 4
  let rows := if src then dfield d 256 16 else (t.map (·.rows)).getD 0
  let cols := if src then dfield d 272 16 else (t.map (·.cols)).getD 0
  let ok := dfield d 0 2 == 0 && dfield d 8 2 == 0 && dfield d 13 243 == 0 && decide (2 ≤ f) && decide (f ≤ 4) &&
    dfield d 2 2 != 0 && (if src then !named && decide (dfield d 10 2 < 2) else t.isSome) &&
    decide (1 ≤ rows) && decide (rows ≤ 1024) && decide (1 ≤ cols) && decide (cols ≤ 1024)
  if ok then
    some
      { seed := BitVec.ofNat 64 (dfield d 448 64), caddr := dfield d 416 32, raddr := dfield d 384 32
        srcaddr := dfield d 352 32, srcpitch := dfield d 320 32, col0 := dfield d 304 16, row0 := dfield d 288 16
        cols := cols, rows := rows, src := src, sbf16 := dfield d 10 2 == 1, dfmt := quantFmt f
        rcopy := dfield d 3 1 == 1, ccopy := dfield d 2 1 == 1 }
  else none

/-- R306. -/
def execQuant (z : Option (BitVec 4)) (desc fw : Sel) (s : State) : Out :=
  s.within (fun e =>
    match fwMode (e.read32 fw e.low) with
    | none => s.trap e e.low .illegalInsn 0
    | some rm =>
      let a := (e.readU desc).toNat
      let t := z.bind (fun z => e.b.tile z)
      if a % 64 != 0 then s.trap e e.low .illegalOperand 0
      else s.withDesc e a 64 (fun s d =>
        match quantDesc d t z.isSome with
        | none => s.trap e e.low .illegalOperand 0
        | some q =>
          match (q.reads ++ q.writes).find? (fun r => decide (e.b.lsize < r.1 + r.2)) with
          | some r => s.trap e e.low .protection (BitVec.ofNat 64 r.1)
          | none => s.addTile e t q.reads (.quant t ((z.map (·.toNat)).getD 0) q rm)))

/-- R66: an `mma` that has not completed reads some of a local range. -/
def State.mmaReads (s : State) (uid : Nat) (l : List (Nat × Nat)) : Bool :=
  s.ops.any (fun o =>
    (match o.kind with
      | .mma t _ xa xb kb fw _ _ src =>
        let (ra, rb) := mmaRanges t xa xb kb fw
        l.any (fun r => (o.blk == uid && rangesMeet r.1 r.2 ra.1 ra.2) || (src == some uid && rangesMeet r.1 r.2 rb.1 rb.2))
      | _ => false))

/-- The source elements by row, in units of 2^−149, none for an infinity or a NaN; whether they are unpredictable (R66); and
whether the read was the first to find an overflow. -/
def State.quantSource (s : State) (o : Op) (b : Block) (t : Option Tile) (d : QuantD) :
    List (List (Option Int)) × Bool × Bool × State :=
  match t with
  | some t =>
    let (r, s) := s.tileRead o.blk t o.early
    let (first, s) := s.seeOvf o.blk t r
    ((List.range t.rows).map (fun i => (List.range t.cols).map (fun j =>
      some (((r.ws[i * t.cols + j]?).map (fun w => w.1.toInt * 2 ^ 37)).getD 0))), r.free, first, s)
  | none =>
    let n := d.srcSize
    let free := o.early || s.opndOver b d.reads || s.mmaReads o.blk d.reads
    let c := s.freeCtr
    let bits (i j : Nat) : Nat :=
      if free then (Config.freeWord (c + i * d.cols + j)).toNat % 2 ^ (8 * n)
      else leNat (b.lbytes (d.srcaddr + i * d.srcpitch + j * n) n)
    let F := if d.sbf16 then FFmt.bf16 else FFmt.f32
    ((List.range d.rows).map (fun i => (List.range d.cols).map (fun j =>
      (F.decode (bits i j)).exact.map (fun x => x.units 149))), free, false,
      if free then { s with freeCtr := s.freeCtr + d.rows * d.cols } else s)

/-- One block of a copy: its scale byte, its elements, whether one overflowed. -/
def quantBlock (d : QuantD) (rm : RMode) (b : List (Option Int × Nat)) : Nat × List Nat × Bool :=
  if b.any (fun x => x.1.isNone) then (0x20, b.map (fun _ => ((drainFmt d.dfmt).getD FFmt.f16).canon), false)
  else
    let ex := blockExp ((drainT d.dfmt).getD 14) (maxAbs (b.map (fun x => x.1.getD 0))) 149
    let o := b.map (fun x => drainElem d.dfmt rm false false
      (if rm == .sr then srHash d.seed d.row0 d.col0 x.2 else 0) (x.1.getD 0) (149 + (ex : Int) - 32))
    (ex, o.map (·.1), o.any (·.2))

/-- The transpose of rows of equal length n. -/
def transpose {α : Type} (n : Nat) (l : List (List α)) : List (List α) :=
  (List.range n).map (fun j => l.filterMap (fun r => r[j]?))

/-- Lines of blocks written: line i's elements at `place i j`, its scale bytes at `scale i b`. -/
def Block.putQuant (b : Block) (size : Nat) (place scale : Nat → Nat → Nat) (lines : List (List (Nat × List Nat × Bool))) : Block :=
  lines.zipIdx.foldl (fun b l =>
    let b := (l.1.flatMap (fun p => p.2.1)).zipIdx.foldl (fun b x => b.lwrite (place l.2 x.2) (leBytes size x.1)) b
    l.1.zipIdx.foldl (fun b p => b.lwrite (scale l.2 p.2) [BitVec.ofNat 8 p.1.1]) b) b

/-- A `quant` performed, whole or in the first rows of its row copy (R389). None while a source line is absent. -/
def State.doQuant (s : State) (o : Op) (some_ : Option Nat) : Option State :=
  match o.kind, s.blk o.blk with
  | .quant t _ d rm, some b =>
    if !b.allPresent d.reads then none
    else
      let (rows, free, first, s) := s.quantSource o b t d
      let marked := rows.zipIdx.map (fun r => r.1.zipIdx.map (fun x => (x.1, r.2 * d.cols + x.2)))
      let byRow := if d.rcopy then marked.map (fun r => (blocks32 r.length r).map (quantBlock d rm)) else []
      let byRow := byRow.take (some_.getD d.rows)
      let byCol := if d.ccopy && some_.isNone then (transpose d.cols marked).map (fun r => (blocks32 r.length r).map (quantBlock d rm)) else []
      let n := drainSize d.dfmt
      let g := quantGeom d.dfmt d.rows d.cols 0
      let s := s.updBlk o.blk (fun b =>
        let b := d.writes.foldl (fun b r => b.seenAll r.1 r.2) b
        let b := b.putQuant n (fun i j => d.raddr + i * g.p + j * n)
          (fun i k => d.raddr + g.s + i * ((d.cols + 31) / 32) + k) byRow
        b.putQuant n (fun j i => d.caddr + i * g.p + j * n) (fun j k => d.caddr + g.s + k * d.cols + j) byCol)
      let s := if first then s.logOp o 0x11 else s
      let s := if !free && (byRow ++ byCol).any (fun l => l.any (fun p => p.2.2)) then s.logOp o 0x10 else s
      let s := if !free && rows.any (fun r => r.any (·.isNone)) then s.logOp o 0x13 else s
      some (s.dropOp o)
  | _, _ => none

/-! Steps and rows (R389, R396). -/

/-- A tile operation performs n more of its steps or rows. Their effect is laid down when it completes or stops: until its
token clears, nobody reads the tile or the bytes in order behind it. DESIGN CHOICE, log entry 13. -/
def State.tileStep (s : State) (o : Op) (n : Nat) : State :=
  let more (t : State) (p : Op) : State := t.updOpn p.id (fun p => { p with done := min p.kind.total (p.done + n) })
  match o.kind with
  | .mma _ _ _ _ _ _ _ _ _ => ((s.mmaReady o).map (fun x => x.1.foldl more s)).getD s
  | .quant _ _ d _ => if ((s.blk o.blk).map (fun b => b.allPresent d.reads)).getD false then more s o else s
  | k => if k.rows then more s o else s

/-- A tile operation stops where it stands (R389): what it has performed takes effect, and it is over. -/
def State.tileStop (s : State) (o : Op) : State :=
  let t := match o.kind with
    | .mma _ _ _ xb _ _ _ _ src => match src.bind (fun u => s.blk u) with
      | some sb => if o.done == 0 then none else some (s.mmaWork o (sb.opndByte s.freeCtr) xb (some o.done))
      | none => none
    | .zdrain _ _ _ _ _ => if o.done == 0 then none else s.doDrain o (some o.done)
    | .zld _ _ _ => if o.done == 0 then none else s.doZld o (some o.done)
    | .zst _ _ _ => if o.done == 0 then none else s.doZst o (some o.done)
    | .quant _ _ _ _ => if o.done == 0 then none else s.doQuant o (some o.done)
    | _ => none
  (t.getD s).dropOp o

end Sys2Proof.Machine
end

