-- ==== Sys2Proof/Machine/Fabric.lean ====
section
/-! DEFINITION. Fabric.lean: collectives, transfers, active messages and deposits (R165 to R168, R314 to R321), and
the fabric's requests (R394). -/

namespace Sys2Proof.Machine

/-! Collectives (R314 to R317). -/

/-- The kinds of a layout byte (R314). -/
def layKind (b : Byte) : Nat := b.toNat / 64
def layDim (b : Byte) : Nat := b.toNat % 4

/-- Bytes of an element; floating elements. -/
def collSize (elem : Nat) : Nat := match elem with | 0 | 3 => 4 | 4 => 8 | _ => 2
def collFmt (elem : Nat) : Option FFmt :=
  match elem with
  | 0 => some FFmt.f32
  | 1 => some FFmt.bf16
  | 2 => some FFmt.f16
  | _ => none

/-- The ranks of table position i: axis 0 varies slowest. -/
def ranksOf : List Nat → Nat → List Nat
  | [], _ => []
  | _ :: r, i =>
    let m := r.foldl (· * ·) 1
    (i / m) :: ranksOf r (i % m)

/-- The table position of some ranks. -/
def posOf : List Nat → List Nat → Nat
  | _ :: r, x :: xs => x * r.foldl (· * ·) 1 + posOf r xs
  | _, _ => 0

/-- The first index and the extent of dimension d of a rank's piece under a layout (R315); with one dimension sharded
on two axes, as between two layouts, the later axis cuts what the earlier left. -/
def pieceDim (sizes ranks : List Nat) (lay : List Byte) (dims : List Nat) (d : Nat) : Nat × Nat :=
  (List.range sizes.length).foldl (fun (acc : Nat × Nat) n =>
    let b := lay.getD n 0
    if layKind b == 1 && layDim b == d then
      let part := dims.getD d 0 / sizes.getD n 1
      let lo := max acc.1 (ranks.getD n 0 * part)
      let hi := min (acc.1 + acc.2) ((ranks.getD n 0 + 1) * part)
      (lo, hi - lo)
    else acc) (0, dims.getD d 0)

/-- A rank's piece. -/
def pieceOf (sizes ranks : List Nat) (lay : List Byte) (dims : List Nat) : List (Nat × Nat) :=
  (List.range dims.length).map (pieceDim sizes ranks lay dims)

/-- Its number of elements. -/
def pieceSize (p : List (Nat × Nat)) : Nat := p.foldl (fun n x => n * x.2) 1

/-- The global index of its element i, row-major with the last dimension fastest. -/
def globalOf : List (Nat × Nat) → Nat → List Nat
  | [], _ => []
  | (lo, _) :: r, i =>
    let m := pieceSize r
    (lo + i / m) :: globalOf r (i % m)

/-- The position of a global index in a piece, none outside it. -/
def localOf : List (Nat × Nat) → List Nat → Option Nat
  | [], [] => some 0
  | (lo, n) :: r, g :: gs =>
    if lo ≤ g && g < lo + n then (localOf r gs).map (fun i => (g - lo) * pieceSize r + i) else none
  | _, _ => none

/-- A value on its way: the bits of an element, or an exact sum, none where the manual gives the sum no value. -/
inductive CVal where
  | raw (bits : Nat)
  | sum (x : Option Ex)
  deriving DecidableEq, Repr

/-- The exact value of a value. -/
def CVal.exact (elem : Nat) (v : CVal) : Option Ex :=
  match v with
  | .sum x => x
  | .raw b =>
    match collFmt elem with
    | some F => (F.decode b).exact
    | none => some ⟨(if elem == 3 then (BitVec.ofNat 32 b).toInt else (BitVec.ofNat 64 b).toInt), 0⟩

/-- An exact sum. -/
def Ex.add (x y : Ex) : Ex :=
  let q := min x.e y.e
  ⟨x.m * 2 ^ (x.e - q).toNat + y.m * 2 ^ (y.e - q).toNat, q⟩

/-- The sum of some values; an infinity or a NaN leaves it without one. -/
def sumVals (elem : Nat) (l : List CVal) : CVal :=
  .sum (l.foldl (fun acc v =>
    match acc, v.exact elem with
    | some a, some b => some (Ex.add a b)
    | _, _ => none) (some ⟨0, 0⟩))

/-- `.max` and `.min` (R316): as `fmax` and `fmin`, or signed. -/
def pickVal (elem : Nat) (mx : Bool) (a b : CVal) : CVal :=
  match a, b with
  | .raw x, .raw y =>
    match collFmt elem with
    | some F => .raw (F.minmax mx false false x y).1
    | none =>
      let w := 8 * collSize elem
      let sg (v : Nat) : Int := if 2 ^ (w - 1) ≤ v then (v : Int) - 2 ^ w else v
      if (if mx then sg x < sg y else sg y < sg x) then .raw y else .raw x
  | _, _ => a

/-- The ranks with axis n at each of its positions. -/
def alongAxis (sizes ranks : List Nat) (n : Nat) : List (List Nat) :=
  (List.range (sizes.getD n 1)).map (fun i => ranks.set n i)

/-- The layout after axes 0 to n − 1 have been exchanged. -/
def layoutAt (d : CollD) (n : Nat) : List Byte := d.tos.take n ++ d.froms.drop n

/-- R91, R316: what one contributor adds to an element under `.clip`: its units. -/
def clipUnits (d : CollD) (norm2 : Option Nat) (v : CVal) : Option Int :=
  match norm2, v.exact d.elem with
  | some sq, some x => some (mergeUnits (clipScale sq d.limit) d.limit (x.units 149))
  | _, _ => none

/-- The sum of the squares of values, in units of 2^−298. -/
def squares (elem : Nat) (l : List CVal) : Option Nat :=
  l.foldl (fun acc v =>
    match acc, v.exact elem with
    | some a, some x => some (a + (x.units 149).natAbs * (x.units 149).natAbs)
    | _, _ => none) (some 0)

/-- R315, R316: the value that a rank holds at a global index after n axes have been exchanged; `inp` gives each
rank's input. DESIGN CHOICE, log entry 57. -/
def collVal (d : CollD) (inp : List Nat → List Nat → CVal) : Nat → List Nat → List Nat → CVal
  | 0, r, g => inp r g
  | n + 1, r, g =>
    let f := d.froms.getD n 0
    let t := d.tos.getD n 0
    let before := collVal d inp n
    if layKind f == 2 && layKind t != 2 then
      let all := (alongAxis d.sizes r n).map (fun q => before q g)
      match d.red with
      | .sum => sumVals d.elem all
      | .max => all.foldl (fun a b => pickVal d.elem true a b) (all.headD (.raw 0))
      | .min => all.foldl (fun a b => pickVal d.elem false a b) (all.headD (.raw 0))
      | .clip =>
        let us := (alongAxis d.sizes r n).map (fun q =>
          let p := pieceOf d.sizes q (layoutAt d n) d.dims
          let sq := squares d.elem ((List.range (pieceSize p)).map (fun i => before q (globalOf p i)))
          clipUnits d sq (before q g))
        let total := us.foldl (fun acc u => match acc, u with | some a, some b => some (a + b) | _, _ => none) (some (0 : Int))
        let (lm, le) := parts64 d.limit
        .sum (total.map (fun u => ⟨(BitVec.ofInt 128 u).toInt * lm, le - 64⟩))
    else if layKind f == 1 then
      let part := d.dims.getD (layDim f) 0 / d.sizes.getD n 1
      before (r.set n (g.getD (layDim f) 0 / part)) g
    else if layKind f == 0 && layKind t == 2 then
      if r.getD n 0 == 0 then before r g else .raw 0
    else before r g

/-- A value written out (R316): rounded once by RNE; none where it has no value. -/
def outBits (elem : Nat) (v : CVal) : Option Nat :=
  match v with
  | .raw b => some b
  | .sum none => none
  | .sum (some x) =>
    match collFmt elem with
    | some F => some (roundUnits F .rne 0 false (if 0 ≤ x.e then x.m * 2 ^ x.e.toNat else x.m) (if 0 ≤ x.e then 0 else -x.e)).1
    | none => some (intBits (8 * collSize elem) (x.units 0))

/-- The elements of a piece in some bytes, as an input function. -/
def inputOf (d : CollD) (data : List (List Byte)) (r g : List Nat) : CVal :=
  let p := pieceOf d.sizes r d.froms d.dims
  let n := collSize d.elem
  match localOf p g with
  | some i => .raw (leNat ((((data[posOf d.sizes r]?).getD []).drop (i * n)).take n))
  | none => .raw 0

/-- The descriptor's checks that read no memory: 0x11, then 0x12, 0 where it passes. DESIGN CHOICE, log entry 85. -/
def collFields (b : List Byte) (red : Red) : Nat :=
  let nd := bitsOf b 116 4
  let na := bitsOf b 112 4
  let sizes := (List.range 4).map (fun n => bitsOf b (128 + 16 * n) 16)
  let lay (lo n : Nat) : Byte := BitVec.ofNat 8 (bitsOf b (lo + 8 * n) 8)
  let okLay (x : Byte) : Bool :=
    layKind x != 3 && x.toNat / 4 % 16 == 0 && (if layKind x == 1 then decide (layDim x < nd) else layDim x == 0)
  let axes := List.range na
  let bad := bitsOf b 448 64 != 0 || bitsOf b 123 5 != 0 || decide (4 < bitsOf b 120 3) || nd == 0 || decide (4 < nd) || na == 0 ||
    decide (4 < na) || bitsOf b 96 16 == 0 || bitsOf b 0 1 != 0 || sizes.any (fun s => s == 0 || decide (4096 < s)) ||
    (sizes.drop na).any (· != 1) || decide (4096 < sizes.foldl (· * ·) 1) ||
    axes.any (fun n => !okLay (lay 192 n) || !okLay (lay 224 n)) ||
    (red == .clip && !limitOk (BitVec.ofNat 64 (bitsOf b 384 64)))
  let dim (d : Nat) : Nat := bitsOf b (256 + 32 * d) 32
  let shards (lo : Nat) : List (Nat × Nat) :=
    axes.filterMap (fun n => if layKind (lay lo n) == 1 then some (layDim (lay lo n), sizes.getD n 1) else none)
  let refused (lo : Nat) : Bool := !(decide (((shards lo).map (·.1)).Nodup)) || (shards lo).any (fun x => dim x.1 % x.2 != 0)
  let reduces := axes.filter (fun n => layKind (lay 192 n) == 2 && layKind (lay 224 n) != 2)
  if bad then 0x11
  else if axes.any (fun n => layKind (lay 192 n) == 1 && layKind (lay 224 n) == 2) || refused 192 || refused 224 ||
      (red == .clip && (decide (2 < bitsOf b 120 3) || reduces.length != 1)) then 0x12
  else 0

/-- The descriptor's values; `table` holds the device numbers. -/
def collDesc (b : List Byte) (red : Red) (table : List Nat) : CollD :=
  let na := bitsOf b 112 4
  { limit := BitVec.ofNat 64 (bitsOf b 384 64)
    dims := (List.range (bitsOf b 116 4)).map (fun d => bitsOf b (256 + 32 * d) 32)
    froms := (List.range na).map (fun n => BitVec.ofNat 8 (bitsOf b (192 + 8 * n) 8))
    tos := (List.range na).map (fun n => BitVec.ofNat 8 (bitsOf b (224 + 8 * n) 8))
    sizes := (List.range na).map (fun n => bitsOf b (128 + 16 * n) 16)
    elem := bitsOf b 120 3, tsilent := bitsOf b 96 16, collid := bitsOf b 64 32, table := table, red := red }

/-- Bytes of this device's input and output. -/
def CollD.bytes (d : CollD) (lay : List Byte) (pos : Nat) : Nat :=
  pieceSize (pieceOf d.sizes (ranksOf d.sizes pos) lay d.dims) * collSize d.elem

/-- A collective ends at once with a status. -/
def State.collEnd (s : State) (e : Env) (r : BitVec 6) (ctr : Dword) (n : Nat) : State :=
  s.addOp e e.r.exec (.coll r.toNat (collDesc (List.replicate 64 0) .sum []) [] [] ctr [] (some n))

/-- A range that the sequencer uses: a page that requests service is serviced; another failure is status 0x14. -/
def State.collRange (s : State) (e : Env) (va : Dword) (n : Nat) (ask : Ask) : Except Stop (Option (List (Loc × Nat))) :=
  if n == 0 then .ok (some [])
  else
    match s.checkAccess (e.walker s) va n ask (fun _ => none) with
    | .ok l => .ok (some l)
    | .error (.service v o) => .error (.service v o)
    | .error (.trap _ _) => .ok none

/-- The issue of a collective whose descriptor and table have been read. -/
def State.collStart (s : State) (e : Env) (r : BitVec 6) (d : CollD) (inp out : Dword) (ctr : Dword) : State :=
  match d.table.findIdx? (fun x => x == s.fabric.device.toNat) with
  | none => s.collEnd e r ctr 0x13
  | some pos =>
    let s := s.walkedAll (e.walker s) [(inp, d.bytes d.froms pos), (out, d.bytes d.tos pos)]
    match s.collRange e inp (d.bytes d.froms pos) askRead, s.collRange e out (d.bytes d.tos pos) askWrite with
    | .error x, _ => s.stopped e e.low false x
    | _, .error x => s.stopped e e.low true x
    | .ok (some i), .ok (some o) =>
      let busy := s.ops.any (fun x => match x.kind with
        | .coll _ q _ _ _ _ none => q.collid == d.collid
        | _ => false)
      if busy then s.collEnd e r ctr 0x16
      else
        let s := { s with out := s.out ++ [OutMsg.collStart d.collid] }
        s.addOp e e.r.exec (.coll r.toNat d i o ctr [] none)
    | _, _ => s.collEnd e r ctr 0x14

/-- R314, R317. DESIGN CHOICE, log entry 84. -/
def execColl (d : BitVec 6) (red : Red) (desc inp out ctr : Sel) (s : State) : Out :=
  s.within (fun e =>
    let w := e.readU ctr
    let va := e.readU desc
    match s.counterFault e.b.launch e.b.ctx w with
    | some (c, x) => s.trap e e.low c x
    | none => s.withUnit e 0 (fun s =>
      let s := s.walkedAll (e.walker s) [(va, 64)]
      if va.toNat % 64 != 0 then s.collEnd e d w 0x11
      else
        match s.collRange e va 64 askRead with
        | .error x => s.stopped e e.low false x
        | .ok none => s.collEnd e d w 0x14
        | .ok (some l) =>
          match s.badLocs l with
          | some b => s.unitHalt e 5 b
          | none =>
            let (b, s) := s.readLocs (some e.b.core) l
            let st := collFields b red
            if st == 0x11 then s.collEnd e d w 0x11
            else
              let n := ((List.range 4).map (fun n => bitsOf b (128 + 16 * n) 16)).foldl (· * ·) 1
              let s := s.walked (e.walker s) (BitVec.ofNat 64 (bitsOf b 0 64)) (2 * n)
              match s.collRange e (BitVec.ofNat 64 (bitsOf b 0 64)) (2 * n) askRead with
              | .error x => s.stopped e e.low false x
              | .ok none => s.collEnd e d w 0x14
              | .ok (some tl) =>
                match s.badLocs tl with
                | some b => s.unitHalt e 5 b
                | none =>
                  let (tb, s) := s.readLocs (some e.b.core) tl
                  let ents := (List.range n).map (fun i => leNat ((tb.drop (2 * i)).take 2))
                  if ents.any (fun x => decide (4095 < x)) || !(decide ents.Nodup) then s.collEnd e d w 0x11
                  else if st != 0 then s.collEnd e d w st
                  else s.collStart e d (collDesc b red ents) (e.readU inp) (e.readU out) w))

/-- A collective's part ends: the status in sD, then the counter (R165, R317). One that was refused for its descriptor
(0x11) still gains its count, though R4 has a rejection change no other state. DESIGN CHOICE, log entry 60. -/
def State.collDone (s : State) (o : Op) (r st : Nat) (ctr : Dword) : State :=
  let s := s.deliverS o r (BitVec.ofNat 64 st)
  let launch := ((s.blk o.blk).map (·.launch)).getD 0
  (s.dropOp o).bumpWord launch o.ctx ctr 1

/-- The bytes of an output piece, free where an element has no value, and how many free words that took. -/
def outBytes (elem c : Nat) (l : List (Option Nat)) : List Byte :=
  l.zipIdx.flatMap (fun x => leBytes (collSize elem) ((x.1).getD (Config.freeWord (c + x.2)).toNat))

/-- The table position of a rank's buddy along an axis, the rank rn XOR 1, where it exists (R317). -/
def CollD.buddy (d : CollD) (pos axis : Nat) : Option Nat :=
  let rs := ranksOf d.sizes pos
  let r := (rs.getD axis 0) ^^^ 1
  if r < d.sizes.getD axis 0 then some (posOf d.sizes (rs.set axis r)) else none

/-- A silent member's contribution is lost: it has no buddy on that axis, or one that never received it or is itself silent
(R317). -/
def CollD.lost (d : CollD) (silent : List Silent) (m : Silent) : Bool :=
  !m.buddyHolds || (match d.buddy m.pos m.axis with
    | some b => silent.any (fun x => x.pos == b)
    | none => true)

/-- COLL_COMPLETE (R317): `inputs` holds every member's input by table position, none where a member issued COLLID with
another descriptor or table (0x15, as for inputs of another size); this device's own is read here. Output that waits for a
peer holds the status back (R160). DESIGN CHOICE, log entry 56. -/
def execCollComplete (op : Nat) (inputs : Option (List (List Byte))) (degraded : Bool) (s : State) : Out :=
  match s.ops.find? (fun o => o.id == op) with
  | none => .next s
  | some o =>
    match o.kind with
    | .coll r d inp out ctr silent none =>
      match d.table.findIdx? (fun x => x == s.fabric.device.toNat), firstSome [s.badLocs inp, s.downLocs out] with
      | none, _ => .next s
      | some _, some l => .next (s.engineHalt o .uncorrectable (128 * l))
      | some pos, none =>
        let n := d.table.length
        let given := inputs.getD []
        let fits := inputs.isSome && given.length == n && (given.zipIdx).all (fun x => x.2 == pos || x.1.length == d.bytes d.froms x.2)
        let p := pieceOf d.sizes (ranksOf d.sizes pos) d.tos d.dims
        let k := pieceSize p
        let put (s : State) (vals : List (Option Nat)) (st : Nat) : State :=
          let s1 := s.opWrite o out (outBytes d.elem s.freeCtr vals)
          let s1 := { s1 with freeCtr := s1.freeCtr + k }
          if s1.unsent o then s1.setKind op (.coll r d [] [] ctr silent (some st)) else s1.collDone o r st ctr
        if silent.any (d.lost silent) then .next (put s (List.replicate k none) 2)
        else if !fits then .next (s.collDone o r 0x15 ctr)
        else
          let (mine, s) := s.readLocs (some o.core) inp
          let data := given.set pos mine
          let vals := (List.range k).map (fun i =>
            outBits d.elem (collVal d (inputOf d data) d.sizes.length (ranksOf d.sizes pos) (globalOf p i)))
          .next (put s vals (if degraded || !silent.isEmpty then 1 else 0))
    | _ => .next s

/-- TSILENT (R317): a member is silent beyond TSILENT along an axis. -/
def execTsilent (op : Nat) (m : Silent) (s : State) : Out :=
  match s.ops.find? (fun o => o.id == op) with
  | none => .next s
  | some o =>
    match o.kind with
    | .coll r d inp out ctr silent none =>
      let member := decide (m.pos < d.table.length) && decide (m.axis < d.sizes.length) && d.table[m.pos]? != some s.fabric.device.toNat
      if s.devtime < o.start + 1000 * d.tsilent || !member then .next s
      else .next (s.setKind op (.coll r d inp out ctr (silent ++ [m]) none))
    | _ => .next s

/-! Transfers (R318). -/

/-- The pages of the peer side and of the own side. -/
def askPeer (write : Bool) : Ask :=
  { allow := fun p => if p.mtype == 3 then none else some .protection
    perm := fun p => if write then p.w else p.r
    own := fun _ => none }
def askOwn (write : Bool) : Ask :=
  { allow := fun p => if p.mtype < 3 then none else some .protection
    perm := fun p => if write then p.w else p.r
    own := fun _ => none }

/-- The issue of a transfer. -/
def State.issueXfer (s : State) (e : Env) (wr : Bool) (stream : Byte) (dst src bytes : Dword) (ctr : Dword) : State :=
  let n := (lo32 bytes).toNat
  match (if wr then (if counterOk ctr then none else some (Trap.illegalOperand, 0)) else s.counterFault e.b.launch e.b.ctx ctr) with
  | some (c, x) => s.trap e e.low c x
  | none =>
    if n == 0 then s
    else
    let s := s.walkedAll (e.walker s) [(dst, n), (src, n)]
    let chk (va : Dword) (ask : Ask) := s.checkAccess (e.walker s) va n ask (fun _ => none)
    match chk dst (if wr then askPeer true else askOwn true) with
    | .error x => s.stopped e e.low true x
    | .ok d =>
      match chk src (if wr then askOwn false else askPeer false) with
      | .error x => s.stopped e e.low false x
      | .ok c =>
        let todo := (cutAt 4096 (n / 4096 + 2) dst.toNat n).map (fun p => (p.1 - dst.toNat, p.2))
        s.addOp e e.r.exec (.xfer wr d c todo [] n ctr stream.toNat)

def execXferw (stream : Byte) (dst src bytes ctr : Sel) (s : State) : Out :=
  s.within (fun e => s.issueXfer e true stream (e.readU dst) (e.readU src) (e.readU bytes) (e.readU ctr))
def execXferr (stream : Byte) (dst src bytes ctr : Sel) (s : State) : Out :=
  s.within (fun e => s.issueXfer e false stream (e.readU dst) (e.readU src) (e.readU bytes) (e.readU ctr))

/-- A part of some places. -/
def subLocs : List (Loc × Nat) → Nat → Nat → List (Loc × Nat)
  | [], _, _ => []
  | (l, k) :: r, off, n =>
    if n == 0 then []
    else if k ≤ off then subLocs r (off - k) n
    else
      let m := min (k - off) n
      (locAdd l off, m) :: subLocs r 0 (n - m)

/-- The n-th packet of a transfer that has not left leaves for the peer: an `xferw`'s with its bytes, an `xferr`'s as a
read. A frozen stream sends none (R394). -/
def State.sendPacket (s : State) (o : Op) (n : Nat) : State :=
  match o.kind with
  | .xfer wr dst src todo sent bytes ctr stream =>
    let key : StreamId := ⟨o.core, o.ctx, stream⟩
    match todo[n]? with
    | none => s
    | some (off, len) =>
      if s.fabric.frozen.contains key then s
      else
        let rest : OpKind := .xfer wr dst src (todo.take n ++ todo.drop (n + 1)) (sent ++ [(off, len)]) bytes ctr stream
        let from_ := subLocs src off len
        if wr then
          match s.badLocs from_ with
          | some l => s.engineHalt o .uncorrectable (128 * l)
          | none =>
            let (d, s) := s.readLocs (some o.core) from_
            match subLocs dst off len with
            | (.peer dev pa, _) :: _ => (s.setKind o.id rest).sendPeer key dev pa (.xfer d ctr) (some o.id) none
            | _ => s
        else
          from_.foldl (fun (t : State) x => match x.1 with
            | .peer dev pa => t.sendPeer key dev pa (.read x.2) (some o.id) none
            | _ => t) (s.setKind o.id rest)
  | _ => s

/-- XFER_PACKET (R318): the n-th packet sent is written at its destination and acknowledged, and its counter gains its
bytes; `data` is what the peer sends of an `xferr`. A packet of a frozen stream waits for its end (R394). -/
def execXferPacket (op n : Nat) (data : List Byte) (s : State) : Out :=
  match s.ops.find? (fun o => o.id == op) with
  | none => .next s
  | some o =>
    match o.kind with
    | .xfer wr dst src todo sent bytes ctr stream =>
      match sent[n]? with
      | none => .next s
      | some (off, len) =>
        let rest : OpKind := .xfer wr dst src todo (sent.take n ++ sent.drop (n + 1)) bytes ctr stream
        let to_ := subLocs dst off len
        let there := if wr then to_ else subLocs src off len
        if s.fabric.frozen.contains ⟨o.core, o.ctx, stream⟩ || s.fabric.held.any (fun h => h.x.isFor op there) then .next s
        else if wr then .next ((s.acked op there).setKind op rest)
        else
          match s.downLocs to_ with
          | some l => .next (s.engineHalt o .uncorrectable (128 * l))
          | none =>
            let s := ((s.acked op there).opWrite o to_ ((data ++ List.replicate len 0).take len)).setKind op rest
            .next (s.bumpWord (((s.blk o.blk).map (·.launch)).getD 0) o.ctx ctr len)
    | _ => .next s

/-! Active messages (R319, R320). -/

/-- A message leaves; one to this device arrives in turn. -/
def State.sendMsg (s : State) (o : Op) : State :=
  match o.kind with
  | .amsg target ctr payload reply =>
    let s := { s with out := s.out ++ [OutMsg.message target ctr payload reply] }
    if target.extractLsb' 0 12 != s.fabric.device then s
    else if reply then { s with agenda := s.agenda ++ [.event (.replyArrival target payload)] }
    else
      let m : AMsg :=
        { dev := s.fabric.device, sctx := BitVec.ofNat 12 o.ctx, tctx := target.extractLsb' 12 12
          index := target.extractLsb' 24 8, ctr := ctr, payload := payload }
      { s with agenda := s.agenda ++ [.event (.amsgArrival m)] }
  | _ => s

/-- The payload: dwords of s registers. -/
def Env.payload (e : Env) (first : BitVec 6) (n : BitVec 4) : List Dword :=
  (List.range n.toNat).map (fun i => e.sp.sval (first.toNat + i))

/-- The reply token of a message (R319): the low half of its counter word, EN, the sender's context and device. -/
def replyToken (ctr : Dword) (ctx dev : BitVec 12) : Dword :=
  BitVec.ofNat 64 ((lo32 ctr).toNat * 2 ^ 32 + (ctr.getLsbD 32).toNat * 2 ^ 24 + ctx.toNat * 2 ^ 12 + dev.toNat)

/-- R319, R168: ordered at `.sys`. The launch is kept for the reply, whose counter is its own block's where it has one
(R290). DESIGN CHOICE, log entry 32. -/
def execAmsg (first : BitVec 6) (n : BitVec 4) (target ctr : Sel) (s : State) : Out :=
  s.within (fun e =>
    let w := e.readU ctr
    match s.counterFault e.b.launch e.b.ctx w with
    | some (c, x) => s.trap e e.low c x
    | none =>
      let s := s.release e .sys
      let tok := replyToken w (BitVec.ofNat 12 e.b.ctx) s.fabric.device
      ({ s with fabric := { s.fabric with msgs := s.fabric.msgs ++ [(tok, e.b.launch)] } }).addOp e e.r.exec
        (.amsg (e.readU target) w (e.payload first n) false))

/-- R320. -/
def execAmsgReply (first : BitVec 6) (n : BitVec 4) (token ctr : Sel) (s : State) : Out :=
  s.within (fun e =>
    (s.release e .sys).addOp e e.r.exec (.amsg (e.readU token) (e.readU ctr) (e.payload first n) true))

/-- The task that a handler entry starts (R319). -/
def State.taskOf (s : State) (c : Ctx) (m : AMsg) (d : List Byte) (uid : Nat) : Launch :=
  let a : Allot :=
    { vpro := bitsOf d 128 16, vfull := bitsOf d 128 16, lpro := 128 * bitsOf d 144 16, lfull := 128 * bitsOf d 144 16
      apro := 0, afull := 0 }
  let entry : Dword := BitVec.ofNat 64 (bitsOf d 0 64)
  let part : Dword := BitVec.ofNat 64 (bitsOf d 64 64)
  { uid := uid, seq := BitVec.ofNat 64 (2 ^ 63 + c.msgs), ctx := c.id, queue := 1024, cls := .d, task := some m.payload
    tok := replyToken m.ctr m.sctx m.dev
    w := [5, 0, 0, 0, 0, 0], e := [1, 1, 1, 1, 1, 1], pcount := 0, dl := s.devtime + bitsOf d 192 64, budget := bitsOf d 160 32
    det := false, nparam := 0, pentry := entry, centry := entry, ppart := if part == 0 then entry else part
    cpart := if part == 0 then entry else part, pal := a, cal := a, param := 0, recaddr := 0, tlsarea := 0, tlssize := 0
    next := 0, fin := 0, parted := 0, notst := 0, overrun := 0, start := 0, startClk := 0, issued := false, halted := false
    div := false, ended := false }

/-- A handler entry that starts a task: not empty, its figures within R30. -/
def handlerOk (d : List Byte) : Bool :=
  let v := bitsOf d 128 16
  bitsOf d 0 64 != 0 && v % 8 == 0 && decide (8 ≤ v) && decide (v ≤ 128) && decide (128 * bitsOf d 144 16 ≤ 2 ^ 20)

/-- AMSG_ARRIVAL (R319). DESIGN CHOICE, log entry 32. -/
def execAmsgArrival (m : AMsg) (s : State) : Out :=
  match s.ctx m.tctx.toNat with
  | none => .next s
  | some c =>
    let drop (s : State) : Out := .next (s.logError c.id 0x42 0)
    if c.desc.htab == 0 then drop s
    else
      match s.readVirt none c (c.desc.htab + BitVec.ofNat 64 (32 * m.index.toNat)) 32 with
      | .error _ => drop s
      | .ok (d, s) =>
        if !handlerOk d then drop s
        else
          let (uid, s) := s.fresh
          let l := s.taskOf c m d uid
          let s := s.updCtx c.id (fun c => { c with msgs := c.msgs + 1 })
          let s := { s with launches := s.launches ++ [l], sched := { s.sched with accepted := true } }
          if l.divertAt ≤ s.devtime then .next ((s.updLaunch uid (fun l => { l with notst := 1 })).checkLaunch uid)
          else .next s

/-- REPLY_ARRIVAL (R320): `token` is the reply token. The dwords are written behind the counter of the block that the
message's counter word names (R290), and then, with EN = 1, COUNT gains 1. DESIGN CHOICE, log entry 32. -/
def execReplyArrival (token : Dword) (payload : List Dword) (s : State) : Out :=
  let a := 16 * (token.extractLsb' 32 16).toNat
  let ctx := (token.extractLsb' 12 12).toNat
  let en := token.getLsbD 24
  let msg := s.fabric.msgs.find? (fun x => x.1 == token)
  let lost := if en then s.logError ctx 0x40 0 else s
  match s.counterBlock ((msg.map (·.2)).getD s.nextId) ctx (token.extractLsb' 48 8).toNat a with
  | none => .next lost
  | some b =>
    if b.lsize < a + 16 + 8 * payload.length then .next lost
    else
      let s := s.localWrite b.uid (a + 16) (payload.flatMap (fun x => leBytes 8 x.toNat))
      .next (if en then s.arcAdd b.uid a 1 else s)

/-! Deposits (R321). -/

/-- The spindle that a deposit names: the resident one of that number, else one that an eviction saved (R20, R39, R321).
DESIGN CHOICE, log entry 78. -/
def State.target (s : State) (ctx core spid : Nat) : Option (Block × Spindle) :=
  let at_ (saved : Bool) : Option (Block × Spindle) := firstSome (s.blocks.map (fun b =>
    if b.ctx == ctx && b.core == core && b.evicted == saved then
      (b.spindles.find? (fun sp => sp.spid == spid)).map (fun sp => (b, sp))
    else none))
  match at_ false with
  | some x => some x
  | none => at_ true

/-- The counter of a deposit lies in a stash range of the target's block (R124). -/
def State.rwrStash (s : State) (ctx core spid : Nat) (w : Dword) : Bool :=
  w.getLsbD 32 && ((s.target ctx core spid).map (fun x => (x.1.stashAt (16 * (w.extractLsb' 0 16).toNat)).isSome)).getD false

/-- R321, R168: ordered at `.gang`. EXITED sender slots carry free values. -/
def execRwr (src : BitVec 7) (target ctr : Sel) (s : State) : Out :=
  s.within (fun e =>
    let t := e.readU target
    let w := e.readU ctr
    if t.toNat / 2 ^ 19 != 0 || !counterOk w then s.trap e e.low .illegalOperand 0
    else if s.rwrStash e.b.ctx (gangOf e.b.core * Config.gangCores + t.toNat % 16) (t.toNat / 16 % 256) w then
      s.trap e e.low .protection (BitVec.ofNat 64 (16 * (w.extractLsb' 0 16).toNat))
    else
      let vals := (List.range 32).map (fun k =>
        if e.sp.gone k then lo32 (Config.freeWord (s.freeCtr + k)) else e.sp.vword src.toNat k)
      let s := { (s.release e .gang) with freeCtr := s.freeCtr + 32 }
      s.addOp e e.r.exec (.rwr vals (gangOf e.b.core * Config.gangCores + t.toNat % 16) (t.toNat / 16 % 256)
        (t.toNat / 2 ^ 12 % 128) w))

/-- DEPOSIT (R321): the register is written whole, tagged G, then COUNT gains 1. The 32 slots and the count change in one
step, of the outcomes that R64 allows before the target has waited. DESIGN CHOICE, log entry 63. -/
def execDeposit (op : Nat) (s : State) : Out :=
  match s.ops.find? (fun o => o.id == op) with
  | none => .next s
  | some o =>
    match o.kind with
    | .rwr vals core spid reg ctr =>
      let seq := ((s.blk o.blk).map (fun b => s.seqOf b)).getD 0
      let lost (s : State) : Out := .next ((s.logError o.ctx 0x43 seq).dropOp o)
      match s.target o.ctx core spid with
      | none => lost s
      | some (b, sp) =>
        if sp.vcount ≤ reg then lost s
        else
          let s := if b.evicted then s.reload b.uid else s
          let s := s.updSp b.uid sp.m (fun sp => sp.setV reg (fun _ => { tag := .g, vals := vals }))
          let s := if b.evicted then s.resave b.uid sp.m else s
          let a := 16 * (ctr.extractLsb' 0 16).toNat
          let s := if !ctr.getLsbD 32 then s
            else if a + 16 ≤ b.lsize then s.arcAdd b.uid a 1
            else s.logError o.ctx 0x40 seq
          .next (s.dropOp o)
    | _ => .next s

/-! Requests across the fabric (R394). -/

/-- The first outstanding request of a stream. -/
def State.firstOut (s : State) (k : StreamId) : Option PeerOut := s.fabric.outst.find? (fun x => x.key == k)

/-- It leaves the list. -/
def State.dropOut (s : State) (x : PeerOut) : State :=
  { s with fabric := { s.fabric with outst := s.fabric.outst.erase x } }

/-- A fault at the target freezes a stream: later requests of it wait at this device, in order (R394). -/
def State.freeze (s : State) (k : StreamId) : State :=
  if s.fabric.frozen.contains k || (s.firstOut k).isNone then s
  else { s with fabric := { s.fabric with frozen := k :: s.fabric.frozen } }

/-- The stream runs on. -/
def State.unfreeze (s : State) (k : StreamId) : State :=
  { s with fabric := { s.fabric with frozen := s.fabric.frozen.filter (· != k) } }.flushHeld

/-- Nothing of this device but the acknowledgement itself waits for a request's answer: it is no load's, and no copy's or
transfer's packet. -/
def State.ackable (s : State) (x : PeerOut) : Bool :=
  match x.op.bind (fun id => s.ops.find? (fun o => o.id == id)) with
  | none => true
  | some o => (match o.kind with | .copy _ _ _ _ _ _ | .xfer _ _ _ _ _ _ _ _ | .regs _ => false | _ => true)

/-- PEER_ACK (R166): the peer acknowledges the first such request of a stream; those that waited for it may leave. -/
def execPeerAck (k : StreamId) (s : State) : Out :=
  if s.fabric.frozen.contains k then .next s
  else
    match s.fabric.outst.find? (fun x => x.key == k && s.ackable x) with
    | some x => .next (s.dropOut x).flushHeld
    | none => .next s

/-- WINDOW_GO (R143, R380): the requests that an operator's unit holds come again, once it is in the chucks and the unit serves
its owner. -/
def execWindowGo (op : Nat) (s : State) : Out :=
  match s.operator op with
  | none => .next s
  | some o =>
    if o.waiting.isEmpty || !o.resident then .next s
    else
      match s.serve o.unit o.owner with
      | none => .next (s.stopUnit o.unit o.owner)
      | some t =>
        let t := t.updOp op (fun o => { o with waiting := [] })
        .next { t with agenda := t.agenda ++ o.waiting }

/-- STREAM_RESUME (R394): the frozen request, the first of its stream, is performed; a store is then acknowledged. A
load or a transfer goes on to its own completion. The requests that waited follow. -/
def execStreamResume (k : StreamId) (s : State) : Out :=
  match s.firstOut k with
  | some x => .next ((if x.op.isNone then s.dropOut x else s).unfreeze k)
  | none => .next (s.unfreeze k)

/-- A spindle's thread takes a halting fault: at once, or, if it runs a clause, at the clause's end (R389). -/
def State.faultThread (s : State) (uid m k : Nat) (cause : Trap) (detail : Dword) : State :=
  match s.blk uid with
  | none => s
  | some b =>
    if s.running uid m k then
      (s.updThr uid m k (fun t => { t with stop := some ⟨cause, detail⟩ })).haltCtx b.ctx cause
    else
      (s.updThr uid m k (fun t => { t.halt with stop := some ⟨cause, detail⟩ })).haltCtx b.ctx cause

/-- REMOTE_REJECT (R394): a spindle's access halts the context; a transfer ends with no further packets; the stream runs
on. -/
def execRemoteReject (k : StreamId) (s : State) : Out :=
  match s.firstOut k with
  | none => .next s
  | some x =>
    let o := x.op.bind (fun id => s.ops.find? (fun o => o.id == id))
    let mine (y : PeerOut) : Bool := x.op.isSome && y.op == x.op
    let s := (s.dropOut x)
    let s := { s with fabric := { s.fabric with outst := s.fabric.outst.filter (fun y => !mine y)
                                                held := s.fabric.held.filter (fun h => !mine h.x) } }.unfreeze k
    match x.thr, o with
    | none, some o =>
      let seq := ((s.blk o.blk).map (fun b => s.seqOf b)).getD 0
      .next ((s.logError k.ctx 0x45 seq).dropOp o)
    | none, none => .next (s.logError k.ctx 0x45 0)
    | some (uid, m, slot), o =>
      let s := match o with | some o => s.dropOp o | none => s
      if (s.blk uid).isSome then .next (s.faultThread uid m slot .remoteReject x.addr)
      else .next (s.haltCtx k.ctx .remoteReject)

/-- A rejected request: REJECT, with a record in the owning context's error log or the part's log. -/
def State.rejectPeer (s : State) (r : PeerReq) : State :=
  let s := { s with out := s.out ++ [OutMsg.peerReject r] }
  if (s.ctx r.tctx.toNat).isSome then s.logError r.tctx.toNat 0x45 0
  else
    let (v, s) := s.free
    s.logPart 0x45 v

/-- The pages that a request may reach, with the permission it needs: the part's memory and its windows. -/
def askRemote (k : PeerKind) (al : Bool) : Ask :=
  { allow := fun p =>
      if p.mtype == 3 || p.mtype == 6 then some .protection
      else if p.mtype == 4 then (match k with | .write _ | .window (.load _ _) => (match k with | .write _ => none | _ => some .window)
                                              | .window _ => none | _ => some .window)
      else if p.mtype == 5 then (match k with | .read _ | .window (.load _ _) => none | _ => some .window)
      else (match k with | .window _ => some .protection | _ => none)
    perm := fun p => match k with
      | .read _ | .window (.load _ _) => p.r
      | .atomic _ _ _ _ | .exact _ => p.r && p.w
      | _ => p.w
    own := fun ps => match k with
      | .atomic _ _ _ _ | .exact _ => if al then none else some .protection
      | _ => if pagesAlike ps then none else some .protection }

/-- A request to a part of a window as its unit sees it; `d` are the bytes of a store there. -/
def peerWin (k : PeerKind) (off n : Nat) (d : List Byte) : WinKind :=
  match k with
  | .write _ | .window (.store _ _) => .store off d
  | .window (.fire _) => .fire off
  | .window (.release _) => .release off
  | _ => .load off n

/-- The bytes that a request stores. -/
def peerData : PeerKind → List Byte
  | .write d | .xfer d _ | .window (.store _ d) => d
  | _ => []

/-- A request joins slot order at each slot it reaches, the lower first (R132, R134). -/
def State.joinPeer (s : State) (o : Operator) (r : PeerReq) (parts : List (Nat × Nat)) : State :=
  match peerWin r.kind ((parts.head?.map (·.1)).getD 0) 1 [] with
  | .load _ _ => (slotParts o.rstride parts).foldl (fun (t : State) x =>
      t.joinLoad o.num x.1 (.peerLoad r (x.2.map (fun p => (p.1, p.2.1))))) s
  | .store _ _ => (storeKinds o parts (peerData r.kind)).foldl (fun (t : State) k => t.joinKind o k) s
  | k => s.joinKind o k

/-- An admitted request performed at its home. -/
def State.performPeer (s : State) (r : PeerReq) (locs : List (Loc × Nat)) : State :=
  let reply (s : State) (d : List Byte) : State := { s with out := s.out ++ [OutMsg.peerReply r d] }
  match locs with
  | (.win _ op _, _) :: _ =>
    match s.operator op with
    | none => s.rejectPeer r
    | some o =>
      let wait (s : State) : State := s.updOp op (fun o => { o with waiting := o.waiting ++ [.event (.peerRequest r)] })
      match (if o.resident && o.waiting.isEmpty then s.serve o.unit o.owner else none) with
      | none => wait (if o.resident then s.stopUnit o.unit o.owner else s)
      | some s =>
        let t := s.joinPeer o r (winParts locs)
        match peerWin r.kind 0 1 [] with
        | .load _ _ => t
        | _ => reply t []
  | locs =>
    match r.kind, locs with
    | .read n, _ =>
      match s.badLocs locs with
      | some _ => { s with out := s.out ++ [OutMsg.peerError r] }
      | none =>
        let (d, s) := s.readLocs none locs
        reply s (d.take n)
    | .write d, _ =>
      if (s.downLocs locs).isSome then { s with out := s.out ++ [OutMsg.peerError r] }
      else reply (s.writeLocs (partStream r.tctx.toNat) none locs d) []
    | .xfer d ctr, _ =>
      if (s.downLocs locs).isSome then { s with out := s.out ++ [OutMsg.peerError r] }
      else
        let s := reply (s.writeLocs (partStream r.tctx.toNat) none locs d) []
        s.bumpWord s.nextId r.tctx.toNat ctr d.length
    | .atomic op wide v c, (.mem pa, n) :: _ =>
      match s.badLocs locs with
      | some _ => { s with out := s.out ++ [OutMsg.peerError r] }
      | none =>
        let (d, s) := (s.rmwLine (lineOf pa) true).engineLoad none pa n
        reply (s.engineStore pa (leBytes n (atomNew op wide (leNat d) v.toNat c.toNat).1) true) d
    | .exact u, (.mem pa, _) :: _ =>
      match s.badLocs locs with
      | some _ => { s with out := s.out ++ [OutMsg.peerError r] }
      | none =>
        let (d, s) := (s.rmwLine (lineOf pa) true).engineLoad none pa 32
        reply (s.engineStore pa (leBytes 32 (BitVec.ofInt 256 ((BitVec.ofNat 256 (leNat d)).toInt + u)).toNat) true) []
    | _, _ => s.rejectPeer r

/-- The service that a request of the same stream waits for here. -/
def State.frozenTag (s : State) (r : PeerReq) : Option Nat :=
  (s.fabric.heldIn.find? (fun h => h.r.dev == r.dev && h.r.core == r.core && h.r.ctx == r.ctx && h.r.stream == r.stream)).map (·.tag)

/-- PEER_REQUEST (R394): performed, frozen for the service of a page, or rejected. A request behind a frozen one of its
stream keeps its place (R166, R169). -/
def execPeerRequest (r : PeerReq) (s : State) : Out :=
  match s.ctx r.tctx.toNat with
  | none => .next (s.rejectPeer r)
  | some c =>
    let n := peerSize r.kind
    let right (locs : List (Loc × Nat)) : Option Stop :=
      s.winRight (.peer r.dev r.ctx) r.va (fun off n => peerWin r.kind off n (List.replicate n 0)) locs
    match s.frozenTag r with
    | some tag => .next { s with fabric := { s.fabric with heldIn := s.fabric.heldIn ++ [{ r := r, tag := tag }] } }
    | none =>
    if n == 0 then .next (s.performPeer r [])
    else
      let s := s.walked c.walker r.va n
      match s.checkAccess c.walker r.va n (askRemote r.kind (r.va.toNat % n == 0)) right with
      | .ok locs => .next (s.performPeer r locs)
      | .error (.trap _ _) => .next (s.rejectPeer r)
      | .error (.service va _) =>
        let (tag, s) := s.fresh
        let v : Service :=
          { core := 0x100, ctx := c.id, va := va, write := (match r.kind with | .read _ => false | _ => true), fetch := false
            tag := tag, sent := false, spid := 0, slots := [], op := none, queue := none, record := none, mirror := false }
        .next { s with services := s.services ++ [v]
                       fabric := { s.fabric with heldIn := s.fabric.heldIn ++ [{ r := r, tag := tag }] } }

/-- UNIT_LOAD (R380, R413, R414): by the firmware, once no operation of the unit is in flight, it holds the context's program, measured into
MEAS_2; the time is charged to the context (R388). -/
def execUnitLoad (ctx unit : Nat) (digest : BitVec 512) (s : State) : Out :=
  if (s.ctx ctx).isNone || s.unitBusy unit ctx || !s.loader unit then .next s
  else .next ((s.loadUnit unit ctx digest).chargeLoad unit ctx)

end Sys2Proof.Machine
end

