-- ==== Sys2Proof/Machine/Pack.lean ====
section
/-! DEFINITION. Pack.lean: the bounded-error pack (R102 to R106, R322, R323). -/

namespace Sys2Proof.Machine

/-- R102: a bound that is positive and finite, with 2·eb normal. -/
def boundOk (eb : Dword) : Bool := decide (2 ^ 51 ≤ eb.toNat) && decide (eb.toNat < 0x7FE0000000000000)

/-- The format and the bytes of an element. -/
def packFmt (f64 : Bool) : FFmt := if f64 then FFmt.f64 else FFmt.f32
def packSize (f64 : Bool) : Nat := if f64 then 8 else 4

/-- 2·eb as m × 2^e. -/
def step2 (eb : Dword) : Nat × Int := ((parts64 eb).1, (parts64 eb).2 + 1)

/-- R105: decode(q), its bits; a zero is +0. -/
def packDecode (f64 : Bool) (eb : Dword) (q : Int) : Nat :=
  let (m, e) := step2 eb
  let a := (FFmt.f64.round .rne 0 false (decide (q < 0)) false (q.natAbs * m) e).bits
  let b := if f64 then a else
    match FFmt.f64.decode a with
    | .fin n k x => (FFmt.f32.round .rne 0 false n false k x).bits
    | .inf n => FFmt.f32.signBit n + FFmt.f32.infBits
    | .nan _ _ => FFmt.f32.canon
  if b % 2 ^ (8 * packSize f64 - 1) == 0 then 0 else b

/-- R104: the quotient of an element, none where it is escaped. -/
def packQuot (f64 : Bool) (eb : Dword) (x : Nat) : Option Int :=
  match (packFmt f64).decode x with
  | .fin n k e =>
    let (m, e2) := step2 eb
    let d := e - e2
    let s : Int := if n then -(k : Int) else k
    let q := if 0 ≤ d then rneDiv (s * 2 ^ d.toNat) m else rneDiv s (m * 2 ^ (-d).toNat)
    if q.natAbs < 2 ^ 31 && (((packFmt f64).decode (packDecode f64 eb q)).exact).isSome then some q else none
  | _ => none

/-- R104: the zigzag codes of a block's quotients. -/
def zigzags : Int → List (Option Int) → List Nat
  | _, [] => []
  | _, none :: r => 0 :: zigzags 0 r
  | pred, some q :: r =>
    let res : Word := BitVec.ofInt 32 (q - pred)
    ((res <<< 1) ^^^ (res.sshiftRight 31)).toNat :: zigzags q r

/-- The bits of codes of w bits each, the first lowest. -/
def packBits (w : Nat) : List Nat → Nat
  | [] => 0
  | z :: r => z + 2 ^ w * packBits w r

/-- A block of at most 64 elements as it stands in the stream (R103). -/
def packBlock (f64 : Bool) (eb : Dword) (xs : List Nat) : List Byte :=
  let qs := xs.map (packQuot f64 eb)
  let zs := zigzags 0 qs
  let w := (zs.map (fun z => if z == 0 then 0 else Nat.log2 z + 1)).foldl max 0
  let esc := xs.zip qs |>.filter (fun x => x.2.isNone)
  let mask := (qs.zipIdx).foldl (fun a x => if x.1.isNone then a + 2 ^ x.2 else a) 0
  let raw := esc.flatMap (fun x => leBytes (packSize f64) x.1)
  leBytes 8 (w + (if esc.isEmpty then 0 else 64)) ++
  (if esc.isEmpty then [] else leBytes 8 mask) ++
  leBytes (8 * ((xs.length * w + 63) / 64)) (packBits w zs) ++
  raw ++ List.replicate (roundUp 8 raw.length - raw.length) 0

/-- Elements cut into blocks of 64. -/
def blocks64 : Nat → List Nat → List (List Nat)
  | 0, _ => []
  | fuel + 1, l => if l.isEmpty then [] else l.take 64 :: blocks64 fuel (l.drop 64)

/-- The stream (R102, R103). -/
def packStream (f64 : Bool) (eb : Dword) (xs : List Nat) : List Byte :=
  leBytes 8 eb.toNat ++ leBytes 8 (xs.length + (if f64 then 2 ^ 40 else 0)) ++
  (blocks64 (xs.length / 64 + 1) xs).flatMap (packBlock f64 eb)

/-- Elements in some bytes. -/
def elemsIn (f64 : Bool) (n : Nat) (d : List Byte) : List Nat :=
  (List.range n).map (fun i => leNat ((d.drop (i * packSize f64)).take (packSize f64)))

/-- R322. A count above 2^40 − 1 has no result in the manual: sD is free and nothing is written.
DESIGN CHOICE, log entry 33. -/
def execBepack (d : BitVec 6) (f64 : Bool) (dst src count eb : Sel) (s : State) : Out :=
  s.within (fun e =>
    let n := (e.readU count).toNat
    if n == 0 || !boundOk (e.readU eb) then s.issueS e d 0
    else if 2 ^ 40 ≤ n then
      let (v, s) := s.free
      s.issueS e d v
    else
      let worst := 16 + (n + 63) / 64 * (16 + 256 + 64 * packSize f64)
      let s := s.walkedAll (e.walker s) [(e.readU src, n * packSize f64), (e.readU dst, worst)]
      match s.checkAccess (e.walker s) (e.readU src) (n * packSize f64) askRead (fun _ => none) with
      | .error x => s.stopped e e.low false x
      | .ok from_ =>
        match s.checkAccess (e.walker s) (e.readU dst) worst askWrite (fun _ => none) with
        | .error x => s.stopped e e.low true x
        | .ok to_ =>
          match firstSome [s.badLocs from_, s.downLocs to_] with
          | some l => s.unitHalt e 7 l
          | none =>
            let (raw, s) := s.readLocs (some e.b.core) from_
            let out := packStream f64 (e.readU eb) (elemsIn f64 n raw)
            (s.writeLocs e.stream (some s.nextId) (subLocs to_ 0 out.length) out).issueS e d (BitVec.ofNat 64 out.length))

/-! Decoding (R105, R323). -/

/-- The elements of a block from its codes of w bits, its escape mask and its raw elements. -/
def unpackBlock (f64 : Bool) (eb : Dword) (w body mask : Nat) : Nat → Nat → Int → List Nat → List Nat
  | 0, _, _, _ => []
  | k + 1, i, pred, raw =>
    if mask.testBit i then raw.headD 0 :: unpackBlock f64 eb w body mask k (i + 1) 0 (raw.drop 1)
    else
      let z : Word := BitVec.ofNat 32 (body / 2 ^ (i * w) % 2 ^ w)
      let res : Word := (z >>> 1) ^^^ (-(z &&& 1))
      let q := (BitVec.ofInt 32 pred + res).toInt
      packDecode f64 eb q :: unpackBlock f64 eb w body mask k (i + 1) q raw

/-- How far decoding came: the status, and an uncorrectable line met. -/
structure Unpacked where
  status : Nat
  done   : Nat
  bad    : Option Nat
  deriving DecidableEq, Repr

/-- Blocks decoded from `pos` on, each written whole before the next is read; `left` elements remain. -/
def State.unpackGo (s : State) (e : Env) (f64 : Bool) (eb src : Dword) (to_ : List (Loc × Nat)) :
    Nat → Nat → Nat → Nat → Unpacked × State
  | 0, _, done, _ => (⟨0, done, none⟩, s)
  | fuel + 1, pos, done, left =>
    if left == 0 then (⟨0, done, none⟩, s)
    else
      let k := min left 64
      match s.fetchVirt e (src + BitVec.ofNat 64 pos) 8 with
      | (none, s) => (⟨7, done, none⟩, s)
      | (some (_, some l), s) => (⟨0, done, some l⟩, s)
      | (some (h, none), s) =>
        let w := leNat h % 64
        let esc := leNat h / 64 % 2 == 1
        if 32 < w || leNat h / 128 != 0 then (⟨1, done, none⟩, s)
        else
          let mres := if esc then s.fetchVirt e (src + BitVec.ofNat 64 (pos + 8)) 8 else (some ([], none), s)
          match mres with
          | (none, s) => (⟨7, done, none⟩, s)
          | (some (_, some l), s) => (⟨0, done, some l⟩, s)
          | (some (mb, none), s) =>
            let mask := leNat mb % 2 ^ k
            let nEsc := ((List.range k).filter (fun i => mask.testBit i)).length
            let p := pos + 8 + (if esc then 8 else 0)
            let nb := 8 * ((k * w + 63) / 64)
            let nr := roundUp 8 (nEsc * packSize f64)
            let bres := if nb + nr == 0 then (some ([], none), s) else s.fetchVirt e (src + BitVec.ofNat 64 p) (nb + nr)
            match bres with
            | (none, s) => (⟨7, done, none⟩, s)
            | (some (_, some l), s) => (⟨0, done, some l⟩, s)
            | (some (b, none), s) =>
              let xs := unpackBlock f64 eb w (leNat (b.take nb)) mask k 0 0 (elemsIn f64 nEsc (b.drop nb))
              let n := packSize f64
              let s := s.writeLocs e.stream (some s.nextId) (subLocs to_ (done * n) (k * n)) (xs.flatMap (leBytes n))
              s.unpackGo e f64 eb src to_ fuel (p + nb + nr) (done + k) (left - k)

/-- The header, then the blocks (R323). -/
def State.unpack (s : State) (e : Env) (f64 : Bool) (src : Dword) (cap : Nat) (to_ : List (Loc × Nat)) : Unpacked × State :=
  match s.fetchVirt e src 16 with
  | (none, s) => (⟨7, 0, none⟩, s)
  | (some (_, some l), s) => (⟨0, 0, some l⟩, s)
  | (some (h, none), s) =>
    let eb := BitVec.ofNat 64 (bitsOf h 0 64)
    let n := bitsOf h 64 40
    if !boundOk eb || n == 0 || bitsOf h 105 23 != 0 || bitsOf h 104 1 != f64.toNat then (⟨1, 0, none⟩, s)
    else if cap < n then (⟨2, 0, none⟩, s)
    else s.unpackGo e f64 eb src to_ ((n + 63) / 64) 16 0 n

def execBeunpack (d : BitVec 6) (f64 : Bool) (dst src cap : Sel) (s : State) : Out :=
  s.within (fun e =>
    let c := (e.readU cap).toNat
    let s := if c == 0 then s else s.walked (e.walker s) (e.readU dst) (c * packSize f64)
    let range : Except Stop (List (Loc × Nat)) :=
      if c == 0 then .ok []
      else s.checkAccess (e.walker s) (e.readU dst) (c * packSize f64) askWrite (fun _ => none)
    match range with
    | .error x => s.stopped e e.low true x
    | .ok to_ =>
      match s.downLocs to_ with
      | some l => s.unitHalt e 7 l
      | none =>
        match s.unpack e f64 (e.readU src) c to_ with
        | (⟨_, _, some l⟩, s) => s.unitHalt e 7 l
        | (⟨st, done, none⟩, s) => s.issueS e d (BitVec.ofNat 64 (st + done * 2 ^ 8)))

end Sys2Proof.Machine
end

