-- ==== Sys2Proof/Machine/Complete.lean ====
section
/-! DEFINITION. Complete.lean: the completion of long-latency operations (R50, R61, TOKEN_CLEAR), fences (R154, R250),
durability (R127) and orphan waits (R35, R288). -/

namespace Sys2Proof.Machine

/-- Every packet of a copy that is left, each as soon as it may go; none while one has to wait. -/
def State.copyAll (s : State) (id : Nat) : Nat → Option State
  | 0 => some s
  | fuel + 1 =>
    match s.ops.find? (fun o => o.id == id) with
    | none => some s
    | some o =>
      match o.kind with
      | .copy _ _ _ segs _ _ =>
        if segs.isEmpty then some s
        else
          match firstSome ((List.range segs.length).map (fun n => s.copyPacket o n)) with
          | some t => t.copyAll id fuel
          | none => none
      | _ => some s

/-- The lines of ranges. -/
def rangeLines (ranges : List (Nat × Nat)) : List Nat :=
  ranges.flatMap (fun r => (linePieces r.1 r.2).map (fun p => lineOf p.1))

/-- The lines of ranges are durable (R126, R127, R253): a loss of power no longer undoes what their values numbered below
`mark` were followed by. -/
def State.persisted (s : State) (ranges : List (Nat × Nat)) (mark : Nat) : State :=
  let ls := rangeLines ranges
  { s with durable := s.durable.filter (fun d => !(ls.contains d.1 && decide (d.2.1 < mark)))
           kept := s.kept ++ ls.filter (fun l => !s.kept.contains l) }

/-- A `persist` begins (R127, R408): its lines leave the part's caches, and the devices of stock memory are asked to flush
them; where no range lies in stock memory it is complete. A link that is down fails it: DESIGN CHOICE, log entry 75. -/
def State.persistStart (s : State) (o : Op) (ranges : List (Nat × Nat)) : State :=
  let s := (rangeLines ranges).foldl (fun t l => (t.recall l).ackLine l) s
  let stock := ranges.filter (fun (r : Nat × Nat) => match pclass r.1 with | .stock _ => true | _ => false)
  match firstSome (ranges.map (fun r => s.downIn r.1 r.2)) with
  | some l => (s.dropOp o).faultThread o.blk o.m (o.slots.headD 0) .uncorrectable (BitVec.ofNat 64 (128 * l))
  | none =>
  if stock.isEmpty then (s.persisted ranges s.writes).dropOp o
  else ({ s with out := s.out ++ stock.map (fun (r : Nat × Nat) => OutMsg.downFlush r.1 r.2) }).setKind o.id (.persist ranges (some s.writes))

/-- The devices have flushed the lines of a `persist` (R127, R408). -/
def execPersistAck (op : Nat) (s : State) : Out :=
  match s.ops.find? (fun o => o.id == op) with
  | none => .next s
  | some o =>
    match o.kind with
    | .persist ranges (some mark) => .next ((s.persisted ranges mark).dropOp o)
    | _ => .next s

/-- A tile operation stops while its block is away (R396), and takes no further effect while its context halts (R389). -/
def State.away (s : State) (o : Op) : Bool :=
  (((s.blk o.blk).map (·.evicted)).getD false && o.kind.engine == some 0x02) || (o.kind.rows && s.halting o.ctx)

/-- A request is an access of the threads that issued an operation. -/
def Op.made (o : Op) (x : PeerOut) : Bool := o.slots.any (fun k => x.thr == some (o.blk, o.m, k))

/-- Peer requests of the threads that issued an operation wait at this device, or their stream is frozen (R166, R394). -/
def State.threadsHeld (s : State) (o : Op) : Bool :=
  s.fabric.held.any (fun h => o.made h.x) || s.fabric.outst.any (fun x => s.fabric.frozen.contains x.key && o.made x)

/-- An engine's requests of a fence's earlier operations wait here, or their stream is frozen (R154). -/
def State.writesHeld (s : State) (before : List Nat) : Bool :=
  let mine (x : PeerOut) : Bool := (x.op.map before.contains).getD false
  s.fabric.held.any (fun h => mine h.x) || s.fabric.outst.any (fun x => s.fabric.frozen.contains x.key && mine x)

/-- The outstanding requests of a fence are acknowledged: its threads' stores, and the earlier operations' (R154, R166). -/
def State.ackFor (s : State) (o : Op) (before : List Nat) : State :=
  { s with fabric := { s.fabric with outst := s.fabric.outst.filter (fun x =>
      !((x.op.isNone && o.made x) || (x.op.map before.contains).getD false)) } }.flushHeld

/-- A scope at which a fence ages leases (R154). -/
def wideScope (sc : Scope) : Bool := sc == .gang || sc == .dev || sc == .sys

/-- An operation performed whole; none while it cannot be. -/
def State.complete (s : State) (o : Op) : Option State :=
  if s.away o || s.unsent o then none else
  match o.kind with
  | .regs _ | .sreg _ _ | .stash _ _ none | .zrnd _ _ _ => some ((s.finishRegs o).dropOp o)
  | .acks _ _ _ => some (s.dropOp o)
  | .fence sys => if sys && s.threadsHeld o then none else some ((if sys then s.ackFor o [] else s).dropOp o)
  | .winFence reqs _ => if s.posted.any (fun p => reqs.contains p.id) then none else some (s.dropOp o)
  | .asyncFence before sc =>
    if before.any (fun i => s.ops.any (fun x => x.id == i)) || (sc == .sys && (s.threadsHeld o || s.writesHeld before)) then none
    else
      let s := if sc == .sys then s.ackFor o before else s
      some ((if wideScope sc then s.ageLeases o.core else s).dropOp o)
  | .persist ranges none => some (s.persistStart o ranges)
  | .persist _ (some _) => none
  | .copy _ _ _ segs _ _ => (s.copyAll o.id (2 * segs.length + 1)).map (fun t => t.dropOp o)
  | .stash r v (some la) =>
    let mapped := ((s.blk o.blk).map (fun b => b.stash.any (fun m => m.l == la))).getD false
    (s.unmapStash o.blk la).map (fun t => (t.deliverS o r (if mapped then v else 5)).dropOp o)
  | .resultLoad _ _ _ _ _ _ _ => none
  | .mma _ _ _ _ _ _ _ _ _ => if ((s.mmaReady o).map (fun x => x.1.any s.away)).getD true then none else s.doMma o
  | .zdrain _ _ _ _ _ => s.doDrain o none
  | .zld _ _ _ => s.doZld o none
  | .zst _ _ _ => s.doZst o none
  | .quant _ _ _ _ => s.doQuant o none
  | .mgclose _ _ | .mgcommit _ _ | .mgread _ _ _ _ _ | .mgstable _ _ _ => some (s.doMerge o)
  | .coll r _ _ _ ctr _ (some st) => some (s.collDone o r st ctr)
  | .coll _ _ _ _ _ _ none => none
  | .xfer _ _ _ todo sent _ _ _ => if todo.isEmpty && sent.isEmpty then some (s.dropOp o) else none
  | .amsg _ _ _ _ => some ((s.sendMsg o).dropOp o)
  | .rwr _ _ _ _ _ => none

/-- A load's request at a peer is answered (R394), and requests that waited for it may leave (R166). -/
def State.answered (s : State) (o : Op) : State :=
  { s with fabric := { s.fabric with outst := s.fabric.outst.filter (fun x => !(x.op == some o.id && x.thr.isSome)) } }.flushHeld

/-- TOKEN_CLEAR (R61): an operation completes, and with the last one its token clears. -/
def execTokenClear (op : Nat) (s : State) : Out :=
  match s.ops.find? (fun o => o.id == op) with
  | none => .next s
  | some o => .next (((s.complete o).map (fun t => t.answered o)).getD s)

/-! Fences. -/

/-- The engine operations that a batch's threads have issued, with those that are over but for requests to peers not yet
acknowledged (R154). -/
def State.engineOps (s : State) (e : Env) : List Nat :=
  (s.ops.filter (fun o => o.blk == e.b.uid && o.m == e.sp.m && o.slots.any (fun k => e.r.exec.contains k) &&
    o.kind.engine.isSome)).map (·.id) ++
  ((s.fabric.held.map (·.x) ++ s.fabric.outst).filter (fun x => x.key == e.stream && x.thr.isNone)).filterMap (·.op)

/-- A fence of a set at a scope, its engine operations aside. -/
def State.fenceNow (s : State) (e : Env) (sc : Scope) (set : FSet) : State :=
  match set with
  | .win => s
  | .ls | .ss => s.release e sc
  | .ll | .sl | .all | .async =>
    let s := s.release e sc
    if wideScope sc then s.ageLeases e.b.core else s

/-- R154, R250. A `fence.async` completes when the engine operations issued before it have, a fence at `.sys` when the peer
requests of its threads have left, `fence.win` when their window requests have joined; the thread goes on, and its later
accesses wait (`State.perform`). DESIGN CHOICE, log entry 37. -/
def execFence (sc : Scope) (set : FSet) (s : State) : Out :=
  s.within (fun e =>
    if set == .win then s.winFence e false
    else (s.fenceNow e sc set).addOp e e.r.exec (if set == .async then .asyncFence (s.engineOps e) sc else .fence (sc == .sys)))

/-- What an instruction is to a fence of its thread: an access, a release at `.sys`, a window load, an event that a `wfence`
orders (R154, R250, R254). -/
structure Fenced where
  access  : Bool
  release : Bool
  winLoad : Bool
  ordered : Bool
  deriving DecidableEq, Repr

/-- A fence still holds such an instruction back. -/
def State.fenceHolds (s : State) (o : Op) (f : Fenced) : Bool :=
  match o.kind with
  | .asyncFence _ _ => f.access
  | .fence sys => f.access && sys && s.threadsHeld o
  | .winFence reqs all => (f.winLoad || (all && f.ordered)) && s.posted.any (fun p => reqs.contains p.id)
  | _ => false

/-- A thread of a batch has to wait at an instruction: behind a fence of it that has not completed (R250, R254), or at a
release at `.sys` while a peer request of it waits at this device (R166, R394). -/
def State.mustWait (s : State) (e : Env) (f : Fenced) : Bool :=
  s.ops.any (fun o => o.blk == e.b.uid && o.m == e.sp.m && o.slots.any (fun k => e.r.exec.contains k) && s.fenceHolds o f) ||
  (f.release && (s.fabric.held.any (fun h => e.r.exec.any (fun k => h.x.thr == some (e.name k))) ||
    s.fabric.outst.any (fun x => s.fabric.frozen.contains x.key && e.r.exec.any (fun k => x.thr == some (e.name k)))))

/-! Orphan waits. -/

/-- The local lines that an engine operation still has to read: block and line. -/
def Op.lines (o : Op) : List (Nat × Nat) :=
  let of_ (uid : Nat) (l : List (Nat × Nat)) : List (Nat × Nat) :=
    l.flatMap (fun r => (linePieces r.1 r.2).map (fun p => (uid, lineOf p.1)))
  match o.kind with
  | .copy true _ _ segs _ _ => of_ o.blk (segs.map (fun x => (x.la, x.len)))
  | .mma t _ xa xb kb fw _ _ src =>
    let (ra, rb) := mmaRanges t xa xb kb fw
    of_ o.blk [ra] ++ (match src with | some u => of_ u [rb] | none => [])
  | .quant _ _ d _ => of_ o.blk d.reads
  | _ => []

/-- A line that an engine waits for in vain: absent with no fill pending. -/
def State.opOrphan (s : State) (o : Op) : Option Nat :=
  (o.lines.find? (fun x =>
    match s.blk x.1 with
    | some b => !b.present x.2 && b.fillCount x.2 == 0
    | none => false)).map (·.2)

/-- ORPHAN_WAIT (R35, R288): the park limit of the context has passed for a thread, or for an engine operation it
issued. -/
def execOrphanWait (core spid slot : Nat) (s : State) : Out :=
  match firstSome (s.blocks.map (fun b =>
      if b.core == core && !b.evicted then (b.spindles.find? (fun sp => sp.spid == spid)).map (fun sp => (b, sp)) else none)) with
  | none => .next s
  | some (b, sp) =>
    let lim := s.parkLimit b.ctx
    let parked := match sp.threads[slot]? with
      | some t =>
        (match t.st with
          | .parked (.lines ls since) => if since + lim ≤ s.devtime then ls.find? b.orphan else none
          | _ => none)
      | none => none
    match parked with
    | some l => .next (s.trapThread b.uid sp.m slot .orphanWait (BitVec.ofNat 64 (128 * l)))
    | none =>
      match s.ops.find? (fun o => o.blk == b.uid && o.m == sp.m && o.slots.contains slot &&
          decide (o.start + lim ≤ s.devtime) && (s.opOrphan o).isSome) with
      | some o => .next (s.engineHalt o .orphanWait (128 * (s.opOrphan o).getD 0))
      | none => .next s

end Sys2Proof.Machine
end

