-- ==== Sys2Proof/Machine/Issue.lean ====
section
/-! DEFINITION. Issue.lean: the issue of a clause (R22, R33, R59, R179 to R182, R343 to R345, R360, R361), divert,
deadline stop, allotment grants and the end of spindles and blocks (R32, R43 to R48, R278, R279, R284). -/

namespace Sys2Proof

/-! What the clause-wide checks see of an instruction. -/

/-- The PC-changing instructions (R182). -/
def Instr.changesPc : Instr → Bool
  | .bra _ | .jmp _ | .brx _ _ | .call _ | .calli _ | .ret | .exit | .trap _ | .sys _ _ _ | .tret => true
  | _ => false

/-- The register result an instruction leaves in its latch: whether it is 64-bit; none for a long-latency
instruction and for one without a register result (R59). -/
def Instr.result : Instr → Option Bool
  | .iadd _ _ _ | .isub _ _ _ | .iabs _ _ | .ineg _ _ | .iaddc _ _ _ _ | .isubb _ _ _ _ | .shl _ _ _ | .shr _ _ _
  | .sar _ _ _ | .rot _ _ _ | .and _ _ _ | .or _ _ _ | .xor _ _ _ | .andn _ _ _ | .orn _ _ _ | .not _ _
  | .logic3 _ _ _ _ _ | .popc _ _ | .clz _ _ | .ctz _ _ | .brev _ _ | .bfx _ _ _ _ _ | .bfi _ _ _ _ | .bperm _ _ _ _
  | .sel _ _ _ _ | .mov _ _ | .fexpn _ _ _ _ | .cvtp _ _ _ _ _ | .pmov (.get _) | .ballot _ _ _ | .nact _
  | .shape _ _ _ | .shapeof _ _ => some false
  | .imul _ t _ _ _ | .imulhi _ t _ _ | .imad _ t _ _ _ _ | .imin _ t _ _ | .imax _ t _ _ | .iadds _ t _ _ => some t.is64
  | .fadd _ m _ _ | .fsub _ m _ _ | .fmul _ m _ _ | .ffma _ m _ _ _ | .fround _ m _ | .fscale _ m _ _ => some (m.ft == .f64)
  | .fmin _ t _ _ _ | .fmax _ t _ _ _ | .fminn _ t _ _ _ | .fmaxn _ t _ _ _ | .fmant _ t _ _ => some (t == .f64)
  | .fabs _ t _ | .fneg _ t _ | .fsgn _ t _ _ => some (t == .f64)
  | .cvt _ m _ | .cvtu _ m _ _ => some m.dst.is64
  | .shfl _ _ w _ _ _ | .spush _ w _ _ _ => some w
  | .matchSlots _ _ t _ _ | .redux _ _ t _ _ | .scan _ _ _ t _ _ => some t.is64
  | .sadd _ _ _ | .ssub _ _ _ | .smul _ _ _ | .smulhi _ _ _ _ | .smad _ _ _ _ _ | .sshl _ _ _ | .sshr _ _ _ | .ssar _ _ _
  | .sand _ _ _ | .sor _ _ _ | .sxor _ _ _ | .snot _ _ | .smin _ _ _ _ | .smax _ _ _ _ | .smov _ _ | .scmp _ _ _ _ _
  | .ssel _ _ _ _ | .spopc _ _ | .sclz _ _ | .rfa _ _ | .time _ | .slack _ | .csrr _ _ => some true
  | _ => none

/-- The operand selectors of an instruction that may name a vector register or a latch, each with its width. -/
def Instr.srcs : Instr → List (Sel × Bool)
  | .iadd _ a b | .isub _ a b | .iaddc _ a b _ | .isubb _ a b _ | .shl _ a b | .shr _ a b | .sar _ a b | .rot _ a b
  | .and _ a b | .or _ a b | .xor _ a b | .andn _ a b | .orn _ a b | .sel _ a b _ | .cvtp _ _ _ a b | .idiv _ _ a b =>
    [(a, false), (b, false)]
  | .iabs _ a | .ineg _ a | .not _ a | .popc _ a | .clz _ a | .ctz _ a | .brev _ a | .mov _ a | .cvtu _ _ _ a | .shape _ _ a
  | .shapeof _ a | .pmov (.test _ a) | .pmov (.put a) | .rsq _ _ a | .exp2 _ _ a | .log2 _ _ a | .sinpi _ _ a | .cospi _ _ a
  | .tanh _ _ a | .erf _ _ a | .rfa _ a | .brx a _ => [(a, false)]
  | .logic3 _ _ a b c | .bfx _ _ a b c | .bfi _ a b c | .bperm _ a b c => [(a, false), (b, false), (c, false)]
  | .imul _ t _ a b | .imulhi _ t a b | .imin _ t a b | .imax _ t a b | .iadds _ t a b | .icmp _ _ t a b =>
    [(a, t.is64), (b, t.is64)]
  | .imad _ t _ a b c => [(a, t.is64), (b, t.is64), (c, t.is64)]
  | .fadd _ m a b | .fsub _ m a b | .fmul _ m a b => [(a, m.ft == .f64), (b, m.ft == .f64)]
  | .ffma _ m a b c => [(a, m.ft == .f64), (b, m.ft == .f64), (c, m.ft == .f64)]
  | .fmin _ t _ a b | .fmax _ t _ a b | .fminn _ t _ a b | .fmaxn _ t _ a b => [(a, t == .f64), (b, t == .f64)]
  | .fsgn _ t a b => [(a, t == .f64), (b, t == .f64)]
  | .fcmp _ _ t _ a b => [(a, t == .f64), (b, t == .f64)]
  | .fabs _ t a | .fneg _ t a => [(a, t == .f64)]
  | .fexpn _ t _ a | .fmant _ t _ a => [(a, t == .f64)]
  | .fclass _ t a b => [(a, t == .f64), (b, false)]
  | .fround _ m a => [(a, m.ft == .f64)]
  | .fscale _ m a b => [(a, m.ft == .f64), (b, false)]
  | .cvt _ m a => [(a, m.src.is64)]
  | .shfl _ _ w _ a b | .spush _ w _ a b => [(a, w), (b, false)]
  | .matchSlots _ _ t _ a | .redux _ _ t _ a | .scan _ _ _ t _ a => [(a, t.is64)]
  | .ld _ _ _ m | .pref _ m | .wfire m | .wrel m | .persist m _ => [(m.base, true), (m.off, false)]
  | .st _ sz m x => [(m.base, true), (m.off, false), (x, sz == .b64)]
  | .ldl _ _ m | .pclr m _ => [(m.base, false), (m.off, false)]
  | .stl sz m x => [(m.base, false), (m.off, false), (x, sz == .b64)]
  | .atom _ _ w _ m x | .atomx _ w _ m x => [(m.base, true), (m.off, false), (x, w)]
  | .vpub _ _ m c => [(m.base, true), (m.off, false), (c, false)]
  | .arcset b n t _ => [(b, false), (n, true), (t, true)]
  | .arcadd b n _ => [(b, false), (n, true)]
  | .arcwait b _ => [(b, false)]
  | .rcp _ f _ _ a | .sqrt _ f _ _ a => [(a, f)]
  | .fdiv _ f _ _ a b => [(a, f), (b, f)]
  | .cpy _ _ _ l base off n => [(l, false), (base, true), (off, false), (n, false)]
  | .cpyw _ _ _ l base off _ => [(l, false), (base, true), (off, false)]
  | .mma _ a b _ fw | .mmaGang _ a b _ fw => [(a, false), (b, false), (fw, false)]
  | .zdrain _ _ base off _ fw => [(base, true), (off, false), (fw, false)]
  | .zld _ base off | .zst _ base off => [(base, true), (off, false)]
  | .quant _ _ fw => [(fw, false)]
  | .mgread _ _ _ i => [(i, false)]
  | _ => []

end Sys2Proof

namespace Sys2Proof.Machine

/-- The registers of a VD destination. -/
def vdRegs (d : VDst) (w : Bool) : List (Nat × Nat) :=
  match d with
  | .latch => []
  | .v n => [(n.toNat, if w then 2 else 1)]

/-- The registers of a "VD pair or SD" destination. -/
def tdRegs : TDst → List (Nat × Nat)
  | .v n => [(n.toNat, 2)]
  | _ => []

/-- Registers of a memory datum. -/
def sizeRegs : Size → Nat
  | .b64 => 2
  | .b128 => 4
  | _ => 1

/-- A datum of 128 bits names four registers (R244). -/
def dataRegs (sz : Size) (x : Sel) : List (Nat × Nat) :=
  match sz, x with
  | .b128, .v n => [(n.toNat, 4)]
  | _, _ => []

/-- The vector registers that an instruction writes, or reads outside its selectors: first register and count. -/
def vregsOf (i : Instr) : List (Nat × Nat) :=
  match i with
  | .iadd d _ _ | .isub d _ _ | .iabs d _ | .ineg d _ | .iaddc d _ _ _ | .isubb d _ _ _ | .shl d _ _ | .shr d _ _ | .sar d _ _
  | .rot d _ _ | .and d _ _ | .or d _ _ | .xor d _ _ | .andn d _ _ | .orn d _ _ | .not d _ | .logic3 d _ _ _ _ | .popc d _
  | .clz d _ | .ctz d _ | .brev d _ | .bfx d _ _ _ _ | .bfi d _ _ _ | .bperm d _ _ _ | .sel d _ _ _ | .mov d _ | .fexpn d _ _ _
  | .cvtp d _ _ _ _ | .pmov (.get d) | .ballot d _ _ | .nact d | .shape d _ _ | .shapeof d _ => vdRegs d false
  | .imul d t _ _ _ | .imulhi d t _ _ | .imad d t _ _ _ _ | .imin d t _ _ | .imax d t _ _ | .iadds d t _ _ => vdRegs d t.is64
  | .fadd d m _ _ | .fsub d m _ _ | .fmul d m _ _ | .ffma d m _ _ _ | .fround d m _ | .fscale d m _ _ => vdRegs d (m.ft == .f64)
  | .fmin d t _ _ _ | .fmax d t _ _ _ | .fminn d t _ _ _ | .fmaxn d t _ _ _ | .fmant d t _ _ => vdRegs d (t == .f64)
  | .fabs d t _ | .fneg d t _ | .fsgn d t _ _ => vdRegs d (t == .f64)
  | .cvt d m _ | .cvtu d m _ _ => vdRegs d m.dst.is64
  | .shfl d _ w _ _ _ | .spush d w _ _ _ => vdRegs d w
  | .matchSlots d _ t _ _ | .redux d _ t _ _ | .scan d _ _ t _ _ => vdRegs d t.is64
  | .ld d _ sz _ | .ldl d sz _ => [(d.toNat, sizeRegs sz)]
  | .st _ sz _ x | .stl sz _ x => dataRegs sz x
  | .atom (some d) _ w _ _ _ => [(d.toNat, if w then 2 else 1)]
  | .rcp d f _ _ _ | .sqrt d f _ _ _ | .fdiv d f _ _ _ _ => [(d.toNat, if f then 2 else 1)]
  | .rsq d _ _ | .exp2 d _ _ | .log2 d _ _ | .sinpi d _ _ | .cospi d _ _ | .tanh d _ _ | .erf d _ _ => [(d.toNat, 1)]
  | .idiv d _ _ _ | .mgread d _ _ _ => [(d.toNat, 2)]
  | .zrnd d f _ _ _ _ _ => [(d.toNat, if f == .f64 then 2 else 1)]
  | .rwr r _ _ => [(r.toNat, 1)]
  | .time d | .slack d | .csrr d _ => tdRegs d
  | _ => []

/-- R33, R58, R59: the operands of an instruction against the allotment and the results before it, the newest
first. -/
def operandsOk (alloc : Nat) (lats : List (Option Bool)) (i : Instr) : Bool :=
  i.srcs.all (fun x =>
    match x.1 with
    | .v n => n.toNat + (if x.2 then 2 else 1) ≤ alloc
    | .x n =>
      match lats[n.toNat]? with
      | some (some w) => w || !x.2
      | _ => false
    | _ => true) &&
  (vregsOf i).all (fun r => r.1 + r.2 ≤ alloc)

/-- The trap of a decode failure. -/
def trapOf : DecErr → Trap
  | .illegalInsn => .illegalInsn
  | .illegalOperand => .illegalOperand

/-- R181, R359: the words of a clause decoded in order from a point on; decoding ends at a `brk`.
DESIGN CHOICE, log entry 16. -/
def checkWords (c : Cls) (alloc : Nat) : Nat → List (Option Bool) → List Word → Option DecErr
  | _, _, [] => none
  | 0, _, _ => some .illegalInsn
  | fuel + 1, lats, w :: ws =>
    match decodeInstr c (w :: ws) with
    | .error e => some e
    | .ok (i, r) =>
      match i with
      | .brk _ => none
      | _ =>
        if !operandsOk alloc lats i then some .illegalOperand
        else if i.changesPc && !r.isEmpty then some .illegalInsn
        else checkWords c alloc fuel ((i.result :: lats).take 4) r

/-- The words from the n-th instruction of a clause on; none where it has no such instruction. -/
def skipInstrs (c : Cls) : Nat → List Word → Option (List Word)
  | 0, ws => if ws.isEmpty then none else some ws
  | n + 1, ws =>
    match decodeInstr c ws with
    | .error _ => none
    | .ok (_, r) => skipInstrs c n r

/-! Fetching (R270). -/

/-- The pages a clause is fetched from. DEDUCED, log entry 29. DESIGN CHOICE, log entry 82. -/
def askFetch : Ask :=
  { allow := fun p => if p.mtype < 3 then none else some (if p.mtype == 4 || p.mtype == 5 then .window else .protection)
    perm := fun p => p.x
    own := fun _ => none }

/-- The 32-bit words that bytes hold. -/
def wordsOf : Nat → List Byte → List Word
  | 0, _ => []
  | n + 1, d => BitVec.ofNat 32 (leNat (d.take 4)) :: wordsOf n (d.drop 4)

/-- A fetch of n words by a core of a context. -/
def State.fetchCode (s : State) (core ctx : Nat) (va : Dword) (n : Nat) : Except Stop (List Word × State) :=
  let s := s.walked (s.walkerOf core ctx) va (4 * n)
  match s.checkAccess (s.walkerOf core ctx) va (4 * n) askFetch (fun _ => none) with
  | .error x => .error x
  | .ok locs =>
    match s.badLocs locs with
    | some l => .error (.trap .uncorrectable (BitVec.ofNat 64 (128 * l)))
    | none =>
      let (d, t) := s.readLocs (some core) locs
      .ok (wordsOf n d, t)

/-- A clause: its header and its words. -/
def State.fetchClause (s : State) (core ctx : Nat) (va : Dword) : Except Stop (Header × List Word × State) :=
  match s.fetchCode core ctx va 1 with
  | .error x => .error x
  | .ok (h, _) =>
    match decodeHeader (h.headD 0) with
    | none => .error (.trap .illegalInsn 0)
    | some hd =>
      match s.fetchCode core ctx va (1 + hd.count) with
      | .error x => .error x
      | .ok (ws, t) => .ok (hd, ws.drop 1, t)

/-! Batches (R22, R344). -/

/-- The resident spindle of a hardware number, with its block. -/
def State.spindleAt (s : State) (core spid : Nat) : Option (Block × Spindle) :=
  firstSome (s.blocks.map (fun b =>
    if b.core == core && !b.evicted then (b.spindles.find? (fun sp => sp.spid == spid)).map (fun sp => (b, sp)) else none))

/-- The tailstock hart holds a spindle (R398): HOLD and GRANT are set. -/
def State.granted (s : State) (core spid : Nat) : Bool :=
  s.hsel.any (fun x => x.1 == core && x.2.getLsbD 63 && x.2.getLsbD 62 && (x.2.extractLsb' 32 8).toNat == spid)

/-- A sleeping thread (R279). -/
def Thread.asleep (t : Thread) (now : Nat) : Bool := (t.wake.map (fun w => decide (now < w))).getD false

/-- Whether the shapes of two threads' places inside a clause agree, so that they go on as one batch. -/
def Mid.same (a b : Mid) : Bool :=
  a.hdr == b.hdr && a.idx == b.idx && a.token == b.token && a.copy == b.copy && a.olds == b.olds &&
  a.latches.map (fun (l : Option LatchVal) => l.map (fun x => (x.wide, x.tag))) ==
    b.latches.map (fun (l : Option LatchVal) => l.map (fun x => (x.wide, x.tag)))

/-- A thread stands before the same instruction as another. -/
def Thread.with_ (t u : Thread) : Bool :=
  match t.mid, u.mid with
  | none, none => t.pc == u.pc
  | some a, some b => a.same b
  | _, _ => false

/-- R344: a batch goes on to its next clause only when its clause has been processed for every thread of it: a thread
of the batch still parked or waiting inside it, or parked before the same clause, holds the others back. -/
def Thread.holdsBack (u t : Thread) : Bool :=
  u.grp == t.grp && t.grp != 0 && t.mid.isNone &&
  (match u.st with
    | .parked (.lines _ _) | .parked (.result _) | .parked (.counter _) | .parked .allot => true
    | .parked (.tokens _) => u.pc == t.pc
    | .ready => u.mid.isSome
    | _ => false)

/-- The class of a block's launch. -/
def State.clsOf (s : State) (b : Block) : QClass := ((s.launch b.launch).map (·.cls)).getD .l

/-- A D or L block on a gang of QUARCFG.GANGS, which runs none while a queue is quarantined (R379). -/
def State.barred (s : State) (b : Block) : Bool :=
  s.clsOf b != .q && s.sched.qgangs.getLsbD (gangOf b.core) && s.queues.any (·.quar)

/-- The slots that issue together with a slot (R22): none where it cannot issue. DEDUCED, log entry 17. -/
def State.batch (s : State) (b : Block) (sp : Spindle) (k : Nat) : List Nat :=
  match sp.threads[k]? with
  | none => []
  | some t =>
    let ok (u : Thread) : Bool := u.st == .ready && (!u.divertDue || u.finish) && (u.mid.isSome || !u.asleep s.devtime) && u.with_ t &&
      !sp.threads.any (fun x => x.holdsBack u)
    if b.evicted || s.barred b || s.stalled b.core || s.halting b.ctx || s.granted b.core sp.spid || !ok t ||
        (s.run :: s.runs).any (fun r => r.active && r.blk == b.uid && r.m == sp.m) then []
    else (List.range sp.threads.length).filter (fun j => ((sp.threads[j]?).map ok).getD false)

/-- A trap on a clause (R181, R199): its threads stop before it, the lowest with the cause. -/
def State.trapClause (s : State) (b : Block) (sp : Spindle) (ks : List Nat) (mid : Bool) (cause : Trap) (detail : Dword) : State :=
  let low := ks.headD 0
  (s.updSp b.uid sp.m (fun sp =>
    { sp with threads := sp.threads.zipIdx.map (fun x =>
        if ks.contains x.2 then
          { x.1 with st := .halted, before := .ready, mid := if mid then x.1.mid else none
                     stop := if x.2 == low then some ⟨cause, detail⟩ else none }
        else x.1) })).haltCtx b.ctx cause

/-- A fetch that stops: a trap on the clause, or a serviced fault that stalls the core (R36, R387). -/
def State.fetchStop (s : State) (b : Block) (sp : Spindle) (ks : List Nat) (mid : Bool) (x : Stop) : State :=
  match x with
  | .trap c d => s.trapClause b sp ks mid c d
  | .service va op =>
    let (tag, s) := s.fresh
    let v : Service :=
      { core := b.core, ctx := b.ctx, va := va, write := false, fetch := true, tag := tag, sent := false
        spid := sp.spid, slots := ks, slot := ks.headD 0, op := op, queue := none, record := none, mirror := false }
    { s with services := s.services ++ [v] }

/-- STARTTIME (R48). -/
def Launch.begin_ (l : Launch) (now clk : Nat) : Launch :=
  if l.issued then l else { l with issued := true, start := now, startClk := clk }

/-- The clause in progress gives way to another (other batches run meanwhile). -/
def State.setRun (s : State) (r : Run) : State :=
  { s with run := r, runs := if s.run.active then s.runs ++ [s.run] else s.runs }

/-- The partition of a spindle (R20). -/
def partOf (spid : Nat) : Nat := spid / 64

/-- A batch is chosen: it leaves `yield`, and so does every other batch of its partition (R279). -/
def State.chosen (s : State) (b : Block) (sp : Spindle) : State :=
  { s with blocks := s.blocks.map (fun c =>
      if c.core == b.core && !c.evicted then
        { c with spindles := c.spindles.map (fun x =>
            if partOf x.spid == partOf sp.spid then
              { x with threads := x.threads.map (fun (t : Thread) => { t with yielded := false }) }
            else x) }
      else c) }

/-- The first clause of a launch issues (R48): read-only copies taken before serve no load of it (R116). -/
def State.starts (s : State) (u : Nat) : State :=
  if ((s.launch u).map (·.issued)).getD true then s
  else { (s.updLaunch u (fun l => l.begin_ s.devtime s.clk)) with coh := { s.coh with ro := [] } }

/-- A wait of a batch on tokens ends what keeps tiles unpredictable: every `mma` of its threads that they cover (R66). -/
def Block.waited (b : Block) (m : Nat) (ks : List Nat) (mask : Byte) : Block :=
  { b with mmas := b.mmas.filter (fun x => !(x.m == m && x.slots.any ks.contains &&
      (x.token.map (fun w => mask.getLsbD w.toNat)).getD false)) }

/-- R180: a batch issues the clause at its PC. -/
def State.issueNew (s : State) (b : Block) (sp : Spindle) (ks : List Nat) (pc : Dword) : State :=
  let (g, s) := s.fresh
  let s := s.updSp b.uid sp.m (fun sp =>
    { sp with threads := sp.threads.zipIdx.map (fun x => if ks.contains x.2 then { x.1 with grp := g, wake := none } else x.1) })
  match s.fetchCode b.core b.ctx pc 1 with
  | .error x => s.fetchStop b sp ks false x
  | .ok (h, _) =>
    match decodeHeader (h.headD 0) with
    | none => s.trapClause b sp ks false .illegalInsn 0
    | some hd =>
      let waits := ks.filter (fun k => ((sp.threads[k]?).map (fun t => t.tok &&& hd.wait != 0)).getD false)
      if !waits.isEmpty then
        s.updSp b.uid sp.m (fun sp =>
          { sp with threads := sp.threads.zipIdx.map (fun x =>
              if waits.contains x.2 then { x.1 with st := .parked (.tokens hd.wait) } else x.1) })
      else
        let s := (s.chosen b sp).updBlk b.uid (fun b => b.waited sp.m ks hd.wait)
        match s.fetchCode b.core b.ctx pc (1 + hd.count) with
        | .error x => s.fetchStop b sp ks false x
        | .ok (ws, s) =>
          let s := s.starts b.launch
          match checkWords hd.cls sp.vcount 16 [] (ws.drop 1) with
          | some e => s.trapClause b sp ks false (trapOf e) 0
          | none =>
            let npc := pc + BitVec.ofNat 64 (4 * (1 + hd.count))
            let runs (t : Thread) : Bool := !hd.gen || (t.preds.getLsbD hd.gpred.toNat != hd.gneg)
            let pass := ks.filter (fun k => ((sp.threads[k]?).map runs).getD false)
            let bit : Byte := match hd.token with
              | some w => BitVec.ofNat 8 (2 ^ w.toNat)
              | none => 0
            let s := s.updSp b.uid sp.m (fun sp =>
              { sp with threads := sp.threads.zipIdx.map (fun x =>
                  if ks.contains x.2 then
                    { x.1 with tok := x.1.tok ||| bit, pc := if pass.contains x.2 then x.1.pc else npc }
                  else x.1) })
            let s := if pass.isEmpty then s
              else s.setRun { active := true, blk := b.uid, m := sp.m, hdr := pc, base := pc, cls := hd.cls, exec := pass
                              token := hd.token, words := ws.drop 1, cur := [], idx := 0, lat := none, latches := []
                              npc := npc }
            s.settle b.uid sp.m

/-- A latch rebuilt from its threads' parts. -/
def joinLatch (ls : List (Option (Option LatchVal))) : Option Latch :=
  match ls.find? (fun x => x.isSome) with
  | some (some (some l)) =>
    some { wide := l.wide, tag := l.tag
           vals := ls.map (fun x => match x with | some (some v) => v.val | _ => 0) }
  | _ => none

/-- R361: threads enter a clause, or a copy of it, at the instruction they stand at. -/
def State.issueMid (s : State) (b : Block) (sp : Spindle) (ks : List Nat) (d : Mid) : State :=
  let base := if d.copy == 0 then d.hdr else d.copy
  match s.fetchClause b.core b.ctx base with
  | .error x => s.fetchStop b sp ks true x
  | .ok (hd, ws, s) =>
    let same : Except Stop Bool :=
      if d.copy == 0 then .ok true
      else
        match s.fetchClause b.core b.ctx d.hdr with
        | .error x => .error x
        | .ok (hd0, ws0, _) =>
          match skipInstrs hd.cls d.idx ws with
          | some r => .ok (hd0.count == hd.count && ws0.take (ws.length - r.length) == ws.take (ws.length - r.length))
          | none => .ok false
    match same with
    | .error x => s.fetchStop b sp ks true x
    | .ok false => s.trapClause b sp ks true .illegalInsn 0
    | .ok true =>
      match checkWords hd.cls sp.vcount 16 [] ws, skipInstrs hd.cls d.idx ws with
      | some e, _ => s.trapClause b sp ks true (trapOf e) 0
      | none, none => s.trapClause b sp ks true .illegalInsn 0
      | none, some rest =>
        match checkWords hd.cls sp.vcount 16 (d.latches.map (fun (l : Option LatchVal) => l.map (·.wide))) rest with
        | some e => s.trapClause b sp ks true (trapOf e) 0
        | none =>
          let part (n : Nat) : Option Latch :=
            joinLatch ((List.range 32).map (fun k =>
              if ks.contains k then (sp.threads[k]?).bind (fun t => t.mid.map (fun m => (m.latches[n]?).join)) else none))
          let s := (s.chosen b sp).setRun
            { active := true, blk := b.uid, m := sp.m, hdr := d.hdr, base := base, cls := hd.cls, exec := ks
              token := d.token, words := rest, cur := [], idx := d.idx, lat := part 0
              latches := [part 1, part 2, part 3], npc := d.hdr + BitVec.ofNat 64 (4 * (1 + hd.count)), olds := d.olds }
          s.updSp b.uid sp.m (fun sp =>
            { sp with threads := sp.threads.zipIdx.map (fun x =>
                if ks.contains x.2 then { x.1 with mid := none, pc := d.hdr, wake := none } else x.1) })

/-- The blocks resident on a core. -/
def State.onCore (s : State) (core : Nat) : List Block := s.blocks.filter (fun b => b.core == core && !b.evicted)

/-- Another batch of a spindle's partition is ready and not in `yield` (R279). -/
def State.othersReady (s : State) (core spid : Nat) (ks : List Nat) : Bool :=
  (s.onCore core).any (fun b => b.spindles.any (fun sp => partOf sp.spid == partOf spid &&
    sp.threads.zipIdx.any (fun x => !x.1.yielded && !(sp.spid == spid && ks.contains x.2) && !(s.batch b sp x.2).isEmpty)))

/-- CLAUSE_ISSUE (R180): the batch of a thread issues; one in `yield` lets the others of its partition go first. -/
def execClauseIssue (core spid slot : Nat) (s : State) : Out :=
  match s.spindleAt core spid with
  | none => .next s
  | some (b, sp) =>
    let ks := s.batch b sp slot
    match ks, sp.threads[slot]? with
    | _ :: _, some t =>
      if t.yielded && s.othersReady core spid ks then .next s
      else
      match t.mid with
      | none => .next (s.issueNew b sp ks t.pc)
      | some d => .next (s.issueMid b sp ks d)
    | _, _ => .next s

/-! Divert (R43 to R45, R284). -/

/-- A thread at the divert time, by its state. `busy` is a running clause, a stalled core, a halt, an eviction or the
tailstock hart's hold: there the divert waits. A thread woken inside a clause and not yet gone on leaves as one parked
there. DESIGN CHOICE, log entry 62. `runs` says that it runs a clause, which it ends first. -/
def Thread.divertNow (t : Thread) (busy runs : Bool) (entry : Dword) : Thread :=
  match t.st with
  | .exited | .stopped => t
  | .halted => { t with divertDue := true }
  | _ => if busy then { t with divertDue := true, finish := runs } else t.divert entry

/-- The thread of a result load is parked for it. -/
def State.loadAwaited (s : State) (o : Op) : Bool :=
  ((s.blk o.blk).bind (fun b => b.sp o.m)).any (fun sp => o.slots.any (fun k =>
    match (sp.threads[k]?).map (·.st) with
    | some (.parked (.result _)) => true
    | _ => false))

/-- Result loads that no parked thread waits for any more are dropped, with their places in the windows (R43). -/
def State.dropLoads (s : State) (p : Op → Bool) : State :=
  let gone := s.ops.filter (fun o =>
    p o && (match o.kind with | .resultLoad _ _ _ _ _ _ _ => true | _ => false))
  let s := { s with operators := s.operators.map (fun o =>
    { o with slotst := o.slotst.map (fun x =>
        { x with held := x.held.filter (fun h => !gone.any (fun g => h == .load g.id)) }) }) }
  gone.foldl (fun t o => t.dropOp o) s

/-- The spindles of a block after threads left their waits: a request of `acq` that no thread waits for ends (R34). -/
def Spindle.dropAcq (sp : Spindle) : Spindle :=
  if sp.threads.any (fun t => t.st == .parked .allot) then sp else { sp with acq := none }

/-- The threads of a launch whose blocks have not been admitted never start (R43). -/
def Launch.neverStart (l : Launch) : Launch :=
  let gls := (l.e.drop 3).foldl (· * ·) 1
  let per := (l.e.take 3).foldl (· * ·) 1
  { l with notst := l.notst + (gls - l.next) * per, next := gls }

/-- A thread's divert waits (R43). -/
def State.divertWaits (s : State) (b : Block) (sp : Spindle) (k : Nat) : Bool :=
  b.evicted || s.stalled b.core || s.running b.uid sp.m k || s.granted b.core sp.spid

/-- A serviced fault of a thread stalls its core (R36). -/
def State.stalledAt (s : State) (b : Block) (sp : Spindle) (k : Nat) : Bool :=
  s.services.any (fun v => v.core == b.core && v.ctx == b.ctx && v.spid == sp.spid && v.slots.contains k)

/-- A thread runs a clause that a divert lets it finish (R43): not one that stands at a serviced fault. -/
def State.finishes (s : State) (b : Block) (sp : Spindle) (k : Nat) : Bool := s.running b.uid sp.m k && !s.stalledAt b sp k

/-- The divert of a block: barriers are cleared and every thread leaves for its parting entry. -/
def Block.divert (b : Block) (waits runs : Spindle → Nat → Bool) (entry : Nat → Dword) : Block :=
  { b with barArr := [], gbarArr := []
           spindles := b.spindles.map (fun (sp : Spindle) =>
             Spindle.dropAcq
               { sp with bars := sp.bars.map (fun _ => (0, 0))
                         threads := sp.threads.zipIdx.map (fun x => x.1.divertNow (waits sp x.2) (runs sp x.2) (entry sp.m)) }) }

/-- DIVERT: once per launch (R45), at its divert time, where the budget is not 0 (R42). -/
def execDivert (u : Nat) (s : State) : Out :=
  match s.launch u with
  | none => .next s
  | some l =>
    if l.ended || l.div || l.budget == 0 || (s.devtime : Int) < l.divertAt then .next s
    else
      let s := s.cancelGangs (fun b => b.launch == u)
      let s := s.updLaunch u (fun l => { l.neverStart with div := true })
      let s0 := s
      let s := { s with blocks := s.blocks.map (fun (b : Block) =>
        if b.launch == u then b.divert (fun sp k => s0.divertWaits b sp k) (fun sp k => s0.finishes b sp k) l.parting else b) }
      let left (o : Op) : Bool :=
        match s.blk o.blk with
        | some b => b.launch == u && !s.loadAwaited o
        | none => false
      let s := s.dropLoads left
      let s := (s.blocks.filter (fun b => b.launch == u)).foldl (fun t b => t.settleBlock b.uid) s
      .next (s.checkLaunch u)

/-! The deadline (R41, R47, R391). -/

/-- A thread stopped at its deadline. -/
def Thread.deadline (t : Thread) : Thread :=
  match t.st with
  | .exited => t
  | _ => { t with st := .stopped, before := .stopped, mid := none, divertDue := false, finish := false, wake := none, stop := none }

/-- A block whose launch has reached its deadline. -/
def Block.deadline (b : Block) : Block :=
  { b with spindles := b.spindles.map (fun (sp : Spindle) =>
      { sp with acq := none, threads := sp.threads.map (fun t => t.deadline) }) }

/-- A launch ends with its threads stopped: by its deadline, or by a DESTROY of its context (R392). -/
def State.stopLaunch (s : State) (u : Nat) : State :=
  let mine (uid : Nat) : Bool := ((s.blk uid).map (fun b => b.launch == u)).getD false
  let s := s.cancelGangs (fun b => b.launch == u)
  let ops := s.ops.filter (fun o => mine o.blk)
  let s := ops.foldl (fun t o => if o.kind.rows then t.tileStop o else (t.finishRegs o).dropOp o) (s.dropLoads (fun o => mine o.blk))
  let ths := (s.blocks.filter (fun b => b.launch == u)).flatMap (fun b => b.spindles.flatMap (·.threads))
  let done := (ths.filter (fun t => !t.st.over)).length
  let held := ths.any (fun t => t.st == .halted)
  let names := (s.blocks.filter (fun b => b.launch == u && !b.evicted)).flatMap (fun b => b.spindles.map (fun sp => (b.core, sp.spid)))
  let s :=
    { s with
      run := if mine s.run.blk then Run.idle else s.run
      runs := s.runs.filter (fun r => !mine r.blk)
      services := s.services.filter (fun v => !(names.contains (v.core, v.spid) && v.core != 0x100))
      fabric := { s.fabric with outst := s.fabric.outst.filter (fun x =>
        !((x.thr.map (fun (n : Nat × Nat × Nat) => mine n.1)).getD false || ops.any (fun o => x.op == some o.id))) }
      blocks := s.blocks.map (fun (b : Block) => if b.launch == u then b.deadline else b) }
  let s := (s.updLaunch u (fun l => { l.neverStart with overrun := l.overrun + done, halted := l.halted || held })).flushHeld
  s.checkLaunch u

/-- DEADLINE_STOP. -/
def execDeadlineStop (u : Nat) (s : State) : Out :=
  match s.launch u with
  | some l => if l.ended || s.devtime < l.dl then .next s else .next (s.stopLaunch u)
  | none => .next s

/-- SLEEP_EXPIRE (R279). -/
def execSleepExpire (core spid slot : Nat) (s : State) : Out :=
  match s.spindleAt core spid with
  | some (b, sp) =>
    .next (s.updThr b.uid sp.m slot (fun t => if t.asleep s.devtime then t else { t with wake := none }))
  | none => .next s

/-! Allotments (R12, R31, R32). -/

/-- The growth of a spindle. -/
def Spindle.growAcc (sp : Spindle) : Nat := sp.afull - sp.apro
def Spindle.growV (sp : Spindle) : Nat := sp.vfull - sp.vpro

/-- Accumulator words of some spindles that are not free: prologue figures, and the growth held. -/
def accUsed (l : List Spindle) : Nat := (l.map (fun sp => if sp.full then sp.afull else sp.apro)).sum

/-- Vector registers per slot held. -/
def vUsed (l : List Spindle) : Nat := (l.map (fun sp => sp.vcount)).sum

/-- The context's quota on a core, in accumulator words and in registers per slot (R381). -/
def State.quota (s : State) (ctx : Nat) : Nat × Nat :=
  ((s.ctx ctx).map (fun c => (4096 * c.desc.qacc, 512 * c.desc.qvreg))).getD (0, 0)

/-- A pending request can be granted: accumulator words, the lane, and the quotas of the context. -/
def State.grantable (s : State) (b : Block) (sp : Spindle) : Bool :=
  let all := (s.onCore b.core).flatMap (·.spindles)
  let mine := ((s.onCore b.core).filter (fun c => c.ctx == b.ctx)).flatMap (·.spindles)
  let lane := all.filter (fun x => partOf x.spid == partOf sp.spid && x.lane == sp.lane && x.spid != sp.spid)
  let q := s.quota b.ctx
  accUsed all + sp.growAcc ≤ Config.accWords && vUsed lane + sp.vfull ≤ 128 &&
  accUsed mine + sp.growAcc ≤ q.1 && vUsed mine + sp.growV ≤ q.2

/-- R377: a launch is urgent. -/
def State.urgent (s : State) (u : Nat) : Bool :=
  ((s.launch u).map (fun l => decide (l.divertAt - s.devtime < (s.sched.urgent.toNat : Int)))).getD false

/-- The request at the head of a core's list: urgent launches first, then the oldest (R32). -/
def State.acqHead (s : State) (core : Nat) : Option (Block × Spindle) :=
  let l := (s.onCore core).flatMap (fun b => b.spindles.filterMap (fun sp =>
    sp.acq.map (fun n => ((if s.urgent b.launch then 0 else 1, n), b, sp))))
  let less (a b : Nat × Nat) : Bool := a.1 < b.1 || (a.1 == b.1 && a.2 < b.2)
  (l.foldl (fun (best : Option ((Nat × Nat) × Block × Spindle)) x =>
    match best with
    | some y => if less x.1 y.1 then some x else some y
    | none => some x) none).map (·.2)

/-- The registers gained by a grant: unpredictable values tagged G (R70), from the free words numbered n on. -/
def gained (n count : Nat) : List VReg :=
  (List.range count).map (fun r =>
    { tag := .g, vals := (List.range 32).map (fun k => lo32 (Config.freeWord (n + 32 * r + k))) })

/-- ALLOTMENT_GRANT (R32). -/
def execAllotmentGrant (core : Nat) (s : State) : Out :=
  match s.acqHead core with
  | none => .next s
  | some (b, sp) =>
    if s.grantable b sp then
      let n := s.freeCtr
      let s := { s with freeCtr := n + 32 * sp.growV }
      .next ((s.updSp b.uid sp.m (fun sp =>
        { sp with full := true, acq := none, v := sp.v ++ gained n sp.growV
                  threads := sp.threads.map (fun t => t.release (· == .allot)) })).settle b.uid sp.m)
    else .next s

/-- SPINDLE_RELEASE (R32): a spindle all of whose threads are over. -/
def execSpindleRelease (core spid : Nat) (s : State) : Out :=
  match s.spindleAt core spid with
  | some (b, sp) =>
    if sp.threads.all (fun t => t.st.over) && !s.accBusy b sp then .next (s.toPrologue b sp) else .next s
  | none => .next s

/-! The end of a block (R27, R278). -/

/-- The save record of an evicted block is free again (R397). -/
def State.freeRecord (s : State) (b : Block) : State :=
  match b.saveRec, s.ctx b.ctx with
  | some i, some c =>
    let size := 0xA_D000 + c.desc.qlocal * 0x1_1000 + c.desc.qacc * 0x2_1000
    match s.writeVirt c (c.desc.savebase + BitVec.ofNat 64 (i * size)) (leBytes 8 0) with
    | .ok t => t
    | .error _ => s
  | _, _ => s

/-- Engine operations that a block started, or that read its local memory, are in flight: its stash fills (R390) among them;
or a peer request of its threads waits at this device (R394). -/
def State.blockBusy (s : State) (uid : Nat) : Bool :=
  let mine (x : PeerOut) : Bool := (x.thr.map (fun n => n.1 == uid)).getD false
  s.fabric.held.any (fun h => mine h.x) || s.fabric.outst.any (fun x => mine x && s.fabric.frozen.contains x.key) ||
  (s.blk uid).any (fun b => b.fillBy.any (fun f => (s.stashLine b f.line).isSome)) ||
  s.ops.any (fun o => (o.blk == uid && o.kind.engine.isSome) ||
    (match o.kind with | .mma _ _ _ _ _ _ _ _ src => src == some uid | _ => false))

/-- BLOCK_FREE: every thread of the block's gang launch is over. -/
def execBlockFree (uid : Nat) (s : State) : Out :=
  match s.blk uid with
  | none => .next s
  | some b =>
    let done := (s.gangBlocks b).all (fun x => x.spindles.all (fun sp => sp.threads.all (fun t => t.st.over)))
    if !done || s.blockBusy uid then .next s
    else
      let s := s.freeRecord b
      let s := { s with blocks := s.blocks.filter (fun x => x.uid != uid), ops := s.ops.filter (fun o => o.blk != uid)
                        sched := { s.sched with drawn := false } }
      if s.blocks.any (fun x => x.launch == b.launch) then .next s
      else .next { s with launches := s.launches.filter (fun l => !(l.uid == b.launch && l.ended))
                          fabric := { s.fabric with msgs := s.fabric.msgs.filter (fun x => x.2 != b.launch) } }

end Sys2Proof.Machine
end

