-- ==== Sys2Proof/Machine/Admit.lean ====
section
/-! DEFINITION. Admit.lean: the scheduler: what fits on a core (R12, R30 to R32, R381, R382), the classes and the
lottery (R375, R376, R379, R388), admission (R26, R27, R29, R70, R374), eviction and readmission (R38, R39, R395,
R396). -/

namespace Sys2Proof.Machine

/-! What fits. -/

/-- Prologue figures and the greater of the growth held and the largest growth (R31). -/
def reserveOf (pro full : Spindle → Nat) (l : List Spindle) : Nat :=
  (l.map pro).sum +
  max ((l.filter (·.full)).map (fun sp => full sp - pro sp)).sum ((l.map (fun sp => full sp - pro sp)).foldl max 0)

/-- Accumulator words, and vector registers per slot. -/
def accReserve (l : List Spindle) : Nat := reserveOf (·.apro) (·.afull) l
def vReserve (l : List Spindle) : Nat := reserveOf (·.vpro) (·.vfull) l

/-- R12: a spindle may live on a lane beside the spindles there. -/
def laneOk (there : List Spindle) (sp : Spindle) : Bool :=
  there.length < 2 &&
  there.all (fun x => sp.vfull + x.vpro ≤ 128 && x.vfull + sp.vpro ≤ 128 && x.vcount + sp.vcount ≤ 128)

/-- The lanes of a core, partition by partition. -/
def coreLanes : List (Nat × Nat) := (List.range 4).flatMap (fun p => (List.range 32).map (fun l => (p, l)))

/-- Spindles given hardware numbers and lanes beside those on the core (R12, R20); none where one has no place. -/
def placeSpindles (there : List Spindle) : List Spindle → Option (List Spindle)
  | [] => some []
  | sp :: r =>
    match coreLanes.find? (fun x => laneOk (there.filter (fun y => partOf y.spid == x.1 && y.lane == x.2)) sp) with
    | none => none
    | some (p, l) =>
      match (List.range 64).find? (fun i => !there.any (fun y => y.spid == 64 * p + i)) with
      | none => none
      | some i =>
        let sp := { sp with spid := 64 * p + i, lane := l }
        (placeSpindles (sp :: there) r).map (fun rest => sp :: rest)

/-- A core that takes work: it exists, a physical core stands for it (R10), and it has not failed (R14, R400, R431). A logical
core that no spare replaces takes none, and PKGCFG still counts it: DESIGN CHOICE, log entry 61. -/
def State.coreWorks (s : State) (core : Nat) : Bool :=
  decide (core < s.userCores) && ((s.boot.coreMap[core]?).join).isSome && !s.health.deadCores.contains core && !s.health.deadDies.contains (dieOf core)

/-- The cores a context occupies. -/
def State.coresOf (s : State) (ctx : Nat) : List Nat :=
  (List.range s.userCores).filter (fun c => (s.onCore c).any (fun b => b.ctx == ctx))

/-- The contexts that are resident (R382). -/
def State.residents (s : State) : List Nat := (s.ctxs.map (·.id)).filter (fun n => s.resident n)

/-- The spindles of a block placed on a core under the context's quotas (R32, R381, R382); none where it does not
fit. DEDUCED, log entry 30. -/
def State.fits (s : State) (ctx core : Nat) (sps : List Spindle) (lsize : Nat) : Option (List Spindle) :=
  match s.ctx ctx with
  | none => none
  | some c =>
    let here := s.onCore core
    let mine := here.filter (fun b => b.ctx == ctx)
    let all := here.flatMap (·.spindles)
    let own := mine.flatMap (·.spindles)
    let others := (here.filter (fun b => b.ctx != ctx)).map (·.ctx)
    let q := s.quota ctx
    let ok :=
      s.coreWorks core &&
      others.all (fun n => some n == others.head? && ((s.ctx n).map (fun x => x.desc.domain == c.desc.domain)).getD false) &&
      all.all (fun sp => sp.acq.isNone) &&
      (!mine.isEmpty || decide ((s.coresOf ctx).length < c.desc.qcores)) &&
      (s.resident ctx || decide (s.residents.length < 64)) &&
      decide (accReserve (all ++ sps) ≤ Config.accWords) && decide (accReserve (own ++ sps) ≤ q.1) &&
      decide (vReserve (own ++ sps) ≤ q.2) &&
      decide ((mine.map (·.lsize)).sum + lsize ≤ 0x1_0000 * c.desc.qlocal) &&
      decide ((here.map (·.lsize)).sum + lsize ≤ 0x10_0000)
    if ok then placeSpindles all sps else none

/-! New blocks (R16 to R18, R29, R31, R70). -/

/-- The index of a gang launch as its fields 3 to 5. -/
def Launch.high (l : Launch) (gl : Nat) : List Nat :=
  let e3 := (l.e[3]?).getD 1
  let e4 := (l.e[4]?).getD 1
  [gl % e3, gl / e3 % e4, gl / (e3 * e4)]

/-- The lowest bit of a field. -/
def Launch.shift (l : Launch) (k : Nat) : Nat := (l.w.take k).sum

/-- The WID of a block with fields 0 and 1 zero. -/
def Launch.blockWid (l : Launch) (gl f2 : Nat) : Dword :=
  BitVec.ofNat 64 (f2 * 2 ^ l.shift 2 + ((l.high gl).zipIdx.map (fun x => x.1 * 2 ^ l.shift (3 + x.2))).sum)

/-- TLSBASE of a thread (R374). -/
def Launch.tlsBase (l : Launch) (gl f2 m k : Nat) : Dword :=
  if l.tlssize == 0 then 0
  else
    let e (i : Nat) : Nat := (l.e[i]?).getD 1
    l.tlsarea + BitVec.ofNat 64 ((k + e 0 * (m + e 1 * (f2 + e 2 * gl))) * 512 * l.tlssize)

/-- A thread at its role's entry (R70). -/
def Launch.newThread (l : Launch) (gl f2 m k : Nat) : Thread :=
  { st := .ready, before := .ready, pc := l.entry m, dpc := 0, diverted := false, divertDue := false, preds := 0, tok := 0
    rs := [], rsd := 0, insys := false, code := 0, sysa := 0, sysb := 0, sysret := 0, tls := l.tlsBase gl f2 m k
    wake := none, yielded := false, grp := 0, mid := none, stop := none, stopRec := none }

/-- The s registers of a new spindle, its parameters not yet read (R70, R319). -/
def Launch.sregs (l : Launch) : List Dword :=
  match l.task with
  | none => List.replicate 62 0 ++ [l.seq, l.param]
  | some d => ((d.take 8 ++ List.replicate 8 0).take 8) ++ [l.tok] ++ List.replicate 53 0 ++ [l.seq, 0]

/-- A new spindle of field-1 value m. -/
def Launch.newSpindle (l : Launch) (gl f2 m : Nat) : Spindle :=
  let a := l.allot m
  { spid := 0, lane := 0, m := m, e0 := (l.e.headD 1), cons := l.consumer m, vpro := a.vpro, vfull := a.vfull
    apro := a.apro, afull := a.afull, full := false, acq := none
    v := List.replicate a.vpro { tag := .u, vals := List.replicate 32 0 }
    s := l.sregs, bars := List.replicate 8 (0, 0)
    threads := (List.range (l.e.headD 1)).map (fun k => l.newThread gl f2 m k) }

/-- The spindles of a new block, and its local reservation. -/
def Launch.newSpindles (l : Launch) (gl f2 : Nat) : List Spindle :=
  (List.range ((l.e[1]?).getD 1)).map (fun m => l.newSpindle gl f2 m)
def Launch.local_ (l : Launch) : Nat := ((List.range ((l.e[1]?).getD 1)).map (fun m => (l.allot m).lfull)).sum

/-- A core takes a block of a context: where it last worked for another domain, its L1, its read-only copies and its TLB
entries are invalidated first (R382). -/
def State.enterCore (s : State) (core ctx : Nat) : State :=
  let dom := ((s.ctx ctx).map (fun c => c.desc.domain)).getD 0
  if s.sched.doms.contains (core, dom) then s
  else
    { s with coh := { s.coh with l1 := s.coh.l1.filter (fun c => c.core != core), ro := s.coh.ro.filter (fun c => c.core != core)
                                 tlb := s.coh.tlb.filter (fun c => c.core != core) }
             sched := { s.sched with doms := (core, dom) :: s.sched.doms.filter (fun x => x.1 != core) } }

/-- A new block made resident on a core; none where it does not fit. -/
def State.putNew (s : State) (l : Launch) (f2 core : Nat) : Option State :=
  match s.fits l.ctx core (l.newSpindles l.next f2) l.local_ with
  | none => none
  | some sps =>
    let (uid, s) := s.fresh
    let b : Block :=
      { uid := uid, launch := l.uid, ctx := l.ctx, core := core, gl := l.next, f2 := f2, wid := l.blockWid l.next f2
        order := uid, evicted := false, saveRec := none, spindles := sps, lsize := l.local_, lmem := [], absent := []
        fills := [], stash := [], owned := [], dirty := [], acc := [], tiles := List.replicate 16 none
        barArr := [], gbarArr := [], barPh := 0, gbarPh := 0, gangN := 0, gangX := [] }
    let s := s.enterCore core l.ctx
    some { s with blocks := s.blocks ++ [b] }

/-- The blocks of a gang launch placed on cores, one after another (R27). -/
def State.putGang (s : State) (put : State → Nat → Nat → Option State) : List Nat → Nat → Option State
  | [], _ => some s
  | c :: r, i =>
    match put s i c with
    | none => none
    | some t => t.putGang put r (i + 1)

/-- The cores of a gang on which a gang launch's blocks fit, lowest first. -/
def State.findIn (s : State) (put : State → Nat → Nat → Option State) : Nat → Nat → List Nat → Option (List Nat)
  | 0, _, _ => some []
  | n + 1, i, cores =>
    match cores.find? (fun c => (put s i c).isSome) with
    | none => none
    | some c =>
      match put s i c with
      | none => none
      | some t => (t.findIn put n (i + 1) (cores.filter (· != c))).map (fun l => c :: l)

/-- The gangs that a class may use (R375, R379). -/
def State.gangsFor (s : State) (cls : QClass) : List Nat :=
  let g := List.range (s.dies.length * Config.dieGangs)
  let inQ (n : Nat) : Bool := s.sched.qgangs.getLsbD n
  match cls with
  | .q => g.filter inQ
  | _ => if s.queues.any (·.quar) then g.filter (fun n => !inQ n) else g

/-- The cores of a gang. -/
def gangCoresOf (g : Nat) : List Nat := (List.range Config.gangCores).map (fun i => Config.gangCores * g + i)

/-- A placement of n blocks for a class: `want` where the blocks fit there, else the first gang that has room. -/
def State.placement (s : State) (cls : QClass) (n : Nat) (want : List Nat) (put : State → Nat → Nat → Option State) :
    Option (List Nat) :=
  let gangs := s.gangsFor cls
  let wantOk := want.length == n && want.Nodup && gangs.any (fun g => want.all (fun c => gangOf c == g)) &&
    (s.putGang put want 0).isSome
  if wantOk then some want
  else firstSome (gangs.map (fun g => s.findIn put n 0 (gangCoresOf g)))

/-- E2, the blocks of a gang launch. -/
def Launch.blocks (l : Launch) : Nat := (l.e[2]?).getD 1
/-- The gang launches. -/
def Launch.gangs (l : Launch) : Nat := (l.e.drop 3).foldl (· * ·) 1

/-- A launch's next gang launch placed. -/
def State.place (s : State) (l : Launch) (want : List Nat) : Option (List Nat) :=
  s.placement l.cls l.blocks want (fun t f2 c => t.putNew l f2 c)

/-! Candidates (R370, R375, R376, R388). -/

/-- A launch has pending blocks that may be admitted. -/
def State.pending (s : State) (l : Launch) : Bool :=
  !l.ended && !l.div && decide (l.next < l.gangs) &&
  ((s.ctx l.ctx).map (fun c => !c.halted && !c.halting)).getD false

/-- The launches of each queue whose blocks come next, and every task: a later launch of a queue waits for the blocks of an
earlier one, whichever contexts they belong to (R370). -/
def State.heads (s : State) (cls : QClass) : List Launch :=
  let p := s.launches.filter (fun l => !l.ended && !l.div && decide (l.next < l.gangs))
  p.filter (fun l => l.cls == cls && s.pending l &&
    (l.task.isSome || (p.find? (fun x => x.queue == l.queue && x.task.isNone)).map (·.uid) == some l.uid))

/-- A context over its slice (R388). -/
def State.overSlice (s : State) (n : Nat) : Bool := ((s.ctx n).map (fun c => decide (1000 * c.desc.slice < c.charge))).getD false

/-- L heads that take part in a draw (R388). -/
def State.drawers (s : State) : List Launch :=
  let l := s.heads .l
  let within := l.filter (fun x => !s.overSlice x.ctx)
  l.filter (fun x => !s.overSlice x.ctx || within.all (fun y => y.ctx == x.ctx))

/-- The xorshift of R376. -/
def xorshift (x : Word) : Word :=
  let x := x ^^^ (x <<< 13)
  let x := x ^^^ (x >>> 17)
  x ^^^ (x <<< 5)

/-- The launch whose queue's range holds r, the ranges in ascending queue number. -/
def pickRange (tickets : Launch → Nat) : List Launch → Nat → Option Launch
  | [], _ => none
  | l :: r, n => if n < tickets l then some l else pickRange tickets r (n - tickets l)

/-- Launches sorted by a key, the lowest first. -/
def sortBy (key : Launch → Int × Nat) (l : List Launch) : List Launch :=
  l.mergeSort (fun a b => (key a).1 < (key b).1 || ((key a).1 == (key b).1 && (key a).2 ≤ (key b).2))

/-- Draws until a queue's next block fits, at most n (R375, R376); `free` says that no saved block comes first. -/
def State.draws (s : State) (free : Launch → Bool) (want : List Nat) : Nat → State × Option (Launch × List Nat)
  | 0 => (s, none)
  | n + 1 =>
    let l := sortBy (fun x => (0, x.queue)) s.drawers
    let tickets (x : Launch) : Nat := (s.queue x.queue).tickets
    let total := (l.map tickets).sum
    if total == 0 then (s, none)
    else
      let x := xorshift s.sched.lseed
      let s := { s with sched := { s.sched with lseed := x } }
      match pickRange tickets l (x.toNat % total) with
      | none => (s, none)
      | some c =>
        match if free c then s.place c want else none with
        | some cores => (s, some (c, cores))
        | none => s.draws free want n

/-! Victims (R38, R395). -/

/-- The blocks of a launch's gang launches that are resident, one list for each. -/
def groupsOf : List Block → List (List Block)
  | [] => []
  | b :: r =>
    let g := groupsOf r
    if g.any (fun x => x.any (fun c => c.launch == b.launch && c.gl == b.gl)) then
      g.map (fun x => if x.any (fun c => c.launch == b.launch && c.gl == b.gl) then b :: x else x)
    else [b] :: g

/-- The age of a group. -/
def groupOrder (g : List Block) : Nat := (g.map (·.order)).foldl max 0

/-- Groups sorted by rank, the youngest first within each. -/
def sortGroups (rank : List Block → Nat) (l : List (List Block)) : List (List Block) :=
  l.mergeSort (fun a b => rank a < rank b || (rank a == rank b && groupOrder b ≤ groupOrder a))

/-- The state without some blocks. -/
def State.without (s : State) (g : List Block) : State :=
  { s with blocks := s.blocks.filter (fun b => !g.any (fun x => x.uid == b.uid)) }

/-- No clause of a block is in progress. -/
def State.still (s : State) (uid : Nat) : Bool := !(s.run :: s.runs).any (fun r => r.active && r.blk == uid)

/-- The first choice of whole groups, of n blocks together, that makes `ok` true, groups that stand earlier in the
list preferred. -/
def pickGroups (ok : List Block → Bool) : List (List Block) → Nat → List Block → Option (List Block)
  | [], n, v => if n == 0 && ok v then some v else none
  | g :: r, n, v =>
    if n == 0 then (if ok v then some v else none)
    else
      match (if g.length ≤ n then pickGroups ok r (n - g.length) (v ++ g) else none) with
      | some w => some w
      | none => pickGroups ok r n v

/-- The choice of the fewest blocks, from n of them up. -/
def pickFewest (ok : List Block → Bool) (groups : List (List Block)) : Nat → Nat → Option (List Block)
  | 0, _ => none
  | k + 1, n =>
    match pickGroups ok groups n [] with
    | some v => some v
    | none => pickFewest ok groups k (n + 1)

/-- The records of a context that are free, ascending (R397). -/
def State.freeRecs (s : State) (c : Ctx) : List Nat :=
  (List.range c.desc.savecnt).filter (fun i =>
    match s.readVirt none c (c.recAt i) 8 with
    | .ok (d, _) => leNat d == 0
    | .error _ => false)

/-- A record can be written whole. -/
def State.recOk (s : State) (c : Ctx) (i : Nat) : Bool :=
  match s.checkAccess c.walker (c.recAt i) c.recSize askWrite (fun _ => none) with
  | .ok _ => true
  | .error _ => false

/-- Some blocks can be saved together: each context has records for its own (R395). -/
def State.savable (s : State) (v : List Block) : Bool :=
  v.all (fun b =>
    match s.ctx b.ctx with
    | none => false
    | some c =>
      let n := (v.filter (fun x => x.ctx == b.ctx)).length
      let rs := (s.freeRecs c).take n
      rs.length == n && rs.all (s.recOk c))

/-- The victims for a D launch that does not fit: the fewest blocks, in the order Q, L over its slice, other L. -/
def State.victims (s : State) (l : Launch) : Option (List Block) :=
  let rank (g : List Block) : Nat :=
    match g.head? with
    | some b => if s.clsOf b == .q then 0 else if s.overSlice b.ctx then 1 else 2
    | none => 3
  let groups := (sortGroups rank (groupsOf (s.blocks.filter (fun b => !b.evicted && b.ctx != l.ctx && s.clsOf b != .d)))).filter
    s.savable
  let room (v : List Block) : Bool := ((s.without v).place l []).isSome
  let ok (v : List Block) : Bool := room v && s.savable v
  let all := groups.flatMap (fun g => g)
  if room all then pickFewest ok groups (all.length + 1) 0 else none

/-- A thread that waits on a condition the hardware sees, or has exited (R38). -/
def Thread.waits (t : Thread) : Bool :=
  match t.st with
  | .parked _ | .exited => true
  | _ => false

/-- Every thread of a block waits or has exited. -/
def Block.waits (b : Block) : Bool := b.spindles.all (fun sp => sp.threads.all (fun t => t.waits))

/-- The victims by which a launch makes room for its own next gang launch (R38): its groups whose every thread waits,
the youngest first, until it fits. -/
def State.ownVictims (s : State) (l : Launch) : Option (List Block) :=
  let mine := s.blocks.filter (fun b => b.launch == l.uid && !b.evicted)
  if !s.pending l || !mine.all (·.waits) || (s.place l []).isSome then none
  else
    let groups := sortGroups (fun _ => 0) (groupsOf mine)
    firstSome ((List.range groups.length).map (fun n =>
      let v := (groups.take (n + 1)).flatMap (fun g => g)
      if ((s.without v).place l []).isSome && s.savable v then some v else none))

/-! Admission. -/

/-- A block halts for a parameter block that cannot be read (R374): each of its threads stops at its entry. -/
def State.paramFail (s : State) (b : Block) (cause : Trap) (detail : Dword) : State :=
  (s.updBlk b.uid (fun b =>
    { b with spindles := b.spindles.map (fun sp =>
        { sp with threads := sp.threads.map (fun t => { t with st := .halted, before := .ready, stop := some ⟨cause, detail⟩ }) }) })).haltCtx
    b.ctx cause

/-- R70, R374: a block reads its parameters. -/
def State.readParams (s : State) (uid : Nat) : State :=
  match s.blk uid with
  | none => s
  | some b =>
    match s.launch b.launch, s.ctx b.ctx with
    | some l, some c =>
      if l.nparam == 0 then s
      else
        let die := some (dieOf b.core)
        let s := s.walked (c.walkerAt die) l.param (8 * l.nparam)
        match s.checkAccess (c.walkerAt die) l.param (8 * l.nparam) askRead (fun _ => none) with
        | .error (.trap .translation d) => s.paramFail b .translation d
        | .error (.trap _ d) => s.paramFail b .protection d
        | .error (.service va _) =>
          let (tag, s) := s.fresh
          let v : Service :=
            { core := b.core, ctx := b.ctx, va := va, write := false, fetch := false, tag := tag, sent := false
              spid := ((b.spindles.head?).map (·.spid)).getD 0, slots := [], op := none, queue := none, record := none, mirror := false }
          { s with services := s.services ++ [v] }
        | .ok locs =>
          match s.badLocs locs with
          | some x => s.paramFail b .uncorrectable (BitVec.ofNat 64 (128 * x))
          | none =>
            let (d, s) := s.readLocs (some b.core) locs
            let ps := (List.range l.nparam).map (fun i => BitVec.ofNat 64 (leNat ((d.drop (8 * i)).take 8)))
            s.updBlk uid (fun b =>
              { b with spindles := b.spindles.map (fun sp => { sp with s := ps ++ sp.s.drop l.nparam }) })
    | _, _ => s

/-- A launch's next gang launch is admitted on cores (R26, R27); its blocks begin with a Q event at `.sys` (R370). -/
def State.takeIn (s : State) (l : Launch) (cores : List Nat) : State :=
  match s.putGang (fun t f2 c => t.putNew l f2 c) cores 0 with
  | none => s
  | some t =>
    let t := t.updLaunch l.uid (fun x => { x with next := x.next + 1 })
    let new := t.blocks.filter (fun b => !(s.blk b.uid).isSome)
    let t := new.foldl (fun u b => u.acquire b.core .sys) t
    new.foldl (fun u b => u.readParams b.uid) t

/-- A saved block whose threads or tile operations can go on, of a context that runs (R39, R43, R396). -/
def State.wantsBack (s : State) (b : Block) : Bool :=
  b.evicted && ((s.ctx b.ctx).map (fun c => !c.halted && !c.halting)).getD false &&
  (b.spindles.any (fun sp => sp.threads.any (fun t => t.st == .ready || t.leaves)) ||
    s.ops.any (fun o => o.blk == b.uid && s.away o))

/-- A saved block of a context whose divert is due comes before any other work of the context (R43). -/
def State.dueBack (s : State) (n : Nat) : Bool :=
  s.blocks.any (fun b => b.ctx == n && s.wantsBack b && b.spindles.any (fun sp => sp.threads.any (·.leaves)))

/-- A launch whose blocks can never fit under the quotas ends with no thread started (R30, R373). -/
def State.neverFits (s : State) (l : Launch) : Bool :=
  match s.ctx l.ctx with
  | none => true
  | some c =>
    let sps := l.newSpindles 0 0
    decide (c.desc.qcores < l.blocks) || decide (4096 * c.desc.qacc < accReserve sps) ||
    decide (512 * c.desc.qvreg < vReserve sps) || decide (0x1_0000 * c.desc.qlocal < l.local_)

/-- Round robin over quarantined queues, after the one served last (R375). -/
def State.qOrder (s : State) : List Launch :=
  sortBy (fun l => (((l.queue + 1023 - s.sched.qrr) % 1024 : Nat), 0)) (s.heads .q)

/-- No saved block that can go on comes before a launch's pending ones (R39, R43). -/
def State.admitFree (s : State) (l : Launch) : Bool :=
  !s.blocks.any (fun b => b.launch == l.uid && s.wantsBack b) && !s.dueBack l.ctx

/-- The D launch whose block is placed next (R375): of those that fit, or that an eviction makes room for, the one of least
slack. -/
def State.nextD (s : State) : Option Launch :=
  ((sortBy (fun l => (l.divertAt, l.queue)) (s.heads .d)).filter s.admitFree).find? (fun l =>
    (s.place l []).isSome || (s.victims l).isSome)

/-- Eight draws have failed, and no core has been released since (R375). -/
def State.drawsOver (s : State) : Bool := s.sched.drawn && s.blocks.any (fun b => !b.evicted)

/-- A launch none of whose blocks can fit under the quotas as they stand is rejected at admission (R373). -/
def State.rejectNever (s : State) : Option State :=
  (s.launches.find? (fun l => s.pending l && s.neverFits l)).map (fun l =>
    (s.updLaunch l.uid (fun l => { l.neverStart with rejected := true })).checkLaunch l.uid)

/-- BLOCK_ADMIT (R375): D blocks by slack, where need be once an eviction has made room; then L blocks by lottery when no D
block can be placed, then Q blocks. A launch with a saved block that can go on waits for its readmission (R39). -/
def execBlockAdmit (want : List Nat) (s : State) : Out :=
  match s.rejectNever, s.nextD with
  | some t, _ => .next t
  | none, some l =>
    (match s.place l want with
      | some cores => .next (s.takeIn l cores)
      | none => .next s)
  | none, none =>
      let (t, got) := if s.drawsOver then (s, none) else s.draws s.admitFree want 8
      let t := if got.isNone && !(s.drawers.isEmpty) then { t with sched := { t.sched with drawn := true } } else t
      match got with
      | some (l, cores) => .next (t.takeIn l cores)
      | none =>
        match firstSome ((t.qOrder.filter t.admitFree).map (fun l => (t.place l want).map (fun c => (l, c)))) with
        | some (l, cores) => .next ({ t with sched := { t.sched with qrr := l.queue } }.takeIn l cores)
        | none => .next t

/-! Eviction (R396). -/

/-- Operations that go on while their block is away, or stop and continue with it (R396). -/
def OpKind.keeps : OpKind → Bool
  | .copy _ _ _ _ _ _ | .xfer _ _ _ _ _ _ _ _ | .rwr _ _ _ _ _ | .asyncFence _ _ | .fence _ | .winFence _ _ | .acks _ _ _
  | .persist _ _ | .resultLoad _ _ _ _ _ _ _ | .mma _ _ _ _ _ _ _ _ _ | .zrnd _ _ _ | .zdrain _ _ _ _ _
  | .zld _ _ _ | .zst _ _ _ | .quant _ _ _ _ => true
  | _ => false

/-- Operations complete, in order; none while one cannot. -/
def State.completeAll (s : State) : List Op → Option State
  | [] => some s
  | o :: r =>
    match s.ops.find? (fun x => x.id == o.id) with
    | none => s.completeAll r
    | some x => (s.complete x).bind (fun t => t.completeAll r)

/-- The other operations complete; none while one cannot. -/
def State.finishAll (s : State) (uid : Nat) : Option State :=
  s.completeAll (s.ops.filter (fun o => o.blk == uid && !o.kind.keeps))

/-- A block evicted to a free record; none where it cannot be (R395). DESIGN CHOICE, log entry 77. -/
def State.evict (s : State) (uid : Nat) : Option State :=
  if !s.still uid then none
  else
    match s.finishAll uid with
    | none => none
    | some s =>
      match s.blk uid with
      | none => none
      | some b =>
        let s := b.owned.foldl (fun t x => t.recallFrom uid x) s
        let s := (s.landNow uid (fun _ => true)).updBlk uid (fun b => { b with unseen := [], slow := [], spindles := b.spindles.map (fun sp => { sp with acq := none }) })
        match s.blk uid, s.ctx b.ctx with
        | some b, some c =>
          match s.freeRec c with
          | none => none
          | some i => (s.saveBlock c i b).map (fun t =>
              { (t.updBlk uid (fun b => { b with evicted := true, saveRec := some i })) with sched := { t.sched with drawn := false } })
        | _, _ => none

/-- Blocks evicted together; none where one cannot be. -/
def State.evictAll (s : State) : List Nat → Option State
  | [] => some s
  | u :: r =>
    match s.evict u with
    | none => none
    | some t => t.evictAll r

/-- Two lists of numbers with the same elements. -/
def sameSet (a b : List Nat) : Bool := a.all (fun x => b.contains x) && b.all (fun x => a.contains x)

/-- BLOCK_EVICT: the blocks of a halted context (R390); a launch's own parked blocks, for its pending ones (R38); or
victims for a D block that cannot be placed (R395). -/
def execBlockEvict (blks : List Nat) (s : State) : Out :=
  let bs := s.blocks.filter (fun b => blks.contains b.uid && !b.evicted)
  let whole := bs.all (fun b => (s.gangBlocks b).all (fun c => blks.contains c.uid))
  let halted := bs.all (fun b => ((s.ctx b.ctx).map (fun c => c.halted)).getD false)
  let own := s.launches.any (fun l => ((s.ownVictims l).map (fun v => sameSet (v.map (·.uid)) blks)).getD false)
  let forD := (s.nextD.map (fun l =>
    (s.place l []).isNone && ((s.victims l).map (fun v => sameSet (v.map (·.uid)) blks)).getD false)).getD false
  if !bs.isEmpty && whole && (halted || own || forD) then .next ((s.evictAll (bs.map (·.uid))).getD s)
  else .next s

/-! Readmission (R39, R43, R396). -/

/-- Where a thread goes on after an eviction or a halt: mid-clause waits issue their instruction again, barriers and
token waits are kept (R275, R391, R396). -/
def Thread.again (t : Thread) : TState :=
  match t.st with
  | .parked (.lines _ _) | .parked (.result _) | .parked (.counter _) | .parked .allot | .parked (.rejoin _) => .ready
  | x => x

/-- A thread of a block that is back; a divert that fell due is taken. DESIGN CHOICE, log entry 39. -/
def Thread.back (t : Thread) (entry : Dword) : Thread :=
  let t := { t with st := t.again }
  if t.leaves then t.divert entry else t

/-- A saved block put on a core; none where it does not fit or cannot be read. Its threads see there what they stored and
loaded where they were (R153, R156). -/
def State.putBack (s : State) (l : Launch) (uid core : Nat) : Option State :=
  match s.blk uid with
  | none => none
  | some b =>
    match s.ctx b.ctx, b.saveRec with
    | some c, some i =>
      match s.loadBlock c i b with
      | none => none
      | some b =>
        match s.fits b.ctx core b.spindles b.lsize with
        | none => none
        | some sps =>
          let s := ((s.freeRecord b).dropLoads (fun o => o.blk == uid)).enterCore core b.ctx
          let s := if dieOf core == dieOf b.core then s else s.ack (fun p => p.die == dieOf b.core)
          let s := if core == b.core then s else s.ageLeases core
          some ((s.updBlk uid (fun _ =>
            { b with core := core, evicted := false, saveRec := none
                     spindles := sps.map (fun sp =>
                       { sp with threads := sp.threads.map (fun t => t.back (l.parting sp.m)) }) })).settleBlock uid)
    | _, _ => none

/-- BLOCK_READMIT: a saved block, with its gang launch (R27), on `core` where it fits, else where it does. One whose divert is
due comes before any other work of its context (R43); an L or Q block comes behind a D block that can be placed (R375). -/
def execBlockReadmit (blk core : Nat) (s : State) : Out :=
  match s.blk blk with
  | none => .next s
  | some b =>
    match s.launch b.launch with
    | none => .next s
    | some l =>
      let group := (s.gangBlocks b).filter (·.evicted)
      let due := group.any (fun x => x.spindles.any (fun sp => sp.threads.any (·.leaves)))
      let behind := !due && ((s.dueBack b.ctx) || (l.cls != .d && s.nextD.isSome))
      if !group.any (fun x => s.wantsBack x) || behind then .next s
      else
        let put (t : State) (i c : Nat) : Option State := (group[i]?).bind (fun x => t.putBack l x.uid c)
        match s.placement l.cls group.length [core] put with
        | none => .next s
        | some cores => .next ((s.putGang put cores 0).getD s)

end Sys2Proof.Machine
end

