-- ==== Sys2Proof/Machine/Queues.lean ====
section
/-! DEFINITION. Queues.lean: command queues: their registers (R362, R363), the front end and its packets (R364 to
R370), the launch header (R371 to R373) and quarantine (R379). -/

namespace Sys2Proof.Machine

/-- A context that is DEFINED, its halt line down (R383). -/
def State.defined (s : State) (n : Nat) : Bool := ((s.ctx n).map (fun c => !c.halted && !c.halting)).getD false

/-- A context that CTXSTAT reads as DEFINED, its halt line up or down (R383). -/
def State.readsDefined (s : State) (n : Nat) : Bool := ((s.ctx n).map (fun c => !c.halted)).getD false

/-! Registers. -/

/-- A queue that parses packets, or ends the one in progress (R365). -/
def Queue.live (q : Queue) : Bool := q.en || q.stopping

/-- Queues in a front end (R365). -/
def State.fronts (s : State) : Nat := (s.queues.filter (fun q => q.live && !q.out)).length

/-- The service of a page that a queue waited for answers to no packet any more. -/
def State.detach (s : State) (n : Nat) : State :=
  { s with services := s.services.map (fun (v : Service) => if v.queue == some n && !v.mirror then { v with queue := none } else v) }

/-- A write of QCTL_n (R362). A queue disabled while a packet is in progress stops behind it (R365). -/
def State.writeQctl (s : State) (n : Nat) (v : Dword) : State :=
  let q := s.queue n
  let tickets := (v.extractLsb' 48 16).toNat
  let cid := (v.extractLsb' 32 12).toNat
  let rise := v.getLsbD 0 && !q.en
  if tickets == 0 || v.getLsbD 5 || (rise && !s.readsDefined cid) then s
  else
    let full := decide (64 ≤ s.fronts)
    (if rise then s.detach n else s).updQueue n (fun q =>
      let q := { q with tickets := tickets, lcls := v.getLsbD 4, quar := q.quar && !v.getLsbD 6
                        ctxid := if q.en then q.ctxid else cid, priv := if q.en then q.priv else v.getLsbD 7 }
      if rise then
        { q with en := true, prog := q.tail, ctx := q.ctxid, stack := [], waiting := false, serv := false, out := full, stopping := false }
      else if v.getLsbD 0 || !q.en then q
      else
        let busy := !q.out && (q.waiting || q.serv)
        { q with en := false, stopping := busy, waiting := busy && q.waiting, out := false, serv := busy && q.serv })

/-- A write of QTAIL_n (R363). -/
def State.writeQtail (s : State) (n : Nat) (v : Dword) : State :=
  s.updQueue n (fun q =>
    if v.toNat < q.tail || q.prog + 2 ^ q.log2 < v.toNat then { q with tailerr := true } else { q with tail := v.toNat })

/-- A write of QBASE_n: ignored while the queue is enabled, and where LOG2SIZE is out of range. -/
def State.writeQbase (s : State) (n : Nat) (v : Dword) : State :=
  let k := (v.extractLsb' 0 5).toNat
  s.updQueue n (fun q =>
    if q.en || k < 10 || 24 < k then q else { q with base := v &&& 0x00FF_FFFF_FFFF_F000, log2 := k })

/-- A write of QPMIR_n. -/
def State.writeQpmir (s : State) (n : Nat) (v : Dword) : State :=
  s.updQueue n (fun q => if q.en || v.toNat % 8 != 0 then q else { q with mirror := v })

/-- QTAIL (R363). -/
def execQtail (n : Nat) (v : Dword) (s : State) : Out := .next (s.bar (fun s => if n < 1024 then s.writeQtail n v else s))

/-- QUEUE_ENABLE: a write of QCTL_n that sets EN from 0 to 1. -/
def execQueueEnable (n : Nat) (v : Dword) (s : State) : Out :=
  .next (s.bar (fun s => if n < 1024 && !(s.queue n).en && v.getLsbD 0 then s.writeQctl n v else s))

/-- QUEUE_DISABLE: one that sets EN from 1 to 0 (R365). -/
def execQueueDisable (n : Nat) (v : Dword) (s : State) : Out :=
  .next (s.bar (fun s => if n < 1024 && (s.queue n).en && !v.getLsbD 0 then s.writeQctl n v else s))

/-- QUAR: the driver writes 1 to QUAR, the other fields as they stand (R379). -/
def execQuar (n : Nat) (s : State) : Out :=
  .next (s.bar (fun s => if n < 1024 then s.writeQctl n ((s.queue n).reg 1 ||| 0x40) else s))

/-- The rank of a queue for a front end: D before L before quarantined (R365). -/
def Queue.rank (q : Queue) : Nat := if q.quar then 2 else if q.lcls then 1 else 0

/-- QUEUE_SWITCH_IN (R365): into a free front end, or one taken from a queue of a lower class, between packets; a queue
without work is no candidate. -/
def execQueueSwitchIn (n : Nat) (s : State) : Out :=
  let q := s.queue n
  if !q.en || !q.out || decide (q.tail ≤ q.prog) then .next s
  else if s.fronts < 64 then .next (s.updQueue n (fun q => { q with out := false }))
  else
    match s.queues.find? (fun x => x.en && !x.out && !x.serv && decide (q.rank < x.rank)) with
    | some x => .next ((s.updQueue x.n (fun x => { x with out := true })).updQueue n (fun q => { q with out := false }))
    | none => .next s

/-- QUEUE_SWITCH_OUT (R365). -/
def execQueueSwitchOut (n : Nat) (s : State) : Out :=
  let q := s.queue n
  .next (if q.en && !q.out && !q.serv then s.updQueue n (fun q => { q with out := true }) else s)

/-! The front end (R363, R364, R366). -/

/-- A queue that parses. -/
def State.parses (s : State) (q : Queue) : Bool := q.live && !q.out && !q.serv && s.defined q.ctx && s.defined q.ctxid

/-- The place of word i of the packet a queue stands at: its address and the context that translates it. -/
def Queue.wordAt (q : Queue) (i : Nat) : Dword × Nat :=
  match q.stack with
  | [] => (q.base + BitVec.ofNat 64 (4 * ((q.prog + i) % 2 ^ q.log2)), q.ctxid)
  | (a, _, p, c) :: _ => (a + BitVec.ofNat 64 (4 * (p + i)), c)

/-- Words from the packet a queue stands at, by `.sys` loads. -/
def State.qwords (s : State) (q : Queue) : Nat → Nat → Except Stop (List Word × State)
  | _, 0 => .ok ([], s)
  | i, n + 1 =>
    let (va, c) := q.wordAt i
    match s.ctx c with
    | none => .error (.trap .translation va)
    | some c =>
      match s.readVirt none c va 4 with
      | .error e => .error e
      | .ok (d, t) =>
        match t.qwords q (i + 1) n with
        | .error e => .error e
        | .ok (ws, u) => .ok (BitVec.ofNat 32 (leNat d) :: ws, u)

/-- The queue's PROG is mirrored (R364). -/
def State.mirrorProg (s : State) (n : Nat) : State :=
  let q := s.queue n
  if q.mirror == 0 then s
  else
    match s.ctx q.ctxid with
    | none => s
    | some c =>
      match (s.ack (fun _ => true)).writeVirt c q.mirror (leBytes 8 q.prog) with
      | .ok t => t
      | .error (.service va _) =>
        let (tag, s) := s.fresh
        let v : Service :=
          { core := 0x100, ctx := c.id, va := va, write := true, fetch := false, tag := tag, sent := false, spid := 0
            slots := [], op := none, queue := some n, record := none, mirror := true }
        ({ s with services := s.services ++ [v] }).updQueue n (fun q => { q with serv := true })
      | .error _ => s.logErrorOf c.id 0x48 0 q.mirror

/-- k words consumed: PROG, or the position in the innermost buffer, whose end consumes its INDIRECT packet. -/
def Queue.advance (q : Queue) (k : Nat) : Nat → Queue
  | 0 => q
  | fuel + 1 =>
    match q.stack with
    | [] => { q with prog := q.prog + k }
    | (a, n, p, c) :: r =>
      if p + k < n then { q with stack := (a, n, p + k, c) :: r }
      else Queue.advance { q with stack := r } 4 fuel

/-- A packet of k words is consumed. -/
def State.consume (s : State) (n k : Nat) : State :=
  let old := (s.queue n).prog
  let s := s.updQueue n (fun q => { q.advance k 6 with waiting := false, stopping := false })
  if (s.queue n).prog == old then s else s.mirrorProg n

/-- A malformed packet (R366, R379). DEDUCED, log entry 34. -/
def State.malformed (s : State) (n reason k : Nat) : State :=
  (s.updQueue n (fun q =>
    { q with reason := reason, erroff := q.prog % 2 ^ q.log2, quar := true })).consume n k

/-- The queue is held while a page is serviced (R366). DESIGN CHOICE, log entry 28. -/
def State.holdQueue (s : State) (n ctx : Nat) (va : Dword) (write : Bool) : State :=
  let (tag, s) := s.fresh
  let v : Service :=
    { core := 0x100, ctx := ctx, va := va, write := write, fetch := false, tag := tag, sent := false, spid := 0
      slots := [], op := none, queue := some n, record := none, mirror := false }
  ({ s with services := s.services ++ [v] }).updQueue n (fun q => { q with serv := true })

/-- A failed access of a packet. -/
def State.qfail (s : State) (n ctx k : Nat) (write : Bool) (x : Stop) : State :=
  match x with
  | .service va _ => s.holdQueue n ctx va write
  | .trap _ _ => s.malformed n 0x07 k

/-- The words of each type, 0 for NOP's 1 to 4,095, and the flag bits it accepts (R366). -/
def packetForm (t : Nat) : Option (Nat × Nat) :=
  match t with
  | 0 => some (0, 0)
  | 1 => some (33, 0)
  | 2 => some (4, 0)
  | 3 => some (7, 3)
  | 4 => some (5, 3)
  | 5 => some (1, 0)
  | 6 => some (2, 0)
  | 7 => some (3, 1)
  | _ => none

/-- The reason a header word is malformed, if it is. -/
def headerReason (h : Word) : Option Nat :=
  let cnt := (h.extractLsb' 12 12).toNat
  match packetForm (h.extractLsb' 24 8).toNat with
  | none => some 1
  | some (n, fl) =>
    if cnt == 0 || (n != 0 && cnt != n) then some 2
    else if h.extractLsb' 0 12 &&& ~~~(BitVec.ofNat 12 fl) != 0 then some 3
    else none

/-- The packet a queue stands at, if it is of type `t`: type 0 takes unknown types and unreadable headers too. `body` gets
the flags and the words after the header. -/
def State.packet (s : State) (t n : Nat) (body : Queue → BitVec 12 → List Word → State → State) : State :=
  let q := s.queue n
  if !s.parses q || (q.stack.isEmpty && q.tail ≤ q.prog) then s
  else
    match s.qwords q 0 1 with
    | .error x => if t == 0 then s.qfail n (q.wordAt 0).2 1 false x else s
    | .ok (hw, s1) =>
      let h := hw.headD 0
      let typ := (h.extractLsb' 24 8).toNat
      let size := max 1 (h.extractLsb' 12 12).toNat
      let room := match q.stack with
        | [] => true
        | (_, len, p, _) :: _ => decide (p + size ≤ len)
      if (if typ < 8 then typ else 0) != t then s
      else if q.stack.isEmpty && q.tail < q.prog + size then s
      else
        match headerReason h with
        | some r => s1.malformed n r size
        | none =>
          if !room then s1.malformed n 5 size
          else
            match s1.qwords q 1 (size - 1) with
            | .error x => s1.qfail n (q.wordAt 0).2 size false x
            | .ok (ws, s2) => body q (h.extractLsb' 0 12) ws s2

/-- NOP_PACKET: its words are read like any packet's (R366). -/
def execNopPacket (n : Nat) (s : State) : Out := .next (s.packet 0 n (fun _ _ ws t => t.consume n (ws.length + 1)))

/-- A dword of a packet: word i the low half. -/
def qdword (ws : List Word) (i : Nat) : Dword := (ws[i + 1]?).getD 0 ++ (ws[i]?).getD 0

/-- INDIRECT (R367). -/
def execIndirect (n : Nat) (s : State) : Out :=
  .next (s.packet 2 n (fun q _ ws s =>
    let a := qdword ws 0
    let len := ((ws[2]?).getD 0).toNat
    if len == 0 || 2 ^ 24 < len then s.malformed n 3 4
    else if a.toNat % 4 != 0 || !canonical a then s.malformed n 7 4
    else if 4 ≤ q.stack.length then s.malformed n 5 4
    else
      match s.ctx q.ctx with
      | none => s.malformed n 7 4
      | some c =>
        let s := s.walked c.walker a 4
        match s.checkAccess c.walker a 4 askRead (fun _ => none) with
        | .error x => s.qfail n c.id 4 false x
        | .ok _ => s.updQueue n (fun q => { q with stack := (a, len, 0, q.ctx) :: q.stack })))

/-- The condition of a WAITMEM (R368). -/
def waitHolds (cond : Nat) (d v m : Dword) : Bool :=
  let d := if m == 0 then d else d &&& m
  match cond with
  | 0 => d == v
  | 1 => d != v
  | 2 => decide (v.toNat ≤ d.toNat)
  | _ => decide (d.toNat < v.toNat)

/-- A WAITMEM's dword is read and tested. -/
def State.waitmem (s : State) (n : Nat) : State :=
  s.packet 3 n (fun q fl ws s =>
    let a := qdword ws 0
    if a.toNat % 8 != 0 then s.malformed n 7 7
    else
      match s.ctx q.ctx with
      | none => s.malformed n 7 7
      | some c =>
        match s.readVirt none c a 8 with
        | .error x => s.qfail n c.id 7 false x
        | .ok (d, s) =>
          if waitHolds fl.toNat (BitVec.ofNat 64 (leNat d)) (qdword ws 2) (qdword ws 4) then s.consume n 7
          else s.updQueue n (fun q => { q with waiting := true }))

/-- WAITMEM, and its test again on a timer or a reported store. -/
def execWaitmem (n : Nat) (s : State) : Out := .next (if (s.queue n).waiting then s else s.waitmem n)
def execWaitmemRecheck (n : Nat) (s : State) : Out := .next (if (s.queue n).waiting then s.waitmem n else s)

/-- Every earlier launch of a queue has written its record (R369, R370). -/
def State.queueDone (s : State) (n : Nat) : Bool := !s.launches.any (fun l => l.queue == n && l.task.isNone && !l.ended)

/-- A packet that waits for earlier records. -/
def State.afterRecords (s : State) (n : Nat) (wait : Bool) (f : State → State) : State :=
  if wait && !s.queueDone n then s.updQueue n (fun q => { q with waiting := true }) else f s

/-- A dword stored by a front end, or added to at its home (R369). -/
def State.writeOrAdd (s : State) (c : Ctx) (locs : List (Loc × Nat)) (add : Bool) (v : Dword) : State :=
  match add, locs with
  | true, (.mem pa, _) :: _ =>
    let (old, s) := (s.rmwLine (lineOf pa) true).readLocs none locs
    s.writeLocs (partStream c.id) none locs (leBytes 8 (v + BitVec.ofNat 64 (leNat old)).toNat)
  | true, (.peer dev pa, _) :: _ => s.sendPeer (partStream c.id) dev pa (.atomic .add true v 0) none none
  | _, _ => s.writeLocs (partStream c.id) none locs (leBytes 8 v.toNat)

/-- A write of a packet, performed as an E event at `.sys`. -/
def State.packetWrite (s : State) (n k : Nat) (a : Dword) (add : Bool) (v : Dword) : State :=
  if a.toNat % 8 != 0 then s.malformed n 7 k
  else
    match s.ctx (s.queue n).ctx with
    | none => s.malformed n 7 k
    | some c =>
      let ask : Ask := if add then { askRead with perm := fun p => p.r && p.w } else askWrite
      let s := s.walked c.walker a 8
      match s.checkAccess c.walker a 8 ask (fun _ => none) with
      | .error x => s.qfail n c.id k true x
      | .ok locs =>
        match (if add then s.badLocs locs else s.downLocs locs) with
        | some l => s.qfail n c.id k true (.trap .uncorrectable (BitVec.ofNat 64 (128 * l)))
        | none => ((s.ack (fun _ => true)).writeOrAdd c locs add v).consume n k

/-- SIGNAL. -/
def execSignal (n : Nat) (s : State) : Out :=
  .next (s.packet 4 n (fun _ fl ws s =>
    s.afterRecords n (fl.getLsbD 0) (fun s => s.packetWrite n 5 (qdword ws 0) (fl.getLsbD 1) (qdword ws 2))))

/-- TIMESTAMP. -/
def execTimestamp (n : Nat) (s : State) : Out :=
  .next (s.packet 7 n (fun _ fl ws s =>
    s.afterRecords n (fl.getLsbD 0) (fun s => s.packetWrite n 3 (qdword ws 0) false (BitVec.ofNat 64 s.devtime))))

/-- FENCE_PACKET (R370). -/
def execFencePacket (n : Nat) (s : State) : Out :=
  .next (s.packet 5 n (fun _ _ _ s => s.afterRecords n true (fun s => s.consume n 1)))

/-- SETCTX (R370). -/
def execSetctx (n : Nat) (s : State) : Out :=
  .next (s.packet 6 n (fun q _ ws s =>
    let w := (ws[0]?).getD 0
    let c := (w.extractLsb' 0 12).toNat
    if w.extractLsb' 12 20 != 0 then s.malformed n 3 2
    else if !q.priv || !s.readsDefined c then s.malformed n 6 2
    else (s.updQueue n (fun q => { q with ctx := c })).consume n 2))

/-! The launch header (R371 to R373). -/

/-- An allotment dword (R372); none where it breaks the figures of R30. -/
def readAllot (x : Nat) : Option Allot :=
  let f (lo n : Nat) : Nat := x / 2 ^ lo % 2 ^ n
  if f 60 4 == 0 && 1 ≤ f 0 5 && f 0 5 ≤ f 5 5 && f 5 5 ≤ 16 && f 10 14 ≤ f 24 14 && f 24 14 ≤ 8192 &&
      f 38 11 ≤ f 49 11 && f 49 11 ≤ 1024 then
    some { vpro := 8 * f 0 5, vfull := 8 * f 5 5, lpro := 128 * f 10 14, lfull := 128 * f 24 14
           apro := 64 * f 38 11, afull := 64 * f 49 11 }
  else none

/-- A launch as its header says, not yet accepted; none where the header is malformed. -/
def readHeader (d : List Byte) (uid ctx queue : Nat) : Option Launch :=
  let f (lo n : Nat) : Nat := bitsOf d lo n
  let dw (lo : Nat) : Dword := BitVec.ofNat 64 (f lo 64)
  let w := (List.range 6).map (fun k => f (192 + 6 * k) 6)
  let e := [f 228 5 + 1, f 233 5 + 1, f 238 4 + 1, f 256 64 + 1, f 320 64 + 1, f 384 64 + 1]
  let p := f 141 5
  let code := dw 448
  let zeroC : Allot := { vpro := 0, vfull := 0, lpro := 0, lfull := 0, apro := 0, afull := 0 }
  match readAllot (f 640 64), (if p == 0 then some zeroC else readAllot (f 704 64)) with
  | some pal, some cal =>
    let l : Launch :=
      { uid := uid, seq := dw 0, ctx := ctx, queue := queue, cls := .l, task := none, tok := 0, w := w, e := e, pcount := p
        dl := f 64 64, budget := f 160 32, det := f 140 1 == 1, nparam := f 146 6
        pentry := code + BitVec.ofNat 64 (f 544 32), centry := code + BitVec.ofNat 64 (f 512 32)
        ppart := code + BitVec.ofNat 64 (f 608 32), cpart := code + BitVec.ofNat 64 (f 576 32)
        pal := pal, cal := cal, param := dw 768, recaddr := dw 832, tlsarea := dw 896, tlssize := f 1008 16
        next := 0, fin := 0, parted := 0, notst := 0, overrun := 0, start := 0, startClk := 0, issued := false
        halted := false, div := false, ended := false }
    let sps := (List.range (f 233 5 + 1)).map (fun m => l.allot m)
    let ok :=
      w.headD 0 == 5 && (w[1]?).getD 0 ≤ 5 && (w[2]?).getD 0 ≤ 4 && (w.drop 3).all (fun x => decide (x ≤ 59)) &&
      decide (w.sum ≤ 64) && (w.zip e).all (fun x => decide (x.2 ≤ 2 ^ x.1)) &&
      (p == 0 || decide (p ≤ f 233 5)) &&
      decide ((sps.map (·.lfull)).sum ≤ 0x10_0000) && decide ((sps.map (·.afull)).sum ≤ Config.accWords) &&
      f 128 12 == 0 && f 242 14 == 0 && f 960 48 == 0 &&
      (p != 0 || (f 704 64 == 0 && f 576 32 == 0 && f 512 32 == 0)) &&
      f 448 64 % 4 == 0 && f 768 64 % 4096 == 0 && f 832 64 % 64 == 0 && (f 1008 16 == 0 || f 896 64 % 512 == 0) &&
      decide (f 146 6 ≤ 32)
    if ok then some l else none
  | _, _ => none

/-- LAUNCH (R373): accepted, rejected with every thread never started, or malformed. -/
def execLaunch (n : Nat) (s : State) : Out :=
  .next (s.packet 1 n (fun q _ ws s =>
    let d := ws.flatMap (fun w => leBytes 4 w.toNat)
    let (uid, s) := s.fresh
    match readHeader d uid q.ctx n with
    | none => s.malformed n 4 33
    | some l =>
      let l : Launch :=
        if q.quar then { l with cls := .q, dl := min l.dl (s.devtime + 1000 * s.sched.qlimit.toNat) }
        else { l with cls := if q.lcls then .l else .d }
      let sfreq := bitsOf d 152 8
      let reject := decide (Config.gangCores < l.blocks) || (sfreq != 0 && sfreq != Config.sfrev.toNat) ||
        decide (l.divertAt ≤ s.devtime) || s.neverFits l
      let s := (s.consume n 33)
      if reject then
        ({ s with launches := s.launches ++ [{ l with notst := l.threads, next := l.gangs, rejected := true }] }).checkLaunch uid
      else { s with launches := s.launches ++ [l], sched := { s.sched with accepted := true } }))

/-- A queue's packet whose page the service rejected is malformed (R366). -/
def State.rejectQueue (s : State) (n : Nat) : State :=
  let q := s.queue n
  if !q.live then s
  else
    match s.qwords q 0 1 with
    | .error _ => s.malformed n 7 1
    | .ok (h, _) => s.malformed n 7 (max 1 ((h.headD 0).extractLsb' 12 12).toNat)

end Sys2Proof.Machine
end

