-- ==== Sys2Proof/Machine/Contexts.lean ====
section
/-! DEFINITION. Contexts.lean: context descriptors and commands (R381 to R383, R390 to R392), invalidation (R386), the
end of a service (R43, R366, R373, R387, R394), the slice (R388) and the tailstock hart (R398). -/

namespace Sys2Proof.Machine

/-! Descriptors (R381, R383). -/

/-- A descriptor as read; none where DEFINE and RELOAD ignore it. -/
def readDesc (d : List Byte) : Option Desc :=
  let f (lo n : Nat) : Nat := bitsOf d lo n
  let dw (lo : Nat) : Dword := BitVec.ofNat 64 (f lo 64)
  let x : Desc :=
    { sysvec := dw 576, htab := dw 512, errbase := dw 448, alogbase := dw 384, stopbase := dw 320, savebase := dw 256
      slice := f 224 32, parklim := f 208 16, mgto := f 192 16, domain := f 152 8, qcores := f 143 9, qvreg := f 137 6
      qlocal := f 132 5, qacc := f 127 5, ceil := BitVec.ofNat 5 (f 122 5), aloglog2 := f 118 4, errlog2 := f 114 4
      stoplog2 := f 110 4, savecnt := f 98 12, root := f 11 41 * 2 ^ 11 }
  let ok :=
    f 0 1 == 1 && f 1 10 == 0 && f 52 46 == 0 && f 160 32 == 0 && f 640 384 == 0 &&
    1 ≤ x.slice && 1 ≤ x.parklim && 1 ≤ x.mgto && 1 ≤ x.qcores && x.qcores ≤ 256 && 1 ≤ x.qvreg && x.qvreg ≤ 32 &&
    x.qlocal ≤ 16 && x.qacc ≤ 16 && 1 ≤ x.savecnt &&
    x.sysvec.toNat % 4 == 0 && x.htab.toNat % 32 == 0 && x.errbase.toNat % 4096 == 0 && x.alogbase.toNat % 4096 == 0 &&
    x.stopbase.toNat % 4096 == 0 && x.savebase.toNat % 4096 == 0
  if ok then some x else none

/-- The descriptor of context n in the table. -/
def State.descAt (s : State) (n : Nat) : Option Desc × State :=
  let (d, t) := s.engineLoad none (s.xlat.ctxtab.toNat + 128 * n) 128
  (readDesc d, t)

/-- CTXCMD names the context commanded last; a command that runs bars others. The firmware executes it (R414). -/
def State.command (s : State) (n : Nat) (f : State → State) : State :=
  if s.xlat.busy.isSome || 4096 ≤ n || !s.firmware then s else f { s with xlat := { s.xlat with ctxcmd := BitVec.ofNat 12 n } }

/-- A new context (R383, R286). What CTXSTAT holds of a last halt, it goes on holding. DEDUCED, log entry 49. -/
def newCtx (n : Nat) (d : Desc) (old : Option Ctx) : Ctx :=
  let was {α : Type} (f : Ctx → α) (z : α) : α := (old.map f).getD z
  { id := n, halted := false, halting := false, dying := false, cause := was (·.cause) .stopped, desc := d, alogmask := d.ceil
    logdrops := was (·.logdrops) 0, stopcnt := was (·.stopcnt) 0, stopdrop := was (·.stopdrop) false, prodA := 0, prodE := 0
    msgs := 0, charge := 0 }

/-- DEFINE. -/
def execDefine (n : Nat) (s : State) : Out :=
  .next (s.command n (fun s =>
    if (s.ctx n).isSome then s
    else
      match s.descAt n with
      | (some d, t) =>
        { t with ctxs := t.ctxs ++ [newCtx n d (t.freed.find? (fun c => c.id == n))], freed := t.freed.filter (fun c => c.id != n) }
      | (none, t) => t))

/-- RELOAD: every field but ROOT, DOMAIN, SAVEBASE and SAVECNT; ALOGMASK by R286. -/
def execReload (n : Nat) (s : State) : Out :=
  .next (s.command n (fun s =>
    if (s.ctx n).isNone then s
    else
      match s.descAt n with
      | (none, t) => t
      | (some d, t) =>
        t.updCtx n (fun c =>
          { c with alogmask := c.alogmask &&& d.ceil
                   desc := { d with root := c.desc.root, domain := c.desc.domain, savebase := c.desc.savebase
                                    savecnt := c.desc.savecnt } })))

/-- HALT, accepted in DEFINED. -/
def execHalt (n : Nat) (s : State) : Out :=
  .next (s.command n (fun s =>
    if s.defined n then { s with xlat := { s.xlat with busy := some n } }.haltCtx n .driver else s))

/-! The end of a halt (R390, R392). -/

/-- The queues of a context are disabled; QSTAT keeps its values (R365). -/
def State.stopQueues (s : State) (n : Nat) : State :=
  { s with queues := s.queues.map (fun (q : Queue) =>
      if q.ctx == n || q.ctxid == n then { q with en := false, waiting := false, out := false, serv := false, stopping := false } else q)
           services := s.services.map (fun (v : Service) =>
             if v.queue.any (fun k => (s.queue k).ctx == n || (s.queue k).ctxid == n) && !v.mirror then { v with queue := none } else v) }

/-- The stopped threads of a context: block, field-1 value and slot, with their records. -/
def State.stopList (s : State) (n : Nat) : List ((Nat × Nat × Nat) × List Byte) :=
  (s.blocks.filter (fun b => b.ctx == n && !b.evicted)).flatMap (fun b =>
    b.spindles.flatMap (fun sp => sp.threads.zipIdx.filterMap (fun x =>
      if x.1.st == .halted then some ((b.uid, sp.m, x.2), x.1.stopRecord b.core sp.spid x.2) else none)))

/-- Each thread learns the number of its record. -/
def State.giveRecs (s : State) : List ((Nat × Nat × Nat) × Option Nat) → State
  | [] => s
  | ((u, m, k), r) :: l => (s.updThr u m k (fun t => { t with stopRec := r })).giveRecs l

/-- Every launch of a context ends (R392). -/
def State.endLaunches (s : State) (n : Nat) : State :=
  (s.launches.filter (fun l => l.ctx == n && !l.ended)).foldl (fun t l => t.stopLaunch l.uid) s

/-- Requests of peers that were frozen here come again, ahead of others: those frozen for services that satisfy a test. -/
def State.thaw (s : State) (p : Nat → Bool) : State :=
  let mine := s.fabric.heldIn.filter (fun h => p h.tag)
  { s with fabric := { s.fabric with heldIn := s.fabric.heldIn.filter (fun h => !p h.tag) }
           agenda := mine.map (fun (h : HeldPeer) => Turn.event (.peerRequest h.r)) ++ s.agenda }

/-- The rest of a DESTROY (R392): the context's units, queues, blocks, TLB entries and records are freed, and it becomes
FREE. -/
def State.freeCtx (s : State) (n : Nat) : State :=
  let old := s.ctx n
  let s := (s.operators.filter (fun o => o.owner == n)).foldl (fun t o => t.unbind o true) s
  let s := (s.blocks.filter (fun b => b.ctx == n)).foldl (fun t b => t.freeRecord b) s
  let s := (s.stopQueues n).tlbDrop (fun x => x.ctx == n)
  let gone := (s.services.filter (fun v => v.ctx == n)).map (·.tag)
  let s := { s with
    mslots := s.mslots.filter (fun m => m.ctx != n), blocks := s.blocks.filter (fun b => b.ctx != n)
    launches := s.launches.filter (fun l => l.ctx != n), ops := s.ops.filter (fun o => o.ctx != n)
    services := s.services.filter (fun v => v.ctx != n), ctxs := s.ctxs.filter (fun c => c.id != n)
    freed := (match old with | some c => [c] | none => []) ++ s.freed.filter (fun (c : Ctx) => c.id != n)
    fabric := { s.fabric with outst := s.fabric.outst.filter (fun x => x.key.ctx != n)
                              msgs := s.fabric.msgs.filter (fun x => !s.launches.any (fun l => l.ctx == n && l.uid == x.2)) }
    sched := { s.sched with drawn := false, waits := s.sched.waits.filter (fun x => x.2.1 != n) }
    xlat := { s.xlat with busy := if s.xlat.busy == some n then none else s.xlat.busy } }
  s.thaw (fun t => gone.contains t)

/-- A DESTROY goes on once every open launch's record is written: one whose page requests service waits for it (R392). -/
def State.destroyCtx (s : State) (n : Nat) : State :=
  let s := s.endLaunches n
  if s.launches.any (fun l => l.ctx == n && !l.ended) then
    { s.updCtx n (fun c => { c with dying := true }) with xlat := { s.xlat with busy := some n } }
  else s.freeCtx n

/-- The record of a launch of a dying context has been written or dropped. -/
def State.destroyDue (s : State) (n : Nat) : State :=
  if ((s.ctx n).map (fun c => c.dying && c.halted)).getD false && !s.launches.any (fun l => l.ctx == n && !l.ended) then s.freeCtx n
  else s

/-- The tile operations of a context's resident blocks stop at the end of a step or a row, each with its record (R389,
R390). -/
def State.stopTiles (s : State) (n : Nat) : State :=
  (s.ops.filter (fun o => o.ctx == n && o.kind.rows && !s.saved o.blk)).foldl (fun t o =>
    let u := t.tileStop o
    if u.engStops.length != t.engStops.length then u
    else { u with engStops := u.engStops ++ [o.engStop .stopped 2 o.kind.detail] }) s

/-- STOP_RECORDS (R390): once no clause of the context runs, its records are written, and STATE becomes HALTED.
DEDUCED, log entry 31. -/
def execStopRecords (n : Nat) (s : State) : Out :=
  match s.ctx n with
  | none => .next s
  | some c =>
    let runs := (s.run :: s.runs).any (fun r => r.active && ((s.blk r.blk).map (fun b => b.ctx == n)).getD false)
    if !c.halting || runs then .next s
    else
      let s := s.stopTiles n
      let ths := s.stopList n
      let engs := s.engStops.filter (fun x => x.ctx == n)
      let (t, ns) := s.putStops c (ths.map (·.2) ++ engs.map (fun x => x.record)) 0
      let cnt := (ns.filter (·.isSome)).length
      let t := if c.desc.stopbase == 0 then t
        else match (t.ack (fun _ => true)).writeVirt c c.desc.stopbase (leBytes 8 cnt) with
          | .ok u => u
          | .error _ => t
      let t := (t.giveRecs ((ths.map (·.1)).zip ns)).stopQueues n
      let t := { t with engStops := t.engStops.filter (fun x => x.ctx != n) }
      let t := t.updCtx n (fun c => { c with halted := true, halting := false, stopcnt := min 65535 cnt, stopdrop := cnt < ns.length })
      let t := { t with xlat := { t.xlat with busy := if t.xlat.busy == some n then none else t.xlat.busy } }
      .next (if c.dying then t.destroyCtx n else t)

/-- DESTROY. -/
def execDestroy (n : Nat) (s : State) : Out :=
  .next (s.command n (fun s =>
    match s.ctx n with
    | none => s
    | some c =>
      if c.halted then s.destroyCtx n
      else
        ({ s with xlat := { s.xlat with busy := some n } }.haltCtx n .driver).updCtx n (fun c => { c with dying := true })))

/-! RESUME (R361, R391). -/

/-- The displaced header that the debugger left in a thread's record. -/
def State.dhdrOf (s : State) (c : Ctx) (t : Thread) : Dword :=
  match t.stopRec with
  | none => 0
  | some k =>
    match s.readVirt none c (c.desc.stopbase + BitVec.ofNat 64 (64 + 64 * k + 24)) 8 with
    | .ok (d, _) => BitVec.ofNat 64 (leNat d)
    | .error _ => 0

/-- A halted thread runs on: from its record, parked in its barrier, or as it was saved; inside a clause, in the copy that the
debugger names where it names one (R361). -/
def Thread.resume (t : Thread) (dhdr : Dword) : Thread :=
  if t.st == .halted then { t with st := t.before, before := .ready, stop := none, stopRec := none,
                                      mid := t.mid.map (fun m => { m with copy := dhdr }) } else t

/-- Result loads that no thread waits for, after threads have left their waits. -/
def State.cleanLoads (s : State) (p : Block → Bool) : State :=
  s.dropLoads (fun o =>
    match s.blk o.blk with
    | some b => p b && !s.loadAwaited o
    | none => false)

/-- A spindle's threads whose divert is due take it, but for those that a wait of `waits` holds. -/
def Spindle.takeDue (sp : Spindle) (waits : Nat → Bool) (entry : Dword) : Spindle :=
  Spindle.dropAcq
    { sp with threads := sp.threads.zipIdx.map (fun (x : Thread × Nat) =>
        if x.1.leaves && x.1.st != .halted && !waits x.2 then x.1.divert entry else x.1) }

/-- The same for a block. -/
def State.takeDueBlock (s : State) (b : Block) : Block :=
  match s.launch b.launch with
  | none => b
  | some l =>
    { b with spindles := b.spindles.map (fun (sp : Spindle) => sp.takeDue (fun k => s.divertWaits b sp k) (l.parting sp.m)) }

/-- Threads of some blocks take a divert that waited (R43). -/
def State.takeDue (s : State) (p : Block → Bool) : State :=
  let t := { s with blocks := s.blocks.map (fun (b : Block) => if p b && !b.evicted then s.takeDueBlock b else b) }
  (t.blocks.filter p).foldl (fun u b => u.settleBlock b.uid) (t.cleanLoads p)

/-- RESUME: the context becomes DEFINED, and its threads run on; saved blocks are readmitted from then on. -/
def execResume (n : Nat) (s : State) : Out :=
  .next (s.command n (fun s =>
    match s.ctx n with
    | none => s
    | some c =>
      if !c.halted then s
      else
        let t := s.updCtx n (fun c => { c with halted := false })
        let t := { t with blocks := t.blocks.map (fun (b : Block) =>
          if b.ctx == n then
            { b with spindles := b.spindles.map (fun (sp : Spindle) =>
                { sp with threads := sp.threads.map (fun (x : Thread) =>
                    let r := x.resume (s.dhdrOf c x)
                    { r with st := r.again }) }) }
          else b) }
        t.takeDue (fun b => b.ctx == n)))

/-! Invalidation (R386). -/

/-- TINVCTL. DEDUCED, log entry 52. -/
def execTinvctl (w : Dword) (s : State) : Out :=
  .next (s.bar (fun s => if s.xlat.tinvBusy then s
    else { s with xlat := { s.xlat with tinvctl := w &&& 0x0000_FFFF_FFFF_1FFF, tinvBusy := true } }))

/-- Accesses of a context that were translated at issue and are not yet performed. The load of a saved block is none: it is
issued again (R142). -/
def OpKind.translated : OpKind → Bool
  | .copy _ _ _ _ _ _ | .zdrain _ _ _ _ _ | .zld _ _ _ | .zst _ _ _ | .coll _ _ _ _ _ _ _ | .xfer _ _ _ _ _ _ _ _
  | .persist _ _ | .resultLoad _ _ _ _ _ _ _ => true
  | _ => false

/-- The TLB entries that the invalidation in progress names. -/
def State.tinvHits (s : State) (x : TlbEnt) : Bool :=
  let all := s.xlat.tinvctl.getLsbD 12
  let lo := s.xlat.tinvaddr.toNat / 2 ^ 16 * 2 ^ 16
  let hi := lo + 2 ^ 16 * (s.xlat.tinvctl.extractLsb' 16 32).toNat
  let base := x.va.toNat / 2 ^ x.page.log2 * 2 ^ x.page.log2
  x.ctx == (s.xlat.tinvctl.extractLsb' 0 12).toNat && (all || (decide (base < hi) && decide (lo < base + 2 ^ x.page.log2)))

/-- TINV_DONE: the TLB entries of the range are dropped, once every access of the context translated before is performed;
its posted window requests join, once the operators they name are in the chucks. -/
def execTinvDone (s : State) : Out :=
  let n := (s.xlat.tinvctl.extractLsb' 0 12).toNat
  let idle := !s.xlat.tinvctl.getLsbD 12 && s.xlat.tinvctl.extractLsb' 16 32 == 0
  if !s.xlat.tinvBusy then .next s
  else if idle then .next { s with xlat := { s.xlat with tinvBusy := false } }
  else if s.ops.any (fun o => o.ctx == n && o.kind.translated &&
        !(s.saved o.blk && (match o.kind with | .resultLoad _ _ _ _ _ _ _ => true | _ => false))) ||
      s.fabric.held.any (fun h => h.x.key.ctx == n) || s.fabric.outst.any (fun x => x.key.ctx == n) then .next s
  else
    let t := (s.joinAll (fun p => p.agent == .ctx n)).tlbDrop s.tinvHits
    if t.posted.any (fun p => p.agent == .ctx n) then .next t
    else .next { t with xlat := { t.xlat with tinvBusy := false } }

/-! The end of a service (R387). -/

/-- The run that a service stalls. -/
def State.stalledRun (s : State) (v : Service) : Option Run :=
  s.runs.find? (fun r =>
    match s.blk r.blk with
    | some b => r.active && b.core == v.core && r.exec == v.slots &&
        (match b.sp r.m with | some sp => sp.spid == v.spid | none => false)
    | none => false)

/-- A stalled run leaves, its threads diverted: they abandon the clause (R43). -/
def State.abandon (s : State) (r : Run) : State :=
  let entry := (((s.blk r.blk).bind (fun b => s.launch b.launch)).map (fun l => l.parting r.m)).getD 0
  let s := { s with runs := s.runs.filter (fun x => x != r) }
  (s.updSp r.blk r.m (fun (sp : Spindle) =>
    { sp with threads := sp.threads.zipIdx.map (fun x =>
        if r.exec.contains x.2 then { x.1 with pc := r.hdr, mid := none }.divert entry else x.1) })).settle r.blk r.m

/-- The faulting thread of a core's service goes on, or takes TRANSLATION where the service rejected the page; one that ran
its clause at the divert time finishes it (R43). A fetch is rejected for the threads that no divert takes.
DEDUCED, log entry 35. -/
def State.endCoreService (s : State) (v : Service) (retry : Bool) : State :=
  match s.spindleAt v.core v.spid with
  | none => s
  | some (b, sp) =>
    if v.slots.isEmpty then (if retry then s.readParams b.uid else s.paramFail b .translation v.va)
    else
      match s.stalledRun v with
      | none =>
        let ks := v.slots.filter (fun k => ((sp.threads[k]?).map (fun t => t.st == .ready && !t.divertDue)).getD false)
        if retry || ks.isEmpty then s
        else s.trapClause b sp ks (((ks.head?.bind (fun k => sp.threads[k]?)).map (fun t => t.mid.isSome)).getD false) .translation v.va
      | some r =>
        let due := r.exec.any (fun k => ((sp.threads[k]?).map (fun t => t.divertDue && !t.finish)).getD false)
        if retry then (if due then s.abandon r else s)
        else
          (({ s with runs := s.runs.filter (fun x => x != r) }).stopAt r true (some (v.slot, ⟨.translation, v.va⟩))).haltCtx
            b.ctx .translation

/-- A service ends. DEDUCED, log entry 35. -/
def State.endService (s : State) (v : Service) (retry : Bool) : State :=
  let s := { s with services := s.services.filter (fun x => x.tag != v.tag) }
  match v.queue, v.record with
  | some n, _ =>
    let s := s.updQueue n (fun q => { q with serv := s.services.any (fun x => x.queue == some n) })
    if v.mirror then
      (if retry then s.mirrorProg n else s.logErrorOf v.ctx 0x48 0 (s.queue n).mirror)
    else if retry then s
    else s.rejectQueue n
  | none, some u =>
    match s.launch u with
    | none => s
    | some l =>
      (if retry then s.writeRecord l
        else (s.logError l.ctx 0x44 l.seq).updLaunch u (fun l => { l with ended := true })).destroyDue l.ctx
  | none, none =>
    match s.fabric.heldIn.find? (fun h => h.tag == v.tag) with
    | some h =>
      let s := { s with fabric := { s.fabric with heldIn := s.fabric.heldIn.erase h } }.thaw (fun t => t == v.tag)
      if retry then
        match execPeerRequest h.r { s with out := s.out ++ [OutMsg.peerResume h.r] } with
        | .next t => t
        | _ => s
      else s.rejectPeer h.r
    | none =>
      let s := s.endCoreService v retry
      if s.stalled v.core then s else s.takeDue (fun b => b.core == v.core)

/-- SERVICE_COMPLETE. -/
def execServiceComplete (core : Nat) (retry : Bool) (s : State) : Out :=
  match s.services.find? (fun v => v.core == core) with
  | none => .next s
  | some v => .next (s.endService v retry)

/-! The slice (R388). -/

/-- The accounting period, 10 ms. -/
def slicePeriod : Nat := 10000000

/-- SLICE_PERIOD_END. -/
def execSlicePeriodEnd (s : State) : Out :=
  if s.devtime < s.sched.period + slicePeriod then .next s
  else
    .next { s with sched := { s.sched with period := s.devtime / slicePeriod * slicePeriod }
                   ctxs := s.ctxs.map (fun (c : Ctx) => { c with charge := 0 }) }

/-! The tailstock hart (R398). -/

/-- The conditions of GRANT. -/
def Spindle.quiet (sp : Spindle) (stalled : Bool) : Bool :=
  sp.threads.all (fun t =>
    match t.st with
    | .exited | .stopped | .parked _ => true
    | .ready => stalled
    | .halted => false)

/-- HSEL of a core. -/
def State.hselOf (s : State) (core : Nat) : Dword := ((s.hsel.find? (fun x => x.1 == core)).map (·.2)).getD 0

/-- GRANT as it reads: the selected spindle is quiet; while HOLD is set it stays up, as the spindle's wakes wait. -/
def State.grant (s : State) (core : Nat) (w : Dword) : Dword :=
  let quiet := match s.spindleAt core (w.extractLsb' 32 8).toNat with
    | some (_, sp) => sp.quiet (s.stalled core)
    | none => false
  if quiet then w ||| (1#64 <<< 62) else if w.getLsbD 63 then w else w &&& ~~~(1#64 <<< 62)

/-- HSEL: a spindle is selected, HOLD set or cleared; after a hold, diverts that waited are taken.
DESIGN CHOICE, log entry 76. -/
def execHsel (core : Nat) (w : Dword) (s : State) : Out :=
  let file := (w.extractLsb' 28 4).toNat
  let old := s.hselOf core
  if 6 < file then .next s
  else
    let w := w &&& 0x8000_00FF_F07F_001F
    let keep := w.getLsbD 63 && old.getLsbD 62 && w.extractLsb' 32 8 == old.extractLsb' 32 8
    let w := if keep then w ||| (1#64 <<< 62) else s.grant core w
    let t := { s with hsel := (core, w) :: s.hsel.filter (fun x => x.1 != core) }
    .next (t.takeDue (fun b => b.core == core))

/-- `shape.u` or `shape.a` on a register with every slot that is not EXITED executing (R234, R398). -/
def VReg.reform (r : VReg) (affine : Bool) (live : Nat → Bool) : VReg :=
  match (List.range 32).find? live with
  | none => r
  | some k =>
    let x := (r.vals[k]?).getD 0
    let st := if affine && live (k + 1) then (r.vals[k + 1]?).getD 0 - x else 0
    let base := x - BitVec.ofNat 32 k * st
    { tag := if st == 0 then .u else .a base st
      vals := r.vals.zipIdx.map (fun y => if live y.2 then base + BitVec.ofNat 32 y.2 * st else y.1) }

/-- The edit that HDATA makes. -/
def Spindle.edit (sp : Spindle) (file reg slot : Nat) (w : Dword) : Spindle :=
  match file with
  | 0 => sp.setV reg (fun r => { tag := .g, vals := r.vals.set slot (lo32 w) })
  | 1 => { sp with s := sp.s.set reg w }
  | 2 => sp.updThr slot (fun t => { t with preds := lo32 w })
  | 3 =>
    match (w.extractLsb' 0 2).toNat with
    | 0 => sp.setV reg (fun r => r.reform false (fun k => !sp.gone k))
    | 1 => sp.setV reg (fun r => r.reform true (fun k => !sp.gone k))
    | 2 => sp.setV reg (fun r => { r with tag := .g })
    | _ => sp
  | 4 => sp.updThr slot (fun t =>
      match t.mid with
      | some m => { t with mid := some { m with hdr := w } }
      | none => { t with pc := w })
  | 5 => sp.updThr slot (fun t => { t with dpc := w })
  | _ => sp.updThr slot (fun t =>
      { t with mid := t.mid.map (fun m =>
          { m with latches := m.latches.zipIdx.map (fun x =>
              if x.2 + 1 == reg then x.1.map (fun (l : LatchVal) => { l with val := w }) else x.1) }) })

/-- Holds whose spindle has become quiet are granted, and those whose spindle has left lose their grant. -/
def State.latchHolds (s : State) : State :=
  if s.hsel.all (fun x => !x.2.getLsbD 63) then s
  else
    { s with hsel := s.hsel.map (fun x =>
        if !x.2.getLsbD 63 then x
        else if (s.spindleAt x.1 (x.2.extractLsb' 32 8).toNat).isNone then (x.1, x.2 &&& ~~~(1#64 <<< 62))
        else (x.1, s.grant x.1 x.2)) }

/-- The selected value of a spindle, zero-extended. -/
def Spindle.select (sp : Spindle) (file reg slot : Nat) : Dword :=
  let thr (f : Thread → Dword) : Dword := ((sp.threads[slot]?).map f).getD 0
  match file with
  | 0 => (((sp.v[reg]?).bind (fun r => r.vals[slot]?)).getD 0).setWidth 64
  | 1 => (sp.s[reg]?).getD 0
  | 2 => thr (fun t => t.preds.setWidth 64)
  | 3 => BitVec.ofNat 64 (((sp.v[reg]?).map (fun r => tagCode r.tag)).getD 0)
  | 4 => thr (fun t => (t.mid.map (·.hdr)).getD t.pc)
  | 5 => thr (·.dpc)
  | _ => thr (fun t => (((t.mid.bind (fun m => (m.latches[reg - 1]?).join)).map (·.val)).getD 0))

/-- A read of HDATA by a core's hart: zero without GRANT. -/
def execReadHdata (core : Nat) (s : State) : Out :=
  let s := s.latchHolds
  let h := s.grant core (s.hselOf core)
  let v := match s.spindleAt core (h.extractLsb' 32 8).toNat with
    | some (_, sp) =>
      if h.getLsbD 62 then sp.select (h.extractLsb' 28 4).toNat (h.extractLsb' 16 7).toNat (h.extractLsb' 0 5).toNat else 0
    | none => 0
  .next { s with out := s.out ++ [OutMsg.hdata core v] }

/-- HDATA: the selected value of a granted spindle is written; without GRANT nothing is. -/
def execHdata (core : Nat) (w : Dword) (s : State) : Out :=
  let h := s.grant core (s.hselOf core)
  let t := { s with hsel := s.hsel.map (fun x => if x.1 == core then (core, h) else x) }
  let spid := (h.extractLsb' 32 8).toNat
  match s.spindleAt core spid with
  | none => .next t
  | some (b, sp) =>
    if !h.getLsbD 62 then .next t
    else
      .next (t.updSp b.uid sp.m (fun sp =>
        sp.edit (h.extractLsb' 28 4).toNat (h.extractLsb' 16 7).toNat (h.extractLsb' 0 5).toNat w))

end Sys2Proof.Machine
end

