-- ==== Sys2Proof/Machine/Control.lean ====
section
/-! DEFINITION. Control.lean: the C class (R269 to R287) and `brk` (R196). -/

namespace Sys2Proof.Machine

/-! Branches (R270, R271). -/

/-- The target of a BR extension word: clause header address + 4 × SInt(OFFW). -/
def Env.target (e : Env) (off : BitVec 24) : Dword := e.r.hdr + off.signExtend 64 * 4

def execBra (off : BitVec 24) (s : State) : Out := s.within (fun e => s.branch e (fun _ => e.target off))

/-- R270: an indirect target's low bits are zero. -/
def Env.checkTarget (e : Env) (a : Sel) (k : Nat) : Except Stop Dword :=
  let t := e.read true a k
  if t.toNat % 4 == 0 then .ok t else .error (.trap .illegalInsn 0)

def execJmp (a : Sel) (s : State) : Out :=
  s.within (fun e =>
    match checkSlots (e.checkTarget a) e.r.exec with
    | .error (k, x) => s.stopped e k false x
    | .ok _ => s.branch e (fun k => e.read true a k))

def execBrx (a : Sel) (off : BitVec 24) (s : State) : Out :=
  s.within (fun e => s.branch e (fun k => e.target off + 12 * (e.read32 a k).setWidth 64))

/-! Calls (R272, R273). -/

/-- The pages of a spill or a fill (R273): those of an `.l1` store or load of the thread (R110, R245). -/
def askSpill : Ask := askSt ⟨.l1, .no, .no⟩ 8
def askFill : Ask := askLd ⟨.l1, .no, .no⟩ 8

/-- The home of return-stack entry i (R273). -/
def Thread.home (t : Thread) (i : Nat) : Dword := t.tls + BitVec.ofNat 64 (8 * i)

/-- The checks of a push: the pieces of the spill, if it spills. -/
def State.pushCheck (s : State) (e : Env) (k : Nat) : Except Stop (List (Loc × Nat)) :=
  match e.thr k with
  | none => .ok []
  | some t =>
    if t.rsd == 64 || (t.rsd == 8 && t.tls == 0) then .error (.trap .illegalInsn 0)
    else if t.rsd < 8 then .ok []
    else s.access e (t.home (t.rsd - 8)) 8 askSpill mkStore

/-- A push of a return address. -/
def Thread.push (t : Thread) (ret : Dword) : Thread := { t with rs := (ret :: t.rs).take 8, rsd := t.rsd + 1 }

/-- A call in every executing slot. -/
def State.callTo (s : State) (e : Env) (l : List (Nat × List (Loc × Nat))) (f : Nat → Dword) : State :=
  match s.downSlot l with
  | some (k, b) => s.trap e k .uncorrectable (BitVec.ofNat 64 (128 * b))
  | none =>
    let s := l.foldl (fun t x =>
      let d := leBytes 8 (((e.thr x.1).bind (fun t => t.rs.getLast?)).getD 0).toNat
      if isWin x.2 then t.postStore e x.1 x.2 d else t.storeLocs e .l1 x.1 x.2 d) s
    s.leave e e.r.exec (fun k t => { t.push e.r.npc with st := .ready, pc := f k })

def execCall (off : BitVec 24) (s : State) : Out :=
  s.within (fun e =>
    match checkSlots (s.pushCheck e) e.r.exec with
    | .error (k, x) => s.stopped e k true x
    | .ok l => s.callTo e l (fun _ => e.target off))

def execCalli (a : Sel) (s : State) : Out :=
  s.within (fun e =>
    match checkSlots (fun k =>
        match e.checkTarget a k with
        | .error x => .error x
        | .ok _ => s.pushCheck e k) e.r.exec with
    | .error (k, x) => s.stopped e k true x
    | .ok l => s.callTo e l (fun k => e.read true a k))

/-- The checks of a pop: the pieces of the fill, if it fills. -/
def State.popCheck (s : State) (e : Env) (k : Nat) : Except Stop (List (Loc × Nat)) :=
  match e.thr k with
  | none => .ok []
  | some t =>
    if t.rsd == 0 then .error (.trap .illegalInsn 0)
    else if t.rsd ≤ 8 then .ok []
    else s.access e (t.home (t.rsd - 9)) 8 askFill mkLoad

/-- R272, R273. A thread whose fill comes from a result window parks until the load has joined its slot's order and been served
(R34, R136); the others return. DESIGN CHOICE, log entry 70. -/
def execRet (s : State) : Out :=
  s.within (fun e =>
    match checkSlots (s.popCheck e) e.r.exec with
    | .error (k, x) => s.stopped e k false x
    | .ok l =>
      match s.badSlot l with
      | some (k, b) => s.trap e k .uncorrectable (BitVec.ofNat 64 (128 * b))
      | none =>
        let plain := l.filter (fun x => !isWin x.2)
        let wins := l.filter (fun x => isWin x.2)
        let (vals, s) := plain.foldl (fun (acc : List (Nat × Dword) × State) x =>
          if x.2.isEmpty then acc
          else
            let (d, t) := acc.2.loadLocs e .l1 x.1 0 x.2
            (acc.1 ++ [(x.1, BitVec.ofNat 64 (leNat d))], t)) ([], s)
        let s := s.leave e (plain.map (·.1)) (fun k t => t.pop ((vals.find? (fun x => x.1 == k)).map (·.2)))
        if wins.isEmpty then s
        else
          let first := s.nextId
          let s := wins.foldl (fun t x =>
            t.issueResult e x.1 x.2 .b64 none (((e.thr x.1).map (fun t => t.home (t.rsd - 9))).getD 0) .no) s
          s.park e (wins.map (·.1)) (fun _ => .result first))

/-! Convergence and waits (R274 to R277). -/

/-- The mask of some slots. -/
def maskOfSlots (ks : List Nat) : Word := ks.foldl (fun (w : Word) k => w ||| (1#32 <<< k)) 0

/-- R24. -/
def execEnrol (b : BitVec 3) (s : State) : Out :=
  s.within (fun e =>
    let m := maskOfSlots e.r.exec
    s.updSp e.b.uid e.sp.m (fun sp =>
      { sp with bars := sp.bars.zipIdx.map (fun x => if x.2 == b.toNat then (x.1.1 ||| m, x.1.2 &&& ~~~m) else x.1) }))

/-- R24: enrolled threads arrive and park, and the last releases them all; others pass. -/
def execRejoin (b : BitVec 3) (s : State) : Out :=
  s.within (fun e =>
    let en := ((e.sp.bars[b.toNat]?).map (·.1)).getD 0
    let ks := e.r.exec.filter (fun k => en.getLsbD k)
    if ks.isEmpty then s
    else
      let m := maskOfSlots ks
      let s := s.updSp e.b.uid e.sp.m (fun sp =>
        { sp with bars := sp.bars.zipIdx.map (fun x => if x.2 == b.toNat then (x.1.1, x.1.2 ||| m) else x.1) })
      let s := s.park e ks (fun _ => .rejoin b)
      (s.updSp e.b.uid e.sp.m (fun sp => sp.checkRejoin b.toNat)).settle e.b.uid e.sp.m)

/-- R275, R155. -/
def execBar (s : State) : Out :=
  s.within (fun e =>
    let s := s.park e e.r.exec (fun _ => .bar)
    let s := s.updBlk e.b.uid (fun b => { b with barArr := b.barArr ++ e.r.exec.map (fun k => (e.sp.m, k)) })
    s.checkBar e.b.uid)

def execGbar (s : State) : Out :=
  s.within (fun e =>
    let s := s.park e e.r.exec (fun _ => .gbar)
    let s := s.updBlk e.b.uid (fun b => { b with gbarArr := b.gbarArr ++ e.r.exec.map (fun k => (e.sp.m, k)) })
    s.checkGbar e.b.uid)

/-- R276: threads whose condition holds pass; the others park on their own counters. -/
def execArcwait (base : Sel) (off : BitVec 16) (s : State) : Out :=
  s.within (fun e =>
    match checkSlots (fun k =>
        let a := e.caddr base off k
        if a % 16 == 0 && a + 16 ≤ e.b.lsize && (e.b.stashAt a).isNone then Except.ok a
        else .error (.trap .protection (BitVec.ofNat 64 a))) e.r.exec with
    | .error (k, x) => s.stopped e k false x
    | .ok l =>
      let short := (l.filter (fun x => !e.b.counterMet x.2 (.counter x.2))).map (·.1)
      let s := if short.length < l.length then s.acq e .sys else s
      s.park e short (fun k => .counter (e.caddr base off k)))

/-- R32: a request for the full allotment; a granted spindle has no effect. -/
def execAcq (s : State) : Out :=
  s.within (fun e =>
    if e.sp.hasFull then s
    else
      let (n, s) := s.fresh
      let s := s.park e e.r.exec (fun _ => .allot)
      s.updSp e.b.uid e.sp.m (fun sp => { sp with acq := some (sp.acq.getD n) }))

/-- R32, R277. -/
def execRela (s : State) : Out :=
  s.within (fun e =>
    if !e.sp.full then s
    else if s.accBusy e.b e.sp then s.trap e e.low .illegalOperand 0
    else s.toPrologue e.b e.sp)

/-- R278. -/
def execExit (s : State) : Out := s.within (fun e => s.exitThreads e)

/-! Issue (R279). -/

/-- A change of every executing thread. -/
def State.updExec (s : State) (e : Env) (f : Nat → Thread → Thread) : State :=
  s.updSp e.b.uid e.sp.m (fun sp =>
    { sp with threads := sp.threads.zipIdx.map (fun x => if e.r.exec.contains x.2 then f x.2 x.1 else x.1) })

/-- A batch that yields issues no further clause by CHAIN in its round (R279, R345). -/
def State.endChain (s : State) (e : Env) : State :=
  { s with sched := { s.sched with ports := s.sched.ports.map (fun p =>
      if p.core == e.b.core && p.cur == some e.sp.spid then
        { p with used := p.used.map (fun x => if e.r.exec.contains x.1 then (x.1, x.2.1, false) else x) }
      else p) } }

def execYield (s : State) : Out :=
  s.within (fun e => (s.endChain e).updExec e (fun _ t => { t with yielded := true }))

def execNop (s : State) : Out := s.within (fun _ => s)

/-- R279: the thread is held between clauses until its wake time; 0 yields. -/
def execSleep (a : Sel) (s : State) : Out :=
  s.within (fun e => (if e.r.exec.any (fun k => e.read32 a k == 0) then s.endChain e else s).updExec e (fun k t =>
    let n := (e.read32 a k).toNat
    if n == 0 then { t with yielded := true } else { t with wake := some (s.devtime + n) }))

/-! Time and control registers (R280, R285). -/

/-- The result of an instruction with a "VD pair or SD" destination (R195): `f` gives each slot's value. -/
def State.putT (s : State) (e : Env) (d : TDst) (f : Nat → Dword) (tag : Tag) : State :=
  match d with
  | .latch => s.putV e .latch true f tag
  | .v n => s.putV e (.v n) true f tag
  | .s n => s.putU e (.s n) (f e.low)

def execTime (d : TDst) (s : State) : Out := s.within (fun e => s.putT e d (fun _ => BitVec.ofNat 64 s.devtime) .u)

def execSlack (d : TDst) (s : State) : Out :=
  s.within (fun e =>
    let at_ := ((s.launch e.b.launch).map (fun l => l.divertAt)).getD 0
    s.putT e d (fun _ => BitVec.ofInt 64 (at_ - s.devtime)) .u)

/-- R285: a part-wide or context-wide register. -/
def csrShared (n : BitVec 12) : Bool := n.toNat < 0x010 || n == 0x012 || n == 0x020

def execCsrr (d : TDst) (csr : BitVec 12) (s : State) : Out :=
  s.within (fun e => s.putT e d (fun k => e.csr s csr k) (if csrShared csr then .u else .g))

/-- R286: the only register kernel code writes is ALOGMASK; others are refused at decode. -/
def execCsrw (csr : BitVec 12) (a : Sel) (s : State) : Out :=
  s.within (fun e =>
    if csr == 0x012 then
      s.updCtx e.b.ctx (fun c => { c with alogmask := (e.readU a).setWidth 5 &&& c.desc.ceil })
    else s)

/-! Publication (R46, R281). -/

/-- STATE of a flag (R46). -/
def flagState : VState → Nat
  | .no => 0
  | .partial_ => 1
  | .complete => 2

/-- The flag (R46). -/
def flagBytes (st : VState) (seq : Dword) (cover : Word) : List Byte :=
  leBytes 8 (flagState st * 2 ^ 62 + seq.toNat % 2 ^ 30 * 2 ^ 32 + cover.toNat)

/-- The pages of `vpub` (R281). -/
def askPub (al : Bool) : Ask :=
  { allow := fun p => if p.mtype == 4 || p.mtype == 5 then some .window else if p.mtype == 6 then some .protection else none
    perm := fun p => p.w
    own := fun ps => if pagesAlike ps && al then none else some .protection }

def execVpub (st : VState) (sc : Scope) (m : MemOp) (cover : Sel) (s : State) : Out :=
  s.within (fun e =>
    match checkSlots (fun k => s.access e (e.gaddr m 8 k) 8 (askPub ((e.gaddr m 8 k).toNat % 8 == 0)) mkStore) e.r.exec with
    | .error (k, x) => s.stopped e k true x
    | .ok l =>
      match s.downSlot l with
      | some (k, b) => s.trap e k .uncorrectable (BitVec.ofNat 64 (128 * b))
      | none =>
        l.foldl (fun t x =>
          t.storeLocs e (if sc == .sys then .sys else .l2) x.1 x.2 (flagBytes st (s.seqOf e.b) (e.read32 cover x.1)))
          (s.release e sc))

/-! Traps and system services (R282, R283, R196). -/

def execTrap (code : Byte) (s : State) : Out := s.within (fun e => s.trap e e.low .software (code.setWidth 64))

def execBrk (tag : BitVec 25) (s : State) : Out := s.within (fun e => s.trap e e.low .breakpoint (tag.setWidth 64))

/-- The context's handler entry. -/
def State.sysvec (s : State) (e : Env) : Dword := ((s.ctx e.b.ctx).map (fun c => c.desc.sysvec)).getD 0

/-- R283: entry into the system handler, the one handler of kernel code that the part enters. -/
def execSys (code : Byte) (a b : Sel) (s : State) : Out :=
  s.within (fun e =>
    let bad := e.r.exec.find? (fun k => s.sysvec e == 0 || ((e.thr k).map (fun t => t.insys)).getD false)
    match bad with
    | some k => s.trap e k .illegalInsn 0
    | none =>
      s.leave e e.r.exec (fun k t =>
        { t with st := .ready, insys := true, code := code, sysa := e.read true a k, sysb := e.read true b k
                 sysret := e.r.npc, pc := s.sysvec e }))

/-- R283: return from it. -/
def execTret (s : State) : Out :=
  s.within (fun e =>
    match e.r.exec.find? (fun k => !((e.thr k).map (fun t => t.insys)).getD false) with
    | some k => s.trap e k .illegalInsn 0
    | none => s.leave e e.r.exec (fun _ t => { t with st := .ready, insys := false, pc := t.sysret }))

end Sys2Proof.Machine
end

