-- ==== Sys2Proof/Machine/Flags.lean ====
section
/-! DEFINITION. Flags.lean: what an instruction leaves beside its value: the shape tag of its result (R52, R53,
R201) and the exceptions it logs (R96, R286). -/

namespace Sys2Proof.Machine

/-- An affine result: U where the stride is 0 (R52). -/
def affTag (b st : Word) : Tag := if st == 0 then .u else .a b st

/-- The tag of "every other" operation: U where all sources are U, else G. -/
def tagAll (l : List Tag) : Tag := if l.all (· == .u) then .u else .g

/-- R52: `iadd` and, when `sub`, `isub`. -/
def Env.tagAdd (e : Env) (sub : Bool) (a b : Sel) : Tag :=
  match e.affine a, e.affine b with
  | some (b1, s1), some (b2, s2) => if sub then affTag (b1 - b2) (s1 - s2) else affTag (b1 + b2) (s1 + s2)
  | _, _ => .g

/-- R52: `ineg`, `not`, `mov`. -/
def Env.tagMov (e : Env) (a : Sel) : Tag :=
  match e.affine a with
  | some (b, s) => affTag b s
  | none => .g
def Env.tagNeg (e : Env) (a : Sel) : Tag :=
  match e.affine a with
  | some (b, s) => affTag (-b) (-s)
  | none => .g
def Env.tagNot (e : Env) (a : Sel) : Tag :=
  match e.affine a with
  | some (b, s) => affTag (-b - 1) (-s)
  | none => .g

/-- R52: the low product: one A source and one U source give A. -/
def Env.mulShape (e : Env) (a b : Sel) : Option (Word × Word) :=
  match e.affine a, e.affine b with
  | some (b1, s1), some (b2, s2) => if s1 == 0 || s2 == 0 then some (b1 * b2, s1 * b2 + s2 * b1) else none
  | _, _ => none
def Env.tagMul (e : Env) (a b : Sel) : Tag :=
  match e.mulShape a b with
  | some (b, s) => affTag b s
  | none => .g

/-- R52: `imad`: all sources U give U; A where the product is A by the `imul` row and the addend is U or A. A
product whose stride comes to 0 is U by the last sentence, and with an A addend gives G.
DESIGN CHOICE, log entry 58. -/
def Env.tagMad (e : Env) (a b c : Sel) : Tag :=
  if [a, b, c].all (fun x => e.tag false x == .u) then .u
  else
    match e.tagMul a b, e.mulShape a b, e.affine c with
    | .a _ _, some (b1, s1), some (b2, s2) => affTag (b1 + b2) (s1 + s2)
    | _, _, _ => .g

/-- R52, R209: `shl` with a U amount; an amount of 32 or more gives stride 0. -/
def Env.tagShl (e : Env) (a b : Sel) : Tag :=
  match e.affine a, e.tag false b with
  | some (b1, s1), .u =>
    let n := (e.read32 b e.low).toNat
    if n < 32 then affTag (b1 <<< n) (s1 <<< n) else .u
  | _, _ => .g

/-- The tag of an operation over several operands (R52, "every other" rows). -/
def Env.tagOf (e : Env) (wide : Bool) (l : List Sel) : Tag := tagAll (l.map (e.tag wide))

/-- The exceptions of each executing slot logged, in ascending slot order (R96). -/
def State.logSlots (s : State) (e : Env) (x : Nat → Exc) : State :=
  e.r.exec.foldl (fun t k => t.logExc e k (x k)) s

/-- A V-class result with its exceptions. -/
def State.putVX (s : State) (e : Env) (d : VDst) (wide : Bool) (f : Nat → Dword × Exc) (tag : Tag) : State :=
  (s.putV e d wide (fun k => (f k).1) tag).logSlots e (fun k => (f k).2)

end Sys2Proof.Machine
end

