-- ==== Sys2Proof/Machine/Lane.lean ====
section
/-! DEFINITION. Lane.lean: V-class integer, bit, compare, floating-point, conversion, predicate and shape
instructions (R200 to R235). -/

namespace Sys2Proof

/-- The element width of an integer type (R206). -/
def IType.bits : IType → Nat
  | .sgn | .uns => 32
  | .sgn64 | .uns64 => 64
  | .sgn16x2 | .uns16x2 => 16

def IType.signed : IType → Bool
  | .sgn | .sgn64 | .sgn16x2 => true
  | _ => false

/-- An element read as ITYPE reads it (R206). -/
def IType.value (t : IType) (x : Nat) : Int :=
  let n := t.bits
  let y := x % 2 ^ n
  if t.signed && 2 ^ (n - 1) ≤ y then (y : Int) - 2 ^ n else y

/-- The limits of the type (R206). -/
def IType.lo (t : IType) : Int := if t.signed then -(2 ^ (t.bits - 1)) else 0
def IType.hi (t : IType) : Int := if t.signed then 2 ^ (t.bits - 1) - 1 else 2 ^ t.bits - 1

/-- R202, R206: an operation on each element, its results modulo 2^n. -/
def IType.each (t : IType) (f : Int → Int → Int → Int) (a b c : Dword) : Dword :=
  let n := t.bits
  let el (i : Nat) : Nat :=
    Machine.intBits n (f (t.value (a.toNat / 2 ^ (16 * i))) (t.value (b.toNat / 2 ^ (16 * i))) (t.value (c.toNat / 2 ^ (16 * i))))
  if t.packed then BitVec.ofNat 64 (el 0 + 2 ^ 16 * el 1) else BitVec.ofNat 64 (el 0)

/-- Clamping into the type's range (R206). -/
def IType.clamp (t : IType) (x : Int) : Int := min (max x t.lo) t.hi

/-- A condition between two integers (R189). -/
def Cond.holds (c : Cond) (a b : Int) : Bool :=
  match c with
  | .eq => a == b
  | .ne => a != b
  | .lt => a < b
  | .le => a ≤ b
  | .gt => b < a
  | .ge => b ≤ a

/-- The format of one element of a floating type (R202). -/
def FType.fmt : FType → Machine.FFmt
  | .f32 => Machine.FFmt.f32
  | .f64 => Machine.FFmt.f64
  | .f16x2 => Machine.FFmt.f16
  | .bf16x2 => Machine.FFmt.bf16

def FType.wide (t : FType) : Bool := t == .f64
def FType.pack (t : FType) : Bool := t == .f16x2 || t == .bf16x2

/-- R202, R218: a floating operation on each element; exceptions of either element count. -/
def FType.each (t : FType) (f : Machine.FFmt → Nat → Nat → Nat → Nat × Machine.Exc) (a b c : Dword) : Dword × Machine.Exc :=
  if t.pack then
    let el (i : Nat) := f t.fmt (a.toNat / 2 ^ (16 * i) % 2 ^ 16) (b.toNat / 2 ^ (16 * i) % 2 ^ 16) (c.toNat / 2 ^ (16 * i) % 2 ^ 16)
    (BitVec.ofNat 64 ((el 0).1 + 2 ^ 16 * (el 1).1), (el 0).2 ||| (el 1).2)
  else
    let r := f t.fmt a.toNat b.toNat c.toNat
    (BitVec.ofNat 64 r.1, r.2)

end Sys2Proof

namespace Sys2Proof.Machine

/-! Shared forms: `f` gives each slot's result from its operands. -/

/-- A 32-bit operation of one operand. -/
def lane1 (d : VDst) (a : Sel) (tag : Env → Tag) (f : Word → Word) (s : State) : Out :=
  s.within (fun e => s.putV e d false (fun k => (f (e.read32 a k)).setWidth 64) (tag e))

/-- A 32-bit operation of two operands. -/
def lane2 (d : VDst) (a b : Sel) (tag : Env → Tag) (f : Word → Word → Word) (s : State) : Out :=
  s.within (fun e => s.putV e d false (fun k => (f (e.read32 a k) (e.read32 b k)).setWidth 64) (tag e))

/-- A 32-bit operation of three operands. -/
def lane3 (d : VDst) (a b c : Sel) (tag : Env → Tag) (f : Word → Word → Word → Word) (s : State) : Out :=
  s.within (fun e =>
    s.putV e d false (fun k => (f (e.read32 a k) (e.read32 b k) (e.read32 c k)).setWidth 64) (tag e))

/-- An integer operation by ITYPE. -/
def laneI (d : VDst) (t : IType) (a b c : Sel) (tag : Env → Tag) (f : Int → Int → Int → Int) (s : State) : Out :=
  s.within (fun e =>
    s.putV e d t.is64 (fun k => t.each f (e.read t.is64 a k) (e.read t.is64 b k) (e.read t.is64 c k)) (tag e))

/-- A floating operation by FTYPE, with its exceptions. -/
def laneF (d : VDst) (t : FType) (a b c : Sel) (f : FFmt → Nat → Nat → Nat → Nat × Exc) (srcs : List Sel) (s : State) : Out :=
  s.within (fun e =>
    s.putVX e d t.wide (fun k => t.each f (e.read t.wide a k) (e.read t.wide b k) (e.read t.wide c k)) (e.tagOf t.wide srcs))

/-! Integer arithmetic (R205 to R208). -/

def execIadd (d : VDst) (a b : Sel) (s : State) : Out := lane2 d a b (fun e => e.tagAdd false a b) (· + ·) s
def execIsub (d : VDst) (a b : Sel) (s : State) : Out := lane2 d a b (fun e => e.tagAdd true a b) (· - ·) s
def execIabs (d : VDst) (a : Sel) (s : State) : Out :=
  lane1 d a (fun e => e.tagOf false [a]) (fun x => if x.slt 0 then -x else x) s
def execIneg (d : VDst) (a : Sel) (s : State) : Out := lane1 d a (fun e => e.tagNeg a) (fun x => -x) s
def execMov (d : VDst) (a : Sel) (s : State) : Out := lane1 d a (fun e => e.tagMov a) (fun x => x) s

/-- R206. Affine only in the 32-bit form without `.sat`. -/
def execImul (d : VDst) (t : IType) (sat : Bool) (a b : Sel) (s : State) : Out :=
  laneI d t a b .zero
    (fun e => if (t == .sgn || t == .uns) && !sat then e.tagMul a b else e.tagOf t.is64 [a, b])
    (fun x y _ => if sat then t.clamp (x * y) else x * y) s

def execImulhi (d : VDst) (t : IType) (a b : Sel) (s : State) : Out :=
  laneI d t a b .zero (fun e => e.tagOf t.is64 [a, b]) (fun x y _ => x * y / (2 ^ t.bits : Int)) s

def execImad (d : VDst) (t : IType) (sat : Bool) (a b c : Sel) (s : State) : Out :=
  laneI d t a b c
    (fun e => if (t == .sgn || t == .uns) && !sat then e.tagMad a b c else e.tagOf t.is64 [a, b, c])
    (fun x y z => if sat then t.clamp (x * y + z) else x * y + z) s

def execImin (d : VDst) (t : IType) (a b : Sel) (s : State) : Out :=
  laneI d t a b .zero (fun e => e.tagOf t.is64 [a, b]) (fun x y _ => min x y) s
def execImax (d : VDst) (t : IType) (a b : Sel) (s : State) : Out :=
  laneI d t a b .zero (fun e => e.tagOf t.is64 [a, b]) (fun x y _ => max x y) s
def execIadds (d : VDst) (t : IType) (a b : Sel) (s : State) : Out :=
  laneI d t a b .zero (fun e => e.tagOf t.is64 [a, b]) (fun x y _ => t.clamp (x + y)) s

/-- R208: the sum or difference with the predicate carried in, and the carry or borrow out. -/
def carryStep (sub : Bool) (a b : Word) (cin : Bool) : Word × Bool :=
  if sub then (a - b - (if cin then 1 else 0), decide (a.toNat < b.toNat + cin.toNat))
  else (a + b + (if cin then 1 else 0), decide (2 ^ 32 ≤ a.toNat + b.toNat + cin.toNat))

/-- R208, with the result tagged G by its predicate source (R201). -/
def laneCarry (sub : Bool) (d : VDst) (a b : Sel) (p : BitVec 5) (s : State) : Out :=
  s.within (fun e =>
    let f (k : Nat) := carryStep sub (e.read32 a k) (e.read32 b k) (e.pred p k)
    (s.putV e d false (fun k => (f k).1.setWidth 64) .g).putP e p (fun k => (f k).2))

def execIaddc (d : VDst) (a b : Sel) (p : BitVec 5) (s : State) : Out := laneCarry false d a b p s
def execIsubb (d : VDst) (a b : Sel) (p : BitVec 5) (s : State) : Out := laneCarry true d a b p s

/-! Shifts, logic and bit fields (R209 to R214). -/

def execShl (d : VDst) (a b : Sel) (s : State) : Out :=
  lane2 d a b (fun e => e.tagShl a b) (fun x n => x <<< n.toNat) s
def execShr (d : VDst) (a b : Sel) (s : State) : Out :=
  lane2 d a b (fun e => e.tagOf false [a, b]) (fun x n => x >>> n.toNat) s
def execSar (d : VDst) (a b : Sel) (s : State) : Out :=
  lane2 d a b (fun e => e.tagOf false [a, b]) (fun x n => x.sshiftRight (min n.toNat 31)) s
def execRot (d : VDst) (a b : Sel) (s : State) : Out :=
  lane2 d a b (fun e => e.tagOf false [a, b]) (fun x n => x.rotateLeft (n.toNat % 32)) s
def execAnd (d : VDst) (a b : Sel) (s : State) : Out := lane2 d a b (fun e => e.tagOf false [a, b]) (· &&& ·) s
def execOr (d : VDst) (a b : Sel) (s : State) : Out := lane2 d a b (fun e => e.tagOf false [a, b]) (· ||| ·) s
def execXor (d : VDst) (a b : Sel) (s : State) : Out := lane2 d a b (fun e => e.tagOf false [a, b]) (· ^^^ ·) s
def execAndn (d : VDst) (a b : Sel) (s : State) : Out :=
  lane2 d a b (fun e => e.tagOf false [a, b]) (fun x y => x &&& ~~~y) s
def execOrn (d : VDst) (a b : Sel) (s : State) : Out :=
  lane2 d a b (fun e => e.tagOf false [a, b]) (fun x y => x ||| ~~~y) s
def execNot (d : VDst) (a : Sel) (s : State) : Out := lane1 d a (fun e => e.tagNot a) (fun x => ~~~x) s

/-- R211: d[i] is LUT[4·a[i] + 2·b[i] + c[i]]. -/
def lut3 (lut : Byte) (a b c : Word) : Word :=
  (List.range 32).foldl (fun (w : Word) i =>
    let j := 4 * (a.getLsbD i).toNat + 2 * (b.getLsbD i).toNat + (c.getLsbD i).toNat
    if lut.getLsbD j then w ||| (1#32 <<< i) else w) 0

def execLogic3 (d : VDst) (lut : Byte) (a b c : Sel) (s : State) : Out :=
  lane3 d a b c (fun e => e.tagOf false [a, b, c]) (lut3 lut) s

/-- The number of set bits. -/
def popCount (n : Nat) (x : Nat) : Nat := ((List.range n).filter (fun i => x.testBit i)).length

/-- Zero bits above the highest set bit of n bits (R212). -/
def leadZeros (n : Nat) (x : Nat) : Nat := if x = 0 then n else n - 1 - Nat.log2 x

/-- Zero bits below the lowest set bit of 32 (R212). -/
def trailZeros (x : Word) : Nat := ((List.range 32).find? (fun i => x.getLsbD i)).getD 32

/-- R212: bits in the opposite order. -/
def bitReverse (x : Word) : Word :=
  (List.range 32).foldl (fun (w : Word) i => if x.getLsbD (31 - i) then w ||| (1#32 <<< i) else w) 0

def execPopc (d : VDst) (a : Sel) (s : State) : Out :=
  lane1 d a (fun e => e.tagOf false [a]) (fun x => BitVec.ofNat 32 (popCount 32 x.toNat)) s
def execClz (d : VDst) (a : Sel) (s : State) : Out :=
  lane1 d a (fun e => e.tagOf false [a]) (fun x => BitVec.ofNat 32 (leadZeros 32 x.toNat)) s
def execCtz (d : VDst) (a : Sel) (s : State) : Out :=
  lane1 d a (fun e => e.tagOf false [a]) (fun x => BitVec.ofNat 32 (trailZeros x)) s
def execBrev (d : VDst) (a : Sel) (s : State) : Out := lane1 d a (fun e => e.tagOf false [a]) bitReverse s

/-- R213: the field of a at pos of len bits, sign- or zero-extended. -/
def bitExtract (sgn : Bool) (a b c : Word) : Word :=
  let pos := b.toNat % 256
  let len := min (c.toNat % 256) 32
  if len = 0 then 0
  else
    let t : Int := (if sgn then a.toInt else (a.toNat : Int)) / (2 ^ pos : Int)
    let f := (t % (2 ^ len : Int)).toNat
    if sgn && 2 ^ (len - 1) ≤ f then BitVec.ofInt 32 ((f : Int) - 2 ^ len) else BitVec.ofNat 32 f

/-- R213: a's low bits placed in b. -/
def bitInsert (a b c : Word) : Word :=
  let pos := c.toNat % 256
  let len := min (c.toNat / 256 % 256) 32
  let mask := BitVec.ofNat 32 ((2 ^ len - 1) <<< pos)
  (b &&& ~~~mask) ||| (BitVec.ofNat 32 (a.toNat <<< pos) &&& mask)

/-- R214: bytes of b:a chosen by the nibbles of c. -/
def bytePerm (a b c : Word) : Word :=
  let x := pair b a
  let at1 (k : Nat) : Byte :=
    let n := c.extractLsb' (4 * k) 4
    let y := x.extractLsb' (8 * (n.toNat % 8)) 8
    if n.getLsbD 3 then (if y.getLsbD 7 then 0xFF else 0) else y
  at1 3 ++ at1 2 ++ at1 1 ++ at1 0

def execBfx (d : VDst) (t : IType) (a b c : Sel) (s : State) : Out :=
  lane3 d a b c (fun e => e.tagOf false [a, b, c]) (bitExtract (t == .sgn)) s
def execBfi (d : VDst) (a b c : Sel) (s : State) : Out := lane3 d a b c (fun e => e.tagOf false [a, b, c]) bitInsert s
def execBperm (d : VDst) (a b c : Sel) (s : State) : Out := lane3 d a b c (fun e => e.tagOf false [a, b, c]) bytePerm s

/-! Compare and select (R215, R216). -/

def execIcmp (p : BitVec 5) (c : Cond) (t : IType) (a b : Sel) (s : State) : Out :=
  s.within (fun e => s.putP e p (fun k =>
    c.holds (t.value (e.read t.is64 a k).toNat) (t.value (e.read t.is64 b k).toNat)))

def execSel (d : VDst) (a b : Sel) (p : BitVec 5) (s : State) : Out :=
  s.within (fun e => s.putV e d false (fun k => if e.pred p k then e.read false a k else e.read false b k) .g)

/-! Floating point (R217 to R226). -/

def execFadd (d : VDst) (m : FMod) (a b : Sel) (s : State) : Out :=
  laneF d m.ft a b .zero (fun F x y _ => F.add m.rnd.mode m.ftz false x y) [a, b] s
def execFsub (d : VDst) (m : FMod) (a b : Sel) (s : State) : Out :=
  laneF d m.ft a b .zero (fun F x y _ => F.add m.rnd.mode m.ftz true x y) [a, b] s
def execFmul (d : VDst) (m : FMod) (a b : Sel) (s : State) : Out :=
  laneF d m.ft a b .zero (fun F x y _ => F.mul m.rnd.mode m.ftz x y) [a, b] s
def execFfma (d : VDst) (m : FMod) (a b c : Sel) (s : State) : Out :=
  laneF d m.ft a b c (fun F x y z => F.fma m.rnd.mode m.ftz x y z) [a, b, c] s
def execFmin (d : VDst) (t : FType) (ftz : Bool) (a b : Sel) (s : State) : Out :=
  laneF d t a b .zero (fun F x y _ => F.minmax false false ftz x y) [a, b] s
def execFmax (d : VDst) (t : FType) (ftz : Bool) (a b : Sel) (s : State) : Out :=
  laneF d t a b .zero (fun F x y _ => F.minmax true false ftz x y) [a, b] s
def execFminn (d : VDst) (t : FType) (ftz : Bool) (a b : Sel) (s : State) : Out :=
  laneF d t a b .zero (fun F x y _ => F.minmax false true ftz x y) [a, b] s
def execFmaxn (d : VDst) (t : FType) (ftz : Bool) (a b : Sel) (s : State) : Out :=
  laneF d t a b .zero (fun F x y _ => F.minmax true true ftz x y) [a, b] s

/-- R221: the sign bit's weight. -/
def FFmt.top (F : FFmt) : Nat := 2 ^ (F.fbits + F.ebits)

def execFabs (d : VDst) (t : FType) (a : Sel) (s : State) : Out :=
  laneF d t a .zero .zero (fun F x _ _ => (x % F.top, 0)) [a] s
def execFneg (d : VDst) (t : FType) (a : Sel) (s : State) : Out :=
  laneF d t a .zero .zero (fun F x _ _ => ((x + F.top) % (2 * F.top), 0)) [a] s
def execFsgn (d : VDst) (t : FType) (a b : Sel) (s : State) : Out :=
  laneF d t a b .zero (fun F x y _ => (x % F.top + y / F.top % 2 * F.top, 0)) [a, b] s

def execFcmp (p : BitVec 5) (c : FCond) (t : FType) (ftz : Bool) (a b : Sel) (s : State) : Out :=
  s.within (fun e =>
    let f (k : Nat) := t.fmt.cmp c ftz (e.read t.wide a k).toNat (e.read t.wide b k).toNat
    (s.putP e p (fun k => (f k).1)).logSlots e (fun k => (f k).2))

def execFclass (p : BitVec 5) (t : FType) (a b : Sel) (s : State) : Out :=
  s.within (fun e => s.putP e p (fun k => (e.read32 b k).getLsbD (t.fmt.classOf (e.read t.wide a k).toNat)))

def execFround (d : VDst) (m : FMod) (a : Sel) (s : State) : Out :=
  laneF d m.ft a .zero .zero (fun F x _ _ => F.roundInt m.rnd.mode m.ftz x) [a] s

/-- R225: b is one 32-bit register also for `.f64`. -/
def execFscale (d : VDst) (m : FMod) (a b : Sel) (s : State) : Out :=
  s.within (fun e => s.putVX e d m.ft.wide
    (fun k =>
      let r := m.ft.fmt.scale m.rnd.mode m.ftz (e.read m.ft.wide a k).toNat (e.read32 b k).toInt
      (BitVec.ofNat 64 r.1, r.2))
    (tagAll [e.tag m.ft.wide a, e.tag false b]))

/-- R226: one 32-bit register also for `.f64`. -/
def execFexpn (d : VDst) (t : FType) (ftz : Bool) (a : Sel) (s : State) : Out :=
  s.within (fun e => s.putVX e d false
    (fun k => let r := t.fmt.expn ftz (e.read t.wide a k).toNat; (r.1.setWidth 64, r.2)) (e.tagOf t.wide [a]))

def execFmant (d : VDst) (t : FType) (ftz : Bool) (a : Sel) (s : State) : Out :=
  laneF d t a .zero .zero (fun F x _ _ => F.mant ftz x) [a] s

/-! Conversions (R227 to R231). -/

/-- R227: a result placed in its register: signed 8- and 16-bit integers sign-extended, others zero-extended. -/
def placeResult (f : CFmt) (x : Nat) : Dword :=
  match f with
  | .int8 => ((BitVec.ofNat 8 x).signExtend 32).setWidth 64
  | .int16 => ((BitVec.ofNat 16 x).signExtend 32).setWidth 64
  | _ => BitVec.ofNat 64 x

def execCvt (d : VDst) (m : CMod) (a : Sel) (s : State) : Out :=
  s.within (fun e => s.putVX e d m.dst.is64
    (fun k => let r := convert m (e.read m.src.is64 a k).toNat; (placeResult m.dst r.1, r.2)) (e.tagOf m.src.is64 [a]))

/-- R230: the two conversions packed; the byte form keeps the other bytes of D. -/
def packTwo (m : CMod) (part : BitVec 2) (old : Word) (x y : Nat) : Word :=
  if m.dst.width == 16 then BitVec.ofNat 16 y ++ BitVec.ofNat 16 x
  else
    let h : BitVec 16 := BitVec.ofNat 8 y ++ BitVec.ofNat 8 x
    if part == 0 then old.extractLsb' 16 16 ++ h else h ++ old.extractLsb' 0 16

/-- R230: the byte form reads D, which counts as a source (R201). With NW = 1 the D field is ignored (R60), and
the manual does not say what the two kept bytes hold: they are free (log entry 22). -/
def execCvtp (d : VDst) (m : CMod) (part : BitVec 2) (a b : Sel) (s : State) : Out :=
  s.within (fun e =>
    let old (k : Nat) : Word := match d with
      | .v n => e.sp.vword n.toNat k
      | .latch => lo32 (Config.freeWord (s.freeCtr + k))
    let f (k : Nat) :=
      let x := convert m (e.read false a k).toNat
      let y := convert m (e.read false b k).toNat
      ((packTwo m part (old k) x.1 y.1).setWidth 64, x.2 ||| y.2)
    let byte := m.dst.width == 8
    let dt : List Tag := match d with
      | .v n => if byte then [e.sp.vtag n.toNat] else []
      | .latch => if byte then [.g] else []
    let s := if byte && d == .latch then { s with freeCtr := s.freeCtr + 32 } else s
    s.putVX e d false f (tagAll (dt ++ [e.tag false a, e.tag false b])))

def execCvtu (d : VDst) (m : CMod) (part : BitVec 2) (a : Sel) (s : State) : Out :=
  s.within (fun e => s.putVX e d m.dst.is64
    (fun k =>
      let r := convert m ((e.read32 a k).toNat / 2 ^ (m.src.width * part.toNat))
      (placeResult m.dst r.1, r.2)) (e.tagOf false [a]))

/-! Predicates (R232, R233). -/

def execPand (p pa pb : BitVec 5) (s : State) : Out :=
  s.within (fun e => s.putP e p (fun k => e.pred pa k && e.pred pb k))
def execPor (p pa pb : BitVec 5) (s : State) : Out :=
  s.within (fun e => s.putP e p (fun k => e.pred pa k || e.pred pb k))
def execPxor (p pa pb : BitVec 5) (s : State) : Out :=
  s.within (fun e => s.putP e p (fun k => e.pred pa k != e.pred pb k))
def execPnot (p pa : BitVec 5) (s : State) : Out := s.within (fun e => s.putP e p (fun k => !e.pred pa k))

def execPmov (f : PMov) (s : State) : Out :=
  s.within (fun e =>
    match f with
    | .test p a => s.putP e p (fun k => e.read32 a k != 0)
    | .copy p pa => s.putP e p (fun k => e.pred pa k)
    | .get d => s.putV e d false (fun k => ((e.thr k).map (fun (t : Thread) => t.preds.setWidth 64)).getD 0) .g
    | .put a =>
      s.updSp e.b.uid e.sp.m (fun sp =>
        { sp with threads := sp.threads.zipIdx.map (fun x =>
            if e.r.exec.contains x.2 then { x.1 with preds := e.read32 a x.2 } else x.1) }))

/-! Shapes (R234, R235). -/

/-- R234: base and stride that `shape.a` reads from the two lowest executing slots. -/
def Env.shapeA (e : Env) (a : Sel) : Word × Word :=
  let k0 := e.low
  let st := if e.r.exec.contains (k0 + 1) then e.read32 a (k0 + 1) - e.read32 a k0 else 0
  (e.read32 a k0 - BitVec.ofNat 32 k0 * st, st)

def execShape (d : VDst) (t : TagSel) (a : Sel) (s : State) : Out :=
  s.within (fun e =>
    match t with
    | .u => s.putV e d false (fun _ => e.read false a e.low) .u
    | .a =>
      let x := e.shapeA a
      s.putV e d false (fun k => (x.1 + BitVec.ofNat 32 k * x.2).setWidth 64) (affTag x.1 x.2)
    | .g => s.putV e d false (fun k => e.read false a k) .g)

/-- The code of a tag (R51). -/
def Tag.code : Tag → Nat
  | .u => 0
  | .a _ _ => 1
  | .g => 2

def execShapeof (d : VDst) (a : Sel) (s : State) : Out :=
  s.within (fun e => s.putV e d false (fun _ => BitVec.ofNat 64 (e.tag false a).code) .u)

end Sys2Proof.Machine
end

