-- ==== Sys2Proof/Machine/Cross.lean ====
section
/-! DEFINITION. Cross.lean: the cross-slot V-class instructions (R258 to R268). -/

namespace Sys2Proof

/-- The segment size (R258). -/
def Seg.size : Seg → Nat
  | .whole => 32
  | .seg2 => 2
  | .seg4 => 4
  | .seg8 => 8
  | .seg16 => 16

end Sys2Proof

namespace Sys2Proof.Machine

/-- The first slot of a slot's segment (R258). -/
def segBase (g : Seg) (k : Nat) : Nat := k - k % g.size

/-- The executing slots of a slot's segment, ascending. -/
def Env.members (e : Env) (g : Seg) (k : Nat) : List Nat := e.r.exec.filter (fun j => segBase g j == segBase g k)

/-- R261: the source slot of `shfl`, none when out of range. -/
def shflSrc (m : ShMode) (g : Seg) (k : Nat) (b : Word) : Option Nat :=
  let n := b.toNat
  match m with
  | .idx => some (segBase g k + n % g.size)
  | .up => if segBase g k + n ≤ k then some (k - n) else none
  | .down => if k + n < segBase g k + g.size then some (k + n) else none
  | .xor => some (k ^^^ (n % g.size))

/-- R261; U where a is U (R268). -/
def execShfl (d : VDst) (m : ShMode) (wide : Bool) (g : Seg) (a b : Sel) (s : State) : Out :=
  s.within (fun e => s.putV e d wide
    (fun k =>
      match shflSrc m g k (e.read32 b k) with
      | some j => if e.r.exec.contains j then e.read wide a j else e.read wide a k
      | none => e.read wide a k)
    (if e.tag wide a == .u then .u else .g))

/-- R262: the senders to a slot of its segment. -/
def Env.senders (e : Env) (g : Seg) (b : Sel) (k : Nat) : List Nat :=
  (e.members g k).filter (fun j => segBase g j + (e.read32 b j).toNat % g.size == k)

/-- R262: the highest sender wins; a slot that receives nothing keeps its value. In the latch, which has no old
value, such a slot's value is free (log entry 22). -/
def execSpush (d : VDst) (wide : Bool) (g : Seg) (a b : Sel) (s : State) : Out :=
  s.within (fun e =>
    let old (k : Nat) : Dword := match d with
      | .v n => e.read wide (.v n) k
      | .latch => Config.freeWord (s.freeCtr + k)
    let got (k : Nat) : Dword := match (e.senders g b k).getLast? with
      | some j => e.read wide a j
      | none => old k
    let s := if d == .latch then { s with freeCtr := s.freeCtr + 32 } else s
    s.putV e d wide got .g)

/-- R263. -/
def execVote (p : BitVec 5) (m : VoteMode) (g : Seg) (pa : BitVec 5) (s : State) : Out :=
  s.within (fun e => s.putP e p (fun k =>
    let l := (e.members g k).map (e.pred pa)
    match m with
    | .any => l.any (fun x => x)
    | .all => l.all (fun x => x)
    | .uni => l.all (fun x => x) || l.all (fun x => !x)))

/-- A mask of the segment's executing slots that satisfy a test (R263). -/
def Env.maskOf (e : Env) (g : Seg) (k : Nat) (p : Nat → Bool) : Word :=
  (e.members g k).foldl (fun (w : Word) j => if p j then w ||| (1#32 <<< (j - segBase g k)) else w) 0

def execBallot (d : VDst) (g : Seg) (pa : BitVec 5) (s : State) : Out :=
  s.within (fun e => s.putV e d false (fun k => (e.maskOf g k (e.pred pa)).setWidth 64)
    (if g == .whole then .u else .g))

/-- The floating format of an XTYPE (R260). -/
def xFmt (t : XType) : Option FFmt :=
  match t with
  | .f32 => some FFmt.f32
  | .f64 => some FFmt.f64
  | _ => none

/-- R264: equality of keys. -/
def keyEq (t : XType) (x y : Dword) : Bool :=
  match xFmt t with
  | some F =>
    let a := F.decode x.toNat
    let b := F.decode y.toNat
    (a.isNan && b.isNan) || FVal.order a b == some .eq
  | none => x == y

def execMatchSlots (d : VDst) (all : Bool) (t : XType) (g : Seg) (a : Sel) (s : State) : Out :=
  s.within (fun e =>
    let key (k : Nat) := e.read t.is64 a k
    s.putV e d t.is64
      (fun k =>
        let eq (j : Nat) := keyEq t (key j) (key k)
        if all && !(e.members g k).all eq then 0 else (e.maskOf g k eq).setWidth 64)
      (if all && g == .whole then .u else .g))

/-- R265: the exact sum of data, rounded once by RNE. -/
def FFmt.sumAll (F : FFmt) (l : List Nat) : Nat × Exc :=
  let vs := l.map F.decode
  match F.firstNan vs with
  | some n => (n, F.snanExc vs)
  | none =>
    let pos := vs.any (fun v => v == .inf false)
    let neg := vs.any (fun v => v == .inf true)
    if pos && neg then (F.canon, Exc.invalid)
    else if pos || neg then (F.signBit neg + F.infBits, 0)
    else
      let t := vs.foldl (fun (x : Int) v => match v with
        | .fin n m e => x + FVal.scaled n m e F.qmin
        | _ => x) 0
      if t == 0 then (F.signBit (!vs.isEmpty && vs.all (fun v => v.isZero && v.neg)), 0)
      else F.result .rne false false (decide (t < 0)) false t.natAbs F.qmin

/-- An integer of an XTYPE. -/
def xInt (t : XType) (x : Dword) : Int :=
  match t with
  | .sgn => (lo32 x).toInt
  | .uns => (lo32 x).toNat
  | .sgn64 => x.toInt
  | _ => x.toNat

/-- The identities of R266. -/
def redIdentity (op : RedOp) (t : XType) : Dword :=
  match op, xFmt t with
  | .min, some F => BitVec.ofNat 64 F.infBits
  | .max, some F => BitVec.ofNat 64 (F.signBit true + F.infBits)
  | .add, _ | .or, _ | .xor, _ => 0
  | .and, _ => BitVec.allOnes 64
  | .min, none => (match t with
    | .sgn => 0x7FFFFFFF
    | .uns => 0xFFFFFFFF
    | .sgn64 => 0x7FFFFFFFFFFFFFFF
    | _ => BitVec.allOnes 64)
  | .max, none => (match t with
    | .sgn => 0x80000000
    | .sgn64 => 0x8000000000000000
    | _ => 0)

/-- R265: the value formed over values in ascending slot order. -/
def reduceAll (op : RedOp) (t : XType) (l : List Dword) : Dword × Exc :=
  match l with
  | [] => (redIdentity op t, 0)
  | x :: r =>
    match op, xFmt t with
    | .add, some F => let y := F.sumAll (l.map (·.toNat)); (BitVec.ofNat 64 y.1, y.2)
    | .min, some F =>
      let y := r.foldl (fun (a : Nat × Exc) v => let z := F.minmax false false false a.1 v.toNat; (z.1, a.2 ||| z.2))
        (F.minmax false false false x.toNat x.toNat)
      (BitVec.ofNat 64 y.1, y.2)
    | .max, some F =>
      let y := r.foldl (fun (a : Nat × Exc) v => let z := F.minmax true false false a.1 v.toNat; (z.1, a.2 ||| z.2))
        (F.minmax true false false x.toNat x.toNat)
      (BitVec.ofNat 64 y.1, y.2)
    | .add, none => (r.foldl (· + ·) x, 0)
    | .min, none => (r.foldl (fun a v => if xInt t v < xInt t a then v else a) x, 0)
    | .max, none => (r.foldl (fun a v => if xInt t a < xInt t v then v else a) x, 0)
    | .and, _ => (r.foldl (· &&& ·) x, 0)
    | .or, _ => (r.foldl (· ||| ·) x, 0)
    | .xor, _ => (r.foldl (· ^^^ ·) x, 0)

/-- R265; an exception counts as raised by the lowest executing slot of its segment. -/
def execRedux (d : VDst) (op : RedOp) (t : XType) (g : Seg) (a : Sel) (s : State) : Out :=
  s.within (fun e =>
    let f (k : Nat) := reduceAll op t ((e.members g k).map (e.read t.is64 a))
    (s.putV e d t.is64 (fun k => (f k).1) (if g == .whole then .u else .g)).logSlots e
      (fun k => if (e.members g k).head? == some k then (f k).2 else 0))

/-- R266; an exception of slot k's prefix counts as raised by slot k. -/
def execScan (d : VDst) (op : RedOp) (excl : Bool) (t : XType) (g : Seg) (a : Sel) (s : State) : Out :=
  s.within (fun e =>
    let f (k : Nat) := reduceAll op t (((e.members g k).filter (fun j => if excl then j < k else j ≤ k)).map (e.read t.is64 a))
    s.putVX e d t.is64 f .g)

/-- R267. -/
def execNact (d : VDst) (s : State) : Out :=
  s.within (fun e => s.putV e d false (fun _ => BitVec.ofNat 64 e.r.exec.length) .u)

end Sys2Proof.Machine
end

