-- ==== Sys2Proof/Machine/HostPort.lean ====
section
/-! DEFINITION. HostPort.lean: the host's requests to bed memory and to operator windows (R139, R143, R169, R403 to
R405), bias flips (R406, R407), and the snoops and acknowledgements of coherence (R110, R115, R408, R432). -/

namespace Sys2Proof.Machine

/-! Bed memory (R404 to R407). -/

/-- R404: a range lies in the bed memory that an enabled die offers the host. -/
def State.offered (s : State) (pa n : Nat) : Bool :=
  match pclass pa with
  | .bed d => s.diemask.getLsbD d && decide (pa % 0x20_0000_0000 + n ≤ Config.bedBytes - s.boot.fwres)
  | _ => false

/-- A leaf of a walk that maps a physical page: the tables below a base searched for a bed leaf over an address. -/
def mapsBelow (read : Nat → Dword) (pa : Nat) : List (Nat × Nat × Option Nat) → Nat → Bool
  | [], _ => false
  | (_, w, lf) :: rest, base =>
    (List.range (2 ^ w)).any (fun i =>
      let e := read (base + 8 * i)
      if !e.getLsbD 0 then false
      else if e.getLsbD 1 then
        match lf with
        | some k =>
          let t := e.toNat % 2 ^ 52 / 2 ^ 16 * 2 ^ 16
          (e.extractLsb' 8 3 == 0) && decide (t ≤ pa) && decide (pa < t + 2 ^ k)
        | none => false
      else mapsBelow read pa rest (e.toNat % 2 ^ 52 / 2 ^ 8 * 2 ^ 8))

/-- The context that maps a bed page, if one does. -/
def State.mapper (s : State) (pa : Nat) : Option Nat :=
  (s.ctxs.find? (fun c => mapsBelow (dwordAt s.home) pa walkLevels c.desc.root)).map (·.id)

/-- A request turned away (R404, R405). -/
def State.abortHost (s : State) (r : HostReq) : State := { s with out := s.out ++ [OutMsg.hostAbort r] }

/-- HOST_MEM_REQUEST (R404, R405): served under host bias, held behind a flip, or turned away, as every request is before the
firmware has brought up the upstream ports (R409) and in MINIMAL (R412). -/
def execHostMemRequest (r : HostReq) (s : State) : Out :=
  let n := if r.write then r.data.length else r.len
  if !s.boot.upstream || s.boot.state == 7 || n == 0 || !s.offered r.pa n then .next (s.abortHost r)
  else if s.turnedAway r then
    match (s.devicePage r).bind (fun p => s.mapper (4096 * p)) with
    | some c => .next ((s.abortHost r).logError c 0x41 0)
    | none => .next (s.abortHost r)
  else
    let (i, s) := s.fresh
    .next (s.hostGo i r)

/-- A write of BIASCMD (R407). -/
def State.writeBiascmd (s : State) (w : Dword) : State :=
  if s.coh.flips.any (fun f => f.cmd) then s
  else
    let s := { s with coh := { s.coh with biascmd := w &&& 0x400F_FFFF_FFFF_F000 } }
    let pa := w.toNat % 2 ^ 52 / 4096 * 4096
    let page := pa / 4096
    let toHost := w.getLsbD 62
    if !w.getLsbD 0 then s
    else if !s.offered pa 4096 then { s with coh := { s.coh with biasErr := true } }
    else if toHost == s.coh.hostBias.contains page && !s.coh.flips.any (fun f => f.page == page) then s
    else { s with coh := { s.coh with flips := s.coh.flips ++ [{ page := page, toHost := toHost, cmd := true, held := [] }] } }

/-- BIAS_FLIP_COMMAND: a write of BIASCMD with GO set. -/
def execBiasFlipCommand (w : Dword) (s : State) : Out :=
  .next (s.bar (fun t => t.writeBiascmd (w ||| 1)))

/-- FLIP_COMPLETE (R406). -/
def execFlipComplete (page : Nat) (s : State) : Out := .next (s.endFlip page)

/-! Operator windows (R139, R143). -/

/-- A host's request joins slot order, the lower slot first. -/
def State.joinHost (s : State) (o : Operator) (r : HostWinReq) : State :=
  match r.kind with
  | .load off n =>
    (slotPieces o.rstride off n).foldl (fun t p =>
      t.joinLoad o.num p.1 (.hostLoad { r with kind := .load (off + p.2.2.2) p.2.2.1 })) s
  | k => { s.joinKind o k with out := (s.joinKind o k).out ++ [OutMsg.winDone r] }

/-- What the page-table entry of the mapping has to permit. -/
def winPermits (r : HostWinReq) : Bool :=
  match r.kind with
  | .load _ _ => r.permR
  | _ => r.permW

/-- HOST_WINDOW_REQUEST: one that its unit cannot take yet waits there, those that come later behind it (R143, R380). -/
def execHostWindowRequest (r : HostWinReq) (s : State) : Out :=
  match s.operator r.op.toNat with
  | none => .next { s with out := s.out ++ [OutMsg.winAbort r] }
  | some o =>
    if !s.boot.upstream then .next { s with out := s.out ++ [OutMsg.winAbort r] }
    else if !(winPermits r && o.bound && o.mayDo (.host r.pasid) r.kind && o.fits r.kind) then .next (s.refuseHost o.owner r)
    else
      let wait (s : State) : State := s.updOp o.num (fun o => { o with waiting := o.waiting ++ [.event (.hostWindowRequest r)] })
      match (if o.resident && o.waiting.isEmpty then s.serve o.unit o.owner else none) with
      | some t => .next (t.joinHost o r)
      | none => .next (wait (if o.resident then s.stopUnit o.unit o.owner else s))

/-! Snoops and acknowledgements. -/

/-- HOST_CXL_CACHE_SNOOP (R110, R115, R403): the host takes or reads a host line; a host store's bytes land with it. -/
def execHostCxlCacheSnoop (line : Nat) (data : Option (List Byte)) (inv : Bool) (s : State) : Out :=
  match pclass (128 * line) with
  | .host =>
    let s := s.giveLine line
    match data with
    | some d => .next ((s.commit (128 * line) (d.take 128)).dropL1 line)
    | none => .next (if inv then s.dropL1 line else s)
  | _ => .next s

/-- The host gives up its copy of a bed line; a modified one was written at the home when it became visible (R403, R405). -/
def State.hostEvict (s : State) (line : Nat) : State :=
  { s with coh := { s.coh with hostLines := s.coh.hostLines.filter (fun x => x.1 != line) } }

/-- Another host or part writes a line of an HDM-H region: the device holds it, and only `.sys` accesses see it (R408). -/
def State.foreignWrite (s : State) (line : Nat) (data : List Byte) : State :=
  if s.hdmH line && data.length == 128 then
    let s := s.overDevice line
    { s with coh := { s.coh with device := (line, data) :: s.coh.device } }
  else s

/-- The part's caches give up an HDM-H line; its next reader takes it from the device. -/
def State.stockDrop (s : State) (line : Nat) : State :=
  if s.hdmH line then ((s.giveLine line).dropL1 line).refresh line else s

/-- DOWNSTREAM_BACK_INVALIDATE (R408): an HDM-DB device takes a stock line, whose new bytes another agent has written. -/
def execDownstreamBackInvalidate (line : Nat) (data : Option (List Byte)) (s : State) : Out :=
  match pclass (128 * line) with
  | .stock _ =>
    if s.hdmH line then .next s
    else
      let s := (s.giveLine line).dropL1 line
      .next ((data.map (fun d => s.commit (128 * line) (d.take 128))).getD s)
  | _ => .next s

/-- DIRECTORY_ACKNOWLEDGEMENT (R115, R432): the stores that a die performed on a line become visible everywhere. -/
def execDirectoryAcknowledgement (die line : Nat) (s : State) : Out :=
  .next (s.ack (fun p => p.die == die && lineOf p.pa == line))

end Sys2Proof.Machine
end

