-- ==== Sys2Proof/Machine/Startup.lean ====
section
/-! DEFINITION. Startup.lean: reset and the boot ROM (R409 to R413, R416, R434), the failures of the firmware (R411,
R412), loss of power (R126, R412) and the mailbox with its attestation (R415, R417). -/

namespace Sys2Proof.Machine

/-! Reset. -/

/-- The lines that outlive a reset or a loss of power written out whole, so that they hold the same bytes after it (R126);
first those that another agent has written at an HDM-H device (R408). -/
def State.settleLines (s : State) : State :=
  let s := (s.coh.device.map (·.1)).foldl State.refresh s
  s.kept.foldl (fun t l => { t with mem := Memory.setMany t.mem (128 * l) (bytesAt s.home (128 * l) 128) }) s

/-- The part after a reset (R409, R412, R434): every register at its reset value, BOOTFAIL retained, memory unpredictable
but for the lines of persistence domains (R126). The model's own fields, the device number, what the ROM will find and what
has left the part stand as they are. -/
def State.afterReset (s : State) (fails : Nat) (reason : Byte) : State :=
  let s := s.settleLines
  { State.reset with
    agenda := s.agenda, paceNs := s.paceNs, paceClk := s.paceClk, freeCtr := s.freeCtr, nextId := s.nextId, turn := s.turn, epoch := s.epoch + 1
    mem := Memory.drop s.mem (fun a => !s.kept.contains (lineOf a)), durable := s.durable.filter (fun d => s.kept.contains d.1), writes := s.writes, kept := s.kept
    fabric := { Fabric.reset with device := s.fabric.device }, boot := { Boot.reset fails reason with inp := s.boot.inp }, out := s.out }

/-- A failure records its reason and resets the part, whose ROM runs again; one after RUNNING counts toward the limit (R412).
DESIGN CHOICE, log entry 45. -/
def State.bootFail (s : State) (reason : Byte) : State :=
  s.afterReset (if s.boot.state == 6 then min 3 (s.boot.fails + 1) else s.boot.fails) reason

/-! The boot ROM. -/

/-- The ASCII bytes of a string. -/
def ascii (x : List Nat) : List Byte := x.map (BitVec.ofNat 8)
/-- "NYMLON-DIK" -/
def dikName : List Byte := ascii [0x4E, 0x59, 0x4D, 0x4C, 0x4F, 0x4E, 0x2D, 0x44, 0x49, 0x4B]
/-- "NYMLON-ALIAS" -/
def aliasName : List Byte := ascii [0x4E, 0x59, 0x4D, 0x4C, 0x4F, 0x4E, 0x2D, 0x41, 0x4C, 0x49, 0x41, 0x53]

/-- The first 32 bytes of a digest. -/
def half512 (d : BitVec 512) : BitVec 256 := d.extractLsb' 0 256

/-- The private seed of the device identity key (R416). -/
def identitySeed (puf : BitVec 256) : BitVec 256 := half512 (Config.sha512 (dikName ++ leBytes 32 puf.toNat))

/-- The private seed of the alias key. -/
def aliasSeedOf (puf : BitVec 256) (m0 m1 : BitVec 512) : BitVec 256 :=
  half512 (Config.sha512 (aliasName ++ leBytes 32 puf.toNat ++ leBytes 64 m0.toNat ++ leBytes 64 m1.toNat))

/-- R410: the descriptor's own fields. The image holds its entry and its page digest table. -/
def bootDescOk (d : List Byte) : Bool :=
  let len := bitsOf d 128 64
  bitsOf d 0 32 == 0x454E_4144 && bitsOf d 32 16 == 1 && bitsOf d 320 704 == 0 && bitsOf d 256 64 % 4 == 0 &&
  len % 4096 == 0 && decide (len ≤ 256 * 2 ^ 20) && bitsOf d 64 64 % 4096 == 0 &&
  decide (bitsOf d 256 64 < len) && decide (bitsOf d 192 64 + 64 * (len / 4096) ≤ len)

/-- The descriptor and the image that a boot region holds. -/
def bootDesc (b : BootIn) : List Byte := b.region.take 256
def bootImage (b : BootIn) : List Byte := (b.region.drop (bitsOf (bootDesc b) 64 64)).take (bitsOf (bootDesc b) 128 64)

/-- The page digest table of an image (R411). -/
def pageTable (image : List Byte) (off : Nat) : List (BitVec 512) :=
  (List.range (image.length / 4096)).map (fun i => BitVec.ofNat 512 (leNat ((image.drop (off + 64 * i)).take 64)))

/-- Where the boot region stands in physical memory (R402, R416). -/
def bootPlace (b : BootIn) : Nat := 0x4_0000_0000_0000 + b.record.bootPort * 0x800_0000_0000 + b.record.regionAt

/-- IDENTITY (R409, R416): the EEPROM, the PUF seed and the device identity key. -/
def State.bootIdentity (s : State) (b : BootIn) : State :=
  if !b.eepromOk then s.bootFail 0x01
  else
    match b.pufSeed with
    | none => s.bootFail 0x02
    | some puf => { s with boot := { s.boot with state := 2, puf := some puf, idPub := Config.ed25519Public (identitySeed puf) } }

/-- CONFIG (R14, R404, R416): the configuration record, bound to the identity key, sets DIEMASK and the firmware region. -/
def State.bootConfig (s : State) (b : BootIn) : State :=
  if !Config.recordVerifies b.recSig (Config.recordBytes b.record) then s.bootFail 0x03
  else if b.record.key != s.boot.idPub then s.bootFail 0x04
  else { s with diemask := b.record.diemask, boot := { s.boot with state := 3, fwres := b.record.fwres } }

/-- FETCH (R410, R411): the boot region that the record names, and its descriptor. The region is memory behind its port. -/
def State.bootFetch (s : State) (b : BootIn) : State :=
  if !b.portUp || b.region.length < 256 then s.bootFail 0x05
  else if !bootDescOk (bootDesc b) then s.bootFail 0x06
  else { s with mem := Memory.setMany s.mem (bootPlace b) b.region
                boot := { s.boot with state := 4, region := some ((bootPlace b), b.region.length) } }

/-- VERIFY (R410, R411, R413, R416): the image, the signature and the version; the measurements and the alias key. The seed
is erased as FIRMWARE begins. -/
def State.bootVerify (s : State) (b : BootIn) : State :=
  let img := bootImage b
  let dig := Config.sha512 img
  let puf := s.boot.puf.getD 0
  if img.length != bitsOf (bootDesc b) 128 64 || BitVec.ofNat 512 (bitsOf (bootDesc b) 1024 512) != dig then s.bootFail 0x07
  else if !Config.romKeyVerifies (BitVec.ofNat 512 (bitsOf (bootDesc b) 1536 512)) ((bootDesc b).take 192) then s.bootFail 0x08
  else if bitsOf (bootDesc b) 48 16 < b.record.minsvn.toNat then s.bootFail 0x09
  else
    let m := ((s.boot.extend 0 (leBytes 64 (Config.sha512 ((bootDesc b).take 192)).toNat)).extend 0 (leBytes 64 dig.toNat)).extend 1
      (leBytes 64 (Config.sha512 (Config.recordBytes b.record)).toNat)
    let al := aliasSeedOf puf ((m.meas[0]?).getD 0) ((m.meas[1]?).getD 0)
    { s with boot := { m with
        state := 5, aliasSeed := al, aliasSig := Config.ed25519Sign (identitySeed puf) (leBytes 32 (Config.ed25519Public al).toNat)
        puf := none, fwStart := s.devtime, fwRunning := s.dies, pageDigests := pageTable img (bitsOf (bootDesc b) 192 64) } }

/-- FIRMWARE (R10, R409): the spare cores are mapped, bed memory is trained and the upstream ports are brought up. -/
def State.bootTrain (s : State) (b : BootIn) : State :=
  if s.boot.trained then s
  else if !b.bedOk then s.bootFail 0x0C
  else { s with boot := { s.boot with trained := true, upstream := true, coreMap := b.record.coreMap } }

/-- The boot ROM, or the firmware as it starts, does the work of the state that BOOTSTAT shows (R409): in ROM it counts the
attempt, or enters MINIMAL (R412). -/
def execBootStep (s : State) : Out :=
  match s.boot.inp with
  | none => .next s
  | some b =>
    .next (match s.boot.state.toNat with
      | 0 => { s with boot := if s.boot.fails == 3 then { s.boot with state := 7 } else { s.boot with state := 1, fails := s.boot.fails + 1 } }
      | 1 => s.bootIdentity b
      | 2 => s.bootConfig b
      | 3 => s.bootFetch b
      | 4 => s.bootVerify b
      | 5 => s.bootTrain b
      | _ => s)

/-- The boot has work of its own to do. -/
def State.booting (s : State) : Bool :=
  s.boot.inp.isSome && (decide (s.boot.state.toNat < 5) || (s.boot.state == 5 && !s.boot.trained))

/-- RESET (R409, R412): the part is reset, and the boot ROM runs on what it finds. DESIGN CHOICE, log entry 45. -/
def execReset (b : BootIn) (s : State) : Out :=
  let s := s.afterReset s.boot.fails s.boot.reason
  .next { s with boot := { s.boot with inp := some b } }

/-- The firmware extends one of the registers that its documentation assigns (R413). -/
def State.extendBy (s : State) (n : Nat) (d : List Byte) : State :=
  if s.firmware && decide (3 ≤ n) && decide (n ≤ 7) then { s with boot := s.boot.extend n d } else s

/-- The stock memory of all ports together is at most 4,096 GB, and a port's window has 8 TiB (R402, R408). -/
def stockLimit : Nat := 4096 * 10 ^ 9
def portWindow : Nat := 0x800_0000_0000

/-- The firmware enumerates a device of stock memory and places it in its port's window (R408). -/
def State.enumerate (s : State) (d : StockDev) : State :=
  let apart (x : StockDev) : Bool := x.port != d.port || decide (x.base + x.size ≤ d.base) || decide (d.base + d.size ≤ x.base)
  if s.firmware && decide (d.port < 8) && decide (d.base + d.size ≤ portWindow) && s.stock.all apart &&
      decide ((s.stock.map (·.size)).sum + d.size ≤ stockLimit) && !s.health.downPorts.contains d.port then
    { s with stock := s.stock ++ [d] }
  else s

/-- BOOTOK (R412): the firmware has started. -/
def execBootok (s : State) : Out :=
  .next (if s.boot.state == 5 && s.boot.trained then { s with boot := { s.boot with state := 6, fails := 0 } } else s)

/-- 60 s in ns. -/
def bootokLimit : Nat := 60000000000

/-- BOOTOK_TIMEOUT. -/
def execBootokTimeout (s : State) : Out :=
  .next (if s.boot.state == 5 && decide (s.boot.fwStart + bootokLimit ≤ s.devtime) then s.bootFail 0x0B else s)

/-- CODE_PAGE_FILL (R411): a page of the image is checked against its digest on every fill. -/
def execCodePageFill (page : Nat) (digest : BitVec 512) (s : State) : Out :=
  match s.boot.pageDigests[page]? with
  | none => .next s
  | some d => .next (if (s.boot.state == 5 || s.boot.state == 6) && d != digest then s.bootFail 0x0A else s)

/-- FIRMWARE_CORE_STOP (R412). -/
def execFirmwareCoreStop (die : Nat) (s : State) : Out :=
  if !s.boot.fwRunning.contains die then .next s
  else if s.boot.state == 6 then .next (s.bootFail 0x0D)
  else .next { s with boot := { s.boot with fwRunning := s.boot.fwRunning.filter (· != die) } }

/-- RETRY (R412): BOOTCTL written with RETRY, in MINIMAL. -/
def execRetry (s : State) : Out := .next (if s.boot.state == 7 then s.afterReset 0 0 else s)

/-- BOOTCTL written through the DVSEC (R412). -/
def execWriteBootctl (w : Dword) (s : State) : Out := if w.getLsbD 0 then execRetry s else .next s

/-- BOOTSTAT read through the DVSEC or the management port, in every boot state (R412). -/
def execReadBootstat (s : State) : Out := .next { s with out := s.out ++ [OutMsg.bootstat (s.reg 0x30_0100)] }

/-- STANDBY_POWER_LOSS (R412). -/
def execStandbyPowerLoss (s : State) : Out := .next { s with boot := { s.boot with fails := 0, reason := 0 } }

/-! Loss of power (R126). -/

/-- A line reverts to its n-th earlier value since its last persist, the newest counted first.
DEDUCED, log entry 43. -/
def State.revert (s : State) (x : Nat × Nat) : State :=
  match (s.durable.filter (fun d => d.1 == x.1))[x.2]? with
  | some d => { s with mem := Memory.setMany s.mem (128 * x.1) d.2.2 }
  | none => s

/-- POWER_LOSS: stores that were performed may be lost, line by line. A reset brings the part back. -/
def execPowerLoss (reverts : List (Nat × Nat)) (s : State) : Out :=
  let t := reverts.foldl State.revert (s.ack (fun _ => true))
  .next { t with powered := false, run := Run.idle, runs := [] }

/-! The mailbox (R415). -/

/-- Messages that a ring holds. -/
def Mail.size (m : Mail) : Nat := 2 ^ (m.log2n + 4)

/-- The place of message k of ring TH, and of ring TD, in physical memory. -/
def Mail.thAt (m : Mail) (k : Nat) : Nat := 0x8_0000_0000_0000 + m.base.toNat + 64 * (k % m.size)
def Mail.tdAt (m : Mail) (k : Nat) : Nat := 0x8_0000_0000_0000 + m.base.toNat + 64 * m.size + 64 * (k % m.size)

/-- Space on TH. -/
def Mail.room (m : Mail) : Bool := decide ((m.thprod - m.thcons).toNat < m.size)

/-- A message. -/
def mailBytes (typ status tag : Nat) (ctx addr detail : Dword) : List Byte :=
  leBytes 4 (typ % 256 + status * 256) ++ leBytes 4 tag ++ leBytes 8 ctx.toNat ++ leBytes 8 addr.toNat ++ leBytes 8 detail.toNat ++
  List.replicate 32 0

/-- A message written to TH; its count raises MSI-X vector 0. -/
def State.sendTh (s : State) (d : List Byte) : State :=
  let t := s.engineStore (s.mail.thAt s.mail.thprod.toNat) d
  { t with mail := { t.mail with thprod := t.mail.thprod + 1 }, out := t.out ++ [OutMsg.msix] }

/-- FAULT: a service that is not yet forwarded, of a core, or of the headstock (core 0x100). -/
def execFault (core : Nat) (s : State) : Out :=
  match s.services.find? (fun v => v.core == core && !v.sent) with
  | none => .next s
  | some v =>
    if !s.mail.room || !s.firmware then .next s
    else
      let s := { s with services := s.services.map (fun (x : Service) => if x.tag == v.tag then { x with sent := true } else x) }
      .next (s.sendTh (mailBytes 1 0 v.tag (BitVec.ofNat 64 v.ctx) v.va (BitVec.ofNat 64 (v.write.toNat + 2 * v.fetch.toNat))))

/-- The message at the head of TD, which the firmware takes (R414). -/
def State.tdHead (s : State) : Option (List Byte × State) :=
  if s.mail.tdprod == s.mail.tdcons || !s.firmware then none else some (s.engineLoad none (s.mail.tdAt s.mail.tdcons.toNat) 64)

/-- It is consumed. -/
def State.tdDone (s : State) : State := { s with mail := { s.mail with tdcons := s.mail.tdcons + 1 } }

/-- FAULT_REPLY: 0x81 with RETRY or REJECT. DEDUCED, log entry 47. -/
def execFaultReply (s : State) : Out :=
  match s.tdHead with
  | none => .next s
  | some (d, t) =>
    if bitsOf d 0 8 != 0x81 then .next s
    else
      let t := t.tdDone
      match t.services.find? (fun v => v.sent && v.tag % 2 ^ 32 == bitsOf d 32 32) with
      | some v => .next (t.endService v (bitsOf d 8 8 == 0))
      | none => .next t

/-- The attestation report up to its signature (R417). -/
def State.reportBody (s : State) (nonce : List Byte) : List Byte :=
  nonce ++ leBytes 8 Config.archrev.toNat ++ leBytes 8 Config.sfrev.toNat ++ leBytes 8 s.pkgcfg.toNat ++
  leBytes 8 (s.reg 0x30_0100).toNat ++ s.boot.meas.flatMap (fun m => leBytes 64 m.toNat) ++
  leBytes 32 (Config.ed25519Public s.boot.aliasSeed).toNat

/-- The certificates that follow it. -/
def State.certs (s : State) : List Byte :=
  Config.aliasCert (Config.ed25519Public s.boot.aliasSeed) s.boot.idPub s.boot.aliasSig ++ Config.identityCert s.boot.idPub

/-- ATTEST (R415, R417): the report is written in host memory, with status 0 on TH, or 1 where the address lies outside
it. DEDUCED, log entry 46. -/
def execAttest (s : State) : Out :=
  match s.tdHead with
  | none => .next s
  | some (d, t) =>
    if bitsOf d 0 8 != 2 || !t.mail.room then .next s
    else
      let t := t.tdDone
      let a := bitsOf d 128 64
      let tag := bitsOf d 32 32
      let body := t.reportBody ((d.drop 32).take 32)
      let sig := leBytes 64 (Config.ed25519Sign t.boot.aliasSeed body).toNat
      let cs := t.certs
      if a + 0x300 + cs.length ≤ 0x4_0000_0000_0000 then
        let u := (t.engineStore (0x8_0000_0000_0000 + a) (body ++ sig)).engineStore (0x8_0000_0000_0300 + a) cs
        .next (u.sendTh (mailBytes 0x82 0 tag 0 0 0))
      else .next (t.sendTh (mailBytes 0x82 1 tag 0 0 0))

/-- UNKNOWN_TD_MESSAGE: any other type is answered with 0xFF. -/
def execUnknownTdMessage (s : State) : Out :=
  match s.tdHead with
  | none => .next s
  | some (d, t) =>
    let typ := bitsOf d 0 8
    if typ == 0x81 || typ == 2 || !t.mail.room then .next s
    else .next (t.tdDone.sendTh (mailBytes 0xFF 0 (bitsOf d 32 32) 0 0 0))

/-- CORE_FAILED: a message that a core's failure left due (R400). DESIGN CHOICE, log entry 48. -/
def execCoreFailed (core : Nat) (s : State) : Out :=
  if s.mail.failedDue.contains core && s.mail.room && s.firmware then
    .next ({ s with mail := { s.mail with failedDue := s.mail.failedDue.erase core } }.sendTh
      (mailBytes 3 0 0 0 0 (BitVec.ofNat 64 core)))
  else .next s

/-- UNCORR: a message that an entry of the error map left due (R399). -/
def execUncorr (line : Nat) (s : State) : Out :=
  if s.mail.uncorrDue.contains line && s.mail.room && s.firmware then
    .next ({ s with mail := { s.mail with uncorrDue := s.mail.uncorrDue.erase line } }.sendTh
      (mailBytes 4 0 0 0 (BitVec.ofNat 64 (128 * line)) 0))
  else .next s

/-- TDPROD and THCONS: writes of their halves of FWMIDX. -/
def execTdprod (v : BitVec 16) (s : State) : Out := .next (s.bar (fun s => { s with mail := { s.mail with tdprod := v } }))
def execThcons (v : BitVec 16) (s : State) : Out := .next (s.bar (fun s => { s with mail := { s.mail with thcons := v } }))

end Sys2Proof.Machine
end

