-- ==== Sys2Proof/Machine/Fleet.lean ====
section
/-! DEFINITION. Fleet.lean: the discipline of DEVTIME (R418 to R421), the fabric's planes (R166, R167), power, cooling and
health (R399, R400, R408, R428 to R431). -/

namespace Sys2Proof.Machine

/-! DEVTIME (R419 to R421). -/

/-- A signed 32-bit figure, saturating. -/
def sat32 (x : Int) : Int := max (-(2 ^ 31 : Int)) (min (2 ^ 31 - 1) x)

/-- DEVTIME moved by a signed amount. DESIGN CHOICE, log entry 54. -/
def State.moveTime (s : State) (d : Int) : State := { s with devtime := ((s.devtime : Int) + d).toNat }

/-- LOCKED gives way to HOLDOVER, with a record 0x86. DESIGN CHOICE, log entry 26. -/
def State.holdover (s : State) : State :=
  if s.ptp.st == .locked then ({ s with ptp := { s.ptp with st := .holdover, good := 0 } }).logPart 0x86 0 else s

/-- SYNC (R420, R421): a valid Sync whose measured offset is DEVTIME − master time, from a master of a traceable class or not:
LOCKED gives way where that class has changed to a non-traceable one. The first lock after reset, before
any launch has been accepted, steps DEVTIME. DEDUCED, log entry 50. -/
def execSync (offset : Int) (traceable : Bool) (s : State) : Out :=
  let p := s.ptp
  if !p.en then .next s
  else
    let s := { s with ptp := { p with offset := sat32 offset, trace := traceable } }
    match p.st with
    | .freerun =>
      let s := { s with ptp := { s.ptp with st := .locking, good := 0 } }
      if p.first && !s.sched.accepted then .next ({ s with ptp := { s.ptp with first := false } }.moveTime (-offset)) else .next s
    | .locking =>
      let good := if offset.natAbs < 100 then p.good + 1 else 0
      .next { s with ptp := { s.ptp with good := good, st := if 16 ≤ good then .locked else .locking
                                         first := if 16 ≤ good then false else p.first } }
    | .locked => .next (if traceable || !p.trace then s else s.holdover)
    | .holdover => .next (if traceable then { s with ptp := { s.ptp with st := .locking, good := 0 } } else s)

/-- SYNC_TIMEOUT and CLOCKCLASS_CHANGE (R420). -/
def execSyncTimeout (s : State) : Out := .next s.holdover
def execClockclassChange (s : State) : Out := .next ({ s with ptp := { s.ptp with trace := false } }).holdover

/-- ANNOUNCE (R418): the master's currentUtcOffset is reported, never applied. -/
def execAnnounce (utcOffset : Int) (s : State) : Out :=
  .next { s with ptp := { s.ptp with utcOff := utcOffset }, out := s.out ++ [OutMsg.utcOffset utcOffset] }

/-- A STEP (R421): refused while a launch has been accepted and not ended; a rejected one was not accepted (R373). -/
def State.stepTime (s : State) : State :=
  if s.launches.any (fun l => !l.ended && !l.rejected) then { s with ptp := { s.ptp with stepref := true } } else s.moveTime s.ptp.adj.toInt

/-- STEP: TIMECTL written with STEP set. -/
def execStepTime (s : State) : Out := .next (s.bar State.stepTime)

/-- A write of TIMECTL (R419). -/
def State.writeTimectl (s : State) (w : Dword) : State :=
  let slew := w.extractLsb' 16 16
  if slew.toNat < 1 || 500 < slew.toNat then s
  else
    let en := w.getLsbD 0
    let p := s.ptp
    let s := { s with ptp := { p with
      slewmax := slew, domnum := w.extractLsb' 8 8, delay := w.getLsbD 2, en := en
      st := if en then p.st else .freerun, good := if en then p.good else 0 } }
    if w.getLsbD 3 then s.stepTime else s

/-- SERVO_ENABLE and SERVO_DISABLE: writes of TIMECTL that change EN. -/
def execServoEnable (w : Dword) (s : State) : Out :=
  .next (s.bar (fun s => if !s.ptp.en && w.getLsbD 0 then s.writeTimectl w else s))
def execServoDisable (w : Dword) (s : State) : Out :=
  .next (s.bar (fun s => if s.ptp.en && !w.getLsbD 0 then s.writeTimectl w else s))

/-! Planes (R166, R167). -/

/-- A write of an entry of the plane map: a remap, after which requests that waited may leave (R166). -/
def State.writePlane (s : State) (i : Nat) (w : Dword) : State :=
  let p := (w.extractLsb' 0 4).toNat
  if 12 ≤ p then s
  else ({ s with fabric := { s.fabric with planes := s.fabric.planes.set i (p, !s.fabric.dead.contains p) } }).flushHeld

/-- PLANEMAP_WRITE. -/
def execPlanemapWrite (i : Nat) (w : Dword) (s : State) : Out := .next (s.bar (fun s => s.writePlane i w))

/-- Entries that name a plane rewritten to the live planes in turn, in ascending entry order. -/
def remap (p : Nat) (live : List Nat) : Nat → List (Nat × Bool) → List (Nat × Bool)
  | _, [] => []
  | n, x :: r =>
    if x.1 == p then
      match live[n % live.length]? with
      | some q => (q, true) :: remap p live (n + 1) r
      | none => (p, false) :: remap p live n r
    else x :: remap p live n r

/-- PLANE_DEATH. DESIGN CHOICE, log entry 53. -/
def execPlaneDeath (p : Nat) (s : State) : Out :=
  if 12 ≤ p || s.fabric.dead.contains p then .next s
  else
    let dead := p :: s.fabric.dead
    let live := (List.range 12).filter (fun q => !dead.contains q)
    .next ((({ s with fabric := { s.fabric with dead := dead, planes := remap p live 0 s.fabric.planes } }).flushHeld).logPart 0x83
      (BitVec.ofNat 64 p))

/-! Health. -/

/-- An operator holds rows in the chucks of some cores of its gang (R130). -/
def Operator.rowsOn (o : Operator) (p : Nat → Bool) : Bool :=
  (List.range Config.gangCores).any (fun c => p (Config.gangCores * (o.num / 64) + c) && decide (0 < shareRows o.rows c))

/-- Every context with state on some cores halts, with cause 0x0C (R400, R431). A gang's merge slots are in no core: they
are lost when every core of their gang is, with its die (R9). -/
def State.failCores (s : State) (p : Nat → Bool) : State :=
  let hit (n : Nat) : Bool :=
    s.blocks.any (fun b => b.ctx == n && !b.evicted && p b.core) || s.ops.any (fun o => o.ctx == n && p o.core) ||
    s.operators.any (fun o => o.owner == n && o.resident && o.rowsOn p) ||
    s.mslots.any (fun m => m.ctx == n && (gangCoresOf m.gang).all p)
  ((s.ctxs.map (·.id)).filter hit).foldl (fun t n => t.haltCtx n .coreFailed) s

/-- CORE_FAILURE (R400): the core leaves scheduling, with a record 0x82 and a message to the host. -/
def execCoreFailure (core : Nat) (s : State) : Out :=
  if s.userCores ≤ core || s.health.deadCores.contains core then .next s
  else
    let s := s.failCores (· == core)
    let s := { s with health := { s.health with deadCores := core :: s.health.deadCores }
                      mail := { s.mail with failedDue := s.mail.failedDue ++ [core] } }
    .next (s.logPart 0x82 (BitVec.ofNat 64 core))

/-- THERMAL_TRIP (R431): a physical die leaves scheduling, with a record 0x85. -/
def execThermalTrip (die : Nat) (s : State) : Out :=
  match s.dies.findIdx? (fun d => d == die) with
  | none => .next s
  | some n =>
    if s.health.deadDies.contains n then .next s
    else
      let s := s.failCores (fun c => dieOf c == n)
      let s := { s with health := { s.health with deadDies := n :: s.health.deadDies, trip := true } }
      .next (s.logPart 0x85 (BitVec.ofNat 64 die))

/-- CLOCK_THROTTLE (R431): 1,200 to 3,600 MHz in steps of 100; leaving 3,600 logs 0x84. -/
def execClockThrottle (mhz : Nat) (s : State) : Out :=
  if mhz < 1200 || 3600 < mhz || mhz % 100 != 0 then .next s
  else
    let t := { s with health := { s.health with mhz := BitVec.ofNat 16 mhz } }
    if s.health.mhz == 3600 && mhz != 3600 then
      let (v, t) := t.free
      .next (t.logPart 0x84 v)
    else .next t

/-- The lines of a class in the error map. -/
def State.mapped (s : State) (c : PClass) : Nat := (s.health.errMap.filter (fun l => pclass (128 * l) == c)).length

/-- UNCORRECTABLE_ERROR (R399, R429): the line is met as uncorrectable from now on; the map's 4,096 lines per die are
recorded and reported, one that finds the map full is not. -/
def execUncorrectableError (line : Nat) (s : State) : Out :=
  if s.health.errMap.contains line then .next s
  else
    let room := decide (s.mapped (pclass (128 * line)) < 4096)
    let rest := s.health.lostErrs.filter (· != line)
    let s := if room then { s with health := { s.health with errMap := s.health.errMap ++ [line], lostErrs := rest } }
      else { s with health := { s.health with lostErrs := rest ++ [line] } }
    if room then
      .next (({ s with mail := { s.mail with uncorrDue := s.mail.uncorrDue ++ [line] } }).logPart 0x81 (BitVec.ofNat 64 (128 * line)))
    else .next s

/-- CORRECTED_ERROR (R399). -/
def execCorrectedError (line : Nat) (s : State) : Out :=
  .next (({ s with health := { s.health with corrected := s.health.corrected + 1 } }).logPart 0x80 (BitVec.ofNat 64 (128 * line)))

/-- LINK_DOWN (R408). -/
def execLinkDown (port : Nat) (s : State) : Out :=
  if 8 ≤ port || s.health.downPorts.contains port then .next s
  else .next { s with health := { s.health with downPorts := port :: s.health.downPorts } }

/-- A write of RETIRE (R428, R429): with GO, a bed frame's lines leave the error map and read as unpredictable values. -/
def State.writeRetire (s : State) (w : Dword) : State :=
  let fr := (w.extractLsb' 16 36).toNat
  let s := { s with health := { s.health with retireReg := w &&& 0x000F_FFFF_FFFF_0000 } }
  match pclass (0x10000 * fr) with
  | .bed _ =>
    if w.getLsbD 0 then
      { s with health := { s.health with
          errMap := s.health.errMap.filter (fun l => l / 512 != fr)
          lostErrs := s.health.lostErrs.filter (fun l => l / 512 != fr)
          unmapped := if s.health.unmapped.contains fr then s.health.unmapped else fr :: s.health.unmapped } }
    else s
  | _ => s

/-- RETIRE: the register written with GO. -/
def execRetire (w : Dword) (s : State) : Out := .next (s.bar (fun s => s.writeRetire (w ||| 1)))

end Sys2Proof.Machine
end

