-- ==== Sys2Proof/Machine/Registers.lean ====
section
/-! DEFINITION. Registers.lean: writes to the register BAR (R114, R362, R376 to R379, R383, R386, R407, R412, R415, R419,
R428, R430). -/

namespace Sys2Proof.Machine

/-- The W1C fields of the register at an offset. -/
def w1cBits (off : Nat) : Dword :=
  if 0x20_0000 ≤ off && off < 0x21_0000 then
    (match off % 64 / 8 with
      | 1 => 0x40
      | 4 => 0x4
      | _ => 0)
  else if off == 0x30_0008 then 1
  else if off == 0x30_0410 then 0x80
  else 0

/-- A write of a register of a queue's block. -/
def State.writeQueueReg (s : State) (n k : Nat) (v : Dword) : State :=
  match k with
  | 0 => s.writeQbase n v
  | 1 => s.writeQctl n v
  | 2 => s.writeQtail n v
  | 4 => if v.getLsbD 2 then s.updQueue n (fun q => { q with tailerr := false }) else s
  | 5 => s.writeQpmir n v
  | _ => s

/-- The state an event leaves; every event of the table answers one. -/
def after (s : State) (o : Out) : State :=
  match o with
  | .next t => t
  | _ => s

/-- A write of CTXCMD (R383). DESIGN CHOICE, log entry 36. -/
def State.writeCtxcmd (s : State) (v : Dword) : State :=
  let n := (v.extractLsb' 16 12).toNat
  match (v.extractLsb' 0 4).toNat with
  | 1 => after s (execDefine n s)
  | 2 => after s (execReload n s)
  | 3 => after s (execHalt n s)
  | 4 => after s (execResume n s)
  | 5 => after s (execDestroy n s)
  | _ => s.command n (fun t => t)

/-- A write of a whole register, in the order of the offsets. -/
def State.writeReg (s : State) (off : Nat) (v : Dword) : State :=
  let n := v.toNat
  if 0x20_0000 ≤ off && off < 0x21_0000 then s.writeQueueReg ((off - 0x20_0000) / 64) (off % 64 / 8) v
  else if 0x40_0000 ≤ off && off < 0x80_0000 then
    (if off % 4096 == 0 then s.writeQtail ((off - 0x40_0000) / 4096) v else s)
  else if 0x30_0700 ≤ off && off < 0x30_0900 then s.writePlane ((off - 0x30_0700) / 8) v
  else if off == 0x10_0000 then { s with xlat := { s.xlat with ctxtab := v } }
  else if off == 0x10_0008 then s.writeCtxcmd v
  else if off == 0x10_0010 then { s with xlat := { s.xlat with tinvaddr := v } }
  else if off == 0x10_0018 then after s (execTinvctl v s)
  else if off == 0x10_0020 then
    (let k := n % 2 ^ 17
     if k < 64 || 65536 < k then s else { s with coh := { s.coh with leaseMax := k } })
  else if off == 0x30_0000 then s.writeBiascmd v
  else if off == 0x30_0008 then (if v.getLsbD 0 then { s with coh := { s.coh with biasErr := false } } else s)
  else if off == 0x30_0010 then { s with coh := { s.coh with autoflip := v.getLsbD 0 } }
  else if off == 0x30_0108 then (if v.getLsbD 0 then after s (execRetry s) else s)
  else if off == 0x30_0200 then
    (if 11 < n % 16 then s else { s with mail := { s.mail with base := v &&& 0xFFFF_FFFF_FFFF_F000, log2n := n % 16 } })
  else if off == 0x30_0208 then after s (execThcons (v.extractLsb' 0 16) (after s (execTdprod (v.extractLsb' 48 16) s)))
  else if off == 0x30_0300 then (if lo32 v == 0 then s else { s with sched := { s.sched with lseed := lo32 v } })
  else if off == 0x30_0308 then { s with sched := { s.sched with urgent := lo32 v } }
  else if off == 0x30_0310 then
    { s with sched := { s.sched with qlimit := hi32 v, qgangs := v.extractLsb' 0 16 } }
  else if off == 0x30_0400 then s.writeTimectl v
  else if off == 0x30_0408 then { s with ptp := { s.ptp with adj := v } }
  else if off == 0x30_0410 then (if v.getLsbD 7 then { s with ptp := { s.ptp with stepref := false } } else s)
  else if off == 0x30_0500 then
    (if n % 2 ^ 16 < 800 || 2600 < n % 2 ^ 16 then s else { s with health := { s.health with pwrcap := v.extractLsb' 0 16 } })
  else if off == 0x30_0600 then
    { s with health := { s.health with plogbase := v &&& 0xFFFF_FFFF_FFFF_F000, ploglog2 := n % 16 } }
  else if off == 0x30_0608 then s.writeRetire v
  else s

/-- Bytes merged into a register at byte position p: unwritten bytes of W1C fields count as zero, and WO fields read
zero. -/
def State.merged (s : State) (off p : Nat) (d : List Byte) : Dword :=
  let mask := BitVec.ofNat 64 ((2 ^ (8 * d.length) - 1) * 2 ^ (8 * p))
  (s.reg off &&& ~~~(w1cBits off) &&& ~~~mask) ||| (BitVec.ofNat 64 (leNat d * 2 ^ (8 * p)) &&& mask)

/-- Whole registers written in ascending order. -/
def State.writeRegs (s : State) (off : Nat) : Nat → List Byte → State
  | 0, _ => s
  | n + 1, d => (s.writeReg off (BitVec.ofNat 64 (leNat (d.take 8)))).writeRegs (off + 8) n (d.drop 8)

/-- An access that completes with completer abort (R362). -/
def State.abortReg (s : State) (off : Nat) : State := { s with out := s.out ++ [OutMsg.registerAbort off] }

/-- REGISTER_WRITE (R362): within one register, or over whole registers; another access is aborted. In MINIMAL the BAR is
not served (R412). DEDUCED, log entry 49. -/
def execRegisterWrite (off : Nat) (d : List Byte) (s : State) : Out :=
  if s.boot.state == 7 then .next (s.abortReg off)
  else if d.isEmpty then .next s
  else if off % 8 + d.length ≤ 8 then
    .next (s.writeReg (off / 8 * 8) (s.merged (off / 8 * 8) (off % 8) d))
  else if off % 8 == 0 && d.length % 8 == 0 then .next (s.writeRegs off (d.length / 8) d)
  else .next (s.abortReg off)

end Sys2Proof.Machine
end

