-- ==== Sys2Proof/Machine/Special.lean ====
section
/-! DEFINITION. Special.lean: the special functions of SFREV 1 (R97 to R99, R291) and integer division (R101).
The transcendental functions are evaluated in fixed point with 640 fraction bits and then rounded once
(UNVERIFIED, log entry 15). -/

namespace Sys2Proof.Machine

/-- Fraction bits of the fixed-point evaluations. -/
def fxBits : Nat := 640

/-- 1 in fixed point. -/
def fxOne : Nat := 2 ^ fxBits

/-- The product of two fixed-point numbers. -/
def fxMul (a b : Nat) : Nat := a * b / fxOne

/-- m × 2^e in fixed point, cut toward zero. -/
def fxOf (m : Nat) (e : Int) : Nat :=
  let k := e + (fxBits : Int)
  if 0 ≤ k then m * 2 ^ k.toNat else m / 2 ^ (-k).toNat

/-- The sum of y^k / k! from term k on, `t` the term before it. -/
def expSum (y : Nat) : Nat → Nat → Nat → Nat
  | 0, _, _ => 0
  | n + 1, k, t => t + expSum y n (k + 1) (fxMul t y / (k + 1))

/-- e^y for 0 ≤ y ≤ 64. -/
def fxExp (y : Nat) : Nat := expSum y 400 0 fxOne

/-- The sum of z^(2k+1) / (2k+1), the signs alternating when `alt`. -/
def atanSum (alt : Bool) (z2 : Nat) : Nat → Nat → Int → Int
  | 0, _, _ => 0
  | n + 1, k, t =>
    t / (2 * k + 1 : Nat) + atanSum alt z2 n (k + 1) ((if alt then -1 else 1) * (t * z2 / (fxOne : Int)))

/-- ln y for a fixed-point y in [1, 2]: 2 artanh((y − 1) / (y + 1)). -/
def fxLn (y : Nat) : Nat :=
  let z := (y - fxOne) * fxOne / (y + fxOne)
  (2 * atanSum false (fxMul z z) 220 0 z).toNat

/-- ln 2. -/
def fxLn2 : Nat := fxLn (2 * fxOne)

/-- π by Machin's formula. -/
def fxPi : Nat :=
  let at5 := fxOne / 5
  let at239 := fxOne / 239
  (16 * atanSum true (fxMul at5 at5) 150 0 at5 - 4 * atanSum true (fxMul at239 at239) 60 0 at239).toNat

/-- The sum of the sine series from the term t of order 2k + 1. -/
def sinSum (y2 : Nat) : Nat → Nat → Int → Int
  | 0, _, _ => 0
  | n + 1, k, t => t + sinSum y2 n (k + 1) (-(t * y2 / (fxOne : Int)) / ((2 * k + 2) * (2 * k + 3) : Nat))

/-- sin(π t) for a fixed-point t in [0, 1/2]. -/
def fxSinpi (t : Nat) : Nat :=
  let y := fxMul fxPi t
  (sinSum (fxMul y y) 80 0 y).toNat

/-- The sum of (−1)^k x^(2k+1) / (k! (2k + 1)), `t` being ± x^(2k+1) / k!. -/
def erfSum (x2 : Nat) : Nat → Nat → Int → Int
  | 0, _, _ => 0
  | n + 1, k, t => t / (2 * k + 1 : Nat) + erfSum x2 n (k + 1) (-(t * x2 / (fxOne : Int)) / (k + 1 : Nat))

/-- The square root of a fixed-point number. -/
def fxSqrt (x : Nat) : Nat := isqrt (x * fxOne)

/-- erf x for 0 ≤ x ≤ 8. -/
def fxErf (x : Nat) : Nat :=
  (2 * erfSum (fxMul x x) 420 0 x).toNat * fxOne / fxSqrt fxPi

/-- tanh x for 0 ≤ x ≤ 32. -/
def fxTanh (x : Nat) : Nat :=
  let u := fxExp (2 * x)
  (u - fxOne) * fxOne / (u + fxOne)

/-- The grid of precision p (R97) as a format, and its results in FP32 or FP64 positions. -/
structure Grid where
  fmt  : FFmt          -- the format of operands and results
  p    : Nat
  deriving DecidableEq, Repr

def Grid.f32 (p : Nat) : Grid := ⟨FFmt.f32, p⟩
def Grid.f64 : Grid := ⟨FFmt.f64, 53⟩

/-- A magnitude rounded by RNE onto the grid (R97), with its exceptions (R291). -/
def Grid.result (g : Grid) (ftz neg st : Bool) (m : Nat) (e : Int) : Nat × Exc :=
  let (b, x) := (FFmt.mk (g.p - 1) g.fmt.ebits g.fmt.bias false).result .rne ftz false neg st m e
  (b * 2 ^ (g.fmt.fbits + 1 - g.p), x)

/-- A fixed-point result that is not exact. -/
def Grid.fx (g : Grid) (ftz neg : Bool) (m : Nat) : Nat × Exc := g.result ftz neg true m (-(fxBits : Int))

/-- The special results shared by all: a NaN operand (R73). -/
def Grid.nan (g : Grid) (l : List FVal) (k : Nat × Exc) : Nat × Exc :=
  match g.fmt.firstNan l with
  | some n => (n, g.fmt.snanExc l)
  | none => k

/-- The invalid result (R99). -/
def Grid.bad (g : Grid) : Nat × Exc := (g.fmt.canon, Exc.invalid)
/-- An infinity with exceptions. -/
def Grid.infinity (g : Grid) (neg : Bool) (x : Exc) : Nat × Exc := (g.fmt.signBit neg + g.fmt.infBits, x)
/-- A zero. -/
def Grid.zero (g : Grid) (neg : Bool) : Nat × Exc := (g.fmt.signBit neg, 0)

/-- `rcp` (R98, R99). -/
def sfRcp (g : Grid) (ftz : Bool) (x : Nat) : Nat × Exc :=
  let v := g.fmt.read ftz x
  g.nan [v] <|
    match v with
    | .inf n => g.zero n
    | .fin n m e =>
      if m == 0 then g.infinity n Exc.divZero
      else let (q, k, st) := divExact 1 0 m e; g.result ftz n st q k
    | _ => g.bad

/-- `rsq` (R98, R99). -/
def sfRsq (g : Grid) (ftz : Bool) (x : Nat) : Nat × Exc :=
  let v := g.fmt.read ftz x
  g.nan [v] <|
    match v with
    | .inf n => if n then g.bad else g.zero false
    | .fin n m e =>
      if m == 0 then g.infinity n Exc.divZero
      else if n then g.bad
      else
        let (r, k, st) := sqrtExact m e
        let (q, k2, st2) := divExact 1 0 r k
        g.result ftz false (st || st2) q k2
    | _ => g.bad

/-- `sqrt` (R98, R99). -/
def sfSqrt (g : Grid) (ftz : Bool) (x : Nat) : Nat × Exc :=
  let v := g.fmt.read ftz x
  g.nan [v] <|
    match v with
    | .inf n => if n then g.bad else g.infinity false 0
    | .fin n m e =>
      if m == 0 then g.zero n
      else if n then g.bad
      else let (r, k, st) := sqrtExact m e; g.result ftz false st r k
    | _ => g.bad

/-- `fdiv` (R98, R99): IEEE division. -/
def sfDiv (g : Grid) (ftz : Bool) (x y : Nat) : Nat × Exc :=
  let a := g.fmt.read ftz x
  let b := g.fmt.read ftz y
  let n := a.neg != b.neg
  g.nan [a, b] <|
    match a, b with
    | .inf _, .inf _ => g.bad
    | .inf _, _ => g.infinity n 0
    | _, .inf _ => g.zero n
    | .fin _ ma ea, .fin _ mb eb =>
      if mb == 0 then (if ma == 0 then g.bad else g.infinity n Exc.divZero)
      else if ma == 0 then g.zero n
      else let (q, k, st) := divExact ma ea mb eb; g.result ftz n st q k
    | _, _ => g.bad

/-- `exp2` (R98, R99): 2^n × e^(f ln 2) for x = n + f, f in [0, 1). -/
def sfExp2 (g : Grid) (ftz : Bool) (x : Nat) : Nat × Exc :=
  let v := g.fmt.read ftz x
  g.nan [v] <|
    match v with
    | .inf n => if n then g.zero false else g.infinity false 0
    | .fin neg m e =>
      if m == 0 then g.result ftz false false 1 0
      else if 0 ≤ e + (Nat.log2 m : Int) - 10 then
        -- |x| ≥ 1024: beyond every finite result
        (if neg then g.result ftz false true 1 (-2000) else g.result ftz false true 1 2000)
      else
        let w : Int := if neg then -(fxOf m e : Int) else fxOf m e
        let n := w / (fxOne : Int)
        let f := (w % (fxOne : Int)).toNat
        if f == 0 then g.result ftz false false 1 n
        else g.result ftz false true (fxExp (fxMul f fxLn2)) (n - fxBits)
    | _ => g.bad

/-- `log2` (R98, R99): n + ln y / ln 2 for x = 2^n × y, y in [1, 2). -/
def sfLog2 (g : Grid) (ftz : Bool) (x : Nat) : Nat × Exc :=
  let v := g.fmt.read ftz x
  g.nan [v] <|
    match v with
    | .inf n => if n then g.bad else g.infinity false 0
    | .fin neg m e =>
      if m == 0 then g.infinity true Exc.divZero
      else if neg then g.bad
      else
        let l := Nat.log2 m
        let n : Int := e + l
        if m == 2 ^ l then
          (if n == 0 then g.zero false else g.result ftz (decide (n < 0)) false n.natAbs 0)
        else
          let y := fxOf m (-(l : Int))
          let t : Int := n * fxOne + (fxLn y * fxOne / fxLn2 : Nat)
          g.fx ftz (decide (t < 0)) t.natAbs
    | _ => g.bad

/-- sin(π x) for x = ±(m × 2^e), not zero: reduced to [0, 1/2]; `cosine` shifts by 1/2 (R99). -/
def sfSinCos (g : Grid) (cosine ftz : Bool) (x : Nat) : Nat × Exc :=
  let v := g.fmt.read ftz x
  g.nan [v] <|
    match v with
    | .inf _ => g.bad
    | .fin neg m e =>
      if m == 0 then (if cosine then g.result ftz false false 1 0 else g.zero neg)
      else
        -- cos is even: its argument's sign is dropped, and cos(π x) = sin(π (|x| + 1/2))
        let t0 := if 1 ≤ e then 0 else fxOf m e % (2 * fxOne)
        let t := if cosine then (t0 + fxOne / 2) % (2 * fxOne) else t0
        let flip := fxOne ≤ t
        let u := if flip then t - fxOne else t
        let w := if fxOne / 2 < u then fxOne - u else u
        let sg := if cosine then flip else (flip != neg)
        if w == 0 then (if cosine then g.zero false else g.zero neg)
        else if w == fxOne / 2 then g.result ftz sg false 1 0
        else g.fx ftz sg (fxSinpi w)
    | _ => g.bad

/-- `tanh` (R98, R99). -/
def sfTanh (g : Grid) (ftz : Bool) (x : Nat) : Nat × Exc :=
  let v := g.fmt.read ftz x
  g.nan [v] <|
    match v with
    | .inf n => g.result ftz n false 1 0
    | .fin n m e =>
      if m == 0 then g.zero n
      else if 0 ≤ e + (Nat.log2 m : Int) - 5 then g.fx ftz n (fxOne - 1)
      else g.fx ftz n (fxTanh (fxOf m e))
    | _ => g.bad

/-- `erf` (R98, R99). -/
def sfErf (g : Grid) (ftz : Bool) (x : Nat) : Nat × Exc :=
  let v := g.fmt.read ftz x
  g.nan [v] <|
    match v with
    | .inf n => g.result ftz n false 1 0
    | .fin n m e =>
      if m == 0 then g.zero n
      else if 0 ≤ e + (Nat.log2 m : Int) - 3 then g.fx ftz n (fxOne - 1)
      else g.fx ftz n (fxErf (fxOf m e))
    | _ => g.bad

/-- `idiv` (R101): quotient and remainder. -/
def intDiv (uns : Bool) (a b : Word) : Word × Word :=
  if uns then
    if b == 0 then (BitVec.allOnes 32, a) else (a / b, a % b)
  else if b == 0 then ((if a.slt 0 then 1 else BitVec.allOnes 32), a)
  else (a.sdiv b, a.srem b)

end Sys2Proof.Machine
end

