-- ==== Sys2Proof/Machine/SpecialFn.lean ====
section
/-! DEFINITION. SpecialFn.lean: the special functions and the divider of the X class (R291, R292). -/

namespace Sys2Proof.Machine

/-- A special function of one or two operands, per slot: long-latency, its exceptions logged (R96, R288, R291). -/
def State.special (s : State) (e : Env) (d : BitVec 7) (wide : Bool) (f : Nat → Nat × Exc) : State :=
  let words (k : Nat) : List Word :=
    let x := (f k).1
    if wide then [BitVec.ofNat 32 x, BitVec.ofNat 32 (x / 2 ^ 32)] else [BitVec.ofNat 32 x]
  (s.issueRegs e d.toNat (if wide then 2 else 1) words).logSlots e (fun k => (f k).2)

/-- The grid of a form: precision p in FP32, the full precision with `.cr`, and FP64 (R97, R98). -/
def gridOf (f64 cr : Bool) (p : Nat) : Grid := if f64 then Grid.f64 else Grid.f32 (if cr then 24 else p)

/-- A unary special function. -/
def special1 (d : BitVec 7) (wide : Bool) (a : Sel) (f : Nat → Nat × Exc) (s : State) : Out :=
  s.within (fun e => s.special e d wide (fun k => f (e.read wide a k).toNat))

def execRcp (d : BitVec 7) (f64 ftz cr : Bool) (a : Sel) (s : State) : Out :=
  special1 d f64 a (sfRcp (gridOf f64 cr 23) ftz) s
def execRsq (d : BitVec 7) (ftz : Bool) (a : Sel) (s : State) : Out := special1 d false a (sfRsq (Grid.f32 23) ftz) s
def execSqrt (d : BitVec 7) (f64 ftz cr : Bool) (a : Sel) (s : State) : Out :=
  special1 d f64 a (sfSqrt (gridOf f64 cr 23) ftz) s
def execExp2 (d : BitVec 7) (ftz : Bool) (a : Sel) (s : State) : Out := special1 d false a (sfExp2 (Grid.f32 22) ftz) s
def execLog2 (d : BitVec 7) (ftz : Bool) (a : Sel) (s : State) : Out := special1 d false a (sfLog2 (Grid.f32 22) ftz) s
def execSinpi (d : BitVec 7) (ftz : Bool) (a : Sel) (s : State) : Out :=
  special1 d false a (sfSinCos (Grid.f32 22) false ftz) s
def execCospi (d : BitVec 7) (ftz : Bool) (a : Sel) (s : State) : Out :=
  special1 d false a (sfSinCos (Grid.f32 22) true ftz) s
def execTanh (d : BitVec 7) (ftz : Bool) (a : Sel) (s : State) : Out := special1 d false a (sfTanh (Grid.f32 21) ftz) s
def execErf (d : BitVec 7) (ftz : Bool) (a : Sel) (s : State) : Out := special1 d false a (sfErf (Grid.f32 21) ftz) s

def execFdiv (d : BitVec 7) (f64 ftz cr : Bool) (a b : Sel) (s : State) : Out :=
  s.within (fun e =>
    s.special e d f64 (fun k => sfDiv (gridOf f64 cr 23) ftz (e.read f64 a k).toNat (e.read f64 b k).toNat))

/-- R101, R292: the quotient, then the remainder in the next register. -/
def execIdiv (d : BitVec 7) (uns : Bool) (a b : Sel) (s : State) : Out :=
  s.within (fun e => s.issueRegs e d.toNat 2 (fun k =>
    let r := intDiv uns (e.read32 a k) (e.read32 b k)
    [r.1, r.2]))

end Sys2Proof.Machine
end

