-- ==== Sys2Proof/Machine/Uniform.lean ====
section
/-! DEFINITION. Uniform.lean: the uniform ALU (R55, R238 to R241). -/

namespace Sys2Proof

/-- An operand read by UTYPE (R238). -/
def UType.value (t : UType) (x : Dword) : Int :=
  match t with
  | .sgn64 => x.toInt
  | .uns64 => x.toNat
  | .sgn => (lo32 x).toInt
  | .uns => (lo32 x).toNat

/-- A chosen value as `smin` and `smax` return it (R238). -/
def UType.place (t : UType) (x : Dword) : Dword :=
  match t with
  | .sgn64 | .uns64 => x
  | .sgn => (lo32 x).signExtend 64
  | .uns => (lo32 x).setWidth 64

end Sys2Proof

namespace Sys2Proof.Machine

/-- A uniform operation, performed once per batch (R55, R240). -/
def uni1 (d : UDst) (a : Sel) (f : Dword → Dword) (s : State) : Out := s.within (fun e => s.putU e d (f (e.readU a)))
def uni2 (d : UDst) (a b : Sel) (f : Dword → Dword → Dword) (s : State) : Out :=
  s.within (fun e => s.putU e d (f (e.readU a) (e.readU b)))
def uni3 (d : UDst) (a b c : Sel) (f : Dword → Dword → Dword → Dword) (s : State) : Out :=
  s.within (fun e => s.putU e d (f (e.readU a) (e.readU b) (e.readU c)))

def execSadd (d : UDst) (a b : Sel) (s : State) : Out := uni2 d a b (· + ·) s
def execSsub (d : UDst) (a b : Sel) (s : State) : Out := uni2 d a b (· - ·) s
def execSmul (d : UDst) (a b : Sel) (s : State) : Out := uni2 d a b (· * ·) s
def execSmulhi (d : UDst) (t : UType) (a b : Sel) (s : State) : Out :=
  uni2 d a b (fun x y => BitVec.ofInt 64 (t.value x * t.value y / (2 ^ 64 : Int))) s
def execSmad (d : UDst) (_t : UType) (a b c : Sel) (s : State) : Out := uni3 d a b c (fun x y z => x * y + z) s
def execSshl (d : UDst) (a b : Sel) (s : State) : Out := uni2 d a b (fun x n => x <<< n.toNat) s
def execSshr (d : UDst) (a b : Sel) (s : State) : Out := uni2 d a b (fun x n => x >>> n.toNat) s
def execSsar (d : UDst) (a b : Sel) (s : State) : Out := uni2 d a b (fun x n => x.sshiftRight (min n.toNat 63)) s
def execSand (d : UDst) (a b : Sel) (s : State) : Out := uni2 d a b (· &&& ·) s
def execSor (d : UDst) (a b : Sel) (s : State) : Out := uni2 d a b (· ||| ·) s
def execSxor (d : UDst) (a b : Sel) (s : State) : Out := uni2 d a b (· ^^^ ·) s
def execSnot (d : UDst) (a : Sel) (s : State) : Out := uni1 d a (fun x => ~~~x) s
def execSmin (d : UDst) (t : UType) (a b : Sel) (s : State) : Out :=
  uni2 d a b (fun x y => t.place (if t.value y < t.value x then y else x)) s
def execSmax (d : UDst) (t : UType) (a b : Sel) (s : State) : Out :=
  uni2 d a b (fun x y => t.place (if t.value x < t.value y then y else x)) s
def execSmov (d : UDst) (a : Sel) (s : State) : Out := uni1 d a (fun x => x) s
def execScmp (d : UDst) (c : Cond) (t : UType) (a b : Sel) (s : State) : Out :=
  uni2 d a b (fun x y => if c.holds (t.value x) (t.value y) then 1 else 0) s
def execSsel (d : UDst) (a b c : Sel) (s : State) : Out := uni3 d a b c (fun x y z => if z != 0 then x else y) s
def execSpopc (d : UDst) (a : Sel) (s : State) : Out := uni1 d a (fun x => BitVec.ofNat 64 (popCount 64 x.toNat)) s
def execSclz (d : UDst) (a : Sel) (s : State) : Out := uni1 d a (fun x => BitVec.ofNat 64 (leadZeros 64 x.toNat)) s

/-- R241: the value in the lowest executing slot, zero-extended. -/
def execRfa (d : UDst) (a : Sel) (s : State) : Out := s.within (fun e => s.putU e d (e.read false a e.low))

end Sys2Proof.Machine
end

