-- ==== Sys2Proof/Machine/Dispatch.lean ====
section
/-! DEFINITION. Dispatch.lean: one arm per constructor of Instr. -/

namespace Sys2Proof.Machine

def exec (i : Instr) (s : State) : Host.Outcome State Fault Refusal :=
  match i with
  | .iadd d a b => Sys2Proof.Machine.execIadd d a b s
  | .isub d a b => Sys2Proof.Machine.execIsub d a b s
  | .imul d t sat a b => Sys2Proof.Machine.execImul d t sat a b s
  | .imulhi d t a b => Sys2Proof.Machine.execImulhi d t a b s
  | .imad d t sat a b c => Sys2Proof.Machine.execImad d t sat a b c s
  | .iabs d a => Sys2Proof.Machine.execIabs d a s
  | .ineg d a => Sys2Proof.Machine.execIneg d a s
  | .imin d t a b => Sys2Proof.Machine.execImin d t a b s
  | .imax d t a b => Sys2Proof.Machine.execImax d t a b s
  | .iaddc d a b p => Sys2Proof.Machine.execIaddc d a b p s
  | .isubb d a b p => Sys2Proof.Machine.execIsubb d a b p s
  | .iadds d t a b => Sys2Proof.Machine.execIadds d t a b s
  | .shl d a b => Sys2Proof.Machine.execShl d a b s
  | .shr d a b => Sys2Proof.Machine.execShr d a b s
  | .sar d a b => Sys2Proof.Machine.execSar d a b s
  | .rot d a b => Sys2Proof.Machine.execRot d a b s
  | .and d a b => Sys2Proof.Machine.execAnd d a b s
  | .or d a b => Sys2Proof.Machine.execOr d a b s
  | .xor d a b => Sys2Proof.Machine.execXor d a b s
  | .andn d a b => Sys2Proof.Machine.execAndn d a b s
  | .orn d a b => Sys2Proof.Machine.execOrn d a b s
  | .not d a => Sys2Proof.Machine.execNot d a s
  | .logic3 d lut a b c => Sys2Proof.Machine.execLogic3 d lut a b c s
  | .popc d a => Sys2Proof.Machine.execPopc d a s
  | .clz d a => Sys2Proof.Machine.execClz d a s
  | .ctz d a => Sys2Proof.Machine.execCtz d a s
  | .brev d a => Sys2Proof.Machine.execBrev d a s
  | .bfx d t a b c => Sys2Proof.Machine.execBfx d t a b c s
  | .bfi d a b c => Sys2Proof.Machine.execBfi d a b c s
  | .bperm d a b c => Sys2Proof.Machine.execBperm d a b c s
  | .icmp p c t a b => Sys2Proof.Machine.execIcmp p c t a b s
  | .sel d a b p => Sys2Proof.Machine.execSel d a b p s
  | .mov d a => Sys2Proof.Machine.execMov d a s
  | .fadd d m a b => Sys2Proof.Machine.execFadd d m a b s
  | .fsub d m a b => Sys2Proof.Machine.execFsub d m a b s
  | .fmul d m a b => Sys2Proof.Machine.execFmul d m a b s
  | .ffma d m a b c => Sys2Proof.Machine.execFfma d m a b c s
  | .fmin d t ftz a b => Sys2Proof.Machine.execFmin d t ftz a b s
  | .fmax d t ftz a b => Sys2Proof.Machine.execFmax d t ftz a b s
  | .fminn d t ftz a b => Sys2Proof.Machine.execFminn d t ftz a b s
  | .fmaxn d t ftz a b => Sys2Proof.Machine.execFmaxn d t ftz a b s
  | .fabs d t a => Sys2Proof.Machine.execFabs d t a s
  | .fneg d t a => Sys2Proof.Machine.execFneg d t a s
  | .fsgn d t a b => Sys2Proof.Machine.execFsgn d t a b s
  | .fcmp p c t ftz a b => Sys2Proof.Machine.execFcmp p c t ftz a b s
  | .fclass p t a b => Sys2Proof.Machine.execFclass p t a b s
  | .fround d m a => Sys2Proof.Machine.execFround d m a s
  | .fscale d m a b => Sys2Proof.Machine.execFscale d m a b s
  | .fexpn d t ftz a => Sys2Proof.Machine.execFexpn d t ftz a s
  | .fmant d t ftz a => Sys2Proof.Machine.execFmant d t ftz a s
  | .cvt d m a => Sys2Proof.Machine.execCvt d m a s
  | .cvtp d m part a b => Sys2Proof.Machine.execCvtp d m part a b s
  | .cvtu d m part a => Sys2Proof.Machine.execCvtu d m part a s
  | .pand p pa pb => Sys2Proof.Machine.execPand p pa pb s
  | .por p pa pb => Sys2Proof.Machine.execPor p pa pb s
  | .pxor p pa pb => Sys2Proof.Machine.execPxor p pa pb s
  | .pnot p pa => Sys2Proof.Machine.execPnot p pa s
  | .pmov f => Sys2Proof.Machine.execPmov f s
  | .shfl d m wide g a b => Sys2Proof.Machine.execShfl d m wide g a b s
  | .spush d wide g a b => Sys2Proof.Machine.execSpush d wide g a b s
  | .vote p m g pa => Sys2Proof.Machine.execVote p m g pa s
  | .ballot d g pa => Sys2Proof.Machine.execBallot d g pa s
  | .matchSlots d all t g a => Sys2Proof.Machine.execMatchSlots d all t g a s
  | .redux d op t g a => Sys2Proof.Machine.execRedux d op t g a s
  | .scan d op excl t g a => Sys2Proof.Machine.execScan d op excl t g a s
  | .nact d => Sys2Proof.Machine.execNact d s
  | .shape d t a => Sys2Proof.Machine.execShape d t a s
  | .shapeof d a => Sys2Proof.Machine.execShapeof d a s
  | .ld d k sz m => Sys2Proof.Machine.execLd d k sz m s
  | .st k sz m data => Sys2Proof.Machine.execSt k sz m data s
  | .ldl d sz m => Sys2Proof.Machine.execLdl d sz m s
  | .stl sz m data => Sys2Proof.Machine.execStl sz m data s
  | .atom d k wide op m data => Sys2Proof.Machine.execAtom d k wide op m data s
  | .atomx k wide flt m data => Sys2Proof.Machine.execAtomx k wide flt m data s
  | .fence sc set => Sys2Proof.Machine.execFence sc set s
  | .pref pol m => Sys2Proof.Machine.execPref pol m s
  | .roinv => Sys2Proof.Machine.execRoinv s
  | .persist m len => Sys2Proof.Machine.execPersist m len s
  | .wfence => Sys2Proof.Machine.execWfence s
  | .wfire m => Sys2Proof.Machine.execWfire m s
  | .wrel m => Sys2Proof.Machine.execWrel m s
  | .pclr m len => Sys2Proof.Machine.execPclr m len s
  | .arcset base count target off => Sys2Proof.Machine.execArcset base count target off s
  | .arcadd base addend off => Sys2Proof.Machine.execArcadd base addend off s
  | .sadd d a b => Sys2Proof.Machine.execSadd d a b s
  | .ssub d a b => Sys2Proof.Machine.execSsub d a b s
  | .smul d a b => Sys2Proof.Machine.execSmul d a b s
  | .smulhi d t a b => Sys2Proof.Machine.execSmulhi d t a b s
  | .smad d t a b c => Sys2Proof.Machine.execSmad d t a b c s
  | .sshl d a b => Sys2Proof.Machine.execSshl d a b s
  | .sshr d a b => Sys2Proof.Machine.execSshr d a b s
  | .ssar d a b => Sys2Proof.Machine.execSsar d a b s
  | .sand d a b => Sys2Proof.Machine.execSand d a b s
  | .sor d a b => Sys2Proof.Machine.execSor d a b s
  | .sxor d a b => Sys2Proof.Machine.execSxor d a b s
  | .snot d a => Sys2Proof.Machine.execSnot d a s
  | .smin d t a b => Sys2Proof.Machine.execSmin d t a b s
  | .smax d t a b => Sys2Proof.Machine.execSmax d t a b s
  | .smov d a => Sys2Proof.Machine.execSmov d a s
  | .scmp d c t a b => Sys2Proof.Machine.execScmp d c t a b s
  | .ssel d a b c => Sys2Proof.Machine.execSsel d a b c s
  | .spopc d a => Sys2Proof.Machine.execSpopc d a s
  | .sclz d a => Sys2Proof.Machine.execSclz d a s
  | .rfa d a => Sys2Proof.Machine.execRfa d a s
  | .rcp d f64 ftz cr a => Sys2Proof.Machine.execRcp d f64 ftz cr a s
  | .rsq d ftz a => Sys2Proof.Machine.execRsq d ftz a s
  | .sqrt d f64 ftz cr a => Sys2Proof.Machine.execSqrt d f64 ftz cr a s
  | .exp2 d ftz a => Sys2Proof.Machine.execExp2 d ftz a s
  | .log2 d ftz a => Sys2Proof.Machine.execLog2 d ftz a s
  | .sinpi d ftz a => Sys2Proof.Machine.execSinpi d ftz a s
  | .cospi d ftz a => Sys2Proof.Machine.execCospi d ftz a s
  | .tanh d ftz a => Sys2Proof.Machine.execTanh d ftz a s
  | .erf d ftz a => Sys2Proof.Machine.execErf d ftz a s
  | .fdiv d f64 ftz cr a b => Sys2Proof.Machine.execFdiv d f64 ftz cr a b s
  | .idiv d uns a b => Sys2Proof.Machine.execIdiv d uns a b s
  | .cpy pol out ctr l base off count => Sys2Proof.Machine.execCpy pol out ctr l base off count s
  | .cpyw pol out ctr l base off shp => Sys2Proof.Machine.execCpyw pol out ctr l base off shp s
  | .stmap d l v bytes => Sys2Proof.Machine.execStmap d l v bytes s
  | .stunmap d l => Sys2Proof.Machine.execStunmap d l s
  | .stflush d l bytes => Sys2Proof.Machine.execStflush d l bytes s
  | .zdef z clr base rows cols => Sys2Proof.Machine.execZdef z clr base rows cols s
  | .zclr z => Sys2Proof.Machine.execZclr z s
  | .mma z a b bcore fw => Sys2Proof.Machine.execMma z a b bcore fw s
  | .mmaGang z a b bcore fw => Sys2Proof.Machine.execMmaGang z a b bcore fw s
  | .opfence => Sys2Proof.Machine.execOpfence s
  | .zrnd d f rm z pos origin seed => Sys2Proof.Machine.execZrnd d f rm z pos origin seed s
  | .zdrain z hasDesc base off desc fw => Sys2Proof.Machine.execZdrain z hasDesc base off desc fw s
  | .zld z base off => Sys2Proof.Machine.execZld z base off s
  | .zst z base off => Sys2Proof.Machine.execZst z base off s
  | .quant z desc fw => Sys2Proof.Machine.execQuant z desc fw s
  | .opinst d re desc op => Sys2Proof.Machine.execOpinst d re desc op s
  | .opbind d op ib rb => Sys2Proof.Machine.execOpbind d op ib rb s
  | .opunbind d free op => Sys2Proof.Machine.execOpunbind d free op s
  | .opstat d op k => Sys2Proof.Machine.execOpstat d op k s
  | .opread d op dst => Sys2Proof.Machine.execOpread d op dst s
  | .mgopen d target contrib => Sys2Proof.Machine.execMgopen d target contrib s
  | .mgstage d f h src offset count => Sys2Proof.Machine.execMgstage d f h src offset count s
  | .mgclose d h => Sys2Proof.Machine.execMgclose d h s
  | .mgcommit d h => Sys2Proof.Machine.execMgcommit d h s
  | .mgread d stable target idx => Sys2Proof.Machine.execMgread d stable target idx s
  | .mgabort d h => Sys2Proof.Machine.execMgabort d h s
  | .coll d red desc inp out ctr => Sys2Proof.Machine.execColl d red desc inp out ctr s
  | .xferw stream dst src bytes ctr => Sys2Proof.Machine.execXferw stream dst src bytes ctr s
  | .xferr stream dst src bytes ctr => Sys2Proof.Machine.execXferr stream dst src bytes ctr s
  | .amsg first n target ctr => Sys2Proof.Machine.execAmsg first n target ctr s
  | .amsgReply first n token ctr => Sys2Proof.Machine.execAmsgReply first n token ctr s
  | .rwr src target ctr => Sys2Proof.Machine.execRwr src target ctr s
  | .bepack d f64 dst src count eb => Sys2Proof.Machine.execBepack d f64 dst src count eb s
  | .beunpack d f64 dst src cap => Sys2Proof.Machine.execBeunpack d f64 dst src cap s
  | .bra off => Sys2Proof.Machine.execBra off s
  | .jmp a => Sys2Proof.Machine.execJmp a s
  | .brx a off => Sys2Proof.Machine.execBrx a off s
  | .call off => Sys2Proof.Machine.execCall off s
  | .calli a => Sys2Proof.Machine.execCalli a s
  | .ret => Sys2Proof.Machine.execRet s
  | .enrol b => Sys2Proof.Machine.execEnrol b s
  | .rejoin b => Sys2Proof.Machine.execRejoin b s
  | .bar => Sys2Proof.Machine.execBar s
  | .gbar => Sys2Proof.Machine.execGbar s
  | .arcwait base off => Sys2Proof.Machine.execArcwait base off s
  | .acq => Sys2Proof.Machine.execAcq s
  | .rela => Sys2Proof.Machine.execRela s
  | .exit => Sys2Proof.Machine.execExit s
  | .yield => Sys2Proof.Machine.execYield s
  | .nop => Sys2Proof.Machine.execNop s
  | .trap code => Sys2Proof.Machine.execTrap code s
  | .sleep a => Sys2Proof.Machine.execSleep a s
  | .time d => Sys2Proof.Machine.execTime d s
  | .slack d => Sys2Proof.Machine.execSlack d s
  | .vpub st sc m cover => Sys2Proof.Machine.execVpub st sc m cover s
  | .sys code a b => Sys2Proof.Machine.execSys code a b s
  | .csrr d csr => Sys2Proof.Machine.execCsrr d csr s
  | .csrw csr a => Sys2Proof.Machine.execCsrw csr a s
  | .tret => Sys2Proof.Machine.execTret s
  | .brk tag => Sys2Proof.Machine.execBrk tag s
  | .registerWrite off data => Sys2Proof.Machine.execRegisterWrite off data s
  | .clauseIssue core spid slot => Sys2Proof.Machine.execClauseIssue core spid slot s
  | .tokenClear op => Sys2Proof.Machine.execTokenClear op s
  | .copyWrite op n => Sys2Proof.Machine.execCopyWrite op n s
  | .stashFillComplete blk line => Sys2Proof.Machine.execStashFillComplete blk line s
  | .stashRecall blk line => Sys2Proof.Machine.execStashRecall blk line s
  | .orphanWait core spid slot => Sys2Proof.Machine.execOrphanWait core spid slot s
  | .divert l => Sys2Proof.Machine.execDivert l s
  | .deadlineStop l => Sys2Proof.Machine.execDeadlineStop l s
  | .blockAdmit cores => Sys2Proof.Machine.execBlockAdmit cores s
  | .blockEvict blks => Sys2Proof.Machine.execBlockEvict blks s
  | .blockReadmit blk core => Sys2Proof.Machine.execBlockReadmit blk core s
  | .allotmentGrant core => Sys2Proof.Machine.execAllotmentGrant core s
  | .spindleRelease core spid => Sys2Proof.Machine.execSpindleRelease core spid s
  | .blockFree blk => Sys2Proof.Machine.execBlockFree blk s
  | .sleepExpire core spid slot => Sys2Proof.Machine.execSleepExpire core spid slot s
  | .serviceComplete core retry => Sys2Proof.Machine.execServiceComplete core retry s
  | .stopRecords n => Sys2Proof.Machine.execStopRecords n s
  | .fault core => Sys2Proof.Machine.execFault core s
  | .faultReply => Sys2Proof.Machine.execFaultReply s
  | .attest => Sys2Proof.Machine.execAttest s
  | .unknownTdMessage => Sys2Proof.Machine.execUnknownTdMessage s
  | .coreFailed core => Sys2Proof.Machine.execCoreFailed core s
  | .uncorr line => Sys2Proof.Machine.execUncorr line s
  | .tdprod v => Sys2Proof.Machine.execTdprod v s
  | .thcons v => Sys2Proof.Machine.execThcons v s
  | .hostMemRequest r => Sys2Proof.Machine.execHostMemRequest r s
  | .biasFlipCommand w => Sys2Proof.Machine.execBiasFlipCommand w s
  | .flipComplete page => Sys2Proof.Machine.execFlipComplete page s
  | .hostWindowRequest r => Sys2Proof.Machine.execHostWindowRequest r s
  | .peerRequest r => Sys2Proof.Machine.execPeerRequest r s
  | .streamResume k => Sys2Proof.Machine.execStreamResume k s
  | .remoteReject k => Sys2Proof.Machine.execRemoteReject k s
  | .amsgArrival m => Sys2Proof.Machine.execAmsgArrival m s
  | .replyArrival ctr payload => Sys2Proof.Machine.execReplyArrival ctr payload s
  | .deposit op => Sys2Proof.Machine.execDeposit op s
  | .xferPacket op n data => Sys2Proof.Machine.execXferPacket op n data s
  | .collComplete op inputs degraded => Sys2Proof.Machine.execCollComplete op inputs degraded s
  | .tsilent op m => Sys2Proof.Machine.execTsilent op m s
  | .directoryAcknowledgement die line => Sys2Proof.Machine.execDirectoryAcknowledgement die line s
  | .inputStoreJoin n => Sys2Proof.Machine.execInputStoreJoin n s
  | .wfireJoin n => Sys2Proof.Machine.execWfireJoin n s
  | .wrelJoin n => Sys2Proof.Machine.execWrelJoin n s
  | .resultLoadJoin op => Sys2Proof.Machine.execResultLoadJoin op s
  | .fireComplete op slot => Sys2Proof.Machine.execFireComplete op slot s
  | .gangMmaMatch blk => Sys2Proof.Machine.execGangMmaMatch blk s
  | .mergeTimeout gang slot => Sys2Proof.Machine.execMergeTimeout gang slot s
  | .operatorMoveOut op => Sys2Proof.Machine.execOperatorMoveOut op s
  | .operatorRestore op => Sys2Proof.Machine.execOperatorRestore op s
  | .unitLoad ctx unit digest => Sys2Proof.Machine.execUnitLoad ctx unit digest s
  | .qtail q v => Sys2Proof.Machine.execQtail q v s
  | .queueEnable q v => Sys2Proof.Machine.execQueueEnable q v s
  | .queueDisable q v => Sys2Proof.Machine.execQueueDisable q v s
  | .quar q => Sys2Proof.Machine.execQuar q s
  | .queueSwitchIn q => Sys2Proof.Machine.execQueueSwitchIn q s
  | .queueSwitchOut q => Sys2Proof.Machine.execQueueSwitchOut q s
  | .nopPacket q => Sys2Proof.Machine.execNopPacket q s
  | .launch q => Sys2Proof.Machine.execLaunch q s
  | .indirect q => Sys2Proof.Machine.execIndirect q s
  | .waitmem q => Sys2Proof.Machine.execWaitmem q s
  | .waitmemRecheck q => Sys2Proof.Machine.execWaitmemRecheck q s
  | .signal q => Sys2Proof.Machine.execSignal q s
  | .fencePacket q => Sys2Proof.Machine.execFencePacket q s
  | .setctx q => Sys2Proof.Machine.execSetctx q s
  | .timestamp q => Sys2Proof.Machine.execTimestamp q s
  | .define n => Sys2Proof.Machine.execDefine n s
  | .reload n => Sys2Proof.Machine.execReload n s
  | .halt n => Sys2Proof.Machine.execHalt n s
  | .resume n => Sys2Proof.Machine.execResume n s
  | .destroy n => Sys2Proof.Machine.execDestroy n s
  | .tinvctl w => Sys2Proof.Machine.execTinvctl w s
  | .tinvDone => Sys2Proof.Machine.execTinvDone s
  | .retire w => Sys2Proof.Machine.execRetire w s
  | .planemapWrite n w => Sys2Proof.Machine.execPlanemapWrite n w s
  | .planeDeath p => Sys2Proof.Machine.execPlaneDeath p s
  | .sync offset traceable => Sys2Proof.Machine.execSync offset traceable s
  | .syncTimeout => Sys2Proof.Machine.execSyncTimeout s
  | .stepTime => Sys2Proof.Machine.execStepTime s
  | .servoEnable w => Sys2Proof.Machine.execServoEnable w s
  | .servoDisable w => Sys2Proof.Machine.execServoDisable w s
  | .clockThrottle mhz => Sys2Proof.Machine.execClockThrottle mhz s
  | .thermalTrip die => Sys2Proof.Machine.execThermalTrip die s
  | .coreFailure core => Sys2Proof.Machine.execCoreFailure core s
  | .uncorrectableError line => Sys2Proof.Machine.execUncorrectableError line s
  | .correctedError line => Sys2Proof.Machine.execCorrectedError line s
  | .linkDown port => Sys2Proof.Machine.execLinkDown port s
  | .powerLoss reverts => Sys2Proof.Machine.execPowerLoss reverts s
  | .reset b => Sys2Proof.Machine.execReset b s
  | .bootok => Sys2Proof.Machine.execBootok s
  | .bootokTimeout => Sys2Proof.Machine.execBootokTimeout s
  | .codePageFill page digest => Sys2Proof.Machine.execCodePageFill page digest s
  | .firmwareCoreStop die => Sys2Proof.Machine.execFirmwareCoreStop die s
  | .retry => Sys2Proof.Machine.execRetry s
  | .standbyPowerLoss => Sys2Proof.Machine.execStandbyPowerLoss s
  | .slicePeriodEnd => Sys2Proof.Machine.execSlicePeriodEnd s
  | .hsel core w => Sys2Proof.Machine.execHsel core w s
  | .hdata core w => Sys2Proof.Machine.execHdata core w s
  | .clockclassChange => Sys2Proof.Machine.execClockclassChange s
  | .hostCxlCacheSnoop line data inv => Sys2Proof.Machine.execHostCxlCacheSnoop line data inv s
  | .downstreamBackInvalidate line data => Sys2Proof.Machine.execDownstreamBackInvalidate line data s

end Sys2Proof.Machine
end

