-- ==== Sys2Proof/Machine/Fetch.lean ====
section
/-! DEFINITION. Fetch.lean: the next instruction of the clause in progress (R180 to R182, R359), and what time alone brings
about. -/

namespace Sys2Proof.Machine

/-- The run once the instruction at its words' head is fetched; `rest` are the words behind it. -/
def Run.fetched (r : Run) (rest : List Word) : Run :=
  { r with words := rest, cur := r.words, idx := r.idx + 1, lat := none, latches := (r.lat :: r.latches).take 4 }

/-- The address of the instruction word a run stands at. -/
def Run.here (r : Run) : Dword := r.base + (r.npc - r.hdr) - BitVec.ofNat 64 (4 * r.words.length)

/-- The breakpoint register that names it. DESIGN CHOICE, log entry 21. -/
def State.ibkHit (s : State) (a : Dword) : Option Nat := s.ibk.findIdx? (fun x => x == a)

/-- The next instruction and the state it executes in; or, where there is none, the state the clause leaves: it has no
words left and ends, a breakpoint register fires, or its words are refused. -/
def State.fetch (s : State) : Except State (Instr × State) :=
  match s.env with
  | none => .error { s with run := Run.idle }
  | some e =>
    if s.run.words.isEmpty then .error s.endClause
    else
      match decodeInstr s.run.cls s.run.words, s.ibkHit s.run.here with
      | _, some n =>
        let r := s.run.fetched (s.run.words.drop 1)
        .error (({ s with run := r }).trap { e with r := r } e.low .breakpoint (BitVec.ofNat 64 (0x100 + n)))
      | .error x, none =>
        let r := s.run.fetched (s.run.words.drop 1)
        .error (({ s with run := r }).trap { e with r := r } e.low (trapOf x) 0)
      | .ok (i, rest), none => .ok (i, { s with run := s.run.fetched rest })

/-- The clause in progress waits: its core is stalled (R36). -/
def State.runStalled (s : State) : Bool :=
  s.run.active && ((s.blk s.run.blk).map (fun b => s.stalled b.core)).getD false

/-- It is set aside. -/
def State.setAside (s : State) : State := { s with run := Run.idle, runs := s.runs ++ [s.run] }

/-- The clause in progress of a spindle becomes the one that goes on. -/
def State.selectRun (s : State) (core spid : Nat) : State :=
  let mine (r : Run) : Bool := r.active && (match s.blk r.blk with
    | some b => b.core == core && ((b.sp r.m).map (fun sp => sp.spid == spid)).getD false
    | none => false)
  if mine s.run then s
  else
    match s.runs.find? mine with
    | some r => { s with runs := s.runs.erase r }.setRun r
    | none => s

/-! Time. -/

/-- The cores a context is charged for (R388): those it occupies, but for those that another's service stalls. -/
def State.chargedCores (s : State) (n : Nat) : Nat :=
  ((List.range s.userCores).filter (fun c =>
    (s.blocks.any (fun b => b.ctx == n && b.core == c && !b.evicted)) &&
    (!s.stalled c || s.services.any (fun v => v.core == c && v.ctx == n)))).length

/-- Time goes on by one step's pace (DESIGN CHOICE, log entry 1). -/
def State.tick (s : State) : State :=
  { s with devtime := s.devtime + s.paceNs, clk := s.clk + s.paceClk
           ctxs := s.ctxs.map (fun (c : Ctx) => { c with charge := c.charge + s.paceNs * s.chargedCores c.id }) }

/-- A thread's orphan wait has reached its park limit. -/
def State.orphanDue (s : State) (b : Block) (t : Thread) : Bool :=
  match t.st with
  | .parked (.lines ls since) => decide (since + s.parkLimit b.ctx ≤ s.devtime) && ls.any b.orphan
  | _ => false

/-- An engine's orphan wait of a thread of a spindle likewise. -/
def State.opOrphanDue (s : State) (b : Block) (sp : Spindle) (k : Nat) : Bool :=
  s.ops.any (fun o => o.blk == b.uid && o.m == sp.m && o.slots.contains k && decide (o.start + s.parkLimit b.ctx ≤ s.devtime) &&
    (s.opOrphan o).isSome)

/-- The event that time alone has made due (R41, R42, R35, R279, R311, R388, R412, R432). -/
def State.due (s : State) : Option Instr :=
  let perThread (f : Block → Spindle → Thread → Nat → Option Instr) : Option Instr :=
    firstSome (s.blocks.map (fun b =>
      if b.evicted then none
      else firstSome (b.spindles.map (fun sp => firstSome (sp.threads.zipIdx.map (fun x => f b sp x.1 x.2))))))
  firstSome [
    (s.launches.find? (fun l => !l.ended && decide (l.dl ≤ s.devtime) && !l.unwritten)).map (fun l => Instr.deadlineStop l.uid),
    (s.launches.find? (fun l => !l.ended && !l.div && l.budget != 0 && decide (l.divertAt ≤ (s.devtime : Int)))).map (fun l =>
      Instr.divert l.uid),
    (s.coh.pend.find? (fun p => decide (p.clk + Config.propMax ≤ s.clk))).map (fun p =>
      Instr.directoryAcknowledgement p.die (lineOf p.pa)),
    if s.sched.period + 10000000 ≤ s.devtime then some .slicePeriodEnd else none,
    perThread (fun b sp t k => if s.orphanDue b t || s.opOrphanDue b sp k then some (.orphanWait b.core sp.spid k) else none),
    perThread (fun b sp t k => match t.wake with
      | some w => if w ≤ s.devtime then some (.sleepExpire b.core sp.spid k) else none
      | none => none),
    (s.mslots.find? (fun m => m.st == .opened &&
      decide (m.last + 1000 * ((s.ctx m.ctx).map (fun c => c.desc.mgto)).getD 0 ≤ s.devtime))).map (fun m =>
        Instr.mergeTimeout m.gang m.idx),
    if s.boot.state == 5 && decide (s.boot.fwStart + 60000000000 ≤ s.devtime) then some .bootokTimeout else none]

end Sys2Proof.Machine
end

