-- ==== Sys2Proof/Machine/Micro.lean ====
section
/-! DEFINITION. Micro.lean: the smaller moves of the part and its surroundings, which are no rows of the opcode table (R63,
R126, R318, R359, R386, R389, R394, R398, R405, R408 to R413). DESIGN CHOICE, log entry 8. -/

namespace Sys2Proof.Machine

/-- An operation in flight that may move. -/
def State.mover (s : State) (id : Nat) : Option Op :=
  (s.ops.find? (fun o => o.id == id)).filter (fun o => !s.away o && !s.unsent o)

/-- A smaller move. -/
def execMicro (m : Micro) (s : State) : Out :=
  match m with
  | .deliver op i => .next (((s.mover op).map (fun o => s.deliverPart o i)).getD s)
  | .tile op => .next (((s.mover op).map (fun o => s.tileStep o 1)).getD s)
  | .tlbFill core ctx va => .next (s.tlbFill core ctx va)
  | .tlbDrop core ctx va => .next (s.tlbDrop (fun x => x.core == core && x.ctx == ctx && x.va == va))
  | .hostEvict line => .next (s.hostEvict line)
  | .sendPacket op n => .next (((s.ops.find? (fun o => o.id == op)).map (fun o => s.sendPacket o n)).getD s)
  | .freeze k => .next (s.freeze k)
  | .boot => execBootStep s
  | .extend n d => .next (s.extendBy n d)
  | .enumerate d => .next (s.enumerate d)
  | .foreignWrite line data => .next (s.foreignWrite line data)
  | .stockDrop line => .next (s.stockDrop line)
  | .persistAck op => execPersistAck op s
  | .readBootstat => execReadBootstat s
  | .writeBootctl w => execWriteBootctl w s
  | .readHdata core => execReadHdata core s
  | .ibkWrite n a => .next { s with ibk := s.ibk.set n a }
  | .slowStl blk m => .next (s.slowStl blk m)
  | .landStl blk m => .next (s.landStl blk m)
  | .swapStl blk n => .next (s.swapStl blk n)
  | .announce utcOffset => execAnnounce utcOffset s
  | .peerAck k => execPeerAck k s
  | .windowGo op => execWindowGo op s

end Sys2Proof.Machine
end

