-- ==== Sys2Proof/Machine/Plan.lean ====
section
/-! DEFINITION. Plan.lean: how an instruction or an event is performed, with what goes on beside it; and what the part does by
itself when no turn is given and no clause goes on (log entry 8): of each kind of work the first event that changes
something, the kinds taking turns, and the ports' arbitration rounds (R343 to R345). -/

namespace Sys2Proof.Machine

/-! Performing. -/

/-- An access that a fence holds back (R154, R250). -/
def Instr.isAccess (i : Instr) : Bool :=
  match i with
  | .ld .. | .st .. | .ldl .. | .stl .. | .atom .. | .atomx .. | .pref .. | .roinv | .persist .. | .wfire .. | .wrel ..
  | .pclr .. | .arcset .. | .arcadd .. | .cpy .. | .cpyw .. | .stmap .. | .stunmap .. | .stflush .. | .mma .. | .mmaGang ..
  | .zdrain .. | .zld .. | .zst .. | .quant .. | .opinst .. | .opread .. | .mgopen .. | .mgstage .. | .mgcommit .. | .mgread ..
  | .coll .. | .xferw .. | .xferr .. | .amsg .. | .amsgReply .. | .rwr .. | .bepack .. | .beunpack ..
  | .bar | .gbar | .arcwait .. | .vpub .. => true
  | _ => false

/-- A release at `.sys` (R148, R242, R282, R320). A fence is none that its thread waits for (R250). -/
def Instr.releases (i : Instr) : Bool :=
  match i with
  | .st k _ _ _ => k.sc == .sys && k.ord == .rel
  | .atom _ k _ _ _ _ => k.sc == .sys && k.ord == .acqrel
  | .atomx k _ _ _ _ => k.sc == .sys && k.ord == .acqrel
  | .amsg .. | .amsgReply .. => true
  | .vpub _ sc _ _ => sc == .sys
  | _ => false

/-- An event that a `wfence` holds back (R254): an E event, a fence other than `.win`, a counter update, a message. -/
def Instr.ordered (i : Instr) : Bool :=
  match i with
  | .ld _ k _ _ | .st k _ _ _ | .atom _ k _ _ _ _ | .atomx k _ _ _ _ => k.ord != .no
  | .fence _ set => set != .win
  | .bar | .gbar | .arcwait .. | .arcadd .. | .vpub .. | .rwr .. | .amsg .. | .amsgReply .. => true
  | _ => false

/-- The global ranges whose pages an instruction's walkers look up, as far as its meaning does not walk itself (R386). -/
def Env.ranges (e : Env) (i : Instr) : List (Dword × Nat) :=
  let each (m : MemOp) (scale n : Nat) : List (Dword × Nat) := e.r.exec.map (fun k => (e.gaddr m scale k, n))
  let stash (m : MemOp) (sz : Size) : List (Dword × Nat) :=
    (e.b.unfilled (linesOf (e.r.exec.map (fun k => (k, e.laddr m sz.bytes k))) sz.bytes)).map (fun l => (e.b.stashVa l, 128))
  match i with
  | .ld _ _ sz m | .st _ sz m _ => each m sz.bytes sz.bytes
  | .ldl _ sz m | .stl sz m _ => stash m sz
  | .atom _ _ w _ m _ => let n := if w then 8 else 4; each m n n
  | .atomx _ _ _ m _ => each m 32 32
  | .pref _ m | .wfire m | .wrel m => each m 1 1
  | .vpub _ _ m _ => each m 8 8
  | .persist m len => let n := (e.readU len).toNat; if n ≤ 2 ^ 56 then each m 1 n else []
  | .call _ | .calli _ => e.r.exec.filterMap (fun k =>
      (e.thr k).bind (fun t => if t.rsd < 8 then none else some (t.home (t.rsd - 8), 8)))
  | .ret => e.r.exec.filterMap (fun k => (e.thr k).bind (fun t => if t.rsd ≤ 8 then none else some (t.home (t.rsd - 9), 8)))
  | .cpy _ _ _ _ base off n => e.r.exec.filterMap (fun k =>
      let c := (e.read32 n k).toNat
      if 2 ^ 20 < c then none else some (e.gaddr ⟨base, off, 0⟩ 1 k, c))
  | .cpyw _ _ _ _ base off shp =>
    let w := e.readU shp
    let rows := (w.extractLsb' 16 16).toNat
    let bytes := (w.extractLsb' 0 16).toNat
    if 2 ^ 20 < rows * bytes then []
    else (List.range rows).map (fun r => (e.gaddr ⟨base, off, 0⟩ 1 e.low + BitVec.ofNat 64 (r * (hi32 w).toNat), bytes))
  | .stmap _ _ v n => if (e.readU n).toNat ≤ e.b.lsize then [(e.readU v, (e.readU n).toNat)] else []
  | .zld z base off | .zst z base off =>
    ((e.b.tile z).map (fun t => (e.gaddr ⟨base, off, 0⟩ 1 e.low, 32 * (t.size + 1)))).toList
  | _ => []

/-- A load of a result window by some executing slot. -/
def State.winLoad (s : State) (e : Env) (i : Instr) : Bool :=
  match i with
  | .ld _ _ sz m => e.r.exec.any (fun k => (locsOf (s.pieces (e.walker s) (e.gaddr m sz.bytes k) sz.bytes)).any (fun x =>
      match x.1 with | .win true _ _ => true | _ => false))
  | _ => false

/-- An event before which the earlier local stores of its spindle are performed (R156, R157, R162): a later store or atomic,
an E or W event, a mapping or a write-back of local lines. -/
def Instr.lands (i : Instr) : Bool :=
  match i with
  | .st .. | .atom .. | .atomx .. | .fence .. | .wfence | .wfire .. | .wrel .. | .opfence | .pclr .. | .arcset .. | .arcadd ..
  | .arcwait .. | .bar | .gbar | .rejoin _ | .vpub .. | .amsg .. | .amsgReply .. | .rwr .. | .stunmap .. | .stflush ..
  | .exit | .rela | .call _ | .calli _ => true
  | _ => false

/-- A batch has to wait at an instruction. -/
def State.heldAt (s : State) (i : Instr) (e : Env) : Bool :=
  s.mustWait e ⟨Instr.isAccess i, Instr.releases i, !s.posted.isEmpty && s.winLoad e i, Instr.ordered i⟩

/-- Before an instruction of a clause is performed, its walkers have loaded the entries that translate its addresses (R386),
and the local stores that it follows are performed, or, before a local load, keep their order. -/
def State.before (s : State) (i : Instr) : State :=
  match s.env with
  | none => s
  | some e =>
    let s := s.walkedAll (e.walker s) (e.ranges i)
    match i with
    | .stmap .. => s.landNow e.b.uid (fun _ => true)
    | .ldl .. => s.sealStl e.b.uid e.sp.m
    | i => if Instr.lands i then s.landNow e.b.uid (· == e.sp.m) else s

/-- The threads' states. -/
def State.threadStates (s : State) : List (List (List TState)) :=
  s.blocks.map (fun b => b.spindles.map (fun sp => sp.threads.map (·.st)))

/-- A step leaves something to be done beside it: a saved block, a tailstock hart's hold, a divert that waited, a record that
waited, a thread that has become ready or ceased to be, a clause begun or ended. -/
def State.stirs (t s : State) : Bool :=
  t.blocks.any (fun b => b.evicted || b.spindles.any (fun sp => sp.threads.any (·.leaves))) ||
  t.hsel.any (fun h => h.2.getLsbD 63) || t.launches.any Launch.unwritten ||
  t.run.active != s.run.active || t.runs.length != s.runs.length || t.threadStates != s.threadStates

/-! What is ready for the ports (R343, R344). -/

/-- A batch that may issue: where it stands, its lowest slot, the class of its clause and its CHAIN bit, since when it is
ready, whether its launch is urgent, whether it is in `yield`, whether its next clause waits on tokens. -/
structure Cand where
  core   : Nat
  spid   : Nat
  slot   : Nat
  cls    : Cls
  chain  : Bool
  since  : Nat
  urgent : Bool
  yields : Bool
  waits  : Bool

/-- The clause that a batch issues next, by its header: its class, its CHAIN bit, the tokens it waits on; a header that
cannot be read or decoded goes by the V port, which takes the trap. -/
def State.clauseOf (s : State) (b : Block) (t : Thread) : Cls × Bool × Byte :=
  match s.checkAccess (s.walkerOf b.core b.ctx) ((t.mid.map (·.hdr)).getD t.pc) 4 askFetch (fun _ => none) with
  | .ok locs =>
    let w : Word := BitVec.ofNat 32 (leNat (s.readLocs (some b.core) locs).1)
    ((decodeHeader w).map (fun hd => (hd.cls, hd.chain, if t.mid.isNone then hd.wait else 0))).getD (.v, false, 0)
  | .error _ => (.v, false, 0)

/-- What is noted of a batch's readiness. -/
def State.noted (s : State) (core spid slot : Nat) : Option Ready :=
  s.sched.ready.find? (fun x => x.core == core && x.spid == spid && x.slot == slot)

/-- Some thread of a batch holds a token that its next clause waits on. -/
def Spindle.waitsOn (sp : Spindle) (ks : List Nat) (wait : Byte) : Bool :=
  ks.any (fun k => ((sp.threads[k]?).map (fun t => t.tok &&& wait != 0)).getD false)

/-- Something of each batch that may go on: its block, spindle and lowest thread are given, with its slots. -/
def State.ofBatches {α : Type} (s : State) (f : Block → Spindle → Thread → Nat → List Nat → Option α) : List α :=
  s.blocks.flatMap (fun b => b.spindles.flatMap (fun sp => sp.threads.zipIdx.filterMap (fun x =>
    let ks := s.batch b sp x.2
    if ks.head? == some x.2 then f b sp x.1 x.2 ks else none)))

/-- The batches that may issue, and those whose next clause still waits on tokens (R344). -/
def State.cands (s : State) : List Cand :=
  s.ofBatches (fun b sp t k ks =>
    let (cls, chain, wait) := s.clauseOf b t
    some { core := b.core, spid := sp.spid, slot := k, cls := cls, chain := chain
           since := ((s.noted b.core sp.spid k).map (·.clk)).getD s.clk, urgent := s.urgent b.launch, yields := t.yielded
           waits := sp.waitsOn ks wait })

/-- The batches ready now, each since when it has been. -/
def State.noteReady (s : State) : State :=
  { s with sched := { s.sched with ready := s.ofBatches (fun b sp t k ks =>
      (s.noted b.core sp.spid k).orElse (fun _ =>
        if sp.waitsOn ks (s.clauseOf b t).2.2 then none else some { core := b.core, spid := sp.spid, slot := k, clk := s.clk })) } }

/-- What goes on beside a move: saved blocks that have changed are brought up to date in their records (R39, R125, R396),
the tailstock harts' holds are granted as their spindles become quiet (R398), a divert whose wait is over is taken (R43), a
record whose release is over is written (R155), and what has become ready is noted (R345). -/
def State.beside (t s : State) : State :=
  if t.stirs s then
    let t := ((t.syncImages s).latchHolds).takeDue (fun _ => true)
    ((t.launches.filter Launch.unwritten).foldl (fun (t : State) l => t.checkLaunch l.uid) t).noteReady
  else t

/-- An instruction or an event is performed. An instruction that has to wait leaves its clause as it stands. -/
def State.perform (s : State) (i : Instr) : Out :=
  if (s.env.map (s.heldAt i)).getD false then .next ((s.env.map (fun e => s.hold e)).getD s)
  else
    match exec i (s.before i) with
    | .next t => .next (t.beside s)
    | x => x

/-- A smaller move is performed. -/
def State.performPart (s : State) (m : Micro) : Out :=
  match execMicro m s with
  | .next t => .next (t.beside s)
  | x => x

/-! Moves. -/

/-- A turn changes the state. -/
def State.moves (s : State) (t : Turn) : Bool :=
  let changes (x : Out) : Bool := match x with
    | .next u => u != s
    | _ => true
  match t with
  | .event i => changes (s.perform i)
  | .part m => changes (s.performPart m)
  | .run _ _ => true

/-- The first turn that changes something. -/
def State.firstMove (s : State) (l : List Turn) : Option Turn := l.find? s.moves

/-- Something waits for a moved-out operator (R143). -/
def State.operatorWanted (s : State) (o : Operator) : Bool :=
  !o.waiting.isEmpty || s.services.any (fun v => v.op == some o.num) || s.posted.any (fun p => p.op == o.num) ||
  s.ops.any (fun x => match x.kind with | .resultLoad n _ _ _ _ _ _ => n == o.num | _ => false)

/-- The boot, contexts, bias flips, services and the mailbox. -/
def State.planControl (s : State) : List Turn :=
  let l : List Instr :=
    s.ctxs.map (fun c => .stopRecords c.id) ++ s.coh.flips.map (fun f => .flipComplete f.page) ++ [.tinvDone] ++
    (s.operators.filter (fun o => !o.resident && s.operatorWanted o)).map (fun o => .operatorRestore o.num) ++
    (s.services.filter (fun v => (v.op.bind (fun n => s.operator n)).any (·.resident))).map (fun v => .serviceComplete v.core true) ++
    (s.services.filter (fun v => v.op.isNone)).map (fun v => .fault v.core) ++
    s.mail.failedDue.map (fun c => .coreFailed c) ++ s.mail.uncorrDue.map (fun l => .uncorr l) ++
    [.faultReply, .attest, .unknownTdMessage]
  (if s.booting then [Turn.part .boot] else []) ++
  (s.operators.filter (fun o => o.resident && !o.waiting.isEmpty)).map (fun o => .part (.windowGo o.num)) ++ l.map Turn.event

/-- What an operation may do next. The packets of transfers, the requests to peers and the flushes of `persist` are answered
from outside. -/
def planOp (o : Op) : List Turn :=
  match o.kind with
  | .copy _ _ _ segs _ _ => .event (.tokenClear o.id) :: (List.range segs.length).map (fun n => .event (.copyWrite o.id n))
  | .xfer _ _ _ todo _ _ _ _ => .event (.tokenClear o.id) :: (List.range todo.length).map (fun n => .part (.sendPacket o.id n))
  | .rwr _ _ _ _ _ => [.event (.deposit o.id)]
  | .resultLoad _ _ _ _ _ _ _ => [.event (.resultLoadJoin o.id)]
  | .coll _ d _ _ _ _ none => if d.table.length == 1 then [.event (.collComplete o.id (some [[]]) false)] else []
  | .mma _ _ _ _ _ _ (some _) _ none => [.event (.gangMmaMatch o.blk), .event (.tokenClear o.id)]
  | _ => [.event (.tokenClear o.id)]

/-- Operations, stash fills, window requests and fires, local stores that are seen late. -/
def State.planUnits (s : State) : List Turn :=
  let l : List Instr :=
    (List.range s.posted.length).flatMap (fun i => [.inputStoreJoin i, .wfireJoin i, .wrelJoin i]) ++
    s.operators.flatMap (fun o => (o.slotst.filter (fun x => x.st == .fired)).map (fun x => .fireComplete o.num x.k))
  s.blocks.flatMap (fun b => b.fills.map (fun f => .event (.stashFillComplete b.uid f.1))) ++ s.ops.flatMap planOp ++
  l.map Turn.event ++ s.blocks.flatMap (fun b => b.slow.map (fun m => .part (.landStl b.uid m)))

/-- The clauses set aside that may go on. -/
def State.planRun (s : State) : Option Turn :=
  firstSome (s.runs.map (fun r =>
    match s.blk r.blk with
    | some b => if s.stalled b.core then none else (b.sp r.m).map (fun sp => Turn.run b.core sp.spid)
    | none => none))

/-! The ports (R343 to R345). -/

/-- A batch in `yield` gives way to every other ready batch of its partition (R279). -/
def Cand.free (c : Cand) (all : List Cand) : Bool :=
  !c.yields || !all.any (fun x => x.core == c.core && partOf x.spid == partOf c.spid && !x.yields)

/-- The port that a batch's clause issues at. -/
def Port.serves (p : Port) (c : Cand) : Bool := p.core == c.core && p.part == partOf c.spid && p.cls == c.cls

/-- A port's number in the order in which the model lets the ports take turns. -/
def clsIndex : Cls → Nat
  | .v => 0
  | .m => 1
  | .x => 2
  | .c => 3
def Cand.port (c : Cand) : Nat := (4 * c.core + partOf c.spid) * 4 + clsIndex c.cls

/-- The round allows a batch a clause: its first, or after one with CHAIN a further one, up to eight (R345), which never
overtakes an urgent batch (R179). -/
def Port.allows (p : Port) (urgent : Bool) (c : Cand) : Bool :=
  p.cur == some c.spid &&
  (match p.used.find? (fun x => x.1 == c.slot) with
    | none => true
    | some (_, n, chain) => chain && !c.yields && decide (n < 8) && (c.urgent || !urgent))

/-- The next clause of the batch whose clause with CHAIN has just issued, which the port prefers (R179). -/
def Port.chained (p : Port) (l : List Cand) : Option Cand :=
  match p.used with
  | (k, _, true) :: _ => l.find? (fun c => c.slot == k)
  | _ => none

/-- The clause counts in the round. -/
def Port.issued (p : Port) (c : Cand) : Port :=
  let n := ((p.used.find? (fun x => x.1 == c.slot)).map (fun x => x.2.1)).getD 0
  { p with used := (c.slot, n + 1, c.chain) :: p.used.filter (fun x => x.1 != c.slot) }

/-- The one of least figure, the earlier of two alike. -/
def least {α : Type} (f : α → Nat) : List α → Option α
  | [] => none
  | x :: r =>
    match least f r with
    | none => some x
    | some y => if f x ≤ f y then some x else some y

/-- The next clause of a port: of the spindle whose round runs, the batch that CHAIN names, else the oldest; else a new
round, for the urgent clause ready longest, or by round robin over the 64 positions (R345). -/
def Port.next (p : Port) (mine : List Cand) : Option (Cand × Port) :=
  let oldest (p : Port) : Option (Cand × Port) :=
    let l := mine.filter (p.allows (mine.any (·.urgent)))
    ((p.chained l).orElse (fun _ => least (·.since) l)).map (fun c => (c, p.issued c))
  match oldest p with
  | some x => some x
  | none =>
    match least (·.since) (mine.filter (·.urgent)) with
    | some c => oldest { p with cur := some c.spid, used := [] }
    | none =>
      match least (fun c => (c.spid % 64 + 63 - p.pos) % 64) mine with
      | some c => oldest { p with cur := some c.spid, used := [], pos := c.spid % 64 }
      | none => none

/-- A port before its first round: round robin starts at position 0. DESIGN CHOICE, log entry 7. -/
def Cand.portOf (c : Cand) (s : State) : Port :=
  (s.sched.ports.find? (fun p => p.serves c)).getD
    { core := c.core, part := partOf c.spid, cls := c.cls, pos := 63, cur := none, used := [] }

/-- The next clause to issue, with the ports as it leaves them: the ports take turns. A batch whose next clause waits on
tokens parks, outside every round. -/
def State.planIssue (s : State) : Option (Turn × Sched) :=
  let all := s.cands
  let free := all.filter (fun c => c.free all && !c.waits)
  match all.find? (fun c => c.free all && c.waits) with
  | some c => some (.event (.clauseIssue c.core c.spid c.slot), s.sched)
  | none =>
  match least (fun c => (c.port + 65535 - s.sched.rr) % 65536) free with
  | none => none
  | some x =>
    let p := x.portOf s
    (p.next (free.filter p.serves)).map (fun (y : Cand × Port) =>
      (Turn.event (.clauseIssue y.1.core y.1.spid y.1.slot),
        { s.sched with
          rr := x.port, ports := y.2 :: s.sched.ports.filter (fun q => !q.serves x)
          ready := s.sched.ready.filter (fun r => !(r.core == y.1.core && r.spid == y.1.spid && r.slot == y.1.slot)) }))

/-! Blocks and queues. -/

/-- Grants and releases. -/
def State.planRelease (s : State) : List Instr :=
  (s.blocks.filter (fun b => b.spindles.any (fun sp => sp.acq.isSome))).map (fun b => .allotmentGrant b.core) ++
  s.blocks.flatMap (fun b => b.spindles.map (fun sp => .spindleRelease b.core sp.spid)) ++ s.blocks.map (fun b => .blockFree b.uid)

/-- Readmission, eviction and admission (R38, R39, R375, R390). -/
def State.planBlocks (s : State) : List Instr :=
  (if (s.nextD.bind (fun l => s.place l [])).isSome then [.blockAdmit []] else []) ++
  (s.blocks.filter (fun b => s.wantsBack b)).map (fun b => .blockReadmit b.uid b.core) ++
  (s.ctxs.filter (·.halted)).map (fun c => .blockEvict ((s.blocks.filter (fun b => b.ctx == c.id && !b.evicted)).map (·.uid))) ++
  s.launches.filterMap (fun l => (s.ownVictims l).map (fun v => .blockEvict (v.map (·.uid)))) ++
  (match s.nextD with
    | some l => if (s.place l []).isSome then [] else ((s.victims l).map (fun v => Instr.blockEvict (v.map (·.uid)))).toList
    | none => []) ++
  [.blockAdmit []]

/-- The queues' packets (R365 to R370). -/
def State.planQueues (s : State) : List Instr :=
  (s.queues.filter (fun q => q.en || q.stopping)).flatMap (fun q =>
    [.queueSwitchIn q.n, .nopPacket q.n, .launch q.n, .indirect q.n, .waitmem q.n, .waitmemRecheck q.n, .signal q.n,
      .fencePacket q.n, .setctx q.n, .timestamp q.n])

/-- The kinds of work, each with its first move and the scheduler as that leaves it: nothing is evicted or admitted while a
grant or a release can be made. -/
def State.planKind (s : State) (n : Nat) : Option (Turn × Sched) :=
  let with_ (t : Option Turn) : Option (Turn × Sched) := t.map (fun x => (x, s.sched))
  match n with
  | 0 => with_ (s.firstMove s.planControl)
  | 1 => with_ (s.firstMove s.planUnits)
  | 2 => with_ s.planRun
  | 3 => s.planIssue
  | 4 => with_ (s.firstMove (s.planRelease.map Turn.event))
  | 5 => with_ (s.firstMove ((s.planRelease ++ s.planBlocks).map Turn.event))
  | _ => with_ (s.firstMove (s.planQueues.map Turn.event))

/-- The part's own next turn. DESIGN CHOICE, log entry 8. -/
def State.plan (s : State) : Option (Turn × Sched) := firstSome ((List.range 7).map (fun n => s.planKind ((s.turn + n) % 7)))

end Sys2Proof.Machine
end

