-- ==== Sys2Proof/Machine/Step.lean ====
section
/-! DEFINITION. Step.lean: one step of the part (log entries 1, 8 and 10). -/

namespace Sys2Proof.Machine

/-- The clause in progress goes on: its next instruction executes, or it ends. -/
def stepRun (s : State) : Host.Outcome State Fault Refusal :=
  if s.runStalled then .next s.setAside
  else
    match s.fetch with
    | .error t => .next (t.beside s)
    | .ok (i, t) => t.perform i

/-- A turn. -/
def stepTurn (t : Turn) (s : State) : Host.Outcome State Fault Refusal :=
  match t with
  | .event i => s.perform i
  | .run core spid => stepRun (s.selectRun core spid)
  | .part m => s.performPart m

/-- The part's own turn. -/
def stepPlan (s : State) : Host.Outcome State Fault Refusal :=
  let s := s.noteReady
  match s.plan with
  | some (t, x) => stepTurn t { s with sched := x, turn := s.turn + 1 }
  | none => .next { s with turn := s.turn + 1 }

/-- Without power, only the events that bring the part back have an effect. -/
def stepDark (s : State) : Host.Outcome State Fault Refusal :=
  match s.agenda with
  | [] => .fault .unpowered
  | .event i :: r =>
    match i with
    | .reset _ | .standbyPowerLoss => exec i { s with agenda := r }
    | _ => .next { s with agenda := r }
  | .run _ _ :: r | .part _ :: r => .next { s with agenda := r }

/-- What a powered part does once time has gone on: what time has made due, then the turn given, then the clause in
progress, then what it does by itself. DESIGN CHOICE, log entry 8. -/
def stepLive (s : State) : Host.Outcome State Fault Refusal :=
  match s.due with
  | some i => s.perform i
  | none =>
    match s.agenda with
    | t :: r => stepTurn t { s with agenda := r }
    | [] => if s.run.active then stepRun s else stepPlan s

/-- One step. -/
def step (s : State) : Host.Outcome State Fault Refusal := if s.powered then stepLive s.tick else stepDark s

/-! The placing of an instruction. -/

/-- A thread in a clause. -/
def probeThread : Thread :=
  { st := .ready, before := .ready, pc := 0, dpc := 0, diverted := false, divertDue := false, preds := 0, tok := 0, rs := []
    rsd := 0, insys := false, code := 0, sysa := 0, sysb := 0, sysret := 0, tls := 0, wake := none, yielded := false, grp := 0
    mid := none, stop := none, stopRec := none }

/-- A spindle with one thread. -/
def probeSpindle : Spindle :=
  { spid := 0, lane := 0, m := 0, e0 := 1, cons := false, vpro := 128, vfull := 128, apro := 0, afull := 0, full := false
    acq := none, v := List.replicate 128 { tag := .u, vals := List.replicate 32 0 }, s := List.replicate 64 0
    bars := List.replicate 8 (0, 0), threads := [probeThread] }

/-- A block of one spindle on core 0. -/
def probeBlock (uid : Nat) : Block :=
  { uid := uid, launch := uid, ctx := 0, core := 0, gl := 0, f2 := 0, wid := 0, order := uid, evicted := false, saveRec := none
    spindles := [probeSpindle], lsize := 0, lmem := [], absent := [], fills := [], stash := [], owned := [], dirty := []
    acc := [], tiles := List.replicate 16 none, barArr := [], gbarArr := [], barPh := 0, gbarPh := 0, gangN := 0, gangX := [] }

/-- A clause of some words in progress in a block. -/
def probeRun (uid : Nat) (c : Cls) (ws : List Word) : Run :=
  { active := true, blk := uid, m := 0, hdr := 0, base := 0, cls := c, exec := [0], token := none, words := ws, cur := []
    idx := 0, lat := none, latches := [], npc := BitVec.ofNat 64 (4 * (1 + ws.length)) }

/-- The state in which the next step fetches an instruction given as the opcode table's bits: it stands as the whole
clause of the thread that runs, or of a thread put there where none runs (DESIGN CHOICE, log entry 10). -/
def State.withFetchWord (s : State) (nbits w : Nat) : State :=
  let ws := tableWords (w % 2 ^ nbits)
  let (c, ws) := match decodeAny ws with
    | some (c, _, n) => (c, ws.take n)
    | none => (.v, ws)
  let s := { s with agenda := [], powered := true }
  if s.env.isSome then
    { s with run := { s.run with cls := c, words := ws, lat := none, latches := []
                                 npc := s.run.hdr + BitVec.ofNat 64 (4 * (1 + ws.length)) } }
  else
    { s with blocks := s.blocks ++ [probeBlock s.nextId], run := probeRun s.nextId c ws, nextId := s.nextId + 1 }

end Sys2Proof.Machine
end

