-- ==== Sys2Proof/Safety.lean ====
section
/-! DEFINITION. Safety.lean: what claims about the part speak of: the parts of the state as an observer reads them,
what each kind of instruction may change, and what holds in every state a run reaches. -/

namespace Sys2Proof.Safety

open Sys2Proof.Machine

/-- Every memory the part holds is in canonical form. -/
def MemInv (s : State) : Prop := Memory.wf s.mem = true ∧ ∀ b ∈ s.blocks, Memory.wf b.lmem = true

/-- A step never refuses, and stops only for want of power. -/
def Runs (s : State) : Prop := (∃ t, step s = .next t) ∨ step s = .fault .unpowered

/-! Observations. A spindle is named by its block's number and its field-1 value. -/

/-- A spindle. -/
def spn (s : State) (u m : Nat) : Option Spindle := (s.blk u).bind (fun b => b.sp m)

/-- Vector register n of a spindle (R49). -/
def vreg (s : State) (u m n : Nat) : Option VReg := (spn s u m).bind (fun sp => sp.v[n]?)

/-- Its word in slot k. -/
def word (s : State) (u m n k : Nat) : Option Word := (vreg s u m n).bind (fun r => r.vals[k]?)

/-- Uniform register n (R49). -/
def sreg (s : State) (u m n : Nat) : Option Dword := (spn s u m).bind (fun sp => sp.s[n]?)

/-- The thread in slot k. -/
def thr (s : State) (u m k : Nat) : Option Thread := (spn s u m).bind (fun sp => sp.threads[k]?)

/-- A block but for its spindles. -/
def shell (s : State) (u : Nat) : Option Block := (s.blk u).map (fun b => { b with spindles := [] })

/-- The state but for what memory traffic changes: memories and caches, requests that leave the part, those that wait at it
and those that wait for an answer, the turns it brings on, the free values it uses, the stash lines that blocks hold, the
logs' counts. -/
def calm (s : State) : State :=
  { s with
    agenda := [], freeCtr := 0, mem := [], durable := [], writes := 0, kept := [], coh := Coh.reset, out := []
    fabric := { s.fabric with outst := [], held := [] }
    blocks := s.blocks.map (fun b => { b with absent := [], owned := [], dirty := [] })
    ctxs := s.ctxs.map (fun c => { c with prodA := 0, prodE := 0, logdrops := 0 }) }

/-- Nothing but what memory traffic changes differs, and memory keeps its canonical form. -/
def Traffic (s t : State) : Prop := calm t = calm s ∧ (MemInv s → MemInv t)

/-- Nothing of a context is left in the part (R392). -/
structure CtxGone (t : State) (n : Nat) : Prop where
  ctx : t.ctx n = none
  blocks : ∀ b ∈ t.blocks, b.ctx ≠ n
  launches : ∀ l ∈ t.launches, l.ctx ≠ n
  ops : ∀ o ∈ t.ops, o.ctx ≠ n
  operators : ∀ o ∈ t.operators, o.owner ≠ n
  merges : ∀ m ∈ t.mslots, m.ctx ≠ n
  queues : ∀ q ∈ t.queues, q.ctx = n ∨ q.ctxid = n → q.en = false
  tlb : ∀ x ∈ t.coh.tlb, x.ctx ≠ n

/-! Frames. -/

/-- Nothing but one spindle, the clause in progress and the list of pending operations differs. -/
structure OnlySpindle (s t : State) (u m : Nat) : Prop where
  others : ∀ u' m', ¬(u' = u ∧ m' = m) → spn t u' m' = spn s u' m'
  shells : ∀ u', shell t u' = shell s u'
  rest : t = { s with run := t.run, blocks := t.blocks, ops := t.ops }

/-- The word that a write to `d` in the slots `ks` puts in slot k of register n, whose word was `old` (R53, R58). -/
def newWord (d : VDst) (wide : Bool) (ks : List Nat) (f : Nat → Dword) (n k : Nat) (old : Word) : Word :=
  match d with
  | .latch => old
  | .v r =>
    if k ∈ ks then
      (if wide = true ∧ n = r.toNat + 1 then hi32 (f k) else if n = r.toNat then lo32 (f k) else old)
    else old

/-- A write to `d` reaches register n. -/
def hits (d : VDst) (wide : Bool) (n : Nat) : Prop :=
  match d with
  | .latch => False
  | .v r => n = r.toNat ∨ (wide = true ∧ n = r.toNat + 1)

/-- What an instruction with a V-class result does, and all it does (R53, R58 to R60, R62): `f` gives each slot's result
and `tg` the tag of a full write. -/
structure VWrite (s t : State) (e : Env) (d : VDst) (wide : Bool) (f : Nat → Dword) (tg : Tag) : Prop where
  only : OnlySpindle s t e.b.uid e.sp.m
  words : ∀ n k, word t e.b.uid e.sp.m n k = (word s e.b.uid e.sp.m n k).map (newWord d wide e.r.exec f n k)
  hit : ∀ n, hits d wide n → (vreg t e.b.uid e.sp.m n).map (·.tag) =
    (vreg s e.b.uid e.sp.m n).map (fun _ => if e.full then tg else .g)
  miss : ∀ n, ¬hits d wide n → vreg t e.b.uid e.sp.m n = vreg s e.b.uid e.sp.m n
  else_ : (spn t e.b.uid e.sp.m).map (fun sp => { sp with v := [] }) = (spn s e.b.uid e.sp.m).map (fun sp => { sp with v := [] })
  run : ∃ l : Latch, t.run = { s.run with lat := some l } ∧ l.wide = wide ∧ l.tag = (if e.full then tg else .g) ∧
    ∀ k, k < 32 → l.vals[k]? = some (if wide then f k else (lo32 (f k)).setWidth 64)
  ops : t.ops = match d with
    | .latch => s.ops
    | .v r => (s.dropPending e.b.uid e.sp.m s.nextId
        (fun k n => e.r.exec.contains k && (n == r.toNat || (wide && n == r.toNat + 1)))).ops

/-- What writing a predicate does, and all it does (R57): `f` gives the bit of each executing slot's thread. -/
structure PWrite (s t : State) (e : Env) (p : BitVec 5) (f : Nat → Bool) : Prop where
  only : OnlySpindle s t e.b.uid e.sp.m
  run : t.run = s.run
  ops : t.ops = s.ops
  else_ : (spn t e.b.uid e.sp.m).map (fun sp => { sp with threads := [] }) =
    (spn s e.b.uid e.sp.m).map (fun sp => { sp with threads := [] })
  gone : ∀ k, thr s e.b.uid e.sp.m k = none → thr t e.b.uid e.sp.m k = none
  bits : ∀ k x, thr s e.b.uid e.sp.m k = some x →
    ∃ y : Word, thr t e.b.uid e.sp.m k = some { x with preds := y } ∧
      ∀ i, i < 32 → y.getLsbD i = if k ∈ e.r.exec ∧ i = p.toNat then f k else x.preds.getLsbD i

/-- What a clause set aside, and a thread inside a clause, keep of a uniform result's register, which held `old` (R55). -/
def keptRun (d : UDst) (u m : Nat) (old : Dword) (r : Run) : Run :=
  match d with
  | .latch => r
  | .s n => r.keepOld u m n.toNat old
def keptThread (d : UDst) (old : Dword) (x : Thread) : Thread :=
  match d with
  | .latch => x
  | .s n => x.keepOld n.toNat old

/-- What the register of a uniform result holds before it. -/
def heldBefore (s : State) (u m : Nat) (d : UDst) : Dword :=
  match d with
  | .latch => 0
  | .s n => (sreg s u m n.toNat).getD 0

/-- What a uniform result does, and all it does (R55, R60, R62): clauses of the spindle set aside, and threads that stand inside
one, keep what the register held. -/
structure UWrite (s t : State) (e : Env) (d : UDst) (v : Dword) : Prop where
  rest : t = { s with run := t.run, runs := t.runs, blocks := t.blocks, ops := t.ops }
  others : ∀ u' m', ¬(u' = e.b.uid ∧ m' = e.sp.m) → spn t u' m' = spn s u' m'
  shells : ∀ u', shell t u' = shell s u'
  regs : ∀ i, sreg t e.b.uid e.sp.m i = (sreg s e.b.uid e.sp.m i).map (fun old =>
    match d with
    | .latch => old
    | .s n => if i = n.toNat then v else old)
  else_ : (spn t e.b.uid e.sp.m).map (fun sp => { sp with s := [], threads := [] }) =
    (spn s e.b.uid e.sp.m).map (fun sp => { sp with s := [], threads := [] })
  threads : ∀ k, thr t e.b.uid e.sp.m k = (thr s e.b.uid e.sp.m k).map (keptThread d (heldBefore s e.b.uid e.sp.m d))
  runs : t.runs = s.runs.map (keptRun d e.b.uid e.sp.m (heldBefore s e.b.uid e.sp.m d))
  run : ∃ l : Latch, l.wide = true ∧ l.tag = .u ∧ (∀ k, k < 32 → l.vals[k]? = some v) ∧
    t.run = { s.run with lat := some l, olds := match d with
      | .latch => s.run.olds
      | .s n => s.run.olds.filter (fun x => x.1 != n.toNat) }
  ops : t.ops = match d with
    | .latch => s.ops
    | .s n => (s.loseS e.b.uid e.sp.m s.nextId n.toNat).ops

/-- What issuing a long-latency instruction with a vector destination does, and all it does (R50, R52, R63): the
registers from `base` on are tagged G, and one operation for each executing slot will bring it the words `f`. -/
structure Issued (s t : State) (e : Env) (base count : Nat) (f : Nat → List Word) : Prop where
  rest : t = { s with blocks := t.blocks, ops := t.ops, nextId := t.nextId }
  others : ∀ u' m', ¬(u' = e.b.uid ∧ m' = e.sp.m) → spn t u' m' = spn s u' m'
  shells : ∀ u', shell t u' = shell s u'
  regs : ∀ n, vreg t e.b.uid e.sp.m n = (vreg s e.b.uid e.sp.m n).map (fun r =>
    if base ≤ n ∧ n < base + count then { r with tag := .g } else r)
  else_ : (spn t e.b.uid e.sp.m).map (fun sp => { sp with v := [] }) = (spn s e.b.uid e.sp.m).map (fun sp => { sp with v := [] })
  ids : t.nextId = s.nextId + e.r.exec.length
  ops : t.ops = s.ops ++ e.r.exec.zipIdx.map (fun x =>
    { id := s.nextId + x.2, blk := e.b.uid, m := e.sp.m, ctx := e.b.ctx, core := e.b.core, spid := e.sp.spid, slots := [x.1]
      token := e.r.token, hdr := e.r.hdr, start := s.devtime
      kind := .regs ((f x.1).zipIdx.map (fun w => { slot := x.1, reg := base + w.2, val := w.1 })) })

/-- What issuing one operation for the whole batch does, and all it does (R50, R288); `early` where it reads a tile that an
`mma` has made unpredictable (R66). -/
def Queued (s t : State) (e : Env) (k : OpKind) (early : Bool := false) : Prop :=
  t = { s with
    nextId := s.nextId + 1
    ops := s.ops ++ [{ id := s.nextId, blk := e.b.uid, m := e.sp.m, ctx := e.b.ctx, core := e.b.core, spid := e.sp.spid
                       slots := e.r.exec, token := e.r.token, hdr := e.r.hdr, start := s.devtime, kind := k, early := early }] }

/-- What issuing an `mma` into a tile does, and all it does: beside the operation, the tile's words and the operand ranges
`l` of the block's memory are unpredictable until a wait on its token (R66). -/
def QueuedMma (s t : State) (e : Env) (tl : Tile) (l : List (Nat × Nat)) (k : OpKind) : Prop :=
  ∃ u, Queued s u e k ∧ t = u.updBlk e.b.uid (fun b => { b with
    mmas := { op := s.nextId, m := e.sp.m, slots := e.r.exec, token := e.r.token, base := tl.base, size := tl.rows * tl.cols
              opnds := l } :: b.mmas })

/-- A thread parked on tokens runs on when they are clear (R34). -/
def woken (x : Thread) : Thread :=
  match x.st with
  | .parked (.tokens mask) => if x.tok &&& mask = 0 then { x with st := .ready } else x
  | _ => x

/-- What leaving the clause does to the executing threads, and all it does (R61, R182): each takes the state `f` gives it,
unless its context's halt line is up or its divert is due; tokens that nothing covers any more clear. -/
structure Leaves (s t : State) (e : Env) (f : Nat → Thread → Thread) : Prop where
  rest : t = { s with run := Run.idle, blocks := t.blocks }
  others : ∀ u' m', ¬(u' = e.b.uid ∧ m' = e.sp.m) → spn t u' m' = spn s u' m'
  shells : ∀ u', shell t u' = shell s u'
  else_ : (spn t e.b.uid e.sp.m).map (fun sp => { sp with threads := [] }) =
    (spn s e.b.uid e.sp.m).map (fun sp => { sp with threads := [] })
  gone : ∀ k, thr s e.b.uid e.sp.m k = none → thr t e.b.uid e.sp.m k = none
  threads : ∀ k x, thr s e.b.uid e.sp.m k = some x →
    let y := if k ∈ e.r.exec then (f k { x with mid := none, served := [] }).between (s.halting e.b.ctx)
      (((s.launch e.b.launch).map (fun l => l.parting e.sp.m)).getD 0) else x
    ∃ w : Byte, thr t e.b.uid e.sp.m k = some (woken { y with tok := w }) ∧
      ∀ i, i < 8 → w.getLsbD i = (y.tok.getLsbD i && t.covered e.b.uid e.sp.m k y (BitVec.ofNat 3 i))

/-- A thread that parks at the instruction being executed: it stands there, inside the clause, with its latches (R34); under its
context's halt line it stops there (R389). -/
def standing (s : State) (e : Env) (k : Nat) (c : Park) (x : Thread) : Thread :=
  { x with
    st := if s.halting e.b.ctx = true then .halted else .parked c
    before := if s.halting e.b.ctx = true then .parked c else x.before
    served := []
    mid := some {
      hdr := e.r.hdr, idx := e.r.idx - 1, token := e.r.token, after := if e.r.words = [] then some e.r.npc else none
      copy := if e.r.base = e.r.hdr then 0 else e.r.base, olds := e.r.olds
      latches := ((e.r.latches.headD none :: e.r.latches.drop 1).take 4).map (fun l => l.map (fun x => x.at k)) } }

/-- The thread in slot k is `y`, but for tokens that nothing covers any more (R61) and the wait for them that ends. -/
def SettledAs (t : State) (u m k : Nat) (y : Thread) : Prop :=
  ∃ w : Byte, thr t u m k = some (woken { y with tok := w }) ∧
    ∀ i, i < 8 → w.getLsbD i = (y.tok.getLsbD i && t.covered u m k y (BitVec.ofNat 3 i))

/-- What changes the executing threads and nothing else. -/
structure Threads (s t : State) (e : Env) (f : Nat → Thread → Thread) : Prop where
  rest : t = { s with run := t.run, blocks := t.blocks }
  others : ∀ u' m', ¬(u' = e.b.uid ∧ m' = e.sp.m) → spn t u' m' = spn s u' m'
  shells : ∀ u', shell t u' = shell s u'
  else_ : (spn t e.b.uid e.sp.m).map (fun sp => { sp with threads := [] }) =
    (spn s e.b.uid e.sp.m).map (fun sp => { sp with threads := [] })
  threads : ∀ k, thr t e.b.uid e.sp.m k = (thr s e.b.uid e.sp.m k).map (fun x => if k ∈ e.r.exec then f k x else x)

/-- Nothing stands between the memory a core sees and what it accesses: no bias flip, no stash line, no retired frame,
no store of another die that waits for its acknowledgement, no line that another host has written at its device, no copy in
the core's L1. -/
structure Quiet (s : State) (core : Nat) : Prop where
  flips : s.coh.flips = []
  stash : ∀ b ∈ s.blocks, b.owned = []
  frames : s.health.unmapped = []
  device : s.coh.device = []
  pend : ∀ p ∈ s.coh.pend, p.die = dieOf core ∧ p.pa % 128 + p.data.length ≤ 128
  copies : ∀ c ∈ s.coh.l1, c.core ≠ core

/-- A byte of memory as a core's die sees it. -/
def seen (s : State) (core a : Nat) : Byte := s.view (some (dieOf core)) a

/-- The place is memory of the part, a tailstock or the host. -/
def isMem (l : Loc) : Prop := ∃ pa, l = .mem pa

/-- The byte that a store of `d` to pieces puts at a physical address. -/
def stored : List (Loc × Nat) → List Byte → Nat → Option Byte
  | [], _, _ => none
  | (l, n) :: r, d, a =>
    match stored r (d.drop n) a with
    | some b => some b
    | none => match l with
      | .mem pa => if pa ≤ a ∧ a < pa + n then d[a - pa]? else none
      | _ => none

/-- The registers' words that loaded bytes give, by the size of the load (R243). -/
def loaded (sz : Size) (d : List Byte) : List Word :=
  let v := leNat d
  match sz with
  | .b8 | .b16 | .b32 => [BitVec.ofNat 32 v]
  | .i8 => [BitVec.ofInt 32 (if v < 128 then (v : Int) else (v : Int) - 256)]
  | .i16 => [BitVec.ofInt 32 (if v < 32768 then (v : Int) else (v : Int) - 65536)]
  | .b64 => [BitVec.ofNat 32 v, BitVec.ofNat 32 (v / 2 ^ 32)]
  | .b128 => [BitVec.ofNat 32 v, BitVec.ofNat 32 (v / 2 ^ 32), BitVec.ofNat 32 (v / 2 ^ 64), BitVec.ofNat 32 (v / 2 ^ 96)]

/-- A byte of a block's local memory. -/
def localByte (s : State) (u a : Nat) : Option Byte := (s.blk u).map (fun b => b.lbyte a)

/-- The same as spindle m of the block sees it: its own stores too that the others do not see yet (R151, R156). -/
def ownByte (s : State) (u m a : Nat) : Option Byte :=
  (s.blk u).map (fun b => (b.late.filter (fun x => x.m == m)).foldl (fun old x =>
    if x.addr ≤ a ∧ a < x.addr + x.data.length then (x.data[a - x.addr]?).getD old else old) (b.lbyte a))

/-- Nothing but a block's local bytes, their marks as written, what an `mma` may still read of the old ones and the stores
that the others do not see yet differs; copies of its stash lines may leave the L1s. -/
structure LocalOnly (s t : State) (u : Nat) : Prop where
  rest : t = { s with blocks := t.blocks, coh := { s.coh with l1 := t.coh.l1 } }
  copies : ∀ c ∈ t.coh.l1, c ∈ s.coh.l1
  blocks : t.blocks.map (fun b => { b with lmem := [], dirty := [], unseen := [], late := [] }) =
    s.blocks.map (fun b => { b with lmem := [], dirty := [], unseen := [], late := [] })
  others : ∀ u', u' ≠ u → s.blk u' = t.blk u'
  memory : MemInv s → MemInv t

/-- The requests that a request to a peer makes, one for each line it reaches (R3, R166). -/
def requests (s : State) (key : StreamId) (dev : BitVec 12) (pa : Nat) (k : PeerKind) (op : Option Nat)
    (thr : Option (Nat × Nat × Nat)) : List HeldOut :=
  (linePieces pa (peerSize k)).map (fun p =>
    { kind := peerPart k (p.1 - pa) p.2
      x := { key := key, dev := dev, plane := s.planeOf p.1, op := op, thr := thr, addr := BitVec.ofNat 64 p.1, len := p.2 } })

/-- A request as it leaves the part. -/
def HeldOut.msg (h : HeldOut) : OutMsg := .peerReq h.x.key h.x.plane h.x.dev h.x.addr.toNat h.kind

/-- A unit serves a context at once (R380, R414): it is not stopped for another, and it holds the context's program, or the
firmware that loads it runs and none of its operations for others are in flight. -/
def Serves (s : State) (unit ctx : Nat) : Prop :=
  s.unitStopped unit ctx = false ∧
    (s.sched.units.contains (unit, ctx) = true ∨ s.unitBusy unit ctx = false ∧ s.loader unit = true)

/-- The state in which it does: the unit loaded, the load's time charged to the context (R380, R388, R413). -/
def serving (s : State) (unit ctx : Nat) : State :=
  if s.sched.units.contains (unit, ctx) = true then s
  else (s.loadUnit unit ctx (Config.unitProgram unit ctx)).chargeLoad unit ctx

/-- The batch is held at its instruction, which is issued again later (R380). -/
def HeldAt (s t : State) (e : Env) : Prop :=
  t = { s with sched := t.sched, run := Run.idle, runs := s.runs ++ [e.r.back] } ∧ t.sched.units = s.sched.units

/-- An operation's result in an s register is made: no later write of the register came first, and a thread of those that
issued it has not exited (R55, R62, R278). -/
def live (s : State) (o : Op) : Prop :=
  o.lost = false ∧ ∃ sp, spn s o.blk o.m = some sp ∧ ∃ k ∈ o.slots, sp.gone k = false

/-- The pending operations that carry a number. -/
def pending (s : State) (id : Nat) : Option Op := s.ops.find? (fun o => o.id == id)

/-- An operation leaves the list, and nothing else changes: its token may clear in the threads of its spindle (R61), and
requests to peers that waited for its answer may leave (R166). -/
structure OpLeaves (s t : State) (o : Op) : Prop where
  rest : t = { (State.flushHeld { s with fabric := { s.fabric with outst := s.fabric.outst.filter (fun x =>
    !(x.op == some o.id && x.thr.isSome)) } }) with blocks := t.blocks, ops := t.ops }
  others : ∀ u' m', ¬(u' = o.blk ∧ m' = o.m) → spn t u' m' = spn s u' m'
  shells : ∀ u', shell t u' = shell s u'
  else_ : (spn t o.blk o.m).map (fun sp => { sp with threads := [] }) = (spn s o.blk o.m).map (fun sp => { sp with threads := [] })
  threads : ∀ k x, thr s o.blk o.m k = some x → SettledAs t o.blk o.m k x
  ops : t.ops = s.ops.filter (fun x => x.id != o.id)

/-- No operation of the number is left, and the others differ at most in what they still have to do, and in whether a later
write of their s register has been made. -/
def OpGone (s t : State) (id : Nat) : Prop :=
  (∀ x ∈ t.ops, x.id ≠ id) ∧ ∀ x ∈ s.ops, x.id ≠ id → ∃ y ∈ t.ops, y = { x with kind := y.kind, lost := y.lost }

end Sys2Proof.Safety
end

