-- ==== Sys2Proof/Certificates/Slice0/Obligations.lean ====
section
/-! DEFINITION. Obligations.lean: statements about the part, for the provers. An instruction acts through the clause in
progress: `s.env = some e` says that a clause runs, in block `e.b` and spindle `e.sp`, with at least one executing slot. -/

open Sys2Proof Sys2Proof.Machine Sys2Proof.Safety

/-! Vector integer instructions. -/

/-- The words of the instructions of R205 and R209 to R214, with the opcodes of those rules.

R205, R209, R210: the two-operand instructions complete with these results in 32-bit arithmetic, and change nothing
but their destination, its tag and the latch.

R205, R210, R212: the one-operand instructions.

R206, R207: the typed integer instructions, element by element, computed exactly and then taken modulo 2^n or clamped
to the type's range.

R211, R213, R214: truth tables, bit fields and byte selection, bit by bit. -/
def Obligations.LaneIntegerResults : Prop :=
  (∀ (n : BitVec 7) (a b c : Sel) (lut : Byte) (rest : List Word),
    let word (op : BitVec 7) (y : Byte) : Word := op ++ 0#1 ++ (0#1 ++ n) ++ a.enc ++ y
    let vi (ty : BitVec 3) (l : Byte) : Word := c.enc ++ ty ++ 0#5 ++ l ++ 0#8
    (∀ p ∈ ([(0x00, .iadd (.v n) a b), (0x01, .isub (.v n) a b), (0x10, .shl (.v n) a b), (0x11, .shr (.v n) a b),
        (0x12, .sar (.v n) a b), (0x13, .rot (.v n) a b), (0x14, .and (.v n) a b), (0x15, .or (.v n) a b),
        (0x16, .xor (.v n) a b), (0x17, .andn (.v n) a b), (0x18, .orn (.v n) a b)] : List (BitVec 7 × Instr)),
      decodeInstr .v (word p.1 b.enc :: (a.lit ++ (b.lit ++ rest))) = .ok (p.2, rest)) ∧
    (∀ p ∈ ([(0x05, .iabs (.v n) a), (0x06, .ineg (.v n) a), (0x19, .not (.v n) a), (0x1B, .popc (.v n) a),
        (0x1C, .clz (.v n) a), (0x1D, .ctz (.v n) a), (0x1E, .brev (.v n) a), (0x24, .mov (.v n) a)] : List (BitVec 7 × Instr)),
      decodeInstr .v (word p.1 0xC0 :: (a.lit ++ rest)) = .ok (p.2, rest)) ∧
    ∀ p ∈ ([(0x1A, vi 0 lut, .logic3 (.v n) lut a b c), (0x1F, vi 0 0, .bfx (.v n) .sgn a b c),
        (0x1F, vi 1 0, .bfx (.v n) .uns a b c), (0x20, vi 0 0, .bfi (.v n) a b c), (0x21, vi 0 0, .bperm (.v n) a b c)]
        : List (BitVec 7 × Word × Instr)),
      decodeInstr .v (word p.1 b.enc :: p.2.1 :: (a.lit ++ (b.lit ++ (c.lit ++ rest)))) = .ok (p.2.2, rest)) ∧
  (∀ (s : State) (e : Env) (d : VDst) (a b : Sel), s.env = some e →
    ∀ p ∈ ([
      (.iadd d a b, fun x y => BitVec.ofNat 32 (x.toNat + y.toNat), e.tagAdd false a b),
      (.isub d a b, fun x y => BitVec.ofInt 32 ((x.toNat : Int) - (y.toNat : Int)), e.tagAdd true a b),
      (.shl d a b, fun x y => if 32 ≤ y.toNat then 0 else BitVec.ofNat 32 (x.toNat * 2 ^ y.toNat), e.tagShl a b),
      (.shr d a b, fun x y => if 32 ≤ y.toNat then 0 else BitVec.ofNat 32 (x.toNat / 2 ^ y.toNat), e.tagOf false [a, b]),
      (.sar d a b, fun x y => BitVec.ofInt 32 (x.toInt / 2 ^ (min y.toNat 31)), e.tagOf false [a, b]),
      (.rot d a b, fun x y => BitVec.ofNat 32 ((x.toNat * 2 ^ (y.toNat % 32)) ||| x.toNat / 2 ^ (32 - y.toNat % 32)),
        e.tagOf false [a, b]),
      (.and d a b, fun x y => x &&& y, e.tagOf false [a, b]),
      (.or d a b, fun x y => x ||| y, e.tagOf false [a, b]),
      (.xor d a b, fun x y => x ^^^ y, e.tagOf false [a, b]),
      (.andn d a b, fun x y => x &&& ~~~y, e.tagOf false [a, b]),
      (.orn d a b, fun x y => x ||| ~~~y, e.tagOf false [a, b])] : List (Instr × (Word → Word → Word) × Tag)),
      ∃ t, exec p.1 s = .next t ∧
        VWrite s t e d false (fun k => (p.2.1 (e.read32 a k) (e.read32 b k)).setWidth 64) p.2.2) ∧
  (∀ (s : State) (e : Env) (d : VDst) (a : Sel), s.env = some e →
    (∃ t, exec (.iabs d a) s = .next t ∧
      VWrite s t e d false (fun k => (BitVec.ofNat 32 (e.read32 a k).toInt.natAbs).setWidth 64) (e.tagOf false [a])) ∧
    (∃ t, exec (.ineg d a) s = .next t ∧
      VWrite s t e d false (fun k => (BitVec.ofInt 32 (-(e.read32 a k).toInt)).setWidth 64) (e.tagNeg a)) ∧
    (∃ t, exec (.not d a) s = .next t ∧
      VWrite s t e d false (fun k => (~~~(e.read32 a k)).setWidth 64) (e.tagNot a)) ∧
    (∃ t, exec (.mov d a) s = .next t ∧ VWrite s t e d false (fun k => (e.read32 a k).setWidth 64) (e.tagMov a)) ∧
    (∃ t, exec (.popc d a) s = .next t ∧
      VWrite s t e d false (fun k => BitVec.ofNat 64 ((List.range 32).countP (fun i => (e.read32 a k).getLsbD i)))
        (e.tagOf false [a])) ∧
    (∃ (t : State) (f : Nat → Word), exec (.clz d a) s = .next t ∧
      VWrite s t e d false (fun k => (f k).setWidth 64) (e.tagOf false [a]) ∧
      ∀ k, (f k).toNat ≤ 32 ∧ (∀ i, 32 - (f k).toNat ≤ i → (e.read32 a k).getLsbD i = false) ∧
        ((f k).toNat < 32 → (e.read32 a k).getLsbD (31 - (f k).toNat) = true)) ∧
    (∃ (t : State) (f : Nat → Word), exec (.ctz d a) s = .next t ∧
      VWrite s t e d false (fun k => (f k).setWidth 64) (e.tagOf false [a]) ∧
      ∀ k, (f k).toNat ≤ 32 ∧ (∀ i, i < (f k).toNat → (e.read32 a k).getLsbD i = false) ∧
        ((f k).toNat < 32 → (e.read32 a k).getLsbD (f k).toNat = true)) ∧
    ∃ (t : State) (f : Nat → Word), exec (.brev d a) s = .next t ∧
      VWrite s t e d false (fun k => (f k).setWidth 64) (e.tagOf false [a]) ∧
      ∀ k i, i < 32 → (f k).getLsbD i = (e.read32 a k).getLsbD (31 - i)) ∧
  (∀ (s : State) (e : Env) (d : VDst) (ty : IType) (a b c : Sel), s.env = some e →
    let el (x : Sel) (k i : Nat) : Int :=
      let w := (e.read ty.is64 x k).toNat / 2 ^ (ty.bits * i) % 2 ^ ty.bits
      if ty.signed = true ∧ 2 ^ (ty.bits - 1) ≤ w then (w : Int) - 2 ^ ty.bits else w
    let clamp (x : Int) : Int := max ty.lo (min x ty.hi)
    let plain : Bool := ty == .sgn || ty == .uns
    ∀ p ∈ ([
      (.imul d ty false a b, fun x y _ => x * y, if plain then e.tagMul a b else e.tagOf ty.is64 [a, b]),
      (.imul d ty true a b, fun x y _ => clamp (x * y), e.tagOf ty.is64 [a, b]),
      (.imulhi d ty a b, fun x y _ => x * y / 2 ^ ty.bits, e.tagOf ty.is64 [a, b]),
      (.imad d ty false a b c, fun x y z => x * y + z, if plain then e.tagMad a b c else e.tagOf ty.is64 [a, b, c]),
      (.imad d ty true a b c, fun x y z => clamp (x * y + z), e.tagOf ty.is64 [a, b, c]),
      (.imin d ty a b, fun x y _ => min x y, e.tagOf ty.is64 [a, b]),
      (.imax d ty a b, fun x y _ => max x y, e.tagOf ty.is64 [a, b]),
      (.iadds d ty a b, fun x y _ => clamp (x + y), e.tagOf ty.is64 [a, b])] : List (Instr × (Int → Int → Int → Int) × Tag)),
      ∃ t f, exec p.1 s = .next t ∧ VWrite s t e d ty.is64 f p.2.2 ∧
        ∀ k i, i < (if ty.packed then 2 else 1) →
          (f k).toNat / 2 ^ (ty.bits * i) % 2 ^ ty.bits = (p.2.1 (el a k i) (el b k i) (el c k i) % 2 ^ ty.bits).toNat) ∧
  (∀ (s : State) (e : Env) (d : VDst) (a b c : Sel) (lut : Byte) (ty : IType), s.env = some e →
    (∃ (t : State) (f : Nat → Word), exec (.logic3 d lut a b c) s = .next t ∧
      VWrite s t e d false (fun k => (f k).setWidth 64) (e.tagOf false [a, b, c]) ∧
      ∀ k i, i < 32 → (f k).getLsbD i = lut.getLsbD (4 * ((e.read32 a k).getLsbD i).toNat +
        2 * ((e.read32 b k).getLsbD i).toNat + ((e.read32 c k).getLsbD i).toNat)) ∧
    (∃ (t : State) (f : Nat → Word), exec (.bfx d ty a b c) s = .next t ∧
      VWrite s t e d false (fun k => (f k).setWidth 64) (e.tagOf false [a, b, c]) ∧
      ∀ k i, i < 32 →
        let x := e.read32 a k
        let pos := (e.read32 b k).toNat % 256
        let len := min ((e.read32 c k).toNat % 256) 32
        (f k).getLsbD i =
          if len = 0 then false
          else if ty == .sgn then x.getLsbD (min (pos + min i (len - 1)) 31)
          else if i < len then x.getLsbD (pos + i) else false) ∧
    (∃ (t : State) (f : Nat → Word), exec (.bfi d a b c) s = .next t ∧
      VWrite s t e d false (fun k => (f k).setWidth 64) (e.tagOf false [a, b, c]) ∧
      ∀ k i, i < 32 →
        let pos := (e.read32 c k).toNat % 256
        let len := min ((e.read32 c k).toNat / 256 % 256) 32
        (f k).getLsbD i =
          if pos ≤ i ∧ i < pos + len then (e.read32 a k).getLsbD (i - pos) else (e.read32 b k).getLsbD i) ∧
    ∃ (t : State) (f : Nat → Word), exec (.bperm d a b c) s = .next t ∧
      VWrite s t e d false (fun k => (f k).setWidth 64) (e.tagOf false [a, b, c]) ∧
      ∀ k j, j < 4 →
        let n := (e.read32 c k).toNat / 16 ^ j % 16
        let y := ((e.read32 a k).toNat + 2 ^ 32 * (e.read32 b k).toNat) / 256 ^ (n % 8) % 256
        (f k).toNat / 256 ^ j % 256 = if 8 ≤ n then (if 128 ≤ y then 255 else 0) else y)

/-- R208: the sum and difference with the predicate carried in, and the carry or borrow carried out.

R233 to R235, R267: predicates read, shapes forced and read, the count of executing slots. -/
def Obligations.CarryAndShapeResults : Prop :=
  (∀ (s : State) (e : Env) (d : VDst) (a b : Sel) (p : BitVec 5), s.env = some e →
    let sum (k : Nat) : Nat := (e.read32 a k).toNat + (e.read32 b k).toNat + (e.pred p k).toNat
    let dif (k : Nat) : Int := ((e.read32 a k).toNat : Int) - (e.read32 b k).toNat - (e.pred p k).toNat
    (∃ t u, exec (.iaddc d a b p) s = .next t ∧
      VWrite s u e d false (fun k => (BitVec.ofNat 32 (sum k)).setWidth 64) .g ∧
      PWrite u t e p (fun k => decide (2 ^ 32 ≤ sum k))) ∧
    (∃ t u, exec (.isubb d a b p) s = .next t ∧
      VWrite s u e d false (fun k => (BitVec.ofInt 32 (dif k)).setWidth 64) .g ∧
      PWrite u t e p (fun k => decide (dif k < 0)))) ∧
  (∀ (s : State) (e : Env) (d : VDst) (a : Sel), s.env = some e →
    let k0 := e.low
    let st : Word := if k0 + 1 ∈ e.r.exec then e.read32 a (k0 + 1) - e.read32 a k0 else 0
    ∀ q ∈ ([
      (.pmov (.get d), fun k => ((e.thr k).map (·.preds)).getD 0, .g),
      (.shape d .u a, fun _ => e.read32 a k0, .u),
      (.shape d .a a, fun k => e.read32 a k0 - BitVec.ofNat 32 k0 * st + BitVec.ofNat 32 k * st,
        if st = 0 then .u else .a (e.read32 a k0 - BitVec.ofNat 32 k0 * st) st),
      (.shape d .g a, fun k => e.read32 a k, .g),
      (.shapeof d a, fun _ => match e.tag false a with | .u => 0 | .a _ _ => 1 | .g => 2, .u),
      (.nact d, fun _ => BitVec.ofNat 32 e.r.exec.length, .u)] : List (Instr × (Nat → Word) × Tag)),
      ∃ t f, exec q.1 s = .next t ∧ VWrite s t e d false f q.2.2 ∧ ∀ k, k < 32 → lo32 (f k) = q.2.1 k)

/-- R51, R52: the arithmetic of tags is sound: where the tags of the sources describe their values in the slots `ks`, the tag
that each rule for keeping affine shapes computes describes the result's values there. It speaks of the tag functions alone, of
no step and no register. -/
def Obligations.ShapeTagsDescribe : Prop :=
  ∀ (e : Env) (ks : List Nat) (a b c : Sel),
    e.low ∈ ks →
    let fits (tg : Tag) (f : Nat → Word) : Prop := match tg with
      | .u => ∀ j ∈ ks, ∀ k ∈ ks, f j = f k
      | .a base st => st ≠ 0 ∧ ∀ k ∈ ks, f k = base + BitVec.ofNat 32 k * st
      | .g => True
    (∀ x ∈ [a, b, c], fits (e.tag false x) (e.read32 x)) →
      fits (e.tagAdd false a b) (fun k => e.read32 a k + e.read32 b k) ∧
      fits (e.tagAdd true a b) (fun k => e.read32 a k - e.read32 b k) ∧
      fits (e.tagNeg a) (fun k => -e.read32 a k) ∧
      fits (e.tagNot a) (fun k => ~~~(e.read32 a k)) ∧
      fits (e.tagMov a) (fun k => e.read32 a k) ∧
      fits (e.tagMul a b) (fun k => e.read32 a k * e.read32 b k) ∧
      fits (e.tagMad a b c) (fun k => e.read32 a k * e.read32 b k + e.read32 c k) ∧
      fits (e.tagShl a b) (fun k => e.read32 a k <<< (e.read32 b k).toNat) ∧
      fits (e.tagOf false [a, b, c]) (fun k => e.read32 a k * e.read32 b k * e.read32 c k)

/-! Predicates, selection, shapes. -/

/-- R215, R223, R233, R263: the comparisons, classifications, tests and votes write one predicate in the executing threads, and
change nothing else.

R233: `pmov.put` replaces the predicates of each executing thread and changes nothing else. -/
def Obligations.PredicateResults : Prop :=
  (∀ (s : State) (e : Env) (p pa : BitVec 5) (a b : Sel) (c : Cond) (ty : IType) (ft : FType) (g : Seg), s.env = some e →
    let int (x : Sel) (k : Nat) : Int :=
      let w := (e.read ty.is64 x k).toNat % 2 ^ ty.bits
      if ty.signed = true ∧ 2 ^ (ty.bits - 1) ≤ w then (w : Int) - 2 ^ ty.bits else w
    let segment (k : Nat) : List Nat := e.r.exec.filter (fun j => j / g.size == k / g.size)
    ∀ q ∈ ([
      (.icmp p c ty a b, fun k => match c with
        | .eq => decide (int a k = int b k)
        | .ne => decide (int a k ≠ int b k)
        | .lt => decide (int a k < int b k)
        | .le => decide (int a k ≤ int b k)
        | .gt => decide (int a k > int b k)
        | .ge => decide (int a k ≥ int b k)),
      (.fclass p ft a b, fun k => (e.read32 b k).getLsbD (ft.fmt.classOf (e.read ft.wide a k).toNat)),
      (.pmov (.test p a), fun k => decide (e.read32 a k ≠ 0)),
      (.pmov (.copy p pa), fun k => e.pred pa k),
      (.vote p .any g pa, fun k => decide (∃ j ∈ segment k, e.pred pa j = true)),
      (.vote p .all g pa, fun k => decide (∀ j ∈ segment k, e.pred pa j = true)),
      (.vote p .uni g pa, fun k =>
        decide ((∀ j ∈ segment k, e.pred pa j = true) ∨ ∀ j ∈ segment k, e.pred pa j = false))]
        : List (Instr × (Nat → Bool))),
      ∃ t, exec q.1 s = .next t ∧ PWrite s t e p q.2) ∧
  (∀ (s : State) (e : Env) (a : Sel), s.env = some e →
    ∃ t, exec (.pmov (.put a)) s = .next t ∧ OnlySpindle s t e.b.uid e.sp.m ∧ t.run = s.run ∧ t.ops = s.ops ∧
      (∀ k, thr t e.b.uid e.sp.m k = (thr s e.b.uid e.sp.m k).map (fun x =>
        if k ∈ e.r.exec then { x with preds := e.read32 a k } else x)) ∧
      (spn t e.b.uid e.sp.m).map (fun sp => { sp with threads := [] }) =
        (spn s e.b.uid e.sp.m).map (fun sp => { sp with threads := [] }))

/-- R232: `pand`, `por`, `pxor` and `pnot`: one word, predicate numbers in bits [4:0] of D, A and B with [7:5] zero, B 0xC0 for
`pnot`; each writes p(D) in the executing threads, and changes neither anything else nor who executes the clause.

R216: `sel`: its words, every field of the VI group 0, and its result, tagged G. -/
def Obligations.PredicateLogic : Prop :=
  (let word (op : BitVec 7) (d a b : Byte) : Word := op ++ 0#1 ++ d ++ a ++ b
   let num (n : BitVec 5) : Byte := 0#3 ++ n
   (∀ (p pa pb : BitVec 5) (rest : List Word),
     decodeInstr .v (word 0x50 (num p) (num pa) (num pb) :: rest) = .ok (.pand p pa pb, rest) ∧
     decodeInstr .v (word 0x51 (num p) (num pa) (num pb) :: rest) = .ok (.por p pa pb, rest) ∧
     decodeInstr .v (word 0x52 (num p) (num pa) (num pb) :: rest) = .ok (.pxor p pa pb, rest) ∧
     decodeInstr .v (word 0x53 (num p) (num pa) 0xC0 :: rest) = .ok (.pnot p pa, rest)) ∧
   (∀ (d a b : Byte) (rest : List Word),
     (32 ≤ d.toNat ∨ 32 ≤ a.toNat ∨ 32 ≤ b.toNat → ∀ op ∈ ([0x50, 0x51, 0x52] : List (BitVec 7)),
       decodeInstr .v (word op d a b :: rest) = .error .illegalOperand) ∧
     (32 ≤ d.toNat ∨ 32 ≤ a.toNat ∨ b ≠ 0xC0 → decodeInstr .v (word 0x53 d a b :: rest) = .error .illegalOperand)) ∧
   ∀ (s : State) (e : Env) (p pa pb : BitVec 5), s.env = some e →
     ∀ q ∈ ([
       (.pand p pa pb, fun k => e.pred pa k && e.pred pb k),
       (.por p pa pb, fun k => e.pred pa k || e.pred pb k),
       (.pxor p pa pb, fun k => e.pred pa k ^^ e.pred pb k),
       (.pnot p pa, fun k => !e.pred pa k)] : List (Instr × (Nat → Bool))),
       ∃ t, exec q.1 s = .next t ∧ PWrite s t e p q.2 ∧ t.run = s.run) ∧
  ∀ (n : BitVec 7) (d : VDst) (a b : Sel) (p : BitVec 5),
    let words (md : BitVec 24) (rest : List Word) : List Word :=
      (0x23#7 ++ 0#1 ++ (0#1 ++ n) ++ a.enc ++ b.enc) :: (0#3 ++ p ++ md) :: (a.lit ++ (b.lit ++ rest))
    (∀ rest, decodeInstr .v (words 0 rest) = .ok (.sel (.v n) a b p, rest)) ∧
    (∀ md rest, md ≠ 0 → decodeInstr .v (words md rest) = .error .illegalInsn) ∧
    ∀ (s : State) (e : Env), s.env = some e →
      ∃ t f, exec (.sel d a b p) s = .next t ∧ VWrite s t e d false f .g ∧
        ∀ k, k < 32 → lo32 (f k) = if e.pred p k = true then e.read32 a k else e.read32 b k

/-! Floating point. -/

/-- R218 to R221, R224 to R231: the floating-point and conversion instructions complete, write what their arithmetic gives
in each executing slot, with the tag of R52, and change nothing else but, where a slot raises an exception, what logging it
changes (R96). -/
def Obligations.FloatResults : Prop :=
  ∀ (s : State) (e : Env) (d : VDst) (m : FMod) (t : FType) (ftz : Bool) (a b c : Sel), s.env = some e →
    ∀ q ∈ ([
      (.fadd d m a b, m.ft, fun F x y _ => F.add m.rnd.mode m.ftz false x y, [a, b]),
      (.fsub d m a b, m.ft, fun F x y _ => F.add m.rnd.mode m.ftz true x y, [a, b]),
      (.fmul d m a b, m.ft, fun F x y _ => F.mul m.rnd.mode m.ftz x y, [a, b]),
      (.ffma d m a b c, m.ft, fun F x y z => F.fma m.rnd.mode m.ftz x y z, [a, b, c]),
      (.fmin d t ftz a b, t, fun F x y _ => F.minmax false false ftz x y, [a, b]),
      (.fmax d t ftz a b, t, fun F x y _ => F.minmax true false ftz x y, [a, b]),
      (.fminn d t ftz a b, t, fun F x y _ => F.minmax false true ftz x y, [a, b]),
      (.fmaxn d t ftz a b, t, fun F x y _ => F.minmax true true ftz x y, [a, b]),
      (.fabs d t a, t, fun F x _ _ => (x % 2 ^ (F.fbits + F.ebits), 0), [a]),
      (.fneg d t a, t, fun F x _ _ => ((x + 2 ^ (F.fbits + F.ebits)) % 2 ^ (F.fbits + F.ebits + 1), 0), [a]),
      (.fsgn d t a b, t, fun F x y _ =>
        (x % 2 ^ (F.fbits + F.ebits) + y / 2 ^ (F.fbits + F.ebits) % 2 * 2 ^ (F.fbits + F.ebits), 0), [a, b]),
      (.fround d m a, m.ft, fun F x _ _ => F.roundInt m.rnd.mode m.ftz x, [a]),
      (.fmant d t ftz a, t, fun F x _ _ => F.mant ftz x, [a])]
        : List (Instr × FType × (FFmt → Nat → Nat → Nat → Nat × Exc) × List Sel)),
      ∃ (t0 t1 : State) (f : Nat → Dword × Exc), exec q.1 s = .next t1 ∧ VWrite s t0 e d q.2.1.wide (fun k => (f k).1) (e.tagOf q.2.1.wide q.2.2.2) ∧
        Traffic t0 t1 ∧ ((∀ k ∈ e.r.exec, (f k).2 = 0) → t1 = t0) ∧
        ∀ k,
          let x := (e.read q.2.1.wide a k).toNat
          let y := (e.read q.2.1.wide b k).toNat
          let z := (e.read q.2.1.wide c k).toNat
          let F := q.2.1.fmt
          if q.2.1.pack then
            let l := q.2.2.1 F (x % 2 ^ 16) (y % 2 ^ 16) (z % 2 ^ 16)
            let h := q.2.2.1 F (x / 2 ^ 16 % 2 ^ 16) (y / 2 ^ 16 % 2 ^ 16) (z / 2 ^ 16 % 2 ^ 16)
            f k = (BitVec.ofNat 64 (l.1 + 2 ^ 16 * h.1), l.2 ||| h.2)
          else f k = (BitVec.ofNat 64 (q.2.2.1 F x y z).1, (q.2.2.1 F x y z).2)

/-- R222, R225 to R231: the floating-point instructions of other shapes: compare, scale, exponent, conversions. The result's tag
is R52's: U where every source is U, the bytes of D that `cvtp` keeps among them, else G. -/
def Obligations.ConversionResults : Prop :=
  ∀ (s : State) (e : Env) (d : VDst) (m : FMod) (ty : FType) (ftz : Bool) (cm : CMod) (part : BitVec 2) (p : BitVec 5)
    (fc : FCond) (a b : Sel), s.env = some e →
    let tagged (l : List Tag) : Tag := if l.all (· == .u) then .u else .g
    (∃ t0 t1, exec (.fcmp p fc ty ftz a b) s = .next t1 ∧
      PWrite s t0 e p (fun k => (ty.fmt.cmp fc ftz (e.read ty.wide a k).toNat (e.read ty.wide b k).toNat).1) ∧
      Traffic t0 t1 ∧
      ((∀ k ∈ e.r.exec, (ty.fmt.cmp fc ftz (e.read ty.wide a k).toNat (e.read ty.wide b k).toNat).2 = 0) → t1 = t0)) ∧
    (∀ q ∈ ([
      (.fscale d m a b, m.ft.wide, fun k =>
        let r := m.ft.fmt.scale m.rnd.mode m.ftz (e.read m.ft.wide a k).toNat (e.read32 b k).toInt
        (BitVec.ofNat 64 r.1, r.2), [e.tag m.ft.wide a, e.tag false b]),
      (.fexpn d ty ftz a, false, fun k =>
        let r := ty.fmt.expn ftz (e.read ty.wide a k).toNat
        (r.1.setWidth 64, r.2), [e.tag ty.wide a]),
      (.cvt d cm a, cm.dst.is64, fun k =>
        let r := convert cm (e.read cm.src.is64 a k).toNat
        (placeResult cm.dst r.1, r.2), [e.tag cm.src.is64 a]),
      (.cvtu d cm part a, cm.dst.is64, fun k =>
        let r := convert cm ((e.read32 a k).toNat / 2 ^ (cm.src.width * part.toNat))
        (placeResult cm.dst r.1, r.2), [e.tag false a])] : List (Instr × Bool × (Nat → Dword × Exc) × List Tag)),
      ∃ t0 t1, exec q.1 s = .next t1 ∧ VWrite s t0 e d q.2.1 (fun k => (q.2.2.1 k).1) (tagged q.2.2.2) ∧ Traffic t0 t1 ∧
        ((∀ k ∈ e.r.exec, (q.2.2.1 k).2 = 0) → t1 = t0)) ∧
    (∀ n : BitVec 7,
      let x (k : Nat) := convert cm (e.read false a k).toNat
      let y (k : Nat) := convert cm (e.read false b k).toNat
      let old : List Tag := if cm.dst.width == 8 then [e.sp.vtag n.toNat] else []
      ∃ t0 t1 f, exec (.cvtp (.v n) cm part a b) s = .next t1 ∧
        VWrite s t0 e (.v n) false f (tagged (old ++ [e.tag false a, e.tag false b])) ∧ Traffic t0 t1 ∧
        ((∀ k ∈ e.r.exec, (x k).2 ||| (y k).2 = 0) → t1 = t0) ∧
        ∀ k, lo32 (f k) =
          if cm.dst.width == 16 then BitVec.ofNat 16 (y k).1 ++ BitVec.ofNat 16 (x k).1
          else if part == 0 then
            (e.sp.vword n.toNat k).extractLsb' 16 16 ++ BitVec.ofNat 8 (y k).1 ++ BitVec.ofNat 8 (x k).1
          else BitVec.ofNat 8 (y k).1 ++ BitVec.ofNat 8 (x k).1 ++ (e.sp.vword n.toNat k).extractLsb' 0 16) ∧
    let x (k : Nat) := convert cm (e.read false a k).toNat
    let y (k : Nat) := convert cm (e.read false b k).toNat
    ∃ t0 t1 f, exec (.cvtp .latch cm part a b) s = .next t1 ∧
      VWrite { s with freeCtr := if cm.dst.width == 8 then s.freeCtr + 32 else s.freeCtr } t0 e .latch false f
        (if cm.dst.width == 8 then .g else tagged [e.tag false a, e.tag false b]) ∧ Traffic t0 t1 ∧
      ((∀ k ∈ e.r.exec, (x k).2 ||| (y k).2 = 0) → t1 = t0) ∧
      ∀ k, if cm.dst.width == 16 then lo32 (f k) = BitVec.ofNat 16 (y k).1 ++ BitVec.ofNat 16 (x k).1
        else (lo32 (f k)).extractLsb' (if part == 0 then 0 else 16) 16 = BitVec.ofNat 8 (y k).1 ++ BitVec.ofNat 8 (x k).1

/-- R73: a NaN operand makes the result of an addition, product or fused product the first NaN among the operands, quieted,
its sign and payload kept; a signalling one raises invalid.

R85: RoundTo under the nearest-even mode gives, of all finite values of the format, one at the least distance from the
exact value. -/
def Obligations.FloatRules : Prop :=
  (∀ F ∈ [FFmt.f16, FFmt.bf16, FFmt.f32, FFmt.f64], ∀ (rm : RMode) (ftz sub : Bool) (x y z : Nat),
    let bits := F.fbits + F.ebits
    let nan (v : Nat) : Prop := v / 2 ^ F.fbits % 2 ^ F.ebits = 2 ^ F.ebits - 1 ∧ v % 2 ^ F.fbits ≠ 0
    let quiet (v : Nat) : Nat := v ||| 2 ^ (F.fbits - 1)
    let signalling (v : Nat) : Prop := nan v ∧ v % 2 ^ F.fbits < 2 ^ (F.fbits - 1)
    x < 2 ^ (bits + 1) → y < 2 ^ (bits + 1) → z < 2 ^ (bits + 1) →
      (nan x → (F.add rm ftz sub x y).1 = quiet x ∧ (F.mul rm ftz x y).1 = quiet x ∧ (F.fma rm ftz x y z).1 = quiet x) ∧
      (¬nan x → nan y → (F.add rm ftz sub x y).1 = quiet y ∧ (F.mul rm ftz x y).1 = quiet y ∧
        (F.fma rm ftz x y z).1 = quiet y) ∧
      (¬nan x → ¬nan y → nan z → (F.fma rm ftz x y z).1 = quiet z) ∧
      (signalling x ∨ signalling y → (F.add rm ftz sub x y).2.getLsbD 0 = true ∧ (F.mul rm ftz x y).2.getLsbD 0 = true ∧
        (F.fma rm ftz x y z).2.getLsbD 0 = true)) ∧
  (∀ F ∈ [FFmt.f16, FFmt.bf16, FFmt.f32, FFmt.f64], ∀ (neg : Bool) (m : Nat) (x : Int) (r w : Nat),
    r = (F.round .rne 0 false neg false m x).bits → (F.round .rne 0 false neg false m x).ovf = false →
    ∀ (rn wn : Bool) (rm wm : Nat) (rx wx : Int), F.decode r = .fin rn rm rx → F.decode w = .fin wn wm wx →
      let q := min x F.qmin
      (FVal.scaled rn rm rx q - FVal.scaled neg m x q).natAbs ≤ (FVal.scaled wn wm wx q - FVal.scaled neg m x q).natAbs)

/-! Across slots. -/

/-- R261 to R266, R268: shuffles, ballots, matches, reductions and scans read the executing slots of a segment, write every
executing slot with the tag of R268, and change nothing else but what logging an exception changes.

R265, R266: what a reduction forms over values: sums modulo 2^w, least and greatest, bitwise results, and of floating-point
values the exact sum rounded once to nearest even, with its special cases; of no value, the identity. -/
def Obligations.CrossSlotResults : Prop :=
  (∀ (s : State) (e : Env) (d : VDst) (n : BitVec 7) (wide all excl : Bool) (mode : ShMode) (g : Seg) (ty : XType)
    (op : RedOp) (a b : Sel) (pa : BitVec 5), s.env = some e →
    let base (k : Nat) : Nat := k / g.size * g.size
    let segment (k : Nat) : List Nat := e.r.exec.filter (fun j => base j == base k)
    (∃ t f, exec (.shfl d mode wide g a b) s = .next t ∧ VWrite s t e d wide f (if e.tag wide a = .u then .u else .g) ∧
      ∀ k, k < 32 →
        let w := (e.read32 b k).toNat
        let src : Nat := match mode with
          | .idx => base k + w % g.size
          | .up => if base k + w ≤ k then k - w else k
          | .down => if k + w < base k + g.size then k + w else k
          | .xor => k ^^^ (w % g.size)
        f k = if src ∈ e.r.exec then e.read wide a src else e.read wide a k) ∧
    (∃ t f, exec (.spush (.v n) wide g a b) s = .next t ∧ VWrite s t e (.v n) wide f .g ∧
      ∀ k, k < 32 →
        let senders := (segment k).filter (fun j => base j + (e.read32 b j).toNat % g.size == k)
        f k = match senders.getLast? with
          | some j => e.read wide a j
          | none => e.read wide (.v n) k) ∧
    (∃ t f, exec (.spush .latch wide g a b) s = .next t ∧ VWrite { s with freeCtr := s.freeCtr + 32 } t e .latch wide f .g ∧
      ∀ k j, k < 32 → ((segment k).filter (fun j => base j + (e.read32 b j).toNat % g.size == k)).getLast? = some j →
        f k = e.read wide a j) ∧
    (∃ t f, exec (.ballot d g pa) s = .next t ∧ VWrite s t e d false f (if g = .whole then .u else .g) ∧
      ∀ k i, k < 32 → i < 32 → (f k).getLsbD i = decide (base k + i ∈ segment k ∧ e.pred pa (base k + i) = true)) ∧
    (∃ t f, exec (.matchSlots d all ty g a) s = .next t ∧
      VWrite s t e d ty.is64 f (if all = true ∧ g = .whole then .u else .g) ∧
      ∀ k i, k < 32 → i < 32 → (f k).getLsbD i =
        decide ((all = true → ∀ j ∈ segment k, keyEq ty (e.read ty.is64 a j) (e.read ty.is64 a k) = true) ∧
          base k + i ∈ segment k ∧ keyEq ty (e.read ty.is64 a (base k + i)) (e.read ty.is64 a k) = true)) ∧
    (∃ t0 t1, exec (.redux d op ty g a) s = .next t1 ∧ Traffic t0 t1 ∧
      VWrite s t0 e d ty.is64 (fun k => (reduceAll op ty ((segment k).map (e.read ty.is64 a))).1)
        (if g = .whole then .u else .g)) ∧
    ∃ t0 t1, exec (.scan d op excl ty g a) s = .next t1 ∧ Traffic t0 t1 ∧
      VWrite s t0 e d ty.is64 (fun k => (reduceAll op ty (((segment k).filter (fun j =>
        if excl then decide (j < k) else decide (j ≤ k))).map (e.read ty.is64 a))).1) .g) ∧
  ∀ (op : RedOp) (ty : XType) (l : List Dword),
    let w : Nat := if ty.is64 then 64 else 32
    let r := reduceAll op ty l
    let int (x : Dword) : Int := match ty with
      | .sgn => (lo32 x).toInt
      | .uns => (lo32 x).toNat
      | .sgn64 => x.toInt
      | _ => x.toNat
    (l = [] → (op = .and ∨ op = .or ∨ op = .xor ∨ (ty ≠ .b32 ∧ ty ≠ .b64)) → r.2 = 0 ∧ r.1.toNat % 2 ^ w = match op, ty with
      | .add, _ | .or, _ | .xor, _ => 0
      | .and, _ => 2 ^ w - 1
      | .min, .f32 => 0x7F80_0000
      | .min, .f64 => 0x7FF0_0000_0000_0000
      | .min, .sgn | .min, .sgn64 => 2 ^ (w - 1) - 1
      | .min, _ => 2 ^ w - 1
      | .max, .f32 => 0xFF80_0000
      | .max, .f64 => 0xFFF0_0000_0000_0000
      | .max, .sgn | .max, .sgn64 => 2 ^ (w - 1)
      | .max, _ => 0) ∧
    (l ≠ [] →
      (op = .and → ∀ i < w, r.1.getLsbD i = decide (∀ x ∈ l, x.getLsbD i = true)) ∧
      (op = .or → ∀ i < w, r.1.getLsbD i = decide (∃ x ∈ l, x.getLsbD i = true)) ∧
      (op = .xor → ∀ i < w, r.1.getLsbD i = decide (l.countP (fun x => x.getLsbD i) % 2 = 1))) ∧
    (l ≠ [] → ty ∈ [XType.sgn, .uns, .sgn64, .uns64] → r.2 = 0 ∧
      (op = .add → r.1.toNat % 2 ^ w = (l.map (·.toNat)).sum % 2 ^ w) ∧
      (op = .min → r.1 ∈ l ∧ ∀ x ∈ l, int r.1 ≤ int x) ∧
      (op = .max → r.1 ∈ l ∧ ∀ x ∈ l, int x ≤ int r.1)) ∧
    (l ≠ [] → ∀ F : FFmt, (ty = .f32 ∧ F = FFmt.f32) ∨ (ty = .f64 ∧ F = FFmt.f64) → (∀ x ∈ l, x.toNat < 2 ^ w) →
      let inf : Nat := (2 ^ F.ebits - 1) * 2 ^ F.fbits
      let mag (x : Dword) : Nat := x.toNat % 2 ^ (w - 1)
      let rank (x : Dword) : Int := if x.toNat < 2 ^ (w - 1) then (mag x : Int) else -1 - (mag x : Int)
      let sum : Int := (l.map (fun x => match F.decode x.toNat with
        | .fin n m q => FVal.scaled n m q F.qmin
        | _ => 0)).sum
      (op = .add ∨ op = .min ∨ op = .max →
        (∀ before x after, l = before ++ x :: after → inf < mag x → (∀ y ∈ before, mag y ≤ inf) →
          r.1.toNat = x.toNat ||| 2 ^ (F.fbits - 1)) ∧
        ((∃ x ∈ l, inf < mag x ∧ x.toNat % 2 ^ F.fbits < 2 ^ (F.fbits - 1)) → r.2.getLsbD 0 = true)) ∧
      ((∀ x ∈ l, mag x ≤ inf) →
        (op = .min → r.2 = 0 ∧ r.1 ∈ l ∧ ∀ x ∈ l, rank r.1 ≤ rank x) ∧
        (op = .max → r.2 = 0 ∧ r.1 ∈ l ∧ ∀ x ∈ l, rank x ≤ rank r.1) ∧
        (op = .add →
          let up : Prop := ∃ x ∈ l, x.toNat = inf
          let down : Prop := ∃ x ∈ l, x.toNat = 2 ^ (w - 1) + inf
          (up ∧ down → r = (BitVec.ofNat 64 (inf + 2 ^ (F.fbits - 1)), 1)) ∧
          (up ∧ ¬down → r = (BitVec.ofNat 64 inf, 0)) ∧
          (down ∧ ¬up → r = (BitVec.ofNat 64 (2 ^ (w - 1) + inf), 0)) ∧
          (¬up → ¬down → sum = 0 →
            r = (if ∀ x ∈ l, x.toNat = 2 ^ (w - 1) then BitVec.ofNat 64 (2 ^ (w - 1)) else 0, 0)) ∧
          (¬up → ¬down → ∀ rn rm rq, F.decode r.1.toNat = .fin rn rm rq →
            ∀ v vn vm vq, F.decode v = .fin vn vm vq →
              (FVal.scaled rn rm rq F.qmin - sum).natAbs ≤ (FVal.scaled vn vm vq F.qmin - sum).natAbs))))

/-! The uniform datapath. -/

/-- R238, R239, R241: the uniform instructions write their 64-bit result once, and change nothing else. -/
def Obligations.UniformResults : Prop :=
  ∀ (s : State) (e : Env) (d : UDst) (ty : UType) (cd : Cond) (a b c : Sel), s.env = some e →
    let x := e.readU a
    let y := e.readU b
    let z := e.readU c
    let int (v : Dword) : Int := match ty with
      | .sgn64 => v.toInt
      | .uns64 => v.toNat
      | .sgn => (v.extractLsb' 0 32).toInt
      | .uns => (v.extractLsb' 0 32).toNat
    ∀ q ∈ ([
      (.sadd d a b, BitVec.ofNat 64 (x.toNat + y.toNat)),
      (.ssub d a b, BitVec.ofInt 64 ((x.toNat : Int) - y.toNat)),
      (.smul d a b, BitVec.ofNat 64 (x.toNat * y.toNat)),
      (.smulhi d ty a b, BitVec.ofInt 64 (int x * int y / 2 ^ 64)),
      (.smad d ty a b c, BitVec.ofNat 64 (x.toNat * y.toNat + z.toNat)),
      (.sshl d a b, if 64 ≤ y.toNat then 0 else BitVec.ofNat 64 (x.toNat * 2 ^ y.toNat)),
      (.sshr d a b, if 64 ≤ y.toNat then 0 else BitVec.ofNat 64 (x.toNat / 2 ^ y.toNat)),
      (.ssar d a b, BitVec.ofInt 64 (x.toInt / 2 ^ (min y.toNat 63))),
      (.sand d a b, x &&& y),
      (.sor d a b, x ||| y),
      (.sxor d a b, x ^^^ y),
      (.snot d a, ~~~x),
      (.smin d ty a b, BitVec.ofInt 64 (min (int x) (int y))),
      (.smax d ty a b, BitVec.ofInt 64 (max (int x) (int y))),
      (.smov d a, x),
      (.scmp d cd ty a b, if (match cd with
        | .eq => decide (int x = int y)
        | .ne => decide (int x ≠ int y)
        | .lt => decide (int x < int y)
        | .le => decide (int x ≤ int y)
        | .gt => decide (int x > int y)
        | .ge => decide (int x ≥ int y)) = true then 1 else 0),
      (.ssel d a b c, if z = 0 then y else x),
      (.spopc d a, BitVec.ofNat 64 ((List.range 64).countP (fun i => x.getLsbD i))),
      (.sclz d a, if x = 0 then 64 else BitVec.ofNat 64 (63 - Nat.log2 x.toNat)),
      (.rfa d a, (e.read32 a (e.r.exec.headD 0)).setWidth 64)] : List (Instr × Dword)),
      ∃ t, exec q.1 s = .next t ∧ UWrite s t e d q.2

/-! Long-latency results. -/

/-- R50, R52, R288, R291: the special functions and the divider issue: the destination is tagged G, one operation per
executing slot holds the clause's token and will bring the result, and nothing else changes but what logging an exception
changes.

R101, R292: `idiv` issues, and for each executing slot the quotient is cut toward zero, the remainder has the
dividend's sign, and a divisor of 0 gives the results of the table. -/
def Obligations.SpecialUnitsIssue : Prop :=
  (∀ (s : State) (e : Env) (d : BitVec 7) (f64 ftz cr : Bool) (a b : Sel), s.env = some e →
    let precise : Grid := if f64 then Grid.f64 else Grid.f32 (if cr then 24 else 23)
    ∀ q ∈ ([
      (.rcp d f64 ftz cr a, f64, fun x _ => sfRcp precise ftz x),
      (.sqrt d f64 ftz cr a, f64, fun x _ => sfSqrt precise ftz x),
      (.fdiv d f64 ftz cr a b, f64, fun x y => sfDiv precise ftz x y),
      (.rsq d ftz a, false, fun x _ => sfRsq (Grid.f32 23) ftz x),
      (.exp2 d ftz a, false, fun x _ => sfExp2 (Grid.f32 22) ftz x),
      (.log2 d ftz a, false, fun x _ => sfLog2 (Grid.f32 22) ftz x),
      (.sinpi d ftz a, false, fun x _ => sfSinCos (Grid.f32 22) false ftz x),
      (.cospi d ftz a, false, fun x _ => sfSinCos (Grid.f32 22) true ftz x),
      (.tanh d ftz a, false, fun x _ => sfTanh (Grid.f32 21) ftz x),
      (.erf d ftz a, false, fun x _ => sfErf (Grid.f32 21) ftz x)] : List (Instr × Bool × (Nat → Nat → Nat × Exc))),
      let r (k : Nat) : Nat × Exc := q.2.2 (e.read q.2.1 a k).toNat (e.read q.2.1 b k).toNat
      ∃ t0 t1, exec q.1 s = .next t1 ∧
        Issued s t0 e d.toNat (if q.2.1 then 2 else 1) (fun k =>
          if q.2.1 then [BitVec.ofNat 32 (r k).1, BitVec.ofNat 32 ((r k).1 / 2 ^ 32)] else [BitVec.ofNat 32 (r k).1]) ∧
        Traffic t0 t1 ∧ ((∀ k ∈ e.r.exec, (r k).2 = 0) → t1 = t0)) ∧
  (∀ (s : State) (e : Env) (d : BitVec 7) (uns : Bool) (a b : Sel), s.env = some e →
    ∃ (t : State) (f : Nat → List Word), exec (.idiv d uns a b) s = .next t ∧ Issued s t e d.toNat 2 f ∧
      ∀ k,
        let int (w : Word) : Int := if uns then w.toNat else w.toInt
        let x := int (e.read32 a k)
        let y := int (e.read32 b k)
        ∃ q r : Int, f k = [BitVec.ofInt 32 q, BitVec.ofInt 32 r] ∧
          (y ≠ 0 → x = q * y + r ∧ r.natAbs < y.natAbs ∧ (r ≠ 0 → (0 < r ↔ 0 < x))) ∧
          (y = 0 → r = x ∧ q = if uns = true ∨ 0 ≤ x then -1 else 1))

/-- R99: the special functions on special inputs: zeros, infinities, negative numbers, integers and half integers, with
the exception each raises. Bit 0 of an exception set is invalid, bit 1 division by zero. -/
def Obligations.SpecialFunctionInputs : Prop :=
  let pInf := 0x7F80_0000
  let nInf := 0xFF80_0000
  let nan := 0x7FC0_0000
  let nZero := 0x8000_0000
  (∀ (cr ftz : Bool), let g := Grid.f32 (if cr then 24 else 23)
    sfRcp g ftz 0 = (pInf, 2) ∧ sfRcp g ftz nZero = (nInf, 2) ∧ sfRcp g ftz pInf = (0, 0) ∧ sfRcp g ftz nInf = (nZero, 0) ∧
    sfSqrt g ftz 0 = (0, 0) ∧ sfSqrt g ftz nZero = (nZero, 0) ∧ sfSqrt g ftz pInf = (pInf, 0) ∧ sfSqrt g ftz nInf = (nan, 1)) ∧
  (∀ ftz : Bool,
    sfRsq (Grid.f32 23) ftz 0 = (pInf, 2) ∧ sfRsq (Grid.f32 23) ftz nZero = (nInf, 2) ∧
    sfRsq (Grid.f32 23) ftz pInf = (0, 0) ∧
    sfExp2 (Grid.f32 22) ftz nInf = (0, 0) ∧ sfExp2 (Grid.f32 22) ftz pInf = (pInf, 0) ∧
    sfLog2 (Grid.f32 22) ftz 0 = (nInf, 2) ∧ sfLog2 (Grid.f32 22) ftz nZero = (nInf, 2) ∧
    sfLog2 (Grid.f32 22) ftz pInf = (pInf, 0) ∧
    (∀ x ∈ [pInf, nInf], sfSinCos (Grid.f32 22) false ftz x = (nan, 1) ∧ sfSinCos (Grid.f32 22) true ftz x = (nan, 1)) ∧
    sfSinCos (Grid.f32 22) false ftz 0 = (0, 0) ∧ sfSinCos (Grid.f32 22) false ftz nZero = (nZero, 0) ∧
    (∀ f ∈ [sfTanh (Grid.f32 21) ftz, sfErf (Grid.f32 21) ftz],
      f pInf = (0x3F80_0000, 0) ∧ f nInf = (0xBF80_0000, 0) ∧ f 0 = (0, 0) ∧ f nZero = (nZero, 0))) ∧
  ∀ (x m : Nat) (neg ftz : Bool) (ex : Int), FFmt.f32.decode x = .fin neg m ex → m ≠ 0 → (ftz = false ∨ 2 ^ 23 ≤ m) →
    (neg = true → (∀ p, sfSqrt (Grid.f32 p) ftz x = (nan, 1)) ∧ sfRsq (Grid.f32 23) ftz x = (nan, 1) ∧
      sfLog2 (Grid.f32 22) ftz x = (nan, 1)) ∧
    ((m : Int) * 2 ^ (ex + 200).toNat % 2 ^ 200 = 0 →
      (sfSinCos (Grid.f32 22) false ftz x).1 = if neg then nZero else 0) ∧
    ((m : Int) * 2 ^ (ex + 200).toNat % 2 ^ 200 = 2 ^ 199 → (sfSinCos (Grid.f32 22) true ftz x).1 = 0)

/-- R50, R61 to R63: a register result arrives: TOKEN_CLEAR writes the operation's words in the slots whose threads run,
keeps the registers' tags and all other words, and takes the operation off the list; the token clears in the threads of
its spindle that no other operation, clause in progress or parked clause covers. Requests to peers that waited for its answer
may leave. An operation whose own request waits at the device, or travels a frozen stream, stays. -/
def Obligations.RegisterResultArrives : Prop :=
  ∀ (s : State) (o : Op) (ws : List RegW) (sp : Spindle),
    s.ops.find? (fun x => x.id == o.id) = some o → o.kind = .regs ws → spn s o.blk o.m = some sp →
    (s.unsent o = true → exec (.tokenClear o.id) s = .next s) ∧
    (s.unsent o = false → ∃ t, exec (.tokenClear o.id) s = .next t ∧
      (∀ n k, word t o.blk o.m n k = (word s o.blk o.m n k).map (fun old =>
        ((ws.find? (fun w => w.reg == n && w.slot == k && !sp.gone k)).map (·.val)).getD old)) ∧
      (∀ n, (vreg t o.blk o.m n).map (·.tag) = (vreg s o.blk o.m n).map (·.tag)) ∧
      (∀ i, sreg t o.blk o.m i = sreg s o.blk o.m i) ∧
      (∀ u' m', ¬(u' = o.blk ∧ m' = o.m) → spn t u' m' = spn s u' m') ∧ (∀ u', shell t u' = shell s u') ∧
      (∀ x ∈ t.ops, x.id ≠ o.id) ∧ (∀ x ∈ s.ops, x.id ≠ o.id → ∃ y ∈ t.ops, y = { x with kind := y.kind }) ∧
      (∀ k x, thr s o.blk o.m k = some x → ∃ w : Byte, thr t o.blk o.m k = some (woken { x with tok := w }) ∧
        ∀ i, i < 8 → w.getLsbD i = (x.tok.getLsbD i && t.covered o.blk o.m k x (BitVec.ofNat 3 i))) ∧
      t = { (State.flushHeld { s with fabric := { s.fabric with outst := s.fabric.outst.filter (fun x =>
          !(x.op == some o.id && x.thr.isSome)) } })
            with blocks := t.blocks, ops := t.ops })

/-! Memory. -/

/-- R109, R111, R115: a store is seen by its own core: a load of the same bytes, under any policy but `.ro`, returns what
the core has just stored; and, with nothing else in progress on memory, every other byte is seen as before. -/
def Obligations.OwnStoreIsSeen : Prop :=
  ∀ (s : State) (core spid pa : Nat) (pol pol' : Pol) (d : List Byte),
    pol' ≠ .ro → d ≠ [] → pa % 128 + d.length ≤ 128 →
    (∀ a, pa ≤ a → a < pa + d.length → s.retired a = false) →
    (∀ c ∈ s.coh.l1, c.data.length = 128) → (∀ p ∈ s.coh.pend, p.pa % 128 + p.data.length ≤ 128) →
    s.coh.flips = [] →
    let t := s.storePhys (some (dieOf core)) pol (core, spid) pa d
    (t.loadPhys core pol' pa d.length).1 = d ∧
    (Quiet s core → ∀ a, seen t core a = if pa ≤ a ∧ a < pa + d.length then (d[a - pa]?).getD 0 else seen s core a)

/-- R243: a load whose slots pass their checks and reach memory completes: its registers are tagged G, one operation per
slot will bring the loaded bytes, extended as the size says, and memory keeps its values.

R244, R245: a store whose slots pass their checks and reach memory completes: a byte it stores to is the last slot's
to store there, every other byte is as before, and nothing but memory traffic happens.

R46, R281: a flag whose slots pass their checks is published: 8 bytes hold the state, the launch's sequence number and
the coverage; earlier stores of the die are acknowledged first where the scope is `.dev` or `.sys`. -/
def Obligations.LoadsAndStores : Prop :=
  (∀ (s : State) (e : Env) (d : BitVec 7) (k : AMod) (sz : Size) (m : MemOp) (l : List (Nat × List (Loc × Nat))),
    s.env = some e →
    checkSlots (fun j => s.access e (e.gaddr m sz.bytes j) sz.bytes (askLd k sz.bytes) mkLoad) e.r.exec = .ok l →
    (∀ x ∈ l, ∀ y ∈ x.2, isMem y.1) → s.badSlot l = none →
    ∃ t0 t f, exec (.ld d k sz m) s = .next t ∧ Traffic s t0 ∧ Issued t0 t e d.toNat sz.regs f ∧
      (Quiet s e.b.core → k.pol ≠ .ro →
        (∀ x ∈ l, f x.1 = loaded sz (x.2.flatMap (fun y => match y.1 with
          | .mem pa => bytesAt (seen s e.b.core) pa y.2
          | _ => []))) ∧
        ∀ a, seen t e.b.core a = seen s e.b.core a)) ∧
  (∀ (s : State) (e : Env) (k : AMod) (sz : Size) (m : MemOp) (data : Sel) (l : List (Nat × List (Loc × Nat))),
    s.env = some e →
    checkSlots (fun j => s.access e (e.gaddr m sz.bytes j) sz.bytes (askSt k sz.bytes) mkStore) e.r.exec = .ok l →
    (∀ x ∈ l, ∀ y ∈ x.2, isMem y.1) → s.downSlot l = none →
    ∃ t, exec (.st k sz m data) s = .next t ∧ Traffic s t ∧ t.run = s.run ∧ t.ops = s.ops ∧
      (Quiet s e.b.core → ∀ a, seen t e.b.core a =
        l.foldl (fun old x => (stored x.2 (e.data sz data x.1) a).getD old) (seen s e.b.core a))) ∧
  (∀ (s : State) (e : Env) (st : VState) (sc : Scope) (m : MemOp) (cover : Sel) (l : List (Nat × List (Loc × Nat))),
    s.env = some e →
    checkSlots (fun k => s.access e (e.gaddr m 8 k) 8 (askPub ((e.gaddr m 8 k).toNat % 8 == 0)) mkStore) e.r.exec = .ok l →
    (∀ x ∈ l, ∀ y ∈ x.2, isMem y.1) → s.downSlot l = none →
    let code : Nat := match st with | .no => 0 | .partial_ => 1 | .complete => 2
    let flag (k : Nat) : Nat := 2 ^ 62 * code + 2 ^ 32 * ((s.seqOf e.b).toNat % 2 ^ 30) + (e.read32 cover k).toNat
    ∃ t, exec (.vpub st sc m cover) s = .next t ∧ Traffic s t ∧ t.run = s.run ∧ t.ops = s.ops ∧
      (Quiet s e.b.core → ∀ a, seen t e.b.core a =
        l.foldl (fun old x => (stored x.2 (leBytes 8 (flag x.1)) a).getD old) (seen s e.b.core a)))

/-- R247, R248: an atomic whose slots pass their checks and reach memory completes: a result is brought to its register
like a load's; on one slot's bytes the old value is replaced by what the operation makes of it, and no other byte changes.

R249: an exact addition adds the operand times 2^112 to the 256-bit word. -/
def Obligations.Atomics : Prop :=
  (∀ (s : State) (e : Env) (d : Option (BitVec 7)) (k : AMod) (wide : Bool) (op : AOp) (m : MemOp) (data : Sel)
    (l : List (Nat × List (Loc × Nat))),
    let n := if wide then 8 else 4
    let w := if wide then 64 else 32
    s.env = some e → (op = .fadd → s.det e.b = false) →
    checkSlots (fun j => s.access e (e.gaddr m n j) n (askAtom ((e.gaddr m n j).toNat % n == 0)) mkStore) e.r.exec = .ok l →
    (∀ x ∈ l, ∀ y ∈ x.2, isMem y.1) → s.badSlot l = none →
    ∃ t0 t f, exec (.atom d k wide op m data) s = .next t ∧ Traffic s t0 ∧
      (d = none → t = t0) ∧ (∀ r, d = some r → Issued t0 t e r.toNat (if wide then 2 else 1) f) ∧
      (Quiet s e.b.core → op ≠ .fadd → ∀ j pa, l = [(j, [(.mem pa, n)])] →
        let old := leNat (bytesAt (seen s e.b.core) pa n)
        let v := (e.read wide data j).toNat
        let c := (d.map (fun r => (e.read wide (.v r) j).toNat)).getD 0
        let int (x : Nat) : Int := if 2 ^ (w - 1) ≤ x then (x : Int) - 2 ^ w else x
        let new := match op with
          | .add => (old + v) % 2 ^ w
          | .min => if int v < int old then v else old
          | .max => if int v > int old then v else old
          | .minu => min old v
          | .maxu => max old v
          | .and => old &&& v
          | .or => old ||| v
          | .xor => old ^^^ v
          | .exch => v
          | .cas => if old = c then v else old
          | .inc => if old ≥ v then 0 else old + 1
          | .fadd => old
        f j = loaded (if wide then .b64 else .b32) (bytesAt (seen s e.b.core) pa n) ∧
        leNat (bytesAt (seen t e.b.core) pa n) = new ∧
        ∀ a, ¬(pa ≤ a ∧ a < pa + n) → seen t e.b.core a = seen s e.b.core a)) ∧
  (∀ (s : State) (e : Env) (k : AMod) (wide flt : Bool) (m : MemOp) (data : Sel) (l : List (Nat × List (Loc × Nat))),
    s.env = some e →
    checkSlots (fun j => s.access e (e.gaddr m 32 j) 32 (askAtom ((e.gaddr m 32 j).toNat % 32 == 0)) mkStore) e.r.exec = .ok l →
    (∀ x ∈ l, ∀ y ∈ x.2, isMem y.1) → s.badSlot l = none →
    ∃ t, exec (.atomx k wide flt m data) s = .next t ∧ Traffic s t ∧ t.run = s.run ∧ t.ops = s.ops ∧
      (Quiet s e.b.core → flt = false → ∀ j pa, l = [(j, [(.mem pa, 32)])] →
        let old := (BitVec.ofNat 256 (leNat (bytesAt (seen s e.b.core) pa 32))).toInt
        let new := old + (if wide then (e.read wide data j).toInt else (e.read32 data j).toInt) * 2 ^ 112
        (new < 2 ^ 255 ∧ -(2 ^ 255) ≤ new) →
          (BitVec.ofNat 256 (leNat (bytesAt (seen t e.b.core) pa 32))).toInt = new ∧
          ∀ a, ¬(pa ≤ a ∧ a < pa + 32) → seen t e.b.core a = seen s e.b.core a))

/-- R117 to R119, R124, R246, R256, R257: local accesses inside the block's reservation complete. A load reads, and a store
replaces, what the spindle sees (R156); a spindle whose stores the others see late (DESIGN CHOICE, log entry 11) leaves the
bytes of scratchpad as they stand for them. -/
def Obligations.LocalAccesses : Prop :=
  ∀ (s : State) (e : Env) (d : BitVec 7) (sz : Size) (m : MemOp) (data base count target addend len : Sel) (off : BitVec 16),
    s.env = some e →
    let at_ (k : Nat) := e.laddr m sz.bytes k
    let ctr (k : Nat) := e.caddr base off k
    let own (t : State) (a : Nat) : Option Byte := ownByte t e.b.uid e.sp.m a
    ((∀ k ∈ e.r.exec, at_ k + sz.bytes ≤ e.b.lsize ∧ ∀ i, i < sz.bytes → e.b.present ((at_ k + i) / 128) = true) →
      ∃ t f, exec (.ldl d sz m) s = .next t ∧ Issued s t e d.toNat sz.regs f ∧
        ∀ k, f k = loaded sz (bytesAt (fun a => (own s a).getD 0) (at_ k) sz.bytes)) ∧
    ((∀ k ∈ e.r.exec, at_ k + sz.bytes ≤ e.b.lsize ∧ ∀ i, i < sz.bytes →
        let line := (at_ k + i) / 128
        e.b.stashAt (128 * line) = none ∨ (e.b.present line = true ∧
          ∀ p, s.stashLine e.b line = some p → s.inRegion (128 * p) 128 = false)) →
      ∃ t, exec (.stl sz m data) s = .next t ∧ LocalOnly s t e.b.uid ∧
        (∀ a, own t a = (own s a).map (fun x => e.r.exec.foldl (fun old k =>
          if at_ k ≤ a ∧ a < at_ k + sz.bytes then ((e.data sz data k)[a - at_ k]?).getD old else old) x)) ∧
        (e.b.slow.contains e.sp.m = false → ∀ a, localByte t e.b.uid a = own t a) ∧
        (e.b.slow.contains e.sp.m = true → (∀ k ∈ e.r.exec, ∀ i, i < sz.bytes → e.b.stashAt (at_ k + i) = none) →
          ∀ a, localByte t e.b.uid a = localByte s e.b.uid a)) ∧
    ((∀ k ∈ e.r.exec, (e.readU len).toNat ≠ 0 → e.laddr m 1 k + (e.readU len).toNat ≤ e.b.lsize ∧
        ∀ x ∈ e.b.stash, ¬(x.l < e.laddr m 1 k + (e.readU len).toNat ∧ e.laddr m 1 k < x.l + x.bytes)) →
      ∃ t b, exec (.pclr m len) s = .next t ∧ t.blk e.b.uid = some b ∧
        t = { s with blocks := t.blocks } ∧ { b with absent := e.b.absent } = e.b ∧ (∀ u', u' ≠ e.b.uid → t.blk u' = s.blk u') ∧
        ∀ x, b.present x = (e.b.present x && decide (∀ k ∈ e.r.exec, ∀ i < (e.readU len).toNat, (e.laddr m 1 k + i) / 128 ≠ x))) ∧
    ((∀ k ∈ e.r.exec, ctr k % 16 = 0 ∧ ctr k + 16 ≤ e.b.lsize ∧ e.b.stashAt (ctr k) = none) →
      (∃ t, exec (.arcset base count target off) s = .next t ∧
        (∀ a, localByte t e.b.uid a = some (e.r.exec.foldl (fun old k =>
          if ctr k ≤ a ∧ a < ctr k + 16 then
            ((leBytes 8 (e.read true count k).toNat ++ leBytes 8 (e.read true target k).toNat)[a - ctr k]?).getD old
          else old) (e.b.lbyte a))) ∧
        ∀ b, t.blk e.b.uid = some b → ∀ sp ∈ b.spindles, ∀ x ∈ sp.threads, ∀ c, ∀ k ∈ e.r.exec, x.st = .parked c →
          b.counterMet (ctr k) c = false) ∧
      ∃ t, exec (.arcadd base addend off) s = .next t ∧
        (∀ b, t.blk e.b.uid = some b → ∀ sp ∈ b.spindles, ∀ x ∈ sp.threads, ∀ c, ∀ k ∈ e.r.exec, x.st = .parked c →
          b.counterMet (ctr k) c = false) ∧
        ∀ k, e.r.exec = [k] → ∃ b, t.blk e.b.uid = some b ∧
          (b.counter (ctr k)).1 = ((e.b.counter (ctr k)).1 + (e.read true addend k).toNat) % 2 ^ 64 ∧
          (b.counter (ctr k)).2 = (e.b.counter (ctr k)).2 ∧
          ∀ a, ¬(ctr k ≤ a ∧ a < ctr k + 8) → b.lbyte a = e.b.lbyte a)

/-- R113, R116, R127, R140, R154, R237, R250 to R254, R300: the ordering instructions complete. A fence of memory, a
`fence.async` and a prefetch change no value that the core sees. `fence.win` and `wfence` make the window requests of the
batch's threads join, as far as they may, and change nothing where there is none. What each waits for is an operation in the
list: that a `fence.async` and the window fences let the thread go on so is the model's choice (DESIGN CHOICE, log entries 23
and 37). -/
def Obligations.OrderingInstructions : Prop :=
  ∀ (s : State) (e : Env) (sc : Scope) (set : FSet) (pol : Pol) (m : MemOp) (len : Sel) (l : List (Nat × List (Nat × Nat))),
    s.env = some e →
    let mine (p : Posted) : Prop := ∃ k ∈ e.r.exec, p.thr = some (e.name k)
    let joins (t0 t : State) (all : Bool) : Prop :=
      (∃ reqs, Queued t0 t e (.winFence reqs all) ∧ ∀ i, i ∈ reqs ↔ ∃ p ∈ t0.posted, mine p ∧ p.id = i) ∧
      ((∀ p ∈ s.posted, ¬mine p) → t0 = s) ∧ (∀ p ∈ t0.posted, p ∈ s.posted) ∧
      ((s.posted.map (·.id)).Nodup → s.sched.waits = [] →
        (∀ p ∈ s.posted, p.thr.map (fun x => (x.1, x.2.1)) = some (e.b.uid, e.sp.m) → mine p) →
        (∀ p ∈ s.posted, mine p → ∃ o, s.operator p.op = some o ∧ o.bound = true ∧ o.resident = true ∧
          s.sched.units.contains (o.unit, o.owner) = true) →
        ∀ p ∈ t0.posted, ¬mine p)
    (set ≠ .win → set ≠ .async → ∃ t0 t, exec (.fence sc set) s = .next t ∧ Traffic s t0 ∧ Queued t0 t e (.fence (sc == .sys)) ∧
      (sc = .dev ∨ sc = .sys → ∀ p ∈ t.coh.pend, p.die ≠ dieOf e.b.core) ∧
      (sc = .gang ∨ sc = .dev ∨ sc = .sys → set = .ll ∨ set = .sl ∨ set = .all → ∀ c ∈ t.coh.l1, c.core ≠ e.b.core) ∧
      (Quiet s e.b.core → ∀ a, seen t e.b.core a = seen s e.b.core a)) ∧
    (∃ t0 t before, exec (.fence sc .async) s = .next t ∧ Traffic s t0 ∧ Queued t0 t e (.asyncFence before sc) ∧
      (∀ o ∈ s.ops, o.blk = e.b.uid → o.m = e.sp.m → (∃ k ∈ o.slots, k ∈ e.r.exec) → o.kind.engine ≠ none → o.id ∈ before) ∧
      (Quiet s e.b.core → ∀ a, seen t e.b.core a = seen s e.b.core a)) ∧
    (∃ t0 t, exec (.fence sc .win) s = .next t ∧ joins t0 t false) ∧
    (∃ t0 t, exec .wfence s = .next t ∧ joins t0 t true) ∧
    (∃ t, exec (.pref pol m) s = .next t ∧ Traffic s t ∧ t.run = s.run ∧ t.ops = s.ops ∧
      (Quiet s e.b.core → ∀ a, seen t e.b.core a = seen s e.b.core a)) ∧
    (∃ t, exec .roinv s = .next t ∧
      t = { s with coh := { s.coh with ro := s.coh.ro.filter (fun c => c.core != e.b.core) } }) ∧
    (checkSlots (fun k => s.persistRange e (e.gaddr m 1 k) (e.readU len).toNat) e.r.exec = .ok l →
      (∀ x ∈ l, ∀ r ∈ x.2, s.downIn r.1 r.2 = none) →
      ∃ t, exec (.persist m len) s = .next t ∧ Queued s t e (.persist (l.flatMap (·.2)) none)) ∧
    (∃ t b, exec .opfence s = .next t ∧ t = { s with blocks := t.blocks } ∧ t.blk e.b.uid = some b ∧
      b = { e.b with unseen := b.unseen } ∧ (∀ u', u' ≠ e.b.uid → t.blk u' = s.blk u') ∧
      ∀ u, u ∈ b.unseen ↔ u ∈ e.b.unseen ∧ ¬(u.m = e.sp.m ∧ u.slot ∈ e.r.exec)) ∧
    ∀ (o : Op) (ranges : List (Nat × Nat)), s.ops.find? (fun x => x.id == o.id) = some o →
      let stock (r : Nat × Nat) : Prop := ∃ p, pclass r.1 = .stock p
      (o.kind = .persist ranges none → s.unsent o = false → (∀ r ∈ ranges, s.downIn r.1 r.2 = none) →
        (∀ x ∈ s.durable, x.2.1 < s.writes) →
        ∃ t, exec (.tokenClear o.id) s = .next t ∧
          ((∀ r ∈ ranges, ¬stock r) → (∀ x ∈ t.ops, x.id ≠ o.id) ∧
            ∀ r ∈ ranges, ∀ i < r.2, ∀ x ∈ t.durable, x.1 ≠ (r.1 + i) / 128) ∧
          ∀ r ∈ ranges, stock r → OutMsg.downFlush r.1 r.2 ∈ t.out ∧
            ∃ mark, (pending t o.id).map (·.kind) = some (.persist ranges (some mark)) ∧ ∀ x ∈ t.durable, x.2.1 < mark) ∧
      ∀ mark, o.kind = .persist ranges (some mark) →
        ∃ t, execMicro (.persistAck o.id) s = .next t ∧ (∀ x ∈ t.ops, x.id ≠ o.id) ∧
          ∀ r ∈ ranges, ∀ i < r.2, ∀ x ∈ t.durable, x.1 = (r.1 + i) / 128 → mark ≤ x.2.1

/-! Control. -/

/-- R181, R182, R270 to R272, R283: the instructions that change the pc end the clause in every executing thread, which
goes on at the target: relative to the clause's header, at an aligned address, behind the call, at the handler or back.

R273: a call at depth 8 or more stores the entry that falls out of the eight held at its home, 8 bytes for each
entry from TLSBASE up, and a return reads it back from there. -/
def Obligations.BranchesTaken : Prop :=
  (∀ (s : State) (e : Env) (off : BitVec 24) (a b : Sel) (code : Byte), s.env = some e →
    let rel : Dword := e.r.hdr + BitVec.ofInt 64 (4 * off.toInt)
    let aligned : Prop := ∀ k ∈ e.r.exec, (e.read true a k).toNat % 4 = 0
    let held (p : Thread → Prop) : Prop := ∀ k ∈ e.r.exec, ∃ x, e.thr k = some x ∧ p x
    let push (pc : Nat → Dword) (k : Nat) (x : Thread) : Thread :=
      { x with st := .ready, pc := pc k, rs := (e.r.npc :: x.rs).take 8, rsd := x.rsd + 1 }
    let vec : Dword := ((s.ctx e.b.ctx).map (fun c => c.desc.sysvec)).getD 0
    (∃ t, exec (.bra off) s = .next t ∧ Leaves s t e (fun _ x => { x with st := .ready, pc := rel })) ∧
    (aligned → ∃ t, exec (.jmp a) s = .next t ∧ Leaves s t e (fun k x => { x with st := .ready, pc := e.read true a k })) ∧
    (∃ t, exec (.brx a off) s = .next t ∧ Leaves s t e (fun k x =>
      { x with st := .ready, pc := rel + BitVec.ofNat 64 (12 * (e.read32 a k).toNat) })) ∧
    (held (fun x => x.rsd < 8) → ∃ t, exec (.call off) s = .next t ∧ Leaves s t e (push (fun _ => rel))) ∧
    (aligned → held (fun x => x.rsd < 8) →
      ∃ t, exec (.calli a) s = .next t ∧ Leaves s t e (push (fun k => e.read true a k))) ∧
    (held (fun x => 1 ≤ x.rsd ∧ x.rsd ≤ 8) → ∃ t, exec .ret s = .next t ∧ Leaves s t e (fun _ x =>
      { x with st := .ready, pc := x.rs.headD 0, rs := x.rs.drop 1, rsd := x.rsd - 1 })) ∧
    (vec ≠ 0 → held (fun x => x.insys = false) → ∃ t, exec (.sys code a b) s = .next t ∧ Leaves s t e (fun k x =>
      { x with st := .ready, pc := vec, insys := true, code := code, sysa := e.read true a k, sysb := e.read true b k
               sysret := e.r.npc })) ∧
    (held (fun x => x.insys = true) → ∃ t, exec .tret s = .next t ∧ Leaves s t e (fun _ x =>
      { x with st := .ready, pc := x.sysret, insys := false }))) ∧
  (∀ (s : State) (e : Env) (off : BitVec 24) (k : Nat) (x : Thread) (pa : Nat), s.env = some e →
    e.r.exec = [k] → e.thr k = some x → x.rs.length = 8 → x.tls ≠ 0 → Quiet s e.b.core →
    (8 ≤ x.rsd → x.rsd < 64 →
      s.access e (x.tls + BitVec.ofNat 64 (8 * (x.rsd - 8))) 8 askSpill mkStore = .ok [(.mem pa, 8)] →
      s.downIn pa 8 = none →
      ∃ t0 t, exec (.call off) s = .next t ∧ Traffic s t0 ∧
        Leaves t0 t e (fun _ x => { x with st := .ready, pc := e.r.hdr + BitVec.ofInt 64 (4 * off.toInt)
                                           rs := e.r.npc :: x.rs.dropLast, rsd := x.rsd + 1 }) ∧
        (∀ a, seen t e.b.core a = if pa ≤ a ∧ a < pa + 8 then ((leBytes 8 (x.rs.getLastD 0).toNat)[a - pa]?).getD 0
          else seen s e.b.core a)) ∧
    (8 < x.rsd → s.access e (x.tls + BitVec.ofNat 64 (8 * (x.rsd - 9))) 8 askFill mkLoad = .ok [(.mem pa, 8)] →
      s.badIn pa 8 = none →
      ∃ t0 t, exec .ret s = .next t ∧ Traffic s t0 ∧
        Leaves t0 t e (fun _ x => { x with st := .ready, pc := x.rs.headD 0, rsd := x.rsd - 1
                                           rs := x.rs.drop 1 ++ [BitVec.ofNat 64 (leNat (bytesAt (seen s e.b.core) pa 8))] })))

/-- R24, R25, R32, R275 to R278: convergence, barriers, counters, allotments and exit. An arriving thread parks behind its
instruction, where it stands with its latches, unless it completes the barrier, which releases every thread parked there;
beside the threads and the records of the barrier nothing changes, but what the acquires of `gbar` and of a passing `arcwait`
change. Of `exit` only the threads and their counts are stated. -/
def Obligations.BarriersAndWaits : Prop :=
  ∀ (s : State) (e : Env) (b : BitVec 3) (base : Sel) (off : BitVec 16), s.env = some e →
    let u := e.b.uid
    let m := e.sp.m
    let ctr (k : Nat) := e.caddr base off k
    let frame (t : State) : Prop :=
      (∀ u' m', ¬(u' = u ∧ m' = m) → spn t u' m' = spn s u' m') ∧ ∀ u', shell t u' = shell s u'
    let shut (sp : Spindle) : Spindle := { sp with threads := [] }
    (∃ (t : State) (mask : Word), exec (.enrol b) s = .next t ∧ (∀ k, k < 32 → mask.getLsbD k = decide (k ∈ e.r.exec)) ∧
      t = { s with blocks := t.blocks } ∧ frame t ∧
      spn t u m = some { e.sp with bars := e.sp.bars.zipIdx.map (fun x =>
        if x.2 = b.toNat then (x.1.1 ||| mask, x.1.2 &&& ~~~mask) else x.1) }) ∧
    (∀ en ar, e.sp.bars[b.toNat]? = some (en, ar) →
      let ks := e.r.exec.filter (fun k => en.getLsbD k)
      let come (k : Nat) (x : Thread) : Thread := if k ∈ ks then standing s e k (.rejoin b) x else x
      let full : Prop := (∃ k x, e.thr k = some x ∧ (come k x).st = .parked (.rejoin b)) ∧
        ∀ k, k < 32 → en.getLsbD k = true → ar.getLsbD k = true ∨ k ∈ ks ∨ e.sp.gone k = true
      (ks = [] → exec (.rejoin b) s = .next s) ∧
      (ks ≠ [] → ∃ (t : State) (bars : List (Word × Word)), exec (.rejoin b) s = .next t ∧
        t = { s with run := s.run.without ks, blocks := t.blocks } ∧ frame t ∧
        (spn t u m).map shut = some (shut { e.sp with bars := bars }) ∧
        (∀ i, i ≠ b.toNat → bars[i]? = e.sp.bars[i]?) ∧
        (full → bars[b.toNat]? = some (0, 0) ∧ ∀ k x, e.thr k = some x →
          SettledAs t u m k ((come k x).wakeIf false (· == .rejoin b))) ∧
        (¬full → (∃ ar', bars[b.toNat]? = some (en, ar') ∧
            ∀ k, k < 32 → ar'.getLsbD k = (ar.getLsbD k || decide (k ∈ ks))) ∧
          ∀ k x, e.thr k = some x → SettledAs t u m k (come k x)))) ∧
    (∃ t bb, exec .bar s = .next t ∧ t = { s with run := s.run.without e.r.exec, blocks := t.blocks } ∧
      (∀ u', u' ≠ u → t.blk u' = s.blk u') ∧ t.blk u = some bb ∧
      { bb with spindles := [], barArr := [], barPh := 0 } = { e.b with spindles := [], barArr := [], barPh := 0 } ∧
      (∀ m', (spn t u m').map shut = (spn s u m').map shut) ∧
      let come (m' k : Nat) (x : Thread) : Thread := if m' = m ∧ k ∈ e.r.exec then standing s e k .bar x else x
      if e.b.spindles.all (fun sp => sp.threads.zipIdx.all (fun x =>
          x.1.st == .exited || e.b.barArr.contains (sp.m, x.2) || (sp.m == m && e.r.exec.contains x.2))) then
        bb.barPh = e.b.barPh + 1 ∧ bb.barArr = [] ∧
        ∀ m' k x, thr s u m' k = some x → SettledAs t u m' k ((come m' k x).release (· == .bar))
      else
        bb.barPh = e.b.barPh ∧ bb.barArr = e.b.barArr ++ e.r.exec.map (fun k => (m, k)) ∧
        ∀ m' k x, thr s u m' k = some x → thr t u m' k = some (come m' k x)) ∧
    ((s.blocks.map (·.uid)).Nodup → ∃ t, exec .gbar s = .next t ∧
      t = { s with run := s.run.without e.r.exec, blocks := t.blocks, coh := { s.coh with l1 := t.coh.l1 } } ∧
      let come (u' m' k : Nat) (x : Thread) : Thread :=
        if u' = u ∧ m' = m ∧ k ∈ e.r.exec then standing s e k .gbar x else x
      let gang := s.gangBlocks e.b
      let core (x : Block) : Block := { x with spindles := [], gbarArr := [], gbarPh := 0 }
      (∀ u', (t.blk u').map core = (s.blk u').map core) ∧ (∀ u' m', (spn t u' m').map shut = (spn s u' m').map shut) ∧
      (∀ u', (∀ x ∈ gang, x.uid ≠ u') → t.blk u' = s.blk u') ∧
      if gang.all (fun x => x.spindles.all (fun sp => sp.threads.zipIdx.all (fun y =>
          y.1.st == .exited || x.gbarArr.contains (sp.m, y.2) ||
          (x.uid == u && sp.m == m && e.r.exec.contains y.2)))) then
        (∀ x ∈ gang, (t.blk x.uid).map (fun y => (y.gbarPh, y.gbarArr)) = some (x.gbarPh + 1, []) ∧
          ∀ m' k y, thr s x.uid m' k = some y → SettledAs t x.uid m' k ((come x.uid m' k y).release (· == .gbar))) ∧
        t.coh.l1 = s.coh.l1.filter (fun c => !gang.any (fun x => x.core == c.core))
      else
        (∀ u', (t.blk u').map (fun y => (y.gbarPh, y.gbarArr)) = (s.blk u').map (fun y => (y.gbarPh,
          if u' = u then y.gbarArr ++ e.r.exec.map (fun k => (m, k)) else y.gbarArr))) ∧
        (∀ u' m' k y, thr s u' m' k = some y → thr t u' m' k = some (come u' m' k y)) ∧ t.coh.l1 = s.coh.l1) ∧
    ((∀ k ∈ e.r.exec, ctr k % 16 = 0 ∧ ctr k + 16 ≤ e.b.lsize ∧ e.b.stashAt (ctr k) = none) →
      let short (k : Nat) : Prop := (e.b.counter (ctr k)).1 < (e.b.counter (ctr k)).2
      ∃ t0 t, exec (.arcwait base off) s = .next t ∧ Traffic s t0 ∧ ((∀ k ∈ e.r.exec, short k) → t0 = s) ∧
        Threads t0 t e (fun k x => if short k then standing s e k (.counter (ctr k)) x else x) ∧
        t.run = s.run.without (e.r.exec.filter (fun k => decide (short k))) ∧
        ((∃ k ∈ e.r.exec, ¬short k) → (∀ c ∈ t.coh.l1, c.core ≠ e.b.core) ∧ ∀ p ∈ t.coh.pend, p.die ≠ dieOf e.b.core)) ∧
    let holds : Prop := e.sp.full = true ∨ (e.sp.vfull = e.sp.vpro ∧ e.sp.afull = e.sp.apro)
    (holds → exec .acq s = .next s) ∧
    (¬holds → ∃ t, exec .acq s = .next t ∧
      t = { s with run := s.run.without e.r.exec, nextId := s.nextId + 1, blocks := t.blocks } ∧ frame t ∧
      (spn t u m).map shut = some (shut { e.sp with acq := some (e.sp.acq.getD s.nextId) }) ∧
      ∀ k x, e.thr k = some x → thr t u m k = some (if k ∈ e.r.exec then standing s e k .allot x else x)) ∧
    (e.sp.full = false → exec .rela s = .next s) ∧
    (e.sp.full = true → s.accBusy e.b e.sp = false → ∃ t, exec .rela s = .next t ∧
      t = { s with blocks := t.blocks, ops := t.ops } ∧ (∀ u' m', ¬(u' = u ∧ m' = m) → spn t u' m' = spn s u' m') ∧
      (∀ u', u' ≠ u → t.blk u' = s.blk u') ∧
      spn t u m = some { e.sp with full := false, v := e.sp.v.take e.sp.vpro } ∧
      shell t u = some { e.b with
        spindles := []
        acc := e.b.acc.filter (fun x =>
          !(e.b.accBase m + e.sp.apro ≤ x.n && x.n < e.b.accBase m + e.sp.afull)) } ∧
      t.ops = (s.dropPending u m s.nextId (fun _ r => e.sp.vpro ≤ r)).ops) ∧
    ∃ t, exec .exit s = .next t ∧ t.run = Run.idle ∧
      (∀ k ∈ e.r.exec, e.thr k ≠ none → (thr t u m k).map (·.st) = some .exited) ∧
      ∀ l, s.launch e.b.launch = some l →
        let n := (e.r.exec.filter (fun k => ((e.thr k).map (·.diverted)).getD false)).length
        (t.launch e.b.launch).map (fun x => (x.parted, x.fin)) = some (l.parted + n, l.fin + (e.r.exec.length - n))

/-- R1, R14, R43, R44, R279, R280, R285, R286: issue, time and the control registers. A thread that yields continues no clause
by CHAIN in its round (R345). -/
def Obligations.IssueAndRegisters : Prop :=
  ∀ (s : State) (e : Env) (d : VDst) (n : BitVec 6) (a : Sel), s.env = some e →
    let own (f : Thread → Dword) (k : Nat) : Dword := ((e.thr k).map f).getD 0
    let ctx (f : Ctx → Dword) : Dword := ((s.ctx e.b.ctx).map f).getD 0
    let slack : Dword := BitVec.ofInt 64 (((s.launch e.b.launch).map (fun l => (l.dl : Int) - l.budget)).getD 0 - s.devtime)
    let td : TDst := match d with | .latch => .latch | .v r => .v r
    let unchained (t : State) : Prop :=
      let mute (x : State) : State := { x with sched := { x.sched with ports := x.sched.ports.map (fun p =>
        { p with used := p.used.map (fun y => (y.1, y.2.1, false)) }) } }
      mute t = mute s ∧ ∀ p ∈ t.sched.ports, p.core = e.b.core → p.cur = some e.sp.spid →
        ∀ y ∈ p.used, y.1 ∈ e.r.exec → y.2.2 = false
    (∃ t0 t, exec .yield s = .next t ∧ unchained t0 ∧ Threads t0 t e (fun _ x => { x with yielded := true }) ∧ t.run = s.run) ∧
    exec .nop s = .next s ∧
    (∃ t0 t, exec (.sleep a) s = .next t ∧ t.run = s.run ∧ ((∀ k ∈ e.r.exec, e.read32 a k ≠ 0) → t0 = s) ∧
      ((∃ k ∈ e.r.exec, e.read32 a k = 0) → unchained t0) ∧ Threads t0 t e (fun k x =>
      if e.read32 a k = 0 then { x with yielded := true } else { x with wake := some (s.devtime + (e.read32 a k).toNat) })) ∧
    (∃ t, exec (.time td) s = .next t ∧ VWrite s t e d true (fun _ => BitVec.ofNat 64 s.devtime) .u) ∧
    (∃ t, exec (.time (.s n)) s = .next t ∧ UWrite s t e (.s n) (BitVec.ofNat 64 s.devtime)) ∧
    (∃ t, exec (.slack td) s = .next t ∧ VWrite s t e d true (fun _ => slack) .u) ∧
    (∃ t, exec (.slack (.s n)) s = .next t ∧ UWrite s t e (.s n) slack) ∧
    let dies : Nat := (List.range 4).countP (fun i => s.diemask.getLsbD i)
    let pkgcfg : Nat := 16 + 4 * dies * 2 ^ 8 + s.diemask.toNat * 2 ^ 16 + 64 * dies * 2 ^ 20 + 0x60 * 2 ^ 32
    (∀ q ∈ ([
        (0x000, fun _ => 0x100, .u), (0x001, fun _ => 1, .u), (0x002, fun _ => BitVec.ofNat 64 pkgcfg, .u), (0x003, fun _ => BitVec.ofNat 64 s.coh.leaseMax, .u),
        (0x010, own (·.tls), .g), (0x011, own (fun x => BitVec.ofNat 64 x.rsd), .g),
        (0x012, fun _ => ctx (fun c => c.alogmask.setWidth 64), .u), (0x020, fun _ => ctx (·.desc.sysvec), .u),
        (0x021, own (fun x => BitVec.ofNat 64 (256 * x.insys.toNat + x.code.toNat)), .g),
        (0x022, own (·.sysa), .g), (0x023, own (·.sysb), .g), (0x024, own (·.sysret), .g)]
          : List (BitVec 12 × (Nat → Dword) × Tag)),
      (∃ t, exec (.csrr td q.1) s = .next t ∧ VWrite s t e d true q.2.1 q.2.2) ∧
      ∃ t, exec (.csrr (.s n) q.1) s = .next t ∧ UWrite s t e (.s n) (q.2.1 e.low)) ∧
    ∃ t, exec (.csrw 0x012 a) s = .next t ∧ t = { s with ctxs := t.ctxs } ∧
      ∀ c, s.ctx e.b.ctx = some c → t.ctx e.b.ctx =
        some { c with alogmask := (e.read true a e.low).setWidth 5 &&& c.desc.ceil }

/-! Taking an exception. -/

/-- R181, R199, R282, R389: `trap`, `brk` and a failing check stop the batch at the instruction, with nothing of it done,
and raise the context's halt line: the threads of the context that run no clause halt where they stand, its operations
settle, memory is not written, and other contexts keep their records. -/
def Obligations.HaltEntry : Prop :=
  ∀ (s : State) (e : Env) (c : Ctx) (code : Byte) (tag : BitVec 25) (m : MemOp) (sz : Size) (d : BitVec 7) (k : AMod) (a : Sel)
    (q : Instr × Nat × Trap × Dword),
    s.env = some e → s.ctx e.b.ctx = some c → c.halted = false → c.halting = false →
    (∀ r ∈ s.runs, r.blk = e.b.uid → r.m = e.sp.m → ∀ j ∈ r.exec, j ∉ e.r.exec) →
    (q = (.trap code, e.low, .software, code.setWidth 64) ∨ q = (.brk tag, e.low, .breakpoint, tag.setWidth 64) ∨
      (∃ j x, checkSlots (fun j => s.access e (e.gaddr m sz.bytes j) sz.bytes (askLd k sz.bytes) mkLoad) e.r.exec =
        .error (j, .trap x (e.gaddr m sz.bytes j)) ∧ q = (.ld d k sz m, j, x, e.gaddr m sz.bytes j)) ∨
      (∃ j, e.r.exec.find? (fun j => decide (e.b.lsize < e.laddr m sz.bytes j + sz.bytes)) = some j ∧
        q = (.ldl d sz m, j, .protection, BitVec.ofNat 64 (e.laddr m sz.bytes j))) ∨
      (∃ j, e.r.exec.find? (fun j => (e.read true a j).toNat % 4 != 0) = some j ∧ q = (.jmp a, j, .illegalInsn, 0))) →
    ∃ t, exec q.1 s = .next t ∧ t.run = Run.idle ∧ t.mem = s.mem ∧
      (t.ctx e.b.ctx).map (fun c => (c.halting, c.cause)) = some (true, q.2.2.1) ∧
      (∀ j x, thr s e.b.uid e.sp.m j = some x → j ∈ e.r.exec → ∃ y, thr t e.b.uid e.sp.m j = some y ∧ y.st = .halted ∧
        y.pc = x.pc ∧ y.preds = x.preds ∧ (∃ olds, y.mid = some { e.r.back.mid j with olds := olds }) ∧
        y.stop = if j = q.2.1 then some ⟨q.2.2.1, q.2.2.2⟩ else none) ∧
      (∀ o ∈ t.ops, o.ctx = e.b.ctx → o ∈ s.ops ∧ o.kind.rows = true) ∧
      (∀ b ∈ t.blocks, b.ctx = e.b.ctx → b.evicted = false → ∀ sp ∈ b.spindles, ∀ j x, sp.threads[j]? = some x →
        (∃ r ∈ t.runs, r.active = true ∧ r.blk = b.uid ∧ r.m = sp.m ∧ j ∈ r.exec) ∨ x.st = .halted ∨ x.st = .exited ∨ x.st = .stopped) ∧
      ∀ n, n ≠ e.b.ctx → t.ctx n = s.ctx n

/-! Copies and the stash. -/

/-- R118, R124, R161, R288, R293, R294: a copy whose slots pass their checks issues one operation for each executing slot
that has bytes to move; a copy into local memory makes each line it touches absent with one more fill pending; nothing
else changes.

R118, R124, R161: COPY_WRITE moves one packet: its bytes stand at their destination and no other byte of it changes, its
line is present when the last packet for it has landed and no other fill is pending, its counter gains the bytes. -/
def Obligations.Copies : Prop :=
  (∀ (s : State) (e : Env) (pol : Pol) (out : Bool) (ctr : Option (BitVec 16)) (l base off count shp : Sel)
    (job : Nat → List CopySeg) (segs : List CopySeg),
    s.env = some e →
    let n (k : Nat) : Nat := (e.read32 count k).toNat
    let op (id : Nat) (ks : List Nat) (x : List CopySeg) : Op :=
      { id := id, blk := e.b.uid, m := e.sp.m, ctx := e.b.ctx, core := e.b.core, spid := e.sp.spid, slots := ks
        token := e.r.token, hdr := e.r.hdr, start := s.devtime
        kind := .copy out pol (ctr.map (fun c => 16 * c.toNat)) x (x.map (·.len)).sum s.nextId }
    let touched (xs : List (List CopySeg)) (line : Nat) : Nat :=
      if out then 0 else (xs.filter (fun x => x.any (fun y => decide (y.la / 128 = line)))).length
    let after (t : State) (xs : List (List CopySeg)) : Prop :=
      t = { s with blocks := t.blocks, ops := t.ops, nextId := t.nextId } ∧ (∀ u, u ≠ e.b.uid → t.blk u = s.blk u) ∧
      ∃ b, t.blk e.b.uid = some b ∧ { b with absent := e.b.absent, fills := e.b.fills } = e.b ∧ ∀ line,
        b.fillCount line = e.b.fillCount line + touched xs line ∧
        b.present line = (e.b.present line && touched xs line == 0)
    ((∀ k ∈ e.r.exec, n k ≤ 2 ^ 20 ∧ (n k = 0 → job k = []) ∧ (n k ≠ 0 → job k ≠ [] ∧
        s.copyCheck e out ctr (e.gaddr ⟨base, off, 0⟩ 1 k) (e.read32 l k).toNat 1 (n k) 0 = .ok (job k))) →
      ∃ t, exec (.cpy pol out ctr l base off count) s = .next t ∧
        after t (e.r.exec.map job) ∧
        t.ops = s.ops ++ (e.r.exec.filter (fun k => !(job k).isEmpty)).zipIdx.map (fun x =>
          op (s.nextId + x.2) [x.1] (job x.1))) ∧
    let w := e.readU shp
    let pitch := w.toNat / 2 ^ 32
    let rows := w.toNat / 2 ^ 16 % 2 ^ 16
    let bytes := w.toNat % 2 ^ 16
    (rows ≠ 0 → bytes ≠ 0 → rows * bytes ≤ 2 ^ 20 → bytes ≤ pitch → segs ≠ [] →
      s.copyCheck e out ctr (e.gaddr ⟨base, off, 0⟩ 1 e.low) (e.read32 l e.low).toNat rows bytes pitch = .ok segs →
      ∃ t, exec (.cpyw pol out ctr l base off shp) s = .next t ∧ after t [segs] ∧
        t.ops = s.ops ++ [op s.nextId e.r.exec segs])) ∧
  (∀ (s : State) (o : Op) (b : Block) (out : Bool) (pol : Pol) (ctr : Option Nat) (segs : List CopySeg) (bytes grp n : Nat)
    (x : CopySeg) (pa : Nat),
    pending s o.id = some o → o.kind = .copy out pol ctr segs bytes grp → s.blk o.blk = some b → segs[n]? = some x →
    x.loc = .mem pa → s.copyBefore o out grp (segs.take n) x = false → Quiet s o.core →
    let rest := segs.take n ++ segs.drop (n + 1)
    (out = true → b.present (x.la / 128) = true → s.downIn pa x.len = none →
      ∃ t, exec (.copyWrite o.id n) s = .next t ∧
        (pending t o.id).map (·.kind) = some (.copy true pol ctr rest bytes grp) ∧
        (ctr = none → (∀ a, localByte t o.blk a = localByte s o.blk a) ∧
          ∀ a, seen t o.core a = if pa ≤ a ∧ a < pa + x.len then b.lbyte (x.la + (a - pa)) else seen s o.core a)) ∧
    (out = false → s.badIn pa x.len = none →
      ∃ t b', exec (.copyWrite o.id n) s = .next t ∧ t.blk o.blk = some b' ∧
        (pending t o.id).map (·.kind) = some (.copy false pol ctr rest bytes grp) ∧
        (ctr = none → ∀ a, b'.lbyte a =
          if x.la ≤ a ∧ a < x.la + x.len then seen s o.core (pa + (a - x.la)) else b.lbyte a) ∧
        (∀ line, line ≠ x.la / 128 → b'.present line = b.present line ∧ b'.fillCount line = b.fillCount line) ∧
        (if rest.any (fun y => decide (y.la / 128 = x.la / 128)) then
          b'.present (x.la / 128) = b.present (x.la / 128) ∧ b'.fillCount (x.la / 128) = b.fillCount (x.la / 128)
        else
          b'.fillCount (x.la / 128) = b.fillCount (x.la / 128) - 1 ∧
          b'.present (x.la / 128) = (b.present (x.la / 128) || decide (b.fillCount (x.la / 128) ≤ 1))) ∧
        ∀ c, ctr = some c → ¬(x.la < c + 16 ∧ c < x.la + x.len) →
          (b'.counter c).1 = ((b.counter c).1 + x.len) % 2 ^ 64 ∧ (b'.counter c).2 = (b.counter c).2))

/-- R120, R123, R288, R295: the stash instructions issue one operation that will write their status, the first of R295's codes
that applies; a mapping is made, or its dirty lines written back, at once, and an unmapping when the operation completes. -/
def Obligations.StashInstructions : Prop :=
  ∀ (s : State) (e : Env) (d : BitVec 6) (l v bytes : Sel), s.env = some e →
    let la := (e.readU l).toNat
    let n := (e.readU bytes).toNat
    let whole : Bool := la != 0 && la % 0x10000 == 0 && n != 0 && n % 0x10000 == 0 && (e.readU v).toNat % 128 == 0
    let inside : Bool := la % 128 == 0 && n % 128 == 0 && e.b.stash.any (fun m => m.l ≤ la && la + n ≤ m.l + m.bytes)
    (∃ t0 t st, exec (.stmap d l v bytes) s = .next t ∧ Queued t0 t e (.stash d.toNat (BitVec.ofNat 64 st) none) ∧
      (let used : Prop := e.b.stash.any (fun m => m.l < la + n && la < m.l + m.bytes) = true ∨
          ∃ f ∈ e.b.fills, la ≤ 128 * f.1 ∧ 128 * f.1 < la + n
        let bad : Prop := ∃ p ∈ s.pieces (e.walker s) (e.readU v) n, match p.wk with
          | .page g => 3 ≤ g.mtype
          | .service => False
          | .fail => True
        (whole = false → st = 1) ∧ (whole = true → e.b.lsize < la + n → st = 2) ∧
        (whole = true → la + n ≤ e.b.lsize → used → st = 3) ∧
        (whole = true → la + n ≤ e.b.lsize → ¬used → bad → st = 4) ∧
        (whole = true → la + n ≤ e.b.lsize → ¬used → ¬bad → st = 0)) ∧
      (st ≠ 0 → t0 = s) ∧
      (st = 0 → t0 = { s with blocks := t0.blocks } ∧ (∀ u, u ≠ e.b.uid → t0.blk u = s.blk u) ∧
        ∃ b, t0.blk e.b.uid = some b ∧ { b with stash := e.b.stash, absent := e.b.absent } = e.b ∧
          b.stash = e.b.stash ++ [{ l := la, v := e.readU v, bytes := n }] ∧
          ∀ line, b.present line = (e.b.present line && !decide (la ≤ 128 * line ∧ 128 * line < la + n)))) ∧
    (∃ t, exec (.stunmap d l) s = .next t ∧ Queued s t e
      (if e.b.stash.any (fun m => m.l == la) then .stash d.toNat 0 (some la) else .stash d.toNat 5 none)) ∧
    (∃ t0 t, exec (.stflush d l bytes) s = .next t ∧ Queued t0 t e (.stash d.toNat (if inside then 0 else 5) none) ∧
      Traffic s t0 ∧ (inside = false → t0 = s) ∧
      (inside = true → ∀ b, t0.blk e.b.uid = some b → b.owned = e.b.owned ∧ b.absent = e.b.absent ∧ b.lmem = e.b.lmem ∧
        ∀ x ∈ b.owned, la ≤ 128 * x.1 → 128 * x.1 < la + n → x.1 ∉ b.dirty)) ∧
    ∀ (o : Op) (b : Block) (m : StashMap) (r : Nat),
      pending s o.id = some o → o.kind = .stash r 0 (some la) → s.blk o.blk = some b →
      b.stash.find? (fun x => x.l == la) = some m → m.l % 128 = 0 → m.bytes % 128 = 0 →
      (∀ f ∈ b.fills, ¬(m.l ≤ 128 * f.1 ∧ 128 * f.1 < m.l + m.bytes)) → s.unsent o = false →
      (b.evicted = true ∨ ∀ sp ∈ b.spindles, ∀ x ∈ sp.threads, ∀ line, m.l ≤ 128 * line → 128 * line < m.l + m.bytes →
        (x.st = .ready → line ∉ x.served) ∧
        ∀ ls since, x.st = .parked (.lines ls since) → line ∈ ls → b.present line = false) →
      let live : Prop := o.lost = false ∧ ∃ sp, b.sp o.m = some sp ∧ ∃ k ∈ o.slots, sp.gone k = false
      ∃ t b', exec (.tokenClear o.id) s = .next t ∧ OpGone s t o.id ∧ t.blk o.blk = some b' ∧
        (∀ x ∈ b'.stash, x.l ≠ la) ∧ b'.lmem = b.lmem ∧
        (∀ x ∈ b'.owned, ¬(m.l ≤ 128 * x.1 ∧ 128 * x.1 < m.l + m.bytes)) ∧
        (∀ line, b'.present line = (b.present line && !decide (m.l ≤ 128 * line ∧ 128 * line < m.l + m.bytes))) ∧
        (live → ∀ i, sreg t o.blk o.m i = (sreg s o.blk o.m i).map (fun old => if i = r then 0 else old)) ∧
        (¬live → ∀ i, sreg t o.blk o.m i = sreg s o.blk o.m i)

/-- R118, R121, R122, R123: a stash fill brings its line's bytes, present and owned; a recall gives the line up, its dirty
bytes written back.

R35, R119, R389: a thread parked on a line that nothing will fill, when the park limit has passed, takes a halting fault
of cause ORPHAN_WAIT with the line's address. -/
def Obligations.StashLines : Prop :=
  (∀ (s : State) (u line p : Nat) (b : Block), s.blk u = some b →
    (b.fillCount line ≠ 0 → b.stashAt (128 * line) ≠ none →
      (s.walked (s.walkerOf b.core b.ctx) (b.stashVa line) 128).stashLine b line = some p → s.badLine p = false →
      Quiet s b.core →
      ∃ t b', exec (.stashFillComplete u line) s = .next t ∧ t.blk u = some b' ∧ (line, p) ∈ b'.owned ∧
        (∀ a, b'.lbyte a = if 128 * line ≤ a ∧ a < 128 * line + 128 then seen s b.core (128 * p + (a - 128 * line)) else b.lbyte a) ∧
        b'.fillCount line = b.fillCount line - 1 ∧
        b'.present line = (b.present line || decide (b.fillCount line = 1))) ∧
    ((∃ x ∈ b.owned, x.1 = line) →
      ∃ t b', exec (.stashRecall u line) s = .next t ∧ Traffic s t ∧ t.blk u = some b' ∧ b'.present line = false ∧
        (∀ x ∈ b'.owned, x.1 ≠ line) ∧ line ∉ b'.dirty ∧ b'.lmem = b.lmem) ∧
    (b.owned = [(line, p)] → b.dirty = [line] → s.coh.pend = [] → s.health.unmapped = [] →
      s.inRegion (128 * p) 128 = false →
      ∃ t, exec (.stashRecall u line) s = .next t ∧
        ∀ a, t.home a = if 128 * p ≤ a ∧ a < 128 * p + 128 then b.lbyte (128 * line + (a - 128 * p)) else s.home a)) ∧
  (∀ (s : State) (b : Block) (sp : Spindle) (k since : Nat) (ls : List Nat) (x : Thread) (c : Ctx),
    (∀ b' ∈ s.blocks, b'.core = b.core → b'.evicted = false → b' = b) → b ∈ s.blocks → b.evicted = false →
    s.blk b.uid = some b → b.sp sp.m = some sp → b.spindles.find? (fun y => y.spid == sp.spid) = some sp →
    sp.threads[k]? = some x → x.st = .parked (.lines ls since) → s.ctx b.ctx = some c → c.halted = false → c.halting = false →
    since + 1000 * c.desc.parklim ≤ s.devtime → s.running b.uid sp.m k = false →
    ∀ line, ls.find? (fun l => !b.present l && b.fillCount l == 0 && (b.stashAt (128 * l)).isNone) = some line →
      ∃ t, exec (.orphanWait b.core sp.spid k) s = .next t ∧
        (t.ctx b.ctx).map (fun c => (c.halting, c.cause)) = some (true, .orphanWait) ∧
        (thr t b.uid sp.m k).map (fun y => (y.st, y.stop)) = some (.halted, some ⟨.orphanWait, BitVec.ofNat 64 (128 * line)⟩))

/-! Tiles. -/

/-- R65, R81, R84, R296, R297: `zdef` and `zclr` define a tile and clear it; a definition outside the held words, and a
handle that names no tile, stop the context with ILLEGAL_OPERAND. -/
def Obligations.TileHandles : Prop :=
  ∀ (s : State) (e : Env) (z : BitVec 4) (clr : Bool) (base rows cols : Sel) (tl : Tile),
    s.env = some e → e.b.tiles.length = 16 →
    let ba := (e.readU base).toNat
    let r := (e.readU rows).toNat
    let c := (e.readU cols).toNat
    let ok : Prop := ba % 64 = 0 ∧ 1 ≤ r ∧ r ≤ 64 ∧ 1 ≤ c ∧ c ≤ 1024 ∧ ∀ i, i < r * c → e.b.accHeld (ba + i) = true
    let block (t : State) (b : Block) : Prop :=
      t.blk e.b.uid = some b ∧ { b with acc := e.b.acc, tiles := e.b.tiles, mmas := e.b.mmas } = e.b ∧
        ∀ u, u ≠ e.b.uid → t.blk u = s.blk u
    (ok → ∃ t b, exec (.zdef z clr base rows cols) s = .next t ∧ t = { s with blocks := t.blocks, nextId := s.nextId + 1 } ∧
      block t b ∧
      (b.tiles[z.toNat]?).join = some { uid := s.nextId, base := ba, rows := r, cols := c, nf := false, ovf := false } ∧
      (∀ i : Nat, i ≠ z.toNat → b.tiles[i]? = e.b.tiles[i]?) ∧
      (∀ x, x ∈ b.mmas → x ∈ e.b.mmas) ∧
      ∀ n, b.accGet n = if ba ≤ n ∧ n < ba + r * c then (if clr then 0 else (e.b.accGet n).1, 0) else e.b.accGet n) ∧
    (¬ok → exec (.zdef z clr base rows cols) s = .next (s.trap e e.low .illegalOperand 0)) ∧
    (e.b.tile z = none → exec (.zclr z) s = .next (s.trap e e.low .illegalOperand 0)) ∧
    (e.b.tile z = some tl → ∃ t b, exec (.zclr z) s = .next t ∧ t = { s with blocks := t.blocks } ∧ block t b ∧
      b.mmas = e.b.mmas ∧ (b.tiles[z.toNat]?).join = some { tl with nf := false, ovf := false } ∧
      ∀ n, b.accGet n = if tl.base ≤ n ∧ n < tl.base + tl.rows * tl.cols then (0, 0) else e.b.accGet n)

/-- R68, R69, R288, R298, R299, R301 to R305: the tile engine's instructions that pass their checks issue one operation for
the batch, and change nothing else but, for an `mma`, that its tile is unpredictable until a wait (R66), and so are its operand
ranges in the block's memory, for a gang, the block's count of gang operations, and for a drain, what the walks of its rows
change.

R236, R305: `zld` and `zst` of a misaligned address that passes the other checks stop with PROTECTION. -/
def Obligations.TileOperationsIssue : Prop :=
  ∀ (s : State) (e : Env) (z : BitVec 4) (a b bcore fw base off : Sel) (tl : Tile) (src : Block) (rm : RMode)
    (locs : List (Loc × Nat)),
    s.env = some e → e.b.tile z = some tl →
    let w := e.read32 fw e.low
    let av := (e.read32 a e.low).toNat
    let bv := (e.read32 b e.low).toNat
    let xa := av % 2 ^ 20
    let kb := av / 2 ^ 20
    let ranges := mmaRanges tl xa bv kb w
    let va := e.gaddr ⟨base, off, 0⟩ 1 e.low
    let mode : Option RMode := match w.toNat / 2 ^ 8 % 8 with
      | 0 => some .rne
      | 1 => some .rz
      | 2 => some .ru
      | 3 => some .rd
      | 4 => some .sr
      | _ => none
    let fwOk : Prop := w.toNat < 2 ^ 13 ∧ w.toNat % 16 ≤ 6 ∧ w.toNat / 16 % 16 ≤ 6 ∧ mode = some rm
    (fwOk → (∀ k ∈ e.r.exec, e.read32 fw k = w) → 1 ≤ kb → kb ≤ 2048 → bv < 2 ^ 20 → ranges.1.1 + ranges.1.2 ≤ e.b.lsize →
      (ranges.2.1 + ranges.2.2 ≤ e.b.lsize →
        ∃ t, exec (.mma z a b bcore fw) s = .next t ∧
          QueuedMma s t e tl [ranges.1, ranges.2] (.mma tl z.toNat xa bv kb w none 0 (some e.b.uid))) ∧
      (((s.launch e.b.launch).bind (fun l => l.w[2]?)).getD 0 ≠ 0 → s.gangBlockAt e.b (e.readU bcore).toNat = some src →
        (src.uid = e.b.uid → ranges.2.1 + ranges.2.2 ≤ e.b.lsize) → e.b.gangN ∉ e.b.gangX →
        ∃ t0 t, exec (.mmaGang z a b bcore fw) s = .next t ∧
          t0 = s.updBlk e.b.uid (fun b => { b with gangN := e.b.gangN + 1 }) ∧
          QueuedMma t0 t e tl (if src.uid = e.b.uid then [ranges.1, ranges.2] else [ranges.1])
            (.mma tl z.toNat xa bv kb w (some (e.readU bcore).toNat) e.b.gangN none))) ∧
    ((∃ k ∈ e.r.exec, e.read32 fw k ≠ w) →
      exec (.mma z a b bcore fw) s = .next (s.trap e e.low .formatDivergence (w.setWidth 64))) ∧
    (va.toNat % 32 = 0 →
      (s.checkAccess (e.walker s) va (32 * (tl.rows * tl.cols + 1)) (askCopy false) (fun _ => none) = .ok locs →
        ∃ t, exec (.zld z base off) s = .next t ∧ Queued s t e (.zld tl z.toNat locs)) ∧
      (s.checkAccess (e.walker s) va (32 * (tl.rows * tl.cols + 1)) (askCopy true) (fun _ => none) = .ok locs →
        ∃ t, exec (.zst z base off) s = .next t ∧ Queued s t e (.zst tl z.toNat locs) (e.b.mmaOver tl))) ∧
    (va.toNat % 32 ≠ 0 →
      (s.checkAccess (e.walker s) va (32 * (tl.rows * tl.cols + 1)) (askCopy false) (fun _ => none) = .ok locs →
        exec (.zld z base off) s = .next (s.trap e e.low .protection va)) ∧
      (s.checkAccess (e.walker s) va (32 * (tl.rows * tl.cols + 1)) (askCopy true) (fun _ => none) = .ok locs →
        exec (.zst z base off) s = .next (s.trap e e.low .protection va))) ∧
    let t0 := s.walkedAll (e.walker s) ((List.range tl.rows).map (fun i => (va + BitVec.ofNat 64 (i * (tl.cols * 4)), tl.cols * 4)))
    (fwOk → t0.rowLocs e va (tl.cols * 4) (tl.cols * 4) (askCopy true) tl.rows = .ok locs →
      ∃ t, exec (.zdrain z false base off .zero fw) s = .next t ∧ Traffic s t0 ∧
        Queued t0 t e (.zdrain tl z.toNat
          { seed := 0, col0 := 0, row0 := 0, bias := [], nosat := false, dfmt := 0 } rm [locs, [], [], [], []]) (e.b.mmaOver tl))

/-- R81 to R84, R299, R301: a performed `mma`, once every store to its operands is visible (R162), adds, exactly and modulo 2^256, the sum over k of the products of its
operands' elements to each word of the tile, with the carry counted beside it; a non-finite element counts as 0 and sets
NF. Nothing but the words and flags of the tile changes, then what the records of non-finite elements change, then the
operation leaves the list.

R301: GANG_MMA_MATCH: once every block of the gang launch has issued its n-th gang operation, and they agree, each reads
the X_B that the block on core bcore gave; where they disagree the context halts with FORMAT_DIVERGENCE. -/
def Obligations.MmaAddsExactly : Prop :=
  (∀ (s : State) (o : Op) (b : Block) (tl : Tile) (z xa xb kb n : Nat) (fw : Word),
    pending s o.id = some o → o.kind = .mma tl z xa xb kb fw none n (some o.blk) → s.blk o.blk = some b → b.evicted = false →
    b.allPresent [(mmaRanges tl xa xb kb fw).1, (mmaRanges tl xa xb kb fw).2] = true →
    (∃ x ∈ b.tiles, x.map (·.uid) = some tl.uid) → b.unseen = [] → s.unsent o = false → s.halting o.ctx = false →
    let fa := fw.toNat % 16
    let fb := fw.toNat / 16 % 16
    let elemA (i k : Nat) := opndElem b.lbyte fa tl.rows kb (fw.getLsbD 11) xa i k
    let elemB (j k : Nat) := opndElem b.lbyte fb tl.cols kb (fw.getLsbD 12) xb j k
    let units (x : Option Ex) : Int := (x.map (fun v => v.units 56)).getD 0
    let sum (i j : Nat) : Int := ((List.range (32 * kb)).map (fun k => units (elemA i k) * units (elemB j k))).sum
    let bad : Prop := ∃ k, k < 32 * kb ∧
      ((∃ i, i < tl.rows ∧ elemA i k = none) ∨ ∃ j, j < tl.cols ∧ elemB j k = none)
    ∃ t b', exec (.tokenClear o.id) s = .next t ∧ OpGone s t o.id ∧ t.blk o.blk = some b' ∧
      (∀ i j, i < tl.rows → j < tl.cols →
        let old := b.accGet (tl.base + (i * tl.cols + j))
        b'.accGet (tl.base + (i * tl.cols + j)) = (BitVec.ofInt 256 (old.1.toInt + sum i j),
          old.2 + BitVec.ofInt 8 ((old.1.toInt + sum i j + 2 ^ 255) / 2 ^ 256))) ∧
      (∀ m, ¬(tl.base ≤ m ∧ m < tl.base + tl.rows * tl.cols) → b'.accGet m = b.accGet m) ∧
      ((b'.tileNow tl).nf = true ↔ (b.tileNow tl).nf = true ∨ bad) ∧
      b'.lmem = b.lmem ∧
      ∃ t0 t1,
        (t0 = { s with blocks := t0.blocks } ∧ (∀ u m, spn t0 u m = spn s u m) ∧ (∀ u, u ≠ o.blk → t0.blk u = s.blk u) ∧
          (t0.blk o.blk).map (fun x => { x with acc := [], tiles := [] }) = some { b with acc := [], tiles := [] } ∧
          ∀ x, t0.blk o.blk = some x → ∀ i : Nat, (b.tiles[i]?).join.map (·.uid) ≠ some tl.uid → x.tiles[i]? = b.tiles[i]?) ∧
        Traffic t0 t1 ∧ (¬bad → t1 = t0) ∧ OpLeaves t1 t o) ∧
  (∀ (s : State) (b sb : Block) (o : Op) (tl : Tile) (z xa xb kb n core : Nat) (fw : Word) (c : Ctx),
    s.blk b.uid = some b → o ∈ s.ops → o.blk = b.uid → o.kind = .mma tl z xa xb kb fw (some core) n none →
    (∀ p ∈ s.ops, p.blk = b.uid → (∃ t z x y k w m q, p.kind = .mma t z x y k w (some m) q none) → p = o) →
    o ∈ s.gangOps b n → ((s.launch b.launch).bind (fun l => l.e[2]?)).getD 0 ≤ (s.gangOps b n).length →
    (s.ops.map (·.id)).Nodup →
    ((∃ p ∈ s.gangOps b n, p.kind.gangKey ≠ o.kind.gangKey) → s.ctx b.ctx = some c → c.halted = false → c.halting = false →
      ∃ t, exec (.gangMmaMatch b.uid) s = .next t ∧
        (t.ctx b.ctx).map (fun c => (c.halting, c.cause)) = some (true, .formatDivergence) ∧
        ∀ p ∈ s.gangOps b n, ∀ x ∈ t.ops, x.id ≠ p.id) ∧
    ((∀ p ∈ s.gangOps b n, p.kind.gangKey = o.kind.gangKey) → s.gangBlockAt b core = some sb →
      ∀ p ∈ s.gangOps b n, p.blk = sb.uid → (∀ q ∈ s.gangOps b n, q.blk = sb.uid → q = p) →
        ∀ u y x xbs, p.kind = .mma u y x xbs kb fw (some core) n none →
          ∃ t, exec (.gangMmaMatch b.uid) s = .next t ∧ t = { s with ops := t.ops } ∧
            (pending t o.id).map (·.kind) = some (.mma tl z xa xbs kb fw (some core) n (some sb.uid))))

/-- R85, R288, R302: `zrnd` issues: slot k will receive the element at row r, column c + k of the tile, rounded, or 0 outside
the tile, or while NF is set the destination's NaN or most negative value. -/
def Obligations.RoundingToRegisters : Prop :=
  ∀ (s : State) (e : Env) (d : BitVec 7) (f : ZFmt) (rm : RMode) (z : BitVec 4) (pos origin seed : Sel) (tl : Tile),
    s.env = some e → e.b.tile z = some tl → e.b.mmaOver tl = false →
    let regs := if f = .f64 then 2 else 1
    let row (k : Nat) := (e.read true pos k).toNat % 2 ^ 16
    let col (k : Nat) := (e.read true pos k).toNat / 2 ^ 16 % 2 ^ 16 + k
    let elem (k : Nat) : Int := (e.b.accGet (tl.base + (row k * tl.cols + col k))).1.toInt
    let hash (k : Nat) : Nat := if rm = .sr then
      srHash (e.read true seed k) ((e.read true origin k).toNat % 2 ^ 16) ((e.read true origin k).toNat / 2 ^ 16 % 2 ^ 16)
        (row k * tl.cols + col k) else 0
    let value (k : Nat) : Nat :=
      if tl.rows ≤ row k ∨ tl.cols ≤ col k then 0
      else if (e.b.tileNow tl).nf = true then (match f with
        | .f32 => 0x7FC0_0000
        | .bf16 => 0x7FC0
        | .f16 => 0x7E00
        | .f64 => 0x7FF8_0000_0000_0000
        | .int32 => 0x8000_0000)
      else match f with
        | .f32 => (roundUnits FFmt.f32 rm (hash k) false (elem k) 112).1
        | .bf16 => (roundUnits FFmt.bf16 rm (hash k) false (elem k) 112).1
        | .f16 => (roundUnits FFmt.f16 rm (hash k) false (elem k) 112).1
        | .f64 => (roundUnits FFmt.f64 rm (hash k) false (elem k) 112).1
        | .int32 => (roundInts 32 rm (hash k) (elem k) 112).1
    ∃ t ws, exec (.zrnd d f rm z pos origin seed) s = .next t ∧ t.run = s.run ∧
      (∀ n, vreg t e.b.uid e.sp.m n = (vreg s e.b.uid e.sp.m n).map (fun r =>
        if d.toNat ≤ n ∧ n < d.toNat + regs then { r with tag := .g } else r)) ∧
      (∃ o, t.ops = s.ops ++ [o] ∧ o.id = s.nextId ∧ o.blk = e.b.uid ∧ o.m = e.sp.m ∧ o.slots = e.r.exec ∧ o.token = e.r.token ∧
        o.kind = .zrnd tl z.toNat ws) ∧
      (∀ w ∈ ws, w.slot ∈ e.r.exec) ∧
      ∀ k ∈ e.r.exec, ∀ i, i < regs →
        (ws.find? (fun w => w.slot == k && w.reg == d.toNat + i)).map (·.val) = some (BitVec.ofNat 32 (value k / 2 ^ (32 * i)))

/-- R81, R84, R161, R303 to R305: a performed `zst` or plain `zdrain` writes the tile, and a performed `zld` reads back what
`zst` wrote, exactly; no other byte of memory and no other word changes.

R88, R89, R288, R306: `quant` issues; performed with a row-blocked copy alone, it gives each block of 32 columns the
exponent of its largest magnitude as its scale byte, and each element, divided by the scale, rounded; presence bits and all
other bytes stay. -/
def Obligations.TileTransfers : Prop :=
  (∀ (s : State) (o : Op) (b : Block) (tl : Tile) (z pa : Nat) (rm : RMode),
    pending s o.id = some o → s.blk o.blk = some b → b.evicted = false → Quiet s o.core →
    (∃ x ∈ b.tiles, x.map (·.uid) = some tl.uid) → b.mmaOver tl = false → o.early = false →
    s.unsent o = false → s.halting o.ctx = false →
    (∀ c, s.ctx o.ctx = some c → c.desc.alogbase = 0) →
    let n := tl.rows * tl.cols
    let acc (i : Nat) := b.accGet (tl.base + i)
    let carried : Prop := ∃ i, i < n ∧ (acc i).2 ≠ 0
    (o.kind = .zst tl z [(.mem pa, 32 * (n + 1))] → s.downIn pa (32 * (n + 1)) = none →
      ∃ t b', exec (.tokenClear o.id) s = .next t ∧ OpGone s t o.id ∧ t.blk o.blk = some b' ∧
        (∀ i, i < n → leNat (bytesAt (seen t o.core) (pa + 32 * i) 32) = (acc i).1.toNat) ∧
        (∃ ovf : Bool, (ovf = true ↔ (b.tileNow tl).ovf = true ∨ carried) ∧ (b'.tileNow tl).ovf = ovf ∧
          leNat (bytesAt (seen t o.core) (pa + 32 * n) 32) = ovf.toNat + 2 * ((b.tileNow tl).nf).toNat) ∧
        (∀ m, b'.accGet m = b.accGet m) ∧
        ∀ a, ¬(pa ≤ a ∧ a < pa + 32 * (n + 1)) → seen t o.core a = seen s o.core a) ∧
    (o.kind = .zld tl z [(.mem pa, 32 * (n + 1))] → s.badIn pa (32 * (n + 1)) = none →
      ∃ t b', exec (.tokenClear o.id) s = .next t ∧ OpGone s t o.id ∧ t.blk o.blk = some b' ∧
        (∀ i, i < n → b'.accGet (tl.base + i) = (BitVec.ofNat 256 (leNat (bytesAt (seen s o.core) (pa + 32 * i) 32)), 0)) ∧
        (∀ m, ¬(tl.base ≤ m ∧ m < tl.base + n) → b'.accGet m = b.accGet m) ∧
        (b'.tileNow tl).ovf = (seen s o.core (pa + 32 * n)).getLsbD 0 ∧
        (b'.tileNow tl).nf = (seen s o.core (pa + 32 * n)).getLsbD 1 ∧
        ∀ a, seen t o.core a = seen s o.core a) ∧
    (o.kind = .zdrain tl z { seed := 0, col0 := 0, row0 := 0, bias := [], nosat := false, dfmt := 0 } rm
        [[(.mem pa, 4 * n)], [], [], [], []] → rm ≠ .sr → s.downIn pa (4 * n) = none →
      ∃ t, exec (.tokenClear o.id) s = .next t ∧ OpGone s t o.id ∧
        (∀ i, i < n → leNat (bytesAt (seen t o.core) (pa + 4 * i) 4) =
          if (b.tileNow tl).nf = true then 0x7FC0_0000
          else (roundUnits FFmt.f32 rm 0 false ((acc i).1.toInt * 2 ^ 37) 149).1) ∧
        ∀ a, ¬(pa ≤ a ∧ a < pa + 4 * n) → seen t o.core a = seen s o.core a)) ∧
  (∀ (s : State) (e : Env) (z : Option (BitVec 4)) (desc fw : Sel) (q : QuantD) (rm : RMode) (o : Op) (b : Block),
    (s.env = some e → fwMode (e.read32 fw e.low) = some rm → (e.readU desc).toNat % 64 = 0 →
      (e.readU desc).toNat + 64 ≤ e.b.lsize →
      (∀ i, i < 64 → e.b.present (((e.readU desc).toNat + i) / 128) = true) →
      quantDesc (bytesAt (fun a => (ownByte s e.b.uid e.sp.m a).getD 0) (e.readU desc).toNat 64) (z.bind (fun z => e.b.tile z)) z.isSome = some q →
      (∀ r ∈ q.reads ++ q.writes, r.1 + r.2 ≤ e.b.lsize) →
      ∃ t, exec (.quant z desc fw) s = .next t ∧
        Queued s t e (.quant (z.bind (fun z => e.b.tile z)) ((z.map (·.toNat)).getD 0) q rm)
          (((z.bind (fun z => e.b.tile z)).map (fun t => e.b.mmaOver t)).getD false || s.opndOver e.b q.reads)) ∧
    (pending s o.id = some o → o.kind = .quant none 0 q rm → s.blk o.blk = some b → b.evicted = false →
      b.allPresent q.reads = true → q.src = true → q.sbf16 = false → q.rcopy = true → q.ccopy = false → q.rows ≠ 0 → q.cols ≠ 0 →
      3 ≤ q.dfmt → q.dfmt ≤ 5 → rm ≠ .sr → o.early = false → s.opndOver b q.reads = false → s.mmaReads o.blk q.reads = false →
      s.unsent o = false → s.halting o.ctx = false →
      (∀ c, s.ctx o.ctx = some c → c.desc.alogbase = 0) →
      let size := if q.dfmt = 5 then 2 else 1
      let pitch := (q.cols * size + 15) / 16 * 16
      let scales := (q.rows * pitch + 127) / 128 * 128
      let per := (q.cols + 31) / 32
      let bits (i j : Nat) : Nat := leNat (b.lbytes (q.srcaddr + i * q.srcpitch + j * 4) 4)
      let fin (i j : Nat) : Option Int := (FFmt.f32.decode (bits i j)).exact.map (fun x => x.units 149)
      let cols (k : Nat) : List Nat := (List.range q.cols).filter (fun j => j / 32 == k)
      let whole (i k : Nat) : Bool := (cols k).all (fun j => (fin i j).isSome)
      let top (i k : Nat) : Nat := ((cols k).map (fun j => ((fin i j).getD 0).natAbs)).foldl max 0
      let ex (i k : Nat) : Nat := blockExp (if q.dfmt = 3 then 7 else 14) (top i k) 149
      let fmt : FFmt := if q.dfmt = 3 then FFmt.e4m3f else if q.dfmt = 4 then FFmt.e5m2 else FFmt.f16
      ∃ t b', exec (.tokenClear o.id) s = .next t ∧ OpGone s t o.id ∧ t.blk o.blk = some b' ∧
        (∀ line, b'.present line = b.present line ∧ b'.fillCount line = b.fillCount line) ∧
        (∀ i k, i < q.rows → k < per → b'.lbyte (q.raddr + scales + i * per + k) =
          if whole i k then BitVec.ofNat 8 (ex i k) else 0x20) ∧
        (∀ i j, i < q.rows → j < q.cols → leNat (b'.lbytes (q.raddr + i * pitch + j * size) size) =
          if whole i (j / 32) then
            (roundUnits fmt rm 0 false ((fin i j).getD 0) (149 + (ex i (j / 32) : Int) - 32)).1
          else fmt.canon) ∧
        ∀ a, ¬(q.raddr ≤ a ∧ a < q.raddr + scales + q.rows * per) → b'.lbyte a = b.lbyte a))

/-! Operators and their windows. -/

/-- R78, R128 to R131, R133, R138 to R144, R307, R308: the operator instructions complete with the statuses the tables give, and
an instruction without its right stops the context with WINDOW. `u` is the state in which the operator unit serves the
context, its load made within the same step (DESIGN CHOICE, log entry 44); where it cannot serve it yet, the batch is held
(R380). That an operator bound again or unbound has no slot state is the model's choice (DESIGN CHOICE, log entry 65). -/
def Obligations.OperatorInstructions : Prop :=
  ∀ (s : State) (e : Env) (d : BitVec 6) (desc op ib rb k dst : Sel) (free : Bool) (o new : Operator) (n : Nat)
    (la lb lc : List (Loc × Nat)),
    s.env = some e →
    let unit := 2 + 2 * gangOf e.b.core
    (¬Serves s unit e.b.ctx → ∀ i ∈ ([.opinst d free desc op, .opbind d op ib rb, .opunbind d free op, .opstat d op k, .opread d op dst]
      : List Instr), ∃ t, exec i s = .next t ∧ HeldAt s t e) ∧
    (Serves s unit e.b.ctx →
    let u := serving s unit e.b.ctx
    let me : Agent := .ctx e.b.ctx
    let id := (e.read true op e.low).toNat
    let done (t0 t : State) (v : Nat) : Prop := Queued t0 t e (.sreg d.toNat (BitVec.ofNat 64 v))
    let window : Out := .next (u.trapWin e)
    let rights (f : Grant → Bool) : Bool := me == .ctx o.owner || o.grants.any (fun g => g.names me && f g)
    ((u.install e (e.readU desc) none).1 = .status n →
      ∃ t0 t, exec (.opinst d false desc op) s = .next t ∧ done t0 t n ∧ t0 = (u.install e (e.readU desc) none).2) ∧
    ((u.install e (e.readU desc) none).1 = .put new →
      ∃ t0 t, exec (.opinst d false desc op) s = .next t ∧ done t0 t (new.num * 256) ∧
        t0.operators = (u.install e (e.readU desc) none).2.operators ++ [new] ∧ new.bound = false ∧ new.resident = true ∧
        new.owner = e.b.ctx ∧ new.num / 64 = gangOf e.b.core ∧ (∀ x ∈ u.operators, x.num / 64 = gangOf e.b.core → x.num ≠ new.num)) ∧
    (1024 ≤ id ∨ u.operator id = none →
      exec (.opinst d true desc op) s = window ∧ exec (.opbind d op ib rb) s = window ∧
      exec (.opunbind d free op) s = window ∧ exec (.opstat d op k) s = window ∧ exec (.opread d op dst) s = window) ∧
    (id < 1024 → u.operator id = some o →
      (rights (·.reinstall) = false → exec (.opinst d true desc op) s = window) ∧
      (rights (·.reinstall) = true → o.resident = true → (u.install e (e.readU desc) (some o)).1 = .put new →
        ∃ t0 t, exec (.opinst d true desc op) s = .next t ∧ done t0 t (o.num * 256) ∧
          t0 = (u.install e (e.readU desc) (some o)).2.reinstall o new) ∧
      (e.b.ctx ≠ o.owner → exec (.opbind d op ib rb) s = window ∧ exec (.opunbind d free op) s = window) ∧
      (e.b.ctx = o.owner → o.resident = true →
        (∃ t0 t, exec (.opbind d op ib rb) s = .next t ∧
          if o.bound then done t0 t 8 ∧ t0 = u
          else if u.bindOk e o false (e.readU ib) (o.slots * o.istride) && u.bindOk e o true (e.readU rb) (o.slots * o.rstride) then
            done t0 t 0 ∧ t0 = { u with operators := t0.operators } ∧
            (∀ x ∈ t0.operators, x.num = o.num → x.bound = true ∧ x.slotst = []) ∧
            ∀ m, m ≠ o.num → t0.operator m = u.operator m
          else done t0 t 9 ∧ t0 = u) ∧
        (o.bound = true ∨ free = true → ∃ t0 t, exec (.opunbind d free op) s = .next t ∧
          done t0 t (if o.bound then 0 else 10) ∧
          (∀ p ∈ t0.posted, p.op ≠ o.num) ∧
          (free = true → t0.operator o.num = none) ∧ (free = false → ∀ x, t0.operator o.num = some x → x.bound = false ∧ x.slotst = [])) ∧
        (o.bound = false → ∃ t, exec (.opunbind d false op) s = .next t ∧ done u t 10)) ∧
      (rights (fun g => g.reinstall || g.readW || g.readOut || g.writeIn) = true → (e.readU k).toNat < o.slots →
        ∃ t, exec (.opstat d op k) s = .next t ∧
          let x := o.slot (e.readU k).toNat
          done u t (x.gen.toNat + 2 ^ 32 * min x.elems.length 4095 + 2 ^ 44 * o.resident.toNat + 2 ^ 45 * o.bound.toNat +
            2 ^ 46 * (match x.st with | .idle => 0 | .filling => 1 | .fired => 2 | .ready => 3))) ∧
      (o.slots ≤ (e.readU k).toNat → exec (.opstat d op k) s = window) ∧
      (o.isOpaque = true → ∃ t, exec (.opread d op dst) s = .next t ∧ done u t 6) ∧
      (o.isOpaque = false → rights (·.readW) = false → exec (.opread d op dst) s = window) ∧
      (o.isOpaque = false → rights (·.readW) = true → o.resident = true →
        let sc := (o.weights.length + 63) / 64 * 64
        let bi := (sc + o.scales.length + 63) / 64 * 64
        let scales := if o.wfmt = 6 then o.scales else o.scales.map (fun x => x &&& 0x3F)
        let w := u.walkedAll (e.walker u) [(e.readU dst, o.weights.length), (e.readU dst + BitVec.ofNat 64 sc, o.scales.length),
          (e.readU dst + BitVec.ofNat 64 bi, o.biases.length)]
        w.opreadLocs e (e.readU dst) o.weights.length = some la →
        w.opreadLocs e (e.readU dst + BitVec.ofNat 64 sc) o.scales.length = some lb →
        w.opreadLocs e (e.readU dst + BitVec.ofNat 64 bi) o.biases.length = some lc →
        (∀ x ∈ la ++ lb ++ lc, isMem x.1) → u.downLocs (la ++ lb ++ lc) = none → Quiet u e.b.core →
        ∃ t0 t, exec (.opread d op dst) s = .next t ∧ done t0 t 0 ∧ Traffic u t0 ∧
          ∀ a, seen t e.b.core a = (stored lc o.biases a).getD ((stored lb scales a).getD ((stored la o.weights a).getD
            (seen s e.b.core a))))))

/-- R134, R140, R255: window requests are posted and join slot order later: `wfire`, `wrel` and stores to an input window
post one request for each slot of the operator they touch, in slot order of the batch, and change nothing else. -/
def Obligations.WindowRequestsPost : Prop :=
  ∀ (s : State) (e : Env) (m : MemOp) (k : AMod) (sz : Size) (data : Sel) (l : List (Nat × List (Loc × Nat))),
    s.env = some e →
    let one (x : Nat × List (Loc × Nat)) (w : Nat → WinKind) : List Posted := match x.2 with
      | (.win _ op off, _) :: _ => [{ id := 0, op := op, agent := .ctx e.b.ctx, thr := some (e.name x.1), kind := w off }]
      | _ => []
    let posts (ps : List Posted) : State :=
      { s with nextId := s.nextId + ps.length, posted := s.posted ++ ps.zipIdx.map (fun x => { x.1 with id := s.nextId + x.2 }) }
    (checkSlots (fun j => s.access e (e.gaddr m 1 j) 1 askWin mkFire) e.r.exec = .ok l →
      exec (.wfire m) s = .next (posts (l.flatMap (fun x => one x .fire)))) ∧
    (checkSlots (fun j => s.access e (e.gaddr m 1 j) 1 askWin mkRelease) e.r.exec = .ok l →
      exec (.wrel m) s = .next (posts (l.flatMap (fun x => one x .release)))) ∧
    ∀ (op : Nat) (off : Nat → Nat) (o : Operator),
      checkSlots (fun j => s.access e (e.gaddr m sz.bytes j) sz.bytes (askSt k sz.bytes) mkStore) e.r.exec = .ok l →
      (∀ x ∈ l, x.2 = [(.win false op (off x.1), sz.bytes)]) → s.operator op = some o → k.ord ≠ .rel →
      (∀ x ∈ l, off x.1 % o.istride + sz.bytes ≤ o.istride) →
      exec (.st k sz m data) s = .next (posts (l.map (fun x =>
        { id := 0, op := op, agent := .ctx e.b.ctx, thr := some (e.name x.1), kind := .store (off x.1) (e.data sz data x.1) })))

/-- R134, R136, R137: a request joins slot order, once the unit serves the operator's owner: the slot's state changes as the
table says, for a store, a fire, a release and a result load, which takes each slot's bytes at one point, the lower slot
first, and for the completion of a fire, which leaves the result the operator computes. That a `wrel` of a READY slot clears
its element mask is the model's choice (DESIGN CHOICE, log entry 66). -/
def Obligations.SlotOrder : Prop :=
  ∀ (s : State) (i : Nat) (p : Posted) (o : Operator) (x : OSlot) (id : Nat) (q : Op) (n k : Nat) (dst : Option Nat) (sz : Size)
    (pieces : List (Nat × Nat × Nat)) (more : List (Nat × List (Nat × Nat × Nat))) (got : List Byte) (va : Dword) (sc : Scope),
    (s.posted[i]? = some p → s.operator p.op = some o → o.bound = true → o.resident = true → Serves s o.unit o.owner →
      (∀ y ∈ s.posted.take i, y.op ≠ p.op ∨ y.thr.map (fun t => (t.1, t.2.1)) ≠ p.thr.map (fun t => (t.1, t.2.1))) →
      let rest := s.posted.take i ++ s.posted.drop (i + 1)
      let after (t : State) (k : Nat) : Option OSlot := (t.operator p.op).map (fun o => o.slot k)
      (∀ a d, p.kind = .store a d → d ≠ [] → a % o.istride + d.length ≤ o.istride → x = o.slot (a / o.istride) →
        let new := o.elemsOf (a % o.istride) d
        let old := if x.st = .filling then x.elems else []
        let merged := mergeElems old new
        ∃ t, exec (.inputStoreJoin i) s = .next t ∧ t.posted = rest ∧
          after t (a / o.istride) = some (
            if x.st = .fired then { x with held := x.held ++ [.store [(a % o.istride, d)]] }
            else if merged.length = o.cols then
              { x with st := .fired, gen := x.gen + 1, elems := merged, result := if x.st = .filling then x.result else [] }
            else { x with st := .filling, elems := merged, result := if x.st = .filling then x.result else [] })) ∧
      (∀ a, p.kind = .fire a → x = o.slot (a / o.istride) →
        ∃ t, exec (.wfireJoin i) s = .next t ∧ t.posted = rest ∧ after t (a / o.istride) = some (match x.st with
          | .filling => { x with st := .fired, gen := x.gen + 1 }
          | .fired => { x with held := x.held ++ [.fire] }
          | _ => x)) ∧
      (∀ a, p.kind = .release a → x = o.slot (a / o.istride) → (∀ h ∈ x.held, h.isLoad = false) →
        ∃ t, exec (.wrelJoin i) s = .next t ∧ t.posted = rest ∧ after t (a / o.istride) = some (match x.st with
          | .filling => { x with st := .idle, elems := [], held := [] }
          | .ready => { x with st := .idle, elems := [], result := [] }
          | .fired => { x with held := x.held ++ [.release] }
          | .idle => x))) ∧
    (pending s id = some q → q.kind = .resultLoad n ((k, pieces) :: more) dst sz got va sc → s.operator n = some o →
      x = o.slot k →
      (s.saved q.blk = true → exec (.resultLoadJoin id) s = .next (if x.st = .ready then s.wakeSaved q else s)) ∧
      (s.saved q.blk = false → o.bound = false → exec (.resultLoadJoin id) s = .next (s.trapParked q .window va)) ∧
      (s.saved q.blk = false → o.bound = true → o.resident = true → (∀ y ∈ o.slotst, Held.load id ∉ y.held) →
        Serves s o.unit o.owner →
        (x.st = .filling ∨ x.st = .fired → ∃ t, exec (.resultLoadJoin id) s = .next t ∧
          (t.operator n).map (fun o => o.slot k) = some { x with held := x.held ++ [.load id] }) ∧
        (x.st = .ready → got.length = sz.bytes →
          let all := layPieces got x.result pieces
          ∃ t, exec (.resultLoadJoin id) s = .next t ∧ t.operators = s.operators ∧
            (more ≠ [] → (pending t id).map (·.kind) = some (.resultLoad n more dst sz all va sc)) ∧
            (∀ r, more = [] → dst = some r → (pending t id).map (·.kind) = some (.regs ((loaded sz all).zipIdx.map (fun w =>
              { slot := q.slots.headD 0, reg := r + w.2, val := w.1 })))) ∧
            (more = [] → dst = none → (∀ y ∈ t.ops, y.id ≠ id) ∧ ∀ z j, thr s q.blk q.m (q.slots.headD 0) = some z →
              z.st = .parked (.result j) → (thr t q.blk q.m (q.slots.headD 0)).map (fun z => (z.st, z.pc, z.rs, z.rsd)) =
                some (.ready, z.rs.headD 0, z.rs.drop 1 ++ [BitVec.ofNat 64 (leNat all)], z.rsd - 1))) ∧
        (x.st = .idle → exec (.resultLoadJoin id) s = .next ((serving s o.unit o.owner).trapParked q .window va)))) ∧
    ∀ op k, s.operator op = some o → o.resident = true → x = o.slot k → x.st = .fired → x.held = [] →
      ∃ t, exec (.fireComplete op k) s = .next t ∧
        (t.operator op).map (fun o => o.slot k) = some { x with st := .ready, result := (o.fire x.elems).1, held := [] }

/-- R137: a fire's result: each row is the exact sum of products of its weights and the slot's elements and its bias, rounded;
where an element is not finite every result is the format's NaN; padding reads zero.

R139, R143, R414: the firmware of its die moves an operator out, only when no slot is FIRED, and back when its chuck bytes fit; the
requests held for it come again. Where it is meanwhile, in its owner's save area or, opaque, in the firmware's region of bed
memory, is a mark of its entry, whose bytes stay in the state (DESIGN CHOICE, log entry 74); without firmware neither is done
(DEDUCED, log entry 49). -/
def Obligations.OperatorsFireAndMove : Prop :=
  (∀ (o : Operator) (xs : List (Nat × BitVec 16)),
    o.ofmt < 3 → o.rows ≠ 0 →
    let size := if o.ofmt = 0 then 4 else 2
    let fmt : FFmt := if o.ofmt = 0 then FFmt.f32 else if o.ofmt = 1 then FFmt.bf16 else FFmt.f16
    let nan : Nat := if o.ofmt = 0 then 0x7FC0_0000 else if o.ofmt = 1 then 0x7FC0 else 0x7E00
    let units (v : Option Ex) : Int := (v.map (fun v => v.units 149)).getD 0
    let bias (i : Nat) : Int := if o.bias then
      units ((FFmt.f32.decode (leNat ((o.biases.drop (4 * i)).take 4))).exact) else 0
    let sum (i : Nat) : Int := (xs.map (fun x => match o.weight i x.1, o.input x.2 with
      | some w, some v => (w.mul v).units 149
      | _, _ => 0)).sum + bias i
    let res := (o.fire xs).1
    (∀ i, i < o.rows → leNat ((res.drop (i * size)).take size) =
      if ∃ x ∈ xs, o.input x.2 = none then nan else (roundUnits fmt .rne 0 false (sum i) 149).1) ∧
    (∀ j, o.rows * size ≤ j → j < o.rstride → res[j]? = some 0) ∧ res.length = o.rstride) ∧
  (∀ (s : State) (op : Nat) (o : Operator), s.operator op = some o →
    let on := s.firmwareOn (o.num / 64 / 4)
    (on = false → exec (.operatorMoveOut op) s = .next s ∧ exec (.operatorRestore op) s = .next s) ∧
    ((∃ x ∈ o.slotst, x.st = .fired) → exec (.operatorMoveOut op) s = .next s) ∧
    (on = true → (∀ x ∈ o.slotst, x.st ≠ .fired) → ∃ t, exec (.operatorMoveOut op) s = .next t ∧ t = { s with operators := t.operators } ∧
      t.operator op = some { o with
        resident := false, store := some (if o.isOpaque then .firmwareRegion else .ownerSaveArea) } ∧ ∀ n, n ≠ op → t.operator n = s.operator n) ∧
    (o.resident = true → exec (.operatorRestore op) s = .next s) ∧
    (on = true → o.resident = false →
      (∀ c, c < 16 → s.chuckUsed (o.num / 64) c (some o.num) + shareRows o.rows c * opRowBytes o.wfmt o.cols o.bias ≤
        Config.chuckBytes) →
      ∃ t, exec (.operatorRestore op) s = .next t ∧
        t = { s with operators := t.operators, agenda := s.agenda ++ o.waiting } ∧
        t.operator op = some { o with resident := true, store := none, waiting := [] } ∧ ∀ n, n ≠ op → t.operator n = s.operator n))

/-! The merge units. -/

/-- R90 to R93, R309 to R313: the merge instructions give the statuses of the table: a header is read and checked, a slot
opens, stages, closes, commits or aborts as the state table says; a commit adds each staged element's units to its merge
word and counts itself; `mgread` returns a word's value and the count; an open slot times out. `mgclose`, `mgcommit` and a
plain `mgread` issue operations that are performed when they complete (R164), and so does an `mgread.stable` while a target's
STATE reads 0b01. `u` is the state in which the merge unit serves the context, its load made within the same step (DESIGN
CHOICE, log entry 44); where it cannot serve it yet the batch is held, and an `mgstage` too while the firmware of the die does
not run (DEDUCED, log entry 49). -/
def Obligations.MergeInstructions : Prop :=
  ∀ (s : State) (e : Env) (d : BitVec 6) (v : BitVec 7) (target contrib hs src off cnt : Sel) (f : MgFmt) (stable : Bool)
    (hd : MHdr) (m : MSlot) (s1 : State) (st i pa : Nat) (l : List (Loc × Nat)),
    s.env = some e →
    let gang := gangOf e.b.core
    let unit := 1 + 2 * gang
    (¬Serves s unit e.b.ctx →
      (∀ j ∈ ([.mgopen d target contrib, .mgclose d hs, .mgcommit d hs, .mgabort d hs, .mgread v stable target cnt] : List Instr),
        ∃ t, exec j s = .next t ∧ HeldAt s t e) ∧
      ∃ t, exec (.mgstage d f hs src off cnt) s = .next t ∧ HeldAt s t e) ∧
    (s.firmwareOn (dieOf e.b.core) = false → ∃ t, exec (.mgstage d f hs src off cnt) s = .next t ∧ HeldAt s t e) ∧
    (Serves s unit e.b.ctx →
    let u := serving s unit e.b.ctx
    let ends (o : Instr) (slots : List MSlot) (n : Nat) : Prop := ∃ T t, exec o s = .next t ∧
      Traffic { u with mslots := slots } T ∧ Queued T t e (.sreg d.toNat (BitVec.ofNat 64 n))
    let mine := u.mslots.filter (fun m => m.gang == gang)
    let others (x : State) := x.mslots.filter (fun x => !(x.gang == m.gang && x.idx == m.idx))
    let va := e.readU target
    let bytes (a n : Nat) : Nat := leNat (bytesAt (seen u e.b.core) a n)
    let good (L : Dword) (count : Nat) : Prop :=
      bytes (pa + 32) 32 / 2 ^ 6 = 0 ∧ bytes (pa + 32) 32 / 2 ^ 4 % 4 < 2 ∧ bytes (pa + 32) 32 % 2 ^ 4 = gang ∧
      0 < L.toNat / 2 ^ 52 ∧ L.toNat / 2 ^ 52 < 2047 ∧ 0 < count ∧ count ≤ 4194304
    -- the header
    let w0 := u.walked (e.walker u) va 64
    (w0.checkAccess (e.walker w0) va 64 (askTarget false) (fun _ => none) = .ok [(.mem pa, 64)] → pa % 64 = 0 →
      (∃ n, pclass pa = .bed n) → u.badIn pa 64 = none → Quiet u e.b.core → va.toNat % 64 = 0 →
      let L := BitVec.ofNat 64 (bytes pa 8)
      (good L (bytes (pa + 8) 8) ↔ ∃ h, (u.mergeHdr e va).1 = .ok h) ∧
      (∀ h, (u.mergeHdr e va).1 = .ok h → h.pa = pa ∧ h.limit = L ∧ h.count = bytes (pa + 8) 8) ∧
      (¬good L (bytes (pa + 8) 8) → (u.mergeHdr e va).1 = .status 1)) ∧
    -- opening
    ((u.mergeHdr e va).1 = .status st → ends (.mgopen d target contrib) u.mslots st) ∧
    ((u.mergeHdr e va).1 = .ok hd →
      ((∀ j, j < 8 → ∃ x ∈ mine, x.idx = j) → ends (.mgopen d target contrib) u.mslots 2) ∧
      (i < 8 → (∀ x ∈ mine, x.idx ≠ i) → (∀ j, j < i → ∃ x ∈ mine, x.idx = j) →
        if ∃ x ∈ mine, x.pa = hd.pa ∧ x.contrib = e.readU contrib ∧ x.st ≠ .nonfinite then
          ends (.mgopen d target contrib) u.mslots 3
        else ends (.mgopen d target contrib)
          ({ gang := gang, idx := i, ctx := e.b.ctx, target := va, pa := hd.pa, contrib := e.readU contrib, count := hd.count
             limit := hd.limit, st := .opened, elems := [], scale := 0, last := u.devtime } :: u.mslots) (i * 256))) ∧
    -- closing and committing are performed later
    (∃ t, exec (.mgclose d hs) s = .next t ∧ Queued u t e (.mgclose d.toNat (e.readU hs))) ∧
    (∃ t, exec (.mgcommit d hs) s = .next t ∧ Queued u t e (.mgcommit d.toNat (e.readU hs))) ∧
    -- aborting
    (u.mslot e (e.readU hs) = none → ends (.mgabort d hs) u.mslots 4) ∧
    (u.mslot e (e.readU hs) = some m → ends (.mgabort d hs) (others u) 0 ∧
      -- staging
      (let n := (e.readU cnt).toNat
       let o := (e.readU off).toNat
       let w1 := u.walked (e.walker u) (e.readU src) (n * mgSize f)
       s.firmwareOn (dieOf e.b.core) = true → 1 ≤ n → n ≤ 65536 →
       w1.checkAccess (e.walker w1) (e.readU src) (n * mgSize f) askRead (fun _ => none) = .ok l →
       (∀ x ∈ l, isMem x.1) → u.badLocs l = none →
        if m.st ≠ .opened then ends (.mgstage d f hs src off cnt) u.mslots 4
        else if m.count < o + n ∨ ∃ x ∈ m.elems, o ≤ x.1 ∧ x.1 < o + n then ends (.mgstage d f hs src off cnt) u.mslots 5
        else ∃ xs : List (Nat × MgFmt × Word),
          ends (.mgstage d f hs src off cnt) ({ m with elems := m.elems ++ xs, last := u.devtime } :: others u) 0 ∧
          xs.length = n ∧ ∀ j, j < n → ∃ w, xs[j]? = some (o + j, f, w) ∧
            (Quiet u e.b.core → l = [(.mem pa, n * mgSize f)] → w.toNat = bytes (pa + j * mgSize f) (mgSize f)))) ∧
    (let n := (e.readU cnt).toNat
     let w1 := u.walked (e.walker u) (e.readU src) (n * mgSize f)
     s.firmwareOn (dieOf e.b.core) = true → 1 ≤ n → n ≤ 65536 →
     (∃ x, w1.checkAccess (e.walker w1) (e.readU src) (n * mgSize f) askRead (fun _ => none) = .error x) →
      ends (.mgstage d f hs src off cnt) u.mslots 7) ∧
    -- reading
    ((∃ k ∈ e.r.exec, u.committing e (e.read true target k) = true) → ∃ t, exec (.mgread v true target cnt) s = .next t ∧
      t = { u with blocks := t.blocks, ops := t.ops, nextId := u.nextId + 1 } ∧
      (∀ n, vreg t e.b.uid e.sp.m n = (vreg s e.b.uid e.sp.m n).map (fun r =>
        if v.toNat ≤ n ∧ n < v.toNat + 2 then { r with tag := .g } else r)) ∧
      ∃ o live, t.ops = u.ops ++ [o] ∧ o.id = u.nextId ∧ o.slots = e.r.exec ∧ o.token = e.r.token ∧
        o.kind = .mgstable v.toNat live (e.r.exec.map (fun k => (k, e.read true target k, (e.read32 cnt k).toNat)))) ∧
    (∀ xs s2, (∀ k ∈ e.r.exec, u.committing e (e.read true target k) = false) → (u.acq e .dev).mergeReads e (fun k => (e.read true target k, (e.read32 cnt k).toNat)) e.r.exec = (.ok xs, s2) →
      ∃ t, exec (.mgread v true target cnt) s = .next t ∧ Traffic u s2 ∧
        Issued s2 t e v.toNat 2 (fun k => match xs.find? (fun x => x.1 == k) with
          | some x => [x.2.1, x.2.2]
          | none => [0, 0])) ∧
    (∃ t, exec (.mgread v false target cnt) s = .next t ∧
      t = { u with blocks := t.blocks, ops := t.ops, nextId := u.nextId + e.r.exec.length } ∧
      (∀ n, vreg t e.b.uid e.sp.m n = (vreg s e.b.uid e.sp.m n).map (fun r =>
        if v.toNat ≤ n ∧ n < v.toNat + 2 then { r with tag := .g } else r)) ∧
      t.ops = u.ops ++ e.r.exec.zipIdx.map (fun x =>
        { id := u.nextId + x.2, blk := e.b.uid, m := e.sp.m, ctx := e.b.ctx, core := e.b.core, spid := e.sp.spid, slots := [x.1]
          token := e.r.token, hdr := e.r.hdr, start := u.devtime
          kind := .mgread x.1 v.toNat [v.toNat, v.toNat + 1] (e.read true target x.1) (e.read32 cnt x.1).toNat })) ∧
    (u.mergeHdr e va = (.ok hd, s1) → i < hd.count → (∃ n, pclass pa = .bed n) → s1.badIn pa 16 = none → Quiet u e.b.core →
      let w1 := s1.walked (e.walker s1) (va + 64 + BitVec.ofNat 64 (16 * i)) 16
      w1.checkAccess (e.walker w1) (va + 64 + BitVec.ofNat 64 (16 * i)) 16 (askTarget false) (fun _ => none) =
        .ok [(.mem pa, 16)] →
      ∃ w c, (u.mergeRead e va i).1 = .ok (w, c) ∧ c.toNat = bytes (hd.pa + 16) 4 ∧
        w.toNat = mergeValue (BitVec.ofNat 128 (bytes pa 16)) hd.limit) ∧
    (u.mergeHdr e va = (.ok hd, s1) → hd.count ≤ i → Quiet u e.b.core →
      ∃ c, (u.mergeRead e va i).1 = .ok (0x7FC00000, c) ∧ c.toNat = bytes (hd.pa + 16) 4) ∧
    ((u.mergeHdr e va).1 = .status st → (u.mergeRead e va i).1 = .ok (0x7FC00000, 0)) ∧
    -- timing out
    ∀ g k, s.mslots.find? (fun m => m.gang == g && m.idx == k) = some m →
      let due := m.last + 1000 * ((s.ctx m.ctx).map (fun c => c.desc.mgto)).getD 0 ≤ s.devtime
      exec (.mergeTimeout g k) s = .next (if m.st = .opened ∧ due then { s with mslots := others s } else s))

/-- R90 to R93, R164, R311 to R313: the merge operations performed: an `mgclose` measures what is staged, an `mgcommit` adds
each staged element's units to its merge word and counts itself, with the statuses of the table, and a plain `mgread`
brings its slot the value and the count. The LIMIT of a commit's scale and units is the one that the slot's `mgopen` read
(DESIGN CHOICE, log entry 64). `eo` is the clause that issued the operation, as the merge unit knows it. -/
def Obligations.MergeOperations : Prop :=
  ∀ (s : State) (o : Op) (eo : Env) (r k dst idx pa : Nat) (h tgt : Dword) (kept : List Nat) (hd : MHdr) (m : MSlot) (s1 : State)
    (v n : Word),
    pending s o.id = some o → s.unsent o = false → s.opEnv o = some eo →
    let gang := gangOf eo.b.core
    let core := eo.b.core
    let ends (slots : List MSlot) (st : Nat) (t : State) : Prop := exec (.tokenClear o.id) s = .next t ∧ OpGone s t o.id ∧
      t.mslots = slots ∧ (live s o → sreg t o.blk o.m r = (sreg s o.blk o.m r).map (fun _ => BitVec.ofNat 64 st)) ∧
      ∀ i, i ≠ r → sreg t o.blk o.m i = sreg s o.blk o.m i
    let same (t : State) : Prop := Quiet s core → ∀ a, seen t core a = seen s core a
    let others := s.mslots.filter (fun x => !(x.gang == m.gang && x.idx == m.idx))
    let bytes (a n : Nat) : Nat := leNat (bytesAt (seen s core) a n)
    -- no such slot, or one not as the operation needs it
    (o.kind = .mgclose r h ∨ o.kind = .mgcommit r h → s.mslot eo h = none → ∃ t, ends s.mslots 4 t ∧ same t) ∧
    (o.kind = .mgclose r h → s.mslot eo h = some m → m.st ≠ .opened → ∃ t, ends s.mslots 4 t ∧ same t) ∧
    (o.kind = .mgcommit r h → s.mslot eo h = some m → ∀ st, (s.mergeHdr eo m.target).1 = .status st →
      ∃ t, ends s.mslots st t ∧ same t) ∧
    -- closing
    (o.kind = .mgclose r h → s.mslot eo h = some m → m.st = .opened →
      ((∃ x ∈ m.elems, stagedUnits x.2.1 x.2.2 = none) → ∃ t, ends ({ m with st := .nonfinite } :: others) 0 t ∧ same t) ∧
      ((∀ x ∈ m.elems, ∃ g, stagedUnits x.2.1 x.2.2 = some g) →
        let sq := (m.elems.map (fun x => ((stagedUnits x.2.1 x.2.2).getD 0).natAbs ^ 2)).sum
        ∃ t, ends ({ m with st := .measured, scale := clipScale sq m.limit } :: others) 0 t ∧ same t)) ∧
    -- committing
    (o.kind = .mgcommit r h → s.mslot eo h = some m → s.mergeHdr eo m.target = (.ok hd, s1) →
      let w1 := s1.walked (eo.walker s1) m.target (64 + 16 * m.count)
      let acc := w1.checkAccess (eo.walker w1) m.target (64 + 16 * m.count) (askTarget true) (fun _ => none)
      (∀ l, acc = .ok l → bedPa l = none → ∃ t, ends s.mslots 1 t ∧ same t) ∧
      ((∀ l, acc = .ok l → bedPa l ≠ none) →
        (m.st = .opened → ∃ t, ends s.mslots 4 t ∧ same t) ∧
        (m.st = .nonfinite → ∃ t, ends s.mslots 6 t ∧ same t) ∧
        (m.st = .measured → (∃ x, acc = .error x) → ∃ t, ends s.mslots 7 t ∧ same t)) ∧
      (m.st = .measured → pa = hd.pa → (∃ n, pclass pa = .bed n) → s1.badIn pa (64 + 16 * m.count) = none →
        acc = .ok [(.mem pa, 64 + 16 * m.count)] →
        ∃ t, ends others 0 t ∧
          (Quiet s core → pa % 64 = 0 → (m.elems.map (·.1)).Nodup → (∀ x ∈ m.elems, x.1 < m.count) →
            let units (j : Nat) : Int := ((m.elems.find? (fun x => x.1 == j)).map (fun x =>
              ((stagedUnits x.2.1 x.2.2).map (fun g => mergeUnits m.scale m.limit g)).getD 0)).getD 0
            let old (j : Nat) : BitVec 128 := BitVec.ofNat 128 (bytes (pa + 64 + 16 * j) 16)
            (∀ j, -(2 ^ 127) ≤ (old j).toInt + units j ∧ (old j).toInt + units j < 2 ^ 127) →
            (∀ j, j < m.count → (BitVec.ofNat 128 (leNat (bytesAt (seen t core) (pa + 64 + 16 * j) 16))).toInt =
              (old j).toInt + units j) ∧
            leNat (bytesAt (seen t core) (pa + 16) 8) = (bytes (pa + 16) 8 + 1) % 2 ^ 64 ∧
            leNat (bytesAt (seen t core) (pa + 24) 8) = (bytes (pa + 24) 8 + 1) % 2 ^ 64 ∧
            leNat (bytesAt (seen t core) (pa + 32) 8) = gang ∧
            ∀ a, ¬(pa + 16 ≤ a ∧ a < pa + 40) → ¬(pa + 64 ≤ a ∧ a < pa + 64 + 16 * m.count) → seen t core a = seen s core a))) ∧
    -- reading
    (o.kind = .mgread k dst kept tgt idx → (s.mergeRead eo tgt idx).1 = .ok (v, n) →
      ∃ t, exec (.tokenClear o.id) s = .next t ∧ OpGone s t o.id ∧ same t ∧
        ∀ i j, word t o.blk o.m i j = (word s o.blk o.m i j).map (fun old =>
          if j ≠ k ∨ eo.sp.gone k = true then old
          else if i = dst ∧ dst ∈ kept then v
          else if i = dst + 1 ∧ dst + 1 ∈ kept then n
          else old))

/-! The bounded-error pack. -/

/-- R102 to R105, R322, R323: `bepack` writes the stream of an array and returns its length; `beunpack` of a stream of one
block rebuilds it: an escaped element bit for bit, another from its quotient, which is the nearest integer, ties to even.
A count of 2^40 or more has no result in the manual: the model's is a free value (log entry 33). -/
def Obligations.PackedArrays : Prop :=
  ∀ (s : State) (e : Env) (d : BitVec 6) (f64 : Bool) (dst src cnt eb : Sel) (ls ld : List (Loc × Nat)) (pa pd : Nat)
    (bound : Dword) (xs : List Nat),
    s.env = some e →
    let sz := if f64 then 8 else 4
    let n := (e.readU cnt).toNat
    let ok (b : Dword) : Prop := 2 ^ 51 ≤ b.toNat ∧ b.toNat < 0x7FE0000000000000
    let worst := 16 + (n + 63) / 64 * (16 + 256 + 64 * sz)
    let read (s : State) (v : Sel) (pos len : Nat) :=
      s.checkAccess (e.walker s) (e.readU v + BitVec.ofNat 64 pos) len askRead (fun _ => none)
    let write (s : State) (len : Nat) := s.checkAccess (e.walker s) (e.readU dst) len askWrite (fun _ => none)
    let w := s.walkedAll (e.walker s) [(e.readU src, n * sz), (e.readU dst, worst)]
    let put (t : State) (out : List Byte) : Prop := ∀ a, seen t e.b.core a =
      if pd ≤ a ∧ a < pd + out.length then (out[a - pd]?).getD 0 else seen s e.b.core a
    (n = 0 ∨ ¬ok (e.readU eb) → ∃ t, exec (.bepack d f64 dst src cnt eb) s = .next t ∧ Queued s t e (.sreg d.toNat 0)) ∧
    (2 ^ 40 ≤ n → ok (e.readU eb) → ∃ t v, exec (.bepack d f64 dst src cnt eb) s = .next t ∧
      Queued { s with freeCtr := s.freeCtr + 1 } t e (.sreg d.toNat v)) ∧
    (n ≠ 0 → n < 2 ^ 40 → ok (e.readU eb) → read w src 0 (n * sz) = .ok ls → write w worst = .ok ld →
      (∀ x ∈ ls ++ ld, isMem x.1) → w.badLocs ls = none → w.downLocs ld = none →
      ∃ T t out, exec (.bepack d f64 dst src cnt eb) s = .next t ∧ Traffic s T ∧
        Queued T t e (.sreg d.toNat (BitVec.ofNat 64 out.length)) ∧ out.length ≤ worst ∧
        (Quiet s e.b.core → ls = [(.mem pa, n * sz)] → ld = [(.mem pd, worst)] →
          out = packStream f64 (e.readU eb) ((List.range n).map (fun i => leNat (bytesAt (seen s e.b.core) (pa + i * sz) sz))) ∧
          put t out)) ∧
    (let str := packStream f64 bound xs
     let cap := (e.readU cnt).toNat
     xs.length ≠ 0 → xs.length ≤ 64 → (∀ x ∈ xs, x < 2 ^ (8 * sz)) → ok bound → Quiet s e.b.core →
      (∀ pos len, 0 < len → pos + len ≤ str.length → read s src pos len = .ok [(.mem (pa + pos), len)]) →
      s.badIn pa str.length = none → bytesAt (seen s e.b.core) pa str.length = str →
      (if cap = 0 then True else write s (cap * sz) = .ok [(.mem pd, cap * sz)] ∧ s.downIn pd (cap * sz) = none) →
      ∃ T t, exec (.beunpack d f64 dst src cnt) s = .next t ∧ Traffic s T ∧
        (xs.length ≤ cap → Queued T t e (.sreg d.toNat (BitVec.ofNat 64 (xs.length * 256))) ∧
          put t (xs.flatMap (fun x => leBytes sz (match packQuot f64 bound x with
            | some q => packDecode f64 bound q
            | none => x)))) ∧
        (cap < xs.length → Queued T t e (.sreg d.toNat 2) ∧ ∀ a, seen t e.b.core a = seen s e.b.core a)) ∧
    ∀ (x : Int) (k : Nat), 0 < k → 2 * (x - rneDiv x k * k).natAbs ≤ k ∧
      (2 * (x - rneDiv x k * k).natAbs = k → rneDiv x k % 2 = 0)

/-! Collectives. -/

/-- R314 to R317: a collective whose descriptor, table and ranges are good issues one operation that takes part; for any other
nothing is sent, and the operation it issues carries the status of the first failing check, which its end brings to sD and to
the counter (CollectiveEnds; that a refusal counts too is a choice: DESIGN CHOICE, log entry 60). A counter word that breaks
R124 or R290 stops the context; where the sequencer cannot serve the context yet (R380), the batch is held. `u` is the state
in which it serves, its load made within the same step (DESIGN CHOICE, log entry 44). The second part says which fields
give the statuses 0x11 and 0x12 of R317; a misaligned descriptor gives 0x11 (DESIGN CHOICE, log entry 84), and the layout
bytes of unused axes are not looked at (DESIGN CHOICE, log entry 85). -/
def Obligations.CollectiveIssue : Prop :=
  ∀ (s : State) (e : Env) (d : BitVec 6) (red : Red) (desc inp out ctr : Sel) (l tl : List (Loc × Nat)) (b tb : List Byte)
    (u1 u2 : State) (st pos : Nat) (li lo : List (Loc × Nat)) (c : Trap) (x : Dword),
    s.env = some e →
    let bad := s.counterFault e.b.launch e.b.ctx (e.readU ctr)
    let go := exec (.coll d red desc inp out ctr) s
    (bad = some (c, x) → go = .next (s.trap e e.low c x)) ∧
    (bad = none → ¬Serves s 0 e.b.ctx → ∃ t, go = .next t ∧ HeldAt s t e) ∧
    (bad = none → Serves s 0 e.b.ctx →
    let u := serving s 0 e.b.ctx
    let chk (y : State) (va : Dword) (n : Nat) (a : Ask) := y.checkAccess (e.walker y) va n a (fun _ => none)
    let fails (T : State) (n : Nat) : Prop := ∃ t, go = .next t ∧
      Queued T t e (.coll d.toNat (collDesc (List.replicate 64 0) .sum []) [] [] (e.readU ctr) [] (some n))
    let w1 := u.walkedAll (e.walker u) [(e.readU desc, 64)]
    let n := ((List.range 4).map (fun n => bitsOf b (128 + 16 * n) 16)).foldl (· * ·) 1
    let ents := (List.range n).map (fun i => leNat ((tb.drop (2 * i)).take 2))
    let D := collDesc b red ents
    ((e.readU desc).toNat % 64 ≠ 0 → fails w1 0x11) ∧
    ((e.readU desc).toNat % 64 = 0 → chk w1 (e.readU desc) 64 askRead = .error (.trap c x) → fails w1 0x14) ∧
    ((e.readU desc).toNat % 64 = 0 → chk w1 (e.readU desc) 64 askRead = .ok l → w1.badLocs l = none → (∀ y ∈ l, isMem y.1) →
      w1.readLocs (some e.b.core) l = (b, u1) → collFields b red = st →
      Traffic u u1 ∧ (st = 0x11 → fails u1 0x11) ∧
      let w2 := u1.walked (e.walker u1) (BitVec.ofNat 64 (bitsOf b 0 64)) (2 * n)
      (st ≠ 0x11 → n ≠ 0 →
        (chk w2 (BitVec.ofNat 64 (bitsOf b 0 64)) (2 * n) askRead = .error (.trap c x) → fails w2 0x14) ∧
        (chk w2 (BitVec.ofNat 64 (bitsOf b 0 64)) (2 * n) askRead = .ok tl → w2.badLocs tl = none → (∀ y ∈ tl, isMem y.1) →
          w2.readLocs (some e.b.core) tl = (tb, u2) →
          Traffic u u2 ∧
          ((∃ y ∈ ents, 4096 ≤ y) ∨ ¬ents.Nodup → fails u2 0x11) ∧
          ((∀ y ∈ ents, y < 4096) → ents.Nodup →
            (st ≠ 0 → fails u2 st) ∧
            (st = 0 → s.fabric.device.toNat ∉ ents → fails u2 0x13) ∧
            (st = 0 → ents.findIdx? (fun y => y == s.fabric.device.toNat) = some pos →
              D.bytes D.froms pos ≠ 0 → D.bytes D.tos pos ≠ 0 →
              let w3 := u2.walkedAll (e.walker u2) [(e.readU inp, D.bytes D.froms pos), (e.readU out, D.bytes D.tos pos)]
              (chk w3 (e.readU inp) (D.bytes D.froms pos) askRead = .error (.trap c x) →
                chk w3 (e.readU out) (D.bytes D.tos pos) askWrite = .ok lo → fails w3 0x14) ∧
              (chk w3 (e.readU inp) (D.bytes D.froms pos) askRead = .ok li →
                chk w3 (e.readU out) (D.bytes D.tos pos) askWrite = .ok lo →
                let busy := ∃ o ∈ s.ops, ∃ r q i' o' w sl, o.kind = .coll r q i' o' w sl none ∧ q.collid = D.collid
                (busy → fails w3 0x16) ∧
                (¬busy → ∃ t, go = .next t ∧ Queued { w3 with out := w3.out ++ [.collStart D.collid] } t e
                  (.coll d.toNat D li lo (e.readU ctr) [] none))))))))) ∧
    -- the fields of a descriptor
    (let axes := bitsOf b 112 4
     let dims := bitsOf b 116 4
     let size (k : Nat) := bitsOf b (128 + 16 * k) 16
     let from_ (k : Nat) : Byte := BitVec.ofNat 8 (bitsOf b (192 + 8 * k) 8)
     let to_ (k : Nat) : Byte := BitVec.ofNat 8 (bitsOf b (224 + 8 * k) 8)
     let badByte (y : Byte) : Prop := layKind y = 3 ∨ y.toNat / 4 % 16 ≠ 0 ∨ (layKind y = 1 ∧ dims ≤ layDim y) ∨
       (layKind y ≠ 1 ∧ layDim y ≠ 0)
     let reserved : Prop := bitsOf b 448 64 ≠ 0 ∨ bitsOf b 123 5 ≠ 0 ∨ 4 < bitsOf b 120 3 ∨ dims = 0 ∨ 4 < dims ∨ axes = 0 ∨
       4 < axes ∨ bitsOf b 96 16 = 0 ∨ bitsOf b 0 64 % 2 = 1 ∨ (∃ k, k < 4 ∧ (size k = 0 ∨ 4096 < size k)) ∨
       (∃ k, axes ≤ k ∧ k < 4 ∧ size k ≠ 1) ∨ 4096 < size 0 * size 1 * size 2 * size 3 ∨
       (∃ k, k < axes ∧ (badByte (from_ k) ∨ badByte (to_ k))) ∨
       (red = .clip ∧ ¬(0 < bitsOf b 436 12 ∧ bitsOf b 436 12 < 0x7FF))
     let cuts (lay : Nat → Byte) (k : Nat) : Prop := k < axes ∧ layKind (lay k) = 1
     let refused (lay : Nat → Byte) : Prop :=
       (∃ k, cuts lay k ∧ bitsOf b (256 + 32 * layDim (lay k)) 32 % size k ≠ 0) ∨
       ∃ j k, j ≠ k ∧ cuts lay j ∧ cuts lay k ∧ layDim (lay j) = layDim (lay k)
     let reduces (k : Nat) : Prop := k < axes ∧ layKind (from_ k) = 2 ∧ layKind (to_ k) ≠ 2
     let layout : Prop := (∃ k, k < axes ∧ layKind (from_ k) = 1 ∧ layKind (to_ k) = 2) ∨ refused from_ ∨ refused to_ ∨
       (red = .clip ∧ (2 < bitsOf b 120 3 ∨ ¬∃ k, reduces k ∧ ∀ j, reduces j → j = k))
     (reserved → collFields b red = 0x11) ∧ (¬reserved → layout → collFields b red = 0x12) ∧
       (¬reserved → ¬layout → collFields b red = 0)) ∧
    -- a device's piece
    ∀ (sizes ranks : List Nat) (lay : List Byte) (dims : List Nat) (dim axis : Nat),
      dim < dims.length → axis < sizes.length → ranks.getD axis 0 < sizes.getD axis 1 → (∀ k, k < sizes.length → layKind (lay.getD k 0) = 1 → layDim (lay.getD k 0) = dim → k = axis) →
      (pieceOf sizes ranks lay dims)[dim]? = some (
        if layKind (lay.getD axis 0) = 1 ∧ layDim (lay.getD axis 0) = dim then
          (ranks.getD axis 0 * (dims.getD dim 0 / sizes.getD axis 1), dims.getD dim 0 / sizes.getD axis 1)
        else (0, dims.getD dim 0))

/-- R315 to R317: a device's part ends: the status stands in sD, the counter gains 1, and every element of the output is the
value the exchanges give; along one axis, a sum of integers is taken modulo the width, a maximum is the greatest, and
pieces come from the devices that hold them. A silent member's contribution comes from its buddy of rank rn XOR 1, or is lost
where there is none, it never received it or is itself silent. A refused collective ends with the status it carries. -/
def Obligations.CollectiveEnds : Prop :=
  ∀ (s : State) (o : Op) (r : Nat) (D : CollD) (inp out : List (Loc × Nat)) (ctr : Dword) (degraded : Bool) (silent : List Silent)
    (m : Silent) (pos pa pd st : Nat) (inputs : Option (List (List Byte))) (b : Block),
    pending s o.id = some o → s.unsent o = false →
    let c := collSize D.elem
    let ends (st : Nat) (t : State) : Prop := OpGone s t o.id ∧
      (live s o → ∀ i, sreg t o.blk o.m i = (sreg s o.blk o.m i).map (fun old => if i = r then BitVec.ofNat 64 st else old)) ∧
      (¬live s o → ∀ i, sreg t o.blk o.m i = sreg s o.blk o.m i) ∧
      let a := 16 * (ctr.extractLsb' 0 16).toNat
      (ctr.getLsbD 32 = true → s.counterBlock (((s.blk o.blk).map (·.launch)).getD 0) o.ctx (ctr.extractLsb' 16 8).toNat a = some b →
        s.blk b.uid = some b →
        (t.blk b.uid).map (·.counter a) = some (((b.counter a).1 + 1) % 2 ^ 64, (b.counter a).2))
    let buddy (x : Silent) : Nat := ((ranksOf D.sizes x.pos).getD x.axis 0) ^^^ 1
    let lost : Prop := ∃ x ∈ silent, x.buddyHolds = false ∨ D.sizes.getD x.axis 0 ≤ buddy x ∨
      ∃ y ∈ silent, y.pos = posOf D.sizes ((ranksOf D.sizes x.pos).set x.axis (buddy x))
    (o.kind = .coll r D inp out ctr silent (some st) → ∃ t, exec (.tokenClear o.id) s = .next t ∧ ends st t) ∧
    (o.kind = .coll r D inp out ctr silent none → D.table.findIdx? (fun x => x == s.fabric.device.toNat) = some pos →
      s.badLocs inp = none → s.downLocs out = none → (∀ x ∈ inp ++ out, isMem x.1) →
      (lost → ∃ t, exec (.collComplete o.id inputs degraded) s = .next t ∧ ends 2 t) ∧
      (¬lost →
        let given := inputs.getD []
        let fits := inputs.isSome = true ∧ given.length = D.table.length ∧
          ∀ i x, given[i]? = some x → i = pos ∨ x.length = D.bytes D.froms i
        (¬fits → ∃ t, exec (.collComplete o.id inputs degraded) s = .next t ∧ ends 0x15 t) ∧
        (fits → ∃ t, exec (.collComplete o.id inputs degraded) s = .next t ∧ ends (if degraded = true ∨ silent ≠ [] then 1 else 0) t ∧
          (Quiet s o.core → ctr.getLsbD 32 = false → inp = [(.mem pa, D.bytes D.froms pos)] →
            let ranks := ranksOf D.sizes pos
            let piece := pieceOf D.sizes ranks D.tos D.dims
            out = [(.mem pd, pieceSize piece * c)] →
            let data := given.set pos (bytesAt (seen s o.core) pa (D.bytes D.froms pos))
            (∀ i v, i < pieceSize piece →
              outBits D.elem (collVal D (inputOf D data) D.sizes.length ranks (globalOf piece i)) = some v →
              leNat (bytesAt (seen t o.core) (pd + i * c) c) = v % 2 ^ (8 * c)) ∧
            ∀ a, ¬(pd ≤ a ∧ a < pd + pieceSize piece * c) → seen t o.core a = seen s o.core a)))) ∧
    (o.kind = .coll r D inp out ctr silent none →
      let member : Prop := m.pos < D.table.length ∧ m.axis < D.sizes.length ∧ D.table[m.pos]? ≠ some s.fabric.device.toNat
      exec (.tsilent o.id m) s = .next (if s.devtime < o.start + 1000 * D.tsilent ∨ ¬member then s
        else s.setKind o.id (.coll r D inp out ctr (silent ++ [m]) none))) ∧
    ∀ (q : Nat) (f g : Byte) (v : List Nat → List Nat → CVal) (x : Nat) (gi : List Nat) (bits : Nat → Nat),
      D.sizes = [q] → D.froms = [f] → D.tos = [g] → x < q → (∀ y, v [y] gi = .raw (bits y)) →
      let res := collVal D v 1 [x] gi
      let w := 8 * c
      let int (n : Nat) : Int := if 2 ^ (w - 1) ≤ n then (n : Int) - 2 ^ w else n
      (layKind f = 2 → layKind g ≠ 2 → (D.elem = 3 ∨ D.elem = 4) →
        (D.red = .sum → outBits D.elem res = some (((List.range q).map bits).sum % 2 ^ w)) ∧
        (D.red = .max → ∃ y, y < q ∧ res = .raw (bits y) ∧ ∀ z, z < q → int (bits z) ≤ int (bits y)) ∧
        (D.red = .min → ∃ y, y < q ∧ res = .raw (bits y) ∧ ∀ z, z < q → int (bits y) ≤ int (bits z))) ∧
      (layKind f = 1 → res = .raw (bits (gi.getD (layDim f) 0 / (D.dims.getD (layDim f) 0 / q)))) ∧
      (layKind f = 0 → layKind g ≠ 2 → res = .raw (bits x)) ∧
      (layKind f = 0 → layKind g = 2 → res = .raw (if x = 0 then bits 0 else 0))

/-! Transfers, messages and deposits. -/

/-- R64, R168, R318 to R321: transfers, messages and deposits issue one operation; the packets of a transfer cover it,
none above 4 KiB or across a 4 KiB boundary of its destination; `amsg` and `rwr` order the sender's earlier stores first. -/
def Obligations.FabricInstructions : Prop :=
  ∀ (s : State) (e : Env) (stream : Byte) (dst src bytes ctr target : Sel) (first : BitVec 6) (n : BitVec 4) (r : BitVec 7)
    (d c : List (Loc × Nat)),
    s.env = some e →
    let word : Prop := (e.readU ctr).toNat / 2 ^ 33 = 0 ∧ (e.readU ctr).toNat / 2 ^ 24 % 2 ^ 8 = 0
    let place : Prop := s.counterStash e.b.launch e.b.ctx (e.readU ctr) = none
    let len := (e.readU bytes).toNat % 2 ^ 32
    let w := s.walkedAll (e.walker s) [(e.readU dst, len), (e.readU src, len)]
    let chk (v : Sel) (a : Ask) := w.checkAccess (e.walker w) (e.readU v) len a (fun _ => none)
    let issues (i : Instr) (wr : Bool) : Prop := Traffic s w ∧ ∃ t todo, exec i s = .next t ∧
      Queued w t e (.xfer wr d c todo [] len (e.readU ctr) stream.toNat) ∧
      (todo.map (·.2)).sum = len ∧ ∀ j p, todo[j]? = some p → p.1 = ((todo.take j).map (·.2)).sum ∧ 0 < p.2 ∧
        ((e.readU dst).toNat + p.1) % 4096 + p.2 ≤ 4096
    let payload (p : List Dword) : Prop := p.length = n.toNat ∧ ∀ j, j < n.toNat → p[j]? = some (e.sp.sval (first.toNat + j))
    let sent (T : State) : State :=
      { T with fabric := { T.fabric with
          msgs := T.fabric.msgs ++ [(replyToken (e.readU ctr) (BitVec.ofNat 12 e.b.ctx) s.fabric.device, e.b.launch)] } }
    let to_ := gangOf e.b.core * Config.gangCores + (e.readU target).toNat % 16
    let spid := (e.readU target).toNat / 16 % 256
    (word → len = 0 → exec (.xferw stream dst src bytes ctr) s = .next s) ∧
    (word → place → len = 0 → exec (.xferr stream dst src bytes ctr) s = .next s) ∧
    (word → len ≠ 0 → chk dst (askPeer true) = .ok d → chk src (askOwn false) = .ok c →
      issues (.xferw stream dst src bytes ctr) true) ∧
    (word → place → len ≠ 0 → chk dst (askOwn true) = .ok d → chk src (askPeer false) = .ok c →
      issues (.xferr stream dst src bytes ctr) false) ∧
    (word → place → ∃ T t p, exec (.amsg first n target ctr) s = .next t ∧ Traffic s T ∧
      (∀ x ∈ T.coh.pend, x.die ≠ dieOf e.b.core) ∧ Queued (sent T) t e (.amsg (e.readU target) (e.readU ctr) p false) ∧ payload p) ∧
    (∃ T t p, exec (.amsgReply first n target ctr) s = .next t ∧ Traffic s T ∧ (∀ x ∈ T.coh.pend, x.die ≠ dieOf e.b.core) ∧
      Queued T t e (.amsg (e.readU target) (e.readU ctr) p true) ∧ payload p) ∧
    (word → (e.readU target).toNat < 2 ^ 19 →
      (s.rwrStash e.b.ctx to_ spid (e.readU ctr) = false →
        ∃ T t vals, exec (.rwr r target ctr) s = .next t ∧ Traffic s T ∧
          Queued T t e (.rwr vals to_ spid ((e.readU target).toNat / 4096 % 128) (e.readU ctr)) ∧
          vals.length = 32 ∧ ∀ k, k < 32 → e.sp.gone k = false → vals[k]? = some (e.sp.vword r.toNat k)) ∧
      (s.rwrStash e.b.ctx to_ spid (e.readU ctr) = true →
        exec (.rwr r target ctr) s = .next (s.trap e e.low .protection (BitVec.ofNat 64 (16 * ((e.readU ctr).toNat % 2 ^ 16)))))) ∧
    -- a counter word that breaks R290, or names a stash range (R124)
    (¬word → ∀ i ∈ ([.xferw stream dst src bytes ctr, .xferr stream dst src bytes ctr, .amsg first n target ctr] : List Instr),
      exec i s = .next (s.trap e e.low .illegalOperand 0)) ∧
    ∀ a, word → s.counterStash e.b.launch e.b.ctx (e.readU ctr) = some a →
      ∀ i ∈ ([.xferr stream dst src bytes ctr, .amsg first n target ctr] : List Instr),
        exec i s = .next (s.trap e e.low .protection (BitVec.ofNat 64 a))

/-- R64, R124, R290, R318 to R321: what was sent takes effect: a packet is written or leaves for its peer, a message leaves
and starts a task where its handler entry holds one, a reply lands behind its counter, a deposit writes a whole register,
tagged G, and each counts itself; a transfer ends when every packet is acknowledged.

R394: no packet of a frozen stream leaves, and none is acknowledged.

Choices of the model: a reply with EN 0 is written and not counted, and one whose place no block holds is lost (DESIGN CHOICE,
log entry 32); a deposit lands in all slots, with its count, in one step (DESIGN CHOICE, log entry 63); requests of a frozen
stream, or of a line whose plane is being remapped, are held at this device (DESIGN CHOICE, log entry 53). -/
def Obligations.FabricDeliveries : Prop :=
  ∀ (s : State) (o : Op) (i : Nat) (dst src : List (Loc × Nat)) (todo sent : List (Nat × Nat)) (bytes stream off len pa pp : Nat)
    (dev : BitVec 12) (ctr target token : Dword) (data : List Byte) (payload : List Dword) (reply : Bool) (vals : List Word)
    (core spid reg : Nat) (b : Block) (sp : Spindle) (m : AMsg) (c : Ctx) (ent : List Byte) (s1 : State),
    let counter (x : State) (u a : Nat) : Option (Nat × Nat) := (x.blk u).map (·.counter a)
    let one (x : Nat × Nat) : Nat × Nat := ((x.1 + 1) % 2 ^ 64, x.2)
    let key : StreamId := ⟨o.core, o.ctx, stream⟩
    let gone (l : List (Nat × Nat)) := l.take i ++ l.drop (i + 1)
    -- packets leave
    (pending s o.id = some o → o.kind = .xfer true dst src todo sent bytes ctr stream → todo[i]? = some (off, len) →
      (key ∈ s.fabric.frozen → execMicro (.sendPacket o.id i) s = .next s) ∧
      (key ∉ s.fabric.frozen → subLocs dst off len = [(.peer dev pp, len)] → subLocs src off len = [(.mem pa, len)] →
        s.badIn pa len = none →
        ∃ t d, execMicro (.sendPacket o.id i) s = .next t ∧ d.length = len ∧
          (pending t o.id).map (·.kind) = some (.xfer true dst src (gone todo) (sent ++ [(off, len)]) bytes ctr stream) ∧
          let all := requests s key dev pp (.xfer d ctr) (some o.id) none
          ((∀ h ∈ all, s.mustHold h.x = false) → t.fabric.held = s.fabric.held ∧
            t.fabric.outst = s.fabric.outst ++ all.map (·.x) ∧ ∃ snoops, t.out = s.out ++ snoops ++ all.map HeldOut.msg) ∧
          ((∀ h ∈ all, s.mustHold h.x = true) → t.fabric.held = s.fabric.held ++ all ∧ t.fabric.outst = s.fabric.outst) ∧
          (Quiet s o.core → d = bytesAt (seen s o.core) pa len))) ∧
    -- and are acknowledged
    (pending s o.id = some o → o.kind = .xfer reply dst src todo sent bytes ctr stream → sent[i]? = some (off, len) →
      (key ∈ s.fabric.frozen → exec (.xferPacket o.id i data) s = .next s) ∧
      (key ∉ s.fabric.frozen → s.fabric.held = [] →
        (reply = true → ∃ t, exec (.xferPacket o.id i data) s = .next t ∧ t.mem = s.mem ∧
          (pending t o.id).map (·.kind) = some (.xfer true dst src todo (gone sent) bytes ctr stream)) ∧
        (reply = false → subLocs dst off len = [(.mem pa, len)] → s.downIn pa len = none → data.length = len →
          ctr.getLsbD 32 = false →
          ∃ t, exec (.xferPacket o.id i data) s = .next t ∧
            (pending t o.id).map (·.kind) = some (.xfer false dst src todo (gone sent) bytes ctr stream) ∧
            (Quiet s o.core → ∀ a, seen t o.core a =
              if pa ≤ a ∧ a < pa + len then (data[a - pa]?).getD 0 else seen s o.core a)))) ∧
    (pending s o.id = some o → o.kind = .xfer reply dst src todo sent bytes ctr stream →
      (todo ≠ [] ∨ sent ≠ [] → exec (.tokenClear o.id) s = .next s) ∧
      (todo = [] → sent = [] → s.unsent o = false →
        ∃ t, exec (.tokenClear o.id) s = .next t ∧ OpGone s t o.id ∧ ∀ x ∈ t.fabric.outst, x.op = some o.id → x.thr = none)) ∧
    -- messages
    (pending s o.id = some o → o.kind = .amsg target ctr payload reply → s.unsent o = false →
      ∃ t, exec (.tokenClear o.id) s = .next t ∧ OpGone s t o.id ∧ .message target ctr payload reply ∈ t.out ∧
        (s.fabric.held = [] → t.out = s.out ++ [.message target ctr payload reply]) ∧
        t.agenda = s.agenda ++ (
          if target.extractLsb' 0 12 ≠ s.fabric.device then []
          else if reply then [.event (.replyArrival target payload)]
          else [.event (.amsgArrival { dev := s.fabric.device, sctx := BitVec.ofNat 12 o.ctx, tctx := target.extractLsb' 12 12
                                       index := target.extractLsb' 24 8, ctr := ctr, payload := payload })])) ∧
    (s.ctx m.tctx.toNat = none → exec (.amsgArrival m) s = .next s) ∧
    (s.ctx m.tctx.toNat = some c → c.desc.htab ≠ 0 → s.readVirt none c (c.desc.htab + BitVec.ofNat 64 (32 * m.index.toNat)) 32 = .ok (ent, s1) →
      let V := bitsOf ent 128 16
      let ok := bitsOf ent 0 64 ≠ 0 ∧ 8 ≤ V ∧ V ≤ 128 ∧ V % 8 = 0 ∧ 128 * bitsOf ent 144 16 ≤ 2 ^ 20
      (¬ok → ∃ t, exec (.amsgArrival m) s = .next t ∧ t.launches = s.launches) ∧
      (ok → bitsOf ent 160 32 < bitsOf ent 192 64 →
        ∃ t l, exec (.amsgArrival m) s = .next t ∧ t.launches = s.launches ++ [l] ∧ l.ctx = c.id ∧ l.cls = .d ∧ l.e = [1, 1, 1, 1, 1, 1] ∧
          l.w = [5, 0, 0, 0, 0, 0] ∧ l.task = some m.payload ∧ l.dl = s.devtime + bitsOf ent 192 64 ∧ l.budget = bitsOf ent 160 32 ∧
          l.pentry = BitVec.ofNat 64 (bitsOf ent 0 64) ∧
          l.ppart = BitVec.ofNat 64 (if bitsOf ent 64 64 = 0 then bitsOf ent 0 64 else bitsOf ent 64 64) ∧
          l.tok.toNat = m.ctr.toNat % 2 ^ 32 * 2 ^ 32 + (m.ctr.getLsbD 32).toNat * 2 ^ 24 + m.sctx.toNat * 2 ^ 12 + m.dev.toNat ∧
          l.det = false ∧ l.param = 0 ∧ l.recaddr = 0 ∧ l.tlsarea = 0 ∧ l.pcount = 0 ∧
          (c.msgs < 2 ^ 63 → l.seq.toNat = 2 ^ 63 + c.msgs))) ∧
    (let a := 16 * (token.toNat / 2 ^ 32 % 2 ^ 16)
     let launch := ((s.fabric.msgs.find? (fun x => x.1 == token)).map (·.2)).getD s.nextId
     let at_ := s.counterBlock launch (token.toNat / 2 ^ 12 % 2 ^ 12) (token.toNat / 2 ^ 48 % 2 ^ 8) a
     (at_ = none → ∃ t, exec (.replyArrival token payload) s = .next t ∧ ∀ u x, localByte t u x = localByte s u x) ∧
     (at_ = some b → s.blk b.uid = some b → a + 16 + 8 * payload.length ≤ b.lsize →
      ∃ t, exec (.replyArrival token payload) s = .next t ∧
        counter t b.uid a = some (if token.getLsbD 24 = true then one (b.counter a) else b.counter a) ∧
        ∀ x, ¬(token.getLsbD 24 = true ∧ a ≤ x ∧ x < a + 8) → localByte t b.uid x = some (
          if a + 16 ≤ x ∧ x < a + 16 + 8 * payload.length then
            ((payload.flatMap (fun w => leBytes 8 w.toNat))[x - (a + 16)]?).getD 0
          else b.lbyte x))) ∧
    -- deposits
    (pending s o.id = some o → o.kind = .rwr vals core spid reg ctr →
      (s.target o.ctx core spid = none → ∃ t, exec (.deposit o.id) s = .next t ∧ OpGone s t o.id ∧ ∀ u k n, vreg t u k n = vreg s u k n) ∧
      (s.target o.ctx core spid = some (b, sp) → s.blk b.uid = some b → b.sp sp.m = some sp → b.evicted = false →
        if sp.vcount ≤ reg then ∃ t, exec (.deposit o.id) s = .next t ∧ OpGone s t o.id ∧ ∀ u k n, vreg t u k n = vreg s u k n
        else ∃ t, exec (.deposit o.id) s = .next t ∧ OpGone s t o.id ∧
          (∀ u k n, vreg t u k n = (vreg s u k n).map (fun old =>
            if u = b.uid ∧ k = sp.m ∧ n = reg then { tag := .g, vals := vals } else old)) ∧
          (∀ u k n, sreg t u k n = sreg s u k n) ∧
          let a := 16 * (ctr.toNat % 2 ^ 16)
          (ctr.getLsbD 32 = true → a + 16 ≤ b.lsize → counter t b.uid a = some (one (b.counter a))) ∧
          (ctr.getLsbD 32 = false → ∀ u, (t.blk u).map (fun x => { x with spindles := [] }) = (s.blk u).map (fun x => { x with spindles := [] }))))

/-! Requests of other devices, planes. -/

/-- R166, R167, R380, R394: a peer's request is performed at its home and answered, held while a page is serviced, or turned
away; a frozen stream resumes, a rejected one ends its access; a unit is loaded for a context; a dead plane's entries are
spread over the live planes; without firmware the plane map stays as it is (R412).

Choices of the model: a fault of a peer's request asks for service under core number 0x100 (DESIGN CHOICE, log entry 28); a unit's
load charges the context the time since it asked and the time the load took (DESIGN CHOICE, log entry 44). -/
def Obligations.PeersAndPlanes : Prop :=
  ∀ (s : State) (r : PeerReq) (c : Ctx) (pa : Nat) (va : Dword) (op : Option Nat) (tr : Trap) (k : StreamId) (x : PeerOut) (o : Op)
    (b : Block) (sp : Spindle) (unit p i : Nat) (dig : BitVec 512) (w : Dword) (slot : Nat),
    let go := exec (.peerRequest r) s
    let size := peerSize r.kind
    let at_ := s.walked c.walker r.va size
    let chk := at_.checkAccess c.walker r.va size (askRemote r.kind (r.va.toNat % size == 0))
      (fun l => s.winRight (.peer r.dev r.ctx) r.va (fun off n => peerWin r.kind off n (List.replicate n 0)) l)
    let home := s.coh.flips = [] ∧ (∀ b ∈ s.blocks, b.owned = []) ∧ s.health.unmapped = [] ∧ s.coh.pend = [] ∧ s.coh.device = []
    let was (a n : Nat) : Nat := leNat (bytesAt s.home a n)
    let puts (t : State) (n v : Nat) : Prop := leNat (bytesAt t.home pa n) = v % 2 ^ (8 * n) ∧
      ∀ a, ¬(pa ≤ a ∧ a < pa + n) → t.home a = s.home a
    (s.ctx r.tctx.toNat = none → ∃ t, go = .next t ∧ .peerReject r ∈ t.out ∧ t.operators = s.operators) ∧
    (s.ctx r.tctx.toNat = some c → s.frozenTag r = some i →
      go = .next { s with fabric := { s.fabric with heldIn := s.fabric.heldIn ++ [{ r := r, tag := i }] } }) ∧
    (s.ctx r.tctx.toNat = some c → s.frozenTag r = none → size ≠ 0 →
      (chk = .error (.trap tr va) → ∃ t, go = .next t ∧ .peerReject r ∈ t.out ∧ t.operators = s.operators) ∧
      (chk = .error (.service va op) → ∃ t, go = .next t ∧ t.out = at_.out ∧
        t.fabric.heldIn = s.fabric.heldIn ++ [{ r := r, tag := s.nextId }] ∧
        ∃ v, t.services = s.services ++ [v] ∧ v.ctx = c.id ∧ v.va = va ∧ v.tag = s.nextId ∧ v.core = 0x100) ∧
      (chk = .ok [(.mem pa, size)] → s.badIn pa size = none → home →
        (∀ n, r.kind = .read n → ∃ t, go = .next t ∧ .peerReply r (bytesAt s.home pa n) ∈ t.out ∧ ∀ a, t.home a = s.home a) ∧
        (∀ d, r.kind = .write d → ∃ t, go = .next t ∧ .peerReply r [] ∈ t.out ∧ puts t d.length (leNat d)) ∧
        (∀ d ctr, r.kind = .xfer d ctr → ctr.getLsbD 32 = false →
          ∃ t, go = .next t ∧ .peerReply r [] ∈ t.out ∧ puts t d.length (leNat d)) ∧
        (∀ a wide v cmp, r.kind = .atomic a wide v cmp → pa % 128 + size ≤ 128 → ∃ t, go = .next t ∧
          .peerReply r (bytesAt s.home pa size) ∈ t.out ∧ puts t size (atomNew a wide (was pa size) v.toNat cmp.toNat).1) ∧
        (∀ u, r.kind = .exact u → ∃ t, go = .next t ∧ .peerReply r [] ∈ t.out ∧
          puts t 32 (BitVec.ofInt 256 ((BitVec.ofNat 256 (was pa 32)).toInt + u)).toNat))) ∧
    -- streams
    (s.firstOut k = some x → ∃ t, execMicro (.freeze k) s = .next t ∧ k ∈ t.fabric.frozen ∧ t.fabric.outst = s.fabric.outst) ∧
    (k ∈ s.fabric.frozen → ∀ dev pa kind op thr, s.sendPeer k dev pa kind op thr =
      { s with fabric := { s.fabric with held := s.fabric.held ++ requests s k dev pa kind op thr } }) ∧
    (s.firstOut k = some x → ∃ t, exec (.streamResume k) s = .next t ∧ k ∉ t.fabric.frozen ∧
      (s.fabric.held = [] → t.out = s.out ∧ t.fabric.outst = if x.op = none then s.fabric.outst.erase x else s.fabric.outst)) ∧
    (s.firstOut k = some x → x.thr = none → x.op = some o.id → pending s o.id = some o →
      ∃ t, exec (.remoteReject k) s = .next t ∧ OpGone s t o.id ∧ k ∉ t.fabric.frozen ∧
        (∀ y ∈ t.fabric.outst, y.op ≠ some o.id) ∧ ∀ h ∈ t.fabric.held, h.x.op ≠ some o.id) ∧
    (s.firstOut k = some x → x.thr = some (b.uid, sp.m, slot) → x.op = none →
      s.blk b.uid = some b → b.sp sp.m = some sp → s.running b.uid sp.m slot = false → b.ctx = c.id → s.ctx b.ctx = some c →
      c.halting = false → c.halted = false → (∃ y, sp.threads[slot]? = some y ∧ y.st = .ready) →
      ∃ t, exec (.remoteReject k) s = .next t ∧ (t.ctx c.id).map (fun c => (c.halting, c.cause)) = some (true, .remoteReject) ∧
        (thr t b.uid sp.m slot).map (fun y => (y.st, y.stop)) = some (.halted, some ⟨.remoteReject, x.addr⟩)) ∧
    -- units
    ((s.ctx c.id).isNone = true ∨ s.unitBusy unit c.id = true ∨ s.loader unit = false → exec (.unitLoad c.id unit dig) s = .next s) ∧
    ((s.ctx c.id).isSome = true → s.unitBusy unit c.id = false → s.loader unit = true →
      let since := ((s.sched.waits.find? (fun y => y.1 == unit && y.2.1 == c.id)).map (·.2.2)).getD s.devtime
      ∃ t, exec (.unitLoad c.id unit dig) s = .next t ∧ (unit, c.id) ∈ t.sched.units ∧
        (∀ y ∈ t.sched.units, y.1 = unit → y.2 = c.id) ∧
        (∀ y, y.1 ≠ unit → (y ∈ t.sched.units ↔ y ∈ s.sched.units)) ∧
        t.boot.meas = s.boot.meas.set 2 (Config.sha512 (leBytes 64 ((s.boot.meas[2]?).getD 0).toNat ++ leBytes 64 dig.toNat)) ∧
        (t.ctx c.id).map (·.charge) = (s.ctx c.id).map (fun c => c.charge + (s.devtime - since) + s.paceNs)) ∧
    -- planes
    (p = w.toNat % 16 →
      (12 ≤ p ∨ s.boot.state = 7 → exec (.planemapWrite i w) s = .next s) ∧
      (p < 12 → s.boot.state ≠ 7 →
        let x : State := { s with fabric := { s.fabric with planes := s.fabric.planes.set i (p, decide (p ∉ s.fabric.dead)) } }
        ∃ t, exec (.planemapWrite i w) s = .next t ∧ t.fabric.planes = x.fabric.planes ∧ t.mem = s.mem ∧ t.blocks = s.blocks ∧
          (s.fabric.held = [] → t = x))) ∧
    (p < 12 → p ∉ s.fabric.dead →
      let live := (List.range 12).filter (fun q => decide (q ≠ p ∧ q ∉ s.fabric.dead))
      ∃ t, exec (.planeDeath p) s = .next t ∧ t.fabric.dead = p :: s.fabric.dead ∧ ∀ j y, s.fabric.planes[j]? = some y →
        t.fabric.planes[j]? = some (
          if y.1 ≠ p then y
          else match live[((s.fabric.planes.take j).filter (fun z => z.1 == p)).length % live.length]? with
            | some q => (q, true)
            | none => (p, false)))

/-! Command queues. -/

/-- R362, R363, R365, R379: the registers of a queue: what each write changes, what it ignores, and how a queue enters and
leaves a front end. A queue disabled while a packet is in progress stops behind it. In boot state 7 register writes abort (R412),
and the events that stand for writes of queue registers do nothing (DEDUCED, log entry 49). -/
def Obligations.QueueRegisters : Prop :=
  ∀ (s : State) (n off : Nat) (v : Dword) (d : List Byte), n < 1024 →
    let q := s.queue n
    let fronts := (s.queues.filter (fun q => (q.en || q.stopping) && !q.out)).length
    let only (x t : State) (r : Queue) : Prop := t = { x with queues := t.queues } ∧ t.queue n = r ∧ ∀ k, k ≠ n → t.queue k = s.queue k
    let cid := v.toNat / 2 ^ 32 % 2 ^ 12
    let abort : State := { s with out := s.out ++ [OutMsg.registerAbort off] }
    (s.boot.state = 7 → exec (.registerWrite off d) s = .next abort ∧
      ∀ i ∈ ([.qtail n v, .queueEnable n v, .queueDisable n v, .quar n] : List Instr), exec i s = .next s) ∧
    (q.en = true → q.out = true → q.prog < q.tail → fronts < 64 →
      ∃ t, exec (.queueSwitchIn n) s = .next t ∧ only s t { q with out := false }) ∧
    (q.tail ≤ q.prog → exec (.queueSwitchIn n) s = .next s) ∧
    (q.en = true → q.out = true → 64 ≤ fronts → (s.queues.map (·.n)).Nodup →
      (∀ x ∈ s.queues, x.en = true → x.out = false → x.serv = false → x.rank ≤ q.rank) → exec (.queueSwitchIn n) s = .next s) ∧
    (∃ t, exec (.queueSwitchOut n) s = .next t ∧ only s t
      (if q.en = true ∧ q.out = false ∧ q.serv = false then { q with out := true } else q)) ∧
    (s.boot.state ≠ 7 →
      (∃ t, exec (.qtail n v) s = .next t ∧ only s t (
        if v.toNat < q.tail ∨ q.prog + 2 ^ q.log2 < v.toNat then { q with tailerr := true } else { q with tail := v.toNat })) ∧
      (q.en = false → v.getLsbD 0 = true → v.getLsbD 5 = false → v.toNat / 2 ^ 48 ≠ 0 →
        ((∀ c, s.ctx cid = some c → c.halted = true) → exec (.queueEnable n v) s = .next s) ∧
        (∀ c, s.ctx cid = some c → c.halted = false →
          ∃ t, exec (.queueEnable n v) s = .next t ∧ only
            { s with services := s.services.map (fun (x : Service) => if x.queue = some n ∧ x.mirror = false then { x with queue := none } else x) } t
            { q with tickets := v.toNat / 2 ^ 48, lcls := v.getLsbD 4, quar := q.quar && !v.getLsbD 6, ctxid := cid
                     priv := v.getLsbD 7, en := true, prog := q.tail, ctx := cid, stack := [], waiting := false
                     serv := false, stopping := false, out := decide (64 ≤ fronts) })) ∧
      (v.toNat / 2 ^ 48 = 0 ∨ v.getLsbD 5 = true → exec (.queueEnable n v) s = .next s ∧ exec (.queueDisable n v) s = .next s) ∧
      (q.en = true → v.getLsbD 0 = false → v.getLsbD 5 = false → v.toNat / 2 ^ 48 ≠ 0 →
        let busy := !q.out && (q.waiting || q.serv)
        ∃ t, exec (.queueDisable n v) s = .next t ∧ only s t
          { q with tickets := v.toNat / 2 ^ 48, lcls := v.getLsbD 4, quar := q.quar && !v.getLsbD 6, en := false, out := false
                   stopping := busy, waiting := busy && q.waiting, serv := busy && q.serv }) ∧
      (0 < q.tickets → q.tickets < 2 ^ 16 → q.ctxid < 2 ^ 12 → q.en = true →
        ∃ t, exec (.quar n) s = .next t ∧ only s t { q with quar := false }) ∧
      exec (.registerWrite (0x20_0010 + 64 * n) (leBytes 8 v.toNat)) s = exec (.qtail n v) s ∧
      (q.en = true → ∀ k, k = 0 ∨ k = 5 →
        ∃ t, exec (.registerWrite (0x20_0000 + 64 * n + 8 * k) (leBytes 8 v.toNat)) s = .next t ∧ only s t q) ∧
      (8 < off % 8 + d.length → off % 8 ≠ 0 ∨ d.length % 8 ≠ 0 → exec (.registerWrite off d) s = .next abort))

/-- R364, R366 to R370, R373: a packet that a queue stands at, read whole, does what its type says and is consumed; a malformed
one is recorded and quarantines its queue; one whose condition fails holds the queue. A rejected launch writes a record of status
EXPIRED; a packet inside an indirect buffer moves the position there, and the buffer's end consumes its INDIRECT packet; each
advance of PROG is mirrored. -/
def Obligations.PacketsTakeEffect : Prop :=
  ∀ (s : State) (n : Nat) (h : Word) (ws : List Word) (s1 s2 s3 : State) (pa : Nat) (c : Ctx) (d : List Byte) (l : Launch)
      (tr : Trap) (locs : List (Loc × Nat)),
    let q := s.queue n
    let typ := h.toNat / 2 ^ 24
    let size := h.toNat / 2 ^ 12 % 2 ^ 12
    let fl := h.toNat % 2 ^ 12
    let dw (i : Nat) : Dword := (ws[i + 1]?).getD 0 ++ (ws[i]?).getD 0
    s.parses q = true → s.qwords q 0 1 = .ok ([h], s1) → size ≠ 0 →
    let runs (i : Instr) (x : State) (r : Queue) : Prop := ∃ t, exec i s = .next t ∧ t = { x with queues := t.queues } ∧ t.queue n = r ∧
      ∀ k, k ≠ n → t.queue k = s.queue k
    let eaten : Queue := { q with prog := q.prog + size, waiting := false, stopping := false }
    let bad (reason : Nat) : Queue := { eaten with reason := reason, erroff := q.prog % 2 ^ q.log2, quar := true }
    let done := ∀ x ∈ s.launches, x.queue = n → x.task = none → x.ended = true
    let still (x : State) : Prop := x.coh.flips = [] ∧ x.coh.pend = [] ∧ (∀ y ∈ x.blocks, y.owned = []) ∧ x.fabric.held = [] ∧
      x.health.unmapped = [] ∧ x.coh.device = []
    (q.stack = [] → q.mirror = 0 → q.prog + size ≤ q.tail → Traffic s s1 ∧
    (8 ≤ typ → runs (.nopPacket n) s1 (bad 1)) ∧
    (typ = 0 → fl ≠ 0 → runs (.nopPacket n) s1 (bad 3)) ∧
    (∀ va, typ = 0 → fl = 0 → s1.qwords q 1 (size - 1) = .error (.trap tr va) → runs (.nopPacket n) s1 (bad 7)) ∧
    (s1.qwords q 1 (size - 1) = .ok (ws, s2) → Traffic s s2 ∧
      (typ = 0 → fl = 0 → runs (.nopPacket n) s2 eaten) ∧
      (typ = 1 → size = 33 → fl = 0 →
        let x := { s2 with nextId := s2.nextId + 1 }
        (readHeader (ws.flatMap (fun w => leBytes 4 w.toNat)) s.nextId q.ctx n = none → runs (.launch n) x (bad 4)) ∧
        (readHeader (ws.flatMap (fun w => leBytes 4 w.toNat)) s.nextId q.ctx n = some l →
          let sfreq := bitsOf (ws.flatMap (fun w => leBytes 4 w.toNat)) 152 8
          let l' := if q.quar then { l with cls := .q, dl := min l.dl (s.devtime + 1000 * s.sched.qlimit.toNat) }
            else { l with cls := if q.lcls then .l else .d }
          l.blocks ≤ Config.gangCores → (sfreq = 0 ∨ sfreq = Config.sfrev.toNat) → (s.devtime : Int) < l'.divertAt → s.neverFits l' = false →
          runs (.launch n) { x with launches := x.launches ++ [l'], sched := { x.sched with accepted := true } } eaten) ∧
        (∀ l' : Launch, readHeader (ws.flatMap (fun w => leBytes 4 w.toNat)) s.nextId q.ctx n = some l →
          l' = (if q.quar then { l with cls := .q, dl := min l.dl (s.devtime + 1000 * s.sched.qlimit.toNat) }
            else { l with cls := if q.lcls then .l else .d }) →
          let sfreq := bitsOf (ws.flatMap (fun w => leBytes 4 w.toNat)) 152 8
          Config.gangCores < l.blocks ∨ (sfreq ≠ 0 ∧ sfreq ≠ Config.sfrev.toNat) ∨ l'.divertAt ≤ (s.devtime : Int) ∨ s.neverFits l' = true →
          (∀ y ∈ s.launches, y.uid < s.nextId) → (∀ y ∈ s.blocks, y.launch < s.nextId) →
          ∃ t, exec (.launch n) s = .next t ∧ t.queue n = eaten ∧ t.blocks.map (·.uid) = s.blocks.map (·.uid) ∧ t.sched = s.sched ∧
            (t.launch s.nextId).map (fun y => (y.notst, y.fin, y.parted, y.overrun, y.status)) = some (l'.threads, 0, 0, 0, 3) ∧
            (s.ctx q.ctx = some c → still s2 → s2.downIn pa 64 = none →
              (s2.walked c.walker l.recaddr 64).checkAccess c.walker l.recaddr 64 askWrite (fun _ => none) = .ok [(.mem pa, 64)] →
              pa % 64 = 0 →
              let field (i : Nat) : Nat := leNat (bytesAt t.home (pa + 8 * i) 8)
              (t.launch s.nextId).map (·.ended) = some true ∧ field 0 = l.seq.toNat ∧ field 1 % 2 ^ 16 = 3 + 2 ^ 8 * Config.sfrev.toNat ∧
              field 2 = 0 ∧ field 3 = 0 ∧ field 4 = l'.threads % 2 ^ 64 ∧ field 5 = 0 ∧ field 6 = 0))) ∧
      (typ = 2 → size = 4 → fl = 0 → ((ws[2]?).getD 0).toNat ≠ 0 → ((ws[2]?).getD 0).toNat ≤ 2 ^ 24 → (dw 0).toNat % 4 = 0 → canonical (dw 0) = true → s.ctx q.ctx = some c →
        let w := s2.walked c.walker (dw 0) 4
        Traffic s w ∧
        (∀ va, w.checkAccess c.walker (dw 0) 4 askRead (fun _ => none) = .error (.trap tr va) → runs (.indirect n) w (bad 7)) ∧
        (w.checkAccess c.walker (dw 0) 4 askRead (fun _ => none) = .ok locs →
          runs (.indirect n) w { q with stack := [(dw 0, ((ws[2]?).getD 0).toNat, 0, q.ctx)] })) ∧
      (typ = 3 → size = 7 → fl < 4 → (dw 0).toNat % 8 = 0 → s.ctx q.ctx = some c → s2.readVirt none c (dw 0) 8 = .ok (d, s3) →
        let x := BitVec.ofNat 64 (leNat d) &&& (if dw 4 = 0 then BitVec.allOnes 64 else dw 4)
        let holds := if fl = 0 then x = dw 2 else if fl = 1 then x ≠ dw 2 else if fl = 2 then (dw 2).toNat ≤ x.toNat else x.toNat < (dw 2).toNat
        let r := if holds then eaten else { q with waiting := true }
        (q.waiting = false → runs (.waitmem n) s3 r) ∧ (q.waiting = true → runs (.waitmemRecheck n) s3 r)) ∧
      (q.waiting = true → exec (.waitmem n) s = .next s) ∧ (q.waiting = false → exec (.waitmemRecheck n) s = .next s) ∧
      (typ = 4 → size = 5 → fl < 4 →
        (fl % 2 = 1 → ¬done → runs (.signal n) s2 { q with waiting := true }) ∧
        ((fl % 2 = 1 → done) → (dw 0).toNat % 8 ≠ 0 → runs (.signal n) s2 (bad 7)) ∧
        ((fl % 2 = 1 → done) → (dw 0).toNat % 8 = 0 → s.ctx q.ctx = some c →
          let w := s2.walked c.walker (dw 0) 8
          (fl / 2 = 0 → w.checkAccess c.walker (dw 0) 8 askWrite (fun _ => none) = .ok [(.mem pa, 8)] → s.downIn pa 8 = none →
            ∃ x, Traffic s x ∧ runs (.signal n) x eaten ∧ (pa % 8 = 0 → s.health.unmapped = [] →
              leNat (bytesAt x.home pa 8) = (dw 2).toNat)) ∧
          (fl / 2 = 1 → w.checkAccess c.walker (dw 0) 8 { askRead with perm := fun p => p.r && p.w } (fun _ => none) = .ok [(.mem pa, 8)] →
            w.badIn pa 8 = none →
            ∃ x, Traffic s x ∧ runs (.signal n) x eaten ∧ (pa % 8 = 0 → still s2 →
              leNat (bytesAt x.home pa 8) = (leNat (bytesAt s2.home pa 8) + (dw 2).toNat) % 2 ^ 64)))) ∧
      (typ = 7 → size = 3 → fl < 2 →
        (fl % 2 = 1 → ¬done → runs (.timestamp n) s2 { q with waiting := true }) ∧
        ((fl % 2 = 1 → done) → (dw 0).toNat % 8 = 0 → s.ctx q.ctx = some c →
          (s2.walked c.walker (dw 0) 8).checkAccess c.walker (dw 0) 8 askWrite (fun _ => none) = .ok [(.mem pa, 8)] →
          s.downIn pa 8 = none →
          ∃ x, Traffic s x ∧ runs (.timestamp n) x eaten ∧ (pa % 8 = 0 → s.health.unmapped = [] →
            leNat (bytesAt x.home pa 8) = s.devtime % 2 ^ 64))) ∧
      (typ = 5 → size = 1 → fl = 0 → runs (.fencePacket n) s2 (if done then eaten else { q with waiting := true })) ∧
      (typ = 6 → size = 2 → fl = 0 →
        let w := ((ws[0]?).getD 0).toNat
        (w / 2 ^ 12 ≠ 0 → runs (.setctx n) s2 (bad 3)) ∧
        (w / 2 ^ 12 = 0 → (q.priv = false ∨ ∀ c, s.ctx w = some c → c.halted = true) → runs (.setctx n) s2 (bad 6)) ∧
        (w / 2 ^ 12 = 0 → q.priv = true → s.ctx w = some c → c.halted = false → runs (.setctx n) s2 { eaten with ctx := w })))) ∧
    -- the mirror
    (q.stack = [] → q.mirror ≠ 0 → q.prog + size ≤ q.tail → typ = 0 → fl = 0 → s1.qwords q 1 (size - 1) = .ok (ws, s2) →
      s2.ctx q.ctxid = some c →
      let x := (s2.updQueue n (fun _ => eaten)).ack (fun _ => true)
      let w := x.walked c.walker q.mirror 8
      (w.checkAccess c.walker q.mirror 8 askWrite (fun _ => none) = .ok [(.mem pa, 8)] → w.downIn pa 8 = none →
        ∃ t, exec (.nopPacket n) s = .next t ∧ t.queue n = eaten ∧
          (pa % 8 = 0 → s.health.unmapped = [] → leNat (bytesAt t.home pa 8) = (q.prog + size) % 2 ^ 64)) ∧
      (∀ va, w.checkAccess c.walker q.mirror 8 askWrite (fun _ => none) = .error (.trap tr va) →
        ∃ t, exec (.nopPacket n) s = .next t ∧ t.queue n = eaten)) ∧
    -- inside an indirect buffer
    ∀ (a : Dword) (len p k : Nat) (rest : List (Dword × Nat × Nat × Nat)), q.stack = (a, len, p, k) :: rest → rest.length < 4 →
      q.mirror = 0 →
      let moved : Queue :=
        if p + size < len then { q with stack := (a, len, p + size, k) :: rest, waiting := false, stopping := false }
        else { q.advance size 6 with waiting := false, stopping := false }
      (rest = [] → len ≤ p + size → moved = { q with stack := [], prog := q.prog + 4, waiting := false, stopping := false }) ∧
      (∀ a' len' p' k' more, rest = (a', len', p', k') :: more → len ≤ p + size → p' + 4 < len' →
        moved = { q with stack := (a', len', p' + 4, k') :: more, waiting := false, stopping := false }) ∧
      (typ = 0 → fl = 0 → p + size ≤ len → s1.qwords q 1 (size - 1) = .ok (ws, s2) → runs (.nopPacket n) s2 moved) ∧
      (typ = 0 → fl = 0 → len < p + size →
        runs (.nopPacket n) s1 { moved with reason := 5, erroff := q.prog % 2 ^ q.log2, quar := true }) ∧
      (typ = 5 → size = 1 → fl = 0 → p < len → ¬done → s1.qwords q 1 0 = .ok (ws, s2) →
        runs (.fencePacket n) s2 { q with waiting := true }) ∧
      (typ = 2 → size = 4 → fl = 0 → p + 4 ≤ len → s1.qwords q 1 3 = .ok (ws, s2) → ((ws[2]?).getD 0).toNat ≠ 0 →
        ((ws[2]?).getD 0).toNat ≤ 2 ^ 24 → (dw 0).toNat % 4 = 0 → canonical (dw 0) = true →
        (rest.length = 3 → runs (.indirect n) s2 { moved with reason := 5, erroff := q.prog % 2 ^ q.log2, quar := true }) ∧
        (rest.length < 3 → s.ctx q.ctx = some c →
          (s2.walked c.walker (dw 0) 4).checkAccess c.walker (dw 0) 4 askRead (fun _ => none) = .ok locs →
          runs (.indirect n) (s2.walked c.walker (dw 0) 4)
            { q with stack := (dw 0, ((ws[2]?).getD 0).toNat, 0, q.ctx) :: q.stack }))

/-! Scheduling. -/

/-- R22, R33, R34, R48, R180 to R182, R279: the batch of a thread issues the clause at its pc: threads whose wait tokens are
held park before it, a clause that fails its checks halts, threads whose guard fails skip it, and the others enter it.

R41 to R45, R47, R48, R284, R391: at its divert time a launch's threads leave for their parting entry, at once or when
what holds them ends; at its deadline they stop; blocks not yet admitted never start; a launch whose every thread is counted
writes its record. That a thread woken inside a clause and not yet gone on leaves at once, its clause header in DPC, is the
model's choice (DESIGN CHOICE, log entry 62). -/
def Obligations.ClausesAndDeadlines : Prop :=
  (∀ (s s1 : State) (core spid slot : Nat) (b : Block) (sp : Spindle) (x : Thread) (hd : Header) (ws : List Word),
    s.spindleAt core spid = some (b, sp) → s.blk b.uid = some b → b.sp sp.m = some sp → sp.threads[slot]? = some x → x.mid = none →
    let ks := s.batch b sp slot
    (ks = [] ∨ (x.yielded = true ∧ s.othersReady core spid ks = true) → exec (.clauseIssue core spid slot) s = .next s) ∧
    (ks ≠ [] → (x.yielded = false ∨ s.othersReady core spid ks = false) → s.fetchClause b.core b.ctx x.pc = .ok (hd, ws, s1) →
      let tok (k : Nat) : Byte := ((sp.threads[k]?).map (fun (y : Thread) => y.tok)).getD 0
      let guard (k : Nat) : Bool := !hd.gen || ((((sp.threads[k]?).map (fun (y : Thread) => y.preds)).getD 0).getLsbD hd.gpred.toNat != hd.gneg)
      let npc : Dword := x.pc + BitVec.ofNat 64 (4 * (1 + hd.count))
      let st (t : State) (k : Nat) : Option (TState × Dword) := (thr t b.uid sp.m k).map (fun y => (y.st, y.pc))
      let pass := ks.filter guard
      ((∃ k ∈ ks, tok k &&& hd.wait ≠ 0) → ∃ t, exec (.clauseIssue core spid slot) s = .next t ∧ t.run = s.run ∧ t.runs = s.runs ∧
        ∀ k, st t k = (st s k).map (fun y => if k ∈ ks ∧ tok k &&& hd.wait ≠ 0 then (.parked (.tokens hd.wait), y.2) else y)) ∧
      ((∀ k ∈ ks, tok k &&& hd.wait = 0) →
        (∀ err c, checkWords hd.cls sp.vcount 16 [] ws = some err → s.ctx b.ctx = some c →
          ∃ t, exec (.clauseIssue core spid slot) s = .next t ∧ (t.ctx b.ctx).map (·.halting) = some true ∧
            (∀ k ∈ ks, ∃ y, thr t b.uid sp.m k = some y ∧ y.st = .halted ∧ y.pc = x.pc) ∧
            ∀ k, ks.head? = some k → (thr t b.uid sp.m k).map (·.stop) = some (some ⟨trapOf err, 0⟩)) ∧
        (checkWords hd.cls sp.vcount 16 [] ws = none →
          ∃ t, exec (.clauseIssue core spid slot) s = .next t ∧
            (∀ k y, st s k = some y → (∀ w, y.1 ≠ .parked (.tokens w)) →
              st t k = some (if k ∈ ks ∧ k ∉ pass then (.ready, npc) else y)) ∧
            (pass = [] → t.run = s.run ∧ t.runs = s.runs) ∧
            (pass ≠ [] → t.runs = (if s.run.active then s.runs ++ [s.run] else s.runs) ∧
              t.run = { active := true, blk := b.uid, m := sp.m, hdr := x.pc, base := x.pc, cls := hd.cls, exec := pass, token := hd.token
                        words := ws, cur := [], idx := 0, lat := none, latches := [], npc := npc }) ∧
            ∀ l, s.launch b.launch = some l → l.issued = false → (t.launch b.launch).map (·.start) = some s.devtime)))) ∧
  (∀ (s : State) (u : Nat) (l : Launch) (b : Block) (sp : Spindle) (k pa : Nat) (x : Thread) (c : Ctx),
    s.launch u = some l → l.ended = false → s.blk b.uid = some b → b.launch = u → b.sp sp.m = some sp → sp.threads[k]? = some x →
    let due := (s.devtime : Int) ≥ (l.dl : Int) - l.budget
    let never := (((l.e.drop 3).foldl (· * ·) 1) - l.next) * ((l.e.take 3).foldl (· * ·) 1)
    let held := b.evicted || s.stalled b.core || s.running b.uid sp.m k || s.granted b.core sp.spid
    let still := s.coh.flips = [] ∧ s.coh.pend = [] ∧ (∀ y ∈ s.blocks, y.owned = []) ∧ s.fabric.held = []
    ((l.div = true ∨ l.budget = 0 ∨ ¬due) → exec (.divert u) s = .next s) ∧
    (l.div = false → l.budget ≠ 0 → due → ∃ t, exec (.divert u) s = .next t ∧
      (t.launch u).map (fun x => (x.div, x.notst, x.fin, x.parted, x.overrun)) = some (true, l.notst + never, l.fin, l.parted, l.overrun) ∧
      ((x.st = .exited ∨ x.st = .stopped) → (thr t b.uid sp.m k).map (fun y => (y.st, y.pc, y.diverted)) = some (x.st, x.pc, x.diverted)) ∧
      ((x.st = .ready ∨ ∃ p, x.st = .parked p) → held = false →
        (thr t b.uid sp.m k).map (fun y => (y.st, y.pc, y.dpc)) =
          some (.ready, if l.pcount ≠ 0 ∧ l.pcount ≤ sp.m then l.cpart else l.ppart, match x.mid with | some m => m.hdr | none => x.pc) ∧
        (thr t b.uid sp.m k).map (fun y => (y.diverted, y.preds, y.rsd, y.rs, y.insys)) = some (true, x.preds, 0, [], false)) ∧
      (x.st = .halted → (thr t b.uid sp.m k).map (fun y => (y.st, y.pc, y.divertDue)) = some (x.st, x.pc, true)) ∧
      (x.st = .ready → held = true →
        (thr t b.uid sp.m k).map (fun y => (y.st, y.pc, y.divertDue, y.finish)) = some (x.st, x.pc, true, s.running b.uid sp.m k && !s.stalledAt b sp k))) ∧
    (s.devtime < l.dl → exec (.deadlineStop u) s = .next s) ∧
    (l.dl ≤ s.devtime →
      let ths := (s.blocks.filter (fun b => b.launch == u)).flatMap (fun b => b.spindles.flatMap (·.threads))
      let n := (ths.filter (fun x => !(x.st == .exited || x.st == .stopped))).length
      ∃ t, exec (.deadlineStop u) s = .next t ∧ (s.run.blk = b.uid → t.run = Run.idle) ∧
        (t.launch u).map (fun x => (x.notst, x.fin, x.parted, x.overrun)) = some (l.notst + never, l.fin, l.parted, l.overrun + n) ∧
        (thr t b.uid sp.m k).map (·.st) = some (if x.st = .exited then .exited else .stopped) ∧
        (l.notst + never + l.fin + l.parted + l.overrun + n = l.e.foldl (· * ·) 1 → l.task = none → s.ctx l.ctx = some c →
          (∀ x ∈ ths, x.st ≠ .halted) → l.halted = false → (∀ o ∈ s.ops, o.kind.rows = false) → still → s.health.unmapped = [] → s.downIn pa 64 = none →
          s.checkAccess c.walker l.recaddr 64 askWrite (fun _ => none) = .ok [(.mem pa, 64)] → pa % 64 = 0 →
          let field (i : Nat) : Nat := leNat (bytesAt t.home (pa + 8 * i) 8)
          (t.launch u).map (·.ended) = some true ∧ field 0 = l.seq.toNat ∧ field 2 = l.fin % 2 ^ 64 ∧ field 3 = l.parted % 2 ^ 64 ∧
          field 4 = (l.notst + never) % 2 ^ 64 ∧ field 5 = (l.overrun + n) % 2 ^ 64 ∧ field 6 = l.start % 2 ^ 64 ∧
          field 7 = s.devtime % 2 ^ 64 ∧ (0 < l.overrun + n → field 1 % 256 = 2)) ∧
        (∀ va op, l.notst + never + l.fin + l.parted + l.overrun + n = l.e.foldl (· * ·) 1 → l.task = none → s.ctx l.ctx = some c →
          (∀ o ∈ s.ops, o.kind.rows = false) → still → (∀ v ∈ s.services, v.record ≠ some u) →
          s.checkAccess c.walker l.recaddr 64 askWrite (fun _ => none) = .error (.service va op) →
          (t.launch u).map (·.ended) = some false ∧ (∃ v ∈ t.services, v.record = some u ∧ v.va = va) ∧ t.due ≠ some (.deadlineStop u))))

/-- R26 to R32, R38, R39, R70, R277 to R279, R374, R375, R388, R395 to R397: blocks are admitted, evicted, readmitted and freed,
allotments granted and given up, sleepers wake, and the slice's period ends. An eviction writes the block's record, a readmission
takes the block from the record's bytes. The second part is the record's layout (R397; the words of each slot at 0x480, the tile
handles' bytes and the part at 0x1100 are a choice: DESIGN CHOICE, log entry 14, and nothing is said of those here), and that
reading a spindle's part gives its registers, barriers and threads back. -/
def Obligations.Scheduling : Prop :=
  (∀ (s t0 : State) (core spid slot : Nat) (b : Block) (sp : Spindle) (x : Thread) (l : Launch) (want cores : List Nat),
    -- sleepers
    (s.spindleAt core spid = some (b, sp) → s.blk b.uid = some b → b.sp sp.m = some sp → sp.threads[slot]? = some x →
      ∃ t, exec (.sleepExpire core spid slot) s = .next t ∧ thr t b.uid sp.m slot =
        some (if ∃ w, x.wake = some w ∧ s.devtime < w then x else { x with wake := none })) ∧
    -- allotments
    (s.acqHead core = some (b, sp) → s.blk b.uid = some b → b.sp sp.m = some sp →
      (s.grantable b sp = false → exec (.allotmentGrant core) s = .next s) ∧
      (s.grantable b sp = true → ∃ t sp', exec (.allotmentGrant core) s = .next t ∧ spn t b.uid sp.m = some sp' ∧ sp'.full = true ∧
        sp'.acq = none ∧ sp'.v.take sp.v.length = sp.v ∧ sp'.v.length = sp.v.length + (sp.vfull - sp.vpro) ∧
        (∀ r ∈ sp'.v.drop sp.v.length, r.tag = .g) ∧ ∀ y ∈ sp'.threads, y.st ≠ .parked .allot)) ∧
    (s.spindleAt core spid = some (b, sp) → s.blk b.uid = some b → b.sp sp.m = some sp →
      ((∃ y ∈ sp.threads, y.st ≠ .exited ∧ y.st ≠ .stopped) → exec (.spindleRelease core spid) s = .next s) ∧
      ((∀ y ∈ sp.threads, y.st = .exited ∨ y.st = .stopped) → s.accBusy b sp = false → sp.full = true →
        ∃ t sp', exec (.spindleRelease core spid) s = .next t ∧ spn t b.uid sp.m = some sp' ∧ sp'.full = false ∧
          sp'.v = sp.v.take sp.vpro ∧ sp'.s = sp.s ∧ sp'.threads = sp.threads)) ∧
    -- blocks
    (s.blk b.uid = some b → b.saveRec = none →
      let gone := ∀ y ∈ s.blocks, y.launch = b.launch → y.gl = b.gl → ∀ p ∈ y.spindles, ∀ q ∈ p.threads, q.st = .exited ∨ q.st = .stopped
      (¬gone ∨ s.blockBusy b.uid = true → exec (.blockFree b.uid) s = .next s) ∧
      (gone → s.blockBusy b.uid = false → ∃ t, exec (.blockFree b.uid) s = .next t ∧
        t.blocks = s.blocks.filter (fun y => y.uid != b.uid) ∧ t.ops = s.ops.filter (fun o => o.blk != b.uid) ∧
        t = { s with blocks := t.blocks, ops := t.ops, launches := t.launches, sched := { s.sched with drawn := false }
                     fabric := { s.fabric with msgs := t.fabric.msgs } } ∧
        ∀ y ∈ s.launches, (y.uid ≠ b.launch ∨ y.ended = false) → y ∈ t.launches)) ∧
    (s.heads .d = [l] → (∀ y ∈ s.launches, s.pending y = true → s.neverFits y = false) → s.admitFree l = true →
      (s.place l []).isSome = true → s.place l want = some cores → l.nparam = 0 →
      (∀ y ∈ s.blocks, y.uid < s.nextId) → s.launch l.uid = some l →
      ∃ t, exec (.blockAdmit want) s = .next t ∧ (t.launch l.uid).map (·.next) = some (l.next + 1) ∧
        (t.blocks.filter (fun y => (s.blk y.uid).isNone)).length = l.blocks ∧
        ∀ y ∈ t.blocks, s.blk y.uid = none → y.launch = l.uid ∧ y.ctx = l.ctx ∧ y.gl = l.next ∧ y.core ∈ cores ∧ y.evicted = false ∧
          y.spindles.length = (l.e[1]?).getD 1 ∧ ∀ p ∈ y.spindles, p.s = l.sregs ∧ p.full = false ∧
            (∀ r ∈ p.v, r = { tag := .u, vals := List.replicate 32 0 }) ∧ p.threads.length = l.e.headD 1 ∧
            ∀ q ∈ p.threads, q.st = .ready ∧ q.pc = l.entry p.m ∧ q.preds = 0 ∧ q.tok = 0 ∧ q.rsd = 0 ∧ q.diverted = false ∧ q.insys = false) ∧
    (s.blk b.uid = some b → (s.blocks.filter (fun y => y.uid == b.uid)).length = 1 → b.evicted = false →
      (∀ y ∈ s.blocks, y.launch = b.launch → y.gl = b.gl → y = b) → (s.ctx b.ctx).map (·.halted) = some true → s.evict b.uid = some t0 →
      exec (.blockEvict [b.uid]) s = .next t0 ∧ (t0.blk b.uid).map (·.evicted) = some true ∧
      ∃ (c : Ctx) (i : Nat) (u : State) (w : Block) (t : State), u.ctx b.ctx = some c ∧ u.saveBlock c i w = some t ∧ t0.mem = t.mem ∧ t0.coh = t.coh ∧
        t0.blk b.uid = some { w with evicted := true, saveRec := some i }) ∧
    (∀ y, s.launches.find? (fun y => s.pending y && s.neverFits y) = some y → (s.launches.filter (fun z => z.uid == y.uid)).length = 1 →
      ∃ t, exec (.blockAdmit want) s = .next t ∧ t.blocks.length = s.blocks.length ∧
        (t.launch y.uid).map (fun z => (z.next, z.notst)) =
          some ((y.e.drop 3).foldl (· * ·) 1, y.notst + (((y.e.drop 3).foldl (· * ·) 1) - y.next) * ((y.e.take 3).foldl (· * ·) 1))) ∧
    (s.blk b.uid = some b → s.launch b.launch = some l → s.wantsBack b = true →
      ((s.dueBack b.ctx = false ∧ (l.cls = .d ∨ s.nextD = none)) ∨ ∃ p ∈ b.spindles, ∃ y ∈ p.threads, y.leaves = true) → (∀ y ∈ s.blocks, y.launch = b.launch → y.gl = b.gl → y = b) →
      (s.blocks.filter (fun y => y.uid == b.uid)).length = 1 → core ∈ (s.gangsFor l.cls).flatMap gangCoresOf → s.putBack l b.uid core = some t0 →
      exec (.blockReadmit b.uid core) s = .next t0 ∧ (t0.blk b.uid).map (fun y => (y.core, y.evicted, y.saveRec)) = some (core, false, none) ∧
      ∀ c i d u, s.ctx b.ctx = some c → b.saveRec = some i → b.sp sp.m = some sp →
        s.readVirt none c (c.recAt i + BitVec.ofNat 64 (0x200 + 0x5600 * sp.m)) 0x5600 = .ok (d, u) →
        let back := sp.restore (fun off n => leNat ((d.drop off).take n))
        (spn t0 b.uid sp.m).map (fun p => (p.v, p.s, p.bars)) = some (back.v, back.s, back.bars)) ∧
    -- the slice
    exec .slicePeriodEnd s = .next (if s.devtime < s.sched.period + 10000000 then s
      else { s with sched := { s.sched with period := s.devtime / 10000000 * 10000000 }, ctxs := s.ctxs.map (fun c => { c with charge := 0 }) })) ∧
  -- the record
  ∀ (s : State) (c : Ctx) (b : Block) (sp : Spindle) (x : Thread) (k n : Nat) (d h : List Byte),
    let lays (d : List Byte) (l : List (Nat × List Byte)) : Prop := ∀ p ∈ l, ∀ j y, p.2[j]? = some y → d[p.1 + j]? = some y
    let at_ (d : List Byte) (off n : Nat) : Nat := leNat ((d.drop off).take n)
    let size (r : VReg) : Nat := match r.tag with | .u => 4 | .a _ _ => 8 | .g => 128
    lays d sp.image → sp.threads[k]? = some x → k < 32 → sp.v.length ≤ 128 → sp.s.length = 64 → sp.bars.length = 8 →
      (∀ r ∈ sp.v, r.vals.length = 32) →
      let pos := 0x1600 + ((sp.v.take n).map size).sum
      let live := ((List.range 32).find? (fun k => !sp.gone k)).getD 0
      at_ d (8 * k) 8 = (match x.mid with | some m => m.hdr | none => x.pc).toNat ∧ at_ d (0x100 + 8 * k) 8 = x.dpc.toNat ∧
      (∀ i v, sp.s[i]? = some v → at_ d (0x200 + 8 * i) 8 = v.toNat) ∧ at_ d (0x400 + 4 * k) 4 = x.preds.toNat ∧
      (∀ i v, sp.bars[i]? = some v → at_ d (0x580 + 4 * i) 4 = v.1.toNat ∧ at_ d (0x5A0 + 4 * i) 4 = v.2.toNat) ∧
      (∀ i v, x.rs[i]? = some v → i < 8 → at_ d (0x600 + 64 * k + 8 * i) 8 = v.toNat) ∧
      at_ d (0xE00 + 24 * k) 8 = x.sysa.toNat ∧ at_ d (0xE08 + 24 * k) 8 = x.sysb.toNat ∧ at_ d (0xE10 + 24 * k) 8 = x.sysret.toNat ∧
      (∀ i l, i < 4 → x.latchOf i = some l → at_ d (0x1200 + 32 * k + 8 * i) 8 = l.val.toNat) ∧
      (∀ r, sp.v[n]? = some r → at_ d 0x5C0 32 / 2 ^ (2 * n) % 4 = (match r.tag with | .u => 0 | .a _ _ => 1 | .g => 2) ∧
        match r.tag with
        | .u => at_ d pos 4 = ((r.vals[live]?).getD 0).toNat
        | .a f g => at_ d pos 4 = f.toNat ∧ at_ d (pos + 4) 4 = g.toNat
        | .g => ∀ i v, r.vals[i]? = some v → at_ d (pos + 4 * i) 4 = v.toNat) ∧
      -- and back
      (let back := sp.restore (at_ d)
       let kept (y : Thread) : Prop := y.rsd < 256 ∧ y.rs.length ≤ 8 ∧
        ∀ m, y.mid = some m → m.idx < 256 ∧ m.latches.length ≤ 4
       back.s = sp.s ∧ back.bars = sp.bars ∧ (sp.threads.length ≤ 32 → (∀ y ∈ sp.threads, kept y) → back.threads = sp.threads) ∧
       ∀ r, sp.v[n]? = some r → (∀ i, sp.gone i = false → i < 32 → match r.tag with
          | .u => r.vals[i]? = r.vals[live]?
          | .a f g => r.vals[i]? = some (f + BitVec.ofNat 32 i * g)
          | .g => True) →
        ∃ q, back.v[n]? = some q ∧ q.tag = r.tag ∧ ∀ i, i < 32 → sp.gone i = false → q.vals[i]? = r.vals[i]?) ∧
      -- outside the spindles
      (lays h ((0, s.headImage b) :: b.image c) →
        at_ h 0 8 = 1 ∧ at_ h 8 8 = (s.seqOf b).toNat ∧ at_ h 16 8 = b.wid.toNat ∧ at_ h 24 8 = b.spindles.length % 2 ^ 64 ∧
        at_ h 32 8 = b.lsize % 2 ^ 64 ∧ at_ h 40 8 = (b.spindles.map (·.afull)).sum % 2 ^ 64 ∧ at_ h 48 8 = s.devtime % 2 ^ 64 ∧
        (∀ a, a < b.lsize → h[0xA_D000 + a]? = some (b.lbyte a)) ∧
        (∀ i, i < b.lsize / 128 →
          ((h[0xA_D000 + c.desc.qlocal * 0x1_0000 + i / 8]?).map (fun y => y.getLsbD (i % 8))) = some (b.present i) ∧
          h[0xA_D000 + c.desc.qlocal * 0x1_0000 + 64 * c.desc.qlocal + i]? = some (BitVec.ofNat 8 (b.fillCount i))) ∧
        ∀ i, i < (b.spindles.map (·.afull)).sum →
          at_ h (0xA_D000 + c.desc.qlocal * 0x1_1000 + 32 * i) 32 = (b.accWord i).w.toNat ∧
          h[0xA_D000 + c.desc.qlocal * 0x1_1000 + c.desc.qacc * 0x2_0000 + i]? = some (b.accWord i).carry)

/-! Services, the mailbox and the end of a halt. -/

/-- R399, R400, R415, R417: the mailbox: a message is written to ring TH while it has room, with the layout of the manual,
and counted; a message of ring TD is consumed and answered.

Readings and choices of the model: a reply of a status other than 0 is a REJECT (DEDUCED, log entry 47); ATTEST's address is a host
physical address, with the bound of host memory (DEDUCED, log entry 46); CORE_FAILED and UNCORR wait in lists for space on the ring
(DESIGN CHOICE, log entry 48); without firmware no message is sent or taken (DEDUCED, log entry 49). -/
def Obligations.Mailbox : Prop :=
  ∀ (s : State) (core line i : Nat) (v : Service) (d : List Byte) (w : BitVec 16),
    let size := 2 ^ (s.mail.log2n + 4)
    let host := 0x8_0000_0000_0000
    let th := host + s.mail.base.toNat + 64 * (s.mail.thprod.toNat % size)
    let td := host + s.mail.base.toNat + 64 * size + 64 * (s.mail.tdcons.toNat % size)
    let room := (s.mail.thprod - s.mail.thcons).toNat < size
    let plain := s.coh.flips = [] ∧ s.health.unmapped = [] ∧ s.coh.pend = [] ∧ (∀ b ∈ s.blocks, b.owned = []) ∧ s.coh.device = [] ∧ s.mail.base.toNat % 64 = 0
    let byte (t : State) (k n : Nat) : Nat := leNat (bytesAt t.home (th + k) n)
    -- a message of a type, status, tag, context, address and detail
    let sent (t : State) (typ status tag ctx addr detail : Nat) : Prop :=
      t.mail.thprod = s.mail.thprod + 1 ∧ .msix ∈ t.out ∧ (plain → byte t 0 1 = typ ∧ byte t 1 1 = status ∧ byte t 4 4 = tag % 2 ^ 32 ∧
        byte t 8 8 = ctx ∧ byte t 16 8 = addr ∧ byte t 24 8 = detail)
    let take (k n : Nat) : Nat := leNat ((d.drop k).take n)
    (s.services.find? (fun v => v.core == core && !v.sent) = some v →
      (¬room ∨ s.firmware = false → exec (.fault core) s = .next s) ∧
      (room → s.firmware = true → v.ctx < 2 ^ 64 → ∃ t, exec (.fault core) s = .next t ∧
        sent t 1 0 v.tag v.ctx v.va.toNat (v.write.toNat + 2 * v.fetch.toNat) ∧
        t.services = s.services.map (fun x => if x.tag = v.tag then { x with sent := true } else x))) ∧
    (core ∈ s.mail.failedDue → core < 2 ^ 64 → room → s.firmware = true → ∃ t, exec (.coreFailed core) s = .next t ∧ sent t 3 0 0 0 0 core ∧
      t.mail.failedDue = s.mail.failedDue.erase core) ∧
    (line ∈ s.mail.uncorrDue → 128 * line < 2 ^ 64 → room → s.firmware = true → ∃ t, exec (.uncorr line) s = .next t ∧ sent t 4 0 0 0 (128 * line) 0 ∧
      t.mail.uncorrDue = s.mail.uncorrDue.erase line) ∧
    ((core ∉ s.mail.failedDue ∨ ¬room ∨ s.firmware = false) → exec (.coreFailed core) s = .next s) ∧
    ((line ∉ s.mail.uncorrDue ∨ ¬room ∨ s.firmware = false) → exec (.uncorr line) s = .next s) ∧
    exec (.tdprod w) s = .next (if s.boot.state = 7 then s else { s with mail := { s.mail with tdprod := w } }) ∧
    exec (.thcons w) s = .next (if s.boot.state = 7 then s else { s with mail := { s.mail with thcons := w } }) ∧
    -- ring TD
    (s.mail.tdprod = s.mail.tdcons ∨ s.firmware = false → exec .faultReply s = .next s ∧ exec .attest s = .next s ∧ exec .unknownTdMessage s = .next s) ∧
    (s.mail.tdprod ≠ s.mail.tdcons → s.firmware = true → plain → d = bytesAt s.home td 64 →
      (take 0 1 = 0x81 →
        ((∀ x ∈ s.services, x.sent = true → x.tag % 2 ^ 32 ≠ take 4 4) →
          ∃ t, exec .faultReply s = .next t ∧ t.mail.tdcons = s.mail.tdcons + 1 ∧ t.services = s.services) ∧
        (s.services.find? (fun x => x.sent && x.tag % 2 ^ 32 == take 4 4) = some v → ∃ s1, Traffic s s1 ∧
          exec .faultReply s = .next (({ s1 with mail := { s1.mail with tdcons := s1.mail.tdcons + 1 } }).endService v (take 1 1 == 0)))) ∧
      (take 0 1 ≠ 0x81 → exec .faultReply s = .next s) ∧
      (take 0 1 ≠ 0x81 → take 0 1 ≠ 2 → room → ∃ t, exec .unknownTdMessage s = .next t ∧ t.mail.tdcons = s.mail.tdcons + 1 ∧
        sent t 0xFF 0 (take 4 4) 0 0 0) ∧
      (take 0 1 = 2 → room →
        let a := take 16 8
        let pub := Config.ed25519Public s.boot.aliasSeed
        let certs := Config.aliasCert pub s.boot.idPub s.boot.aliasSig ++ Config.identityCert s.boot.idPub
        (2 ^ 50 < a + 0x300 + certs.length → ∃ t, exec .attest s = .next t ∧ t.mail.tdcons = s.mail.tdcons + 1 ∧ sent t 0x82 1 (take 4 4) 0 0 0) ∧
        (a + 0x300 + certs.length ≤ 2 ^ 50 → ∃ t, exec .attest s = .next t ∧ t.mail.tdcons = s.mail.tdcons + 1 ∧
          sent t 0x82 0 (take 4 4) 0 0 0 ∧
          ((th + 64 ≤ host + a ∨ host + a + 0x300 + certs.length ≤ th) → a % 128 = 0 → s.boot.meas.length = 8 →
            let at_ (k n : Nat) := bytesAt t.home (host + a + k) n
            at_ 0 32 = (d.drop 32).take 32 ∧ leNat (at_ 0x20 8) = Config.archrev.toNat ∧ leNat (at_ 0x28 8) = Config.sfrev.toNat ∧
            leNat (at_ 0x30 8) = s.pkgcfg.toNat ∧ leNat (at_ 0x38 8) = (s.reg 0x30_0100).toNat ∧
            (∀ m, s.boot.meas[i]? = some m → leNat (at_ (0x40 + 64 * i) 64) = m.toNat) ∧
            leNat (at_ 0x240 32) = pub.toNat ∧
            leNat (at_ 0x260 64) = (Config.ed25519Sign s.boot.aliasSeed (at_ 0 0x260)).toNat ∧
            at_ 0x300 certs.length = certs))))

/-- R36, R43, R387, R389, R390: a service ends: its core goes on, and a thread whose page was rejected takes a halting fault
of cause TRANSLATION at the instruction that met it; once no clause of a halting context runs, its stopped threads and engines
leave their records, numbered and counted, the context is HALTED and its queues are disabled. The last parts give what a record
holds and where it is written. With STOPBASE 0 nothing is written and STOPCNT reads 0 (DEDUCED, log entry 31). -/
def Obligations.ServicesAndHalts : Prop :=
  (∀ (s : State) (core n : Nat) (v : Service) (b : Block) (sp : Spindle) (r : Run) (c : Ctx) (k : Nat),
    (s.services.find? (fun x => x.core == core) = some v → v.queue = none → v.record = none →
      (∀ h ∈ s.fabric.heldIn, h.tag ≠ v.tag) → (s.services.filter (fun x => x.tag == v.tag)).length = 1 →
      ({ s with services := s.services.filter (fun x => x.tag != v.tag) }).spindleAt core v.spid = some (b, sp) →
      s.blk b.uid = some b → b.sp sp.m = some sp → b.core = core → v.slots ≠ [] →
      s.stalledRun v = some r → r.blk = b.uid → r.m = sp.m → (∀ x ∈ sp.threads, x.divertDue = false) →
      (∀ b ∈ s.blocks, ∀ p ∈ b.spindles, ∀ x ∈ p.threads, x.divertDue = false) →
      (∃ t, exec (.serviceComplete core true) s = .next t ∧ t.services = s.services.filter (fun x => x.tag != v.tag) ∧ t.runs = s.runs ∧
        t.run = s.run ∧ (t.ctx b.ctx).map (·.halting) = (s.ctx b.ctx).map (·.halting)) ∧
      (s.ctx b.ctx = some c → c.halting = false → c.halted = false → v.slot = k → k ∈ r.exec → k < sp.threads.length →
        (∀ q ∈ s.run :: s.runs, q ≠ r → q.blk = b.uid → q.m = sp.m → k ∉ q.exec) → s.runs.count r = 1 → s.run ≠ r →
        ∃ t, exec (.serviceComplete core false) s = .next t ∧ (∀ x ∈ t.services, x.tag ≠ v.tag) ∧ r ∉ t.runs ∧
          (t.ctx b.ctx).map (fun c => (c.halting, c.cause)) = some (true, .translation) ∧
          (thr t b.uid sp.m k).map (fun x => (x.st, x.stop)) = some (.halted, some ⟨.translation, v.va⟩))) ∧
    (s.ctx n = some c →
      let busy := ∃ q ∈ s.run :: s.runs, q.active = true ∧ (s.blk q.blk).map (·.ctx) = some n
      (c.halting = false ∨ busy → exec (.stopRecords n) s = .next s) ∧
      (c.halting = true → ¬busy → c.dying = false → ∃ t, exec (.stopRecords n) s = .next t ∧
        (t.ctx n).map (fun c => (c.halted, c.halting, c.cause)) = some (true, false, c.cause) ∧
        (∀ q ∈ t.queues, q.ctx = n ∨ q.ctxid = n → q.en = false) ∧ (∀ x ∈ t.engStops, x.ctx ≠ n) ∧ t.xlat.busy ≠ some n ∧
        ((∀ o ∈ s.ops, o.kind.rows = false) →
          let recs := (s.stopList n).map (·.2) ++ (s.engStops.filter (fun x => x.ctx == n)).map EngStop.record
          let ks := (s.putStops c recs 0).2
          (∀ y ∈ s.blocks, y.ctx = n → y.evicted = false → ∀ p ∈ y.spindles, ∀ i x, p.threads[i]? = some x → x.st = .halted →
            ((y.uid, p.m, i), x.stopRecord y.core p.spid i) ∈ s.stopList n) ∧ ks.length = recs.length ∧
          (t.ctx n).map (fun c => (c.stopcnt, c.stopdrop)) =
            some (min 65535 (ks.filter (·.isSome)).length, ks.any (·.isNone)) ∧
          ∀ (i y p j : Nat), (s.stopList n)[i]? = some ((y, p, j), (recs[i]?).getD []) → ((s.stopList n).map (·.1)).Nodup →
            (thr s y p j).isSome = true → (thr t y p j).map (·.stopRec) = some ((ks[i]?).join)) ∧
        (c.desc.stopbase = 0 → (t.ctx n).map (·.stopcnt) = some 0 ∧ ((∀ o ∈ s.ops, o.kind.rows = false) → t.mem = s.mem))) ∧
      (c.halting = true → ¬busy → c.dying = true → ∃ t, exec (.stopRecords n) s = .next t ∧
        ((∀ l ∈ s.launches, l.ctx = n → l.ended = true) → CtxGone t n) ∧ (CtxGone t n ∨ ∃ l ∈ t.launches, l.ctx = n ∧ l.ended = false))) ∧
    -- where a record is written
    ∀ (d : List Byte) (pa j : Nat), d.length = 64 → c.desc.stopbase ≠ 0 → j < 2 ^ (c.desc.stoplog2 + 8) →
      let va := c.desc.stopbase + BitVec.ofNat 64 (64 + 64 * j)
      (s.walked c.walker va 64).checkAccess c.walker va 64 askWrite (fun _ => none) = .ok [(.mem pa, 64)] → s.downIn pa 64 = none →
      ∃ u, s.putStops c [d] j = (u, [some j]) ∧ (pa % 64 = 0 → s.health.unmapped = [] → bytesAt u.home pa 64 = d)) ∧
  -- what it holds
  (∀ (x : Thread) (core spid slot i : Nat), core < 256 → spid < 256 → slot < 32 → ((x.mid.map (·.idx)).getD 0) < 16 → i < 4 →
    let d := x.stopRecord core spid slot
    let tag (l : LatchVal) : Nat := match l.tag with | .u => 0 | .a _ _ => 1 | .g => 2
    d.length = 64 ∧ bitsOf d 0 64 = (match x.mid with | some m => m.hdr | none => x.pc).toNat ∧ bitsOf d 64 5 = slot ∧
    bitsOf d 69 11 = 0 ∧ bitsOf d 80 8 = core ∧ bitsOf d 88 8 = spid ∧ bitsOf d (96 + 2 * i) 2 = ((x.latchOf i).map tag).getD 0 ∧
    bitsOf d (104 + i) 1 = (x.latchOf i).isSome.toNat ∧ bitsOf d 108 4 = (x.mid.map (·.idx)).getD 0 ∧
    bitsOf d 112 8 = (x.stop.map (fun y => y.cause.code)).getD 0 ∧ bitsOf d 120 8 = 1 ∧
    bitsOf d 128 64 = (x.stop.map (fun y => y.detail.toNat)).getD 0 ∧ bitsOf d 192 64 = 0 ∧
    bitsOf d (256 + 64 * i) 64 = ((x.latchOf i).map (fun l => l.val.toNat)).getD 0) ∧
  ∀ x : EngStop, x.core < 256 → x.spid < 256 → x.state < 4 → x.engine < 256 → x.amount < 2 ^ 64 →
    let d := x.record
    d.length = 64 ∧ bitsOf d 0 64 = x.hdr.toNat ∧ bitsOf d 64 16 = 0 ∧ bitsOf d 80 8 = x.core ∧ bitsOf d 88 8 = x.spid ∧
    bitsOf d 96 6 = 0 ∧ bitsOf d 102 2 = x.state ∧ bitsOf d 104 8 = x.engine ∧ bitsOf d 112 8 = x.cause.code ∧ bitsOf d 120 8 = 2 ∧
    bitsOf d 128 64 = x.detail.toNat ∧ bitsOf d 192 64 = x.amount ∧ bitsOf d 256 256 = 0

/-! The host's requests, bias and errors. -/

/-- R110, R115, R139, R399, R403 to R408, R428, R429, R432: a host request to offered memory under host bias is served at
the home, one under device bias starts a flip or is turned away, one behind a flip waits for it; snoops and acknowledgements
make stores visible; a line in error is recorded, and a retired frame leaves the map. Before the firmware has brought up the
upstream ports every request is turned away (R409), and so it is in MINIMAL (DEDUCED, log entry 49). That the held requests of a
completed flip come ahead of all later ones, as turns of the agenda where AUTOFLIP is 0, is the model's reading (DEDUCED, log
entry 51). -/
def Obligations.HostRequests : Prop :=
  ∀ (s : State) (r : HostReq) (pg line die port : Nat) (d : List Byte) (f : Flip) (w : Dword) (q : HostWinReq) (o : Operator) (inv : Bool),
    let n := if r.write then r.data.length else r.len
    let go := exec (.hostMemRequest r) s
    let inside (p : Nat) : Prop := r.pa / 4096 ≤ p ∧ p ≤ (r.pa + n - 1) / 4096
    let abort : Out := .next { s with out := s.out ++ [.hostAbort r] }
    let still (p : Nat) : Prop := ∀ f ∈ s.coh.flips, f.page ≠ p
    let plain := (∀ b ∈ s.blocks, b.owned = []) ∧ s.coh.pend = [] ∧ s.health.unmapped = []
    let next : State := { s with nextId := s.nextId + 1 }
    -- bed memory
    (s.boot.upstream = false ∨ s.boot.state = 7 ∨ n = 0 ∨ s.offered r.pa n = false → go = abort) ∧
    (s.boot.upstream = true → s.boot.state ≠ 7 → n ≠ 0 → s.offered r.pa n = true →
      ((∀ p, inside p → still p ∧ p ∈ s.coh.hostBias) → ∃ t, go = .next t ∧ Traffic next t ∧
        (r.write = true → .hostDone r ∈ t.out ∧ (plain → ∀ a, t.home a =
          if r.pa ≤ a ∧ a < r.pa + n then (r.data[a - r.pa]?).getD 0 else s.home a)) ∧
        (r.write = false → (s.badIn r.pa n = none → plain → .hostData r (bytesAt s.home r.pa n) ∈ t.out ∧ ∀ a, t.home a = s.home a) ∧
          (s.badIn r.pa n ≠ none → .hostError r ∈ t.out))) ∧
      ((∀ p, inside p → still p) → (∃ p, inside p ∧ p ∉ s.coh.hostBias) →
        if s.coh.autoflip then ∃ p t, inside p ∧ p ∉ s.coh.hostBias ∧ go = .next t ∧
          t = { next with coh := { s.coh with flips := s.coh.flips ++ [{ page := p, toHost := true, cmd := false, held := [(s.nextId, r)] }] } }
        else ∃ t, go = .next t ∧ .hostAbort r ∈ t.out ∧ (s.coh.flips = [] → t.coh.hostBias = s.coh.hostBias)) ∧
      ((∃ p, inside p ∧ ¬still p) → ∃ t p, go = .next t ∧ t = { next with coh := { s.coh with flips := t.coh.flips } } ∧
        inside p ∧ t.coh.flips.map (fun f => (f.page, f.toHost)) = s.coh.flips.map (fun f => (f.page, f.toHost)) ∧
        ∃ f ∈ t.coh.flips, f.page = p ∧ (s.nextId, r) ∈ f.held)) ∧
    -- flips
    (s.coh.flips = [f] → f.page = pg → (∀ x ∈ f.held, hostPages x.2 = [pg]) → (f.held.map (·.1)).Pairwise (· < ·) →
      ∃ t, exec (.flipComplete pg) s = .next t ∧ Traffic s t ∧
      (f.toHost = true → pg ∈ t.coh.hostBias ∧ t.coh.flips = [] ∧ (∀ i, plain → f.held = [(i, r)] → r.write = false → n ≠ 0 →
        s.badIn r.pa n = none → .hostData r (bytesAt s.home r.pa n) ∈ t.out)) ∧
      (f.toHost = false → pg ∉ t.coh.hostBias ∧
        (s.coh.autoflip = true → t.coh.flips =
          if f.held = [] then [] else [{ page := pg, toHost := true, cmd := false, held := f.held }]) ∧
        (s.coh.autoflip = false → t.coh.flips = [] ∧
          t.agenda = f.held.map (fun x => Turn.event (.hostMemRequest x.2)) ++ s.agenda))) ∧
    (let page := w.toNat % 2 ^ 52 / 4096
     let toHost := w.getLsbD 62
     s.boot.state ≠ 7 → (∀ f ∈ s.coh.flips, f.cmd = false) → ∃ t, exec (.biasFlipCommand w) s = .next t ∧
      t = { s with coh := t.coh } ∧ t.coh.hostBias = s.coh.hostBias ∧
      (s.offered (4096 * page) 4096 = false → t.coh.biasErr = true ∧ t.coh.flips = s.coh.flips) ∧
      (s.offered (4096 * page) 4096 = true →
        (still page → (toHost = true ↔ page ∈ s.coh.hostBias) → t.coh.flips = s.coh.flips) ∧
        (¬(toHost = true ↔ page ∈ s.coh.hostBias) →
          t.coh.flips = s.coh.flips ++ [{ page := page, toHost := toHost, cmd := true, held := [] }]))) ∧
    ((∃ f ∈ s.coh.flips, f.cmd = true) → s.boot.state ≠ 7 → exec (.biasFlipCommand w) s = .next s) ∧
    -- operator windows
    (s.operator q.op.toNat = none → exec (.hostWindowRequest q) s = .next { s with out := s.out ++ [.winAbort q] }) ∧
    (s.operator q.op.toNat = some o →
      let may := (match q.kind with | .load _ _ => q.permR | _ => q.permW) && o.bound && o.mayDo (.host q.pasid) q.kind && o.fits q.kind
      (may = false → ∃ t, exec (.hostWindowRequest q) s = .next t ∧ .winAbort q ∈ t.out ∧ t.operators = s.operators) ∧
      (s.boot.upstream = true → may = true → (o.resident = false ∨ o.waiting ≠ [] ∨ ¬Serves s o.unit o.owner) → o.num = q.op.toNat →
        ∃ t, exec (.hostWindowRequest q) s = .next t ∧
          (t.operator o.num).map (·.waiting) = some (o.waiting ++ [.event (.hostWindowRequest q)])) ∧
      (s.boot.upstream = true → may = true → o.resident = true → o.waiting = [] → Serves s o.unit o.owner →
        (∀ a b, q.kind ≠ .load a b) → ∃ t, exec (.hostWindowRequest q) s = .next t ∧ .winDone q ∈ t.out)) ∧
    -- snoops
    (pclass (128 * line) = .host → d.length = 128 → ∃ t, exec (.hostCxlCacheSnoop line (some d) inv) s = .next t ∧ Traffic s t ∧
      (∀ c ∈ t.coh.l1, c.line ≠ line) ∧ (s.health.unmapped = [] → bytesAt t.home (128 * line) 128 = d)) ∧
    (pclass (128 * line) = .host → ∃ t, exec (.hostCxlCacheSnoop line none inv) s = .next t ∧ Traffic s t ∧
      (inv = true → ∀ c ∈ t.coh.l1, c.line ≠ line) ∧ (∀ p ∈ t.coh.pend, lineOf p.pa ≠ line)) ∧
    (s.hdmH line = true → exec (.downstreamBackInvalidate line (some d)) s = .next s) ∧
    (∀ n, pclass (128 * line) = .stock n → s.hdmH line = false → d.length = 128 → ∃ t, exec (.downstreamBackInvalidate line (some d)) s = .next t ∧ Traffic s t ∧
      (∀ b ∈ t.blocks, ∀ x ∈ b.owned, x.2 ≠ line) ∧ (s.health.unmapped = [] → bytesAt t.home (128 * line) 128 = d)) ∧
    (∃ t, exec (.directoryAcknowledgement die line) s = .next t ∧ Traffic s t ∧ (∀ p ∈ t.coh.pend, ¬(p.die = die ∧ lineOf p.pa = line)) ∧
      (s.health.unmapped = [] → (∀ p ∈ s.coh.pend, p.die = die) → (∀ p ∈ s.coh.pend, p.pa % 128 + p.data.length ≤ 128) →
        ∀ a, t.view (some die) a = s.view (some die) a ∧ (a / 128 = line → t.home a = s.view (some die) a))) ∧
    -- errors
    (port < 8 → port ∉ s.health.downPorts → exec (.linkDown port) s = .next { s with health := { s.health with downPorts := port :: s.health.downPorts } }) ∧
    (line ∈ s.health.errMap → exec (.uncorrectableError line) s = .next s) ∧
    (line ∉ s.health.errMap →
      let room := (s.health.errMap.filter (fun l => pclass (128 * l) == pclass (128 * line))).length < 4096
      ∃ t, exec (.uncorrectableError line) s = .next t ∧
        (room → t.health.errMap = s.health.errMap ++ [line] ∧ t.mail.uncorrDue = s.mail.uncorrDue ++ [line]) ∧
        (¬room → t.health.errMap = s.health.errMap ∧ line ∈ t.health.lostErrs ∧ t.mail = s.mail ∧ t.out = s.out) ∧
        (line / 512 ∉ s.health.unmapped → t.badLine line = true)) ∧
    (∃ t, exec (.correctedError line) s = .next t ∧ t.health.corrected = s.health.corrected + 1 ∧ t.health.errMap = s.health.errMap) ∧
    (let fr := w.toNat / 2 ^ 16 % 2 ^ 36
     ∀ n, pclass (0x10000 * fr) = .bed n → s.boot.state ≠ 7 → ∃ t, exec (.retire w) s = .next t ∧ t = { s with health := t.health } ∧
      t.health.errMap = s.health.errMap.filter (fun l => l / 512 != fr) ∧ fr ∈ t.health.unmapped)

/-! Contexts, time and health. -/

/-- R286, R365, R381, R383, R386, R389, R391, R392: the driver's commands: a command is ignored while another runs or in a
state its row does not name; DEFINE and RELOAD read the descriptor, HALT raises the halt line with cause 0x0D, RESUME lets
threads run on, DESTROY frees everything the context holds. An invalidation is done once no access translated before it is
left and no posted window request of the context waits for its operator. Commands do nothing without firmware, and CTXSTAT's
fields outlive a DESTROY until the next halt (DEDUCED, log entry 49); a write of TINVCTL while an invalidation runs is ignored
(DEDUCED, log entry 52). -/
def Obligations.ContextCommands : Prop :=
  ∀ (s : State) (n : Nat) (c : Ctx) (d : Desc) (w : Dword) (b : Block) (sp : Spindle) (k : Nat) (x : Thread),
    let cmds : List Instr := [.define n, .reload n, .halt n, .resume n, .destroy n]
    let named : State := { s with xlat := { s.xlat with ctxcmd := BitVec.ofNat 12 n } }
    let plain := s.coh.flips = [] ∧ s.health.unmapped = [] ∧ s.coh.pend = [] ∧ s.coh.device = [] ∧ ∀ b ∈ s.blocks, b.owned = []
    let old := s.freed.find? (fun c => c.id == n)
    let raw := bytesAt s.home (s.xlat.ctxtab.toNat + 128 * n) 128
    (s.xlat.busy ≠ none ∨ 4096 ≤ n ∨ s.firmware = false → ∀ i ∈ cmds, exec i s = .next s) ∧
    (s.xlat.busy = none → n < 4096 → s.firmware = true →
      (s.ctx n = none → ∀ i ∈ ([.reload n, .halt n, .resume n, .destroy n] : List Instr), exec i s = .next named) ∧
      (s.ctx n = none → plain →
        (readDesc raw = none → ∃ t, exec (.define n) s = .next t ∧ t.ctxs = s.ctxs) ∧
        (readDesc raw = some d → ∃ t, exec (.define n) s = .next t ∧ Traffic named { t with ctxs := named.ctxs, freed := named.freed } ∧
          t.freed = s.freed.filter (fun c => c.id != n) ∧
          t.ctxs = s.ctxs ++ [{ id := n, halted := false, halting := false, dying := false, cause := (old.map (·.cause)).getD .stopped, desc := d
                                alogmask := d.ceil, logdrops := (old.map (·.logdrops)).getD 0, stopcnt := (old.map (·.stopcnt)).getD 0
                                stopdrop := (old.map (·.stopdrop)).getD false, prodA := 0, prodE := 0, msgs := 0, charge := 0 }] ∧
          d.sysvec.toNat = leNat ((raw.drop 72).take 8) ∧ d.savebase.toNat = leNat ((raw.drop 32).take 8) ∧
          d.slice = leNat ((raw.drop 28).take 4) ∧ d.parklim = leNat ((raw.drop 26).take 2) ∧ d.root % 2 ^ 11 = 0 ∧ raw.headD 0 = 1 ∧
          d.sysvec.toNat % 4 = 0 ∧ d.savebase.toNat % 4096 = 0 ∧ 1 ≤ d.qcores ∧ d.qcores ≤ 256 ∧ 1 ≤ d.qvreg ∧ d.qvreg ≤ 32)) ∧
      (s.ctx n = some c →
        exec (.define n) s = .next named ∧
        (plain → readDesc raw = some d → ∃ t, exec (.reload n) s = .next t ∧ t.ctx n = some { c with
          alogmask := c.alogmask &&& d.ceil
          desc := { d with root := c.desc.root, domain := c.desc.domain, savebase := c.desc.savebase, savecnt := c.desc.savecnt } }) ∧
        (plain → readDesc raw = none → ∃ t, exec (.reload n) s = .next t ∧ t.ctxs = s.ctxs) ∧
        (c.halted = true ∨ c.halting = true → exec (.halt n) s = .next named) ∧
        (c.halted = false → c.halting = false → ∃ t, exec (.halt n) s = .next t ∧ t.xlat.busy = some n ∧
          (t.ctx n).map (fun c => (c.halting, c.cause)) = some (true, .driver) ∧
          (s.blk b.uid = some b → b.ctx = n → b.evicted = false → b.sp sp.m = some sp → sp.threads[k]? = some x → x.st = .ready →
            s.running b.uid sp.m k = false → (thr t b.uid sp.m k).map (fun y => (y.st, y.pc)) = some (.halted, x.pc))) ∧
        (c.halted = false → exec (.resume n) s = .next named) ∧
        (c.halted = true → ∃ t, exec (.resume n) s = .next t ∧ (t.ctx n).map (fun c => (c.halted, c.halting)) = some (false, c.halting) ∧
          (s.blk b.uid = some b → b.ctx = n → b.evicted = false → b.sp sp.m = some sp → sp.threads[k]? = some x → x.st = .halted →
            x.divertDue = false → x.before = .ready →
            (thr t b.uid sp.m k).map (fun y => (y.st, y.pc, y.stop)) = some (.ready, x.pc, none))) ∧
        (c.halted = true → ∃ t, exec (.destroy n) s = .next t ∧
          ((∀ l ∈ s.launches, l.ctx = n → l.ended = true) → CtxGone t n) ∧
          (CtxGone t n ∨ ∃ l ∈ t.launches, l.ctx = n ∧ l.ended = false)) ∧
        (c.halted = false → c.halting = false → ∃ t, exec (.destroy n) s = .next t ∧ t.xlat.busy = some n ∧
          (t.ctx n).map (fun c => (c.halting, c.dying, c.cause)) = some (true, true, .driver)))) ∧
    (s.xlat.tinvBusy = true → exec (.tinvctl w) s = .next s) ∧
    (s.xlat.tinvBusy = false → exec (.tinvctl w) s = .next (if s.boot.state = 7 then s
      else { s with xlat := { s.xlat with tinvctl := w &&& 0x0000_FFFF_FFFF_1FFF, tinvBusy := true } })) ∧
    (s.xlat.tinvBusy = false → exec .tinvDone s = .next s) ∧
    (s.xlat.tinvBusy = true →
      let m := s.xlat.tinvctl.toNat % 2 ^ 12
      let all := s.xlat.tinvctl.getLsbD 12
      let cnt := s.xlat.tinvctl.toNat / 2 ^ 16 % 2 ^ 32
      let lo := s.xlat.tinvaddr.toNat / 2 ^ 16 * 2 ^ 16
      let left := (∃ o ∈ s.ops, o.ctx = m ∧ o.kind.translated = true ∧
          (s.saved o.blk = false ∨ ∀ i l r z g v c, o.kind ≠ .resultLoad i l r z g v c)) ∨
        (∃ h ∈ s.fabric.held, h.x.key.ctx = m) ∨ ∃ x ∈ s.fabric.outst, x.key.ctx = m
      (all = false → cnt = 0 → exec .tinvDone s = .next { s with xlat := { s.xlat with tinvBusy := false } }) ∧
      (all = true ∨ cnt ≠ 0 →
        (left → exec .tinvDone s = .next s) ∧
        (¬left → ∃ t, exec .tinvDone s = .next t ∧ (t.xlat.tinvBusy = false ↔ ∀ p ∈ t.posted, p.agent ≠ .ctx m) ∧
          ((∀ p ∈ s.posted, p.agent ≠ .ctx m) → t.posted = s.posted ∧ t.operators = s.operators) ∧
          ∀ x ∈ t.coh.tlb, x.ctx = m → all = false ∧
            let base := x.va.toNat / 2 ^ x.page.log2 * 2 ^ x.page.log2
            lo + 2 ^ 16 * cnt ≤ base ∨ base + 2 ^ x.page.log2 ≤ lo)))

/-- R280, R418 to R421: the servo's states, the master's currentUtcOffset, which is reported and moves nothing, and the steps of
DEVTIME: a STEP is refused while an accepted launch is open (R421); the one step at the first lock after reset is made as the
servo leaves FREERUN, before any launch has been accepted (DEDUCED, log entry 50). In boot state 7 register writes do nothing
(R412). -/
def Obligations.Timekeeping : Prop :=
  ∀ (s : State) (off : Int) (tr : Bool) (w : Dword),
    let sat := max (-(2 ^ 31 : Int)) (min (2 ^ 31 - 1) off)
    let is (t : State) (f : Ptp → Ptp) (dt : Int) : Prop := t.devtime = dt.toNat ∧ t.ptp = f { s.ptp with offset := sat, trace := tr } ∧
      { t with devtime := s.devtime, ptp := s.ptp } = s
    let now : Int := s.devtime
    (s.ptp.en = false → exec (.sync off tr) s = .next s) ∧
    (s.ptp.en = true →
      (s.ptp.st = .freerun → ∃ t, exec (.sync off tr) s = .next t ∧
        if s.ptp.first = true ∧ s.sched.accepted = false then is t (fun p => { p with st := .locking, good := 0, first := false }) (now - off)
        else is t (fun p => { p with st := .locking, good := 0 }) now) ∧
      (s.ptp.st = .locking → ∃ t, exec (.sync off tr) s = .next t ∧
        if off.natAbs < 100 then
          (if 15 ≤ s.ptp.good then is t (fun p => { p with st := .locked, good := s.ptp.good + 1, first := false }) now
           else is t (fun p => { p with good := s.ptp.good + 1 }) now)
        else is t (fun p => { p with good := 0 }) now) ∧
      (s.ptp.st = .locked → tr = true ∨ s.ptp.trace = false → ∃ t, exec (.sync off tr) s = .next t ∧ is t id now) ∧
      (s.ptp.st = .locked → tr = false → s.ptp.trace = true → ∃ t, exec (.sync off tr) s = .next t ∧ t.ptp.st = .holdover ∧ t.devtime = s.devtime) ∧
      (s.ptp.st = .holdover → ∃ t, exec (.sync off tr) s = .next t ∧
        is t (fun p => if tr then { p with st := .locking, good := 0 } else p) now)) ∧
    (s.ptp.st ≠ .locked → exec .syncTimeout s = .next s ∧ exec .clockclassChange s = .next { s with ptp := { s.ptp with trace := false } }) ∧
    (∀ i ∈ ([.syncTimeout, .clockclassChange] : List Instr),
      s.ptp.st = .locked → ∃ t, exec i s = .next t ∧ t.ptp.st = .holdover ∧ t.devtime = s.devtime) ∧
    execMicro (.announce off) s = .next { s with ptp := { s.ptp with utcOff := off }, out := s.out ++ [.utcOffset off] } ∧
    (s.boot.state = 7 → exec .stepTime s = .next s) ∧
    (s.boot.state ≠ 7 → (∃ l ∈ s.launches, l.ended = false ∧ l.rejected = false) → exec .stepTime s = .next { s with ptp := { s.ptp with stepref := true } }) ∧
    (s.boot.state ≠ 7 → (∀ l ∈ s.launches, l.ended = true ∨ l.rejected = true) → exec .stepTime s = .next { s with devtime := (now + s.ptp.adj.toInt).toNat }) ∧
    (let slew := w.toNat / 2 ^ 16 % 2 ^ 16
     let set (en : Bool) : State := { s with ptp := { s.ptp with
       slewmax := BitVec.ofNat 16 slew, domnum := BitVec.ofNat 8 (w.toNat / 2 ^ 8 % 2 ^ 8), delay := w.getLsbD 2, en := en
       st := if en then s.ptp.st else .freerun, good := if en then s.ptp.good else 0 } }
     (s.boot.state = 7 ∨ s.ptp.en = true ∨ w.getLsbD 0 = false ∨ slew = 0 ∨ 500 < slew → exec (.servoEnable w) s = .next s) ∧
     (s.boot.state ≠ 7 → s.ptp.en = false → w.getLsbD 0 = true → slew ≠ 0 → slew ≤ 500 → w.getLsbD 3 = false → exec (.servoEnable w) s = .next (set true)) ∧
     (s.boot.state = 7 ∨ s.ptp.en = false ∨ w.getLsbD 0 = true ∨ slew = 0 ∨ 500 < slew → exec (.servoDisable w) s = .next s) ∧
     (s.boot.state ≠ 7 → s.ptp.en = true → w.getLsbD 0 = false → slew ≠ 0 → slew ≤ 500 → w.getLsbD 3 = false → exec (.servoDisable w) s = .next (set false)))

/-- R126, R400, R412, R430, R431: the clock is throttled in steps of 100 MHz; a core that fails, or a die that trips, halts
every context with state on it and leaves scheduling; without power nothing goes on but what brings the part back. -/
def Obligations.PowerAndHealth : Prop :=
  ∀ (s : State) (mhz core die n : Nat) (c : Ctx) (b : Block) (reverts : List (Nat × Nat)),
    (mhz < 1200 ∨ 3600 < mhz ∨ mhz % 100 ≠ 0 → exec (.clockThrottle mhz) s = .next s) ∧
    (1200 ≤ mhz → mhz ≤ 3600 → mhz % 100 = 0 → ∃ t, exec (.clockThrottle mhz) s = .next t ∧ t.health.mhz.toNat = mhz ∧
      t.devtime = s.devtime ∧ t.blocks.map (·.spindles) = s.blocks.map (·.spindles)) ∧
    (s.userCores ≤ core ∨ core ∈ s.health.deadCores → exec (.coreFailure core) s = .next s) ∧
    (core < s.userCores → core ∉ s.health.deadCores → ∃ t, exec (.coreFailure core) s = .next t ∧
      t.health.deadCores = core :: s.health.deadCores ∧ t.mail.failedDue = s.mail.failedDue ++ [core] ∧
      (b ∈ s.blocks → b.core = core → b.evicted = false → s.ctx b.ctx = some c → c.halted = false → c.halting = false →
        (t.ctx b.ctx).map (fun c => (c.halting, c.cause)) = some (true, .coreFailed)) ∧
      ∀ m, (∀ b ∈ s.blocks, b.ctx = m → b.evicted = true ∨ b.core ≠ core) → (∀ o ∈ s.ops, o.ctx = m → o.core ≠ core) →
        (∀ o ∈ s.operators, o.owner ≠ m) → (t.ctx m).map (·.halting) = (s.ctx m).map (·.halting)) ∧
    (s.dies.findIdx? (fun d => d == die) = some n → n ∉ s.health.deadDies → ∃ t, exec (.thermalTrip die) s = .next t ∧
      t.health.deadDies = n :: s.health.deadDies ∧ t.health.trip = true ∧
      (b ∈ s.blocks → dieOf b.core = n → b.evicted = false → s.ctx b.ctx = some c → c.halted = false → c.halting = false →
        (t.ctx b.ctx).map (fun c => (c.halting, c.cause)) = some (true, .coreFailed))) ∧
    (s.dies.findIdx? (fun d => d == die) = none → exec (.thermalTrip die) s = .next s) ∧
    (∃ t, exec (.powerLoss reverts) s = .next t ∧ t.powered = false ∧ t.run = Run.idle ∧ t.runs = [] ∧
      (s.durable = [] → s.coh.pend = [] → ∀ a, t.home a = s.home a)) ∧
    exec .standbyPowerLoss s = .next { s with boot := { s.boot with fails := 0, reason := 0 } } ∧
    (s.powered = false → s.agenda = [] → step s = .fault .unpowered)

/-- R409 to R413, R416, R434: reset and boot: the ROM counts the attempt, takes its states in order, fails with the reason of
the first check that fails, and measures what it starts; the firmware trains bed memory and clears the count; three failures
leave MINIMAL. Log entries 8 and 45: a turn does the work of one boot state. That the lines of persistence domains read after a
reset as before it is the model's reading (DEDUCED, log entry 43); all other memory is unpredictable (R434). -/
def Obligations.BootStates : Prop :=
  ∀ (s : State) (b : BootIn) (page die n : Nat) (dig x : BitVec 512) (puf : BitVec 256) (d : List Byte) (w : Dword),
    let fails := s.boot.fails
    let desc := b.region.take 256
    let field (lo n : Nat) : Nat := leNat ((desc.drop lo).take n)
    let key (puf : BitVec 256) : BitVec 256 := (Config.sha512 (ascii [0x4E, 0x59, 0x4D, 0x4C, 0x4F, 0x4E, 0x2D, 0x44, 0x49, 0x4B] ++ leBytes 32 puf.toNat)).extractLsb' 0 256
    let len := field 16 8
    let descOk := field 0 4 = 0x454E_4144 ∧ field 4 2 = 1 ∧ field 40 88 = 0 ∧ field 32 8 % 4 = 0 ∧ len % 4096 = 0 ∧
      len ≤ 2 ^ 28 ∧ field 8 8 % 4096 = 0 ∧ field 32 8 < len ∧ field 24 8 + 64 * (len / 4096) ≤ len
    let img := (b.region.drop (field 8 8)).take len
    let ext (m : BitVec 512) (d : List Byte) : BitVec 512 := Config.sha512 (leBytes 64 m.toNat ++ d)
    let digest (d : List Byte) : List Byte := leBytes 64 (Config.sha512 d).toNat
    let meas (i : Nat) : BitVec 512 := (s.boot.meas[i]?).getD 0
    let place := 0x4_0000_0000_0000 + b.record.bootPort * 2 ^ 43 + b.record.regionAt
    let boot := execMicro .boot s
    let failsWith (r : Byte) : Prop := ∃ t, boot = .next t ∧ t.boot.state = 0 ∧ t.boot.fails = fails ∧ t.boot.reason = r ∧ t.boot.inp = s.boot.inp
    -- reset
    (∃ t, exec (.reset b) s = .next t ∧ t.boot.state = 0 ∧ t.boot.fails = fails ∧ t.boot.reason = s.boot.reason ∧ t.boot.inp = some b ∧
      (∀ i, i < 8 → t.boot.meas[i]? = some 0) ∧ t.blocks = [] ∧ t.ctxs = [] ∧ t.queues = [] ∧ t.launches = [] ∧ t.ops = [] ∧
      t.operators = [] ∧ t.powered = true ∧ (s.coh.device = [] → t.kept = s.kept) ∧ (∀ c ∈ t.mem, lineOf c.1 ∈ t.kept) ∧
      (s.coh.device = [] → s.health.unmapped = [] → ∀ a, lineOf a ∈ s.kept → t.home a = s.home a)) ∧
    -- the ROM
    (s.boot.inp = none → boot = .next s) ∧
    (s.boot.inp = some b →
      (s.boot.state = 0 → boot = .next { s with boot :=
        if fails = 3 then { s.boot with state := 7 } else { s.boot with state := 1, fails := fails + 1 } }) ∧
      (s.boot.state = 1 →
        (b.eepromOk = false → failsWith 0x01) ∧
        (b.eepromOk = true → b.pufSeed = none → failsWith 0x02) ∧
        (b.eepromOk = true → b.pufSeed = some puf →
          boot = .next { s with boot := { s.boot with state := 2, puf := some puf, idPub := Config.ed25519Public (key puf) } })) ∧
      (s.boot.state = 2 →
        let ok := Config.recordVerifies b.recSig (Config.recordBytes b.record)
        (ok = false → failsWith 0x03) ∧
        (ok = true → b.record.key ≠ s.boot.idPub → failsWith 0x04) ∧
        (ok = true → b.record.key = s.boot.idPub →
          boot = .next { s with diemask := b.record.diemask, boot := { s.boot with state := 3, fwres := b.record.fwres } })) ∧
      (s.boot.state = 3 →
        (b.portUp = false ∨ b.region.length < 256 → failsWith 0x05) ∧
        (b.portUp = true → 256 ≤ b.region.length →
          (¬descOk → failsWith 0x06) ∧
          (descOk → ∃ t, boot = .next t ∧ t = { s with mem := t.mem, boot := { s.boot with state := 4, region := some (place, b.region.length) } } ∧
            (s.health.unmapped = [] → ∀ i y, b.region[i]? = some y → t.home (place + i) = y)))) ∧
      (s.boot.state = 4 → 256 ≤ b.region.length →
        let sig := Config.romKeyVerifies (BitVec.ofNat 512 (field 192 64)) (desc.take 192)
        let whole := img.length = len ∧ field 128 64 = (Config.sha512 img).toNat
        (¬whole → failsWith 0x07) ∧
        (whole → sig = false → failsWith 0x08) ∧
        (whole → sig = true → field 6 2 < b.record.minsvn.toNat → failsWith 0x09) ∧
        (whole → sig = true → b.record.minsvn.toNat ≤ field 6 2 → s.boot.puf = some puf → s.boot.meas.length = 8 →
          let m0 := ext (ext (meas 0) (digest (desc.take 192))) (digest img)
          let m1 := ext (meas 1) (digest (Config.recordBytes b.record))
          let alias_ := (Config.sha512 (ascii [0x4E, 0x59, 0x4D, 0x4C, 0x4F, 0x4E, 0x2D, 0x41, 0x4C, 0x49, 0x41, 0x53] ++ leBytes 32 puf.toNat ++
            leBytes 64 m0.toNat ++ leBytes 64 m1.toNat)).extractLsb' 0 256
          ∃ t, boot = .next t ∧ t = { s with boot := t.boot } ∧ t.boot.state = 5 ∧ t.boot.puf = none ∧ t.boot.fails = fails ∧
            t.boot.meas[0]? = some m0 ∧ t.boot.meas[1]? = some m1 ∧ (∀ i, 2 ≤ i → t.boot.meas[i]? = s.boot.meas[i]?) ∧
            t.boot.fwRunning = s.dies ∧ t.boot.fwStart = s.devtime ∧ t.boot.aliasSeed = alias_ ∧
            t.boot.aliasSig = Config.ed25519Sign (key puf) (leBytes 32 (Config.ed25519Public alias_).toNat) ∧
            ∀ i, i < len / 4096 → t.boot.pageDigests[i]? = some (BitVec.ofNat 512 (leNat ((img.drop (field 24 8 + 64 * i)).take 64))))) ∧
      (s.boot.state = 5 → s.boot.trained = false →
        (b.bedOk = false → failsWith 0x0C) ∧
        (b.bedOk = true → boot = .next { s with boot := { s.boot with trained := true, upstream := true, coreMap := b.record.coreMap } })) ∧
      ((s.boot.state = 5 ∧ s.boot.trained = true) ∨ 6 ≤ s.boot.state.toNat → boot = .next s)) ∧
    -- firmware
    (s.boot.state = 5 → s.boot.trained = true → exec .bootok s = .next { s with boot := { s.boot with state := 6, fails := 0 } }) ∧
    (s.boot.state ≠ 5 ∨ s.boot.trained = false → exec .bootok s = .next s) ∧
    (s.boot.state = 5 → s.boot.fwStart + 60000000000 ≤ s.devtime → ∃ t, exec .bootokTimeout s = .next t ∧
      t.boot.state = 0 ∧ t.boot.fails = fails ∧ t.boot.reason = 0x0B) ∧
    (s.boot.state ≠ 5 ∨ s.devtime < s.boot.fwStart + 60000000000 → exec .bootokTimeout s = .next s) ∧
    (s.boot.pageDigests[page]? = some x → s.boot.state = 5 ∨ s.boot.state = 6 →
      (x = dig → exec (.codePageFill page dig) s = .next s) ∧
      (x ≠ dig → ∃ t, exec (.codePageFill page dig) s = .next t ∧ t.boot.state = 0 ∧ t.boot.reason = 0x0A ∧
        t.boot.fails = if s.boot.state = 6 then min 3 (fails + 1) else fails)) ∧
    (die ∈ s.boot.fwRunning → s.boot.state = 6 → ∃ t, exec (.firmwareCoreStop die) s = .next t ∧ t.boot.state = 0 ∧ t.boot.reason = 0x0D ∧
      t.boot.fails = min 3 (fails + 1)) ∧
    (die ∉ s.boot.fwRunning → exec (.firmwareCoreStop die) s = .next s) ∧
    (s.firmware = true → 3 ≤ n → n ≤ 7 → s.boot.meas.length = 8 →
      execMicro (.extend n d) s = .next { s with boot := { s.boot with meas := s.boot.meas.set n (ext (meas n) d) } }) ∧
    (s.firmware = false ∨ n < 3 ∨ 7 < n → execMicro (.extend n d) s = .next s) ∧
    -- MINIMAL
    (s.boot.state = 7 → ∃ t, exec .retry s = .next t ∧ t.boot.state = 0 ∧ t.boot.fails = 0 ∧ t.boot.reason = 0 ∧
      (w.getLsbD 0 = true → execMicro (.writeBootctl w) s = .next t)) ∧
    (s.boot.state ≠ 7 → exec .retry s = .next s) ∧
    execMicro .readBootstat s = .next { s with out := s.out ++ [OutMsg.bootstat (s.reg 0x30_0100)] }

/-- R64, R398: the tailstock hart: HSEL selects and holds a spindle, and HDATA reads and writes the selected value of one that
is quiet or held; of another it reads 0, and in it writes nothing. That a write whose FILE is reserved does nothing at all is the
model's choice (DESIGN CHOICE, log entry 76). -/
def Obligations.TailstockHart : Prop :=
  ∀ (s : State) (core : Nat) (w d : Dword) (b : Block) (sp : Spindle),
    let file := w.toNat / 2 ^ 28 % 2 ^ 4
    let reg := w.toNat / 2 ^ 16 % 2 ^ 7
    let slot := w.toNat % 2 ^ 5
    let spid := w.toNat / 2 ^ 32 % 2 ^ 8
    let quiet := ∀ x ∈ sp.threads, x.st = .exited ∨ x.st = .stopped ∨ (∃ p, x.st = .parked p) ∨ s.stalled core = true
    (6 < file → exec (.hsel core w) s = .next s) ∧
    (s.spindleAt core spid = some (b, sp) → file ≤ 6 → (∀ x ∈ s.hsel, x.1 ≠ core) → ∃ t, exec (.hsel core w) s = .next t ∧
      (t.hselOf core).getLsbD 63 = w.getLsbD 63 ∧ ((t.hselOf core).getLsbD 62 = true ↔ quiet) ∧
      (t.hselOf core).toNat % 2 ^ 62 = w.toNat &&& 0xFF_F07F_001F) ∧
    (s.spindleAt core spid = some (b, sp) → s.blk b.uid = some b → b.sp sp.m = some sp → s.hsel.find? (fun x => x.1 == core) = some (core, w) →
      let granted := quiet ∨ (w.getLsbD 62 = true ∧ w.getLsbD 63 = true)
      (¬granted → ∃ t, exec (.hdata core d) s = .next t ∧ t.blocks = s.blocks) ∧
      (¬granted → ∃ t, execMicro (.readHdata core) s = .next t ∧ t.blocks = s.blocks ∧
        t.out = s.out ++ [OutMsg.hdata core 0]) ∧
      (granted → ∃ t, execMicro (.readHdata core) s = .next t ∧ t.blocks = s.blocks ∧
        (∀ x, file = 0 → word s b.uid sp.m reg slot = some x → t.out = s.out ++ [OutMsg.hdata core (x.setWidth 64)]) ∧
        (∀ x, file = 1 → sreg s b.uid sp.m reg = some x → t.out = s.out ++ [OutMsg.hdata core x]) ∧
        (∀ x, file = 5 → thr s b.uid sp.m slot = some x → t.out = s.out ++ [OutMsg.hdata core x.dpc])) ∧
      (granted → ∃ t, exec (.hdata core d) s = .next t ∧
        (∀ u' m', ¬(u' = b.uid ∧ m' = sp.m) → spn t u' m' = spn s u' m') ∧
        (file = 0 → ∀ n, vreg t b.uid sp.m n = (vreg s b.uid sp.m n).map (fun r =>
          if n = reg then { tag := .g, vals := r.vals.set slot (lo32 d) } else r)) ∧
        (file = 1 → ∀ i, i < sp.s.length → sreg t b.uid sp.m i = if i = reg then some d else sreg s b.uid sp.m i) ∧
        (file = 2 → ∀ k, thr t b.uid sp.m k = (thr s b.uid sp.m k).map (fun x => if k = slot then { x with preds := lo32 d } else x)) ∧
        (file = 3 → d.toNat % 4 = 3 → spn t b.uid sp.m = spn s b.uid sp.m) ∧
        (file = 3 → d.toNat % 4 = 2 → ∀ n, vreg t b.uid sp.m n = (vreg s b.uid sp.m n).map (fun r => if n = reg then { r with tag := .g } else r)) ∧
        (file = 4 → ∀ x, thr s b.uid sp.m slot = some x → x.mid = none → (thr t b.uid sp.m slot).map (·.pc) = some d) ∧
        (file = 5 → ∀ k, thr t b.uid sp.m k = (thr s b.uid sp.m k).map (fun x => if k = slot then { x with dpc := d } else x))))

/-! The words, the step and the states. -/

/-- R183 to R197: encoding a well-formed instruction and decoding its words gives the instruction back, and leaves what
stands behind them. -/
def Obligations.DecodeEncode : Prop :=
  ∀ (i : Instr) (c : Cls) (ws rest : List Word), encode i = some (c, ws) → i.wf = true →
    decodeInstr c (ws ++ rest) = .ok (i, rest)

/-- R241, R242, R244, R252, R255, R259, R270 and the other references: the manual's example words decode to the
instructions they stand for. -/
def Obligations.DecodeWords : Prop :=
  let b32 : Size := .b32
  let plain : AMod := ⟨.l1, .no, .no⟩
  ∀ p ∈ ([
    (.v, [0x2002C1C6, 2], .shl (.v 2) .slot (.imm 2)),
    (.v, [0x44010382, 0xC0220000], .icmp 1 .lt .uns (.v 3) (.s 2)),
    (.v, [0x66060405, 0x02100000], .ffma (.v 6) ⟨.f32, .rz, false⟩ (.v 4) (.v 5) (.v 2)),
    (.v, [0x900908C0, 0xC0410000], .cvt (.v 9) ⟨.e4m3, .f32, .rn, false, false⟩ (.v 8)),
    (.v, [0xCA0301C0, 0xC0028000], .redux (.v 3) .add .sgn .seg4 (.v 1)),
    (.v, [0xC00201C6, 0xC0208000, 1], .shfl (.v 2) .down false .seg4 (.v 1) (.imm 1)),
    (.v, [0xC40201C0, 0xC0000000], .vote 2 .any .whole 1),
    (.m, [0x4081BFC6, 0x100], .sadd (.s 1) (.s 63) (.imm 0x100)),
    (.m, [0x00028101, 0xC0008000], .ld 2 plain b32 ⟨.s 1, .v 1, 0⟩),
    (.m, [0x02C08101, 0x02008000], .st plain b32 ⟨.s 1, .v 1, 0⟩ (.v 2)),
    (.m, [0x000285C0, 0xC0118000], .ld 2 ⟨.l1, .dev, .acq⟩ b32 ⟨.s 5, .zero, 0⟩),
    (.m, [0x0CC0C0C0, 0xC0110000], .fence .dev .all),
    (.m, [0x1EC0C0C6, 0xC0000100, 0xFFFFF000], .arcadd .zero (.imm 0xFFFFF000) 0x100),
    (.x, [0x000302C0, 0xC0000000], .rcp 3 false false false (.v 2)),
    (.x, [0x040406C0, 0xC0440000], .sqrt 4 true false true (.v 6)),
    (.x, [0x14040203, 0xC0200000], .idiv 4 true (.v 2) (.v 3)),
    (.x, [0x20068402, 0xC6000000, 0x80], .cpy .l1 false none (.v 6) (.s 4) (.v 2) (.imm 128)),
    (.x, [0x44008C8D, 0x8E090000], .mma 0 (.s 12) (.s 13) (.s 14) (.v 9)),
    (.x, [0x44028C8D, 0x8E098000], .mmaGang 2 (.s 12) (.s 13) (.s 14) (.v 9)),
    (.x, [0x46C0C0C0], .opfence),
    (.x, [0x768382C0, 0xC0C00000], .mgcommit 3 (.s 2)),
    (.c, [0x0AC0C0C0], .ret), (.c, [0x1AC0C0C0], .exit),
    (.c, [0x00C0C0C0, 0xC0000015], .bra 21),
    (.c, [0x04C001C0, 0xC0000003], .brx (.v 1) 3),
    (.c, [0x20C0C0C0, 0xC00000CC], .trap 0xCC),
    (.c, [0x28C08515, 0x14540000], .vpub .partial_ .sys ⟨.s 5, .v 21, 0⟩ (.v 20)),
    (.c, [0x2C84C0C0, 0xC0000001], .csrr (.s 4) 1)] : List (Cls × List Word × Instr)),
      decodeInstr p.1 p.2.1 = .ok (p.2.2, [])

/-- R180 to R182: when time has made nothing due and no turn is given, a step executes the instruction that the clause's
words decode to, its words behind it; a turn that names an event executes it; what time has made due comes first. An access
behind an open `fence.async`, and a release behind a request that waits at this device, leave their clause to wait (R166, R250).
Before an instruction is executed its walkers have loaded what translates its addresses (R386) and the local stores it follows are
performed (R156); an instruction with neither is executed at the state itself. What a step makes due beside it follows: saved
blocks' images, the tailstock harts' holds, diverts and records that waited (R39, R43, R155, R398). Log entries 1 and 8: the pace
of time and the turns are the model's. -/
def Obligations.StepRunsDecoded : Prop :=
  ∀ (s : State) (i : Instr) (m : Micro) (rest : List Word) (r : List Turn), s.powered = true →
    let does (x : State) : Prop :=
      (∀ e, x.env = some e → x.heldAt i e = true → step s = .next (x.hold e)) ∧
      (∀ t, (∀ e, x.env = some e → x.heldAt i e = false) → exec i (x.before i) = .next t →
        step s = .next (t.beside x) ∧ (t.stirs x = false → step s = .next t)) ∧
      (x.env = none → x.before i = x) ∧
      (∀ e, x.env = some e → e.ranges i = [] → Instr.lands i = false → (∀ d l v n, i ≠ .stmap d l v n) →
        (∀ b ∈ x.blocks, b.late = []) ∨ (∀ d sz m, i ≠ .ldl d sz m) → x.before i = x)
    (s.tick.due = some i → does s.tick) ∧
    (s.tick.due = none →
      (s.agenda = .event i :: r → does { s.tick with agenda := r }) ∧
      (∀ t, s.agenda = .part m :: r → execMicro m { s.tick with agenda := r } = .next t →
        step s = .next (t.beside { s.tick with agenda := r })) ∧
      (s.agenda = [] → s.env.isSome = true → s.tick.runStalled = false → s.ibkHit s.run.here = none →
        decodeInstr s.run.cls s.run.words = .ok (i, rest) →
        does { s.tick with run := { s.run with
          words := rest, cur := s.run.words, idx := s.run.idx + 1, lat := none
          latches := (s.run.lat :: s.run.latches).take 4 } }) ∧
      (∀ e, s.agenda = [] → s.env = some e → s.run.words = [] → s.tick.runStalled = false →
        ∃ t, step s = .next (t.beside s.tick) ∧ Leaves s.tick t e (fun _ x => { x with st := .ready, pc := s.run.npc })))

/-- Every instruction and every event answers a next state, and a step answers one or, for want of power, stops. -/
def Obligations.StepAnswers : Prop := (∀ i s, ∃ t, exec i s = .next t) ∧ ∀ s, Runs s

/-- The canonical form of the memories is kept by every step. -/
def Obligations.MemoryFormKept : Prop := ∀ s t, MemInv s → step s = .next t → MemInv t

/-- The state after reset: its memories are in canonical form, nothing runs, and the registers read as their tables'
Reset columns say (R114, R167, R362, R376, R377, R379, R383, R386, R407, R412, R415, R419, R430); of BOOTSTAT and PWRSTAT, whose
other fields have no reset value, the fields that have one. -/
def Obligations.ResetLeaves : Prop :=
  let s := State.reset
  MemInv s ∧ s.mem = [] ∧ s.blocks = [] ∧ s.launches = [] ∧ s.ctxs = [] ∧ s.run.active = false ∧
  (∀ n, n < 1024 → s.reg (0x20_0000 + 64 * n) = 0 ∧ s.reg (0x20_0000 + 64 * n + 8) = 0x0001_0000_0000_0010 ∧
    s.reg (0x20_0000 + 64 * n + 0x10) = 0 ∧ s.reg (0x20_0000 + 64 * n + 0x18) = 0 ∧ s.reg (0x20_0000 + 64 * n + 0x20) = 0 ∧
    s.reg (0x20_0000 + 64 * n + 0x28) = 0) ∧
  (∀ n, n < 4096 → s.reg (0x18_0000 + 8 * n) = 0) ∧
  (∀ n, n < 64 → s.reg (0x30_0700 + 8 * n) = BitVec.ofNat 64 (n % 12 + 16)) ∧
  (s.reg 0x30_0100).toNat % 2 ^ 4 = 0 ∧ (s.reg 0x30_0508).toNat / 2 ^ 16 % 2 ^ 16 = 3600 ∧ (s.reg 0x30_0508).toNat % 2 ^ 16 = 0 ∧
  ∀ p ∈ ([(0x10_0000, 0), (0x10_0008, 0), (0x10_0010, 0), (0x10_0018, 0x8000_0000_0000_0000), (0x10_0020, 2048), (0x30_0000, 0),
    (0x30_0008, 0), (0x30_0010, 1), (0x30_0200, 0), (0x30_0208, 0), (0x30_0300, 0x2545_F491), (0x30_0308, 0xC350),
    (0x30_0310, 0x0000_03E8_0000_8000), (0x30_0400, 0x0064_0000), (0x30_0408, 0), (0x30_0410, 0), (0x30_0500, 0x0A28)] :
    List (Nat × Dword)), s.reg p.1 = p.2
end

