-- ==== Sys2Proof/Laws/State.lean ====
section
/-! SUPPORT. State.lean (laws): what each update of the state leaves as it was, field by field. -/

namespace Sys2Proof.Machine

section updBlk_
variable (s : State) (u : Nat) (f : Block → Block)
@[simp] theorem State.updBlk_agenda : (s.updBlk u f).agenda = s.agenda := rfl
@[simp] theorem State.updBlk_paceNs : (s.updBlk u f).paceNs = s.paceNs := rfl
@[simp] theorem State.updBlk_paceClk : (s.updBlk u f).paceClk = s.paceClk := rfl
@[simp] theorem State.updBlk_freeCtr : (s.updBlk u f).freeCtr = s.freeCtr := rfl
@[simp] theorem State.updBlk_nextId : (s.updBlk u f).nextId = s.nextId := rfl
@[simp] theorem State.updBlk_turn : (s.updBlk u f).turn = s.turn := rfl
@[simp] theorem State.updBlk_powered : (s.updBlk u f).powered = s.powered := rfl
@[simp] theorem State.updBlk_devtime : (s.updBlk u f).devtime = s.devtime := rfl
@[simp] theorem State.updBlk_clk : (s.updBlk u f).clk = s.clk := rfl
@[simp] theorem State.updBlk_epoch : (s.updBlk u f).epoch = s.epoch := rfl
@[simp] theorem State.updBlk_mem : (s.updBlk u f).mem = s.mem := rfl
@[simp] theorem State.updBlk_durable : (s.updBlk u f).durable = s.durable := rfl
@[simp] theorem State.updBlk_kept : (s.updBlk u f).kept = s.kept := rfl
@[simp] theorem State.updBlk_writes : (s.updBlk u f).writes = s.writes := rfl
@[simp] theorem State.updBlk_stock : (s.updBlk u f).stock = s.stock := rfl
@[simp] theorem State.updBlk_freed : (s.updBlk u f).freed = s.freed := rfl
@[simp] theorem State.updBlk_coh : (s.updBlk u f).coh = s.coh := rfl
@[simp] theorem State.updBlk_diemask : (s.updBlk u f).diemask = s.diemask := rfl
@[simp] theorem State.updBlk_ctxs : (s.updBlk u f).ctxs = s.ctxs := rfl
@[simp] theorem State.updBlk_queues : (s.updBlk u f).queues = s.queues := rfl
@[simp] theorem State.updBlk_launches : (s.updBlk u f).launches = s.launches := rfl
@[simp] theorem State.updBlk_run : (s.updBlk u f).run = s.run := rfl
@[simp] theorem State.updBlk_runs : (s.updBlk u f).runs = s.runs := rfl
@[simp] theorem State.updBlk_ops : (s.updBlk u f).ops = s.ops := rfl
@[simp] theorem State.updBlk_services : (s.updBlk u f).services = s.services := rfl
@[simp] theorem State.updBlk_engStops : (s.updBlk u f).engStops = s.engStops := rfl
@[simp] theorem State.updBlk_sched : (s.updBlk u f).sched = s.sched := rfl
@[simp] theorem State.updBlk_xlat : (s.updBlk u f).xlat = s.xlat := rfl
@[simp] theorem State.updBlk_ibk : (s.updBlk u f).ibk = s.ibk := rfl
@[simp] theorem State.updBlk_hsel : (s.updBlk u f).hsel = s.hsel := rfl
@[simp] theorem State.updBlk_operators : (s.updBlk u f).operators = s.operators := rfl
@[simp] theorem State.updBlk_posted : (s.updBlk u f).posted = s.posted := rfl
@[simp] theorem State.updBlk_mslots : (s.updBlk u f).mslots = s.mslots := rfl
@[simp] theorem State.updBlk_fabric : (s.updBlk u f).fabric = s.fabric := rfl
@[simp] theorem State.updBlk_boot : (s.updBlk u f).boot = s.boot := rfl
@[simp] theorem State.updBlk_mail : (s.updBlk u f).mail = s.mail := rfl
@[simp] theorem State.updBlk_ptp : (s.updBlk u f).ptp = s.ptp := rfl
@[simp] theorem State.updBlk_health : (s.updBlk u f).health = s.health := rfl
@[simp] theorem State.updBlk_out : (s.updBlk u f).out = s.out := rfl
end updBlk_

section updSp_
variable (s : State) (u m : Nat) (f : Spindle → Spindle)
@[simp] theorem State.updSp_agenda : (s.updSp u m f).agenda = s.agenda := rfl
@[simp] theorem State.updSp_paceNs : (s.updSp u m f).paceNs = s.paceNs := rfl
@[simp] theorem State.updSp_paceClk : (s.updSp u m f).paceClk = s.paceClk := rfl
@[simp] theorem State.updSp_freeCtr : (s.updSp u m f).freeCtr = s.freeCtr := rfl
@[simp] theorem State.updSp_nextId : (s.updSp u m f).nextId = s.nextId := rfl
@[simp] theorem State.updSp_turn : (s.updSp u m f).turn = s.turn := rfl
@[simp] theorem State.updSp_powered : (s.updSp u m f).powered = s.powered := rfl
@[simp] theorem State.updSp_devtime : (s.updSp u m f).devtime = s.devtime := rfl
@[simp] theorem State.updSp_clk : (s.updSp u m f).clk = s.clk := rfl
@[simp] theorem State.updSp_epoch : (s.updSp u m f).epoch = s.epoch := rfl
@[simp] theorem State.updSp_mem : (s.updSp u m f).mem = s.mem := rfl
@[simp] theorem State.updSp_durable : (s.updSp u m f).durable = s.durable := rfl
@[simp] theorem State.updSp_kept : (s.updSp u m f).kept = s.kept := rfl
@[simp] theorem State.updSp_writes : (s.updSp u m f).writes = s.writes := rfl
@[simp] theorem State.updSp_stock : (s.updSp u m f).stock = s.stock := rfl
@[simp] theorem State.updSp_freed : (s.updSp u m f).freed = s.freed := rfl
@[simp] theorem State.updSp_coh : (s.updSp u m f).coh = s.coh := rfl
@[simp] theorem State.updSp_diemask : (s.updSp u m f).diemask = s.diemask := rfl
@[simp] theorem State.updSp_ctxs : (s.updSp u m f).ctxs = s.ctxs := rfl
@[simp] theorem State.updSp_queues : (s.updSp u m f).queues = s.queues := rfl
@[simp] theorem State.updSp_launches : (s.updSp u m f).launches = s.launches := rfl
@[simp] theorem State.updSp_run : (s.updSp u m f).run = s.run := rfl
@[simp] theorem State.updSp_runs : (s.updSp u m f).runs = s.runs := rfl
@[simp] theorem State.updSp_ops : (s.updSp u m f).ops = s.ops := rfl
@[simp] theorem State.updSp_services : (s.updSp u m f).services = s.services := rfl
@[simp] theorem State.updSp_engStops : (s.updSp u m f).engStops = s.engStops := rfl
@[simp] theorem State.updSp_sched : (s.updSp u m f).sched = s.sched := rfl
@[simp] theorem State.updSp_xlat : (s.updSp u m f).xlat = s.xlat := rfl
@[simp] theorem State.updSp_ibk : (s.updSp u m f).ibk = s.ibk := rfl
@[simp] theorem State.updSp_hsel : (s.updSp u m f).hsel = s.hsel := rfl
@[simp] theorem State.updSp_operators : (s.updSp u m f).operators = s.operators := rfl
@[simp] theorem State.updSp_posted : (s.updSp u m f).posted = s.posted := rfl
@[simp] theorem State.updSp_mslots : (s.updSp u m f).mslots = s.mslots := rfl
@[simp] theorem State.updSp_fabric : (s.updSp u m f).fabric = s.fabric := rfl
@[simp] theorem State.updSp_boot : (s.updSp u m f).boot = s.boot := rfl
@[simp] theorem State.updSp_mail : (s.updSp u m f).mail = s.mail := rfl
@[simp] theorem State.updSp_ptp : (s.updSp u m f).ptp = s.ptp := rfl
@[simp] theorem State.updSp_health : (s.updSp u m f).health = s.health := rfl
@[simp] theorem State.updSp_out : (s.updSp u m f).out = s.out := rfl
end updSp_

section updThr_
variable (s : State) (u m k : Nat) (f : Thread → Thread)
@[simp] theorem State.updThr_agenda : (s.updThr u m k f).agenda = s.agenda := rfl
@[simp] theorem State.updThr_paceNs : (s.updThr u m k f).paceNs = s.paceNs := rfl
@[simp] theorem State.updThr_paceClk : (s.updThr u m k f).paceClk = s.paceClk := rfl
@[simp] theorem State.updThr_freeCtr : (s.updThr u m k f).freeCtr = s.freeCtr := rfl
@[simp] theorem State.updThr_nextId : (s.updThr u m k f).nextId = s.nextId := rfl
@[simp] theorem State.updThr_turn : (s.updThr u m k f).turn = s.turn := rfl
@[simp] theorem State.updThr_powered : (s.updThr u m k f).powered = s.powered := rfl
@[simp] theorem State.updThr_devtime : (s.updThr u m k f).devtime = s.devtime := rfl
@[simp] theorem State.updThr_clk : (s.updThr u m k f).clk = s.clk := rfl
@[simp] theorem State.updThr_epoch : (s.updThr u m k f).epoch = s.epoch := rfl
@[simp] theorem State.updThr_mem : (s.updThr u m k f).mem = s.mem := rfl
@[simp] theorem State.updThr_durable : (s.updThr u m k f).durable = s.durable := rfl
@[simp] theorem State.updThr_kept : (s.updThr u m k f).kept = s.kept := rfl
@[simp] theorem State.updThr_writes : (s.updThr u m k f).writes = s.writes := rfl
@[simp] theorem State.updThr_stock : (s.updThr u m k f).stock = s.stock := rfl
@[simp] theorem State.updThr_freed : (s.updThr u m k f).freed = s.freed := rfl
@[simp] theorem State.updThr_coh : (s.updThr u m k f).coh = s.coh := rfl
@[simp] theorem State.updThr_diemask : (s.updThr u m k f).diemask = s.diemask := rfl
@[simp] theorem State.updThr_ctxs : (s.updThr u m k f).ctxs = s.ctxs := rfl
@[simp] theorem State.updThr_queues : (s.updThr u m k f).queues = s.queues := rfl
@[simp] theorem State.updThr_launches : (s.updThr u m k f).launches = s.launches := rfl
@[simp] theorem State.updThr_run : (s.updThr u m k f).run = s.run := rfl
@[simp] theorem State.updThr_runs : (s.updThr u m k f).runs = s.runs := rfl
@[simp] theorem State.updThr_ops : (s.updThr u m k f).ops = s.ops := rfl
@[simp] theorem State.updThr_services : (s.updThr u m k f).services = s.services := rfl
@[simp] theorem State.updThr_engStops : (s.updThr u m k f).engStops = s.engStops := rfl
@[simp] theorem State.updThr_sched : (s.updThr u m k f).sched = s.sched := rfl
@[simp] theorem State.updThr_xlat : (s.updThr u m k f).xlat = s.xlat := rfl
@[simp] theorem State.updThr_ibk : (s.updThr u m k f).ibk = s.ibk := rfl
@[simp] theorem State.updThr_hsel : (s.updThr u m k f).hsel = s.hsel := rfl
@[simp] theorem State.updThr_operators : (s.updThr u m k f).operators = s.operators := rfl
@[simp] theorem State.updThr_posted : (s.updThr u m k f).posted = s.posted := rfl
@[simp] theorem State.updThr_mslots : (s.updThr u m k f).mslots = s.mslots := rfl
@[simp] theorem State.updThr_fabric : (s.updThr u m k f).fabric = s.fabric := rfl
@[simp] theorem State.updThr_boot : (s.updThr u m k f).boot = s.boot := rfl
@[simp] theorem State.updThr_mail : (s.updThr u m k f).mail = s.mail := rfl
@[simp] theorem State.updThr_ptp : (s.updThr u m k f).ptp = s.ptp := rfl
@[simp] theorem State.updThr_health : (s.updThr u m k f).health = s.health := rfl
@[simp] theorem State.updThr_out : (s.updThr u m k f).out = s.out := rfl
end updThr_

section updCtx_
variable (s : State) (n : Nat) (f : Ctx → Ctx)
@[simp] theorem State.updCtx_agenda : (s.updCtx n f).agenda = s.agenda := rfl
@[simp] theorem State.updCtx_paceNs : (s.updCtx n f).paceNs = s.paceNs := rfl
@[simp] theorem State.updCtx_paceClk : (s.updCtx n f).paceClk = s.paceClk := rfl
@[simp] theorem State.updCtx_freeCtr : (s.updCtx n f).freeCtr = s.freeCtr := rfl
@[simp] theorem State.updCtx_nextId : (s.updCtx n f).nextId = s.nextId := rfl
@[simp] theorem State.updCtx_turn : (s.updCtx n f).turn = s.turn := rfl
@[simp] theorem State.updCtx_powered : (s.updCtx n f).powered = s.powered := rfl
@[simp] theorem State.updCtx_devtime : (s.updCtx n f).devtime = s.devtime := rfl
@[simp] theorem State.updCtx_clk : (s.updCtx n f).clk = s.clk := rfl
@[simp] theorem State.updCtx_epoch : (s.updCtx n f).epoch = s.epoch := rfl
@[simp] theorem State.updCtx_mem : (s.updCtx n f).mem = s.mem := rfl
@[simp] theorem State.updCtx_durable : (s.updCtx n f).durable = s.durable := rfl
@[simp] theorem State.updCtx_kept : (s.updCtx n f).kept = s.kept := rfl
@[simp] theorem State.updCtx_writes : (s.updCtx n f).writes = s.writes := rfl
@[simp] theorem State.updCtx_stock : (s.updCtx n f).stock = s.stock := rfl
@[simp] theorem State.updCtx_freed : (s.updCtx n f).freed = s.freed := rfl
@[simp] theorem State.updCtx_coh : (s.updCtx n f).coh = s.coh := rfl
@[simp] theorem State.updCtx_diemask : (s.updCtx n f).diemask = s.diemask := rfl
@[simp] theorem State.updCtx_queues : (s.updCtx n f).queues = s.queues := rfl
@[simp] theorem State.updCtx_launches : (s.updCtx n f).launches = s.launches := rfl
@[simp] theorem State.updCtx_blocks : (s.updCtx n f).blocks = s.blocks := rfl
@[simp] theorem State.updCtx_run : (s.updCtx n f).run = s.run := rfl
@[simp] theorem State.updCtx_runs : (s.updCtx n f).runs = s.runs := rfl
@[simp] theorem State.updCtx_ops : (s.updCtx n f).ops = s.ops := rfl
@[simp] theorem State.updCtx_services : (s.updCtx n f).services = s.services := rfl
@[simp] theorem State.updCtx_engStops : (s.updCtx n f).engStops = s.engStops := rfl
@[simp] theorem State.updCtx_sched : (s.updCtx n f).sched = s.sched := rfl
@[simp] theorem State.updCtx_xlat : (s.updCtx n f).xlat = s.xlat := rfl
@[simp] theorem State.updCtx_ibk : (s.updCtx n f).ibk = s.ibk := rfl
@[simp] theorem State.updCtx_hsel : (s.updCtx n f).hsel = s.hsel := rfl
@[simp] theorem State.updCtx_operators : (s.updCtx n f).operators = s.operators := rfl
@[simp] theorem State.updCtx_posted : (s.updCtx n f).posted = s.posted := rfl
@[simp] theorem State.updCtx_mslots : (s.updCtx n f).mslots = s.mslots := rfl
@[simp] theorem State.updCtx_fabric : (s.updCtx n f).fabric = s.fabric := rfl
@[simp] theorem State.updCtx_boot : (s.updCtx n f).boot = s.boot := rfl
@[simp] theorem State.updCtx_mail : (s.updCtx n f).mail = s.mail := rfl
@[simp] theorem State.updCtx_ptp : (s.updCtx n f).ptp = s.ptp := rfl
@[simp] theorem State.updCtx_health : (s.updCtx n f).health = s.health := rfl
@[simp] theorem State.updCtx_out : (s.updCtx n f).out = s.out := rfl
end updCtx_

section updLaunch_
variable (s : State) (u : Nat) (f : Launch → Launch)
@[simp] theorem State.updLaunch_agenda : (s.updLaunch u f).agenda = s.agenda := rfl
@[simp] theorem State.updLaunch_paceNs : (s.updLaunch u f).paceNs = s.paceNs := rfl
@[simp] theorem State.updLaunch_paceClk : (s.updLaunch u f).paceClk = s.paceClk := rfl
@[simp] theorem State.updLaunch_freeCtr : (s.updLaunch u f).freeCtr = s.freeCtr := rfl
@[simp] theorem State.updLaunch_nextId : (s.updLaunch u f).nextId = s.nextId := rfl
@[simp] theorem State.updLaunch_turn : (s.updLaunch u f).turn = s.turn := rfl
@[simp] theorem State.updLaunch_powered : (s.updLaunch u f).powered = s.powered := rfl
@[simp] theorem State.updLaunch_devtime : (s.updLaunch u f).devtime = s.devtime := rfl
@[simp] theorem State.updLaunch_clk : (s.updLaunch u f).clk = s.clk := rfl
@[simp] theorem State.updLaunch_epoch : (s.updLaunch u f).epoch = s.epoch := rfl
@[simp] theorem State.updLaunch_mem : (s.updLaunch u f).mem = s.mem := rfl
@[simp] theorem State.updLaunch_durable : (s.updLaunch u f).durable = s.durable := rfl
@[simp] theorem State.updLaunch_kept : (s.updLaunch u f).kept = s.kept := rfl
@[simp] theorem State.updLaunch_writes : (s.updLaunch u f).writes = s.writes := rfl
@[simp] theorem State.updLaunch_stock : (s.updLaunch u f).stock = s.stock := rfl
@[simp] theorem State.updLaunch_freed : (s.updLaunch u f).freed = s.freed := rfl
@[simp] theorem State.updLaunch_coh : (s.updLaunch u f).coh = s.coh := rfl
@[simp] theorem State.updLaunch_diemask : (s.updLaunch u f).diemask = s.diemask := rfl
@[simp] theorem State.updLaunch_ctxs : (s.updLaunch u f).ctxs = s.ctxs := rfl
@[simp] theorem State.updLaunch_queues : (s.updLaunch u f).queues = s.queues := rfl
@[simp] theorem State.updLaunch_blocks : (s.updLaunch u f).blocks = s.blocks := rfl
@[simp] theorem State.updLaunch_run : (s.updLaunch u f).run = s.run := rfl
@[simp] theorem State.updLaunch_runs : (s.updLaunch u f).runs = s.runs := rfl
@[simp] theorem State.updLaunch_ops : (s.updLaunch u f).ops = s.ops := rfl
@[simp] theorem State.updLaunch_services : (s.updLaunch u f).services = s.services := rfl
@[simp] theorem State.updLaunch_engStops : (s.updLaunch u f).engStops = s.engStops := rfl
@[simp] theorem State.updLaunch_sched : (s.updLaunch u f).sched = s.sched := rfl
@[simp] theorem State.updLaunch_xlat : (s.updLaunch u f).xlat = s.xlat := rfl
@[simp] theorem State.updLaunch_ibk : (s.updLaunch u f).ibk = s.ibk := rfl
@[simp] theorem State.updLaunch_hsel : (s.updLaunch u f).hsel = s.hsel := rfl
@[simp] theorem State.updLaunch_operators : (s.updLaunch u f).operators = s.operators := rfl
@[simp] theorem State.updLaunch_posted : (s.updLaunch u f).posted = s.posted := rfl
@[simp] theorem State.updLaunch_mslots : (s.updLaunch u f).mslots = s.mslots := rfl
@[simp] theorem State.updLaunch_fabric : (s.updLaunch u f).fabric = s.fabric := rfl
@[simp] theorem State.updLaunch_boot : (s.updLaunch u f).boot = s.boot := rfl
@[simp] theorem State.updLaunch_mail : (s.updLaunch u f).mail = s.mail := rfl
@[simp] theorem State.updLaunch_ptp : (s.updLaunch u f).ptp = s.ptp := rfl
@[simp] theorem State.updLaunch_health : (s.updLaunch u f).health = s.health := rfl
@[simp] theorem State.updLaunch_out : (s.updLaunch u f).out = s.out := rfl
end updLaunch_

section setKind_
variable (s : State) (i : Nat) (k : OpKind)
@[simp] theorem State.setKind_agenda : (s.setKind i k).agenda = s.agenda := rfl
@[simp] theorem State.setKind_paceNs : (s.setKind i k).paceNs = s.paceNs := rfl
@[simp] theorem State.setKind_paceClk : (s.setKind i k).paceClk = s.paceClk := rfl
@[simp] theorem State.setKind_freeCtr : (s.setKind i k).freeCtr = s.freeCtr := rfl
@[simp] theorem State.setKind_nextId : (s.setKind i k).nextId = s.nextId := rfl
@[simp] theorem State.setKind_turn : (s.setKind i k).turn = s.turn := rfl
@[simp] theorem State.setKind_powered : (s.setKind i k).powered = s.powered := rfl
@[simp] theorem State.setKind_devtime : (s.setKind i k).devtime = s.devtime := rfl
@[simp] theorem State.setKind_clk : (s.setKind i k).clk = s.clk := rfl
@[simp] theorem State.setKind_epoch : (s.setKind i k).epoch = s.epoch := rfl
@[simp] theorem State.setKind_mem : (s.setKind i k).mem = s.mem := rfl
@[simp] theorem State.setKind_durable : (s.setKind i k).durable = s.durable := rfl
@[simp] theorem State.setKind_kept : (s.setKind i k).kept = s.kept := rfl
@[simp] theorem State.setKind_writes : (s.setKind i k).writes = s.writes := rfl
@[simp] theorem State.setKind_stock : (s.setKind i k).stock = s.stock := rfl
@[simp] theorem State.setKind_freed : (s.setKind i k).freed = s.freed := rfl
@[simp] theorem State.setKind_coh : (s.setKind i k).coh = s.coh := rfl
@[simp] theorem State.setKind_diemask : (s.setKind i k).diemask = s.diemask := rfl
@[simp] theorem State.setKind_ctxs : (s.setKind i k).ctxs = s.ctxs := rfl
@[simp] theorem State.setKind_queues : (s.setKind i k).queues = s.queues := rfl
@[simp] theorem State.setKind_launches : (s.setKind i k).launches = s.launches := rfl
@[simp] theorem State.setKind_blocks : (s.setKind i k).blocks = s.blocks := rfl
@[simp] theorem State.setKind_run : (s.setKind i k).run = s.run := rfl
@[simp] theorem State.setKind_runs : (s.setKind i k).runs = s.runs := rfl
@[simp] theorem State.setKind_services : (s.setKind i k).services = s.services := rfl
@[simp] theorem State.setKind_engStops : (s.setKind i k).engStops = s.engStops := rfl
@[simp] theorem State.setKind_sched : (s.setKind i k).sched = s.sched := rfl
@[simp] theorem State.setKind_xlat : (s.setKind i k).xlat = s.xlat := rfl
@[simp] theorem State.setKind_ibk : (s.setKind i k).ibk = s.ibk := rfl
@[simp] theorem State.setKind_hsel : (s.setKind i k).hsel = s.hsel := rfl
@[simp] theorem State.setKind_operators : (s.setKind i k).operators = s.operators := rfl
@[simp] theorem State.setKind_posted : (s.setKind i k).posted = s.posted := rfl
@[simp] theorem State.setKind_mslots : (s.setKind i k).mslots = s.mslots := rfl
@[simp] theorem State.setKind_fabric : (s.setKind i k).fabric = s.fabric := rfl
@[simp] theorem State.setKind_boot : (s.setKind i k).boot = s.boot := rfl
@[simp] theorem State.setKind_mail : (s.setKind i k).mail = s.mail := rfl
@[simp] theorem State.setKind_ptp : (s.setKind i k).ptp = s.ptp := rfl
@[simp] theorem State.setKind_health : (s.setKind i k).health = s.health := rfl
@[simp] theorem State.setKind_out : (s.setKind i k).out = s.out := rfl
end setKind_

section dropPending_
variable (s : State) (u m b : Nat) (p : Nat → Nat → Bool)
@[simp] theorem State.dropPending_agenda : (s.dropPending u m b p).agenda = s.agenda := rfl
@[simp] theorem State.dropPending_paceNs : (s.dropPending u m b p).paceNs = s.paceNs := rfl
@[simp] theorem State.dropPending_paceClk : (s.dropPending u m b p).paceClk = s.paceClk := rfl
@[simp] theorem State.dropPending_freeCtr : (s.dropPending u m b p).freeCtr = s.freeCtr := rfl
@[simp] theorem State.dropPending_nextId : (s.dropPending u m b p).nextId = s.nextId := rfl
@[simp] theorem State.dropPending_turn : (s.dropPending u m b p).turn = s.turn := rfl
@[simp] theorem State.dropPending_powered : (s.dropPending u m b p).powered = s.powered := rfl
@[simp] theorem State.dropPending_devtime : (s.dropPending u m b p).devtime = s.devtime := rfl
@[simp] theorem State.dropPending_clk : (s.dropPending u m b p).clk = s.clk := rfl
@[simp] theorem State.dropPending_epoch : (s.dropPending u m b p).epoch = s.epoch := rfl
@[simp] theorem State.dropPending_mem : (s.dropPending u m b p).mem = s.mem := rfl
@[simp] theorem State.dropPending_durable : (s.dropPending u m b p).durable = s.durable := rfl
@[simp] theorem State.dropPending_kept : (s.dropPending u m b p).kept = s.kept := rfl
@[simp] theorem State.dropPending_writes : (s.dropPending u m b p).writes = s.writes := rfl
@[simp] theorem State.dropPending_stock : (s.dropPending u m b p).stock = s.stock := rfl
@[simp] theorem State.dropPending_freed : (s.dropPending u m b p).freed = s.freed := rfl
@[simp] theorem State.dropPending_coh : (s.dropPending u m b p).coh = s.coh := rfl
@[simp] theorem State.dropPending_diemask : (s.dropPending u m b p).diemask = s.diemask := rfl
@[simp] theorem State.dropPending_ctxs : (s.dropPending u m b p).ctxs = s.ctxs := rfl
@[simp] theorem State.dropPending_queues : (s.dropPending u m b p).queues = s.queues := rfl
@[simp] theorem State.dropPending_launches : (s.dropPending u m b p).launches = s.launches := rfl
@[simp] theorem State.dropPending_blocks : (s.dropPending u m b p).blocks = s.blocks := rfl
@[simp] theorem State.dropPending_run : (s.dropPending u m b p).run = s.run := rfl
@[simp] theorem State.dropPending_runs : (s.dropPending u m b p).runs = s.runs := rfl
@[simp] theorem State.dropPending_services : (s.dropPending u m b p).services = s.services := rfl
@[simp] theorem State.dropPending_engStops : (s.dropPending u m b p).engStops = s.engStops := rfl
@[simp] theorem State.dropPending_sched : (s.dropPending u m b p).sched = s.sched := rfl
@[simp] theorem State.dropPending_xlat : (s.dropPending u m b p).xlat = s.xlat := rfl
@[simp] theorem State.dropPending_ibk : (s.dropPending u m b p).ibk = s.ibk := rfl
@[simp] theorem State.dropPending_hsel : (s.dropPending u m b p).hsel = s.hsel := rfl
@[simp] theorem State.dropPending_operators : (s.dropPending u m b p).operators = s.operators := rfl
@[simp] theorem State.dropPending_posted : (s.dropPending u m b p).posted = s.posted := rfl
@[simp] theorem State.dropPending_mslots : (s.dropPending u m b p).mslots = s.mslots := rfl
@[simp] theorem State.dropPending_fabric : (s.dropPending u m b p).fabric = s.fabric := rfl
@[simp] theorem State.dropPending_boot : (s.dropPending u m b p).boot = s.boot := rfl
@[simp] theorem State.dropPending_mail : (s.dropPending u m b p).mail = s.mail := rfl
@[simp] theorem State.dropPending_ptp : (s.dropPending u m b p).ptp = s.ptp := rfl
@[simp] theorem State.dropPending_health : (s.dropPending u m b p).health = s.health := rfl
@[simp] theorem State.dropPending_out : (s.dropPending u m b p).out = s.out := rfl
end dropPending_

section addOp_
variable (s : State) (e : Env) (ks : List Nat) (k : OpKind)
@[simp] theorem State.addOp_agenda : (s.addOp e ks k).agenda = s.agenda := rfl
@[simp] theorem State.addOp_paceNs : (s.addOp e ks k).paceNs = s.paceNs := rfl
@[simp] theorem State.addOp_paceClk : (s.addOp e ks k).paceClk = s.paceClk := rfl
@[simp] theorem State.addOp_freeCtr : (s.addOp e ks k).freeCtr = s.freeCtr := rfl
@[simp] theorem State.addOp_turn : (s.addOp e ks k).turn = s.turn := rfl
@[simp] theorem State.addOp_powered : (s.addOp e ks k).powered = s.powered := rfl
@[simp] theorem State.addOp_devtime : (s.addOp e ks k).devtime = s.devtime := rfl
@[simp] theorem State.addOp_clk : (s.addOp e ks k).clk = s.clk := rfl
@[simp] theorem State.addOp_epoch : (s.addOp e ks k).epoch = s.epoch := rfl
@[simp] theorem State.addOp_mem : (s.addOp e ks k).mem = s.mem := rfl
@[simp] theorem State.addOp_durable : (s.addOp e ks k).durable = s.durable := rfl
@[simp] theorem State.addOp_kept : (s.addOp e ks k).kept = s.kept := rfl
@[simp] theorem State.addOp_writes : (s.addOp e ks k).writes = s.writes := rfl
@[simp] theorem State.addOp_stock : (s.addOp e ks k).stock = s.stock := rfl
@[simp] theorem State.addOp_freed : (s.addOp e ks k).freed = s.freed := rfl
@[simp] theorem State.addOp_coh : (s.addOp e ks k).coh = s.coh := rfl
@[simp] theorem State.addOp_diemask : (s.addOp e ks k).diemask = s.diemask := rfl
@[simp] theorem State.addOp_ctxs : (s.addOp e ks k).ctxs = s.ctxs := rfl
@[simp] theorem State.addOp_queues : (s.addOp e ks k).queues = s.queues := rfl
@[simp] theorem State.addOp_launches : (s.addOp e ks k).launches = s.launches := rfl
@[simp] theorem State.addOp_blocks : (s.addOp e ks k).blocks = s.blocks := rfl
@[simp] theorem State.addOp_run : (s.addOp e ks k).run = s.run := rfl
@[simp] theorem State.addOp_runs : (s.addOp e ks k).runs = s.runs := rfl
@[simp] theorem State.addOp_services : (s.addOp e ks k).services = s.services := rfl
@[simp] theorem State.addOp_engStops : (s.addOp e ks k).engStops = s.engStops := rfl
@[simp] theorem State.addOp_sched : (s.addOp e ks k).sched = s.sched := rfl
@[simp] theorem State.addOp_xlat : (s.addOp e ks k).xlat = s.xlat := rfl
@[simp] theorem State.addOp_ibk : (s.addOp e ks k).ibk = s.ibk := rfl
@[simp] theorem State.addOp_hsel : (s.addOp e ks k).hsel = s.hsel := rfl
@[simp] theorem State.addOp_operators : (s.addOp e ks k).operators = s.operators := rfl
@[simp] theorem State.addOp_posted : (s.addOp e ks k).posted = s.posted := rfl
@[simp] theorem State.addOp_mslots : (s.addOp e ks k).mslots = s.mslots := rfl
@[simp] theorem State.addOp_fabric : (s.addOp e ks k).fabric = s.fabric := rfl
@[simp] theorem State.addOp_boot : (s.addOp e ks k).boot = s.boot := rfl
@[simp] theorem State.addOp_mail : (s.addOp e ks k).mail = s.mail := rfl
@[simp] theorem State.addOp_ptp : (s.addOp e ks k).ptp = s.ptp := rfl
@[simp] theorem State.addOp_health : (s.addOp e ks k).health = s.health := rfl
@[simp] theorem State.addOp_out : (s.addOp e ks k).out = s.out := rfl
end addOp_

section dropOp_
variable (s : State) (o : Op)
@[simp] theorem State.dropOp_agenda : (s.dropOp o).agenda = s.agenda := rfl
@[simp] theorem State.dropOp_paceNs : (s.dropOp o).paceNs = s.paceNs := rfl
@[simp] theorem State.dropOp_paceClk : (s.dropOp o).paceClk = s.paceClk := rfl
@[simp] theorem State.dropOp_freeCtr : (s.dropOp o).freeCtr = s.freeCtr := rfl
@[simp] theorem State.dropOp_nextId : (s.dropOp o).nextId = s.nextId := rfl
@[simp] theorem State.dropOp_turn : (s.dropOp o).turn = s.turn := rfl
@[simp] theorem State.dropOp_powered : (s.dropOp o).powered = s.powered := rfl
@[simp] theorem State.dropOp_devtime : (s.dropOp o).devtime = s.devtime := rfl
@[simp] theorem State.dropOp_clk : (s.dropOp o).clk = s.clk := rfl
@[simp] theorem State.dropOp_epoch : (s.dropOp o).epoch = s.epoch := rfl
@[simp] theorem State.dropOp_mem : (s.dropOp o).mem = s.mem := rfl
@[simp] theorem State.dropOp_durable : (s.dropOp o).durable = s.durable := rfl
@[simp] theorem State.dropOp_kept : (s.dropOp o).kept = s.kept := rfl
@[simp] theorem State.dropOp_writes : (s.dropOp o).writes = s.writes := rfl
@[simp] theorem State.dropOp_stock : (s.dropOp o).stock = s.stock := rfl
@[simp] theorem State.dropOp_freed : (s.dropOp o).freed = s.freed := rfl
@[simp] theorem State.dropOp_coh : (s.dropOp o).coh = s.coh := rfl
@[simp] theorem State.dropOp_diemask : (s.dropOp o).diemask = s.diemask := rfl
@[simp] theorem State.dropOp_ctxs : (s.dropOp o).ctxs = s.ctxs := rfl
@[simp] theorem State.dropOp_queues : (s.dropOp o).queues = s.queues := rfl
@[simp] theorem State.dropOp_launches : (s.dropOp o).launches = s.launches := rfl
@[simp] theorem State.dropOp_run : (s.dropOp o).run = s.run := rfl
@[simp] theorem State.dropOp_runs : (s.dropOp o).runs = s.runs := rfl
@[simp] theorem State.dropOp_services : (s.dropOp o).services = s.services := rfl
@[simp] theorem State.dropOp_engStops : (s.dropOp o).engStops = s.engStops := rfl
@[simp] theorem State.dropOp_sched : (s.dropOp o).sched = s.sched := rfl
@[simp] theorem State.dropOp_xlat : (s.dropOp o).xlat = s.xlat := rfl
@[simp] theorem State.dropOp_ibk : (s.dropOp o).ibk = s.ibk := rfl
@[simp] theorem State.dropOp_hsel : (s.dropOp o).hsel = s.hsel := rfl
@[simp] theorem State.dropOp_operators : (s.dropOp o).operators = s.operators := rfl
@[simp] theorem State.dropOp_posted : (s.dropOp o).posted = s.posted := rfl
@[simp] theorem State.dropOp_mslots : (s.dropOp o).mslots = s.mslots := rfl
@[simp] theorem State.dropOp_fabric : (s.dropOp o).fabric = s.fabric := rfl
@[simp] theorem State.dropOp_boot : (s.dropOp o).boot = s.boot := rfl
@[simp] theorem State.dropOp_mail : (s.dropOp o).mail = s.mail := rfl
@[simp] theorem State.dropOp_ptp : (s.dropOp o).ptp = s.ptp := rfl
@[simp] theorem State.dropOp_health : (s.dropOp o).health = s.health := rfl
@[simp] theorem State.dropOp_out : (s.dropOp o).out = s.out := rfl
end dropOp_

section settle_
variable (s : State) (u m : Nat)
@[simp] theorem State.settle_agenda : (s.settle u m).agenda = s.agenda := rfl
@[simp] theorem State.settle_paceNs : (s.settle u m).paceNs = s.paceNs := rfl
@[simp] theorem State.settle_paceClk : (s.settle u m).paceClk = s.paceClk := rfl
@[simp] theorem State.settle_freeCtr : (s.settle u m).freeCtr = s.freeCtr := rfl
@[simp] theorem State.settle_nextId : (s.settle u m).nextId = s.nextId := rfl
@[simp] theorem State.settle_turn : (s.settle u m).turn = s.turn := rfl
@[simp] theorem State.settle_powered : (s.settle u m).powered = s.powered := rfl
@[simp] theorem State.settle_devtime : (s.settle u m).devtime = s.devtime := rfl
@[simp] theorem State.settle_clk : (s.settle u m).clk = s.clk := rfl
@[simp] theorem State.settle_epoch : (s.settle u m).epoch = s.epoch := rfl
@[simp] theorem State.settle_mem : (s.settle u m).mem = s.mem := rfl
@[simp] theorem State.settle_durable : (s.settle u m).durable = s.durable := rfl
@[simp] theorem State.settle_kept : (s.settle u m).kept = s.kept := rfl
@[simp] theorem State.settle_writes : (s.settle u m).writes = s.writes := rfl
@[simp] theorem State.settle_stock : (s.settle u m).stock = s.stock := rfl
@[simp] theorem State.settle_freed : (s.settle u m).freed = s.freed := rfl
@[simp] theorem State.settle_coh : (s.settle u m).coh = s.coh := rfl
@[simp] theorem State.settle_diemask : (s.settle u m).diemask = s.diemask := rfl
@[simp] theorem State.settle_ctxs : (s.settle u m).ctxs = s.ctxs := rfl
@[simp] theorem State.settle_queues : (s.settle u m).queues = s.queues := rfl
@[simp] theorem State.settle_launches : (s.settle u m).launches = s.launches := rfl
@[simp] theorem State.settle_run : (s.settle u m).run = s.run := rfl
@[simp] theorem State.settle_runs : (s.settle u m).runs = s.runs := rfl
@[simp] theorem State.settle_ops : (s.settle u m).ops = s.ops := rfl
@[simp] theorem State.settle_services : (s.settle u m).services = s.services := rfl
@[simp] theorem State.settle_engStops : (s.settle u m).engStops = s.engStops := rfl
@[simp] theorem State.settle_sched : (s.settle u m).sched = s.sched := rfl
@[simp] theorem State.settle_xlat : (s.settle u m).xlat = s.xlat := rfl
@[simp] theorem State.settle_ibk : (s.settle u m).ibk = s.ibk := rfl
@[simp] theorem State.settle_hsel : (s.settle u m).hsel = s.hsel := rfl
@[simp] theorem State.settle_operators : (s.settle u m).operators = s.operators := rfl
@[simp] theorem State.settle_posted : (s.settle u m).posted = s.posted := rfl
@[simp] theorem State.settle_mslots : (s.settle u m).mslots = s.mslots := rfl
@[simp] theorem State.settle_fabric : (s.settle u m).fabric = s.fabric := rfl
@[simp] theorem State.settle_boot : (s.settle u m).boot = s.boot := rfl
@[simp] theorem State.settle_mail : (s.settle u m).mail = s.mail := rfl
@[simp] theorem State.settle_ptp : (s.settle u m).ptp = s.ptp := rfl
@[simp] theorem State.settle_health : (s.settle u m).health = s.health := rfl
@[simp] theorem State.settle_out : (s.settle u m).out = s.out := rfl
end settle_

section updOp_
variable (s : State) (n : Nat) (f : Operator → Operator)
@[simp] theorem State.updOp_agenda : (s.updOp n f).agenda = s.agenda := rfl
@[simp] theorem State.updOp_paceNs : (s.updOp n f).paceNs = s.paceNs := rfl
@[simp] theorem State.updOp_paceClk : (s.updOp n f).paceClk = s.paceClk := rfl
@[simp] theorem State.updOp_freeCtr : (s.updOp n f).freeCtr = s.freeCtr := rfl
@[simp] theorem State.updOp_nextId : (s.updOp n f).nextId = s.nextId := rfl
@[simp] theorem State.updOp_turn : (s.updOp n f).turn = s.turn := rfl
@[simp] theorem State.updOp_powered : (s.updOp n f).powered = s.powered := rfl
@[simp] theorem State.updOp_devtime : (s.updOp n f).devtime = s.devtime := rfl
@[simp] theorem State.updOp_clk : (s.updOp n f).clk = s.clk := rfl
@[simp] theorem State.updOp_epoch : (s.updOp n f).epoch = s.epoch := rfl
@[simp] theorem State.updOp_mem : (s.updOp n f).mem = s.mem := rfl
@[simp] theorem State.updOp_durable : (s.updOp n f).durable = s.durable := rfl
@[simp] theorem State.updOp_kept : (s.updOp n f).kept = s.kept := rfl
@[simp] theorem State.updOp_writes : (s.updOp n f).writes = s.writes := rfl
@[simp] theorem State.updOp_stock : (s.updOp n f).stock = s.stock := rfl
@[simp] theorem State.updOp_freed : (s.updOp n f).freed = s.freed := rfl
@[simp] theorem State.updOp_coh : (s.updOp n f).coh = s.coh := rfl
@[simp] theorem State.updOp_diemask : (s.updOp n f).diemask = s.diemask := rfl
@[simp] theorem State.updOp_ctxs : (s.updOp n f).ctxs = s.ctxs := rfl
@[simp] theorem State.updOp_queues : (s.updOp n f).queues = s.queues := rfl
@[simp] theorem State.updOp_launches : (s.updOp n f).launches = s.launches := rfl
@[simp] theorem State.updOp_run : (s.updOp n f).run = s.run := rfl
@[simp] theorem State.updOp_runs : (s.updOp n f).runs = s.runs := rfl
@[simp] theorem State.updOp_ops : (s.updOp n f).ops = s.ops := rfl
@[simp] theorem State.updOp_services : (s.updOp n f).services = s.services := rfl
@[simp] theorem State.updOp_engStops : (s.updOp n f).engStops = s.engStops := rfl
@[simp] theorem State.updOp_sched : (s.updOp n f).sched = s.sched := rfl
@[simp] theorem State.updOp_xlat : (s.updOp n f).xlat = s.xlat := rfl
@[simp] theorem State.updOp_ibk : (s.updOp n f).ibk = s.ibk := rfl
@[simp] theorem State.updOp_hsel : (s.updOp n f).hsel = s.hsel := rfl
@[simp] theorem State.updOp_posted : (s.updOp n f).posted = s.posted := rfl
@[simp] theorem State.updOp_mslots : (s.updOp n f).mslots = s.mslots := rfl
@[simp] theorem State.updOp_fabric : (s.updOp n f).fabric = s.fabric := rfl
@[simp] theorem State.updOp_boot : (s.updOp n f).boot = s.boot := rfl
@[simp] theorem State.updOp_mail : (s.updOp n f).mail = s.mail := rfl
@[simp] theorem State.updOp_ptp : (s.updOp n f).ptp = s.ptp := rfl
@[simp] theorem State.updOp_health : (s.updOp n f).health = s.health := rfl
@[simp] theorem State.updOp_out : (s.updOp n f).out = s.out := rfl
@[simp] theorem State.updOp_blocks : (s.updOp n f).blocks = s.blocks := rfl
end updOp_

section updQueue_
variable (s : State) (n : Nat) (f : Queue → Queue)
theorem State.updQueue_eq : s.updQueue n f = { s with queues := (s.updQueue n f).queues } := by
  unfold State.updQueue; split <;> rfl
@[simp] theorem State.updQueue_agenda : (s.updQueue n f).agenda = s.agenda := by rw [State.updQueue_eq]
@[simp] theorem State.updQueue_paceNs : (s.updQueue n f).paceNs = s.paceNs := by rw [State.updQueue_eq]
@[simp] theorem State.updQueue_paceClk : (s.updQueue n f).paceClk = s.paceClk := by rw [State.updQueue_eq]
@[simp] theorem State.updQueue_freeCtr : (s.updQueue n f).freeCtr = s.freeCtr := by rw [State.updQueue_eq]
@[simp] theorem State.updQueue_nextId : (s.updQueue n f).nextId = s.nextId := by rw [State.updQueue_eq]
@[simp] theorem State.updQueue_turn : (s.updQueue n f).turn = s.turn := by rw [State.updQueue_eq]
@[simp] theorem State.updQueue_powered : (s.updQueue n f).powered = s.powered := by rw [State.updQueue_eq]
@[simp] theorem State.updQueue_devtime : (s.updQueue n f).devtime = s.devtime := by rw [State.updQueue_eq]
@[simp] theorem State.updQueue_clk : (s.updQueue n f).clk = s.clk := by rw [State.updQueue_eq]
@[simp] theorem State.updQueue_epoch : (s.updQueue n f).epoch = s.epoch := by rw [State.updQueue_eq]
@[simp] theorem State.updQueue_mem : (s.updQueue n f).mem = s.mem := by rw [State.updQueue_eq]
@[simp] theorem State.updQueue_durable : (s.updQueue n f).durable = s.durable := by rw [State.updQueue_eq]
@[simp] theorem State.updQueue_kept : (s.updQueue n f).kept = s.kept := by rw [State.updQueue_eq]
@[simp] theorem State.updQueue_writes : (s.updQueue n f).writes = s.writes := by rw [State.updQueue_eq]
@[simp] theorem State.updQueue_stock : (s.updQueue n f).stock = s.stock := by rw [State.updQueue_eq]
@[simp] theorem State.updQueue_freed : (s.updQueue n f).freed = s.freed := by rw [State.updQueue_eq]
@[simp] theorem State.updQueue_coh : (s.updQueue n f).coh = s.coh := by rw [State.updQueue_eq]
@[simp] theorem State.updQueue_diemask : (s.updQueue n f).diemask = s.diemask := by rw [State.updQueue_eq]
@[simp] theorem State.updQueue_ctxs : (s.updQueue n f).ctxs = s.ctxs := by rw [State.updQueue_eq]
@[simp] theorem State.updQueue_launches : (s.updQueue n f).launches = s.launches := by rw [State.updQueue_eq]
@[simp] theorem State.updQueue_run : (s.updQueue n f).run = s.run := by rw [State.updQueue_eq]
@[simp] theorem State.updQueue_runs : (s.updQueue n f).runs = s.runs := by rw [State.updQueue_eq]
@[simp] theorem State.updQueue_ops : (s.updQueue n f).ops = s.ops := by rw [State.updQueue_eq]
@[simp] theorem State.updQueue_services : (s.updQueue n f).services = s.services := by rw [State.updQueue_eq]
@[simp] theorem State.updQueue_engStops : (s.updQueue n f).engStops = s.engStops := by rw [State.updQueue_eq]
@[simp] theorem State.updQueue_sched : (s.updQueue n f).sched = s.sched := by rw [State.updQueue_eq]
@[simp] theorem State.updQueue_xlat : (s.updQueue n f).xlat = s.xlat := by rw [State.updQueue_eq]
@[simp] theorem State.updQueue_ibk : (s.updQueue n f).ibk = s.ibk := by rw [State.updQueue_eq]
@[simp] theorem State.updQueue_hsel : (s.updQueue n f).hsel = s.hsel := by rw [State.updQueue_eq]
@[simp] theorem State.updQueue_operators : (s.updQueue n f).operators = s.operators := by rw [State.updQueue_eq]
@[simp] theorem State.updQueue_posted : (s.updQueue n f).posted = s.posted := by rw [State.updQueue_eq]
@[simp] theorem State.updQueue_mslots : (s.updQueue n f).mslots = s.mslots := by rw [State.updQueue_eq]
@[simp] theorem State.updQueue_fabric : (s.updQueue n f).fabric = s.fabric := by rw [State.updQueue_eq]
@[simp] theorem State.updQueue_boot : (s.updQueue n f).boot = s.boot := by rw [State.updQueue_eq]
@[simp] theorem State.updQueue_mail : (s.updQueue n f).mail = s.mail := by rw [State.updQueue_eq]
@[simp] theorem State.updQueue_ptp : (s.updQueue n f).ptp = s.ptp := by rw [State.updQueue_eq]
@[simp] theorem State.updQueue_health : (s.updQueue n f).health = s.health := by rw [State.updQueue_eq]
@[simp] theorem State.updQueue_out : (s.updQueue n f).out = s.out := by rw [State.updQueue_eq]
@[simp] theorem State.updQueue_blocks : (s.updQueue n f).blocks = s.blocks := by rw [State.updQueue_eq]
end updQueue_

section updOpn_
variable (s : State) (id : Nat) (f : Op → Op)
@[simp] theorem State.updOpn_agenda : (s.updOpn id f).agenda = s.agenda := rfl
@[simp] theorem State.updOpn_paceNs : (s.updOpn id f).paceNs = s.paceNs := rfl
@[simp] theorem State.updOpn_paceClk : (s.updOpn id f).paceClk = s.paceClk := rfl
@[simp] theorem State.updOpn_freeCtr : (s.updOpn id f).freeCtr = s.freeCtr := rfl
@[simp] theorem State.updOpn_nextId : (s.updOpn id f).nextId = s.nextId := rfl
@[simp] theorem State.updOpn_turn : (s.updOpn id f).turn = s.turn := rfl
@[simp] theorem State.updOpn_powered : (s.updOpn id f).powered = s.powered := rfl
@[simp] theorem State.updOpn_devtime : (s.updOpn id f).devtime = s.devtime := rfl
@[simp] theorem State.updOpn_clk : (s.updOpn id f).clk = s.clk := rfl
@[simp] theorem State.updOpn_epoch : (s.updOpn id f).epoch = s.epoch := rfl
@[simp] theorem State.updOpn_mem : (s.updOpn id f).mem = s.mem := rfl
@[simp] theorem State.updOpn_durable : (s.updOpn id f).durable = s.durable := rfl
@[simp] theorem State.updOpn_kept : (s.updOpn id f).kept = s.kept := rfl
@[simp] theorem State.updOpn_writes : (s.updOpn id f).writes = s.writes := rfl
@[simp] theorem State.updOpn_stock : (s.updOpn id f).stock = s.stock := rfl
@[simp] theorem State.updOpn_freed : (s.updOpn id f).freed = s.freed := rfl
@[simp] theorem State.updOpn_coh : (s.updOpn id f).coh = s.coh := rfl
@[simp] theorem State.updOpn_diemask : (s.updOpn id f).diemask = s.diemask := rfl
@[simp] theorem State.updOpn_ctxs : (s.updOpn id f).ctxs = s.ctxs := rfl
@[simp] theorem State.updOpn_queues : (s.updOpn id f).queues = s.queues := rfl
@[simp] theorem State.updOpn_launches : (s.updOpn id f).launches = s.launches := rfl
@[simp] theorem State.updOpn_run : (s.updOpn id f).run = s.run := rfl
@[simp] theorem State.updOpn_runs : (s.updOpn id f).runs = s.runs := rfl
@[simp] theorem State.updOpn_services : (s.updOpn id f).services = s.services := rfl
@[simp] theorem State.updOpn_engStops : (s.updOpn id f).engStops = s.engStops := rfl
@[simp] theorem State.updOpn_sched : (s.updOpn id f).sched = s.sched := rfl
@[simp] theorem State.updOpn_xlat : (s.updOpn id f).xlat = s.xlat := rfl
@[simp] theorem State.updOpn_ibk : (s.updOpn id f).ibk = s.ibk := rfl
@[simp] theorem State.updOpn_hsel : (s.updOpn id f).hsel = s.hsel := rfl
@[simp] theorem State.updOpn_operators : (s.updOpn id f).operators = s.operators := rfl
@[simp] theorem State.updOpn_posted : (s.updOpn id f).posted = s.posted := rfl
@[simp] theorem State.updOpn_mslots : (s.updOpn id f).mslots = s.mslots := rfl
@[simp] theorem State.updOpn_fabric : (s.updOpn id f).fabric = s.fabric := rfl
@[simp] theorem State.updOpn_boot : (s.updOpn id f).boot = s.boot := rfl
@[simp] theorem State.updOpn_mail : (s.updOpn id f).mail = s.mail := rfl
@[simp] theorem State.updOpn_ptp : (s.updOpn id f).ptp = s.ptp := rfl
@[simp] theorem State.updOpn_health : (s.updOpn id f).health = s.health := rfl
@[simp] theorem State.updOpn_out : (s.updOpn id f).out = s.out := rfl
@[simp] theorem State.updOpn_blocks : (s.updOpn id f).blocks = s.blocks := rfl
end updOpn_

section loseS_
variable (s : State) (uid m below n : Nat)
@[simp] theorem State.loseS_agenda : (s.loseS uid m below n).agenda = s.agenda := rfl
@[simp] theorem State.loseS_paceNs : (s.loseS uid m below n).paceNs = s.paceNs := rfl
@[simp] theorem State.loseS_paceClk : (s.loseS uid m below n).paceClk = s.paceClk := rfl
@[simp] theorem State.loseS_freeCtr : (s.loseS uid m below n).freeCtr = s.freeCtr := rfl
@[simp] theorem State.loseS_nextId : (s.loseS uid m below n).nextId = s.nextId := rfl
@[simp] theorem State.loseS_turn : (s.loseS uid m below n).turn = s.turn := rfl
@[simp] theorem State.loseS_powered : (s.loseS uid m below n).powered = s.powered := rfl
@[simp] theorem State.loseS_devtime : (s.loseS uid m below n).devtime = s.devtime := rfl
@[simp] theorem State.loseS_clk : (s.loseS uid m below n).clk = s.clk := rfl
@[simp] theorem State.loseS_epoch : (s.loseS uid m below n).epoch = s.epoch := rfl
@[simp] theorem State.loseS_mem : (s.loseS uid m below n).mem = s.mem := rfl
@[simp] theorem State.loseS_durable : (s.loseS uid m below n).durable = s.durable := rfl
@[simp] theorem State.loseS_kept : (s.loseS uid m below n).kept = s.kept := rfl
@[simp] theorem State.loseS_writes : (s.loseS uid m below n).writes = s.writes := rfl
@[simp] theorem State.loseS_stock : (s.loseS uid m below n).stock = s.stock := rfl
@[simp] theorem State.loseS_freed : (s.loseS uid m below n).freed = s.freed := rfl
@[simp] theorem State.loseS_coh : (s.loseS uid m below n).coh = s.coh := rfl
@[simp] theorem State.loseS_diemask : (s.loseS uid m below n).diemask = s.diemask := rfl
@[simp] theorem State.loseS_ctxs : (s.loseS uid m below n).ctxs = s.ctxs := rfl
@[simp] theorem State.loseS_queues : (s.loseS uid m below n).queues = s.queues := rfl
@[simp] theorem State.loseS_launches : (s.loseS uid m below n).launches = s.launches := rfl
@[simp] theorem State.loseS_run : (s.loseS uid m below n).run = s.run := rfl
@[simp] theorem State.loseS_runs : (s.loseS uid m below n).runs = s.runs := rfl
@[simp] theorem State.loseS_services : (s.loseS uid m below n).services = s.services := rfl
@[simp] theorem State.loseS_engStops : (s.loseS uid m below n).engStops = s.engStops := rfl
@[simp] theorem State.loseS_sched : (s.loseS uid m below n).sched = s.sched := rfl
@[simp] theorem State.loseS_xlat : (s.loseS uid m below n).xlat = s.xlat := rfl
@[simp] theorem State.loseS_ibk : (s.loseS uid m below n).ibk = s.ibk := rfl
@[simp] theorem State.loseS_hsel : (s.loseS uid m below n).hsel = s.hsel := rfl
@[simp] theorem State.loseS_operators : (s.loseS uid m below n).operators = s.operators := rfl
@[simp] theorem State.loseS_posted : (s.loseS uid m below n).posted = s.posted := rfl
@[simp] theorem State.loseS_mslots : (s.loseS uid m below n).mslots = s.mslots := rfl
@[simp] theorem State.loseS_fabric : (s.loseS uid m below n).fabric = s.fabric := rfl
@[simp] theorem State.loseS_boot : (s.loseS uid m below n).boot = s.boot := rfl
@[simp] theorem State.loseS_mail : (s.loseS uid m below n).mail = s.mail := rfl
@[simp] theorem State.loseS_ptp : (s.loseS uid m below n).ptp = s.ptp := rfl
@[simp] theorem State.loseS_health : (s.loseS uid m below n).health = s.health := rfl
@[simp] theorem State.loseS_out : (s.loseS uid m below n).out = s.out := rfl
@[simp] theorem State.loseS_blocks : (s.loseS uid m below n).blocks = s.blocks := rfl
end loseS_

end Sys2Proof.Machine
end

