-- ==== Sys2Proof/Laws/Work.lean ====
section
/-! SUPPORT. Work.lean (laws): blocks, spindles and registers after the updates the meanings are made of. -/

namespace Sys2Proof.Machine

/-- The first element that satisfies a test, in a list whose elements a map changes without touching the test. -/
theorem find?_map_same {α : Type} (p : α → Bool) (g : α → α) (h : ∀ x, p (g x) = p x) (l : List α) :
    (l.map g).find? p = (l.find? p).map g := by
  induction l with
  | nil => rfl
  | cons x r ih =>
    simp only [List.map_cons, List.find?_cons, h]
    cases p x with
    | true => rfl
    | false => exact ih

/-- A block after an update of one block. -/
theorem State.blk_updBlk (s : State) (u v : Nat) (f : Block → Block) (h : ∀ b, (f b).uid = b.uid) :
    (s.updBlk u f).blk v = (s.blk v).map (fun b => if b.uid == u then f b else b) := by
  unfold State.blk State.updBlk
  exact find?_map_same _ _ (fun b => by split <;> simp [h]) _

/-- A spindle after an update of one spindle of its block. -/
theorem Block.sp_updSp (b : Block) (m n : Nat) (f : Spindle → Spindle) (h : ∀ x, (f x).m = x.m) :
    (b.updSp m f).sp n = (b.sp n).map (fun x => if x.m == m then f x else x) := by
  unfold Block.sp Block.updSp
  exact find?_map_same _ _ (fun x => by split <;> simp [h]) _

/-- The block found has the number asked for. -/
theorem State.blk_uid {s : State} {u : Nat} {b : Block} (h : s.blk u = some b) : b.uid = u := by
  simpa using List.find?_some h

/-- The spindle found has the field-1 value asked for. -/
theorem Block.sp_m {b : Block} {m : Nat} {x : Spindle} (h : b.sp m = some x) : x.m = m := by
  simpa using List.find?_some h

end Sys2Proof.Machine

namespace Sys2Proof.Safety

open Sys2Proof.Machine

variable (s : State) (u m : Nat) (f : Spindle → Spindle)

/-- The spindle updated, and the others. -/
theorem spn_updSp (h : ∀ x, (f x).m = x.m) (v n : Nat) :
    spn (s.updSp u m f) v n = (spn s v n).map (fun x => if v = u ∧ n = m then f x else x) := by
  unfold spn State.updSp
  rw [State.blk_updBlk s u v (fun b => b.updSp m f) (fun _ => rfl)]
  cases hb : s.blk v with
  | none => rfl
  | some b =>
    have hu := State.blk_uid hb
    by_cases huv : v = u
    · subst huv
      simp only [Option.map_some, Option.bind_some, hu, beq_self_eq_true, if_true, true_and]
      rw [Block.sp_updSp _ _ _ _ h]
      cases hx : b.sp n with
      | none => rfl
      | some x => simp [Block.sp_m hx]
    · have : (b.uid == u) = false := by simpa [hu] using huv
      simp only [Option.map_some, Option.bind_some, this, huv, false_and]
      cases hx : b.sp n <;> simp [hx]

/-- The blocks' own fields. -/
@[simp] theorem shell_updSp (v : Nat) : shell (s.updSp u m f) v = shell s v := by
  unfold shell State.updSp
  rw [State.blk_updBlk s u v (fun b => b.updSp m f) (fun _ => rfl), Option.map_map]
  congr 1
  funext b
  simp only [Function.comp_apply, Block.updSp]
  split <;> rfl

/-- An update of one spindle changes nothing else. -/
theorem onlySpindle_updSp (h : ∀ x, (f x).m = x.m) : OnlySpindle s (s.updSp u m f) u m where
  others u' m' hne := by
    rw [spn_updSp _ _ _ _ h]
    simp only [hne, if_false, Option.map_id']
  shells u' := by simp
  rest := rfl

end Sys2Proof.Safety
end

