-- ==== Sys2Proof/Laws/Lane.lean ====
section
/-! SUPPORT. Lane.lean (laws): what writing a result does, and all it does: vector, uniform, predicate. -/

namespace Sys2Proof.Safety

open Sys2Proof.Machine

/-- The clause in progress runs in the block and spindle found. -/
theorem env_found {s : State} {e : Env} (h : s.env = some e) :
    e.r = s.run ∧ s.blk e.b.uid = some e.b ∧ e.b.sp e.sp.m = some e.sp ∧ spn s e.b.uid e.sp.m = some e.sp := by
  unfold State.env at h
  split at h
  · split at h
    · rename_i b hb
      split at h
      · rename_i sp hs
        cases h
        have hu := State.blk_uid hb
        have hm := Block.sp_m hs
        simp only [hu, hm]
        exact ⟨trivial, hb, hs, by simp [spn, hb, hs]⟩
      · cases h
    · cases h
  · cases h

/-- An instruction acts where slots execute it. -/
theorem within_env {s : State} {e : Env} (h : s.env = some e) (f : Env → State) : s.within f = .next (f e) := by
  simp [State.within, h]

variable {s : State} {e : Env}

/-- The list of registers with one changed. -/
theorem setV_get (sp : Spindle) (n i : Nat) (f : VReg → VReg) :
    (sp.setV n f).v[i]? = (sp.v[i]?).map (fun r => if i = n then f r else r) := by
  simp [Spindle.setV, List.getElem?_map, List.getElem?_zipIdx, Option.map_map, Function.comp_def]

/-- A register written in the executing slots. -/
theorem putReg_get (f : Nat → Word) (tg : Tag) (r : VReg) (k : Nat) :
    (e.putReg f tg r).vals[k]? = (r.vals[k]?).map (fun w => if k ∈ e.r.exec then f k else w) := by
  simp [Env.putReg, List.getElem?_map, List.getElem?_zipIdx, Option.map_map, Function.comp_def]

/-- Two updates of one spindle are one. -/
theorem updSp_updSp (s : State) (u m : Nat) (f g : Spindle → Spindle) (hf : ∀ x, (f x).m = x.m) :
    (s.updSp u m f).updSp u m g = s.updSp u m (fun x => g (f x)) := by
  unfold State.updSp State.updBlk
  simp only [List.map_map, Function.comp_def]
  congr 1
  apply List.map_congr_left
  intro b _
  by_cases hb : b.uid == u
  · simp only [hb, if_true]
    have : (b.updSp m f).uid = b.uid := rfl
    simp only [this, hb, if_true]
    unfold Block.updSp
    simp only [List.map_map, Function.comp_def]
    congr 1
    apply List.map_congr_left
    intro x _
    by_cases hx : x.m == m
    · simp [hx, hf]
    · simp [hx]
  · simp [hb]

/-- The change that a vector result makes to its spindle. -/
def writeSp (e : Env) (n : BitVec 7) (wide : Bool) (f : Nat → Dword) (tg : Tag) (sp : Spindle) : Spindle :=
  let sp := sp.setV n.toNat (e.putReg (fun k => lo32 (f k)) tg)
  if wide then sp.setV (n.toNat + 1) (e.putReg (fun k => hi32 (f k)) tg) else sp

/-- `putV` with a register. -/
theorem putV_reg (s : State) (e : Env) (n : BitVec 7) (wide : Bool) (f : Nat → Dword) (tg : Tag) :
    s.putV e (.v n) wide f tg =
      ((({ s with run := { s.run with lat := some (Env.mkLatch wide f (e.resultTag tg)) } }).updSp e.b.uid e.sp.m
        (writeSp e n wide f tg)).dropPending e.b.uid e.sp.m s.nextId
          (fun k r => e.r.exec.contains k && (r == n.toNat || (wide && r == n.toNat + 1)))) := by
  cases wide
  · rfl
  · simp only [State.putV, if_true]
    rw [updSp_updSp _ _ _ (fun sp => sp.setV n.toNat (e.putReg (fun k => lo32 (f k)) tg)) _ (fun x => rfl)]
    rfl

theorem writeSp_m (e : Env) (n : BitVec 7) (wide : Bool) (f : Nat → Dword) (tg : Tag) (sp : Spindle) :
    (writeSp e n wide f tg sp).m = sp.m := by cases wide <;> rfl

theorem writeSp_rest (e : Env) (n : BitVec 7) (wide : Bool) (f : Nat → Dword) (tg : Tag) (sp : Spindle) :
    { writeSp e n wide f tg sp with v := [] } = { sp with v := [] } := by cases wide <;> rfl

theorem writeSp_v (e : Env) (n : BitVec 7) (wide : Bool) (f : Nat → Dword) (tg : Tag) (sp : Spindle) (i : Nat) :
    (writeSp e n wide f tg sp).v[i]? = (sp.v[i]?).map (fun r =>
      if wide = true ∧ i = n.toNat + 1 then e.putReg (fun k => hi32 (f k)) tg r
      else if i = n.toNat then e.putReg (fun k => lo32 (f k)) tg r else r) := by
  cases wide
  · simp [writeSp, setV_get]
  · simp only [writeSp, setV_get, if_true, Option.map_map, Function.comp_def]
    congr 1
    funext r
    by_cases h1 : i = n.toNat + 1
    · have : ¬ i = n.toNat := by omega
      simp [h1]
    · simp [h1]

/-- R53, R58 to R60, R62: `putV`. -/
theorem putV_spec (h : s.env = some e) (d : VDst) (wide : Bool) (f : Nat → Dword) (tg : Tag) :
    VWrite s (s.putV e d wide f tg) e d wide f tg := by
  have hlat : ∀ k, k < 32 → (Env.mkLatch wide f (e.resultTag tg)).vals[k]? =
      some (if wide then f k else (lo32 (f k)).setWidth 64) := by
    intro k hk
    simp [Env.mkLatch, hk]
  obtain ⟨hr, hb, hs, hsp⟩ := env_found h
  cases d with
  | latch =>
    exact
      { only := ⟨fun _ _ _ => rfl, fun _ => rfl, rfl⟩
        words := fun n k => by
          show _ = Option.map (fun old => old) _
          rw [Option.map_id']
          rfl
        hit := fun n hn => hn.elim
        miss := fun _ _ => rfl
        else_ := rfl
        run := ⟨_, rfl, rfl, rfl, hlat⟩
        ops := rfl }
  | v r =>
    rw [putV_reg]
    have hspn : ∀ u' m', spn ((({ s with run := { s.run with lat := some (Env.mkLatch wide f (e.resultTag tg)) } }).updSp
        e.b.uid e.sp.m (writeSp e r wide f tg)).dropPending e.b.uid e.sp.m s.nextId
          (fun k i => e.r.exec.contains k && (i == r.toNat || (wide && i == r.toNat + 1)))) u' m' =
        (spn s u' m').map (fun x => if u' = e.b.uid ∧ m' = e.sp.m then writeSp e r wide f tg x else x) := by
      intro u' m'
      exact spn_updSp { s with run := { s.run with lat := some (Env.mkLatch wide f (e.resultTag tg)) } } e.b.uid e.sp.m _
        (writeSp_m e r wide f tg) u' m'
    exact
      { only :=
          ⟨fun u' m' hne => by rw [hspn]; simp [hne],
           fun u' => shell_updSp { s with run := { s.run with lat := some (Env.mkLatch wide f (e.resultTag tg)) } } _ _ _ u', rfl⟩
        words := fun n k => by
          unfold word vreg
          rw [hspn, hsp]
          simp only [Option.map_some, Option.bind_some, and_self, if_true, writeSp_v]
          cases hv : e.sp.v[n]? with
          | none => rfl
          | some x =>
            simp only [Option.map_some, Option.bind_some]
            split
            · rename_i h1
              rw [putReg_get]; congr 1; funext w; simp [newWord, h1]
            · rename_i h1
              split
              · rename_i h2
                rw [putReg_get]; congr 1; funext w; simp only [newWord, if_neg h1, if_pos h2]
              · rename_i h2
                cases hw : x.vals[k]? with
                | none => rfl
                | some w => simp only [Option.map_some, newWord, if_neg h1, if_neg h2, ite_self]
        hit := fun n hn => by
          unfold vreg
          rw [hspn, hsp]
          simp only [Option.map_some, Option.bind_some, and_self, if_true, writeSp_v, Option.map_map]
          congr 1
          funext x
          simp only [hits] at hn
          simp only [Function.comp_apply]
          split
          · rfl
          · rw [if_pos (by tauto)]; rfl
        miss := fun n hn => by
          unfold vreg
          rw [hspn, hsp]
          simp only [hits, not_or] at hn
          simp [writeSp_v, hn.1, hn.2]
        else_ := by
          rw [hspn, hsp]
          simp [writeSp_rest]
        run := ⟨_, rfl, rfl, rfl, hlat⟩
        ops := rfl }

/-- A thread in a list of threads with some changed. -/
theorem threads_get (l : List Thread) (g : Thread × Nat → Thread) (k : Nat) :
    (l.zipIdx.map g)[k]? = (l[k]?).map (fun x => g (x, k)) := by
  simp [List.getElem?_map, List.getElem?_zipIdx, Option.map_map, Function.comp_def]

/-- One predicate bit set or cleared. -/
theorem setPred_bit (w : Word) (p : BitVec 5) (b : Bool) (i : Nat) (hi : i < 32) :
    ((w &&& ~~~(1#32 <<< p.toNat)) ||| (if b then 1#32 <<< p.toNat else 0)).getLsbD i =
      if i = p.toNat then b else w.getLsbD i := by
  have hp := p.isLt
  by_cases hip : i = p.toNat
  · subst hip
    cases b <;> simp [hi]
  · by_cases hlt : i < p.toNat
    · cases b <;> simp [hi, hip, hlt]
    · have : ¬ i - p.toNat = 0 := by omega
      cases b <;> simp [hi, hip, this]

/-- The change that a predicate write makes to its spindle. -/
def predSp (e : Env) (p : BitVec 5) (f : Nat → Bool) (sp : Spindle) : Spindle :=
  { sp with threads := sp.threads.zipIdx.map (fun x =>
      if e.r.exec.contains x.2 then
        { x.1 with preds := (x.1.preds &&& ~~~(1#32 <<< p.toNat)) ||| (if f x.2 then 1#32 <<< p.toNat else 0) }
      else x.1) }

theorem putP_eq (s : State) (e : Env) (p : BitVec 5) (f : Nat → Bool) :
    s.putP e p f = s.updSp e.b.uid e.sp.m (predSp e p f) := rfl

/-- R57: `putP`. -/
theorem putP_spec (h : s.env = some e) (p : BitVec 5) (f : Nat → Bool) : PWrite s (s.putP e p f) e p f := by
  obtain ⟨hr, hb, hs, hsp⟩ := env_found h
  have hspn := spn_updSp s e.b.uid e.sp.m (predSp e p f) (fun _ => rfl)
  rw [putP_eq]
  exact
    { only := onlySpindle_updSp _ _ _ _ (fun _ => rfl)
      run := rfl
      ops := rfl
      else_ := by rw [hspn, hsp]; simp [predSp]
      gone := fun k hk => by
        unfold thr at hk ⊢
        rw [hspn, hsp]
        rw [hsp] at hk
        simp only [Option.bind_some] at hk
        simp [predSp, hk]
      bits := fun k x hx => by
        unfold thr at hx ⊢
        rw [hspn, hsp]
        rw [hsp] at hx
        simp only [Option.bind_some] at hx
        simp only [Option.map_some, Option.bind_some, and_self, if_true, predSp, threads_get, hx]
        by_cases hk : k ∈ e.r.exec
        · refine ⟨_, by simp only [List.contains_iff_mem, hk, if_true]; rfl, ?_⟩
          intro i hi
          simpa [hk] using setPred_bit x.preds p (f k) i hi
        · exact ⟨x.preds, by simp [hk], fun i _ => by simp [hk]⟩ }

/-- R55, R60, R62: `putU`. -/
theorem putU_spec (h : s.env = some e) (d : UDst) (v : Dword) : UWrite s (s.putU e d v) e d v := by
  obtain ⟨hr, hb, hs, hsp⟩ := env_found h
  have hlat : ∀ k, k < 32 → (Env.mkLatch true (fun _ => v) .u).vals[k]? = some v := by
    intro k hk
    simp only [Env.mkLatch, if_true, List.getElem?_map, List.getElem?_range hk, Option.map_some]
  cases d with
  | latch =>
    exact
      { rest := rfl
        others := fun _ _ _ => rfl
        shells := fun _ => rfl
        regs := fun n => by
          show _ = Option.map (fun old => old) _
          rw [Option.map_id']
          rfl
        else_ := rfl
        threads := fun k => by
          show _ = Option.map (fun x => x) _
          rw [Option.map_id']
          rfl
        runs := by
          show _ = List.map (fun x => x) _
          rw [List.map_id']
          rfl
        run := ⟨_, rfl, rfl, hlat, rfl⟩
        ops := rfl }
  | s n =>
    let old (sp : Spindle) : Dword := (sp.s[n.toNat]?).getD 0
    have hspn : ∀ u' m', spn (s.putU e (.s n) v) u' m' = _ := fun u' m' =>
      spn_updSp { s with run := { s.run with lat := some (Env.mkLatch true (fun _ => v) .u) } } e.b.uid e.sp.m
        (fun sp => { sp with s := sp.s.set n.toNat v, threads := sp.threads.map (fun t => t.keepOld n.toNat (old sp)) })
        (fun _ => rfl) u' m'
    have hsp' : spn { s with run := { s.run with lat := some (Env.mkLatch true (fun _ => v) .u) } } e.b.uid e.sp.m = some e.sp := hsp
    have hold : heldBefore s e.b.uid e.sp.m (.s n) = old e.sp := by simp [heldBefore, sreg, hsp, old]
    exact
      { rest := rfl
        others := fun u' m' hne => by rw [hspn]; simp only [hne, if_false, Option.map_id']; rfl
        shells := fun u' => shell_updSp { s with run := { s.run with lat := some (Env.mkLatch true (fun _ => v) .u) } } _ _ _ u'
        threads := fun k => by
          unfold thr
          rw [hspn, hsp', hsp, hold]
          simp
          rfl
        runs := by
          rw [hold]
          show s.runs.map _ = s.runs.map _
          have hw : (((s.blk e.b.uid).bind (fun b => b.sp e.sp.m)).map old).getD 0 = old e.sp := by
            have : (s.blk e.b.uid).bind (fun b => b.sp e.sp.m) = some e.sp := hsp
            rw [this]; rfl
          exact congrArg (fun x => s.runs.map (keptRun (.s n) e.b.uid e.sp.m x)) hw
        regs := fun i => by
          unfold sreg
          rw [hspn, hsp', hsp]
          simp only [Option.map_some, Option.bind_some, and_self, if_true, List.getElem?_set]
          by_cases hi : n.toNat = i
          · subst hi
            by_cases hl : n.toNat < e.sp.s.length
            · simp [hl]
            · simp [hl]
          · have : ¬ i = n.toNat := fun h => hi h.symm
            simp [hi, this]
        else_ := by rw [hspn, hsp', hsp]; simp
        run := ⟨_, rfl, rfl, hlat, rfl⟩
        ops := rfl }

end Sys2Proof.Safety
end

