-- ==== Sys2Proof/Laws/Clause.lean ====
section
/-! SUPPORT. Clause.lean (laws): what issuing an operation, leaving the clause and parking do, and all they do. -/

namespace Sys2Proof.Safety

open Sys2Proof.Machine

variable {s : State} {e : Env}

/-- R50: `addOp` for the whole batch. -/
theorem addOp_queued (s : State) (e : Env) (k : OpKind) : Queued s (s.addOp e e.r.exec k) e k := rfl

/-- A list of operations, one for each slot. -/
theorem foldl_addOp (e : Env) (g : Nat → OpKind) : ∀ (ks : List Nat) (s : State),
    ks.foldl (fun t k => t.addOp e [k] (g k)) s =
      { s with
        nextId := s.nextId + ks.length
        ops := s.ops ++ ks.zipIdx.map (fun x =>
          { id := s.nextId + x.2, blk := e.b.uid, m := e.sp.m, ctx := e.b.ctx, core := e.b.core, spid := e.sp.spid
            slots := [x.1], token := e.r.token, hdr := e.r.hdr, start := s.devtime, kind := g x.1 }) }
  | [], s => by simp
  | k :: r, s => by
    rw [List.foldl_cons, foldl_addOp e g r]
    simp only [State.addOp, State.fresh, List.length_cons, List.zipIdx_cons, List.map_cons, Nat.add_zero]
    congr 1
    · omega
    · rw [List.append_assoc, List.zipIdx_succ, List.map_map]
      simp [Function.comp_def, Nat.add_assoc, Nat.add_comm 1]

/-- R50, R52, R63: `issueRegs`. -/
theorem issueRegs_spec (h : s.env = some e) (base count : Nat) (f : Nat → List Word) :
    Issued s (s.issueRegs e base count f) e base count f := by
  obtain ⟨-, -, -, hsp⟩ := env_found h
  unfold State.issueRegs State.issueRegsAt State.tagG
  rw [foldl_addOp]
  generalize hg : (fun sp : Spindle => { sp with v := sp.v.zipIdx.map (fun (x : VReg × Nat) =>
    if base ≤ x.2 ∧ x.2 < base + count then { x.1 with tag := .g } else x.1) }) = g
  have hm : ∀ x, (g x).m = x.m := by subst hg; intro x; rfl
  have hspn : ∀ u' m', spn (s.updSp e.b.uid e.sp.m g) u' m' = _ := spn_updSp s e.b.uid e.sp.m g hm
  exact
    { rest := rfl
      others := fun u' m' hne => by
        show spn (s.updSp e.b.uid e.sp.m g) u' m' = _
        rw [hspn]; simp only [hne, if_false, Option.map_id']
      shells := fun u' => shell_updSp s _ _ _ u'
      regs := fun n => by
        show vreg (s.updSp e.b.uid e.sp.m g) _ _ n = _
        unfold vreg
        rw [hspn, hsp]
        subst hg
        simp [List.getElem?_map, List.getElem?_zipIdx, Option.map_map, Function.comp_def]
      else_ := by
        show Option.map _ (spn (s.updSp e.b.uid e.sp.m g) _ _) = _
        rw [hspn, hsp]; subst hg; simp
      ids := rfl
      ops := rfl }

/-- The change that `settle` makes to its spindle. -/
def settleSp (s : State) (u m : Nat) (sp : Spindle) : Spindle :=
  { sp with threads := sp.threads.zipIdx.map (fun x => woken { x.1 with tok := s.tokOf u m x.2 x.1 }) }

theorem settle_eq (s : State) (u m : Nat) : s.settle u m = s.updSp u m (settleSp s u m) := by
  unfold State.settle
  congr 1
  funext sp
  unfold settleSp
  congr 1
  apply List.map_congr_left
  intro x _
  simp only [woken]
  cases x.1.st with
  | parked c => cases c <;> simp
  | _ => rfl

/-- The spindles after `settle`. -/
theorem spn_settle (s : State) (u m v n : Nat) :
    spn (s.settle u m) v n = (spn s v n).map (fun x => if v = u ∧ n = m then settleSp s u m x else x) := by
  rw [settle_eq]; exact spn_updSp s u m (settleSp s u m) (fun _ => rfl) v n

/-- The blocks' own fields after `settle`. -/
@[simp] theorem shell_settle (s : State) (u m v : Nat) : shell (s.settle u m) v = shell s v := shell_updSp s u m _ v

/-- `settle`: tokens that nothing covers clear, and threads parked on them run on. -/
theorem settle_threads (s : State) (u m v n k : Nat) :
    thr (s.settle u m) v n k = (thr s v n k).map (fun x =>
      if v = u ∧ n = m then woken { x with tok := s.tokOf u m k x } else x) := by
  unfold thr
  rw [spn_settle]
  cases hx : spn s v n with
  | none => rfl
  | some sp =>
    simp only [Option.map_some, Option.bind_some]
    by_cases hc : v = u ∧ n = m
    · simp only [hc, and_self, if_true, settleSp]
      rw [threads_get]
    · simp only [hc, if_false, Option.map_id']

/-- R61: a token is kept where something covers it. -/
theorem tokOf_bit (s : State) (u m k : Nat) (x : Thread) (i : Nat) (hi : i < 8) :
    (s.tokOf u m k x).getLsbD i = (x.tok.getLsbD i && s.covered u m k x (BitVec.ofNat 3 i)) := by
  unfold State.tokOf
  generalize hc : (fun j => x.tok.getLsbD j && s.covered u m k x (BitVec.ofNat 3 j)) = c
  have : (x.tok.getLsbD i && s.covered u m k x (BitVec.ofNat 3 i)) = c i := by rw [← hc]
  rw [this]
  have hfold : (List.range 8).foldl (fun (y : Byte) j =>
      if x.tok.getLsbD j && s.covered u m k x (BitVec.ofNat 3 j) then y ||| BitVec.ofNat 8 (2 ^ j) else y) 0 =
      (List.range 8).foldl (fun (y : Byte) j => if c j then y ||| BitVec.ofNat 8 (2 ^ j) else y) 0 := by rw [← hc]
  rw [hfold]
  clear hfold this hc
  generalize h0 : c 0 = c0
  generalize h1 : c 1 = c1
  generalize h2 : c 2 = c2
  generalize h3 : c 3 = c3
  generalize h4 : c 4 = c4
  generalize h5 : c 5 = c5
  generalize h6 : c 6 = c6
  generalize h7 : c 7 = c7
  have hr : List.range 8 = [0, 1, 2, 3, 4, 5, 6, 7] := by decide
  rw [hr]
  simp only [List.foldl_cons, List.foldl_nil, h0, h1, h2, h3, h4, h5, h6, h7]
  have : i = 0 ∨ i = 1 ∨ i = 2 ∨ i = 3 ∨ i = 4 ∨ i = 5 ∨ i = 6 ∨ i = 7 := by omega
  rcases this with rfl | rfl | rfl | rfl | rfl | rfl | rfl | rfl <;>
    simp only [h0, h1, h2, h3, h4, h5, h6, h7] <;> clear h0 h1 h2 h3 h4 h5 h6 h7 <;>
    revert c0 c1 c2 c3 c4 c5 c6 c7 <;> decide

/-- The run that all executing slots leave. -/
theorem without_all (r : Run) : r.without r.exec = Run.idle := by
  unfold Run.without
  simp

/-- R61, R182: `leave` of every executing slot. -/
theorem leave_spec (h : s.env = some e) (f : Nat → Thread → Thread) : Leaves s (s.leave e e.r.exec f) e f := by
  obtain ⟨hr, -, -, hsp⟩ := env_found h
  have hrun : s.run.without e.r.exec = Run.idle := by rw [hr]; exact without_all _
  unfold State.leave
  simp only [State.updSp_run, hrun]
  generalize hp : ((s.launch e.b.launch).map (fun l => l.parting e.sp.m)).getD 0 = entry
  generalize hh : s.halting e.b.ctx = halt
  generalize hg : (fun sp : Spindle => { sp with threads := sp.threads.zipIdx.map (fun (x : Thread × Nat) =>
    if e.r.exec.contains x.2 then (f x.2 { x.1 with mid := none, served := [] }).between halt entry else x.1) }) = g
  have hm : ∀ x, (g x).m = x.m := by subst hg; intro x; rfl
  have hspn : ∀ u' m', spn { s.updSp e.b.uid e.sp.m g with run := Run.idle } u' m' = _ :=
    fun u' m' => spn_updSp s e.b.uid e.sp.m g hm u' m'
  have hthr : ∀ k, thr { s.updSp e.b.uid e.sp.m g with run := Run.idle } e.b.uid e.sp.m k =
      (thr s e.b.uid e.sp.m k).map (fun x =>
        if k ∈ e.r.exec then (f k { x with mid := none, served := [] }).between halt entry else x) := by
    intro k
    unfold thr
    rw [hspn, hsp]
    subst hg
    simp only [Option.map_some, Option.bind_some, and_self, if_true, threads_get, List.contains_iff_mem]
  have hset := settle_threads { s.updSp e.b.uid e.sp.m g with run := Run.idle } e.b.uid e.sp.m e.b.uid e.sp.m
  have hspn2 := spn_settle { s.updSp e.b.uid e.sp.m g with run := Run.idle } e.b.uid e.sp.m
  exact
    { rest := rfl
      others := fun u' m' hne => by
        rw [hspn2]; simp only [hne, if_false, Option.map_id']
        rw [hspn]; simp only [hne, if_false, Option.map_id']
      shells := fun u' => (shell_settle _ _ _ u').trans (shell_updSp s _ _ _ u')
      else_ := by
        rw [hspn2, hspn, hsp]
        subst hg
        simp [settleSp]
      gone := fun k hk => by rw [hset, hthr, hk]; rfl
      threads := fun k x hx => by
        intro y
        have hy := hthr k
        rw [hx] at hy
        subst hp hh
        refine ⟨State.tokOf { s.updSp e.b.uid e.sp.m g with run := Run.idle } e.b.uid e.sp.m k y, ?_, ?_⟩
        · rw [hset, hy]; simp only [Option.map_some, and_self, if_true]; rfl
        intro i hi
        rw [tokOf_bit _ _ _ _ _ _ hi]
        rfl }

/-- `updExec`. -/
theorem updExec_spec (h : s.env = some e) (f : Nat → Thread → Thread) : Threads s (s.updExec e f) e f := by
  obtain ⟨-, -, -, hsp⟩ := env_found h
  unfold State.updExec
  generalize hg : (fun sp : Spindle => { sp with threads := sp.threads.zipIdx.map (fun (x : Thread × Nat) =>
    if e.r.exec.contains x.2 then f x.2 x.1 else x.1) }) = g
  have hm : ∀ x, (g x).m = x.m := by subst hg; intro x; rfl
  have hspn : ∀ u' m', spn (s.updSp e.b.uid e.sp.m g) u' m' = _ := spn_updSp s e.b.uid e.sp.m g hm
  exact
    { rest := rfl
      others := fun u' m' hne => by rw [hspn]; simp only [hne, if_false, Option.map_id']
      shells := fun u' => shell_updSp s _ _ _ u'
      else_ := by rw [hspn, hsp]; subst hg; simp
      threads := fun k => by
        unfold thr
        rw [hspn, hsp]
        subst hg
        simp only [Option.map_some, Option.bind_some, and_self, if_true, threads_get, List.contains_iff_mem] }

/-- Where a slot stands when it parks at the instruction being executed (R34, R360). -/
theorem park_spec (h : s.env = some e) (c : Nat → Park) :
    Threads s (s.park e e.r.exec c) e (fun k x =>
      { (x.parkOn (s.halting e.b.ctx) (c k)) with
        mid := some { e.r.back.mid k with after := if e.r.words.isEmpty then some e.r.npc else none }, served := [] }) ∧
      (s.park e e.r.exec c).run = Run.idle := by
  obtain ⟨hr, -, -, hsp⟩ := env_found h
  unfold State.park
  simp only []
  generalize hg : (fun sp : Spindle => { sp with threads := sp.threads.zipIdx.map (fun (x : Thread × Nat) =>
        if e.r.exec.contains x.2 then { (x.1.parkOn (s.halting e.b.ctx) (c x.2)) with
                                        mid := some { e.r.back.mid x.2 with
                                                      after := if e.r.words.isEmpty then some e.r.npc else none }
                                        served := [] } else x.1) }) = g
  have hm : ∀ x, (g x).m = x.m := by subst hg; intro x; rfl
  have hspn : ∀ (r : Run) u' m', spn { s.updSp e.b.uid e.sp.m g with run := r } u' m' = _ :=
    fun r => spn_updSp s e.b.uid e.sp.m g hm
  refine ⟨?_, ?_⟩
  · exact
      { rest := rfl
        others := fun u' m' hne => by rw [hspn]; simp only [hne, if_false, Option.map_id']
        shells := fun u' => shell_updSp s _ _ _ u'
        else_ := by rw [hspn, hsp]; subst hg; simp
        threads := fun k => by
          unfold thr
          rw [hspn, hsp]
          subst hg
          simp only [Option.map_some, Option.bind_some, and_self, if_true, threads_get, List.contains_iff_mem] }
  · show s.run.without e.r.exec = Run.idle
    rw [hr]; exact without_all _

end Sys2Proof.Safety
end

