-- ==== Sys2Proof/Laws/Decode.lean ====
section
/-! SUPPORT. Decode.lean (laws): the fields that the decoder reads from the words the encoder writes. -/

namespace Sys2Proof

/-! Fields of words built by appending. -/

/-- The field of `k` bits from bit `lo` up that lies in the low part of an appended word. -/
theorem extract_low {m n : Nat} (x : BitVec m) (y : BitVec n) (lo k : Nat) (h : lo + k ≤ n) :
    (x ++ y).extractLsb' lo k = y.extractLsb' lo k := by
  ext i hi
  simp only [BitVec.getElem_extractLsb', BitVec.getLsbD_append]
  have : lo + i < n := by omega
  simp [this]

/-- The same in the high part. -/
theorem extract_high {m n : Nat} (x : BitVec m) (y : BitVec n) (lo k : Nat) (h : n ≤ lo) :
    (x ++ y).extractLsb' lo k = x.extractLsb' (lo - n) k := by
  ext i hi
  simp only [BitVec.getElem_extractLsb', BitVec.getLsbD_append]
  have h1 : ¬ lo + i < n := by omega
  have h2 : lo + i - n = lo - n + i := by omega
  simp [h1, h2]

/-- A whole word as a field. -/
theorem extract_all {n : Nat} (x : BitVec n) : x.extractLsb' 0 n = x := by
  ext i hi
  simp

section Word
variable (op : BitVec 7) (nw : Bool) (d a b : Byte)

@[simp] theorem word_op : (word op nw d a b).extractLsb' 25 7 = op := by
  unfold word
  rw [extract_high _ _ _ _ (by omega), extract_high _ _ _ _ (by omega), extract_high _ _ _ _ (by omega),
    extract_high _ _ _ _ (by omega)]
  exact extract_all op

@[simp] theorem word_nw : (word op nw d a b).getLsbD 24 = nw := by
  unfold word
  simp only [BitVec.getLsbD_append]
  simp

@[simp] theorem word_d : (word op nw d a b).extractLsb' 16 8 = d := by
  unfold word
  rw [extract_high _ _ _ _ (by omega), extract_high _ _ _ _ (by omega), extract_low _ _ _ _ (by omega)]
  exact extract_all d

@[simp] theorem word_a : (word op nw d a b).extractLsb' 8 8 = a := by
  unfold word
  rw [extract_high _ _ _ _ (by omega), extract_low _ _ _ _ (by omega)]
  exact extract_all a

@[simp] theorem word_b : (word op nw d a b).extractLsb' 0 8 = b := by
  unfold word
  rw [extract_low _ _ _ _ (by omega)]
  exact extract_all b

end Word

@[simp] theorem extw_c (c : Byte) (md : BitVec 24) : (extw c md).extractLsb' 24 8 = c := by
  unfold extw
  rw [extract_high _ _ _ _ (by omega)]
  exact extract_all c

@[simp] theorem extw_md (c : Byte) (md : BitVec 24) : (extw c md).extractLsb' 0 24 = md := by
  unfold extw
  rw [extract_low _ _ _ _ (by omega)]
  exact extract_all md

/-! Selectors and numbers. -/

theorem two_bits : ∀ n : BitVec 2, n = 0 ∨ n = 1 ∨ n = 2 ∨ n = 3 := by decide

/-- A selector's literal word, 0 where it has none. -/
def Sel.litVal (x : Sel) : Word := x.lit.headD 0

theorem Sel.dec_enc (x : Sel) : Sel.dec x.enc x.litVal = some x := by
  cases x with
  | v n =>
    have h : (0#1 ++ n).toNat = n.toNat := by rw [BitVec.toNat_append]; simp
    have hn := n.isLt
    unfold Sel.dec Sel.enc
    rw [if_pos (by rw [h]; omega)]
    rw [extract_low _ _ _ _ (by omega), extract_all]
  | s n =>
    have h : (2#2 ++ n).toNat = 128 + n.toNat := by
      have hn := n.isLt
      simp only [BitVec.toNat_append]
      rw [← Nat.shiftLeft_add_eq_or_of_lt hn]
      rfl
    have hn := n.isLt
    unfold Sel.dec Sel.enc
    rw [if_neg (by rw [h]; omega), if_pos (by rw [h]; omega)]
    rw [extract_low _ _ _ _ (by omega), extract_all]
  | x n =>
    rcases two_bits n with h | h | h | h <;> subst h <;> rfl
  | imm w => rfl
  | _ => rfl

/-- A selector that needs no literal is read with any literal word. -/
theorem Sel.dec_enc_any (x : Sel) (h : x.notImm = true) (w : Word) : Sel.dec x.enc w = some x := by
  have e : ∀ c : Byte, c ≠ 0xC6 → Sel.dec c w = Sel.dec c x.litVal := by
    intro c hc
    unfold Sel.dec
    split
    · rfl
    · split
      · rfl
      · split <;> first | rfl | skip
        rename_i hn
        exact absurd (BitVec.eq_of_toNat_eq (by rw [hn]; rfl)) hc
  rw [e, Sel.dec_enc]
  cases x with
  | imm w => cases h
  | v n =>
    intro hc
    have := congrArg BitVec.toNat hc
    have hn := n.isLt
    simp only [Sel.enc, BitVec.toNat_append] at this
    simp at this
    omega
  | s n =>
    intro hc
    have := congrArg BitVec.toNat hc
    have hn := n.isLt
    simp only [Sel.enc, BitVec.toNat_append] at this
    rw [← Nat.shiftLeft_add_eq_or_of_lt hn] at this
    simp at this
    omega
  | x n =>
    rcases two_bits n with h | h | h | h <;> subst h <;> decide
  | _ => decide

/-- Only a literal's selector brings a literal word. -/
theorem Sel.enc_lit (x : Sel) : (x.enc == 0xC6) = !x.notImm := by
  cases x with
  | imm w => rfl
  | v n =>
    have hn := n.isLt
    apply Bool.eq_false_iff.mpr
    intro hc
    have := congrArg BitVec.toNat (eq_of_beq hc)
    simp only [Sel.enc, BitVec.toNat_append] at this
    simp at this
    omega
  | s n =>
    have hn := n.isLt
    apply Bool.eq_false_iff.mpr
    intro hc
    have := congrArg BitVec.toNat (eq_of_beq hc)
    simp only [Sel.enc, BitVec.toNat_append] at this
    rw [← Nat.shiftLeft_add_eq_or_of_lt hn] at this
    simp at this
    omega
  | x n =>
    rcases two_bits n with h | h | h | h <;> subst h <;> decide
  | _ => rfl

/-- A literal is taken where its selector stands. -/
theorem takeLit_enc (x : Sel) (ws : List Word) : takeLit (x.enc == 0xC6) (x.lit ++ ws) = .ok (x.litVal, ws) := by
  rw [Sel.enc_lit]
  cases x <;> rfl

/-- An unused field brings no literal. -/
theorem takeLit_none (ws : List Word) : takeLit ((0xC0 : Byte) == 0xC6) ([] ++ ws) = .ok (0, ws) := rfl

theorem takeLit_false (ws : List Word) : takeLit false ws = .ok (0, ws) := rfl

/-- A field with a number brings no literal. -/
theorem takeLit_small (x : Byte) (h : x.toNat < 0xC6) (ws : List Word) : takeLit (x == 0xC6) ([] ++ ws) = .ok (0, ws) := by
  have : (x == 0xC6) = false := by
    apply Bool.eq_false_iff.mpr
    intro hc
    have := congrArg BitVec.toNat (eq_of_beq hc)
    simp at this
    omega
  rw [this]
  rfl

/-! The words of one instruction. -/

section Read
variable {cl : Cls} {op : BitVec 7} {nw : Bool} {d fa fb fc : Byte} {md : BitVec 24} {la lb lc : List Word} {va vb vc : Word}

/-- An instruction with an extension word is read whole. -/
theorem readRaw_ext (hx : hasExt cl op.toNat = some true)
    (ha : ∀ ws, takeLit ((litPos cl op.toNat md).1 && fa == 0xC6) (la ++ ws) = .ok (va, ws))
    (hb : ∀ ws, takeLit ((litPos cl op.toNat md).2.1 && fb == 0xC6) (lb ++ ws) = .ok (vb, ws))
    (hc : ∀ ws, takeLit ((litPos cl op.toNat md).2.2 && fc == 0xC6) (lc ++ ws) = .ok (vc, ws)) (ws : List Word) :
    readRaw cl (word op nw d fa fb) (extw fc md :: (la ++ (lb ++ (lc ++ ws)))) =
      .ok ({ op := op.toNat, nw := nw, d := d, a := fa, b := fb, c := fc, md := md, la := va, lb := vb, lc := vc }, ws) := by
  unfold readRaw
  simp only [word_op, word_nw, word_d, word_a, word_b, hx, insn, bind, Except.bind, if_true, extw_c, extw_md, ha, hb,
    Bool.and_true, hc, pure, Except.pure]

/-- An instruction without an extension word is read whole. -/
theorem readRaw_noExt (hx : hasExt cl op.toNat = some false)
    (ha : ∀ ws, takeLit ((litPos cl op.toNat 0).1 && fa == 0xC6) (la ++ ws) = .ok (va, ws))
    (hb : ∀ ws, takeLit ((litPos cl op.toNat 0).2.1 && fb == 0xC6) (lb ++ ws) = .ok (vb, ws)) (ws : List Word) :
    readRaw cl (word op nw d fa fb) (la ++ (lb ++ ws)) =
      .ok ({ op := op.toNat, nw := nw, d := d, a := fa, b := fb, c := 0xC0, md := 0, la := va, lb := vb, lc := 0 }, ws) := by
  have h0 : (0xC0000000#32).extractLsb' 0 24 = (0 : BitVec 24) := by decide
  unfold readRaw
  simp only [word_op, word_nw, word_d, word_a, word_b, hx, insn, bind, Except.bind, Bool.false_eq_true, if_false, h0, ha, hb,
    Bool.and_false, Bool.false_and, takeLit_false, pure, Except.pure]
  rfl

/-- Decoding an instruction whose words are read. -/
theorem decodeInstr_of {w : Word} {ws rest : List Word} {r : Raw} {i : Instr} (hop : (w.extractLsb' 25 7).toNat ≠ 0x7F)
    (hr : readRaw cl w ws = .ok (r, rest)) (hd : decodeRaw cl r = .ok i) (hi : i.check = none) :
    decodeInstr cl (w :: ws) = .ok (i, rest) := by
  simp only [decodeInstr, if_neg hop, bind, Except.bind, hr, hd, hi]

end Read

/-! Destinations and numbers. -/

theorem toNat_v (n : BitVec 7) : (0#1 ++ n).toNat = n.toNat := by rw [BitVec.toNat_append]; simp

theorem toNat_s (n : BitVec 6) : (2#2 ++ n).toNat = 128 + n.toNat := by
  have hn := n.isLt
  rw [BitVec.toNat_append, ← Nat.shiftLeft_add_eq_or_of_lt hn]
  rfl

theorem vnum_enc (n : BitVec 7) : Raw.vnum (encV n) = .ok n := by
  have hn := n.isLt
  unfold Raw.vnum encV
  rw [if_pos (by rw [toNat_v]; omega), extract_low _ _ _ _ (by omega), extract_all]

theorem snum_enc (n : BitVec 6) : Raw.snum (encS n) = .ok n := by
  have hn := n.isLt
  unfold Raw.snum encS
  rw [if_pos (by rw [toNat_s]; omega), extract_low _ _ _ _ (by omega), extract_all]

theorem pnum_enc (n : BitVec 5) : Raw.pnum (encP n) = .ok n := by
  have hn := n.isLt
  have : (0#3 ++ n).toNat = n.toNat := by rw [BitVec.toNat_append]; simp
  unfold Raw.pnum encP
  rw [if_pos (by rw [this]; omega), extract_low _ _ _ _ (by omega), extract_all]

theorem bnum_enc (n : BitVec 3) : Raw.bnum (encB n) = .ok n := by
  have hn := n.isLt
  have : (0#5 ++ n).toNat = n.toNat := by rw [BitVec.toNat_append]; simp
  unfold Raw.bnum encB
  rw [if_pos (by rw [this]; omega), extract_low _ _ _ _ (by omega), extract_all]

theorem znum_enc (n : BitVec 4) : Raw.znum (encZ n) = .ok n := by
  have hn := n.isLt
  have : (0#4 ++ n).toNat = n.toNat := by rw [BitVec.toNat_append]; simp
  unfold Raw.znum encZ
  rw [if_pos (by rw [this]; omega), extract_low _ _ _ _ (by omega), extract_all]

section Dest
variable {r : Raw}

theorem vd_enc (d : VDst) (h : r.nw = d.enc.1) (k : r.d = d.enc.2) : r.vd = .ok d := by
  unfold Raw.vd
  cases d with
  | latch => simp [h, VDst.enc]
  | v n =>
    have hn := n.isLt
    simp only [h, k, VDst.enc, Bool.false_eq_true, if_false]
    rw [if_pos (by rw [toNat_v]; omega), extract_low _ _ _ _ (by omega), extract_all]

theorem ud_enc (d : UDst) (h : r.nw = d.enc.1) (k : r.d = d.enc.2) : r.ud = .ok d := by
  unfold Raw.ud
  cases d with
  | latch => simp [h, UDst.enc]
  | s n =>
    have hn := n.isLt
    simp only [h, k, UDst.enc, Bool.false_eq_true, if_false]
    rw [if_pos (by rw [toNat_s]; omega), extract_low _ _ _ _ (by omega), extract_all]

theorem td_enc (d : TDst) (h : r.nw = d.enc.1) (k : r.d = d.enc.2) : r.td = .ok d := by
  unfold Raw.td
  cases d with
  | latch => simp [h, TDst.enc]
  | v n =>
    have hn := n.isLt
    simp only [h, k, TDst.enc, Bool.false_eq_true, if_false]
    rw [if_pos (by rw [toNat_v]; omega), extract_low _ _ _ _ (by omega), extract_all]
  | s n =>
    have hn := n.isLt
    simp only [h, k, TDst.enc, Bool.false_eq_true, if_false]
    rw [if_neg (by rw [toNat_s]; omega), if_pos (by rw [toNat_s]; omega), extract_low _ _ _ _ (by omega), extract_all]

/-! The fields of the extension groups. -/

theorem vi_enc {t : IType} {s : Bool} {c : BitVec 4} {lut : Byte} (h : r.md = modVI t s c lut) {ss cc ll : Bool}
    (hs : ss = true ∨ s = false) (hc : cc = true ∨ c = 0) (hl : ll = true ∨ lut = 0) : r.vi ss cc ll = .ok (t, s) := by
  have h1 : r.f 21 3 = t.enc := by
    unfold Raw.f modVI at *; rw [h, extract_high _ _ _ _ (by omega), extract_high _ _ _ _ (by omega),
      extract_high _ _ _ _ (by omega), extract_high _ _ _ _ (by omega)]; exact extract_all _
  have h2 : r.bit 20 = s := by unfold Raw.bit modVI at *; rw [h]; simp only [BitVec.getLsbD_append]; simp
  have h3 : r.f 16 4 = c := by
    unfold Raw.f modVI at *; rw [h, extract_high _ _ _ _ (by omega), extract_high _ _ _ _ (by omega),
      extract_low _ _ _ _ (by omega)]; exact extract_all _
  have h4 : r.f 8 8 = lut := by
    unfold Raw.f modVI at *; rw [h, extract_high _ _ _ _ (by omega), extract_low _ _ _ _ (by omega)]; exact extract_all _
  have h5 : r.f 0 8 = 0 := by unfold Raw.f modVI at *; rw [h, extract_low _ _ _ _ (by omega)]; exact extract_all _
  unfold Raw.vi
  simp only [h1, h2, h3, h4, h5, IType.dec_enc, insn, bind, Except.bind]
  rcases hs with rfl | rfl <;> rcases hc with rfl | rfl <;> rcases hl with rfl | rfl <;> simp [guardInsn, pure, Except.pure]

theorem vf_enc {t : FType} {m : Rnd} {z cr : Bool} {fc : BitVec 4} (h : r.md = modVF t m z cr fc) {rr zz cc ff : Bool}
    (hr : rr = true ∨ m = .rn) (hz : zz = true ∨ z = false) (hc : cc = true ∨ cr = false) (hf : ff = true ∨ fc = 0) :
    r.vf rr zz cc ff = .ok (⟨t, m, z⟩, cr) := by
  have h1 : r.f 22 2 = t.enc := by
    unfold Raw.f modVF at *; rw [h, extract_high _ _ _ _ (by omega), extract_high _ _ _ _ (by omega),
      extract_high _ _ _ _ (by omega), extract_high _ _ _ _ (by omega), extract_high _ _ _ _ (by omega)]; exact extract_all _
  have h2 : r.f 20 2 = m.enc := by
    unfold Raw.f modVF at *; rw [h, extract_high _ _ _ _ (by omega), extract_high _ _ _ _ (by omega),
      extract_high _ _ _ _ (by omega), extract_high _ _ _ _ (by omega), extract_low _ _ _ _ (by omega)]; exact extract_all _
  have h3 : r.bit 19 = z := by unfold Raw.bit modVF at *; rw [h]; simp only [BitVec.getLsbD_append]; simp
  have h4 : r.bit 18 = cr := by unfold Raw.bit modVF at *; rw [h]; simp only [BitVec.getLsbD_append]; simp
  have h5 : r.f 14 4 = fc := by
    unfold Raw.f modVF at *; rw [h, extract_high _ _ _ _ (by omega), extract_low _ _ _ _ (by omega)]; exact extract_all _
  have h6 : r.f 0 14 = 0 := by unfold Raw.f modVF at *; rw [h, extract_low _ _ _ _ (by omega)]; exact extract_all _
  unfold Raw.vf
  simp only [h1, h2, h3, h4, h5, h6, FType.dec_enc, Rnd.dec_enc, insn, bind, Except.bind]
  rcases hr with rfl | rfl <;> rcases hz with rfl | rfl <;> rcases hc with rfl | rfl <;> rcases hf with rfl | rfl <;>
    simp [guardInsn, pure, Except.pure]

theorem cv_enc {m : CMod} {p : BitVec 2} (h : r.md = modCV m p) : r.cv = .ok (m, p) := by
  have h1 : r.f 20 4 = m.dst.enc := by
    unfold Raw.f modCV at *; rw [h, extract_high _ _ _ _ (by omega), extract_high _ _ _ _ (by omega),
      extract_high _ _ _ _ (by omega), extract_high _ _ _ _ (by omega), extract_high _ _ _ _ (by omega),
      extract_high _ _ _ _ (by omega), extract_high _ _ _ _ (by omega)]; exact extract_all _
  have h2 : r.f 16 4 = m.src.enc := by
    unfold Raw.f modCV at *; rw [h, extract_high _ _ _ _ (by omega), extract_high _ _ _ _ (by omega),
      extract_high _ _ _ _ (by omega), extract_high _ _ _ _ (by omega), extract_high _ _ _ _ (by omega),
      extract_high _ _ _ _ (by omega), extract_low _ _ _ _ (by omega)]; exact extract_all _
  have h3 : r.f 13 2 = m.rnd.enc := by
    unfold Raw.f modCV at *; rw [h, extract_high _ _ _ _ (by omega), extract_high _ _ _ _ (by omega),
      extract_high _ _ _ _ (by omega), extract_high _ _ _ _ (by omega), extract_low _ _ _ _ (by omega)]; exact extract_all _
  have h4 : r.bit 15 = false := by unfold Raw.bit modCV at *; rw [h]; simp only [BitVec.getLsbD_append]; simp
  have h5 : r.f 0 9 = 0 := by unfold Raw.f modCV at *; rw [h, extract_low _ _ _ _ (by omega)]; exact extract_all _
  have h6 : r.bit 12 = m.ftz := by unfold Raw.bit modCV at *; rw [h]; simp only [BitVec.getLsbD_append]; simp
  have h7 : r.bit 11 = m.nosat := by unfold Raw.bit modCV at *; rw [h]; simp only [BitVec.getLsbD_append]; simp
  have h8 : r.f 9 2 = p := by
    unfold Raw.f modCV at *; rw [h, extract_high _ _ _ _ (by omega), extract_low _ _ _ _ (by omega)]; exact extract_all _
  unfold Raw.cv
  simp only [h1, h2, h3, h4, h5, h6, h7, h8, CFmt.dec_enc, Rnd.dec_enc, insn, bind, Except.bind]
  rfl

/-- The zero bits and SEG of a VX word, its mode and type. -/
theorem vx_enc {mode : BitVec 4} {t : XType} {g : Seg} (h : r.md = modVX mode t g) :
    r.vx = .ok g ∧ r.f 20 4 = mode ∧ r.f 17 3 = t.enc := by
  have h1 : r.f 14 3 = g.enc := by
    unfold Raw.f modVX at *; rw [h, extract_high _ _ _ _ (by omega), extract_low _ _ _ _ (by omega)]; exact extract_all _
  have h2 : r.f 0 14 = 0 := by unfold Raw.f modVX at *; rw [h, extract_low _ _ _ _ (by omega)]; exact extract_all _
  refine ⟨?_, ?_, ?_⟩
  · unfold Raw.vx
    simp only [h1, h2, Seg.dec_enc, insn, bind, Except.bind]
    rfl
  · unfold Raw.f modVX at *; rw [h, extract_high _ _ _ _ (by omega), extract_high _ _ _ _ (by omega),
      extract_high _ _ _ _ (by omega)]; exact extract_all _
  · unfold Raw.f modVX at *; rw [h, extract_high _ _ _ _ (by omega), extract_high _ _ _ _ (by omega),
      extract_low _ _ _ _ (by omega)]; exact extract_all _

/-- The fields of an ME word. -/
theorem me_enc {k : AMod} {z : BitVec 3} {o : BitVec 13} (h : r.md = modME k z o) :
    r.f 21 3 = k.pol.enc ∧ r.f 18 3 = k.sc.enc ∧ r.f 16 2 = k.ord.enc ∧ r.f 13 3 = z ∧ r.f 0 13 = o := by
  refine ⟨?_, ?_, ?_, ?_, ?_⟩
  · unfold Raw.f modME at *; rw [h, extract_high _ _ _ _ (by omega), extract_high _ _ _ _ (by omega),
      extract_high _ _ _ _ (by omega), extract_high _ _ _ _ (by omega)]; exact extract_all _
  · unfold Raw.f modME at *; rw [h, extract_high _ _ _ _ (by omega), extract_high _ _ _ _ (by omega),
      extract_high _ _ _ _ (by omega), extract_low _ _ _ _ (by omega)]; exact extract_all _
  · unfold Raw.f modME at *; rw [h, extract_high _ _ _ _ (by omega), extract_high _ _ _ _ (by omega),
      extract_low _ _ _ _ (by omega)]; exact extract_all _
  · unfold Raw.f modME at *; rw [h, extract_high _ _ _ _ (by omega), extract_low _ _ _ _ (by omega)]; exact extract_all _
  · unfold Raw.f modME at *; rw [h, extract_low _ _ _ _ (by omega)]; exact extract_all _

/-- The fields of an MA word. -/
theorem ma_enc {k : AMod} {w res : Bool} {op : BitVec 4} {o : BitVec 10} (h : r.md = modMA k w op res o) :
    r.ma = .ok (k, w) ∧ r.f 11 4 = op ∧ r.bit 10 = res ∧ r.f 0 10 = o := by
  have h1 : r.f 21 3 = k.pol.enc := by
    unfold Raw.f modMA at *; rw [h, extract_high _ _ _ _ (by omega), extract_high _ _ _ _ (by omega),
      extract_high _ _ _ _ (by omega), extract_high _ _ _ _ (by omega), extract_high _ _ _ _ (by omega),
      extract_high _ _ _ _ (by omega)]; exact extract_all _
  have h2 : r.f 18 3 = k.sc.enc := by
    unfold Raw.f modMA at *; rw [h, extract_high _ _ _ _ (by omega), extract_high _ _ _ _ (by omega),
      extract_high _ _ _ _ (by omega), extract_high _ _ _ _ (by omega), extract_high _ _ _ _ (by omega),
      extract_low _ _ _ _ (by omega)]; exact extract_all _
  have h3 : r.f 16 2 = k.ord.enc := by
    unfold Raw.f modMA at *; rw [h, extract_high _ _ _ _ (by omega), extract_high _ _ _ _ (by omega),
      extract_high _ _ _ _ (by omega), extract_high _ _ _ _ (by omega), extract_low _ _ _ _ (by omega)]; exact extract_all _
  have h4 : r.bit 15 = w := by unfold Raw.bit modMA at *; rw [h]; simp only [BitVec.getLsbD_append]; simp
  refine ⟨?_, ?_, ?_, ?_⟩
  · unfold Raw.ma
    simp only [h1, h2, h3, h4, Pol.dec_enc, Scope.dec_enc, Ord.dec_enc, insn, bind, Except.bind]
    rfl
  · unfold Raw.f modMA at *; rw [h, extract_high _ _ _ _ (by omega), extract_high _ _ _ _ (by omega),
      extract_low _ _ _ _ (by omega)]; exact extract_all _
  · unfold Raw.bit modMA at *; rw [h]; simp only [BitVec.getLsbD_append]; simp
  · unfold Raw.f modMA at *; rw [h, extract_low _ _ _ _ (by omega)]; exact extract_all _

theorem ua_enc {t : UType} {c : Cond} (h : r.md = modUA t c.enc) {cc : Bool} (hc : cc = true ∨ c = .eq) :
    r.ua cc = .ok (t, c) := by
  have h1 : r.f 21 3 = t.enc := by
    unfold Raw.f modUA at *; rw [h, extract_high _ _ _ _ (by omega), extract_high _ _ _ _ (by omega),
      extract_high _ _ _ _ (by omega)]; exact extract_all _
  have h2 : r.bit 20 = false := by unfold Raw.bit modUA at *; rw [h]; simp only [BitVec.getLsbD_append]; simp
  have h3 : r.f 16 4 = c.enc := by
    unfold Raw.f modUA at *; rw [h, extract_high _ _ _ _ (by omega), extract_low _ _ _ _ (by omega)]; exact extract_all _
  have h4 : r.f 0 16 = 0 := by unfold Raw.f modUA at *; rw [h, extract_low _ _ _ _ (by omega)]; exact extract_all _
  unfold Raw.ua
  simp only [h1, h2, h3, h4, UType.dec_enc, Cond.dec_enc, insn, bind, Except.bind]
  rcases hc with rfl | rfl <;> simp [guardInsn, pure, Except.pure]

theorem cp_enc {p : Pol} {o : Bool} {ctr : Option (BitVec 16)} (h : r.md = modCP p o ctr) : r.cp = .ok (p, o, ctr) := by
  have h1 : r.f 21 3 = p.enc := by
    unfold Raw.f modCP at *; rw [h, extract_high _ _ _ _ (by omega), extract_high _ _ _ _ (by omega),
      extract_high _ _ _ _ (by omega), extract_high _ _ _ _ (by omega)]; exact extract_all _
  have h2 : r.f 16 3 = 0 := by
    unfold Raw.f modCP at *; rw [h, extract_high _ _ _ _ (by omega), extract_low _ _ _ _ (by omega)]; exact extract_all _
  have h3 : r.bit 20 = o := by unfold Raw.bit modCP at *; rw [h]; simp only [BitVec.getLsbD_append]; simp
  have h4 : r.bit 19 = ctr.isSome := by unfold Raw.bit modCP at *; rw [h]; simp only [BitVec.getLsbD_append]; simp
  have h5 : r.f 0 16 = ctr.getD 0 := by
    unfold Raw.f modCP at *; rw [h, extract_low _ _ _ _ (by omega)]; exact extract_all _
  unfold Raw.cp
  simp only [h1, h2, h3, h4, h5, Pol.dec_enc, insn, bind, Except.bind]
  cases ctr <;> rfl

/-- The fourth selector and the flags of an EF word. -/
theorem ef_enc {x : Byte} {fl : BitVec 16} (h : r.md = modEF x fl) :
    r.f 16 8 = x ∧ r.f 0 16 = fl ∧ ∀ m : BitVec 16, fl &&& ~~~m = 0 → r.flags m = .ok fl := by
  have h1 : r.f 0 16 = fl := by unfold Raw.f modEF at *; rw [h, extract_low _ _ _ _ (by omega)]; exact extract_all _
  refine ⟨?_, h1, ?_⟩
  · unfold Raw.f modEF at *; rw [h, extract_high _ _ _ _ (by omega)]; exact extract_all _
  · intro m hm
    unfold Raw.flags
    simp only [h1, hm, bind, Except.bind]
    rfl

end Dest

end Sys2Proof
end

