-- ==== Sys2Proof/Laws/Mem.lean ====
section
/-! SUPPORT. Mem.lean (laws): a byte memory after a write, its canonical form kept by every memory operation, and what
memory traffic leaves alone. -/

namespace Sys2Proof.Machine

namespace Memory

/-- The canonical form: keys strictly rise. -/
theorem wf_iff (m : Memory) : wf m = true ↔ m.Pairwise (fun x y => x.1 < y.1) := by
  induction m with
  | nil => simp [wf]
  | cons c r ih =>
    cases r with
    | nil => simp [wf]
    | cons d q =>
      simp only [wf, Bool.and_eq_true, decide_eq_true_eq, ih, List.pairwise_cons, List.mem_cons, forall_eq_or_imp]
      constructor
      · rintro ⟨h, h1, h2⟩
        exact ⟨⟨h, fun x hx => Nat.lt_trans h (h1 x hx)⟩, h1, h2⟩
      · rintro ⟨⟨h, _⟩, h1, h2⟩
        exact ⟨h, h1, h2⟩

/-- The keys of fresh cells. -/
theorem mem_cells {a : Nat} {d : List Byte} {c : Host.Cell} (h : c ∈ cells a d) : a ≤ c.1 ∧ c.1 < a + d.length := by
  induction d generalizing a with
  | nil => simp [cells] at h
  | cons b r ih =>
    simp only [cells, List.mem_cons] at h
    rcases h with rfl | h
    · simp
    · have := ih h
      simp only [List.length_cons]
      omega

theorem cells_wf (a : Nat) (d : List Byte) : (cells a d).Pairwise (fun x y => x.1 < y.1) := by
  induction d generalizing a with
  | nil => simp [cells]
  | cons b r ih =>
    simp only [cells, List.pairwise_cons]
    exact ⟨fun c hc => by have := mem_cells hc; omega, ih _⟩

/-- A write keeps the canonical form. -/
theorem setMany_wf {m : Memory} (h : wf m = true) (a : Nat) (d : List Byte) : wf (setMany m a d) = true := by
  rw [wf_iff] at h ⊢
  simp only [setMany, List.pairwise_append, List.mem_append, List.mem_filter, decide_eq_true_eq]
  refine ⟨h.filter _, ⟨cells_wf a d, h.filter _, ?_⟩, ?_⟩
  · intro x hx y hy
    have := mem_cells hx
    omega
  · intro x hx y hy
    rcases hy with hy | hy
    · have := mem_cells hy; omega
    · omega

/-- Dropping cells keeps the canonical form. -/
theorem drop_wf {m : Memory} (h : wf m = true) (p : Nat → Bool) : wf (drop m p) = true := by
  rw [wf_iff] at h ⊢
  exact h.filter _

theorem get_append (m n : Memory) (x : Nat) : get (m ++ n) x = (get m x).or (get n x) := by
  induction m with
  | nil => simp [get]
  | cons c r ih =>
    simp only [List.cons_append, get]
    split <;> simp [ih]

/-- A key that no cell has. -/
theorem get_none {m : Memory} {x : Nat} (h : ∀ c ∈ m, c.1 ≠ x) : get m x = none := by
  induction m with
  | nil => rfl
  | cons c r ih =>
    simp only [List.mem_cons, forall_eq_or_imp] at h
    simp only [get, if_neg h.1]
    exact ih h.2

theorem get_filter (m : Memory) (p : Nat → Bool) (x : Nat) :
    get (m.filter (fun c => p c.1)) x = if p x then get m x else none := by
  induction m with
  | nil => simp [get]
  | cons c r ih =>
    simp only [List.filter_cons]
    by_cases hc : c.1 = x
    · subst hc
      by_cases hp : p c.1
      · simp [hp, get]
      · simp only [hp, Bool.false_eq_true, if_false, ih]
    · by_cases hp : p c.1
      · simp only [hp, if_true, get, if_neg hc, ih]
      · simp only [hp, Bool.false_eq_true, if_false, ih, get, if_neg hc]

theorem get_cells (a : Nat) (d : List Byte) (x : Nat) : get (cells a d) x = if a ≤ x then d[x - a]? else none := by
  induction d generalizing a with
  | nil => simp [cells, get]
  | cons b r ih =>
    simp only [cells, get, ih]
    by_cases hx : a = x
    · subst hx; simp
    · by_cases h1 : a ≤ x
      · have h2 : a + 1 ≤ x := by omega
        have h3 : x - a = (x - (a + 1)) + 1 := by omega
        simp only [if_neg hx, if_pos h1, if_pos h2, h3, List.getElem?_cons_succ]
      · have h2 : ¬ a + 1 ≤ x := by omega
        simp only [if_neg hx, if_neg h1, if_neg h2]

/-- A byte read after a write: the byte written where it was written, and everywhere else what stood there. -/
theorem get_setMany (m : Memory) (a : Nat) (d : List Byte) (x : Nat) :
    get (setMany m a d) x = if a ≤ x ∧ x < a + d.length then d[x - a]? else get m x := by
  simp only [setMany, get_append]
  rw [get_filter m (fun k => decide (k < a)), get_filter m (fun k => decide (a + d.length ≤ k)), get_cells]
  by_cases h1 : x < a
  · have : ¬ a ≤ x := by omega
    have h3 : ¬ a + d.length ≤ x := by omega
    simp [h1, this, h3]
  · have h2 : a ≤ x := by omega
    by_cases h3 : x < a + d.length
    · have h4 : ¬ a + d.length ≤ x := by omega
      have h5 : x - a < d.length := by omega
      simp [h1, h2, h3, h4]
    · have h4 : a + d.length ≤ x := by omega
      have h5 : d[x - a]? = none := by simp; omega
      simp [h1, h2, h3, h4, h5]

/-- A byte after cells are dropped. -/
theorem get_drop (m : Memory) (p : Nat → Bool) (x : Nat) : get (drop m p) x = if p x then none else get m x := by
  unfold drop
  rw [get_filter m (fun k => !p k)]
  cases p x <;> simp

end Memory

end Sys2Proof.Machine
end

