-- ==== Sys2Proof/Laws/Traffic.lean ====
section
/-! SUPPORT. Traffic.lean (laws): what every operation of the memory system may change: memory traffic, and nothing else,
with memory kept in its canonical form. -/

namespace Sys2Proof.Safety

open Sys2Proof.Machine

theorem Traffic.refl (s : State) : Traffic s s := ⟨rfl, id⟩

theorem Traffic.trans {s t u : State} (h : Traffic s t) (k : Traffic t u) : Traffic s u :=
  ⟨k.1.trans h.1, fun i => k.2 (h.2 i)⟩

/-- Traffic after traffic. -/
theorem Traffic.foldl {α : Type} {f : State → α → State} (h : ∀ t x, Traffic t (f t x)) (l : List α) (s : State) :
    Traffic s (l.foldl f s) := by
  induction l generalizing s with
  | nil => exact .refl s
  | cons x r ih => exact (h s x).trans (ih _)

/-- A change of fields that `calm` does not see, with memory as it was. -/
theorem Traffic.of {s t : State} (h : calm t = calm s) (hm : t.mem = s.mem) (hb : t.blocks = s.blocks) : Traffic s t :=
  ⟨h, fun i => by unfold MemInv; rw [hm, hb]; exact i⟩

variable (s : State)

theorem traffic_commit (pa : Nat) (d : List Byte) : Traffic s (s.commit pa d) := by
  constructor
  · unfold State.commit; dsimp only; split <;> rfl
  · intro h
    have hb : (s.commit pa d).blocks = s.blocks := by unfold State.commit; dsimp only; split <;> rfl
    have hm : (s.commit pa d).mem = Memory.setMany s.mem pa d := by unfold State.commit; dsimp only; split <;> rfl
    unfold MemInv
    rw [hb, hm]
    exact ⟨Memory.setMany_wf h.1 _ _, h.2⟩

theorem traffic_ack (p : Pend → Bool) : Traffic s (s.ack p) :=
  Traffic.trans (.of rfl rfl rfl) (Traffic.foldl (fun t (x : Pend) => traffic_commit t x.pa x.data) _ _)

theorem traffic_ackOthers (die : Option Nat) (l : Nat) : Traffic s (s.ackOthers die l) := traffic_ack s _

theorem traffic_ackLine (l : Nat) : Traffic s (s.ackLine l) := traffic_ack s _

/-- An update of a block's stash lines. -/
theorem traffic_updBlk (u : Nat) (f : Block → Block) (hl : ∀ b, (f b).lmem = b.lmem)
    (hf : ∀ b, { f b with absent := [], owned := [], dirty := [] } = { b with absent := [], owned := [], dirty := [] }) :
    Traffic s (s.updBlk u f) := by
  constructor
  · unfold calm State.updBlk
    simp only [List.map_map]
    congr 1
    apply List.map_congr_left
    intro b _
    simp only [Function.comp_apply]
    split
    · exact hf b
    · rfl
  · intro h
    refine ⟨h.1, ?_⟩
    intro b hb
    simp only [State.updBlk, List.mem_map] at hb
    obtain ⟨c, hc, rfl⟩ := hb
    split
    · rw [hl]; exact h.2 c hc
    · exact h.2 c hc

theorem clearLine_lmem (b : Block) (l : Nat) : (b.clearLine l).lmem = b.lmem := by
  unfold Block.clearLine; split <;> rfl

theorem clearLine_else (b : Block) (l : Nat) :
    { b.clearLine l with absent := [], owned := [], dirty := [] } = { b with absent := [], owned := [], dirty := [] } := by
  unfold Block.clearLine; split <;> rfl

theorem traffic_stashBack (b : Block) (x : Nat × Nat) : Traffic s (s.stashBack b x) := by
  unfold State.stashBack
  split
  · exact .refl s
  · exact (traffic_ackLine s _).trans (traffic_commit _ _ _)

theorem traffic_recallFrom (u : Nat) (x : Nat × Nat) : Traffic s (s.recallFrom u x) := by
  unfold State.recallFrom
  split
  · exact .refl s
  · rename_i b _
    dsimp only
    have hf : ∀ c : Block, ({ ({ (c.clearLine x.1) with owned := c.owned.filter (· != x), dirty := c.dirty.filter (· != x.1) } : Block) with
        absent := [], owned := [], dirty := [] } : Block) = { c with absent := [], owned := [], dirty := [] } :=
      fun c => clearLine_else c x.1
    split
    · exact (traffic_stashBack s b x).trans (traffic_updBlk _ _ _ (fun c => clearLine_lmem c x.1) hf)
    · exact traffic_updBlk _ _ _ (fun c => clearLine_lmem c x.1) hf

theorem traffic_recall (l : Nat) : Traffic s (s.recall l) :=
  Traffic.foldl (fun _ (b : Block) => Traffic.foldl (fun u (x : Nat × Nat) => traffic_recallFrom u b.uid x) _ _) _ _

theorem traffic_snoopHost (l : Nat) (w : Bool) : Traffic s (s.snoopHost l w) := by
  unfold State.snoopHost
  split
  · split <;> exact .of rfl rfl rfl
  · exact .refl s

theorem traffic_giveLine (l : Nat) : Traffic s (s.giveLine l) := (traffic_recall s l).trans (traffic_ackLine _ l)

theorem traffic_hostTakes (w : Bool) (ls : List Nat) : Traffic s (s.hostTakes w ls) := .of rfl rfl rfl

theorem traffic_dropL1 (l : Nat) : Traffic s (s.dropL1 l) := .of rfl rfl rfl

theorem traffic_dropOwn (core l : Nat) : Traffic s (s.dropOwn core l) := .of rfl rfl rfl

theorem traffic_seeLine (die : Option Nat) (l : Nat) : Traffic s (s.seeLine die l) := traffic_ack s _

theorem traffic_refresh (l : Nat) : Traffic s (s.refresh l) := by
  unfold State.refresh
  split
  · exact .refl s
  · exact (traffic_ackLine s l).trans ((traffic_commit _ _ _).trans (.of rfl rfl rfl))

theorem traffic_overDevice (l : Nat) : Traffic s (s.overDevice l) := .of rfl rfl rfl

theorem traffic_serveHost (r : HostReq) : Traffic s (s.serveHost r) := by
  unfold State.serveHost
  dsimp only
  generalize linePieces r.pa (if r.write = true then r.data.length else r.len) = ps
  have h := Traffic.foldl (fun t (p : Nat × Nat) => traffic_giveLine t (lineOf p.1)) ps s
  generalize ps.foldl (fun t (p : Nat × Nat) => t.giveLine (lineOf p.1)) s = u at h ⊢
  split
  · have k := Traffic.foldl (fun t (p : Nat × Nat) =>
      (traffic_commit t p.1 ((r.data.drop (p.1 - r.pa)).take p.2)).trans (traffic_dropL1 _ (lineOf p.1))) ps u
    exact h.trans (k.trans ((traffic_hostTakes _ true (ps.map (fun p => lineOf p.1))).trans (.of rfl rfl rfl)))
  · split
    · exact h.trans (.of rfl rfl rfl)
    · exact h.trans ((traffic_hostTakes _ false (ps.map (fun p => lineOf p.1))).trans (.of rfl rfl rfl))

theorem traffic_flipWork (page : Nat) (toHost : Bool) : Traffic s (s.flipWork page toHost) := by
  unfold State.flipWork
  dsimp only
  split
  · exact .refl s
  · split
    · have h := Traffic.foldl (fun t l => traffic_giveLine t l) (pageLines page) s
      generalize (pageLines page).foldl State.giveLine s = u at h ⊢
      exact h.trans (.of rfl rfl rfl)
    · exact .of rfl rfl rfl

theorem traffic_holdHost (page n : Nat) (r : HostReq) : Traffic s (s.holdHost page n r) := .of rfl rfl rfl

theorem traffic_hostGo (n : Nat) (r : HostReq) : Traffic s (s.hostGo n r) := by
  unfold State.hostGo
  split
  · exact traffic_holdHost s _ _ _
  · split
    · exact .of rfl rfl rfl
    · exact traffic_serveHost s r

theorem traffic_endFlip (page : Nat) : Traffic s (s.endFlip page) := by
  unfold State.endFlip
  split
  · exact .refl s
  · rename_i f _
    dsimp only
    have h1 : Traffic s { s with coh := { s.coh with flips := s.coh.flips.erase f } } := .of rfl rfl rfl
    have h2 := h1.trans (traffic_flipWork _ page f.toHost)
    generalize State.flipWork _ page f.toHost = u at h2 ⊢
    refine h2.trans (Traffic.trans ?_ (Traffic.foldl (fun t (x : Nat × HostReq) => traffic_hostGo t x.1 x.2) _ _))
    exact .of rfl rfl rfl

theorem traffic_endFlips (page n : Nat) : Traffic s (s.endFlips page n) := by
  induction n generalizing s with
  | zero => exact .refl s
  | succ n ih =>
    unfold State.endFlips
    split
    · exact (traffic_endFlip s page).trans (ih _)
    · exact .refl s

theorem traffic_takeLine (die : Option Nat) (l : Nat) (w : Bool) : Traffic s (s.takeLine die l w) := by
  unfold State.takeLine
  dsimp only
  have h := (traffic_endFlips s (l / 32) (2 * s.coh.flips.length + 2)).trans
    ((traffic_recall _ l).trans (traffic_snoopHost _ l w))
  split
  · exact h.trans (traffic_ackOthers _ die l)
  · exact h.trans (traffic_seeLine _ die l)

theorem traffic_storeLine (die : Option Nat) (home : Bool) (who : Nat × Nat) (pa : Nat) (d : List Byte) :
    Traffic s (s.storeLine die home who pa d) := by
  unfold State.storeLine
  dsimp only
  have h := traffic_takeLine s die (lineOf pa) true
  generalize s.takeLine die (lineOf pa) true = t at h ⊢
  have k : Traffic s (if home = true then t.refresh (lineOf pa) else t.overDevice (lineOf pa)) := by
    refine h.trans ?_
    split
    · exact traffic_refresh t _
    · exact traffic_overDevice t _
  generalize (if home = true then t.refresh (lineOf pa) else t.overDevice (lineOf pa)) = u at k ⊢
  have c := k.trans ((traffic_ackLine u (lineOf pa)).trans (traffic_commit _ pa d))
  split
  · split
    · exact c
    · exact k.trans (.of rfl rfl rfl)
  · exact c

theorem traffic_rmwLine (l : Nat) (home : Bool) : Traffic s (s.rmwLine l home) := by
  unfold State.rmwLine
  dsimp only
  split
  · exact (traffic_takeLine s none l true).trans (traffic_refresh _ l)
  · exact traffic_takeLine s none l true

theorem traffic_storeSeen (pa : Nat) (d : List Byte) (home : Bool) : Traffic s (s.storeSeen pa d home) :=
  (traffic_rmwLine s _ home).trans ((traffic_overDevice _ _).trans ((traffic_commit _ _ _).trans (traffic_dropL1 _ _)))

theorem traffic_l1Update (core pa : Nat) (d : List Byte) : Traffic s (s.l1Update core pa d) := .of rfl rfl rfl

theorem traffic_l1Fill (core l : Nat) : Traffic s (s.l1Fill core l) := by
  unfold State.l1Fill
  split
  · exact .refl s
  · exact .of rfl rfl rfl

theorem traffic_storePhys (die : Option Nat) (pol : Pol) (who : Nat × Nat) (pa : Nat) (d : List Byte) :
    Traffic s (s.storePhys die pol who pa d) := by
  unfold State.storePhys
  dsimp only
  have h := (Traffic.foldl (fun t (p : Nat × Nat) => traffic_storeLine t die (pol == .sys) who p.1
    ((d.drop (p.1 - pa)).take p.2)) (linePieces pa d.length) s).trans (traffic_l1Update _ who.1 pa d)
  split
  · exact h.trans (Traffic.foldl (fun t (p : Nat × Nat) => traffic_l1Fill t who.1 (lineOf p.1)) _ _)
  · exact h

theorem traffic_engineStore (pa : Nat) (d : List Byte) (home : Bool) : Traffic s (s.engineStore pa d home) :=
  Traffic.foldl (fun t (p : Nat × Nat) => traffic_storeSeen t p.1 _ home) _ _

theorem traffic_expireLeases : Traffic s s.expireLeases := .of rfl rfl rfl

theorem traffic_ageLeases (core : Nat) : Traffic s (s.ageLeases core) := .of rfl rfl rfl

theorem traffic_loadLine (core : Nat) (pol : Pol) (pa n : Nat) : Traffic s (s.loadLine core pol pa n).2 := by
  unfold State.loadLine
  dsimp only
  split
  · split
    · exact (traffic_expireLeases s).trans (traffic_seeLine _ _ _)
    · exact (traffic_expireLeases s).trans ((traffic_takeLine _ _ _ _).trans (traffic_l1Fill _ _ _))
  · split
    · exact .refl s
    · exact (traffic_takeLine s _ _ _).trans (.of rfl rfl rfl)
  all_goals
    have h := (traffic_takeLine s (some (dieOf core)) (lineOf pa) false).trans (traffic_dropOwn _ core (lineOf pa))
    dsimp only
    generalize (s.takeLine (some (dieOf core)) (lineOf pa) false).dropOwn core (lineOf pa) = t at h ⊢
    split
    · exact h.trans (traffic_refresh t _)
    · exact h

theorem traffic_loadPhys (core : Nat) (pol : Pol) (pa n : Nat) : Traffic s (s.loadPhys core pol pa n).2 := by
  unfold State.loadPhys
  generalize linePieces pa n = l
  suffices h : ∀ (acc : List Byte × State), Traffic s acc.2 → Traffic s (l.foldl (fun acc p =>
      let (d, t) := acc.2.loadLine core pol p.1 p.2
      (acc.1 ++ d, t)) acc).2 from h _ (.refl s)
  induction l with
  | nil => exact fun _ h => h
  | cons p r ih => exact fun acc h => ih _ (h.trans (traffic_loadLine _ _ _ _ _))

theorem traffic_engineLoad (core : Option Nat) (pa n : Nat) (home : Bool) : Traffic s (s.engineLoad core pa n home).2 := by
  unfold State.engineLoad
  refine Traffic.foldl (fun t (p : Nat × Nat) => (traffic_takeLine t (core.map dieOf) (lineOf p.1) false).trans ?_) _ _
  generalize t.takeLine (core.map dieOf) (lineOf p.1) false = u
  have own : Traffic u (match core with | some c => u.dropOwn c (lineOf p.1) | none => u) := by
    cases core
    · exact .refl u
    · exact traffic_dropOwn u _ _
  dsimp only
  split
  · exact own.trans (traffic_refresh _ _)
  · exact own

/-- The loads of a page-table walk. -/
theorem traffic_walkLoads (die : Option Nat) (va : Nat) (ls : List (Nat × Nat × Option Nat)) (base : Nat) :
    Traffic s (s.walkLoads die va ls base) := by
  induction ls generalizing s base with
  | nil => exact .refl s
  | cons x r ih =>
    obtain ⟨lo, w, lf⟩ := x
    unfold State.walkLoads
    dsimp only
    split
    · split
      · exact (traffic_takeLine s die _ false).trans (ih _ _)
      · exact traffic_takeLine s die _ false
    · exact .refl s

theorem traffic_walked (w : Walker) (va : Dword) (n : Nat) : Traffic s (s.walked w va n) := by
  unfold State.walked
  refine Traffic.foldl (fun t (p : Nat × Nat) => ?_) _ _
  dsimp only
  split
  · exact .refl t
  · exact traffic_walkLoads t _ _ _ _

theorem traffic_walkedAll (w : Walker) (l : List (Dword × Nat)) : Traffic s (s.walkedAll w l) :=
  Traffic.foldl (fun t (r : Dword × Nat) => traffic_walked t w r.1 r.2) _ _

theorem traffic_sendOut (h : HeldOut) : Traffic s (s.sendOut h) := .of rfl rfl rfl

theorem traffic_sendPeer (k : StreamId) (dev : BitVec 12) (pa : Nat) (x : PeerKind) (op : Option Nat) (w : Option (Nat × Nat × Nat)) :
    Traffic s (s.sendPeer k dev pa x op w) := by
  unfold State.sendPeer
  refine Traffic.foldl (fun t (p : Nat × Nat) => ?_) _ _
  dsimp only
  split
  · exact .of rfl rfl rfl
  · exact traffic_sendOut t _

theorem traffic_readLocs (core : Option Nat) (l : List (Loc × Nat)) : Traffic s (s.readLocs core l).2 := by
  induction l generalizing s with
  | nil => exact .refl s
  | cons x r ih =>
    obtain ⟨l, n⟩ := x
    simp only [State.readLocs]
    refine Traffic.trans ?_ (ih _)
    cases l with
    | mem pa => exact traffic_engineLoad s core pa n _
    | peer _ _ => exact Traffic.trans (.of rfl rfl rfl) (traffic_sendPeer _ _ _ _ _ _ _)
    | mmio _ => exact .of rfl rfl rfl
    | win _ _ _ | nowhere => exact .refl s

theorem traffic_writeLocs (k : StreamId) (op : Option Nat) (l : List (Loc × Nat)) (d : List Byte) :
    Traffic s (s.writeLocs k op l d) := by
  induction l generalizing s d with
  | nil => exact .refl s
  | cons x r ih =>
    obtain ⟨l, n⟩ := x
    simp only [State.writeLocs]
    refine Traffic.trans ?_ (ih _ _)
    cases l with
    | mem pa => exact traffic_engineStore s pa _ _
    | peer _ _ => exact traffic_sendPeer s _ _ _ _ _ _
    | win _ _ _ | mmio _ | nowhere => exact .refl s

theorem traffic_readVirt {core : Option Nat} {c : Ctx} {va : Dword} {n : Nat} {x : List Byte × State}
    (h : s.readVirt core c va n = .ok x) : Traffic s x.2 := by
  unfold State.readVirt at h
  dsimp only at h
  split at h
  · cases h
  · split at h
    · cases h
    · cases h; exact (traffic_walked s _ _ _).trans (traffic_readLocs _ core _)

theorem traffic_writeVirt {c : Ctx} {va : Dword} {d : List Byte} {t : State} (h : s.writeVirt c va d = .ok t) : Traffic s t := by
  unfold State.writeVirt at h
  dsimp only at h
  split at h
  · cases h
  · split at h
    · cases h
    · cases h; exact (traffic_walked s _ _ _).trans (traffic_writeLocs _ _ _ _ _)

/-! The logs. -/

/-- Counts of the logs change. -/
theorem traffic_updCtx (n : Nat) (f : Ctx → Ctx)
    (hf : ∀ c, { f c with prodA := 0, prodE := 0, logdrops := 0 } = { c with prodA := 0, prodE := 0, logdrops := 0 }) :
    Traffic s (s.updCtx n f) := by
  refine .of ?_ rfl rfl
  unfold calm State.updCtx
  simp only [List.map_map]
  congr 1
  apply List.map_congr_left
  intro c _
  simp only [Function.comp_apply]
  split
  · exact hf c
  · rfl

theorem traffic_appendRing {c : Ctx} {base : Dword} {size k : Nat} {rec : List Byte} {t : State}
    (h : s.appendRing c base size k rec = .ok t) : Traffic s t := by
  unfold State.appendRing at h
  split at h
  · cases h
  · rename_i u hu
    exact (traffic_writeVirt s hu).trans (traffic_writeVirt u h)

theorem traffic_logTo (n : Nat) (arith : Bool) (rec : List Byte) : Traffic s (s.logTo n arith rec) := by
  unfold State.logTo
  split
  · exact .refl s
  · cases arith <;> simp only [if_true, Bool.false_eq_true, if_false]
    all_goals
      split
      · exact .refl s
      · split
        · rename_i t ht
          exact (traffic_appendRing s ht).trans (traffic_updCtx _ _ _ (fun c => rfl))
        · exact traffic_updCtx _ _ _ (fun c => rfl)

theorem traffic_logErrorOf (n c : Nat) (q d : Dword) : Traffic s (s.logErrorOf n c q d) := traffic_logTo s _ _ _

theorem traffic_logError (n c : Nat) (q : Dword) : Traffic s (s.logError n c q) :=
  Traffic.trans (.of rfl rfl rfl) (traffic_logErrorOf _ _ _ _ _)

theorem traffic_logArith (e : Env) (c k : Nat) (g : Bool) : Traffic s (s.logArith e c k g) := traffic_logTo s _ _ _

theorem traffic_logExc (e : Env) (k : Nat) (x : Exc) : Traffic s (s.logExc e k x) := by
  unfold State.logExc
  refine Traffic.foldl (fun t i => ?_) _ _
  split
  · exact traffic_logArith t _ _ _ _
  · exact .refl t

theorem traffic_logSlots (e : Env) (x : Nat → Exc) : Traffic s (s.logSlots e x) :=
  Traffic.foldl (fun t k => traffic_logExc t e k (x k)) _ _

/-- A slot that raised nothing is not logged. -/
theorem logExc_zero (e : Env) (k : Nat) : s.logExc e k 0 = s := by
  have h : ∀ (l : List Nat), l.foldl (fun (t : State) i =>
      if (0 : Exc).getLsbD i && (i == 5 || (((s.ctx e.b.ctx).map (fun (c : Ctx) => c.alogmask)).getD 0).getLsbD i) then
        t.logArith e (if i == 5 then 0x10 else i + 1) k false else t) s = s := by
    intro l
    induction l with
    | nil => rfl
    | cons a r ih => simp
  exact h _

theorem logSlots_zero (e : Env) (x : Nat → Exc) (h : ∀ k ∈ e.r.exec, x k = 0) : s.logSlots e x = s := by
  unfold State.logSlots
  generalize e.r.exec = l at h
  induction l with
  | nil => rfl
  | cons k r ih =>
    simp only [List.mem_cons, forall_eq_or_imp] at h
    simp only [List.foldl_cons, h.1, logExc_zero]
    exact ih h.2

/-! Spindles are no part of memory traffic. -/

theorem calm_spn (u m : Nat) : spn (calm s) u m = spn s u m := by
  have h := find?_map_same (fun b : Block => b.uid == u)
    (fun b => { b with absent := [], owned := [], dirty := [] }) (fun _ => rfl) s.blocks
  show ((s.blocks.map (fun b => { b with absent := [], owned := [], dirty := [] })).find? (fun b => b.uid == u)).bind _ =
    (s.blocks.find? (fun b => b.uid == u)).bind _
  rw [h]
  cases s.blocks.find? (fun b => b.uid == u) <;> rfl

theorem Traffic.spn_eq {s t : State} (h : Traffic s t) (u m : Nat) : spn t u m = spn s u m := by
  rw [← calm_spn t, ← calm_spn s, h.1]

end Sys2Proof.Safety
end

