-- ==== Sys2Proof/Tests/Slice0.lean ====
section
/-! SUPPORT. Slice0.lean (tests): ill-formed terms refused, words of the manual's encodings decoded, one step of many
instructions on a small state with results from the manual's examples or worked by hand, and for each statement a state
and operands that meet its hypotheses. -/

namespace Sys2Proof.Tests

open Sys2Proof Sys2Proof.Machine Sys2Proof.Safety

set_option maxRecDepth 100000
set_option exponentiation.threshold 2000

/-! Ill-formed terms: each breaks one check (R58, R184 to R190, and the rules of the reference chapters). -/

/-- A memory operand. -/
def at_ (b : Sel) : MemOp := ⟨b, .zero, 0⟩
/-- A global memory operand whose base is no pair. -/
def odd_ : MemOp := ⟨.v 1, .zero, 0⟩
/-- A memory operand whose offset is a uniform register. -/
def badOff : MemOp := ⟨.s 1, .s 2, 0⟩
/-- A plain global access. -/
def plain : AMod := ⟨.l1, .no, .no⟩

theorem test_illformed_lane : (([
    .imul (.v 1) .sgn64 false (.v 2) (.v 4), .imulhi (.v 2) .uns64 (.v 3) (.v 4), .imad (.v 2) .sgn16x2 false (.v 2) (.v 3) (.v 4),
    .imad (.v 2) .sgn64 false (.v 2) (.v 4) (.v 5), .imin (.v 1) .sgn64 (.v 2) (.v 4), .imax (.v 2) .sgn64 (.v 2) (.v 5),
    .iadds (.v 3) .uns64 (.v 2) (.v 4), .bfx (.v 1) .sgn64 (.v 2) (.v 3) (.v 4), .icmp 1 .eq .uns16x2 (.v 1) (.v 2),
    .icmp 1 .eq .sgn64 (.v 1) (.v 2), .fadd (.v 1) ⟨.f64, .rn, false⟩ (.v 2) (.v 4), .fsub (.v 2) ⟨.f64, .rn, false⟩ (.v 3) (.v 4),
    .fmul (.v 2) ⟨.f64, .rn, false⟩ (.v 2) (.v 5), .ffma (.v 2) ⟨.f64, .rn, false⟩ (.v 2) (.v 4) (.v 7),
    .fmin (.v 1) .f64 false (.v 2) (.v 4), .fmax (.v 1) .f64 false (.v 2) (.v 4), .fminn (.v 1) .f64 false (.v 2) (.v 4),
    .fmaxn (.v 1) .f64 false (.v 2) (.v 4), .fabs (.v 1) .f64 (.v 2), .fneg (.v 1) .f64 (.v 2), .fsgn (.v 2) .f64 (.v 1) (.v 2),
    .fcmp 1 .eq .f16x2 false (.v 1) (.v 2), .fcmp 1 .eq .f64 false (.v 1) (.v 2), .fclass 1 .bf16x2 (.v 1) (.v 2),
    .fround (.v 1) ⟨.f64, .rn, false⟩ (.v 2), .fscale (.v 1) ⟨.f16x2, .rn, false⟩ (.v 2) (.v 3), .fexpn (.v 1) .f16x2 false (.v 2),
    .fexpn (.v 1) .f64 false (.v 3), .fmant (.v 1) .f64 false (.v 2)] : List Instr).all (fun i => !i.wf)) = true := by decide

theorem test_illformed_convert_and_slots : (([
    .cvt (.v 1) ⟨.f32, .f32, .rn, false, false⟩ (.v 2), .cvt (.v 1) ⟨.int16, .int8, .rz, false, false⟩ (.v 2),
    .cvt (.v 1) ⟨.int16, .int8, .rn, true, false⟩ (.v 2), .cvt (.v 1) ⟨.e5m2, .f32, .rn, false, true⟩ (.v 2),
    .cvt (.v 1) ⟨.f64, .f32, .rn, false, false⟩ (.v 2), .cvt (.v 1) ⟨.f32, .f64, .rn, false, false⟩ (.v 3),
    .cvtp (.v 1) ⟨.f16, .f64, .rn, false, false⟩ 0 (.v 2) (.v 4), .cvtp (.v 1) ⟨.f16, .f32, .rn, false, false⟩ 1 (.v 2) (.v 3),
    .cvtp (.v 1) ⟨.e4m3, .f32, .rn, false, false⟩ 2 (.v 2) (.v 3), .cvtu (.v 1) ⟨.f32, .f16, .rn, false, false⟩ 2 (.v 2),
    .cvtu (.v 1) ⟨.f16, .f32, .rn, false, false⟩ 0 (.v 2), .cvtu (.v 1) ⟨.f64, .f16, .rn, false, false⟩ 0 (.v 2),
    .shfl (.v 1) .idx true .whole (.v 2) (.v 4), .spush (.v 2) true .whole (.v 3) (.v 4), .matchSlots (.v 1) false .sgn .whole (.v 2),
    .matchSlots (.v 1) false .b64 .whole (.v 2), .redux (.v 1) .add .b32 .whole (.v 2), .redux (.v 1) .and .sgn .whole (.v 2),
    .scan (.v 1) .min false .b64 .whole (.v 2), .scan (.v 1) .add false .f64 .whole (.v 2)] : List Instr).all (fun i => !i.wf)) = true := by decide

theorem test_illformed_memory : (([
    .ld 1 ⟨.l1, .dev, .no⟩ .b32 (at_ (.s 1)), .ld 1 ⟨.l1, .dev, .rel⟩ .b32 (at_ (.s 1)), .ld 1 ⟨.ro, .dev, .acq⟩ .b32 (at_ (.s 1)),
    .ld 1 plain .b64 (at_ (.s 1)), .ld 2 plain .b128 (at_ (.s 1)), .ld 1 plain .b32 odd_, .ld 1 plain .b32 badOff,
    .st ⟨.l1, .dev, .acq⟩ .b32 (at_ (.s 1)) (.v 1), .st ⟨.ro, .no, .no⟩ .b32 (at_ (.s 1)) (.v 1), .st plain .i8 (at_ (.s 1)) (.v 1),
    .st plain .b64 (at_ (.s 1)) (.v 1), .st plain .b128 (at_ (.s 1)) (.s 4), .ldl 1 .b32 (at_ (.x 0)), .ldl 1 .b64 (at_ (.s 1)),
    .stl .i16 (at_ (.s 1)) (.v 1), .stl .b64 (at_ (.s 1)) (.v 1), .atom none plain false .cas (at_ (.s 1)) (.v 1),
    .atom none ⟨.l1, .no, .acqrel⟩ false .add (at_ (.s 1)) (.v 1), .atom none ⟨.ro, .no, .no⟩ false .add (at_ (.s 1)) (.v 1),
    .atom none plain true .add (at_ (.s 1)) (.v 1), .atom (some 1) plain true .add (at_ (.s 1)) (.v 2),
    .atom none plain false .add ⟨.s 1, .zero, 512⟩ (.v 1), .atomx plain true false (at_ (.s 1)) (.v 1),
    .atomx ⟨.l1, .dev, .rel⟩ false false (at_ (.s 1)) (.v 1), .fence .no .all, .pref .ro (at_ (.s 1)), .pref .l1 odd_,
    .persist (at_ (.s 1)) (.v 1), .wfire odd_, .wrel odd_, .pclr (at_ (.s 1)) (.v 1), .arcset (.x 0) (.s 1) (.s 2) 0,
    .arcset (.s 1) (.v 1) (.s 2) 0, .arcadd (.s 1) (.v 1) 0] : List Instr).all (fun i => !i.wf)) = true := by decide

theorem test_illformed_uniform : (([
    .sadd (.s 1) (.v 1) (.s 2), .ssub (.s 1) (.s 2) .slot, .smul (.s 1) (.v 1) (.s 2), .smulhi (.s 1) .sgn (.s 1) (.s 2),
    .smulhi (.s 1) .sgn64 (.v 1) (.s 2), .smad (.s 1) .uns (.s 1) (.s 2) (.s 3), .smad (.s 1) .uns64 (.s 1) (.s 2) (.v 3),
    .sshl (.s 1) (.v 1) (.s 2), .sshr (.s 1) (.v 1) (.s 2), .ssar (.s 1) (.v 1) (.s 2), .sand (.s 1) (.v 1) (.s 2),
    .sor (.s 1) (.v 1) (.s 2), .sxor (.s 1) (.v 1) (.s 2), .snot (.s 1) (.v 1), .smin (.s 1) .sgn (.v 1) (.s 2),
    .smax (.s 1) .sgn (.v 1) (.s 2), .smov (.s 1) (.v 1), .scmp (.s 1) .eq .sgn (.v 1) (.s 2), .ssel (.s 1) (.s 1) (.s 2) (.v 3),
    .spopc (.s 1) (.v 1), .sclz (.s 1) (.v 1)] : List Instr).all (fun i => !i.wf)) = true := by decide

theorem test_illformed_engines : (([
    .rcp 2 true false false (.v 2), .rcp 1 true false true (.v 2), .sqrt 2 true false true (.v 3), .fdiv 2 true false true (.v 2) (.v 3),
    .idiv 1 false (.v 2) (.v 3), .cpy .ro false none (.s 1) (.s 2) .zero (.imm 4), .cpy .l1 false none (.imm 0) (.s 2) .zero (.s 1),
    .cpyw .ro false none (.s 1) (.s 2) .zero (.s 3), .cpyw .l1 false none (.s 1) (.s 2) .zero (.v 3), .stmap 1 (.v 1) (.s 2) (.s 3),
    .stunmap 1 (.v 1), .stflush 1 (.s 1) (.v 2), .zdef 0 false (.s 1) (.v 2) (.s 3), .mma 0 (.s 1) (.s 2) (.v 3) (.v 4),
    .mma 0 (.s 1) (.s 2) (.s 3) (.imm 4), .mmaGang 0 (.s 1) (.s 2) (.v 3) (.v 4), .zrnd 1 .f64 .rne 0 (.s 1) (.s 2) (.s 3),
    .zrnd 1 .f32 .rne 0 (.s 1) (.s 2) (.imm 3), .zdrain 0 true odd_.base .zero (.s 1) (.s 2), .zdrain 0 true (.s 1) .zero (.s 1) (.imm 2),
    .zld 0 (.v 1) .zero, .zst 0 (.s 2) (.s 3), .quant none (.v 1) (.s 2)] : List Instr).all (fun i => !i.wf)) = true := by decide

theorem test_illformed_units : (([
    .opinst 1 false (.v 1) (.s 2), .opbind 1 (.s 1) (.v 2) (.s 3), .opunbind 1 false (.v 1), .opstat 1 (.s 1) (.v 2), .opread 1 (.v 1) (.s 2),
    .mgopen 1 (.v 1) (.s 2), .mgstage 1 .f32 (.s 1) (.s 2) (.s 3) (.imm 4), .mgclose 1 (.v 1), .mgcommit 1 (.v 1), .mgread 1 false (.s 1) (.v 2),
    .mgread 2 false (.v 1) (.v 2), .mgabort 1 (.v 1), .coll 1 .sum (.s 1) (.s 2) (.s 3) (.imm 4), .xferw 0 (.v 1) (.s 2) (.s 3) (.s 4),
    .xferr 0 (.s 1) (.s 2) (.s 3) (.imm 4), .amsg 60 8 (.s 1) (.s 2), .amsg 0 9 (.s 1) (.s 2), .amsgReply 0 1 (.v 1) (.s 2),
    .rwr 1 (.v 1) (.s 2), .bepack 1 false (.s 1) (.s 2) (.s 3) (.imm 4), .beunpack 1 false (.v 1) (.s 2) (.s 3)] : List Instr).all
      (fun i => !i.wf)) = true := by decide

theorem test_illformed_control : (([
    .jmp (.v 1), .calli (.v 1), .arcwait (.x 0) 0, .sleep (.v 1), .time (.v 1), .slack (.v 1), .vpub .partial_ .no (at_ (.s 1)) (.v 1),
    .vpub .partial_ .dev odd_ (.v 1), .sys 0 (.v 1) (.s 1), .csrr (.s 1) 0x004, .csrr (.v 1) 0x001, .csrw 0x010 (.s 1),
    .csrw 0x012 (.v 1)] : List Instr).all (fun i => !i.wf)) = true := by decide

/-! Words refused (R58, R60, R181, R184 to R190): the trap that decoding names. -/

theorem test_refused_words :
    -- a reserved opcode; an unused operand that is not 0xC0; a reserved VI field; a reserved selector; nw on a predicate result
    (∀ p ∈ ([
      (.v, [0x7DC0C0C0], .illegalInsn), (.v, [0xCE020000], .illegalOperand), (.v, [0x04020304, 0xC0000001], .illegalInsn),
      (.v, [0x0002C1FF], .illegalOperand), (.v, [0x45010382, 0xC0220000], .illegalInsn), (.c, [0x0BC0C0C0], .illegalInsn),
      (.m, [0x0802D0C0], .illegalInsn), (.x, [0x46C0C0C1], .illegalOperand), (.v, [0x2002C1C6], .illegalInsn)]
        : List (Cls × List Word × DecErr)), (match decodeInstr p.1 p.2.1 with | .error x => decide (x = p.2.2) | .ok _ => false) = true) := by
  decide


/-! Words written out from the manual's encodings, one or more of each family. -/

/-- Decoding gives one instruction and leaves nothing. -/
def reads (c : Cls) (ws : List Word) (i : Instr) : Bool :=
  match decodeInstr c ws with
  | .ok (j, []) => decide (j = i)
  | _ => false

/-- R183, R188, R189, R204: OPCODE 0x22 (0100010), NW 0, D 0x01, A 0x03, B 0x82; C 0xC0, ITYPE 001, SAT 0, COND 0010. -/
theorem test_word_icmp :
    reads .v [0b0100010_0_00000001_00000011_10000010, 0b11000000_001_0_0010_00000000_00000000]
      (.icmp 1 .lt .uns (.v 3) (.s 2)) = true := by decide

/-- R209: `shl v2, SLOT, 2`, opcode 0x10, with its literal. -/
theorem test_word_shl : reads .v [0x2002C1C6, 2] (.shl (.v 2) .slot (.imm 2)) = true := by decide

/-- R217, R221: `ffma.f32.rz v6, v4, v5, v2`. -/
theorem test_word_ffma : reads .v [0x66060405, 0x02100000] (.ffma (.v 6) ⟨.f32, .rz, false⟩ (.v 4) (.v 5) (.v 2)) = true := by decide

/-- R227: `cvt.e4m3.f32 v9, v8`. -/
theorem test_word_cvt : reads .v [0x900908C0, 0xC0410000] (.cvt (.v 9) ⟨.e4m3, .f32, .rn, false, false⟩ (.v 8)) = true := by decide

/-- R232: `pand p1, p2, p3`: opcode 0x50 (1010000). -/
theorem test_word_pand : reads .v [0b1010000_0_00000001_00000010_00000011] (.pand 1 2 3) = true := by decide

/-- R265: `redux.add.sgn.seg4 v3, v1`; R263: `vote.any p2, p1`. -/
theorem test_word_cross_slot :
    reads .v [0xCA0301C0, 0xC0028000] (.redux (.v 3) .add .sgn .seg4 (.v 1)) = true ∧
    reads .v [0xC40201C0, 0xC0000000] (.vote 2 .any .whole 1) = true := by decide

/-- R238: `sadd s1, s63, 0x100`; R241: `rfa s7, v5`, opcode 0x33 (0110011), D 0x87. -/
theorem test_word_uniform :
    reads .m [0x4081BFC6, 0x100] (.sadd (.s 1) (.s 63) (.imm 0x100)) = true ∧
    reads .m [0b0110011_0_10000111_00000101_11000000] (.rfa (.s 7) (.v 5)) = true := by decide

/-- R242 to R257: loads, stores, fences and counters. -/
theorem test_word_memory :
    reads .m [0x00028101, 0xC0008000] (.ld 2 plain .b32 ⟨.s 1, .v 1, 0⟩) = true ∧
    reads .m [0x02C08101, 0x02008000] (.st plain .b32 ⟨.s 1, .v 1, 0⟩ (.v 2)) = true ∧
    reads .m [0x0CC0C0C0, 0xC0110000] (.fence .dev .all) = true ∧
    reads .m [0x1EC0C0C6, 0xC0000100, 0xFFFFF000] (.arcadd .zero (.imm 0xFFFFF000) 0x100) = true := by decide

/-- R291 to R293: the special functions, the divider, copies. -/
theorem test_word_units :
    reads .x [0x040406C0, 0xC0440000] (.sqrt 4 true false true (.v 6)) = true ∧
    reads .x [0x14040203, 0xC0200000] (.idiv 4 true (.v 2) (.v 3)) = true ∧
    reads .x [0x20068402, 0xC6080100, 0x80] (.cpy .l1 false (some 0x100) (.v 6) (.s 4) (.v 2) (.imm 128)) = true := by decide

/-- R298, R301, R303: tiles. -/
theorem test_word_tiles :
    reads .x [0x44028C8D, 0x8E098000] (.mmaGang 2 (.s 12) (.s 13) (.s 14) (.v 9)) = true ∧
    reads .x [0x4A008FC0, 0xC0C00000] (.zdrain 0 false (.s 15) .zero .zero .zero) = true := by decide

/-- R313: `mgcommit s3, s2`. -/
theorem test_word_merge : reads .x [0x768382C0, 0xC0C00000] (.mgcommit 3 (.s 2)) = true := by decide

/-- R270 to R285: control. -/
theorem test_word_control :
    reads .c [0x0AC0C0C0] .ret = true ∧ reads .c [0x00C0C0C0, 0xC0000015] (.bra 21) = true ∧
    reads .c [0x20C0C0C0, 0xC00000CC] (.trap 0xCC) = true ∧ reads .c [0x2C84C0C0, 0xC0000001] (.csrr (.s 4) 1) = true ∧
    reads .c [0x28C08515, 0x14540000] (.vpub .partial_ .sys ⟨.s 5, .v 21, 0⟩ (.v 20)) = true := by decide

/-! A small state: one context, one launch, one block of one spindle on core 0, whose clause runs in slots 0 and 1 of
three. The context's tables map 1 GiB each: virtual 0 to bed memory, 1 GiB to stock memory with the persistence bit, 2 GiB
to peer device 5, 3 GiB to the input window and 4 GiB to the result window of operator 0. -/

/-- The table entries (R384, R385). -/
def tEntries : List (Nat × Nat) := [(0x0, 0x1001), (0x1000, 0x2001), (0x2000, 0x4000003B), (0x2008, 0x400000000017B),
  (0x2010, 0x5033B), (0x2018, 0x433), (0x2020, 0x52B), (0x2028, 0), (0x2030, 4)]

/-- The tables, and 32 bytes at virtual 0x1000. -/
def tMem : Memory := tEntries.flatMap (fun x => Memory.cells x.1 (leBytes 8 x.2)) ++ Memory.cells 0x40001000 (leBytes 32 0x8877665544332211)

def tDesc : Desc :=
  { sysvec := 0x200, htab := 0, errbase := 0, alogbase := 0, stopbase := 0, savebase := 0, slice := 1000, parklim := 1, mgto := 10
    domain := 0, qcores := 64, qvreg := 32, qlocal := 2 ^ 24, qacc := 65536, ceil := 0x1F, aloglog2 := 0, errlog2 := 0, stoplog2 := 0
    savecnt := 0, root := 0 }

def tCtx : Ctx :=
  { id := 0, halted := false, halting := false, dying := false, cause := .stopped, desc := tDesc, alogmask := 0, logdrops := 0
    stopcnt := 0, stopdrop := false, prodA := 0, prodE := 0, msgs := 0, charge := 0 }

def tLaunch : Launch :=
  { uid := 0, seq := 7, ctx := 0, queue := 0, cls := .l, task := none, tok := 0, w := [5, 0, 0, 0, 0, 0], e := [3, 1, 1, 1, 1, 1]
    pcount := 0, dl := 1000000, budget := 1000, det := false, nparam := 0, pentry := 0x100, centry := 0, ppart := 0x180, cpart := 0
    pal := ⟨8, 16, 4096, 4096, 64, 128⟩, cal := ⟨8, 16, 4096, 4096, 64, 128⟩, param := 0, recaddr := 0, tlsarea := 0, tlssize := 0
    next := 1, fin := 0, parted := 0, notst := 0, overrun := 0, start := 0, startClk := 0, issued := true, halted := false, div := false
    ended := false }

/-- A register whose slot k holds f(k). -/
def vreg' (f : Nat → Word) : VReg := { tag := .g, vals := (List.range 32).map f }

/-- A uniform register file. -/
def sfile (l : List (Nat × Dword)) : List Dword :=
  (List.range 64).map (fun i => ((l.find? (fun x => x.1 == i)).map (·.2)).getD 0)

/-- v0 and v1 hold 0, v2 holds 5, 7, 9, …, v3 holds 3 − k, v4 and v5 hold the pair 0xFFFFFFFF, 0, and the others 0. -/
def tSpindle : Spindle :=
  { spid := 0, lane := 0, m := 0, e0 := 3, cons := false, vpro := 8, vfull := 16, apro := 64, afull := 128, full := false, acq := none
    v := [vreg' (fun _ => 0), vreg' (fun _ => 0), vreg' (fun k => BitVec.ofNat 32 (5 + 2 * k)), vreg' (fun k => 3 - BitVec.ofNat 32 k),
          vreg' (fun _ => 0xFFFFFFFF), vreg' (fun _ => 0), vreg' (fun _ => 0), vreg' (fun _ => 0)]
    s := sfile [(1, 0x1000), (2, 0x40000000), (3, 0x80000000), (4, 0xC0000000), (5, 0x100000000), (6, 64), (7, 16), (8, 2), (9, 3), (11, 0x140000000)
               , (12, 0x3FF0000000000000), (13, 2 ^ 40), (14, 0x4000010040)]
    bars := List.replicate 8 (0, 0), threads := List.replicate 3 { probeThread with tls := 0x2000 } }

def tBlock : Block :=
  { probeBlock 0 with spindles := [tSpindle], lsize := 4096, lmem := Memory.cells 0 (List.replicate 256 0)
                      acc := (List.range 4).map (fun n => { n := n, w := 0, carry := 0 }) }

def tRun : Run := { probeRun 0 .v [0x20020303] with exec := [0, 1], hdr := 0x100, npc := 0x108 }

def tS : State :=
  { State.reset with mem := tMem, ctxs := [tCtx], launches := [tLaunch], blocks := [tBlock], run := tRun, nextId := 1 }

def tE : Env := ⟨tBlock, tSpindle, tRun⟩

theorem tS_env : tS.env = some tE := rfl

/-- The state after an instruction. -/
def go (i : Instr) (s : State) : State :=
  match exec i s with
  | .next t => t
  | _ => s

/-- Word k of register n of the spindle, and a uniform register. -/
def v (s : State) (n k : Nat) : Option Word := Safety.word s 0 0 n k
def u (s : State) (n : Nat) : Option Dword := sreg s 0 0 n


/-! One step of an instruction. Results are worked by hand, or from the manual's examples where one is named. -/

/-- The word that an issued operation will bring to a register in a slot. -/
def brings (s : State) (slot reg : Nat) : Option Word :=
  ((s.ops.find? (fun o => o.slots == [slot])).bind (fun o => match o.kind with
    | .regs ws => (ws.find? (fun w => w.slot == slot && w.reg == reg)).map (·.val)
    | _ => none))

/-- Predicate p of a slot. -/
def pr (s : State) (k p : Nat) : Option Bool := (thr s 0 0 k).map (fun x => x.preds.getLsbD p)

theorem test_iadd_wraps : v (go (.iadd (.v 6) (.v 2) (.imm 0xFFFFFFFF)) tS) 6 0 = some 4 := by decide
theorem test_iadd_keeps_idle_slot : v (go (.iadd (.v 6) (.v 2) (.imm 1)) tS) 6 2 = some 0 := by decide
theorem test_isub_borrows : v (go (.isub (.v 6) (.v 3) (.v 2)) tS) 6 0 = some 0xFFFFFFFE := by decide
theorem test_iabs_most_negative : v (go (.iabs (.v 6) (.imm 0x80000000)) tS) 6 0 = some 0x80000000 := by decide
theorem test_imulhi_signed : v (go (.imulhi (.v 6) .sgn (.v 4) (.imm 2)) tS) 6 0 = some 0xFFFFFFFF := by decide
theorem test_imul_saturates : v (go (.imul (.v 6) .sgn true (.imm 0x40000000) (.imm 4)) tS) 6 0 = some 0x7FFFFFFF := by decide
theorem test_shl_by_width : v (go (.shl (.v 6) (.v 4) (.imm 32)) tS) 6 0 = some 0 := by decide
theorem test_sar_negative : v (go (.sar (.v 6) (.imm 0x80000000) (.imm 40)) tS) 6 0 = some 0xFFFFFFFF := by decide
/-- R214's example. -/
theorem test_bperm : v (go (.bperm (.v 6) (.imm 0x44332211) (.imm 0x88776655) (.imm 0x7410)) tS) 6 0 = some 0x88552211 := by decide
theorem test_bfx_signed : v (go (.bfx (.v 6) .sgn (.imm 0xF0) (.imm 4) (.imm 4)) tS) 6 0 = some 0xFFFFFFFF := by decide
theorem test_logic3_parity : v (go (.logic3 (.v 6) 0x96 (.imm 6) (.imm 3) (.imm 1)) tS) 6 0 = some 4 := by decide
theorem test_icmp_unsigned : pr (go (.icmp 3 .gt .uns (.v 4) (.v 2)) tS) 1 3 = some true ∧ pr (go (.icmp 3 .gt .sgn (.v 4) (.v 2)) tS) 1 3 = some false := by decide
theorem test_fadd : v (go (.fadd (.v 6) ⟨.f32, .rn, false⟩ (.imm 0x3F800000) (.imm 0x40000000)) tS) 6 0 = some 0x40400000 := by decide
theorem test_ffma_exact_inside : v (go (.ffma (.v 6) ⟨.f32, .rn, false⟩ (.imm 0x3F800001) (.imm 0x3F800001) (.imm 0xBF800002)) tS) 6 0 = some 0x28800000 := by decide
theorem test_cvt_e4m3 : v (go (.cvt (.v 6) ⟨.e4m3, .f32, .rn, false, false⟩ (.imm 0x3F800000)) tS) 6 0 = some 0x38 := by decide
/-- R234's example: 5, 7, … has stride 2. -/
theorem test_shape_affine : v (go (.shape (.v 6) .a (.v 2)) tS) 6 1 = some 7 := by decide
theorem test_redux_over_executing : v (go (.redux (.v 6) .add .sgn .whole (.v 2)) tS) 6 0 = some 12 := by decide
theorem test_shfl_down : v (go (.shfl (.v 6) .down false .whole (.v 2) (.imm 1)) tS) 6 0 = some 7 := by decide
theorem test_rfa_lowest : u (go (.rfa (.s 10) (.v 2)) tS) 10 = some 5 := by decide
theorem test_sadd : u (go (.sadd (.s 10) (.s 1) (.imm 0x100)) tS) 10 = some 0x1100 := by decide
theorem test_smulhi_signed : u (go (.smulhi (.s 10) .sgn64 (.imm 0xFFFFFFFF) (.s 8)) tS) 10 = some 0xFFFFFFFFFFFFFFFF := by decide
theorem test_ld_word : brings (go (.ld 6 plain .b32 (at_ (.s 1))) tS) 0 6 = some 0x44332211 := by decide
theorem test_ld_signed_byte : brings (go (.ld 6 plain .i8 ⟨.s 1, .zero, 7⟩) tS) 1 6 = some 0xFFFFFF88 := by decide
theorem test_st_last_slot_stands : seen (go (.st plain .b8 (at_ (.s 1)) (.v 2)) tS) 0 0x40001000 = 7 := by decide
theorem test_atom_adds_each_slot : bytesAt (seen (go (.atom none plain false .add (at_ (.s 1)) (.imm 1)) tS) 0) 0x40001000 4 = [0x13, 0x22, 0x33, 0x44] := by decide
theorem test_stl_local : localByte (go (.stl .b16 (at_ (.s 6)) (.v 2)) tS) 0 64 = some 7 := by decide
theorem test_arcadd_sums : ((go (.arcadd (.s 7) (.imm 5) 0) tS).blk 0).map (·.counter 16) = some (10, 0) := by decide
/-- R101's example: −7 ÷ 2. -/
theorem test_idiv : brings (go (.idiv 6 false (.imm 0xFFFFFFF9) (.imm 2)) tS) 0 6 = some 0xFFFFFFFD ∧
    brings (go (.idiv 6 false (.imm 0xFFFFFFF9) (.imm 2)) tS) 0 7 = some 0xFFFFFFFF := by decide
theorem test_rcp_of_two : brings (go (.rcp 6 false false true (.imm 0x40000000)) tS) 0 6 = some 0x3F000000 := by decide
theorem test_bra_from_header : (thr (go (.bra 21) tS) 0 0 0).map (·.pc) = some 0x154 := by decide
theorem test_call_pushes : (thr (go (.call 0xFFFFFF) tS) 0 0 1).map (fun x => (x.pc, x.rs, x.rsd)) = some (0xFC, [0x108], 1) := by decide
theorem test_exit : (thr (go .exit tS) 0 0 0).map (·.st) = some .exited ∧ (thr (go .exit tS) 0 0 2).map (·.st) = some .ready := by decide
theorem test_trap_halts : (go (.trap 0xCC) tS).ctxs.map (fun c => (c.halting, c.cause)) = [(true, .software)] := by decide
theorem test_sys_enters : (thr (go (.sys 9 (.s 1) .zero) tS) 0 0 0).map (fun x => (x.pc, x.insys, x.sysa, x.sysret)) =
    some (0x200, true, 0x1000, 0x108) := by decide
theorem test_enrol : (spn (go (.enrol 2) tS) 0 0).map (fun sp => sp.bars[2]?) = some (some (3, 0)) := by decide
theorem test_zdef_defines : ((go (.zdef 4 true .zero (.s 8) (.s 9)) tS).blk 0).map (fun b => (b.tiles[4]?).join.map (fun t => (t.rows, t.cols))) =
    some (some (2, 3)) := by decide
theorem test_csrr_sfrev : u (go (.csrr (.s 10) 1) tS) 10 = some 1 := by decide
theorem test_arcset_two_dwords : ((go (.arcset (.s 7) (.imm 3) (.imm 4) 1) tS).blk 0).map (·.counter 32) = some (3, 4) := by decide
theorem test_mgabort_no_slot : (go (.mgabort 10 (.s 8)) { tS with sched := { tS.sched with units := [(1, 0)] } }).ops.map (·.kind) = [.sreg 10 4] := by decide
theorem test_bootok : (go .bootok { State.reset with boot := { Boot.reset 2 0 with state := 5, trained := true } }).boot.fails = 0 := by decide

/-- The step of a fetched word: `sadd s1, s63, 0x100` as the first instruction after reset. -/
theorem test_step_runs_word :
    (match step (State.reset.withFetchWord 64 0x1004081BFC6) with | .next t => u t 1 | _ => none) = some 0x100 := by decide


/-! Witnesses: for each statement, a state and operands that meet the hypotheses of its clauses. Where a statement asks
only for a clause in progress (`s.env = some e`), `tS` and `tE` are it. -/

theorem tS_quiet : Quiet tS 0 := ⟨rfl, by decide +kernel, rfl, rfl, by decide +kernel, by decide +kernel⟩

/-- Places that are memory. -/
theorem places_mem (l : List (Nat × List (Loc × Nat))) (h : l.all (fun x => x.2.all (fun y => match y.1 with | .mem _ => true | _ => false)) = true) :
    ∀ x ∈ l, ∀ y ∈ x.2, isMem y.1 := by
  intro x hx y hy
  have h2 := List.all_eq_true.mp (List.all_eq_true.mp h x hx) y hy
  revert h2
  cases y.1 <;> simp [isMem]

theorem witness_LaneIntegerResults : tS.env = some tE := rfl
theorem witness_CarryAndShapeResults : tS.env = some tE := rfl

/-- A uniform source, an affine one and a general one, each described by its tag in the slots 0 to 2. -/
def tShaped : Env :=
  { tE with sp := { tSpindle with v := [{ vreg' (fun _ => 7) with tag := .u }, { vreg' (fun k => 5 + BitVec.ofNat 32 k * 2) with tag := .a 5 2 },
                                        vreg' (fun k => BitVec.ofNat 32 (k * k))] }
            r := { tRun with exec := [0, 1, 2] } }
theorem witness_ShapeTagsDescribe :
    tShaped.low ∈ [0, 1, 2] ∧ tShaped.tag false (.v 0) = .u ∧ tShaped.tag false (.v 1) = .a 5 2 ∧ tShaped.tag false (.v 2) = .g ∧
    (∀ j ∈ [0, 1, 2], ∀ k ∈ [0, 1, 2], tShaped.read32 (.v 0) j = tShaped.read32 (.v 0) k) ∧
    ∀ k ∈ [0, 1, 2], tShaped.read32 (.v 1) k = 5 + BitVec.ofNat 32 k * 2 := by decide +kernel

theorem witness_PredicateResults : tS.env = some tE := rfl
theorem witness_PredicateLogic :
    tS.env = some tE ∧ 32 ≤ (0x20 : Byte).toNat ∧ (0xC1 : Byte) ≠ 0xC0 ∧ (1 : BitVec 24) ≠ 0 := ⟨rfl, by decide +kernel, by decide +kernel, by decide +kernel⟩
theorem witness_FloatResults : tS.env = some tE := rfl
theorem witness_ConversionResults : tS.env = some tE := rfl

/-- Single precision: a signalling NaN first, one second, a quiet one third; 1 + 2^−24 rounds to 1, and 2.0 is no nearer. -/
theorem witness_FloatRules :
    (0x7F800001 / 2 ^ 23 % 2 ^ 8 = 2 ^ 8 - 1 ∧ 0 < 0x7F800001 % 2 ^ 23 ∧ 0x7F800001 % 2 ^ 23 < 2 ^ 22) ∧
    0x3F800000 / 2 ^ 23 % 2 ^ 8 ≠ 2 ^ 8 - 1 ∧ (0x7FC00000 / 2 ^ 23 % 2 ^ 8 = 2 ^ 8 - 1 ∧ 0x7FC00000 % 2 ^ 23 ≠ 0) ∧
    (FFmt.f32.round .rne 0 false false false (2 ^ 24 + 1) (-24)).bits = 0x3F800000 ∧
    (FFmt.f32.round .rne 0 false false false (2 ^ 24 + 1) (-24)).ovf = false ∧
    FFmt.f32.decode 0x3F800000 = .fin false (2 ^ 23) (-23) ∧ FFmt.f32.decode 0x40000000 = .fin false (2 ^ 23) (-22) := by decide +kernel

/-- A clause in progress; no value, and lists of single-precision values: a signalling NaN behind a number, both infinities,
each alone, zeros of one sign and of both, finite numbers with a rounded sum. -/
theorem witness_CrossSlotResults :
    let f : List (List Dword) := [[0x3F800000, 0x7F800001], [0x7F800000, 0xFF800000], [0x7F800000], [0xFF800000], [0x80000000, 0x80000000],
      [0x80000000, 0], [0x3F800000, 0x40000000]]
    tS.env = some tE ∧ ([] : List Dword) = [] ∧ (XType.sgn ≠ .b32 ∧ XType.sgn ≠ .b64) ∧ (∀ l ∈ f, l ≠ [] ∧ ∀ x ∈ l, x.toNat < 2 ^ 32) ∧
    (255 * 2 ^ 23 < 0x7F800001 % 2 ^ 31 ∧ 0x7F800001 % 2 ^ 23 < 2 ^ 22) ∧
    (∀ l ∈ f.drop 1, ∀ x ∈ l, x.toNat % 2 ^ 31 ≤ 255 * 2 ^ 23) ∧
    FFmt.f32.decode (reduceAll .add .f32 [0x3F800000, 0x40000000]).1.toNat = .fin false (3 * 2 ^ 22) (-22) ∧
    FFmt.f32.decode 0x40000000 = .fin false (2 ^ 23) (-22) :=
  ⟨rfl, rfl, by decide, by simp, by omega, by simp, by decide +kernel⟩
theorem witness_UniformResults : tS.env = some tE := rfl
theorem witness_SpecialUnitsIssue : tS.env = some tE := rfl

/-- −2, 1 and 1/2. -/
theorem witness_SpecialFunctionInputs :
    FFmt.f32.decode 0xC0000000 = .fin true (2 ^ 23) (-22) ∧
    FFmt.f32.decode 0x3F800000 = .fin false (2 ^ 23) (-23) ∧ ((2 ^ 23 : Nat) : Int) * 2 ^ ((-23 : Int) + 200).toNat % 2 ^ 200 = 0 ∧
    FFmt.f32.decode 0x3F000000 = .fin false (2 ^ 23) (-24) ∧ ((2 ^ 23 : Nat) : Int) * 2 ^ ((-24 : Int) + 200).toNat % 2 ^ 200 = 2 ^ 199 := by
  decide +kernel

/-- A state in which operations are pending: a load's for v6 in slot 0, a fence's, and one that persists a line. -/
def tOp (id : Nat) (k : OpKind) : Op :=
  { id := id, blk := 0, m := 0, ctx := 0, core := 0, spid := 0, slots := [0], token := some 2, hdr := 0x100, start := 0, kind := k }
def tOps (k : OpKind) : State := { tS with ops := [tOp 1 (.fence false), tOp 2 k], nextId := 3 }

theorem witness_RegisterResultArrives :
    let s := tOps (.regs [⟨0, 6, 9⟩])
    let x : PeerOut := { key := ⟨0, 0, 1⟩, dev := 5, op := some 2, thr := none, addr := 0 }
    s.ops.find? (fun x => x.id == 2) = some (tOp 2 (.regs [⟨0, 6, 9⟩])) ∧ spn s 0 0 = some tSpindle ∧
    s.unsent (tOp 2 (.regs [⟨0, 6, 9⟩])) = false ∧
    ({ s with fabric := { s.fabric with held := [{ kind := .read 4, x := x }] } } : State).unsent (tOp 2 (.regs [⟨0, 6, 9⟩])) = true :=
  ⟨by decide +kernel, rfl, by decide +kernel, by decide +kernel⟩

theorem witness_OwnStoreIsSeen :
    let s : State := { tS with coh := { tS.coh with
      l1 := [{ core := 0, line := 0x40001080 / 128, data := List.replicate 128 0, clk := 9 }]
      pend := [{ die := 0, pa := 0x4000107E, data := [5, 6], clk := 0, core := 0, spid := 0 }] } }
    Pol.l1 ≠ .ro ∧ [(1 : Byte), 2] ≠ [] ∧ 0x4000107E % 128 + 2 ≤ 128 ∧
    (∀ x ∈ [s, tS], (∀ a, 0x4000107E ≤ a → a < 0x4000107E + 2 → x.retired a = false) ∧ (∀ c ∈ x.coh.l1, c.data.length = 128) ∧
      (∀ p ∈ x.coh.pend, p.pa % 128 + p.data.length ≤ 128) ∧ x.coh.flips = []) ∧ Quiet tS 0 := by
  refine ⟨by decide +kernel, by decide +kernel, by decide +kernel, ?_, tS_quiet⟩
  intro x h; simp only [List.mem_cons, List.not_mem_nil, or_false] at h
  rcases h with rfl | rfl <;> exact ⟨fun a _ _ => rfl, by decide +kernel, by decide +kernel, rfl⟩

/-- Both slots reach the word at virtual 0x1000, and its flag. -/
theorem witness_LoadsAndStores :
    let l : List (Nat × List (Loc × Nat)) := [(0, [(.mem 0x40001000, 4)]), (1, [(.mem 0x40001000, 4)])]
    let f : List (Nat × List (Loc × Nat)) := [(0, [(.mem 0x40001000, 8)]), (1, [(.mem 0x40001000, 8)])]
    tS.env = some tE ∧
    checkSlots (fun j => tS.access tE (tE.gaddr (at_ (.s 1)) 4 j) 4 (askLd plain 4) mkLoad) tE.r.exec = .ok l ∧
    checkSlots (fun j => tS.access tE (tE.gaddr (at_ (.s 1)) 4 j) 4 (askSt plain 4) mkStore) tE.r.exec = .ok l ∧
    checkSlots (fun k => tS.access tE (tE.gaddr (at_ (.s 1)) 8 k) 8 (askPub ((tE.gaddr (at_ (.s 1)) 8 k).toNat % 8 == 0)) mkStore) tE.r.exec = .ok f ∧
    (∀ x ∈ l, ∀ y ∈ x.2, isMem y.1) ∧ (∀ x ∈ f, ∀ y ∈ x.2, isMem y.1) ∧ tS.badSlot l = none ∧ tS.downSlot l = none ∧ tS.downSlot f = none ∧
    Quiet tS 0 ∧ plain.pol ≠ .ro :=
  ⟨rfl, rfl, rfl, rfl, places_mem _ rfl, places_mem _ rfl, by decide +kernel, by decide +kernel, by decide +kernel, tS_quiet, by decide +kernel⟩

/-- One executing slot. -/
def tE1 : Env := { tE with r := { tRun with exec := [0] } }
def tS1 : State := { tS with run := tE1.r }
theorem tS1_quiet : Quiet tS1 0 := ⟨rfl, by decide +kernel, rfl, rfl, by decide +kernel, by decide +kernel⟩

theorem witness_Atomics :
    let l : List (Nat × List (Loc × Nat)) := [(0, [(.mem 0x40001000, 4)])]
    let x : List (Nat × List (Loc × Nat)) := [(0, [(.mem 0x40001000, 32)])]
    tS1.env = some tE1 ∧ tS1.det tE1.b = false ∧
    checkSlots (fun j => tS1.access tE1 (tE1.gaddr (at_ (.s 1)) 4 j) 4 (askAtom ((tE1.gaddr (at_ (.s 1)) 4 j).toNat % 4 == 0)) mkStore) tE1.r.exec = .ok l ∧
    checkSlots (fun j => tS1.access tE1 (tE1.gaddr (at_ (.s 1)) 32 j) 32 (askAtom ((tE1.gaddr (at_ (.s 1)) 32 j).toNat % 32 == 0)) mkStore) tE1.r.exec = .ok x ∧
    (∀ x ∈ l, ∀ y ∈ x.2, isMem y.1) ∧ (∀ y ∈ x, ∀ z ∈ y.2, isMem z.1) ∧ tS1.badSlot l = none ∧ tS1.badSlot x = none ∧ Quiet tS1 0 ∧
    (BitVec.ofNat 256 (leNat (bytesAt (seen tS1 0) 0x40001000 32))).toInt + (tE1.read32 (.imm 1) 0).toInt * 2 ^ 112 < 2 ^ 255 :=
  ⟨rfl, by decide +kernel, rfl, rfl, places_mem _ rfl, places_mem _ rfl, by decide +kernel, by decide +kernel, tS1_quiet, by decide +kernel⟩

/-- At the last bytes of the reservation, and at the last counter of it. -/
theorem witness_LocalAccesses :
    tS.env = some tE ∧
    (∀ k ∈ tE.r.exec, tE.laddr ⟨.imm 4092, .zero, 0⟩ 4 k + Size.b32.bytes ≤ tE.b.lsize ∧
      ∀ i, i < Size.b32.bytes → tE.b.present ((tE.laddr ⟨.imm 4092, .zero, 0⟩ 4 k + i) / 128) = true ∧
        tE.b.stashAt (128 * ((tE.laddr ⟨.imm 4092, .zero, 0⟩ 4 k + i) / 128)) = none ∧
        tE.b.stashAt (tE.laddr ⟨.imm 4092, .zero, 0⟩ 4 k + i) = none) ∧
    tE.b.slow.contains tE.sp.m = false ∧
    ({ tS with blocks := [{ tBlock with slow := [0] }] } : State).env = some { tE with b := { tBlock with slow := [0] } } ∧
    ({ tBlock with slow := [0] } : Block).slow.contains tE.sp.m = true ∧
    (tE.readU (.s 6)).toNat ≠ 0 ∧ (∀ k ∈ tE.r.exec, tE.laddr ⟨.imm 4032, .zero, 0⟩ 1 k + (tE.readU (.s 6)).toNat ≤ tE.b.lsize) ∧ tE.b.stash = [] ∧
    (∀ k ∈ tE.r.exec, tE.caddr (.imm 4080) 0 k % 16 = 0 ∧ tE.caddr (.imm 4080) 0 k + 16 ≤ tE.b.lsize ∧ tE.b.stashAt (tE.caddr (.imm 4080) 0 k) = none) ∧
    tE1.r.exec = [0] :=
  ⟨rfl, by decide +kernel, by decide +kernel, rfl, by decide +kernel⟩

theorem witness_OrderingInstructions :
    let p (mark : Option Nat) : Op := tOp 2 (.persist [(0x4000000000000, 64)] mark)
    tS.env = some tE ∧ FSet.all ≠ .win ∧ FSet.all ≠ .async ∧ Quiet tS 0 ∧
    checkSlots (fun k => tS.persistRange tE (tE.gaddr (at_ (.s 2)) 1 k) (tE.readU (.s 6)).toNat) tE.r.exec =
      .ok [(0, [(0x4000000000000, 64)]), (1, [(0x4000000000000, 64)])] ∧
    (∀ mark ∈ [none, some 0], (tOps (p mark).kind).ops.find? (fun x => x.id == 2) = some (p mark) ∧ (tOps (p mark).kind).unsent (p mark) = false ∧
      ∀ x ∈ (tOps (p mark).kind).durable, x.2.1 < (tOps (p mark).kind).writes) ∧ (∃ n, pclass 0x4000000000000 = .stock n) ∧
    (∀ x ∈ [(0, [(0x4000000000000, 64)]), (1, [(0x4000000000000, 64)])], ∀ r ∈ x.2, tS.downIn r.1 r.2 = none) ∧
    pclass 0x8000000000000 = .host :=
  ⟨rfl, by decide +kernel, by decide +kernel, tS_quiet, rfl, by decide +kernel, ⟨_, rfl⟩, by decide +kernel, rfl⟩

/-- The block and the state with thread 0 changed, its clause in slot 0 alone. -/
def tThread (f : Thread → Thread) : Env :=
  let sp := { tSpindle with threads := [f { probeThread with tls := 0x2000 }] }
  ⟨{ tBlock with spindles := [sp] }, sp, tE1.r⟩
def tThreadS (f : Thread → Thread) : State := { tS1 with blocks := [(tThread f).b] }
theorem tThread_quiet (f : Thread → Thread) : Quiet (tThreadS f) 0 := ⟨rfl, by simp [tThreadS, tThread, tBlock, probeBlock], rfl, rfl, by simp [tThreadS, tS1, tS, State.reset, Coh.reset], by simp [tThreadS, tS1, tS, State.reset, Coh.reset]⟩

/-- Depth 0 for the plain calls, depths 1 and 9 for the returns, depths 8 and 63 for the calls that spill. -/
theorem witness_BranchesTaken :
    let deep (n : Nat) (x : Thread) : Thread := { x with rs := List.replicate 8 0x300, rsd := n }
    tS.env = some tE ∧ (∀ k ∈ tE.r.exec, (tE.read true (.s 1) k).toNat % 4 = 0) ∧
    (∀ k ∈ tE.r.exec, (tE.thr k).map (fun x => (x.rsd, x.insys)) = some (0, false)) ∧
    ((tS.ctx 0).map (fun c => c.desc.sysvec)).getD 0 ≠ 0 ∧
    (tThreadS (fun x => { x with rs := [0x300], rsd := 1 })).env = some (tThread (fun x => { x with rs := [0x300], rsd := 1 })) ∧
    (tThreadS (fun x => { x with insys := true })).env = some (tThread (fun x => { x with insys := true })) ∧
    (∀ n ∈ [8, 63], (tThreadS (deep n)).env = some (tThread (deep n)) ∧
      (tThreadS (deep n)).access (tThread (deep n)) (0x2000 + BitVec.ofNat 64 (8 * (n - 8))) 8 askSpill mkStore =
        .ok [(.mem (0x40002000 + 8 * (n - 8)), 8)] ∧ (tThreadS (deep n)).downIn (0x40002000 + 8 * (n - 8)) 8 = none) ∧
    (∀ n ∈ [9, 64], (tThreadS (deep n)).env = some (tThread (deep n)) ∧
      (tThreadS (deep n)).access (tThread (deep n)) (0x2000 + BitVec.ofNat 64 (8 * (n - 9))) 8 askFill mkLoad =
        .ok [(.mem (0x40002000 + 8 * (n - 9)), 8)] ∧ (tThreadS (deep n)).badIn (0x40002000 + 8 * (n - 9)) 8 = none) ∧
    ((deep 8 { probeThread with tls := 0x2000 }).rs.length = 8 ∧ (0x2000 : Dword) ≠ 0 ∧ (tThread (deep 8)).r.exec = [0]) ∧
    Quiet (tThreadS (deep 8)) 0 := by
  refine ⟨rfl, by decide +kernel, by decide +kernel, by decide +kernel, rfl, rfl, ?_, ?_, by decide +kernel, tThread_quiet _⟩
  iterate 2
    intro n hn; simp only [List.mem_cons, List.not_mem_nil, or_false] at hn; rcases hn with rfl | rfl <;> exact ⟨rfl, rfl, by decide +kernel⟩

/-- Barrier 2 with the threads of slots 0 and 1 enrolled, the full allotment held or not, no accumulator operation. -/
def tSp2 (full : Bool) (en : Word) : Env :=
  let sp := { tSpindle with full := full, bars := (List.replicate 8 (0, 0)).set 2 (en, 0) }
  ⟨{ tBlock with spindles := [sp] }, sp, tRun⟩
def tSp2S (full : Bool) (en : Word) : State := { tS with blocks := [(tSp2 full en).b] }
theorem witness_BarriersAndWaits :
    (∀ full ∈ [false, true], ∀ en ∈ [(0 : Word), 3, 7], (tSp2S full en).env = some (tSp2 full en) ∧ (tSp2 full en).sp.bars[2]? = some (en, 0)) ∧
    -- nobody, all, or not all of the enrolled threads are there
    tE.r.exec.filter (fun k => (0 : Word).getLsbD k) = [] ∧ tE.r.exec.filter (fun k => (3 : Word).getLsbD k) = [0, 1] ∧
    (∀ k, k < 32 → (3 : Word).getLsbD k = true → k ∈ [0, 1]) ∧
    ((7 : Word).getLsbD 2 = true ∧ (0 : Word).getLsbD 2 = false ∧ 2 ∉ tE.r.exec ∧ (tSp2 false 7).sp.gone 2 = false) ∧
    (∃ x, (tSp2 false 3).thr 0 = some x ∧ (standing (tSp2S false 3) (tSp2 false 3) 0 (.rejoin 2) x).st = .parked (.rejoin 2)) ∧
    ((tSp2 false 3).sp.full = false ∧ (tSp2 false 3).sp.vfull ≠ (tSp2 false 3).sp.vpro) ∧ ((tSp2S false 3).blocks.map (·.uid)).Nodup ∧
    (∀ k ∈ tE.r.exec, tE.caddr (.s 7) 0 k % 16 = 0 ∧ tE.caddr (.s 7) 0 k + 16 ≤ tE.b.lsize ∧ tE.b.stashAt (tE.caddr (.s 7) 0 k) = none) ∧
    (tSp2S true 0).accBusy (tSp2 true 0).b (tSp2 true 0).sp = false ∧ tS.launch 0 = some tLaunch := by
  refine ⟨?_, by decide +kernel, by decide +kernel, by decide +kernel, by decide +kernel, ⟨_, rfl, by decide +kernel⟩, ?_, ?_, ?_, ?_, rfl⟩
  iterate 4 (on_goal 2 => decide +kernel)
  intro full hf en he
  simp only [List.mem_cons, List.not_mem_nil, or_false] at hf he
  rcases hf with rfl | rfl <;> rcases he with rfl | rfl | rfl <;> exact ⟨rfl, rfl⟩

theorem witness_IssueAndRegisters : tS.env = some tE ∧ tS.ctx 0 = some tCtx := ⟨rfl, rfl⟩

/-- A load where nothing is mapped, a local access one byte past the reservation, a jump to an odd address. -/
theorem witness_HaltEntry :
    tS.env = some tE ∧ tS.ctx 0 = some tCtx ∧ tCtx.halted = false ∧ tCtx.halting = false ∧
    (∀ r ∈ tS.runs, r.blk = tE.b.uid → r.m = tE.sp.m → ∀ j ∈ r.exec, j ∉ tE.r.exec) ∧
    checkSlots (fun j => tS.access tE (tE.gaddr ⟨.s 5, .imm 0x40000000, 0⟩ 4 j) 4 (askLd plain 4) mkLoad) tE.r.exec = .error (0, .trap .translation 0x140000000) ∧
    tE.r.exec.find? (fun j => decide (tE.b.lsize < tE.laddr ⟨.imm 4093, .zero, 0⟩ 4 j + 4)) = some 0 ∧
    tE.r.exec.find? (fun j => (tE.read true (.imm 0x1001) j).toNat % 4 != 0) = some 0 := by
  refine ⟨rfl, rfl, rfl, rfl, by decide +kernel, rfl, by decide +kernel, by decide +kernel⟩

/-- Where nothing stands between memory and a core. -/
theorem quiet_of (s : State) (c : Nat) (h : s.coh = Coh.reset) (hf : s.health.unmapped = [])
    (hb : s.blocks.all (fun b => b.owned == []) = true) : Quiet s c :=
  ⟨by rw [h]; rfl, fun b hm => by simpa using List.all_eq_true.mp hb b hm, hf, by rw [h]; rfl, by rw [h]; simp [Coh.reset], by rw [h]; simp [Coh.reset]⟩

theorem locs_mem (l : List (Loc × Nat)) (h : l.all (fun y => match y.1 with | .mem _ => true | _ => false) = true) :
    ∀ y ∈ l, isMem y.1 := by
  intro y hy
  have h2 := List.all_eq_true.mp h y hy
  revert h2
  cases y.1 <;> simp [isMem]

/-- Bytes of some fields at their bit positions. -/
def fields (n : Nat) (l : List (Nat × Nat)) : List Byte := leBytes n ((l.map (fun x => x.2 <<< x.1)).sum)

/-- `tS` with bytes at physical addresses and a block changed; its environment. -/
def tWith (l : List (Nat × List Byte)) (f : Block → Block) : State :=
  { tS with mem := tMem ++ l.flatMap (fun x => Memory.cells x.1 x.2), blocks := [f tBlock] }
def tEnv (f : Block → Block) : Env := ⟨f tBlock, tSpindle, tRun⟩

/-- Tile 4: 2 rows of 1. -/
def tTile : Tile := { uid := 5, base := 0, rows := 2, cols := 1, nf := false, ovf := false }
def tTiled (b : Block) : Block := { b with tiles := (List.replicate 16 none).set 4 (some tTile) }

theorem witness_TileHandles :
    tS.env = some tE ∧ tE.b.tiles.length = 16 ∧
    ((tE.readU .zero).toNat % 64 = 0 ∧ (tE.readU (.imm 64)).toNat ≤ 64 ∧ (tE.readU (.imm 1)).toNat = 1 ∧
      ∀ i, i < 64 * 1 → tE.b.accHeld (0 + i) = true) ∧
    (tE.readU (.imm 1)).toNat % 64 ≠ 0 ∧ tE.b.tile 4 = none ∧ (tWith [] tTiled).env = some (tEnv tTiled) ∧ (tEnv tTiled).b.tile 4 = some tTile :=
  ⟨rfl, by decide +kernel, by decide +kernel, by decide +kernel, rfl, rfl, rfl⟩

/-- Both operands E4M3 (code 3); X_A 0 and one block of 32 along k; X_B in the last 256 bytes. -/
theorem witness_TileOperationsIssue :
    let e := tEnv tTiled
    let gang : State := { tWith [] tTiled with launches := [{ tLaunch with w := [5, 0, 1, 0, 0, 0] }] }
    (tWith [] tTiled).env = some e ∧ e.b.tile 4 = some tTile ∧ gang.env = some e ∧
    ((0x033 : Word).toNat < 2 ^ 13 ∧ (0x033 : Word).toNat % 16 ≤ 6 ∧ (0x033 : Word).toNat / 16 % 16 ≤ 6) ∧
    (∀ k ∈ e.r.exec, e.read32 (.imm 0x033) k = 0x033) ∧ (e.read32 (.imm 0x100000) e.low).toNat / 2 ^ 20 = 1 ∧
    (mmaRanges tTile 0 3840 1 0x033).1.1 + (mmaRanges tTile 0 3840 1 0x033).1.2 ≤ e.b.lsize ∧
    (mmaRanges tTile 0 3840 1 0x033).2.1 + (mmaRanges tTile 0 3840 1 0x033).2.2 ≤ e.b.lsize ∧
    ((gang.launch 0).bind (fun l => l.w[2]?)).getD 0 ≠ 0 ∧ gang.gangBlockAt e.b 0 = some (tTiled tBlock) ∧ e.b.gangN ∉ e.b.gangX ∧
    (∃ k ∈ e.r.exec, e.read32 (.v 2) k ≠ e.read32 (.v 2) e.low) ∧
    (e.gaddr ⟨.s 1, .zero, 0⟩ 1 e.low).toNat % 32 = 0 ∧
    (e.gaddr ⟨.s 1, .imm 8, 0⟩ 1 e.low).toNat % 32 ≠ 0 ∧
    (∀ write ∈ [false, true], ∀ x ∈ [0, 8], (tWith [] tTiled).checkAccess (e.walker (tWith [] tTiled)) (e.gaddr ⟨.s 1, .imm (BitVec.ofNat 32 x), 0⟩ 1 e.low) 96
      (askCopy write) (fun _ => none) = .ok [(.mem (0x40001000 + x), 96)]) ∧
    ((tWith [] tTiled).walkedAll (e.walker (tWith [] tTiled)) ((List.range tTile.rows).map (fun i =>
      (e.gaddr ⟨.s 1, .zero, 0⟩ 1 e.low + BitVec.ofNat 64 (i * (tTile.cols * 4)), tTile.cols * 4)))).rowLocs e (e.gaddr ⟨.s 1, .zero, 0⟩ 1 e.low) 4 4 (askCopy true) 2 = .ok [(.mem 0x40001000, 4), (.mem 0x40001004, 4)] := by
  refine ⟨rfl, rfl, rfl, by decide +kernel, by decide +kernel, by decide +kernel, by decide +kernel, by decide +kernel, by decide +kernel, rfl, ?_, ?_, ?_, ?_, ?_, rfl⟩
  iterate 4 (on_goal 1 => decide +kernel)
  intro w hw x hx; simp only [List.mem_cons, List.not_mem_nil, or_false] at hw hx; rcases hw with rfl | rfl <;> rcases hx with rfl | rfl <;> rfl

/-- Pending operations in a state. -/
def State.withOps' (s : State) (l : List Op) : State := { s with ops := l, nextId := 10 }

/-- An `mma` of the block alone; two gang operations that agree, and two that do not. -/
theorem witness_MmaAddsExactly :
    let o := tOp 2 (.mma tTile 4 0 2048 1 0x033 none 0 (some 0))
    let s := State.withOps' (tWith [] tTiled) [o]
    let two := { tTiled tBlock with uid := 1, core := 1 }
    let gang (a b : Op) : State := { State.withOps' (tWith [] tTiled) [a, b] with
      blocks := [tTiled tBlock, two], launches := [{ tLaunch with e := [3, 1, 2, 1, 1, 1] }] }
    let p (id blk kb : Nat) : Op := { tOp id (.mma tTile 4 0 2048 kb 0x033 (some 0) 0 none) with blk := blk }
    pending s 2 = some o ∧ s.blk 0 = some (tTiled tBlock) ∧
    (tTiled tBlock).allPresent [(mmaRanges tTile 0 2048 1 0x033).1, (mmaRanges tTile 0 2048 1 0x033).2] = true ∧
    (∃ x ∈ (tTiled tBlock).tiles, x.map (·.uid) = some tTile.uid) ∧ (tTiled tBlock).unseen = [] ∧ (tTiled tBlock).evicted = false ∧
    s.unsent o = false ∧ s.halting 0 = false ∧
    (∀ kb ∈ [1, 2], (gang (p 2 0 1) (p 3 1 kb)).blk 0 = some (tTiled tBlock) ∧
      (gang (p 2 0 1) (p 3 1 kb)).gangOps (tTiled tBlock) 0 = [p 2 0 1, p 3 1 kb] ∧ (gang (p 2 0 1) (p 3 1 kb)).ops.filter (·.blk == 0) = [p 2 0 1] ∧
      (((gang (p 2 0 1) (p 3 1 kb)).launch 0).bind (fun l => l.e[2]?)).getD 0 = 2 ∧
      ((gang (p 2 0 1) (p 3 1 kb)).ops.map (·.id)).Nodup ∧
      (gang (p 2 0 1) (p 3 1 kb)).gangBlockAt (tTiled tBlock) 0 = some (tTiled tBlock)) ∧
    (p 2 0 1).kind.gangKey = (p 3 1 1).kind.gangKey ∧ (p 2 0 1).kind.gangKey ≠ (p 3 1 2).kind.gangKey ∧
    (gang (p 2 0 1) (p 3 1 2)).ctx 0 = some tCtx := by
  refine ⟨by decide +kernel, rfl, by decide +kernel, by decide +kernel, rfl, rfl, by decide +kernel, by decide +kernel, ?_, by decide +kernel, by decide +kernel, rfl⟩
  intro kb h; simp only [List.mem_cons, List.not_mem_nil, or_false] at h
  rcases h with rfl | rfl <;> exact ⟨rfl, by decide +kernel, by decide +kernel, by decide +kernel, by decide +kernel, rfl⟩

theorem witness_RoundingToRegisters :
    (tWith [] tTiled).env = some (tEnv tTiled) ∧ (tEnv tTiled).b.tile 4 = some tTile ∧ (tEnv tTiled).b.mmaOver tTile = false :=
  ⟨rfl, rfl, by decide +kernel⟩

/-- A quantise descriptor at local 64: two rows of two single-precision elements at local 128, row-blocked to E4M3 at local 256. -/
def tQuant (b : Block) : Block :=
  { b with lmem := Memory.cells 0 (List.replicate 64 0) ++
      Memory.cells 64 (fields 64 [(3, 1), (4, 2), (12, 1), (256, 2), (272, 2), (320, 8), (352, 128), (384, 256)]) ++
      Memory.cells 128 (List.replicate 128 0) }
def tQuantD : QuantD :=
  { seed := 0, caddr := 0, raddr := 256, srcaddr := 128, srcpitch := 8, col0 := 0, row0 := 0, cols := 2, rows := 2, src := true
    sbf16 := false, dfmt := 3, rcopy := true, ccopy := false }

theorem witness_TileTransfers :
    let at_ (n : Nat) : List (Loc × Nat) := [(.mem 0x40001000, n)]
    let d : DrainD := { seed := 0, col0 := 0, row0 := 0, bias := [], nosat := false, dfmt := 0 }
    (∀ k ∈ ([.zst tTile 4 (at_ 96), .zld tTile 4 (at_ 96), .zdrain tTile 4 d .rne [at_ 8, [], [], [], []]] : List OpKind),
      pending (State.withOps' (tWith [] tTiled) [tOp 2 k]) 2 = some (tOp 2 k) ∧
      (State.withOps' (tWith [] tTiled) [tOp 2 k]).blk 0 = some (tTiled tBlock) ∧
      (State.withOps' (tWith [] tTiled) [tOp 2 k]).unsent (tOp 2 k) = false ∧ (State.withOps' (tWith [] tTiled) [tOp 2 k]).halting 0 = false) ∧
    (tTiled tBlock).mmaOver tTile = false ∧ (tOp 2 (.fence false)).early = false ∧ (tWith [] tTiled).downIn 0x40001000 96 = none ∧
    (∃ x ∈ (tTiled tBlock).tiles, x.map (·.uid) = some tTile.uid) ∧ (∀ c, tS.ctx 0 = some c → c.desc.alogbase = 0) ∧
    Quiet (tWith [] tTiled) 0 ∧ (tWith [] tTiled).badIn 0x40001000 96 = none ∧
    (tWith [] tQuant).env = some (tEnv tQuant) ∧ fwMode ((tEnv tQuant).read32 .zero (tEnv tQuant).low) = some .rne ∧
    ((tEnv tQuant).readU (.s 6)).toNat = 64 ∧ (∀ i, i < 64 → (tEnv tQuant).b.present ((64 + i) / 128) = true) ∧
    quantDesc (bytesAt (fun a => (ownByte (tWith [] tQuant) 0 0 a).getD 0) 64 64) none false = some tQuantD ∧
    (∀ r ∈ tQuantD.reads ++ tQuantD.writes, r.1 + r.2 ≤ (tEnv tQuant).b.lsize) ∧
    (tQuant tBlock).allPresent tQuantD.reads = true ∧
    (let o := tOp 2 (.quant none 0 tQuantD .rne)
     let s := State.withOps' (tWith [] tQuant) [o]
     pending s 2 = some o ∧ s.blk 0 = some (tQuant tBlock) ∧ (tQuant tBlock).evicted = false ∧ o.early = false ∧
      s.opndOver (tQuant tBlock) tQuantD.reads = false ∧ s.mmaReads 0 tQuantD.reads = false ∧ s.unsent o = false ∧ s.halting 0 = false) := by
  refine ⟨?_, by decide +kernel, rfl, by decide +kernel, by decide +kernel, ?_, quiet_of _ _ rfl rfl (by decide +kernel), by decide +kernel, rfl, ?_, ?_, ?_, ?_, ?_, ?_, by and_intros <;> first | rfl | decide +kernel⟩
  iterate 6 (on_goal 3 => decide +kernel)
  · intro k h; simp only [List.mem_cons, List.not_mem_nil, or_false] at h
    rcases h with rfl | rfl | rfl <;> exact ⟨by decide +kernel, rfl, by decide +kernel, by decide +kernel⟩
  · intro c h; have h2 : c = tCtx := (Option.some.inj h).symm; subst h2; rfl

/-- An operator of one single-precision row and column, descriptor and weight in memory. -/
def tOpDesc : List (Nat × List Byte) := [(0x40003000, fields 64 [(0, 1), (16, 1), (32, 1), (64, 0x3100)]), (0x40003100, leBytes 4 0x3F800000)]
def tOperator : Operator :=
  { num := 0, owner := 0, rows := 1, cols := 1, slots := 1, wfmt := 0, ifmt := 0, ofmt := 0, isOpaque := false, bias := false
    weights := leBytes 4 0x3F800000, scales := [], biases := [], grants := [], bound := true, resident := true, slotst := [], waiting := [] }
def tOwn (o : Operator) : State := { tWith tOpDesc id with operators := [o] }
def tE' : Env := tEnv id

/-- The unit holds the context's program, or the firmware runs and can load it. -/
def tHolds (unit : Nat) (s : State) : State := { s with sched := { s.sched with units := [(unit, 0)] } }
def tUp (s : State) : State := { s with boot := { s.boot with state := 6, fwRunning := [0, 1, 2, 3] } }
theorem serves_held (s : State) (unit : Nat) (h : s.sched.waits = []) : Serves (tHolds unit s) unit 0 := by
  refine ⟨?_, .inl ?_⟩
  · simp [State.unitStopped, tHolds, h]
  · simp [tHolds]

theorem witness_OperatorInstructions :
    let u (s : State) : State := serving (tHolds 2 s) 2 0
    Serves (tHolds 2 (tOwn tOperator)) 2 0 ∧ Serves (tUp (tOwn tOperator)) 2 0 ∧ ¬Serves (tOwn tOperator) 2 0 ∧
    (∀ o ∈ [tOperator, { tOperator with bound := false }, { tOperator with owner := 1 }, { tOperator with isOpaque := true }],
      (tOwn o).env = some tE' ∧ (u (tOwn o)).operator 0 = some o) ∧
    ((u (tOwn tOperator)).install tE' 1 none).1 = .status 1 ∧
    (∃ o, ((u (tOwn tOperator)).install tE' 0x3000 none).1 = .put o) ∧
    (∃ o, ((u (tOwn tOperator)).install tE' 0x3000 (some tOperator)).1 = .put o) ∧
    (tE'.read true (.imm 1024) tE'.low).toNat = 1024 ∧ (tE'.read true .zero tE'.low).toNat = 0 ∧
    (u (tOwn { tOperator with bound := false })).bindOk tE' { tOperator with bound := false } false (tE'.readU (.s 4)) 64 = true ∧
    (u (tOwn { tOperator with bound := false })).bindOk tE' { tOperator with bound := false } true (tE'.readU (.s 5)) 64 = true ∧
    (u (tOwn { tOperator with bound := false })).bindOk tE' { tOperator with bound := false } false (tE'.readU (.s 5)) 64 = false ∧
    (tE'.readU .zero).toNat < tOperator.slots ∧ tOperator.slots ≤ (tE'.readU (.imm 1)).toNat ∧
    (let w := (u (tOwn tOperator)).walkedAll (tE'.walker (u (tOwn tOperator))) [(0x1000, 4), (0x1040, 0), (0x1040, 0)]
     w.opreadLocs tE' 0x1000 4 = some [(.mem 0x40001000, 4)] ∧ w.opreadLocs tE' 0x1040 0 = some []) ∧
    (u (tOwn tOperator)).downLocs [(.mem 0x40001000, 4)] = none ∧ Quiet (u (tOwn tOperator)) 0 := by
  refine ⟨serves_held _ _ rfl, by unfold Serves; decide +kernel, by unfold Serves; decide +kernel, ?_, rfl, ⟨_, rfl⟩, ⟨_, rfl⟩, ?_, ?_, ?_, ?_, ?_, ?_, ?_, ?_, ?_, quiet_of _ _ rfl rfl (by decide +kernel)⟩
  iterate 9 (on_goal 2 => decide +kernel)
  intro o h; simp only [List.mem_cons, List.not_mem_nil, or_false] at h
  rcases h with rfl | rfl | rfl | rfl <;> exact ⟨rfl, rfl⟩

/-- Slot 0 of the bound operator, through both slots of the batch: a fire, a release, a store of the whole element. -/
theorem witness_WindowRequestsPost :
    let s := tOwn tOperator
    let w : List (Nat × List (Loc × Nat)) := [(0, [(.win false 0 0, 1)]), (1, [(.win false 0 0, 1)])]
    s.env = some tE' ∧
    checkSlots (fun j => s.access tE' (tE'.gaddr (at_ (.s 4)) 1 j) 1 askWin mkFire) tE'.r.exec = .ok w ∧
    checkSlots (fun j => s.access tE' (tE'.gaddr (at_ (.s 4)) 1 j) 1 askWin mkRelease) tE'.r.exec = .ok w ∧
    checkSlots (fun j => s.access tE' (tE'.gaddr (at_ (.s 4)) 4 j) 4 (askSt plain 4) mkStore) tE'.r.exec =
      .ok [(0, [(.win false 0 0, 4)]), (1, [(.win false 0 0, 4)])] ∧
    s.operator 0 = some tOperator ∧ plain.ord ≠ .rel ∧ 0 % tOperator.istride + 4 ≤ tOperator.istride :=
  ⟨rfl, rfl, rfl, rfl, rfl, by decide +kernel, by decide +kernel⟩

/-- A slot in each of its states: requests that join, a result load of all its bytes, a fire that completes. -/
def tSlot (st : OState) : OSlot :=
  { k := 0, st := st, elems := [(0, 0x3F80)], result := if st = .ready then List.replicate 64 1 else [], gen := 3, held := [] }
theorem witness_SlotOrder :
    ∀ st ∈ [OState.idle, .filling, .fired, .ready],
      let o := { tOperator with slotst := [tSlot st] }
      let base := tHolds 2 (tOwn o)
      let ld (more : List (Nat × List (Nat × Nat × Nat))) (dst : Option Nat) : Op :=
        tOp 2 (.resultLoad 0 ((0, [(0, 4, 0)]) :: more) dst .b32 [0, 0, 0, 0] 0x100000000 .no)
      (∀ k ∈ [WinKind.store 0 [1, 2, 3, 4], .fire 0, .release 0],
        let p : Posted := { id := 1, op := 0, agent := .ctx 0, thr := some (0, 0, 0), kind := k }
        let s := { base with posted := [p] }
        s.posted[0]? = some p ∧ s.operator 0 = some o ∧ Serves s o.unit o.owner) ∧
      o.bound = true ∧ o.resident = true ∧ (0 : Nat) % o.istride + 4 ≤ o.istride ∧ o.slot (0 / o.istride) = tSlot st ∧
      (∀ h ∈ (tSlot st).held, h.isLoad = false) ∧
      (∀ more ∈ [[], [(1, [(0, 4, 0)])]], ∀ dst ∈ [none, some 6],
        let s := State.withOps' base [ld more dst]
        pending s 2 = some (ld more dst) ∧ s.operator 0 = some o ∧ Serves s o.unit o.owner) ∧
      (∀ y ∈ o.slotst, Held.load 2 ∉ y.held) ∧ ([0, 0, 0, 0] : List Byte).length = Size.b32.bytes ∧
      (tOwn o).saved 0 = false ∧ ({ tOwn o with blocks := [{ tBlock with evicted := true }] } : State).saved 0 = true ∧
      (tOwn { o with bound := false }).operator 0 = some { o with bound := false } ∧
      (tSlot st).held = [] ∧ (tThread (fun x => { x with st := .parked (.result 2) })).thr 0 =
        some { probeThread with tls := 0x2000, st := .parked (.result 2) } := by
  unfold Serves
  decide +kernel

theorem witness_OperatorsFireAndMove :
    tOperator.ofmt < 3 ∧ tOperator.rows ≠ 0 ∧ (tOwn tOperator).operator 0 = some tOperator ∧ (∀ x ∈ tOperator.slotst, x.st ≠ .fired) ∧
    (tOwn { tOperator with slotst := [tSlot .fired] }).operator 0 = some { tOperator with slotst := [tSlot .fired] } ∧
    (tOwn { tOperator with resident := false }).operator 0 = some { tOperator with resident := false } ∧
    (tUp (tOwn tOperator)).firmwareOn (tOperator.num / 64 / 4) = true ∧ (tOwn tOperator).firmwareOn (tOperator.num / 64 / 4) = false ∧
    ∀ c, c < 16 → (tUp (tOwn { tOperator with resident := false })).chuckUsed 0 c (some 0) + shareRows 1 c * opRowBytes 0 1 false ≤ Config.chuckBytes :=
  ⟨by decide +kernel, by decide +kernel, rfl, by decide +kernel, rfl, rfl, by decide +kernel, by decide +kernel, by decide +kernel⟩

/-- A merge target of one word at virtual 0x3000, L = 1. -/
def tTarget : List (Nat × List Byte) := [(0x40003000, fields 64 [(0, 0x3FF0000000000000), (64, 1)]), (0x40003040, leBytes 16 0)]
def tMSlot (i : Nat) (st : MState) (es : List (Nat × MgFmt × Word)) : MSlot :=
  { gang := 0, idx := i, ctx := 0, target := 0x3000, pa := 0x40003000, contrib := 7, count := 1, limit := 0x3FF0000000000000, st := st
    elems := es, scale := 0x3FF0000000000000, last := 0 }
def tMerge (l : List MSlot) : State := { tWith tTarget id with mslots := l }
theorem witness_MergeInstructions :
    let s := serving (tHolds 1 (tUp (tMerge []))) 1 0
    let full := (List.range 8).map (fun i => tMSlot i .opened [])
    let chk (va : Dword) (n : Nat) (w : Bool) :=
      let x := s.walked (tE'.walker s) va n
      x.checkAccess (tE'.walker x) va n (askTarget w) (fun _ => none)
    Serves (tHolds 1 (tUp (tMerge []))) 1 0 ∧ ¬Serves (tMerge []) 1 0 ∧ (tMerge []).firmwareOn 0 = false ∧ s.firmwareOn 0 = true ∧
    s.env = some tE' ∧ chk 0x3000 64 false = .ok [(.mem 0x40003000, 64)] ∧ (0x40003000 : Nat) % 64 = 0 ∧ (∃ n, pclass 0x40003000 = .bed n) ∧
    s.badIn 0x40003000 64 = none ∧ Quiet s 0 ∧ (∃ h, (s.mergeHdr tE' 0x3000).1 = .ok h) ∧ (s.mergeHdr tE' 0x3001).1 = .status 1 ∧
    (∀ j, j < 8 → ∃ x ∈ full, x.idx = j) ∧ (∀ x ∈ (tMerge []).mslots, x.idx ≠ 0) ∧
    (∀ x ∈ full.take 7, x.idx ≠ 7) ∧ (∀ j, j < 7 → ∃ x ∈ full.take 7, x.idx = j) ∧
    s.mslot tE' (tE'.readU .zero) = none ∧
    (∀ m ∈ [tMSlot 0 .opened [(0, .f32, 0x3F800000)], tMSlot 0 .opened [(0, .f32, 0x7FC00000)], tMSlot 0 .opened [],
        tMSlot 0 .measured [(0, .f32, 0x3F800000)], tMSlot 0 .nonfinite []],
      (tMerge [m]).mslot tE' (tE'.readU .zero) = some m) ∧
    stagedUnits .f32 0x7FC00000 = none ∧ (∃ g, stagedUnits .f32 0x3F800000 = some g) ∧
    (let x := s.walked (tE'.walker s) 0x1000 4
     x.checkAccess (tE'.walker x) 0x1000 4 askRead (fun _ => none) = .ok [(.mem 0x40001000, 4)]) ∧
    (let x := s.walked (tE'.walker s) 0x140000000 4
     x.checkAccess (tE'.walker x) 0x140000000 4 askRead (fun _ => none) = .error (.trap .translation 0x140000000)) ∧
    -- a target whose STATE reads 0b01, and one whose reads 0b00
    (tWith [(0x40003000, fields 64 [(0, 0x3FF0000000000000), (64, 1), (260, 1)])] id).committing tE' 0x3000 = true ∧ s.committing tE' 0x3000 = false ∧
    (match s.mergeHdr tE' 0x3000 with | (.ok h, _) => h.count == 1 | _ => false) = true ∧
    chk 0x3040 16 false = .ok [(.mem 0x40003040, 16)] ∧ s.badIn 0x40003040 16 = none ∧
    (∃ xs, ((s.acq tE' .dev).mergeReads tE' (fun _ => (0x3000, 0)) [0, 1]).1 = .ok xs) ∧
    (tMerge [tMSlot 0 .opened []]).mslots.find? (fun m => m.gang == 0 && m.idx == 0) = some (tMSlot 0 .opened []) := by
  refine ⟨serves_held _ _ rfl, by unfold Serves; decide +kernel, by decide +kernel, by decide +kernel,
    rfl, rfl, by decide +kernel, ⟨_, rfl⟩, by decide +kernel, quiet_of _ _ rfl rfl (by decide +kernel), ⟨_, rfl⟩, rfl, by decide +kernel, by decide +kernel, by decide +kernel, by decide +kernel, rfl, ?_,
    by decide +kernel, ⟨_, rfl⟩, rfl, rfl, by decide +kernel, by decide +kernel, by decide +kernel, rfl, by decide +kernel, ⟨_, rfl⟩, rfl⟩
  intro m h; simp only [List.mem_cons, List.not_mem_nil, or_false] at h
  rcases h with rfl | rfl | rfl | rfl | rfl <;> rfl

/-- Merge operations in flight, with a slot in each of its states. -/
def tMergeOp (k : OpKind) (l : List MSlot) : State := State.withOps' (tMerge l) [tOp 2 k]
def tOpE (k : OpKind) : Env := ⟨tBlock, tSpindle, { Run.idle with active := true, hdr := 0x100, exec := [0], token := some 2 }⟩
theorem witness_MergeOperations :
    let one : List (Nat × MgFmt × Word) := [(0, .f32, 0x3F800000)]
    let bad : List (Nat × MgFmt × Word) := [(0, .f32, 0x7FC00000)]
    (∀ k ∈ ([.mgclose 10 0, .mgcommit 10 0, .mgread 0 6 [6, 7] 0x3000 0] : List OpKind),
      pending (tMergeOp k []) 2 = some (tOp 2 k) ∧ (tMergeOp k []).unsent (tOp 2 k) = false ∧ (tMergeOp k []).opEnv (tOp 2 k) = some (tOpE k) ∧
      live (tMergeOp k []) (tOp 2 k) ∧ (tMergeOp k []).mslot (tOpE k) 0 = none ∧ Quiet (tMergeOp k []) 0 ∧
      (∀ m ∈ [tMSlot 0 .opened one, tMSlot 0 .opened bad, tMSlot 0 .measured one, tMSlot 0 .nonfinite bad], (tMergeOp k [m]).mslot (tOpE k) 0 = some m) ∧
      (match (tMergeOp k [tMSlot 0 .measured one]).mergeHdr (tOpE k) 0x3000 with
        | (.ok hd, s1) => decide (hd.pa = 0x40003000) && s1.badIn 0x40003000 (64 + 16 * 1) == none &&
          (let acc (n : Nat) :=
            let w := s1.walked ((tOpE k).walker s1) 0x3000 (64 + 16 * n)
            w.checkAccess ((tOpE k).walker w) 0x3000 (64 + 16 * n) (askTarget true) (fun _ => none)
           (match acc 1 with
            | .ok l => l == [(.mem 0x40003000, 64 + 16 * 1)]
            | .error _ => false))
        | _ => false) = true ∧
      (match ((tMergeOp k []).mergeRead (tOpE k) 0x3000 0).1 with | .ok _ => true | .error _ => false) = true ∧ (tOpE k).sp.gone 0 = false) ∧
    (∃ n, pclass 0x40003000 = .bed n) ∧ stagedUnits .f32 0x7FC00000 = none ∧ (∃ g, stagedUnits .f32 0x3F800000 = some g) ∧ (one.map (·.1)).Nodup ∧
    (match ((stagedUnits .f32 0x3F800000).map (fun g => mergeUnits 0x3FF0000000000000 0x3FF0000000000000 g)).getD 0 with
      | g => decide (-(2 ^ 127) ≤ g ∧ g < 2 ^ 127)) = true := by
  refine ⟨?_, ⟨_, rfl⟩, by decide +kernel, ⟨_, rfl⟩, by decide +kernel, by decide +kernel⟩
  intro k h; simp only [List.mem_cons, List.not_mem_nil, or_false] at h
  rcases h with rfl | rfl | rfl
  all_goals
    refine ⟨by decide +kernel, by decide +kernel, rfl, ⟨rfl, _, rfl, 0, by decide +kernel, by decide +kernel⟩, rfl,
      quiet_of _ _ rfl rfl (by decide +kernel), ?_, by decide +kernel, by decide +kernel, by decide +kernel⟩
    intro m h; simp only [List.mem_cons, List.not_mem_nil, or_false] at h
    rcases h with rfl | rfl | rfl | rfl <;> rfl

/-- The stream of one element, 1.0, at virtual 0x5000; counts 0, 1 and 2^40; the bound 1.0. -/
def tStream : List Byte := packStream false 0x3FF0000000000000 [0x3F800000]
theorem witness_PackedArrays :
    let s := tWith [(0x40005000, tStream)] id
    s.env = some tE' ∧ 2 ^ 51 ≤ (tE'.readU (.s 12)).toNat ∧ (tE'.readU (.s 12)).toNat < 0x7FE0000000000000 ∧ (tE'.readU .zero).toNat = 0 ∧
    2 ^ 40 ≤ (tE'.readU (.s 13)).toNat ∧
    (let w := s.walkedAll (tE'.walker s) [(0x1000, 4), (0x6000, 544)]
     w.checkAccess (tE'.walker w) 0x1000 4 askRead (fun _ => none) = .ok [(.mem 0x40001000, 4)] ∧
     w.checkAccess (tE'.walker w) 0x6000 544 askWrite (fun _ => none) = .ok [(.mem 0x40006000, 544)] ∧
     w.badLocs [(.mem 0x40001000, 4)] = none ∧ w.downLocs [(.mem 0x40006000, 544)] = none) ∧
    16 + (1 + 63) / 64 * (16 + 256 + 64 * 4) = 544 ∧ (0x3F800000 < 2 ^ (8 * 4) ∧ 0 < 1 ∧ 1 < 2) ∧
    s.checkAccess (tE'.walker s) 0x6000 4 askWrite (fun _ => none) = .ok [(.mem 0x40006000, 4)] ∧ s.downIn 0x40006000 4 = none ∧ Quiet s 0 ∧
    ((List.range tStream.length).all (fun pos => (List.range (tStream.length - pos)).all (fun n =>
      match s.checkAccess (tE'.walker s) (0x5000 + BitVec.ofNat 64 pos) (n + 1) askRead (fun _ => none) with
      | .ok l => l == [(.mem (0x40005000 + pos), n + 1)]
      | .error _ => false))) = true ∧
    s.badIn 0x40005000 tStream.length = none ∧ bytesAt (seen s 0) 0x40005000 tStream.length = tStream := by
  refine ⟨rfl, by decide +kernel, by decide +kernel, by decide +kernel, by decide +kernel, ⟨rfl, rfl, ?_⟩, by decide +kernel, by decide +kernel, rfl, ?_, quiet_of _ _ rfl rfl (by decide +kernel), by decide +kernel, by decide +kernel, by decide +kernel⟩
  all_goals decide +kernel

/-- A collective of devices 0 and 1 that sums one 32-bit integer of each, or takes a clipped sum, which integers have not;
one whose table names a device twice; one that leaves this device out. -/
def tCollDesc (table : Nat) : List Byte :=
  fields 64 [(0, table), (64, 9), (96, 10), (112, 1), (116, 1), (120, 3), (128, 2), (144, 1), (160, 1), (176, 1), (192, 0x80), (256, 1),
    (384, 0x3FF0000000000000)]
def tCollMem : List (Nat × List Byte) :=
  [(0x40003000, tCollDesc 0x3100), (0x40003040, List.replicate 64 0), (0x40003080, tCollDesc 0x3104), (0x400030C0, tCollDesc 0x3108),
   (0x40003100, [0, 0, 1, 0, 3, 0, 3, 0, 5, 0, 6, 0])]
def tCollD : CollD := collDesc (tCollDesc 0x3100) .sum [0, 1]
theorem witness_CollectiveIssue :
    let t := tWith tCollMem id
    let s := tHolds 0 t
    let u := serving s 0 0
    let chk (y : State) (va : Nat) (n : Nat) (a : Ask) := y.checkAccess (tE'.walker y) (BitVec.ofNat 64 va) n a (fun _ => none)
    let w1 (x : Nat) : State := u.walkedAll (tE'.walker u) [(BitVec.ofNat 64 x, 64)]
    let r1 (x : Nat) := (w1 x).readLocs (some 0) [(.mem (0x40000000 + x), 64)]
    let w2 (x y : Nat) : State := (r1 x).2.walked (tE'.walker (r1 x).2) (BitVec.ofNat 64 y) 4
    let r2 (x y : Nat) := (w2 x y).readLocs (some 0) [(.mem (0x40000000 + y), 4)]
    let w3 : State := (r2 0x3000 0x3100).2.walkedAll (tE'.walker (r2 0x3000 0x3100).2) [(0x1000, 4), (0x1010, 4)]
    let good := tCollDesc 0x3100
    s.env = some tE' ∧ s.counterFault 0 0 (tE'.readU .zero) = none ∧ s.counterFault 0 0 (tE'.readU (.s 13)) = some (.illegalOperand, 0) ∧
    Serves s 0 0 ∧ ¬Serves t 0 0 ∧ (tE'.readU (.imm 0x3001)).toNat % 64 ≠ 0 ∧
    chk (w1 0x140000000) 0x140000000 64 askRead = .error (.trap .translation 0x140000000) ∧
    chk (w2 0x3000 0x140000000) 0x140000000 4 askRead = .error (.trap .translation 0x140000000) ∧
    (∀ x ∈ [0x3000, 0x3040, 0x3080, 0x30C0], chk (w1 x) x 64 askRead = .ok [(.mem (0x40000000 + x), 64)] ∧
      (w1 x).badLocs [(.mem (0x40000000 + x), 64)] = none) ∧
    (∀ p ∈ [(0x3000, 0x3100), (0x3080, 0x3104), (0x30C0, 0x3108)], chk (w2 p.1 p.2) p.2 4 askRead = .ok [(.mem (0x40000000 + p.2), 4)] ∧
      (w2 p.1 p.2).badLocs [(.mem (0x40000000 + p.2), 4)] = none ∧ (r1 p.1).1 = tCollDesc p.2 ∧ collFields (tCollDesc p.2) .sum = 0) ∧
    ((r1 0x3040).1 = List.replicate 64 0 ∧ collFields good .clip = 0x12 ∧ collFields (List.replicate 64 0) .sum = 0x11 ∧
      (r2 0x3000 0x3100).1 = [0, 0, 1, 0] ∧ (r2 0x3080 0x3104).1 = [3, 0, 3, 0] ∧ (r2 0x30C0 0x3108).1 = [5, 0, 6, 0]) ∧
    s.fabric.device.toNat = 0 ∧ (tCollD.bytes tCollD.froms 0 = 4 ∧ tCollD.bytes tCollD.tos 0 = 4) ∧
    chk w3 0x1000 4 askRead = .ok [(.mem 0x40001000, 4)] ∧ chk w3 0x1010 4 askWrite = .ok [(.mem 0x40001010, 4)] ∧ s.ops = [] ∧
    -- its fields break no rule, but that it has no element that a clipped sum can add; an axis of two devices, of rank 0 here
    (bitsOf good 448 64 = 0 ∧ bitsOf good 123 5 = 0 ∧ bitsOf good 120 3 = 3 ∧ bitsOf good 116 4 = 1 ∧ bitsOf good 112 4 = 1 ∧
      bitsOf good 96 16 = 10 ∧ bitsOf good 0 64 % 2 = 0 ∧ (List.range 4).map (fun k => bitsOf good (128 + 16 * k) 16) = [2, 1, 1, 1] ∧
      bitsOf good 192 8 = 0x80 ∧ bitsOf good 224 8 = 0 ∧ bitsOf good 436 12 = 0x3FF ∧ bitsOf (List.replicate 64 0) 116 4 = 0) ∧
    (0 < tCollD.dims.length ∧ tCollD.sizes.length = 1 ∧ (ranksOf tCollD.sizes 0).getD 0 0 < tCollD.sizes.getD 0 1) := by
  refine ⟨rfl, by decide +kernel, by decide +kernel, serves_held _ _ rfl, by unfold Serves; decide +kernel, by decide +kernel, rfl, rfl, ?_, ?_,
    by decide +kernel, rfl, by decide +kernel, rfl, rfl, rfl, by decide +kernel, by decide +kernel⟩
  · intro x h; simp only [List.mem_cons, List.not_mem_nil, or_false] at h
    rcases h with rfl | rfl | rfl | rfl <;> exact ⟨rfl, by decide +kernel⟩
  · intro x h; simp only [List.mem_cons, List.not_mem_nil, or_false] at h
    rcases h with rfl | rfl | rfl <;> exact ⟨rfl, by decide +kernel⟩

/-- The parts of devices 0 and 1: with nobody silent, with device 1 silent and its contribution held by device 0, or lost;
refused; inputs that fit and inputs that do not. -/
theorem witness_CollectiveEnds :
    let kind (l : List Silent) (st : Option Nat) : OpKind :=
      .coll 10 tCollD [(.mem 0x40001000, 4)] [(.mem 0x40001010, 4)] 0x100000002 l st
    let s (k : OpKind) := State.withOps' (tWith tCollMem id) [tOp 2 k]
    let m : Silent := { pos := 1, axis := 0, buddyHolds := true }
    let o := tOp 2 (kind [] none)
    let t := s (kind [] none)
    (∀ k ∈ [kind [] (some 0x14), kind [] none, kind [m] none, kind [{ m with buddyHolds := false }] none],
      pending (s k) 2 = some (tOp 2 k) ∧ (s k).unsent (tOp 2 k) = false) ∧
    tCollD.table.findIdx? (fun x => x == t.fabric.device.toNat) = some 0 ∧ t.badLocs [(.mem 0x40001000, 4)] = none ∧
    t.downLocs [(.mem 0x40001010, 4)] = none ∧ live t o ∧ ¬live t { o with lost := true } ∧ tCollD.table.length = 2 ∧
    (∀ i x, [[], leBytes 4 5][i]? = some x → i = 0 ∨ x.length = tCollD.bytes tCollD.froms i) ∧ Quiet t 0 ∧
    t.counterBlock 0 0 0 (16 * 2) = some tBlock ∧ t.blk 0 = some tBlock ∧
    pieceSize (pieceOf tCollD.sizes (ranksOf tCollD.sizes 0) tCollD.tos tCollD.dims) * collSize tCollD.elem = 4 ∧
    (layKind (tCollD.froms.headD 0) = 2 ∧ layKind (tCollD.tos.headD 0) ≠ 2 ∧ tCollD.sizes = [2]) ∧
    -- the buddy of device 1 has rank 0, is there and is not silent
    (((ranksOf tCollD.sizes m.pos).getD m.axis 0) ^^^ 1 = 0 ∧ 0 < tCollD.sizes.getD m.axis 0 ∧
      m.pos ≠ posOf tCollD.sizes ((ranksOf tCollD.sizes m.pos).set m.axis 0)) ∧
    (m.pos < tCollD.table.length ∧ m.axis < tCollD.sizes.length ∧ tCollD.table[m.pos]? ≠ some t.fabric.device.toNat) := by
  refine ⟨by decide +kernel, by decide +kernel, by decide +kernel, by decide +kernel, ⟨rfl, _, rfl, 0, by decide +kernel, by decide +kernel⟩,
    (by rintro ⟨h, -⟩; exact absurd h (by decide)), by decide +kernel, ?_,
    quiet_of _ _ rfl rfl (by decide +kernel), rfl, rfl, by decide +kernel, by decide +kernel, by decide +kernel, by decide +kernel⟩
  intro i x h
  match i with
  | 0 => exact .inl rfl
  | 1 => exact .inr (by rw [← Option.some.inj h]; decide)
  | n + 2 => simp at h

/-- A posted request of the batch, to the bound operator that the unit serves: it joins at a fence. -/
theorem witness_OrderingInstructions_window :
    let p : Posted := { id := 1, op := 0, agent := .ctx 0, thr := some (0, 0, 0), kind := .fire 0 }
    let s : State := { tHolds 2 (tOwn tOperator) with posted := [p] }
    s.env = some tE' ∧ (s.posted.map (·.id)).Nodup ∧ s.sched.waits = [] ∧ p.thr = some (tE'.name 0) ∧ 0 ∈ tE'.r.exec ∧
    p.thr.map (fun x => (x.1, x.2.1)) = some (tE'.b.uid, tE'.sp.m) ∧ s.operator p.op = some tOperator ∧ tOperator.bound = true ∧
    tOperator.resident = true ∧ s.sched.units.contains (tOperator.unit, tOperator.owner) = true :=
  ⟨rfl, by and_intros <;> first | rfl | decide +kernel⟩

/-- Transfers to and from the peer's page; a deposit's largest target. -/
theorem witness_FabricInstructions :
    let chk (x y va : Dword) (a : Ask) :=
      let w := tS.walkedAll (tE.walker tS) [(x, 4), (y, 4)]
      match w.checkAccess (tE.walker w) va 4 a (fun _ => none) with
      | .ok [(.peer d _, n)] => d == 5 && n == 4
      | .ok [(.mem p, n)] => p == 0x40001000 && n == 4
      | _ => false
    let far := tE.readU (.s 3)
    let near := tE.readU (.s 1)
    tS.env = some tE ∧ (tE.readU .zero).toNat / 2 ^ 33 = 0 ∧ (tE.readU .zero).toNat / 2 ^ 24 % 2 ^ 8 = 0 ∧
    (tE.readU .zero).toNat % 2 ^ 32 = 0 ∧ (tE.readU (.imm 4)).toNat % 2 ^ 32 = 4 ∧
    (chk far near far (askPeer true) && chk far near near (askOwn false) && chk near far near (askOwn true) &&
      chk near far far (askPeer false)) = true ∧
    (tE.readU (.imm 0x7FFFF)).toNat < 2 ^ 19 ∧ tS.counterStash 0 0 (tE.readU .zero) = none ∧ tS.rwrStash 0 0 0 (tE.readU .zero) = false ∧
    (tE.readU (.s 2)).toNat / 2 ^ 24 % 2 ^ 8 ≠ 0 ∧
    -- counter 0 of a block whose first 64 KiB are a stash range
    (let f (b : Block) : Block := { b with stash := [{ l := 0, v := 0, bytes := 0x10000 }] }
     (tWith [] f).env = some (tEnv f) ∧ ((tEnv f).readU (.s 5)).toNat / 2 ^ 33 = 0 ∧ ((tEnv f).readU (.s 5)).toNat / 2 ^ 24 % 2 ^ 8 = 0 ∧
     (tWith [] f).counterStash 0 0 ((tEnv f).readU (.s 5)) = some 0 ∧ (tWith [] f).rwrStash 0 0 0 ((tEnv f).readU (.s 5)) = true) :=
  by
  refine ⟨rfl, ?_, ?_, ?_, ?_, ?_, ?_, ?_, ?_, ?_, rfl, ?_⟩ <;> decide +kernel

/-- A handler entry for index 0 that starts a task, and one for index 1 that does not. -/
def tHandler : List (Nat × List Byte) :=
  [(0x40003000, fields 32 [(0, 0x100), (128, 8), (160, 5), (192, 10)]), (0x40003020, List.replicate 32 0)]
/-- The bytes read. -/
def bytesOf (x : Except Stop (List Byte × State)) : List Byte :=
  match x with
  | .ok y => y.1
  | .error _ => []
def tCtxH : Ctx := { tCtx with desc := { tDesc with htab := 0x3000 } }
def tHandled : State := { tWith tHandler id with ctxs := [tCtxH] }
theorem witness_FabricDeliveries :
    let mem (a : Nat) : List (Loc × Nat) := [(.mem a, 4)]
    let all (s : State) : List HeldOut := requests s ⟨0, 0, 0⟩ 5 0 (.xfer [1, 2, 3, 4] 0) (some 2) none
    let fab (f : Fabric → Fabric) : State := { tS with fabric := f tS.fabric }
    (∀ k ∈ ([.xfer true [(.peer 5 0, 4)] (mem 0x40001000) [(0, 4)] [] 4 0 0, .xfer true [(.peer 5 0, 4)] (mem 0x40001000) [] [(0, 4)] 4 0 0,
        .xfer false (mem 0x40001000) [(.peer 5 0, 4)] [] [(0, 4)] 4 0 0, .xfer true [(.peer 5 0, 4)] (mem 0x40001000) [] [] 4 0 0, .amsg 0 0 [1] false, .rwr (List.replicate 32 1) 9 0 0 0, .rwr (List.replicate 32 1) 0 0 7 0,
        .rwr (List.replicate 32 1) 0 0 8 0] : List OpKind), pending (tOps k) 2 = some (tOp 2 k)) ∧
    (⟨0, 0, 0⟩ : StreamId) ∈ (fab (fun f => { f with frozen := [⟨0, 0, 0⟩] })).fabric.frozen ∧ (⟨0, 0, 0⟩ : StreamId) ∉ tS.fabric.frozen ∧
    ((all tS).length == 1 && (all tS).all (fun h => !tS.mustHold h.x) &&
      (all (fab (fun f => { f with dead := [0] }))).all (fun h => (fab (fun f => { f with dead := [0] })).mustHold h.x)) = true ∧
    tS.fabric.held = [] ∧ Quiet tS 0 ∧ tS.downIn 0x40001000 4 = none ∧
    (tOps (.fence false)).unsent (tOp 2 (.fence false)) = false ∧ tS.counterBlock 1 0 5 0 = none ∧ tBlock.evicted = false ∧
    subLocs [(.peer 5 0, 4)] 0 4 = [(.peer 5 0, 4)] ∧ subLocs (mem 0x40001000) 0 4 = mem 0x40001000 ∧ tS.badIn 0x40001000 4 = none ∧
    tS.ctx 9 = none ∧ tHandled.ctx 0 = some tCtxH ∧ tCtxH.desc.htab ≠ 0 ∧
    (let x := bytesOf (tHandled.readVirt none tCtxH 0x3000 32)
     x.length = 32 ∧ bitsOf x 0 64 ≠ 0 ∧ bitsOf x 128 16 = 8 ∧ 128 * bitsOf x 144 16 ≤ 2 ^ 20 ∧ bitsOf x 160 32 < bitsOf x 192 64) ∧
    bytesOf (tHandled.readVirt none tCtxH 0x3020 32) = List.replicate 32 0 ∧
    (0 : Dword).getLsbD 24 = false ∧ (0x1000000 : Dword).getLsbD 24 = true ∧ tS.counterBlock 1 0 0 0 = some tBlock ∧ tS.blk 0 = some tBlock ∧
    0 + 16 + 8 * 8 ≤ tBlock.lsize ∧ tS.target 0 9 0 = none ∧ tS.target 0 0 0 = some (tBlock, tSpindle) ∧ tBlock.sp 0 = some tSpindle ∧
    tSpindle.vcount = 8 := by
  refine ⟨?_, by decide +kernel, by decide +kernel, by decide +kernel, rfl, tS_quiet, by decide +kernel, by decide +kernel, by decide +kernel, rfl,
    by decide +kernel, by decide +kernel, by decide +kernel, rfl, rfl, by decide +kernel, by decide +kernel,
    by decide +kernel, by decide +kernel, by decide +kernel, rfl, rfl, by decide +kernel, rfl, rfl, rfl, rfl⟩
  intro k h; simp only [List.mem_cons, List.not_mem_nil, or_false] at h
  rcases h with rfl | rfl | rfl | rfl | rfl | rfl | rfl | rfl <;> decide +kernel

def tPeerReq (va : Dword) (k : PeerKind) : PeerReq := { dev := 3, core := 0, ctx := 0, stream := 0, tctx := 0, va := va, kind := k }
def tOut (thr : Option (Nat × Nat × Nat)) (op : Option Nat) : PeerOut := { key := ⟨0, 0, 1⟩, op := op, thr := thr, addr := 0x80000000 }
def tOutS (x : PeerOut) : State := { tOps (.xfer true [] [] [] [(0, 4)] 4 0 1) with run := Run.idle, fabric := { tS.fabric with outst := [x] } }
theorem witness_PeersAndPlanes :
    let chk (va : Dword) (k : PeerKind) := (tS.walked tCtx.walker va (peerSize k)).checkAccess tCtx.walker va (peerSize k)
      (askRemote k (va.toNat % peerSize k == 0))
      (fun l => tS.winRight (.peer 3 0) va (fun off n => peerWin k off n (List.replicate n 0)) l)
    tS.ctx (9 : BitVec 12).toNat = none ∧ tS.ctx (tPeerReq 0 (.read 4)).tctx.toNat = some tCtx ∧
    chk 0x140000000 (.read 4) = .error (.trap .translation 0x140000000) ∧ chk 0x180000000 (.read 4) = .error (.service 0x180000000 none) ∧
    tS.frozenTag (tPeerReq 0 (.read 4)) = none ∧
    ({ tS with fabric := { tS.fabric with heldIn := [{ r := tPeerReq 0 (.read 4), tag := 7 }] } } : State).frozenTag (tPeerReq 0x1000 (.read 4)) = some 7 ∧
    (∀ k ∈ ([.read 4, .write [1, 2, 3, 4], .xfer [1, 2, 3, 4] 0, .atomic .add false 1 0, .exact 1] : List PeerKind),
      chk 0x1000 k = .ok [(.mem 0x40001000, peerSize k)] ∧ tS.badIn 0x40001000 (peerSize k) = none ∧ 0x40001000 % 128 + peerSize k ≤ 128) ∧
    (tS.coh.flips = [] ∧ (∀ b ∈ tS.blocks, b.owned = []) ∧ tS.health.unmapped = [] ∧ tS.coh.pend = [] ∧ tS.coh.device = []) ∧
    (∀ x ∈ [tOut none none, tOut none (some 2), tOut (some (0, 0, 0)) none], (tOutS x).firstOut ⟨0, 0, 1⟩ = some x) ∧
    (tOutS (tOut none none)).fabric.held = [] ∧ (⟨0, 0, 1⟩ : StreamId) ∈ ({ tS.fabric with frozen := [⟨0, 0, 1⟩] } : Fabric).frozen ∧
    (∃ o, pending (tOutS (tOut none (some 2))) 2 = some o) ∧ (tOutS (tOut (some (0, 0, 0)) none)).blk 0 = some tBlock ∧ tBlock.sp 0 = some tSpindle ∧
    (tOutS (tOut (some (0, 0, 0)) none)).running 0 0 0 = false ∧ (∃ y, tSpindle.threads[0]? = some y ∧ y.st = .ready) ∧
    (tS.ctx 9).isNone = true ∧ ({ tS with ops := [{ tOp 1 (.mgclose 0 0) with ctx := 3 }] } : State).unitBusy 1 0 = true ∧ tS.loader 1 = false ∧
    ((tUp tS).ctx 0).isSome = true ∧ (tUp tS).unitBusy 1 0 = false ∧ (tUp tS).loader 1 = true ∧ tS.boot.state ≠ 7 ∧ (12 : Word).toNat % 16 = 12 ∧ (11 : Word).toNat % 16 = 11 ∧ 11 ∉ tS.fabric.dead := by
  refine ⟨rfl, rfl, rfl, rfl, rfl, rfl, ?_, ⟨rfl, by decide +kernel, rfl, rfl, rfl⟩, by decide +kernel, rfl, by decide +kernel, ⟨_, rfl⟩, rfl, rfl, by decide +kernel, ⟨_, rfl, rfl⟩,
    rfl, by decide +kernel⟩
  intro k h; simp only [List.mem_cons, List.not_mem_nil, or_false] at h
  rcases h with rfl | rfl | rfl | rfl | rfl <;> exact ⟨rfl, by decide +kernel, by decide +kernel⟩

/-- A queue of context 0 with its ring at virtual 0x7000. -/
def tQueue (n tail : Nat) : Queue :=
  { n := n, base := 0x7000, log2 := 8, tickets := 1, ctxid := 0, priv := false, quar := false, lcls := false, en := true, tail := tail, prog := 0
    erroff := 0, reason := 0, tailerr := false, mirror := 0, out := false, waiting := false, ctx := 0, stack := [], serv := false }
def tQS (l : List Queue) : State := { tS with queues := l, run := Run.idle }
theorem witness_QueueRegisters :
    let on : Dword := 0x1_0000_0000_0001
    let off : Dword := 0x1_0000_0000_0000
    let q := { tQueue 1023 9 with out := true }
    1023 < 1024 ∧ (tQS []).queue 1023 = { (tQS []).queue 1023 with en := false } ∧ on.getLsbD 0 = true ∧ on.getLsbD 5 = false ∧ on.toNat / 2 ^ 48 ≠ 0 ∧
    (let p := { tQueue 1023 9 with waiting := true }
     (tQS [p]).queue 1023 = p ∧ p.en = true ∧ (!p.out && (p.waiting || p.serv)) = true) ∧
    (∀ c, ({ tQS [] with ctxs := [{ tCtx with halted := true }] } : State).ctx (on.toNat / 2 ^ 32 % 2 ^ 12) = some c → c.halted = true) ∧
    (tQS []).ctx (on.toNat / 2 ^ 32 % 2 ^ 12) = some tCtx ∧ off.getLsbD 0 = false ∧ off.getLsbD 5 = false ∧ off.toNat / 2 ^ 48 ≠ 0 ∧
    (0x20 : Dword).getLsbD 5 = true ∧ (tQS [q]).queue 1023 = q ∧ q.prog < q.tail ∧
    ((tQS [q]).queues.filter (fun q => (q.en || q.stopping) && !q.out)).length < 64 ∧ { q with tail := 0 }.tail ≤ q.prog ∧
    (let s := tQS (q :: (List.range 64).map (fun i => tQueue i 9))
     s.queue 1023 = q ∧ 64 ≤ (s.queues.filter (fun q => (q.en || q.stopping) && !q.out)).length ∧ (s.queues.map (·.n)).Nodup ∧
      ∀ x ∈ s.queues, x.en = true → x.out = false → x.serv = false → x.rank ≤ q.rank) ∧
    (0 < q.tickets ∧ q.tickets < 2 ^ 16 ∧ q.ctxid < 2 ^ 12) ∧ (8 < 4 % 8 + [(0 : Byte), 0, 0, 0, 0, 0, 0, 0].length ∧ 4 % 8 ≠ 0) ∧
    (tQS []).boot.state ≠ 7 ∧ ({ tQS [] with boot := { tS.boot with state := 7 } } : State).boot.state = 7 := by
  refine ⟨?_, ?_, ?_, ?_, ?_, ?_, fun c h => ?_, rfl, ?_, ?_, ?_, ?_, ?_, ?_, ?_, ?_, ?_, ?_, ?_, ?_, rfl⟩
  case refine_7 =>
    have h2 : c = { tCtx with halted := true } := (Option.some.inj h).symm
    subst h2; rfl
  all_goals decide +kernel

/-- A packet of some words in the ring. -/
def tPacket (ws : List Word) (f : Queue → Queue) : State :=
  { tWith [(0x40007000, ws.flatMap (fun w => leBytes 4 w.toNat))] id with queues := [f (tQueue 5 ws.length)], run := Run.idle }
def tHead (typ size fl : Nat) : Word := BitVec.ofNat 32 (typ * 2 ^ 24 + size * 2 ^ 12 + fl)
def wordsOf (n : Nat) (l : List (Nat × Nat)) : List Word :=
  (List.range n).map (fun i => BitVec.ofNat 32 ((l.map (fun x => x.2 <<< x.1)).sum >>> (32 * i)))
/-- A launch of one block of one thread, and one whose reserved bits are set. -/
def tLaunchWords (r : Nat) : List Word :=
  wordsOf 32 [(0, 9), (64, 1000000), (128, r), (160, 10), (192, 5), (448, 0x8000), (640, 0x21)]
/-- Queue 5 stands at a packet of these words, and goes on to this state when it has read them. -/
def tStands (s : State) (ws : List Word) (p : State → Bool) : Bool :=
  let q := s.queue 5
  s.parses q && (ws.headD 0).toNat / 2 ^ 12 % 2 ^ 12 == ws.length &&
  (match s.qwords q 0 1 with
    | .ok (h, s1) => h == ws.take 1 && (match s1.qwords q 1 (ws.length - 1) with | .ok (l, s2) => l == ws.drop 1 && p s2 | .error _ => false)
    | .error _ => false)
/-- What a walk and its check find: these bytes of bed memory, or a page that is not mapped. -/
def tFinds (s : State) (va : Dword) (n : Nat) (a : Ask) (pa : Nat) : Bool :=
  match (s.walked tCtx.walker va n).checkAccess tCtx.walker va n a (fun _ => none) with
  | .ok l => decide (l = [(.mem pa, n)])
  | .error x => pa == 0 && decide (x = .trap .translation va)
def tStill (x : State) : Bool :=
  decide (x.coh.flips = [] ∧ x.coh.pend = [] ∧ (∀ y ∈ x.blocks, y.owned = []) ∧ x.fabric.held = [] ∧ x.health.unmapped = [] ∧ x.coh.device = [])
/-- Queue 5 at word p of a buffer of len words, which words of this buffer and these others hold. -/
def tInside (ws : List Word) (len p : Nat) (rest : List (Dword × Nat × Nat × Nat)) : State :=
  { tWith [(0x40008000 + 4 * p, ws.flatMap (fun w => leBytes 4 w.toNat))] id with
    run := Run.idle, queues := [{ tQueue 5 4 with stack := (0x8000, len, p, 0) :: rest }] }
def tBodies : List (Word × List Word) :=
  [(tHead 0 1 0, []), (tHead 8 1 0, []), (tHead 0 1 1, []), (tHead 1 33 0, tLaunchWords 0), (tHead 1 33 0, tLaunchWords 1),
   (tHead 2 4 0, wordsOf 3 [(0, 0x8000), (64, 1)]), (tHead 2 4 0, wordsOf 3 [(0, 0x140000000), (64, 1)]), (tHead 3 7 0, wordsOf 6 [(0, 0x1000), (64, 0x8877665544332211)]),
   (tHead 4 5 0, wordsOf 4 [(0, 0x1000), (64, 6)]), (tHead 4 5 2, wordsOf 4 [(0, 0x1000), (64, 6)]), (tHead 4 5 1, wordsOf 4 [(0, 0x1001)]), (tHead 7 3 0, wordsOf 2 [(0, 0x1000)]),
   (tHead 7 3 1, wordsOf 2 [(0, 0x1000)]), (tHead 5 1 0, []), (tHead 6 2 0, wordsOf 1 [(0, 0)]), (tHead 6 2 0, wordsOf 1 [(0, 0x1000)]),
   (tHead 6 2 0, wordsOf 1 [(0, 7)])]
theorem witness_PacketsTakeEffect :
    (tBodies.all (fun x =>
      let s := tPacket (x.1 :: x.2) id
      let q := s.queue 5
      tStands s (x.1 :: x.2) (fun _ => true) && q.stack.isEmpty && q.mirror == 0 && decide (q.prog + (1 + x.2.length) ≤ q.tail))) = true ∧
    -- a launch past its divert time, whose record page is mapped
    (let ws := wordsOf 32 [(0, 9), (192, 5), (448, 0x8000), (640, 0x21), (832, 0x1000)]
     let s := tPacket (tHead 1 33 0 :: ws) id
     (match readHeader (ws.flatMap (fun w => leBytes 4 w.toNat)) s.nextId 0 5 with
       | some l => decide ({ l with cls := .d }.divertAt ≤ (s.devtime : Int)) && l.recaddr == 0x1000
       | none => false) &&
     decide ((∀ y ∈ s.launches, y.uid < s.nextId) ∧ ∀ y ∈ s.blocks, y.launch < s.nextId) &&
     tStands s (tHead 1 33 0 :: ws) (fun s2 => tStill s2 && tFinds s2 0x1000 64 askWrite 0x40001000 && (s2.downIn 0x40001000 64).isNone)) = true ∧
    -- an atomic signal
    tStands (tPacket (tHead 4 5 2 :: wordsOf 4 [(0, 0x1000), (64, 6)]) id) (tHead 4 5 2 :: wordsOf 4 [(0, 0x1000), (64, 6)]) (fun s2 =>
      tStill s2 && tFinds s2 0x1000 8 { askRead with perm := fun p => p.r && p.w } 0x40001000 &&
      ((s2.walked tCtx.walker 0x1000 8).badIn 0x40001000 8).isNone) = true ∧
    -- a mirror that can be written, and one that cannot
    ([(0x1000, 0x40001000), (0x140000000, 0)] : List (Dword × Nat)).all (fun m =>
      let s := tPacket [tHead 0 1 0] (fun q => { q with mirror := m.1 })
      tStands s [tHead 0 1 0] (fun s2 =>
        let q := s.queue 5
        let x := (s2.updQueue 5 (fun _ => { q with prog := q.prog + 1, waiting := false, stopping := false })).ack (fun _ => true)
        (s2.ctx q.ctxid == some tCtx) && tFinds x m.1 8 askWrite m.2 && ((x.walked tCtx.walker m.1 8).downIn m.2 8).isNone)) = true ∧
    -- inside indirect buffers: a NOP, one that runs over the end, a FENCE, an INDIRECT
    (let other : Dword × Nat × Nat × Nat := (0x9000, 8, 0, 0)
     let nested := tHead 2 4 0 :: wordsOf 3 [(0, 0xA000), (64, 1)]
     ([([tHead 0 1 0], 4, 0, []), ([tHead 0 1 0], 1, 0, []), ([tHead 0 1 0], 1, 0, [other]), ([tHead 0 2 0, 0], 2, 1, []), ([tHead 5 1 0], 1, 0, []),
       (nested, 4, 0, []), (nested, 4, 0, [other, other, other])] : List (List Word × Nat × Nat × List (Dword × Nat × Nat × Nat))).all (fun x =>
      tStands (tInside x.1 x.2.1 x.2.2.1 x.2.2.2) x.1 (fun s2 => x.1.length < 4 || tFinds s2 0xA000 4 askRead 0x4000A000))) = true ∧
    (tPacket [tHead 3 7 0] (fun q => { q with waiting := true })).parses ((tPacket [tHead 3 7 0] (fun q => { q with waiting := true })).queue 5) = true ∧
    (tPacket [tHead 6 2 0] (fun q => { q with priv := true })).parses ((tPacket [tHead 6 2 0] (fun q => { q with priv := true })).queue 5) = true ∧
    readHeader ((tLaunchWords 1).flatMap (fun w => leBytes 4 w.toNat)) 1 0 5 = none ∧
    (readHeader ((tLaunchWords 0).flatMap (fun w => leBytes 4 w.toNat)) 1 0 5).map (fun l => decide (l.blocks ≤ Config.gangCores ∧
      ((tPacket [] id).devtime : Int) < l.divertAt) && !(tPacket [] id).neverFits l) = some true ∧
    (∃ d s3, (tPacket [] id).readVirt none tCtx 0x1000 8 = .ok (d, s3)) ∧
    (tPacket [] id).checkAccess tCtx.walker 0x1000 8 askWrite (fun _ => none) = .ok [(.mem 0x40001000, 8)] ∧
    -- a launch of the queue that has not ended
    (let sig := tHead 4 5 1 :: wordsOf 4 [(0, 0x1001)]
     let stamp := tHead 7 3 1 :: wordsOf 2 [(0, 0x1000)]
     let fence := [tHead 5 1 0]
     ([(tPacket sig id, sig), (tPacket stamp id, stamp), (tPacket fence id, fence), (tInside fence 1 0 [], fence)] : List (State × List Word)).all (fun x =>
      let s := { x.1 with launches := [{ tLaunch with queue := 5 }] }
      tStands s x.2 (fun _ => s.launches.any (fun l => l.queue == 5 && l.task.isNone && !l.ended)))) = true ∧
    (tPacket [] id).checkAccess tCtx.walker 0x8000 4 askRead (fun _ => none) = .ok [(.mem 0x40008000, 4)] ∧
    (tPacket [] id).checkAccess tCtx.walker 0x140000000 4 askRead (fun _ => none) = .error (.trap .translation 0x140000000) ∧
    -- a NOP whose second word would stand where nothing is mapped
    (let q := { tQueue 5 129 with base := 0x7FFFFE00, prog := 127 }
     let m := tEntries.flatMap (fun x => Memory.cells x.1 (leBytes 8 (if x.1 = 0x2010 then 0 else x.2)))
     let s : State := { tS with queues := [q], run := Run.idle, mem := m ++ Memory.cells 0x400003FFFFFFC (leBytes 4 (tHead 0 2 0).toNat) }
     s.parses q && (match s.qwords q 0 1 with
      | .ok (h, s1) => h == [tHead 0 2 0] && (match s1.qwords q 1 1 with | .error x => decide (x = .trap .translation 0x80000000) | .ok _ => false)
      | .error _ => false)) = true := by
  refine ⟨by decide +kernel, by decide +kernel, by decide +kernel, by decide +kernel, by decide +kernel, ?_, ?_, ?_, ?_, ⟨_, _, rfl⟩, rfl, by decide +kernel, rfl, rfl,
    by decide +kernel⟩
  all_goals decide +kernel

/-- The pieces that a copy's check gives. -/
def piecesOf (x : Except Stop (List CopySeg)) : List CopySeg :=
  match x with
  | .ok l => l
  | .error _ => []
def tSeg : CopySeg := { loc := .mem 0x40001000, va := 0x1000, la := 128, len := 64 }
theorem witness_Copies :
    tS.env = some tE ∧ (tE.read32 .zero 0).toNat = 0 ∧ (tE.read32 (.imm 64) 0).toNat ≤ 2 ^ 20 ∧
    (∀ k ∈ tE.r.exec, tS.copyCheck tE false none (tE.gaddr (at_ (.s 1)) 1 k) (tE.read32 (.imm 128) k).toNat 1 64 0 = .ok [tSeg]) ∧
    ((tE.readU (.s 14)).toNat / 2 ^ 16 % 2 ^ 16 = 1 ∧ (tE.readU (.s 14)).toNat % 2 ^ 16 = 64 ∧ (tE.readU (.s 14)).toNat / 2 ^ 32 = 64) ∧
    piecesOf (tS.copyCheck tE true none (tE.gaddr (at_ (.s 1)) 1 tE.low) (tE.read32 (.imm 128) tE.low).toNat 1 64 64) ≠ [] ∧
    (∀ out ∈ [true, false], pending (tOps (.copy out .l1 none [tSeg] 64 0)) 2 = some (tOp 2 (.copy out .l1 none [tSeg] 64 0)) ∧
      (tOps (.copy out .l1 none [tSeg] 64 0)).copyBefore (tOp 2 (.copy out .l1 none [tSeg] 64 0)) out 0 [] tSeg = false) ∧
    tBlock.present (128 / 128) = true ∧ tS.blk 0 = some tBlock ∧ tS.badIn 0x40001000 64 = none ∧ tS.downIn 0x40001000 64 = none ∧ tSeg.loc = .mem 0x40001000 ∧ Quiet tS 0 := by
  refine ⟨rfl, by decide +kernel, by decide +kernel, ?_, by decide +kernel, by decide +kernel, by decide +kernel, by decide +kernel, rfl, by decide +kernel, by decide +kernel, rfl, tS_quiet⟩
  intro k h; simp only [tE, tRun, List.mem_cons, List.not_mem_nil, or_false] at h; rcases h with rfl | rfl <;> rfl

/-- A block with a stash mapping of 64 KiB at local 0x10000, line 512 absent with one fill pending, or owned and dirty. -/
def tStash (b : Block) : Block := { b with lsize := 0x20000, stash := [{ l := 0x10000, v := 0, bytes := 0x10000 }], absent := [512] }
theorem witness_StashInstructions :
    let big (b : Block) : Block := { b with lsize := 0x20000 }
    tS.env = some tE ∧ (tWith [] big).env = some (tEnv big) ∧ (tE.readU (.imm 0x10000)).toNat = 0x10000 ∧ (tE.readU .zero).toNat % 128 = 0 ∧
    (tWith [] tStash).env = some (tEnv tStash) ∧ (tEnv tStash).b.stash.any (fun m => m.l == 0x10000) = true ∧
    pending (State.withOps' (tWith [] tStash) [tOp 2 (.stash 10 0 (some 0x10000))]) 2 = some (tOp 2 (.stash 10 0 (some 0x10000))) ∧
    (tStash tBlock).stash.find? (fun x => x.l == 0x10000) = some { l := 0x10000, v := 0, bytes := 0x10000 } ∧ (tStash tBlock).fills = [] ∧
    (let o := tOp 2 (.stash 10 0 (some 0x10000))
     (State.withOps' (tWith [] tStash) [o]).unsent o = false ∧ o.lost = false ∧ (tStash tBlock).sp 0 = some tSpindle ∧ tSpindle.gone 0 = false) ∧
    (∀ sp ∈ (tStash tBlock).spindles, ∀ x ∈ sp.threads, x.served = []) ∧ { tStash tBlock with evicted := true }.evicted = true ∧
    -- a thread parked on an absent line of the mapping
    (let x : Thread := { probeThread with st := .parked (.lines [512] 0) }
     x.st = .parked (.lines [512] 0) ∧ (tStash tBlock).present 512 = false ∧ 0x10000 ≤ 128 * 512 ∧ 128 * 512 < 0x10000 + 0x10000) ∧
    -- each status of a mapping of 64 KiB at local 0x10000
    (let whole (e : Env) : Bool := (e.readU (.imm 0x10000)).toNat == 0x10000 && (e.readU (.s 11)).toNat % 128 == 0 && (e.readU (.s 2)).toNat % 128 == 0
     let filling (b : Block) : Block := { big b with fills := [(512, 1)] }
     let bad (v : Dword) : Bool := ((tWith [] big).pieces ((tEnv big).walker (tWith [] big)) v 0x10000).any (fun p => match p.wk with
       | .page g => decide (3 ≤ g.mtype)
       | .service => false
       | .fail => true)
     (whole tE && decide (tBlock.lsize < 0x10000 + 0x10000)) && whole (tEnv big) && decide (0x10000 + 0x10000 ≤ (big tBlock).lsize) &&
       (tStash tBlock).stash.any (fun m => m.l < 0x20000 && 0x10000 < m.l + m.bytes) &&
       (filling tBlock).fills.any (fun f => decide (0x10000 ≤ 128 * f.1 ∧ 128 * f.1 < 0x20000)) &&
       bad (tE.readU (.s 11)) && bad (tE.readU (.s 4)) && !bad (tE.readU (.s 2))) = true := by
  refine ⟨rfl, rfl, ?_, ?_, rfl, ?_, ?_, ?_, rfl, ⟨?_, rfl, rfl, ?_⟩, ?_, rfl, ⟨rfl, ?_⟩, ?_⟩ <;> decide +kernel

def tParked (b : Block) : Block :=
  { b with absent := [1], spindles := [{ tSpindle with threads := [{ probeThread with st := .parked (.lines [1] 0) }] }] }
def tParkedS : State := { tWith [] tParked with devtime := 1000, run := Run.idle }
theorem witness_StashLines :
    let filling (b : Block) : Block := { tStash b with fills := [(512, 1)] }
    let holding (b : Block) : Block := { tStash b with absent := [], owned := [(512, 0x800000)], dirty := [512] }
    let s := tParkedS
    let sp := { tSpindle with threads := [{ probeThread with st := .parked (.lines [1] 0) }] }
    (tWith [] filling).blk 0 = some (filling tBlock) ∧ (filling tBlock).fillCount 512 = 1 ∧ (filling tBlock).stashAt (128 * 512) ≠ none ∧
    ((tWith [] filling).walked ((tWith [] filling).walkerOf 0 0) ((filling tBlock).stashVa 512) 128).stashLine (filling tBlock) 512 = some 0x800000 ∧ (tWith [] filling).badLine 0x800000 = false ∧ Quiet (tWith [] filling) 0 ∧
    (tWith [] holding).blk 0 = some (holding tBlock) ∧ (holding tBlock).owned = [(512, 0x800000)] ∧ (holding tBlock).dirty = [512] ∧
    (tWith [] holding).coh.pend = [] ∧ (tWith [] holding).health.unmapped = [] ∧ (tWith [] holding).inRegion (128 * 0x800000) 128 = false ∧
    (∀ b ∈ s.blocks, b.core = 0 → b.evicted = false → b = tParked tBlock) ∧ s.blk 0 = some (tParked tBlock) ∧ (tParked tBlock).sp 0 = some sp ∧
    s.ctx 0 = some tCtx ∧ 0 + 1000 * tCtx.desc.parklim ≤ s.devtime ∧ s.running 0 0 0 = false ∧
    [1].find? (fun l => !(tParked tBlock).present l && (tParked tBlock).fillCount l == 0 && ((tParked tBlock).stashAt (128 * l)).isNone) = some 1 := by
  refine ⟨rfl, by decide +kernel, by decide +kernel, by decide +kernel, by decide +kernel, quiet_of _ _ rfl rfl (by decide +kernel), rfl, rfl, rfl, rfl, rfl, by decide +kernel, by decide +kernel, rfl, rfl, rfl, by decide +kernel, by decide +kernel,
    by decide +kernel⟩

/-- Code at virtual 0x8000: a clause of one `pand`, one whose word is refused; the threads of slots 0 to 2 stand there, or
behind a guard of p1, or wait on token 0. -/
def tCode (h w : Word) (f : Thread → Thread) : State :=
  { tWith [(0x40008000, leBytes 4 h.toNat ++ leBytes 4 w.toNat)]
      (fun b => { b with spindles := [{ tSpindle with threads := List.replicate 3 (f { probeThread with pc := 0x8000 }) }] }) with
    run := Run.idle, launches := [{ tLaunch with recaddr := 0x1000, issued := false }], devtime := 1000000 }
def headerOf (x : Except Stop (Header × List Word × State)) : Option (Header × List Word) :=
  match x with
  | .ok y => some (y.1, y.2.1)
  | .error _ => none
/-- The words read. -/
def codeOf (x : Except Stop (List Word × State)) : List Word :=
  match x with
  | .ok y => y.1
  | .error _ => []
theorem fetches (s : State) (va : Dword) (h w : Word) (h1 : codeOf (s.fetchCode 0 0 va 1) = [h]) (h2 : (decodeHeader h).map (·.count) = some 1)
    (h4 : codeOf (s.fetchCode 0 0 va 2) = [h, w]) :
    ∃ hd, headerOf (s.fetchClause 0 0 va) = some (hd, [w]) := by
  obtain ⟨hd, h2, h3⟩ := Option.map_eq_some_iff.mp h2
  refine ⟨hd, ?_⟩
  unfold State.fetchClause
  cases e1 : s.fetchCode 0 0 va 1 with
  | error x => rw [e1] at h1; simp [codeOf] at h1
  | ok y =>
    rw [e1] at h1
    cases e2 : s.fetchCode 0 0 va 2 with
    | error x => rw [e2] at h4; simp [codeOf] at h4
    | ok z =>
      rw [e2] at h4
      simp only [codeOf] at h1 h4
      simp [h1, h2, h3, e2, h4, headerOf]
theorem witness_ClausesAndDeadlines :
    let plainH : Word := 0xA0000001
    let guardH : Word := 0xA1080001
    let waitH : Word := 0xA0000041
    let s := tCode plainH 0xA0010203 id
    let sp := { tSpindle with threads := List.replicate 3 { probeThread with pc := 0x8000 } }
    let b := { tBlock with spindles := [sp] }
    let l := { tLaunch with recaddr := 0x1000, issued := false }
    s.spindleAt 0 0 = some (b, sp) ∧ s.blk 0 = some b ∧ b.sp 0 = some sp ∧ sp.threads[0]? = some { probeThread with pc := 0x8000 } ∧
    s.batch b sp 0 = [0, 1, 2] ∧ s.batch b sp 3 = [] ∧ s.othersReady 0 0 [0, 1, 2] = false ∧
    -- a batch in `yield` with another ready beside it
    (let far : Spindle := { sp with spid := 4, threads := [{ probeThread with pc := 0x8000 }] }
     ({ tCode plainH 0xA0010203 (fun x => { x with yielded := true }) with blocks := [{ b with spindles := [sp, far] }] } : State).othersReady 0 0 [0, 1, 2] = true) ∧
    (∀ h ∈ [plainH, guardH, waitH], ∀ w ∈ [(0xA0010203 : Word), 0xA0FF0203],
      ∃ hd, headerOf ((tCode h w id).fetchClause 0 0 0x8000) = some (hd, [w])) ∧
    ((decodeHeader guardH).map (fun x => (x.gen, x.gneg, x.gpred.toNat)) = some (true, false, 1)) ∧
    ((decodeHeader waitH).map (·.wait) = some 1) ∧
    checkWords .v sp.vcount 16 [] [0xA0010203] = none ∧ (∃ x, checkWords .v sp.vcount 16 [] [0xA0FF0203] = some x) ∧
    s.launch 0 = some l ∧ ((s.devtime : Int) ≥ (l.dl : Int) - l.budget) ∧ l.budget ≠ 0 ∧ l.div = false ∧ l.dl ≤ s.devtime ∧ s.stalled 0 = false ∧
    s.running 0 0 0 = false ∧ s.granted 0 0 = false ∧ (tS.devtime < tLaunch.dl ∧ ¬((tS.devtime : Int) ≥ (tLaunch.dl : Int) - tLaunch.budget)) ∧
    0 + 0 + 0 + 0 + 0 + 3 = l.e.foldl (· * ·) 1 ∧ l.task = none ∧ s.ctx 0 = some tCtx ∧
    s.checkAccess tCtx.walker l.recaddr 64 askWrite (fun _ => none) = .ok [(.mem 0x40001000, 64)] ∧
    s.checkAccess tCtx.walker 0x180000000 64 askWrite (fun _ => none) = .error (.service 0x180000000 none) ∧
    (∀ o ∈ s.ops, o.kind.rows = false) ∧ s.coh.flips = [] ∧ s.coh.pend = [] ∧ s.health.unmapped = [] ∧ l.halted = false ∧ s.services = [] ∧
    (∀ y ∈ s.blocks, y.owned = []) ∧ s.fabric.held = [] ∧ s.downIn 0x40001000 64 = none ∧ 0x40001000 % 64 = 0 ∧
    -- held by the clause it runs
    ({ s with run := tRun } : State).running 0 0 0 = true := by
  refine ⟨rfl, rfl, rfl, rfl, by decide +kernel, by decide +kernel, by decide +kernel, by decide +kernel, ?_, by decide +kernel, by decide +kernel, by decide +kernel, ⟨_, rfl⟩, rfl,
    by decide +kernel, by decide +kernel, rfl, by decide +kernel, by decide +kernel, by decide +kernel, by decide +kernel, by decide +kernel,
    by decide +kernel, rfl, rfl, rfl, rfl, by decide +kernel, rfl, rfl, rfl, rfl, rfl, by decide +kernel, rfl, by decide +kernel, rfl, by decide +kernel⟩
  intro h hh w hw
  simp only [List.mem_cons, List.not_mem_nil, or_false] at hh hw
  rcases hh with rfl | rfl | rfl
  · rcases hw with rfl | rfl <;> exact fetches _ _ 0xA0000001 _ (by decide +kernel) (by decide +kernel) (by decide +kernel)
  · rcases hw with rfl | rfl <;> exact fetches _ _ 0xA1080001 _ (by decide +kernel) (by decide +kernel) (by decide +kernel)
  · rcases hw with rfl | rfl <;> exact fetches _ _ 0xA0000041 _ (by decide +kernel) (by decide +kernel) (by decide +kernel)

/-- A spindle that asks for its full allotment, one whose threads have exited, a launch with a block yet to be placed. -/
def tSpin (f : Spindle → Spindle) : State := { tS with blocks := [{ tBlock with spindles := [f tSpindle] }], run := Run.idle }
def tNew : Launch :=
  { tLaunch with uid := 9, cls := .d, next := 0, issued := false, pal := ⟨1, 1, 0, 0, 0, 0⟩, cal := ⟨1, 1, 0, 0, 0, 0⟩, e := [1, 1, 1, 1, 1, 1] }
theorem witness_Scheduling :
    let ask (n : Nat) (sp : Spindle) : Spindle := { sp with acq := some 1, vfull := n }
    let done (sp : Spindle) : Spindle := { sp with full := true, threads := List.replicate 3 { probeThread with st := .exited } }
    let fresh : State := { tS with launches := [tNew], blocks := [], run := Run.idle }
    (tSpin id).spindleAt 0 0 = some (tBlock, tSpindle) ∧ tSpindle.threads[0]? = some { probeThread with tls := 0x2000 } ∧
    (∀ n ∈ [16, 136], (tSpin (ask n)).acqHead 0 = some ({ tBlock with spindles := [ask n tSpindle] }, ask n tSpindle)) ∧
    (tSpin (ask 16)).grantable { tBlock with spindles := [ask 16 tSpindle] } (ask 16 tSpindle) = true ∧
    (tSpin (ask 136)).grantable { tBlock with spindles := [ask 136 tSpindle] } (ask 136 tSpindle) = false ∧
    (tSpin done).spindleAt 0 0 = some ({ tBlock with spindles := [done tSpindle] }, done tSpindle) ∧
    (tSpin done).accBusy { tBlock with spindles := [done tSpindle] } (done tSpindle) = false ∧
    (∃ y ∈ tSpindle.threads, y.st ≠ .exited ∧ y.st ≠ .stopped) ∧
    (∀ y ∈ (tSpin done).blocks, ∀ p ∈ y.spindles, ∀ q ∈ p.threads, q.st = .exited ∨ q.st = .stopped) ∧ (tSpin done).blockBusy 0 = false ∧
    fresh.heads .d = [tNew] ∧ (∀ y ∈ fresh.launches, fresh.pending y = true → fresh.neverFits y = false) ∧ fresh.admitFree tNew = true ∧
    (fresh.place tNew []).isSome = true ∧ (fresh.place tNew [0]).isSome = true ∧ tNew.nparam = 0 ∧ fresh.launch 9 = some tNew ∧
    -- a launch that asks for more registers than its quota
    (let big : Launch := { tNew with pal := ⟨128, 128, 0, 0, 0, 0⟩, e := [1, 64, 1, 1, 1, 1] }
     let t : State := { fresh with launches := [big], ctxs := [{ tCtx with desc := { tDesc with qvreg := 1 } }] }
     t.launches.find? (fun y => t.pending y && t.neverFits y) = some big ∧ (t.launches.filter (fun z => z.uid == big.uid)).length = 1) ∧
    (tSpin id).sched.period + 10000000 ≤ ({ tS with devtime := 10000000 } : State).devtime := by
  refine ⟨rfl, rfl, ?_, ?_, ?_, rfl, ?_, ?_, ?_, ?_, ?_, ?_, ?_, ?_, ?_, rfl, rfl, ?_, ?_⟩ <;> decide +kernel

/-- A mailbox in host memory, ring TD 0x400 bytes behind its base, holding one message. -/
def tMail (d : List Byte) : State := tUp
  { tWith [(0x8_0000_0000_0400, d ++ List.replicate (64 - d.length) 0)] id with
    mail := { Mail.reset with tdprod := 1, failedDue := [7], uncorrDue := [9] }
    services := [{ core := 0, ctx := 0, va := 0x180000000, write := false, fetch := false, tag := 3, sent := d.length != 0, spid := 0, slots := [0, 1]
                   op := none, queue := none, record := none, mirror := false }] }
theorem witness_Mailbox :
    let reply := tMail [0x81, 0, 0, 0, 3]
    let stale := tMail [0x81, 0, 0, 0, 4]
    let attest := tMail ((2 :: List.replicate 16 0) ++ [8])
    let far := tMail ((2 :: List.replicate 15 0) ++ List.replicate 8 0xFF)
    (∃ v, (tMail []).services.find? (fun v => v.core == 0 && !v.sent) = some v ∧ v.ctx < 2 ^ 64) ∧
    ((tMail []).mail.thprod - (tMail []).mail.thcons).toNat < 2 ^ ((tMail []).mail.log2n + 4) ∧
    (({ tMail [] with mail := { Mail.reset with thprod := 16 } } : State).mail.thprod - 0).toNat = 2 ^ (0 + 4) ∧
    7 ∈ (tMail []).mail.failedDue ∧ 9 ∈ (tMail []).mail.uncorrDue ∧ 128 * 9 < 2 ^ 64 ∧ 8 ∉ (tMail []).mail.failedDue ∧ 8 ∉ (tMail []).mail.uncorrDue ∧
    tS.mail.tdprod = tS.mail.tdcons ∧ (tMail []).firmware = true ∧ tS.firmware = false ∧ tS.boot.state ≠ 7 ∧
    (∀ s ∈ [reply, stale, attest, far, tMail [0x55]], s.mail.tdprod ≠ s.mail.tdcons ∧
      s.firmware = true ∧
      (s.coh.flips = [] ∧ s.health.unmapped = [] ∧ s.coh.pend = [] ∧ (∀ b ∈ s.blocks, b.owned = []) ∧ s.coh.device = [] ∧ s.mail.base.toNat % 64 = 0)) ∧
    bytesAt reply.home 0x8_0000_0000_0400 8 = [0x81, 0, 0, 0, 3, 0, 0, 0] ∧
    (∃ v, reply.services.find? (fun x => x.sent && x.tag % 2 ^ 32 == 3) = some v) ∧
    (∀ x ∈ stale.services, x.sent = true → x.tag % 2 ^ 32 ≠ 4) ∧ bytesAt (tMail [0x55]).home 0x8_0000_0000_0400 1 = [0x55] ∧
    (let addr (s : State) : Nat := leNat (((bytesAt s.home 0x8_0000_0000_0400 64).drop 16).take 8)
     addr attest = 0x800 ∧ attest.mail.base.toNat + 64 ≤ 0x800 ∧ 2 ^ 50 < addr far) ∧
    bytesAt attest.home 0x8_0000_0000_0400 1 = [2] ∧ bytesAt far.home 0x8_0000_0000_0400 1 = [2] ∧ attest.boot.meas.length = 8 := by
  refine ⟨⟨_, rfl, by decide +kernel⟩, by decide +kernel, by decide +kernel, by decide +kernel, by decide +kernel, by decide +kernel, by decide +kernel,
    by decide +kernel, rfl, by decide +kernel, by decide +kernel, by decide +kernel, ?_, by decide +kernel, ⟨_, rfl⟩, by decide +kernel, by decide +kernel, by decide +kernel, by decide +kernel, by decide +kernel, rfl⟩
  intro s h; simp only [List.mem_cons, List.not_mem_nil, or_false] at h
  rcases h with rfl | rfl | rfl | rfl | rfl <;> exact ⟨by decide +kernel, by decide +kernel, rfl, rfl, rfl, by decide +kernel, rfl, by decide +kernel⟩

/-- The core of `tS` stalled at the fault of a clause set aside; a context whose halt line is up. -/
def tStalled : State := { tMail [1] with run := Run.idle, runs := [tRun] }
def tHalting (dying : Bool) : State := { tS with run := Run.idle, ctxs := [{ tCtx with halting := true, dying := dying }] }
theorem witness_ServicesAndHalts :
    let v : Service := { core := 0, ctx := 0, va := 0x180000000, write := false, fetch := false, tag := 3, sent := true, spid := 0, slots := [0, 1]
                         op := none, queue := none, record := none, mirror := false }
    tStalled.services.find? (fun x => x.core == 0) = some v ∧ tStalled.fabric.heldIn = [] ∧
    (tStalled.services.filter (fun x => x.tag == v.tag)).length = 1 ∧
    ({ tStalled with services := tStalled.services.filter (fun x => x.tag != v.tag) } : State).spindleAt 0 0 = some (tBlock, tSpindle) ∧
    tStalled.blk 0 = some tBlock ∧ tBlock.sp 0 = some tSpindle ∧ tStalled.stalledRun v = some tRun ∧ (∀ x ∈ tSpindle.threads, x.divertDue = false) ∧
    (∀ b ∈ tStalled.blocks, ∀ p ∈ b.spindles, ∀ x ∈ p.threads, x.divertDue = false) ∧ tStalled.ctx 0 = some tCtx ∧ 0 ∈ tRun.exec ∧ 0 < tSpindle.threads.length ∧
    tBlock.core = 0 ∧ v.slots ≠ [] ∧ v.slot = 0 ∧ (∀ o ∈ (tHalting false).ops, o.kind.rows = false) ∧
    (∀ l ∈ ({ tHalting true with launches := [] } : State).launches, l.ctx = 0 → l.ended = true) ∧
    (∀ q ∈ tStalled.run :: tStalled.runs, q ≠ tRun → q.blk = 0 → q.m = 0 → 0 ∉ q.exec) ∧ tStalled.runs.count tRun = 1 ∧ tStalled.run ≠ tRun ∧
    (∀ dying ∈ [false, true], (tHalting dying).ctx 0 = some { tCtx with halting := true, dying := dying } ∧
      ¬∃ q ∈ (tHalting dying).run :: (tHalting dying).runs, q.active = true ∧ ((tHalting dying).blk q.blk).map (·.ctx) = some 0) ∧
    (∃ q ∈ tS.run :: tS.runs, q.active = true ∧ (tS.blk q.blk).map (·.ctx) = some 0) ∧ tCtx.desc.stopbase = 0 ∧
    -- a halted thread's record, in a stop area at virtual 0x1000
    (let y : Thread := { probeThread with st := .halted }
     let s : State := { tHalting false with blocks := [{ tBlock with spindles := [{ tSpindle with threads := [y] }] }] }
     let c : Ctx := { tCtx with desc := { tDesc with stopbase := 0x1000 } }
     (s.stopList 0).map (·.1) = [(0, 0, 0)] ∧ (thr s 0 0 0).isSome = true ∧ y.st = .halted ∧ c.desc.stopbase ≠ 0 ∧ 0 < 2 ^ (c.desc.stoplog2 + 8) ∧
      (y.stopRecord 0 0 0).length = 64 ∧ tFinds s (c.desc.stopbase + BitVec.ofNat 64 (64 + 64 * 0)) 64 askWrite 0x40001040 = true ∧
      s.downIn 0x40001040 64 = none ∧ 0x40001040 % 64 = 0 ∧ ((y.mid.map (·.idx)).getD 0) < 16) := by
  refine ⟨rfl, rfl, by decide +kernel, rfl, rfl, rfl, rfl, by decide +kernel, by decide +kernel, rfl, by decide +kernel, by decide +kernel, rfl, by decide +kernel, rfl, by decide +kernel, by decide +kernel,
    by decide +kernel, by decide +kernel, by decide +kernel, by decide +kernel, by decide +kernel, rfl, by decide +kernel⟩

/-- Host requests to the bed page of 0x40001000, which is in host bias, in device bias, or in the middle of a flip. -/
def tHostReq (write : Bool) : HostReq := { port := 0, pasid := 0, pa := 0x40001000, write := write, data := if write then [1, 2, 3, 4] else [], len := 4 }
def tBias (bias : List Nat) (flips : List Flip) (auto : Bool) : State :=
  { tHolds tOperator.unit (tOwn tOperator) with
    boot := { tS.boot with state := 6, upstream := true }, coh := { Coh.reset with hostBias := bias, flips := flips, autoflip := auto } }
theorem witness_HostRequests :
    let f : Flip := { page := 0x40001, toHost := true, cmd := false, held := [(3, tHostReq false)] }
    let q : HostWinReq := { pasid := 1, op := 0, permR := true, permW := true, kind := .fire 0 }
    let granted : Operator := { tOperator with grants := [{ reinstall := false, readW := false, readOut := true, writeIn := true, kind := 2, id := 1 }] }
    let s := tBias [] [] true
    let db (x : Bool) : State := { s with stock := [{ port := 0, base := 0, size := 4096, db := x, persist := true }] }
    State.reset.boot.upstream = false ∧ s.boot.upstream = true ∧ s.boot.state ≠ 7 ∧ (4 : Nat) ≠ 0 ∧ hostPages (tHostReq false) = [0x40001] ∧ (f.held.map (·.1)).Pairwise (· < ·) ∧
    (db false).hdmH 0x80000000000 = true ∧ (db true).hdmH 0x80000000000 = false ∧
    { granted with resident := false }.num = q.op.toNat ∧ granted.resident = true ∧ granted.waiting = [] ∧ Serves s granted.unit granted.owner ∧ (∀ a b, q.kind ≠ .load a b) ∧ s.offered 0x40001000 4 = true ∧ s.offered 0x4_0000_0000_0000 4 = false ∧
    (0x40001000 : Nat) / 4096 = 0x40001 ∧ 0x40001 ∈ (tBias [0x40001] [] true).coh.hostBias ∧ 0x40001 ∉ s.coh.hostBias ∧
    (tBias [] [] false).coh.autoflip = false ∧ (∃ g ∈ (tBias [] [f] true).coh.flips, g.page = 0x40001) ∧ s.badIn 0x40001000 4 = none ∧
    (∀ b ∈ s.blocks, b.owned = []) ∧ s.coh.pend = [] ∧ s.health.unmapped = [] ∧
    (∀ g ∈ [f, { f with toHost := false }, { f with toHost := false, held := [] }], (tBias [0x40001] [g] true).coh.flips = [g] ∧ g.page = 0x40001) ∧
    ((0x40000000_40001000 : Dword).toNat % 2 ^ 52 / 4096 = 0x40001 ∧ (0x40000000_40001000 : Dword).getLsbD 62 = true ∧ s.offered (4096 * 0x40001) 4096 = true) ∧
    (∃ g ∈ (tBias [] [{ f with cmd := true }] true).coh.flips, g.cmd = true) ∧
    s.operator (1023 : BitVec 10).toNat = none ∧ (tBias [] [] true).operator q.op.toNat = some tOperator ∧
    (q.permW && tOperator.bound && tOperator.mayDo (.host q.pasid) q.kind && tOperator.fits q.kind) = false ∧
    (q.permW && granted.bound && granted.mayDo (.host q.pasid) q.kind && granted.fits q.kind) = true ∧
    pclass (128 * 0x100000000000) = .host ∧ (List.replicate 128 (0 : Byte)).length = 128 ∧ (∃ n, pclass (128 * 0x80000000000) = .stock n) ∧
    7 < 8 ∧ 7 ∉ s.health.downPorts ∧ 9 ∉ s.health.errMap ∧ 9 ∈ ({ s.health with errMap := [9] }).errMap ∧ (∃ n, pclass (0x10000 * 0x4000) = .bed n) := by
  refine ⟨rfl, rfl, by decide +kernel, by decide +kernel, by decide +kernel, by decide +kernel, by decide +kernel, by decide +kernel, rfl, rfl, rfl,
    ⟨by decide +kernel, .inl (by decide +kernel)⟩, nofun,
    by decide +kernel, by decide +kernel, by decide +kernel, by decide +kernel, by decide +kernel, rfl, ⟨_, List.mem_singleton.mpr rfl, rfl⟩,
    by decide +kernel, by decide +kernel, rfl, rfl, ?_, by decide +kernel, ⟨_, List.mem_singleton.mpr rfl, rfl⟩, rfl, rfl, by decide +kernel, by decide +kernel,
    by decide +kernel, by decide +kernel, ⟨_, rfl⟩, by decide +kernel, by decide +kernel, by decide +kernel, by decide +kernel, ⟨_, rfl⟩⟩
  intro g h; simp only [List.mem_cons, List.not_mem_nil, or_false] at h
  rcases h with rfl | rfl | rfl <;> exact ⟨rfl, rfl⟩

/-- The context table at 0x40003000: an entry for context 1, and zeros for context 2. -/
def tTable : State := tUp
  { tWith [(0x40003080, fields 128 [(0, 1), (98, 1), (143, 1), (137, 1), (192, 1), (208, 1), (224, 1)]), (0x40003100, List.replicate 128 0)] id with
    xlat := { Xlat.reset with ctxtab := 0x40003000 } }
def tCtx1 (f : Ctx → Ctx) : State := { tTable with ctxs := [f { tCtx with id := 1 }] }
theorem witness_ContextCommands :
    let halted (c : Ctx) : Ctx := { c with halted := true }
    let b := { tBlock with ctx := 1 }
    ({ Xlat.reset with busy := some 1 }).busy ≠ none ∧ tTable.xlat.busy = none ∧ tTable.ctx 4095 = none ∧ tTable.ctx 1 = none ∧
    (tTable.coh.flips = [] ∧ tTable.health.unmapped = [] ∧ tTable.coh.pend = [] ∧ tTable.coh.device = [] ∧ ∀ b ∈ tTable.blocks, b.owned = []) ∧
    tTable.firmware = true ∧ tS.firmware = false ∧ (∀ l ∈ ({ tCtx1 halted with launches := [] } : State).launches, l.ctx = 1 → l.ended = true) ∧
    (∃ d, readDesc (bytesAt tTable.home (tTable.xlat.ctxtab.toNat + 128 * 1) 128) = some d) ∧
    readDesc (bytesAt tTable.home (tTable.xlat.ctxtab.toNat + 128 * 2) 128) = none ∧
    (tCtx1 id).ctx 1 = some { tCtx with id := 1 } ∧ (tCtx1 halted).ctx 1 = some (halted { tCtx with id := 1 }) ∧
    ({ tCtx1 id with blocks := [b], run := Run.idle } : State).blk 0 = some b ∧ b.sp 0 = some tSpindle ∧
    tSpindle.threads[0]? = some { probeThread with tls := 0x2000 } ∧ ({ tCtx1 id with blocks := [b], run := Run.idle } : State).running 0 0 0 = false ∧
    ({ Xlat.reset with tinvBusy := true }).tinvBusy = true ∧ tTable.xlat.tinvBusy = false ∧
    ((0 : Dword).getLsbD 12 = false ∧ (0 : Dword).toNat / 2 ^ 16 % 2 ^ 32 = 0) ∧ (0x1000 : Dword).getLsbD 12 = true ∧
    (0x10000 : Dword).toNat / 2 ^ 16 % 2 ^ 32 ≠ 0 ∧
    (∃ o ∈ (tOps (.zld tTile 4 [(.mem 0, 96)])).ops, o.ctx = 0 ∧ o.kind.translated = true ∧ (tOps (.zld tTile 4 [(.mem 0, 96)])).saved o.blk = false) ∧
    tS.fabric.held = [] ∧ tS.fabric.outst = [] ∧ tS.posted = [] ∧ { probeThread with st := .halted }.before = .ready ∧
    (∀ o ∈ (tOps (.sreg 10 0)).ops, o.ctx = 0 → o.kind.translated = false) := by
  refine ⟨by decide +kernel, rfl, rfl, rfl, ⟨rfl, rfl, rfl, rfl, by decide +kernel⟩, by decide +kernel, by decide +kernel, by decide +kernel, ⟨_, rfl⟩, by decide +kernel, rfl, rfl, rfl, rfl, rfl, by decide +kernel,
    rfl, rfl, by decide +kernel, by decide +kernel, by decide +kernel, by decide +kernel, rfl, rfl, rfl, rfl, by decide +kernel⟩

theorem witness_Timekeeping :
    State.reset.ptp.en = false ∧ State.reset.ptp.first = true ∧ State.reset.sched.accepted = false ∧
    (∀ st ∈ [Servo.freerun, .locking, .locked, .holdover], ({ Ptp.reset with en := true, st := st }).en = true ∧ ({ Ptp.reset with en := true, st := st }).st = st) ∧
    ((99 : Int).natAbs < 100 ∧ 15 ≤ ({ Ptp.reset with good := 15 }).good) ∧ ¬(100 : Int).natAbs < 100 ∧ (∃ l ∈ tS.launches, l.ended = false ∧ l.rejected = false) ∧
    (∀ l ∈ ({ tS with launches := [{ tLaunch with rejected := true }] } : State).launches, l.ended = true ∨ l.rejected = true) ∧
    { Ptp.reset with trace := true }.trace = true ∧
    ((0x1F40001 : Word).getLsbD 0 = true ∧ (0x1F40001 : Word).toNat / 2 ^ 16 % 2 ^ 16 = 500 ∧ (0x1F40001 : Word).getLsbD 3 = false) ∧
    ((0x10000 : Word).getLsbD 0 = false ∧ (0x10000 : Word).toNat / 2 ^ 16 % 2 ^ 16 = 1 ∧ (0x10000 : Word).getLsbD 3 = false) ∧
    500 < (0x1F50001 : Word).toNat / 2 ^ 16 % 2 ^ 16 ∧ tS.boot.state ≠ 7 ∧ ({ tS.boot with state := 7 } : Boot).state = 7 := by decide +kernel

theorem witness_PowerAndHealth :
    (1199 < 1200 ∧ 3600 < 3601 ∧ 1201 % 100 ≠ 0) ∧ (1200 ≤ 1200 ∧ 3600 ≤ 3600 ∧ 3600 % 100 = 0) ∧ State.reset.userCores ≤ 256 ∧
    0 < tS.userCores ∧ 0 ∉ tS.health.deadCores ∧ tBlock ∈ tS.blocks ∧ tS.ctx 0 = some tCtx ∧ tS.dies.findIdx? (fun d => d == 0) = some 0 ∧
    (∀ b ∈ tS.blocks, b.ctx = 1 → b.evicted = true ∨ b.core ≠ 0) ∧ (∀ o ∈ tS.ops, o.ctx = 1 → o.core ≠ 0) ∧ (∀ o ∈ tS.operators, o.owner ≠ 1) ∧
    0 ∉ tS.health.deadDies ∧ dieOf tBlock.core = 0 ∧ tS.dies.findIdx? (fun d => d == 4) = none ∧ tS.durable = [] ∧ tS.coh.pend = [] ∧
    ({ tS with powered := false } : State).agenda = [] := by decide +kernel

/-- A boot region: a descriptor of an image of one page of zeros behind it, whose digest it holds. The answers of the checks of
signatures are free values, and each of their answers is the hypothesis of a clause. -/
def tBootDesc (svn : Nat) : List Byte :=
  leBytes 4 0x454E4144 ++ leBytes 2 1 ++ leBytes 2 svn ++ leBytes 8 4096 ++ leBytes 8 4096 ++ List.replicate 104 0 ++
    leBytes 64 (Config.sha512 (List.replicate 4096 0)).toNat ++ List.replicate 64 0
def tBootIn (svn : Nat) (l : List Byte) : BootIn :=
  { eepromOk := true, pufSeed := some 0, recSig := 0, portUp := true, region := tBootDesc svn ++ l, bedOk := true
    record := { coreMap := [], diemask := 0xF, minsvn := 1, fwres := 0, bootPort := 0, regionAt := 0, key := 5 } }
def tBoots (st : BitVec 4) (b : BootIn) : State :=
  { State.reset with boot := { Boot.reset 1 0 with state := st, inp := some b, puf := some 0, idPub := 5 } }
theorem leNat_leBytes (n x : Nat) : leNat (leBytes n x) = x % 256 ^ n := by
  induction n generalizing x with
  | zero => simp [leBytes, leNat, Nat.mod_one]
  | succ n ih =>
    simp only [leBytes, leNat, ih, BitVec.toNat_ofNat]
    rw [show (2 : Nat) ^ 8 = 256 from rfl, Nat.pow_succ', Nat.mod_mul]
theorem leBytes_length (n x : Nat) : (leBytes n x).length = n := by induction n generalizing x <;> simp [leBytes, *]
/-- Its DIGEST field. -/
theorem tBootDesc_digest (svn : Nat) : leNat (((tBootDesc svn).drop 128).take 64) = (Config.sha512 (List.replicate 4096 0)).toNat := by
  unfold tBootDesc
  rw [List.drop_append_of_le_length (by simp [leBytes_length]), List.drop_append_of_le_length (by simp [leBytes_length]),
    List.drop_eq_nil_of_le (by simp [leBytes_length]), List.nil_append, List.take_append_of_le_length (by simp [leBytes_length]),
    List.take_of_length_le (by simp [leBytes_length]), leNat_leBytes]
  exact Nat.mod_eq_of_lt (by have := (Config.sha512 (List.replicate 4096 0)).isLt; norm_num at this ⊢; exact this)
theorem tBootIn_image (svn : Nat) (n : Nat) :
    ((tBootIn svn (List.replicate n 0)).region.drop 4096).take 4096 = List.replicate (min 4096 (n - 3840)) 0 := by
  have h : (tBootDesc svn).length = 256 := by simp [tBootDesc, leBytes_length]
  simp only [tBootIn, List.drop_append, h, List.drop_replicate, List.take_append, List.take_replicate]
  rw [List.drop_eq_nil_of_le (by omega)]; simp
theorem witness_BootStates :
    let field (svn lo n : Nat) : Nat := leNat (((tBootDesc svn).drop lo).take n)
    let b := tBootIn 1 (List.replicate 7936 0)
    State.reset.boot.fails ≠ 3 ∧ (Boot.reset 3 1).fails = 3 ∧ State.reset.boot.inp = none ∧ State.reset.coh.device = [] ∧ State.reset.health.unmapped = [] ∧
    (∀ st, (tBoots st b).boot.inp = some b ∧ (tBoots st b).boot.state = st) ∧
    b.eepromOk = true ∧ b.pufSeed = some 0 ∧ b.record.key = (tBoots 2 b).boot.idPub ∧ (0 : BitVec 256) ≠ 5 ∧ b.portUp = true ∧
    b.region.take 256 = tBootDesc 1 ∧ 256 ≤ b.region.length ∧
    (field 1 0 4 = 0x454E_4144 ∧ field 1 4 2 = 1 ∧ field 1 40 88 = 0 ∧ field 1 32 8 % 4 = 0 ∧ field 1 16 8 = 4096 ∧ field 1 8 8 = 4096 ∧ field 1 32 8 < 4096 ∧
      field 1 24 8 + 64 * 1 ≤ 4096) ∧
    ((b.region.drop 4096).take 4096 = List.replicate 4096 0 ∧ field 1 128 64 = (Config.sha512 (List.replicate 4096 0)).toNat) ∧
    (((tBootIn 1 []).region.drop 4096).take 4096).length ≠ 4096 ∧ (∃ y, (List.replicate 9 (0 : Byte))[0]? = some y) ∧
    b.record.minsvn.toNat ≤ field 1 6 2 ∧ field 0 6 2 < b.record.minsvn.toNat ∧ (tBoots 4 b).boot.puf = some 0 ∧ (tBoots 4 b).boot.meas.length = 8 ∧
    b.bedOk = true ∧ (tBoots 5 b).boot.trained = false ∧ ({ Boot.reset 1 0 with trained := true }).trained = true ∧
    ({ Boot.reset 1 0 with fwStart := 0 }).fwStart + 60000000000 ≤ 60000000000 ∧
    ({ Boot.reset 1 0 with pageDigests := [7] }).pageDigests[0]? = some 7 ∧ 2 ∈ ({ Boot.reset 1 0 with fwRunning := [2], state := 6 }).fwRunning ∧
    (tUp tS).firmware = true ∧ tS.firmware = false ∧ ({ Boot.reset 3 1 with state := 7 }).state = 7 ∧ (1 : Word).getLsbD 0 = true := by
  have hl : (tBootDesc 1).length = 256 := by simp [tBootDesc, leBytes_length]
  refine ⟨by decide, rfl, rfl, rfl, rfl, fun st => ⟨rfl, rfl⟩, rfl, rfl, rfl, by decide, rfl, ?_, ?_, ?_, ⟨?_, tBootDesc_digest 1⟩, ?_, ⟨_, rfl⟩, by decide +kernel,
    by decide +kernel, rfl, by decide +kernel, rfl, rfl, rfl, by decide +kernel, rfl, by decide +kernel, by decide +kernel, by decide +kernel, rfl, by decide⟩
  · show (tBootDesc 1 ++ _).take 256 = _; rw [List.take_append_of_le_length (by omega), List.take_of_length_le (by omega)]
  · show 256 ≤ (tBootDesc 1 ++ _).length; rw [List.length_append]; omega
  · refine ⟨?_, ?_, ?_, ?_, ?_, ?_, ?_, ?_⟩ <;> decide +kernel
  · exact tBootIn_image 1 7936
  · have h := tBootIn_image 1 0; simp only [List.replicate_zero] at h; rw [h]; simp

/-- HSEL of core 0: each file, the spindle held and granted, or not. -/
theorem witness_TailstockHart :
    let w (file : Nat) (hi : Nat) : Dword := BitVec.ofNat 64 (hi * 2 ^ 62 + file * 2 ^ 28 + 7 * 2 ^ 16 + 1)
    6 < (w 7 0).toNat / 2 ^ 28 % 2 ^ 4 ∧ (tSpin id).spindleAt 0 ((w 6 2).toNat / 2 ^ 32 % 2 ^ 8) = some (tBlock, tSpindle) ∧
    (w 6 2).toNat / 2 ^ 28 % 2 ^ 4 ≤ 6 ∧ (w 6 2).getLsbD 63 = true ∧ (∀ x ∈ tS.hsel, x.1 ≠ 0) ∧
    (∀ file, file < 7 → ({ tSpin id with hsel := [(0, w file 3)] } : State).hsel.find? (fun x => x.1 == 0) = some (0, w file 3) ∧
      (w file 3).getLsbD 62 = true ∧ (w file 3).toNat / 2 ^ 28 % 2 ^ 4 = file) ∧
    ((w 0 0).getLsbD 62 = false ∧ (w 0 0).getLsbD 63 = false) ∧ (3 : Dword).toNat % 4 = 3 ∧ (2 : Dword).toNat % 4 = 2 ∧
    (thr (tSpin id) 0 0 1).map (·.mid) = some none ∧ 7 < tSpindle.s.length ∧ (Safety.word tS 0 0 7 1).isSome = true ∧ (sreg tS 0 0 7).isSome = true := by
  refine ⟨?_, rfl, ?_, ?_, ?_, ?_, ?_, ?_, ?_, ?_, ?_, ?_, ?_⟩ <;> decide +kernel

theorem witness_DecodeEncode :
    encode (.shl (.v 2) .slot (.imm 2)) = some (.v, [0x2002C1C6, 2]) ∧ Instr.wf (.shl (.v 2) .slot (.imm 2)) = true := by decide +kernel

theorem witness_StepRunsDecoded :
    let s := { tS with run := { tRun with words := [0xA0010203] } }
    let ends := { tS with run := { tRun with words := [] } }
    let due := { tS with devtime := 1000000 }
    s.powered = true ∧ s.tick.due = none ∧ due.tick.due ≠ none ∧ ({ s with agenda := [.event .nop] } : State).tick.due = none ∧ s.agenda = [] ∧
    s.env.isSome = true ∧ s.tick.runStalled = false ∧ s.ibkHit s.run.here = none ∧ (∃ i, decodeInstr s.run.cls s.run.words = .ok (i, [])) ∧
    ends.tick.due = none ∧ ends.env.isSome = true ∧ ends.tick.runStalled = false ∧
    s.heldAt (.pand 1 2 3) tE = false ∧ (tOps (.asyncFence [] .no)).heldAt (.ld 6 plain .b32 (at_ (.s 1))) tE = true ∧
    tE.ranges (.pand 1 2 3) = [] ∧ Instr.lands (.pand 1 2 3) = false ∧ s.stirs s = false ∧
    (∀ b ∈ s.blocks, b.evicted = false) ∧ s.hsel = [] ∧ (∃ t, execMicro .readBootstat s = .next t) := by
  refine ⟨rfl, by decide +kernel, by decide +kernel, by decide +kernel, rfl, rfl, by decide +kernel, by decide +kernel, ⟨_, rfl⟩, by decide +kernel, rfl,
    by decide +kernel, by decide +kernel, by decide +kernel, rfl, rfl, by decide +kernel, by decide +kernel, rfl, ⟨_, rfl⟩⟩

theorem witness_MemoryFormKept :
    MemInv State.reset ∧ (match step State.reset with | .next _ => true | _ => false) = true :=
  ⟨⟨by decide +kernel, by decide +kernel⟩, by decide +kernel⟩

/-- A block that an eviction saves in a free record of its halted context, and one that is saved and comes back. -/
def tSmall (sp : Spindle) : Spindle := { sp with vpro := 1, vfull := 1, apro := 0, afull := 0, v := [vreg' (fun _ => 0)], threads := [probeThread] }
def tSaved (evicted : Bool) : Block :=
  { tBlock with spindles := [tSmall tSpindle], lsize := 0, lmem := [], acc := [], evicted := evicted, saveRec := if evicted then some 0 else none }
def tSave (evicted : Bool) : State :=
  { tS with run := Run.idle, mem := tMem ++ Memory.cells 0x40010000 (List.replicate 8 0)
            ctxs := [{ tCtx with halted := !evicted, desc := { tDesc with savebase := 0x10000, savecnt := 1 } }], blocks := [tSaved evicted] }
theorem witness_Scheduling_eviction :
    (tSave false).blk 0 = some (tSaved false) ∧ ((tSave false).blocks.filter (fun y => y.uid == 0)).length = 1 ∧
    (tSaved false).evicted = false ∧ (∀ y ∈ (tSave false).blocks, y.launch = 0 → y.gl = 0 → y = tSaved false) ∧
    ((tSave false).ctx 0).map (·.halted) = some true ∧ ((tSave false).evict 0).isSome = true := by
  refine ⟨rfl, by decide +kernel, rfl, by decide +kernel, rfl, by decide +kernel⟩
theorem witness_Scheduling_readmission :
    (tSave true).blk 0 = some (tSaved true) ∧ ((tSave true).blocks.filter (fun y => y.uid == 0)).length = 1 ∧ (tSave true).launch 0 = some tLaunch ∧
    (tSave true).wantsBack (tSaved true) = true ∧ (tSave true).dueBack 0 = false ∧ (∀ y ∈ (tSave true).blocks, y.launch = 0 → y.gl = 0 → y = tSaved true) ∧ 239 ∈ ((tSave true).gangsFor tLaunch.cls).flatMap gangCoresOf ∧
    ((tSave true).putBack tLaunch 0 239).isSome = true ∧ (tSave true).nextD = none ∧
    (let c : Ctx := { tCtx with desc := { tDesc with savebase := 0x10000, savecnt := 1 } }
     (tSave true).ctx 0 = some c ∧ (tSaved true).saveRec = some 0 ∧ (tSaved true).sp 0 = some (tSmall tSpindle) ∧
      (match (tSave true).readVirt none c (c.recAt 0 + BitVec.ofNat 64 (0x200 + 0x5600 * 0)) 0x5600 with | .ok _ => true | .error _ => false) = true) ∧
    -- one whose divert is due
    { probeThread with divertDue := true }.leaves = true := by
  refine ⟨rfl, ?_, rfl, ?_, ?_, ?_, ?_, ?_, ?_, ⟨rfl, rfl, rfl, ?_⟩, ?_⟩ <;> decide +kernel

/-- Bytes at their offsets, and 0 elsewhere. -/
def lookIn (l : List (Nat × List Byte)) (a : Nat) : Byte :=
  match l with
  | [] => 0
  | p :: r => if p.1 ≤ a ∧ a < p.1 + p.2.length then (p.2[a - p.1]?).getD 0 else lookIn r a
theorem lookIn_eq (l : List (Nat × List Byte)) (h : l.Pairwise (fun p q => p.1 + p.2.length ≤ q.1)) :
    ∀ p ∈ l, ∀ j y, p.2[j]? = some y → lookIn l (p.1 + j) = y := by
  induction l with
  | nil => simp
  | cons q r ih =>
    rw [List.pairwise_cons] at h
    intro p hp j y hy
    have hj : j < p.2.length := (List.getElem?_eq_some_iff.mp hy).1
    rcases List.mem_cons.mp hp with rfl | hp
    · simp [lookIn, hj, (List.getElem?_eq_some_iff.mp hy).2]
    · have := h.1 p hp
      have hn : ¬(q.1 ≤ p.1 + j ∧ p.1 + j < q.1 + q.2.length) := by omega
      simp [lookIn, hn, ih h.2 p hp j y hy]
theorem lookIn_lays (l : List (Nat × List Byte)) (N : Nat) (h : l.Pairwise (fun p q => p.1 + p.2.length ≤ q.1))
    (hN : ∀ p ∈ l, p.1 + p.2.length ≤ N) :
    ∀ p ∈ l, ∀ j y, p.2[j]? = some y → ((List.range N).map (lookIn l))[p.1 + j]? = some y := by
  intro p hp j y hy
  have hj : j < p.2.length := (List.getElem?_eq_some_iff.mp hy).1
  have := hN p hp
  simp [List.getElem?_range (show p.1 + j < N by omega), lookIn_eq l h p hp j y hy]
theorem witness_Scheduling_record :
    (∃ d : List Byte, ∀ p ∈ tSpindle.image, ∀ j y, p.2[j]? = some y → d[p.1 + j]? = some y) ∧
    (∃ h : List Byte, ∀ p ∈ (0, tS.headImage tBlock) :: tBlock.image tCtx, ∀ j y, p.2[j]? = some y → h[p.1 + j]? = some y) ∧
    tSpindle.v.length ≤ 128 ∧ tSpindle.s.length = 64 ∧ tSpindle.bars.length = 8 ∧ (∀ r ∈ tSpindle.v, r.vals.length = 32) ∧
    tSpindle.threads.length ≤ 32 ∧ (∀ y ∈ tSpindle.threads, y.rsd < 256 ∧ y.rs.length ≤ 8 ∧ y.mid = none) ∧
    (∃ r, tSpindle.v[3]? = some r) ∧ 1 < tBlock.lsize / 128 := by
  refine ⟨⟨_, lookIn_lays _ 0x5600 ?_ ?_⟩, ⟨_, lookIn_lays _ (2 ^ 60) ?_ ?_⟩, ?_, ?_, ?_, ?_, ?_, ?_, ⟨_, rfl⟩, ?_⟩ <;> decide +kernel


/-- R145, R151, R331: the later store of another thread is performed ahead of the first, whose byte stands in the end; not so
behind a load of the spindle. -/
theorem test_local_stores_swap :
    let late (read : Bool) : State := { tS with blocks := [{ tBlock with late := [{ m := 0, slot := 0, addr := 5, data := [0], ins := 1, read := read },
      { m := 0, slot := 1, addr := 5, data := [9], ins := 2 }] }] }
    localByte (((late false).swapStl 0 0).landStl 0 0) 0 5 = some 0 ∧ localByte ((late false).landStl 0 0) 0 5 = some 9 ∧
      localByte (((late true).swapStl 0 0).landStl 0 0) 0 5 = some 9 := by decide +kernel

end Sys2Proof.Tests
end

section
/-! PROOF. The arithmetic of shape tags (R51, R52). -/

namespace Sys2Proof.Safety

open Sys2Proof.Machine

/-- The tag describes the values `f` gives in the slots `ks` (R51). -/
def Fits (ks : List Nat) (tg : Tag) (f : Nat → Word) : Prop :=
  match tg with
  | .u => ∀ j ∈ ks, ∀ k ∈ ks, f j = f k
  | .a base st => st ≠ 0 ∧ ∀ k ∈ ks, f k = base + BitVec.ofNat 32 k * st
  | .g => True

/-- The values are affine in the slot, with a stride that may be 0. -/
def AffineOn (ks : List Nat) (p : Word × Word) (f : Nat → Word) : Prop :=
  ∀ k ∈ ks, f k = p.1 + BitVec.ofNat 32 k * p.2

variable {e : Env} {ks : List Nat} {a b c : Sel}

/-- An affine shape computed for a result describes it (R52: U where the stride is 0). -/
theorem fits_affTag {base st : Word} {f : Nat → Word} (h : AffineOn ks (base, st) f) : Fits ks (affTag base st) f := by
  unfold affTag
  by_cases hs : st = 0
  · subst hs
    intro j hj k hk
    rw [h j hj, h k hk]
    simp
  · rw [if_neg (by simpa using hs)]
    exact ⟨hs, h⟩

/-- The affine shape of an operand describes it where its tag does. -/
theorem affineOn_of_fits (hlow : e.low ∈ ks) (h : Fits ks (e.tag false a) (e.read32 a)) {p : Word × Word}
    (hp : e.affine a = some p) : AffineOn ks p (e.read32 a) := by
  unfold Env.affine at hp
  intro k hk
  split at hp <;> rename_i ht <;> rw [ht] at h
  · cases hp
    simpa using h k hk _ hlow
  · cases hp
    exact h.2 k hk
  · cases hp

/-- Operands tagged U hold one value (R51). -/
theorem const_of_tag_u (h : Fits ks (e.tag false a) (e.read32 a)) (hu : e.tag false a = .u) {j k : Nat} (hj : j ∈ ks) (hk : k ∈ ks) :
    e.read32 a j = e.read32 a k := by
  rw [hu] at h
  exact h j hj k hk

section Shapes
variable (hlow : e.low ∈ ks) (ha : Fits ks (e.tag false a) (e.read32 a))
include hlow ha

theorem fits_tagMov : Fits ks (e.tagMov a) (e.read32 a) := by
  unfold Env.tagMov
  cases hp : e.affine a with
  | none => trivial
  | some p => exact fits_affTag (affineOn_of_fits hlow ha hp)

theorem fits_tagNeg : Fits ks (e.tagNeg a) (fun k => -e.read32 a k) := by
  unfold Env.tagNeg
  cases hp : e.affine a with
  | none => trivial
  | some p =>
    refine fits_affTag (fun k hk => ?_)
    rw [affineOn_of_fits hlow ha hp k hk]
    ring

theorem fits_tagNot : Fits ks (e.tagNot a) (fun k => ~~~(e.read32 a k)) := by
  unfold Env.tagNot
  cases hp : e.affine a with
  | none => trivial
  | some p =>
    refine fits_affTag (fun k hk => ?_)
    rw [affineOn_of_fits hlow ha hp k hk, BitVec.not_eq_neg_add]
    simp only [BitVec.ofNat_eq_ofNat]
    ring

variable (hb : Fits ks (e.tag false b) (e.read32 b))
include hb

theorem fits_tagAdd (sub : Bool) : Fits ks (e.tagAdd sub a b)
    (fun k => if sub then e.read32 a k - e.read32 b k else e.read32 a k + e.read32 b k) := by
  unfold Env.tagAdd
  cases hp : e.affine a with
  | none => trivial
  | some p =>
    cases hq : e.affine b with
    | none => trivial
    | some q =>
      have hx := affineOn_of_fits hlow ha hp
      have hy := affineOn_of_fits hlow hb hq
      cases sub <;> refine fits_affTag (fun k hk => ?_) <;> simp only [hx k hk, hy k hk, if_true, Bool.false_eq_true, if_false] <;> ring

/-- The shape of a product, one factor of which is the same in every slot. -/
theorem affineOn_mulShape {p : Word × Word} (hp : e.mulShape a b = some p) :
    AffineOn ks p (fun k => e.read32 a k * e.read32 b k) := by
  unfold Env.mulShape at hp
  split at hp
  · rename_i b1 s1 b2 s2 h1 h2
    split at hp
    · rename_i hz
      cases hp
      intro k hk
      simp only [affineOn_of_fits hlow ha h1 k hk, affineOn_of_fits hlow hb h2 k hk]
      rcases (by simpa using hz : s1 = 0 ∨ s2 = 0) with rfl | rfl <;> ring
    · cases hp
  · cases hp

theorem fits_tagMul : Fits ks (e.tagMul a b) (fun k => e.read32 a k * e.read32 b k) := by
  unfold Env.tagMul
  cases hp : e.mulShape a b with
  | none => trivial
  | some p => exact fits_affTag (affineOn_mulShape hlow ha hb hp)

/-- R209: a shift by the same amount in every slot. -/
theorem fits_tagShl : Fits ks (e.tagShl a b) (fun k => e.read32 a k <<< (e.read32 b k).toNat) := by
  unfold Env.tagShl
  split
  · rename_i b1 s1 h1 hu
    dsimp only
    split
    · refine fits_affTag (fun k hk => ?_)
      rw [const_of_tag_u hb hu hk hlow, affineOn_of_fits hlow ha h1 k hk]
      simp only [BitVec.shiftLeft_eq_mul_twoPow]
      ring
    · rename_i hn
      have zero : ∀ k ∈ ks, e.read32 a k <<< (e.read32 b k).toNat = 0 := fun k hk => by
        rw [const_of_tag_u hb hu hk hlow]
        exact BitVec.shiftLeft_eq_zero (by omega)
      intro j hj k hk
      exact (zero j hj).trans (zero k hk).symm
  · trivial

variable (hc : Fits ks (e.tag false c) (e.read32 c))
include hc

theorem fits_tagMad : Fits ks (e.tagMad a b c) (fun k => e.read32 a k * e.read32 b k + e.read32 c k) := by
  unfold Env.tagMad
  split
  · rename_i hu
    simp only [List.all_cons, List.all_nil, Bool.and_true, Bool.and_eq_true, beq_iff_eq] at hu
    obtain ⟨hua, hub, huc⟩ := hu
    intro j hj k hk
    simp only [const_of_tag_u ha hua hj hk, const_of_tag_u hb hub hj hk, const_of_tag_u hc huc hj hk]
  · split
    · rename_i h1 h2
      refine fits_affTag (fun k hk => ?_)
      simp only [affineOn_mulShape hlow ha hb h1 k hk, affineOn_of_fits hlow hc h2 k hk]
      ring
    · trivial

omit hlow in
/-- The tag of every other operation: U where every source is the same in all slots. -/
theorem fits_tagOf : Fits ks (e.tagOf false [a, b, c]) (fun k => e.read32 a k * e.read32 b k * e.read32 c k) := by
  unfold Env.tagOf tagAll
  split
  · rename_i hu
    simp only [List.map_cons, List.map_nil, List.all_cons, List.all_nil, Bool.and_true, Bool.and_eq_true, beq_iff_eq] at hu
    obtain ⟨hua, hub, huc⟩ := hu
    intro j hj k hk
    simp only [const_of_tag_u ha hua hj hk, const_of_tag_u hb hub hj hk, const_of_tag_u hc huc hj hk]
  · trivial

end Shapes

/-- Settles O3: an operand's affine shape describes it, and each rule computes the shape of the result from those. -/
theorem shapeTagsDescribe : Obligations.ShapeTagsDescribe := by
  intro e ks a b c hlow fits h
  have ha : Fits ks (e.tag false a) (e.read32 a) := h a (by simp)
  have hb : Fits ks (e.tag false b) (e.read32 b) := h b (by simp)
  have hc : Fits ks (e.tag false c) (e.read32 c) := h c (by simp)
  exact ⟨fits_tagAdd hlow ha hb false, fits_tagAdd hlow ha hb true, fits_tagNeg hlow ha, fits_tagNot hlow ha, fits_tagMov hlow ha,
    fits_tagMul hlow ha hb, fits_tagMad hlow ha hb hc, fits_tagShl hlow ha hb, fits_tagOf ha hb hc⟩

end Sys2Proof.Safety
end

section
/-! PROOF. Floating-point results, comparisons and conversions (R218 to R231, R96). -/

namespace Sys2Proof.Safety

open Sys2Proof Sys2Proof.Machine

variable {s : State} {e : Env}

/-- A V-class result is written, and the exceptions of the executing slots are logged (R96): where none is raised,
nothing is logged. -/
def LaneDone (s : State) (e : Env) (d : VDst) (wide : Bool) (f : Nat → Dword × Exc) (tg : Tag) (o : Out) : Prop :=
  ∃ t0 t1, o = .next t1 ∧ VWrite s t0 e d wide (fun k => (f k).1) tg ∧ Traffic t0 t1 ∧
    ((∀ k ∈ e.r.exec, (f k).2 = 0) → t1 = t0)

theorem putVX_done (h : s.env = some e) (d : VDst) (wide : Bool) (f : Nat → Dword × Exc) (tg : Tag) :
    LaneDone s e d wide f tg (.next (s.putVX e d wide f tg)) :=
  ⟨_, _, rfl, putV_spec h d wide _ tg, traffic_logSlots _ _ _, logSlots_zero _ _ _⟩

/-- R202: an operation on a type that is not packed. -/
theorem each_scalar {t : FType} (ht : ¬t.pack = true) (g : FFmt → Nat → Nat → Nat → Nat × Exc) (x y z : Dword) :
    t.each g x y z = (BitVec.ofNat 64 (g t.fmt x.toNat y.toNat z.toNat).1, (g t.fmt x.toNat y.toNat z.toNat).2) := by
  unfold FType.each
  rw [if_neg ht]

/-- R202, R218: an operation on both halves. -/
theorem each_packed {t : FType} (ht : t.pack = true) (g : FFmt → Nat → Nat → Nat → Nat × Exc) (x y z : Dword) :
    t.each g x y z =
      (let l := g t.fmt (x.toNat % 2 ^ 16) (y.toNat % 2 ^ 16) (z.toNat % 2 ^ 16)
       let h := g t.fmt (x.toNat / 2 ^ 16 % 2 ^ 16) (y.toNat / 2 ^ 16 % 2 ^ 16) (z.toNat / 2 ^ 16 % 2 ^ 16)
       (BitVec.ofNat 64 (l.1 + 2 ^ 16 * h.1), l.2 ||| h.2)) := by
  unfold FType.each
  rw [if_pos ht]
  simp only [Nat.mul_zero, Nat.pow_zero, Nat.div_one, Nat.mul_one]

/-- The slots' results are those of `g` on each element of the operands (R202). -/
def EachElement (e : Env) (t : FType) (a b c : Sel) (g : FFmt → Nat → Nat → Nat → Nat × Exc) (f : Nat → Dword × Exc) : Prop :=
  ∀ k,
    let x := (e.read t.wide a k).toNat
    let y := (e.read t.wide b k).toNat
    let z := (e.read t.wide c k).toNat
    let F := t.fmt
    if t.pack then
      let l := g F (x % 2 ^ 16) (y % 2 ^ 16) (z % 2 ^ 16)
      let h := g F (x / 2 ^ 16 % 2 ^ 16) (y / 2 ^ 16 % 2 ^ 16) (z / 2 ^ 16 % 2 ^ 16)
      f k = (BitVec.ofNat 64 (l.1 + 2 ^ 16 * h.1), l.2 ||| h.2)
    else f k = (BitVec.ofNat 64 (g F x y z).1, (g F x y z).2)

theorem eachElement_each (e : Env) (t : FType) (a b c : Sel) (g : FFmt → Nat → Nat → Nat → Nat × Exc) :
    EachElement e t a b c g (fun k => t.each g (e.read t.wide a k) (e.read t.wide b k) (e.read t.wide c k)) := by
  intro k
  dsimp only
  split
  · rename_i ht
    exact each_packed ht g _ _ _
  · rename_i ht
    exact each_scalar ht g _ _ _

/-- What a floating instruction does: `laneF`, where `b'` and `c'` stand in for operands that the operation ignores. -/
theorem laneF_done (h : s.env = some e) {d : VDst} {t : FType} {a b c b' c' : Sel} {g g' : FFmt → Nat → Nat → Nat → Nat × Exc}
    {srcs : List Sel}
    (hg : ∀ x : Sel → Dword, t.each g' (x a) (x b') (x c') = t.each g (x a) (x b) (x c)) :
    ∃ (t0 t1 : State) (f : Nat → Dword × Exc), laneF d t a b' c' g' srcs s = .next t1 ∧
      VWrite s t0 e d t.wide (fun k => (f k).1) (e.tagOf t.wide srcs) ∧
      Traffic t0 t1 ∧ ((∀ k ∈ e.r.exec, (f k).2 = 0) → t1 = t0) ∧ EachElement e t a b c g f := by
  have hf : (fun k => t.each g' (e.read t.wide a k) (e.read t.wide b' k) (e.read t.wide c' k)) =
      fun k => t.each g (e.read t.wide a k) (e.read t.wide b k) (e.read t.wide c k) :=
    funext fun k => hg (fun x => e.read t.wide x k)
  obtain ⟨t0, t1, ho, hw, ht, hz⟩ := putVX_done h d t.wide _ (e.tagOf t.wide srcs)
  refine ⟨t0, t1, _, ?_, hw, ht, hz, eachElement_each e t a b c g⟩
  rw [laneF, within_env h, hf, ho]

/-- R221: `fneg` adds the weight of the sign bit. -/
theorem top_double (F : FFmt) : 2 * F.top = 2 ^ (F.fbits + F.ebits + 1) := by
  rw [FFmt.top, Nat.pow_succ']

/-- Settles O6: each instruction is `laneF` of its arithmetic. -/
theorem floatResults : Obligations.FloatResults := by
  intro s e d m t ftz a b c h q hq
  simp only [List.mem_cons, List.not_mem_nil, or_false] at hq
  rcases hq with rfl | rfl | rfl | rfl | rfl | rfl | rfl | rfl | rfl | rfl | rfl | rfl | rfl
  iterate 9 exact laneF_done h (fun _ => rfl)
  · exact laneF_done (g' := fun F x _ _ => ((x + F.top) % (2 * F.top), 0)) h (fun _ => by simp only [top_double]; rfl)
  all_goals exact laneF_done h (fun _ => rfl)

/-- R222: a comparison writes its predicate and logs its exceptions. -/
theorem execFcmp_done (h : s.env = some e) (p : BitVec 5) (fc : FCond) (t : FType) (ftz : Bool) (a b : Sel) :
    let r (k : Nat) := t.fmt.cmp fc ftz (e.read t.wide a k).toNat (e.read t.wide b k).toNat
    ∃ t0 t1, execFcmp p fc t ftz a b s = .next t1 ∧ PWrite s t0 e p (fun k => (r k).1) ∧ Traffic t0 t1 ∧
      ((∀ k ∈ e.r.exec, (r k).2 = 0) → t1 = t0) :=
  ⟨_, _, within_env h _, putP_spec h p _, traffic_logSlots _ _ _, logSlots_zero _ _ _⟩

/-- R230: the two results of `cvtp` in one word, where both are 16 bits wide. -/
theorem packTwo_half {m : CMod} (hm : (m.dst.width == 16) = true) (part : BitVec 2) (old : Word) (x y : Nat) :
    packTwo m part old x y = BitVec.ofNat 16 y ++ BitVec.ofNat 16 x := by
  unfold packTwo
  rw [if_pos hm]

/-- R230: the bytes that the byte form of `cvtp` writes and keeps. -/
theorem packTwo_kept {m : CMod} (hm : ¬(m.dst.width == 16) = true) (part : BitVec 2) (old : Word) (x y : Nat) :
    packTwo m part old x y = if part == 0 then old.extractLsb' 16 16 ++ BitVec.ofNat 8 y ++ BitVec.ofNat 8 x
      else BitVec.ofNat 8 y ++ BitVec.ofNat 8 x ++ old.extractLsb' 0 16 := by
  unfold packTwo
  rw [if_neg hm]
  dsimp only
  split
  · rw [BitVec.append_assoc]; rfl
  · rfl

/-- R230: the half of the word that the byte form of `cvtp` writes. -/
theorem packTwo_byte {m : CMod} (hm : ¬(m.dst.width == 16) = true) (part : BitVec 2) (old : Word) (x y : Nat) :
    (packTwo m part old x y).extractLsb' (if part == 0 then 0 else 16) 16 = BitVec.ofNat 8 y ++ BitVec.ofNat 8 x := by
  unfold packTwo
  rw [if_neg hm]
  dsimp only
  split
  · exact BitVec.extractLsb'_append_eq_right
  · exact BitVec.extractLsb'_append_eq_left

/-- R230: `cvtp` into a register. -/
theorem execCvtp_reg (h : s.env = some e) (n : BitVec 7) (m : CMod) (part : BitVec 2) (a b : Sel) :
    let x (k : Nat) := convert m (e.read false a k).toNat
    let y (k : Nat) := convert m (e.read false b k).toNat
    let old : List Tag := if m.dst.width == 8 then [e.sp.vtag n.toNat] else []
    LaneDone s e (.v n) false
      (fun k => ((packTwo m part (e.sp.vword n.toNat k) (x k).1 (y k).1).setWidth 64, (x k).2 ||| (y k).2))
      (tagAll (old ++ [e.tag false a, e.tag false b])) (execCvtp (.v n) m part a b s) := by
  unfold execCvtp
  rw [within_env h]
  cases hw : m.dst.width == 8
  · exact putVX_done h _ _ _ _
  · exact putVX_done h _ _ _ _

/-- R230, log entry 22: `cvtp` with the latch as its only destination; the bytes kept are free values. -/
theorem execCvtp_latch (h : s.env = some e) (m : CMod) (part : BitVec 2) (a b : Sel) :
    let x (k : Nat) := convert m (e.read false a k).toNat
    let y (k : Nat) := convert m (e.read false b k).toNat
    LaneDone { s with freeCtr := if m.dst.width == 8 then s.freeCtr + 32 else s.freeCtr } e .latch false
      (fun k => ((packTwo m part (lo32 (Config.freeWord (s.freeCtr + k))) (x k).1 (y k).1).setWidth 64, (x k).2 ||| (y k).2))
      (if m.dst.width == 8 then .g else tagAll [e.tag false a, e.tag false b]) (execCvtp .latch m part a b s) := by
  have hf (n : Nat) : State.env { s with freeCtr := n } = some e := h
  unfold execCvtp
  rw [within_env h]
  cases hw : m.dst.width == 8
  · exact putVX_done (hf _) _ _ _ _
  · exact putVX_done (hf _) _ _ _ _

/-- The word of a 32-bit result. -/
theorem lo32_setWidth (w : Word) : lo32 (w.setWidth 64) = w := by
  ext i hi
  simp [lo32, hi, Nat.lt_trans hi]

/-- Settles O7: each instruction is one write of its results, and the log of their exceptions. -/
theorem conversionResults : Obligations.ConversionResults := by
  intro s e d m ty ftz cm part p fc a b h
  refine ⟨execFcmp_done h p fc ty ftz a b, ?_, ?_, ?_⟩
  · intro q hq
    simp only [List.mem_cons, List.not_mem_nil, or_false] at hq
    rcases hq with rfl | rfl | rfl | rfl
    all_goals
      obtain ⟨t0, t1, ho, hw, ht, hz⟩ := putVX_done h d _ _ _
      exact ⟨t0, t1, (within_env h _).trans ho, hw, ht, hz⟩
  · intro n
    obtain ⟨t0, t1, ho, hw, ht, hz⟩ := execCvtp_reg h n cm part a b
    refine ⟨t0, t1, _, ho, hw, ht, hz, fun k => ?_⟩
    simp only [lo32_setWidth]
    split
    · rename_i hc
      exact packTwo_half hc part _ _ _
    · rename_i hc
      exact packTwo_kept hc part _ _ _
  · obtain ⟨t0, t1, ho, hw, ht, hz⟩ := execCvtp_latch h cm part a b
    refine ⟨t0, t1, _, ho, hw, ht, hz, fun k => ?_⟩
    simp only [lo32_setWidth]
    split
    · rename_i hc
      exact packTwo_half hc part _ _ _
    · rename_i hc
      exact packTwo_byte hc part _ _ _

end Sys2Proof.Safety
end

section
/-! PROOF. The special functions and the divider issue (R50, R52, R101, R288, R291, R292). -/

namespace Sys2Proof.Safety

open Sys2Proof Sys2Proof.Machine

variable {s : State} {e : Env}

/-- A special function: one operation for each executing slot, and the log of the exceptions. -/
theorem special_done (h : s.env = some e) (d : BitVec 7) (wide : Bool) (f : Nat → Nat × Exc) :
    ∃ t0 t1, s.special e d wide f = t1 ∧
      Issued s t0 e d.toNat (if wide then 2 else 1) (fun k =>
        if wide then [BitVec.ofNat 32 (f k).1, BitVec.ofNat 32 ((f k).1 / 2 ^ 32)] else [BitVec.ofNat 32 (f k).1]) ∧
      Traffic t0 t1 ∧ ((∀ k ∈ e.r.exec, (f k).2 = 0) → t1 = t0) :=
  ⟨_, _, rfl, issueRegs_spec h _ _ _, traffic_logSlots _ _ _, logSlots_zero _ _ _⟩

/-- A word read as an integer of the divider (R292). -/
def divInt (uns : Bool) (w : Word) : Int := if uns then w.toNat else w.toInt

/-- The law of division, cut toward zero (R101). -/
theorem tdiv_law {x y : Int} (hy : y ≠ 0) :
    x = x.tdiv y * y + x.tmod y ∧ (x.tmod y).natAbs < y.natAbs ∧ (x.tmod y ≠ 0 → (0 < x.tmod y ↔ 0 < x)) := by
  refine ⟨(Int.tdiv_mul_add_tmod x y).symm, ?_, fun hr => ?_⟩
  · rw [Int.natAbs_tmod]
    exact Nat.mod_lt _ (Int.natAbs_pos.mpr hy)
  · rcases lt_or_ge 0 x with hx | hx
    · have := Int.tmod_nonneg y hx.le
      omega
    · have := Int.tmod_nonneg y (neg_nonneg.mpr hx)
      rw [Int.neg_tmod] at this
      omega

/-- R101: the divider's words are the integers' quotient and remainder. -/
theorem intDiv_words (uns : Bool) {a b : Word} (hb : b ≠ 0) :
    intDiv uns a b = (BitVec.ofInt 32 ((divInt uns a).tdiv (divInt uns b)), BitVec.ofInt 32 ((divInt uns a).tmod (divInt uns b))) := by
  have hz : (b == 0) = false := by simpa using hb
  cases uns <;> simp only [intDiv, hz, Bool.false_eq_true, if_false, if_true, divInt, Prod.mk.injEq]
  · refine ⟨BitVec.toInt_inj.mp ?_, ?_⟩
    · rw [BitVec.toInt_sdiv, BitVec.toInt_ofInt]
    · rw [← BitVec.toInt_srem, BitVec.ofInt_toInt]
  · rw [← Int.ofNat_tdiv, ← Int.ofNat_tmod, BitVec.ofInt_natCast, BitVec.ofInt_natCast, ← BitVec.toNat_udiv, ← BitVec.toNat_umod]
    simp only [BitVec.ofNat_toNat, BitVec.setWidth_eq, and_self]

/-- R292: the results of a division by 0. -/
theorem intDiv_zero (uns : Bool) (a : Word) :
    intDiv uns a 0 = (BitVec.ofInt 32 (if uns = true ∨ 0 ≤ divInt uns a then -1 else 1), BitVec.ofInt 32 (divInt uns a)) := by
  cases uns
  · by_cases ha : a.toInt < 0
    · simp [intDiv, divInt, BitVec.slt_iff_toInt_lt, ha, not_le.mpr ha]
    · simp [intDiv, divInt, BitVec.slt_iff_toInt_lt, ha, not_lt.mp ha]
  · simp [intDiv, divInt]

/-- R101, R292: the words of the divider obey the law of division, and the table where the divisor is 0. -/
theorem intDiv_law (uns : Bool) (a b : Word) :
    ∃ q r : Int, [(intDiv uns a b).1, (intDiv uns a b).2] = [BitVec.ofInt 32 q, BitVec.ofInt 32 r] ∧
      (divInt uns b ≠ 0 → divInt uns a = q * divInt uns b + r ∧ r.natAbs < (divInt uns b).natAbs ∧
        (r ≠ 0 → (0 < r ↔ 0 < divInt uns a))) ∧
      (divInt uns b = 0 → r = divInt uns a ∧ q = if uns = true ∨ 0 ≤ divInt uns a then -1 else 1) := by
  have hb0 : divInt uns b = 0 ↔ b = 0 := by
    cases uns
    · exact BitVec.toInt_inj (y := 0)
    · simp [divInt, BitVec.toNat_eq]
  by_cases hb : b = 0
  · subst hb
    rw [intDiv_zero]
    exact ⟨_, _, rfl, fun h => absurd (hb0.mpr rfl) h, fun _ => ⟨rfl, rfl⟩⟩
  · rw [intDiv_words uns hb]
    exact ⟨_, _, rfl, tdiv_law, fun h => absurd (hb0.mp h) hb⟩

/-- Settles O11: the special functions are `special` of their functions; the divider issues `intDiv`. -/
theorem specialUnitsIssue : Obligations.SpecialUnitsIssue := by
  refine ⟨?_, ?_⟩
  · intro s e d f64 ftz cr a b h
    dsimp only
    intro q hq
    simp only [List.mem_cons, List.not_mem_nil, or_false] at hq
    rcases hq with rfl | rfl | rfl | rfl | rfl | rfl | rfl | rfl | rfl | rfl
    all_goals
      obtain ⟨t0, t1, rfl, hi, ht, hz⟩ := special_done h d _ _
      exact ⟨t0, _, within_env h _, hi, ht, hz⟩
  · intro s e d uns a b h
    exact ⟨_, _, within_env h _, issueRegs_spec h _ _ _, fun k => intDiv_law uns _ _⟩

end Sys2Proof.Safety
end

section
/-! PROOF. Tiles are defined and cleared (R65, R81, R84, R296, R297). -/

namespace Sys2Proof.Safety

open Sys2Proof Sys2Proof.Machine

variable {s : State} {e : Env}

/-- An accumulator word after consecutive words were written: one of those. -/
theorem accGet_accPut_in (b : Block) {base n : Nat} {l : List (BitVec 256 × BitVec 8)} {x : BitVec 256 × BitVec 8}
    (hb : base ≤ n) (hx : l[n - base]? = some x) : (b.accPut base l).accGet n = x := by
  have hf : (l.zipIdx.map (fun x => ({ n := base + x.2, w := x.1.1, carry := x.1.2 } : AccWord))).find? (fun y => y.n == n) =
      some { n := n, w := x.1, carry := x.2 } := by
    rw [List.find?_eq_some_iff_getElem]
    obtain ⟨hl, rfl⟩ := List.getElem?_eq_some_iff.mp hx
    refine ⟨by simp, n - base, by simpa using hl, ?_, fun j hj => ?_⟩
    · simp [Nat.add_sub_cancel' hb]
    · simp only [List.getElem_map, List.getElem_zipIdx, Nat.zero_add, Bool.not_eq_true', beq_eq_false_iff_ne]
      omega
  simp [Block.accGet, Block.accPut, List.find?_append, hf]

/-- One that was not written. -/
theorem accGet_accPut_out (b : Block) {base n : Nat} {l : List (BitVec 256 × BitVec 8)} (hn : ¬(base ≤ n ∧ n < base + l.length)) :
    (b.accPut base l).accGet n = b.accGet n := by
  have hf : (l.zipIdx.map (fun x => ({ n := base + x.2, w := x.1.1, carry := x.1.2 } : AccWord))).find? (fun y => y.n == n) = none := by
    rw [List.find?_eq_none]
    intro y hy
    obtain ⟨i, hi, rfl⟩ := List.getElem_of_mem hy
    simp only [List.length_map, List.length_zipIdx] at hi
    simp only [List.getElem_map, List.getElem_zipIdx, Nat.zero_add, beq_iff_eq]
    omega
  have hg : (b.acc.filter (fun x => !(base ≤ x.n && x.n < base + l.length))).find? (fun y => y.n == n) = b.acc.find? (fun y => y.n == n) := by
    rw [List.find?_filter]
    congr 1
    funext y
    by_cases hy : y.n = n
    · subst hy
      simpa [or_iff_not_imp_left] using hn
    · simp [hy]
  simp only [Block.accGet, Block.accPut, List.find?_append, hf, hg, Option.none_or]

/-- The words written by `zdef` and `zclr` (R296, R297): one for each of the tile. -/
theorem accHeldAll_iff (b : Block) (base n : Nat) : b.accHeldAll base n = true ↔ ∀ i, i < n → b.accHeld (base + i) = true := by
  simp [Block.accHeldAll]

/-- A block after an update of the block of the clause in progress. -/
theorem blk_updBlk_env (h : s.env = some e) (f : Block → Block) (hf : ∀ b, (f b).uid = b.uid) :
    (s.updBlk e.b.uid f).blk e.b.uid = some (f e.b) ∧ ∀ u, u ≠ e.b.uid → (s.updBlk e.b.uid f).blk u = s.blk u := by
  obtain ⟨-, hb, -, -⟩ := env_found h
  refine ⟨by rw [State.blk_updBlk _ _ _ _ hf, hb]; simp, fun u hu => ?_⟩
  rw [State.blk_updBlk _ _ _ _ hf]
  cases hx : s.blk u with
  | none => rfl
  | some x => simp [State.blk_uid hx, hu]

/-- R296: where a tile may be defined. -/
def TileFits (b : Block) (ba r c : Nat) : Prop :=
  ba % 64 = 0 ∧ 1 ≤ r ∧ r ≤ 64 ∧ 1 ≤ c ∧ c ≤ 1024 ∧ ∀ i, i < r * c → b.accHeld (ba + i) = true

theorem tileFits_iff (b : Block) (ba r c : Nat) :
    (ba % 64 == 0 && decide (1 ≤ r) && decide (r ≤ 64) && decide (1 ≤ c) && decide (c ≤ 1024) && b.accHeldAll ba (r * c)) = true ↔
      TileFits b ba r c := by
  simp only [Bool.and_eq_true, beq_iff_eq, decide_eq_true_eq, accHeldAll_iff, TileFits, and_assoc]

/-- The block after `zdef` (R296). -/
def zdefBlock (s : State) (z : BitVec 4) (clr : Bool) (ba r c : Nat) (b : Block) : Block :=
  let t : Tile := { uid := s.nextId, base := ba, rows := r, cols := c, nf := false, ovf := false }
  { (b.accPut ba ((b.accAll t).map (fun w => (if clr then 0 else w.1, 0)))) with
    tiles := b.tiles.set z.toNat (some t)
    mmas := b.mmas.filter (fun x => x.token.isSome || s.ops.any (fun o => o.id == x.op) || !rangesMeet ba (r * c) x.base x.size) }

/-- The words of a tile defined anew: cleared, or kept with a carry count of 0. -/
theorem zdefBlock_accGet (s : State) (z : BitVec 4) (clr : Bool) (ba r c : Nat) (b : Block) (n : Nat) :
    (zdefBlock s z clr ba r c b).accGet n =
      if ba ≤ n ∧ n < ba + r * c then (if clr then 0 else (b.accGet n).1, 0) else b.accGet n := by
  split
  · rename_i hn
    have hl : n - ba < r * c := by omega
    exact accGet_accPut_in b hn.1 (by simp [Block.accAll, Tile.size, hl, Nat.add_sub_cancel' hn.1])
  · rename_i hn
    exact accGet_accPut_out b (by simpa [Block.accAll, Tile.size] using hn)

/-- `zdef` changes nothing else of its block. -/
theorem zdefBlock_else (s : State) (z : BitVec 4) (clr : Bool) (ba r c : Nat) (b : Block) :
    { zdefBlock s z clr ba r c b with acc := b.acc, tiles := b.tiles, mmas := b.mmas } = b := by
  cases b
  rfl

theorem execZdef_ok (h : s.env = some e) {z : BitVec 4} {clr : Bool} {base rows cols : Sel}
    (hf : TileFits e.b (e.readU base).toNat (e.readU rows).toNat (e.readU cols).toNat) :
    execZdef z clr base rows cols s = .next (({ s with nextId := s.nextId + 1 } : State).updBlk e.b.uid
      (zdefBlock s z clr (e.readU base).toNat (e.readU rows).toNat (e.readU cols).toNat)) := by
  unfold execZdef
  rw [within_env h]
  dsimp only
  rw [if_pos ((tileFits_iff _ _ _ _).mpr hf)]
  rfl

theorem execZdef_trap (h : s.env = some e) {z : BitVec 4} {clr : Bool} {base rows cols : Sel}
    (hf : ¬TileFits e.b (e.readU base).toNat (e.readU rows).toNat (e.readU cols).toNat) :
    execZdef z clr base rows cols s = .next (s.trap e e.low .illegalOperand 0) := by
  unfold execZdef
  rw [within_env h]
  dsimp only
  rw [if_neg (fun hx => hf ((tileFits_iff _ _ _ _).mp hx))]

/-- The block after `zclr` (R297). -/
def zclrBlock (t : Tile) (b : Block) : Block :=
  (b.accPut t.base (List.replicate t.size (0, 0))).setTile { t with nf := false, ovf := false }

theorem zclrBlock_accGet (t : Tile) (b : Block) (n : Nat) :
    (zclrBlock t b).accGet n = if t.base ≤ n ∧ n < t.base + t.rows * t.cols then (0, 0) else b.accGet n := by
  split
  · rename_i hn
    have hl : n - t.base < t.rows * t.cols := by omega
    exact accGet_accPut_in b hn.1 (by simp [Tile.size, hl])
  · rename_i hn
    exact accGet_accPut_out b (by simpa [Tile.size] using hn)

/-- `zclr` changes nothing else of its block. -/
theorem zclrBlock_else (t : Tile) (b : Block) :
    { zclrBlock t b with acc := b.acc, tiles := b.tiles, mmas := b.mmas } = b := by
  cases b
  rfl

/-- The tile a handle names stands in the handle's entry. -/
theorem tile_entry {b : Block} {z : BitVec 4} {t : Tile} (h : b.tile z = some t) : b.tiles[z.toNat]? = some (some t) := by
  unfold Block.tile at h
  split at h
  · rename_i x hx
    split at h
    · cases h
      exact Option.join_eq_some_iff.mp hx
    · cases h
  · cases h

theorem execZclr_eq (h : s.env = some e) (z : BitVec 4) :
    execZclr z s = .next (match e.b.tile z with
      | none => s.trap e e.low .illegalOperand 0
      | some t => s.updBlk e.b.uid (zclrBlock t)) :=
  within_env h _

/-- Settles O26: `zdef` and `zclr` are one update of their block. -/
theorem tileHandles : Obligations.TileHandles := by
  intro s e z clr base rows cols tl h hlen
  refine ⟨fun hok => ?_, fun hok => execZdef_trap h hok, fun hz => ?_, fun hz => ?_⟩
  · have henv : State.env { s with nextId := s.nextId + 1 } = some e := h
    obtain ⟨hblk, hoth⟩ := blk_updBlk_env henv
      (zdefBlock s z clr (e.readU base).toNat (e.readU rows).toNat (e.readU cols).toNat) (fun _ => rfl)
    refine ⟨_, _, execZdef_ok h hok, rfl, ⟨hblk, zdefBlock_else _ _ _ _ _ _ _, hoth⟩, ?_, ?_, ?_, zdefBlock_accGet s z clr _ _ _ e.b⟩
    · have hz : z.toNat < e.b.tiles.length := hlen ▸ z.isLt
      simp [zdefBlock, hz]
    · intro i hi
      simp [zdefBlock, hi.symm]
    · intro x hx
      exact List.mem_of_mem_filter hx
  · exact (execZclr_eq h z).trans (by rw [hz])
  · obtain ⟨hblk, hoth⟩ := blk_updBlk_env h (zclrBlock tl) (fun _ => rfl)
    refine ⟨_, _, (execZclr_eq h z).trans (by rw [hz]), rfl, ⟨hblk, zclrBlock_else _ _, hoth⟩, rfl, ?_, zclrBlock_accGet tl e.b⟩
    simp [zclrBlock, Block.setTile, Block.accPut, tile_entry hz]

end Sys2Proof.Safety
end

section
/-! PROOF. Fields of words, and what requests to peers change as they leave or are held (R166, R394). -/

namespace Sys2Proof.Safety

open Sys2Proof Sys2Proof.Machine

/-- A field of a word, as a number. -/
theorem field_toNat {m : Nat} (w : BitVec m) (lo n : Nat) : (w.extractLsb' lo n).toNat = w.toNat / 2 ^ lo % 2 ^ n := by
  rw [BitVec.extractLsb'_toNat, Nat.shiftRight_eq_div_pow]

/-- Nothing differs but the requests that wait and those on their way, and what has left the part. -/
def RequestsOnly (s t : State) : Prop :=
  t = { s with fabric := { s.fabric with held := t.fabric.held, outst := t.fabric.outst }, out := t.out }

theorem RequestsOnly.refl (s : State) : RequestsOnly s s := rfl

theorem RequestsOnly.trans {s t u : State} (h : RequestsOnly s t) (k : RequestsOnly t u) : RequestsOnly s u := by
  unfold RequestsOnly at h k ⊢
  rw [k, h]

theorem RequestsOnly.foldl {α : Type} {f : State → α → State} (h : ∀ t x, RequestsOnly t (f t x)) (l : List α) (s : State) :
    RequestsOnly s (l.foldl f s) := by
  induction l generalizing s with
  | nil => exact .refl s
  | cons x r ih => exact (h s x).trans (ih _)

theorem RequestsOnly.traffic {s t : State} (h : RequestsOnly s t) : Traffic s t :=
  .of (by rw [h]; rfl) (by rw [h]) (by rw [h])

/-! What an observer of the part's work sees stays. -/

section Keeps
variable {s t : State} (h : RequestsOnly s t)
include h

theorem RequestsOnly.blocks : t.blocks = s.blocks := by rw [h]
theorem RequestsOnly.ops : t.ops = s.ops := by rw [h]
theorem RequestsOnly.run : t.run = s.run := by rw [h]
theorem RequestsOnly.runs : t.runs = s.runs := by rw [h]
theorem RequestsOnly.coh : t.coh = s.coh := by rw [h]
theorem RequestsOnly.device : t.fabric.device = s.fabric.device := by rw [h]
theorem RequestsOnly.frozen : t.fabric.frozen = s.fabric.frozen := by rw [h]

theorem RequestsOnly.blk (v : Nat) : t.blk v = s.blk v := by
  unfold State.blk
  rw [h.blocks]

theorem RequestsOnly.spn (v n : Nat) : spn t v n = spn s v n := by
  unfold Safety.spn
  rw [h.blk]

theorem RequestsOnly.thr (v n k : Nat) : thr t v n k = thr s v n k := by
  unfold Safety.thr
  rw [h.spn]

theorem RequestsOnly.shell (v : Nat) : shell t v = shell s v := by
  unfold Safety.shell
  rw [h.blk]

theorem RequestsOnly.covered (u m k : Nat) (x : Thread) (w : BitVec 3) : t.covered u m k x w = s.covered u m k x w := by
  unfold State.covered
  rw [h.ops, h.run, h.runs]

end Keeps

variable (s : State)

theorem requestsOnly_sendOut (h : HeldOut) : RequestsOnly s (s.sendOut h) := rfl

theorem requestsOnly_flushHeld : RequestsOnly s s.flushHeld := by
  refine RequestsOnly.trans (t := { s with fabric := { s.fabric with held := [] } }) rfl (RequestsOnly.foldl (fun t h => ?_) _ _)
  dsimp only
  split
  · rfl
  · exact requestsOnly_sendOut t _

/-- The list of the requests on their way changes, and requests that waited go on. -/
theorem requestsOnly_outst (o : List PeerOut) :
    RequestsOnly s (State.flushHeld { s with fabric := { s.fabric with outst := o } }) :=
  RequestsOnly.trans (t := { s with fabric := { s.fabric with outst := o } }) rfl (requestsOnly_flushHeld _)

/-- R394: the answers to an operation's accesses are no longer awaited. -/
theorem requestsOnly_answered (o : Op) : RequestsOnly s (s.answered o) := requestsOnly_outst s _

theorem requestsOnly_sendPeer (k : StreamId) (dev : BitVec 12) (pa : Nat) (x : PeerKind) (op : Option Nat)
    (w : Option (Nat × Nat × Nat)) : RequestsOnly s (s.sendPeer k dev pa x op w) := by
  refine RequestsOnly.foldl (fun t p => ?_) _ _
  dsimp only
  split
  · rfl
  · exact requestsOnly_sendOut t _

end Sys2Proof.Safety
end

section
/-! PROOF. The tile engine's instructions issue (R68, R69, R236, R288, R298 to R305). -/

namespace Sys2Proof.Safety

open Sys2Proof Sys2Proof.Machine

variable {s : State} {e : Env}

theorem word_zero {n : Nat} {w : BitVec n} (h : w.toNat = 0) : w = 0 :=
  BitVec.eq_of_toNat_eq (by simpa using h)

/-- R68: the rounding mode of a format word. -/
def modeOf (n : Nat) : Option RMode :=
  match n with
  | 0 => some .rne
  | 1 => some .rz
  | 2 => some .ru
  | 3 => some .rd
  | 4 => some .sr
  | _ => none

/-- R68: a format word with nothing reserved in it, and its rounding mode. -/
def FormatWord (w : Word) (rm : RMode) : Prop :=
  w.toNat < 2 ^ 13 ∧ w.toNat % 16 ≤ 6 ∧ w.toNat / 16 % 16 ≤ 6 ∧ modeOf (w.toNat / 2 ^ 8 % 8) = some rm

/-- It raises nothing. -/
theorem fwMode_ok {w : Word} {rm : RMode} (h : FormatWord w rm) : fwMode w = some rm := by
  obtain ⟨h, ha, hb, hm⟩ := h
  have h1 : (w.extractLsb' 13 19 != 0) = false := by
    have : w.extractLsb' 13 19 = 0 := word_zero (by rw [field_toNat, Nat.div_eq_of_lt h]; rfl)
    rw [this]; rfl
  have h2 : decide (6 < (w.extractLsb' 0 4).toNat) = false := decide_eq_false (by rw [field_toNat]; omega)
  have h3 : decide (6 < (w.extractLsb' 4 4).toNat) = false := decide_eq_false (by rw [field_toNat]; omega)
  unfold fwMode
  rw [h1, h2, h3, field_toNat]
  exact hm

/-- The first of two lists' elements. -/
theorem firstSome_append {α : Type} (l r : List (Option α)) : firstSome (l ++ r) = (firstSome l).or (firstSome r) := by
  induction l with
  | nil => rfl
  | cons x l ih =>
    cases x with
    | none => exact ih
    | some x => rfl

/-- The first five steps of a check pass: the sixth decides (R236). -/
theorem checkAccess_own {w : Walker} {va : Dword} {n : Nat} {ask : Ask} {right : List (Loc × Nat) → Option Stop}
    {l : List (Loc × Nat)} (h : s.checkAccess w va n ask right = .ok l) (t : Option Trap) :
    s.checkAccess w va n { ask with own := fun _ => t } right = match t with
      | some x => .error (.trap x va)
      | none => .ok l := by
  unfold State.checkAccess at h ⊢
  dsimp only at h ⊢
  generalize s.pieces w va n = ps at h ⊢
  rw [show ∀ a b c d f g : Option Stop, [a, b, c, d, f, g] = [a, b, c, d, f] ++ [g] from fun _ _ _ _ _ _ => rfl] at h ⊢
  rw [firstSome_append] at h ⊢
  split at h
  · cases h
  · rename_i hn
    cases h
    rw [(Option.or_eq_none_iff.mp hn).1]
    cases t <;> rfl

/-- A tile operation that reads no local range. -/
theorem addTile_queued (s : State) (e : Env) (t : Option Tile) (k : OpKind) :
    Queued s (s.addTile e t [] k) e k ((t.map (fun t => e.b.mmaOver t)).getD false) := by
  have h0 : s.opndOver e.b [] = false := by simp [State.opndOver]
  unfold State.addTile
  rw [h0, Bool.or_false]
  rfl

/-- An `mma` is queued, with the mark of its tile and its operands. -/
theorem addMma_queued (s : State) (e : Env) (t : Tile) (l : List (Nat × Nat)) (k : OpKind) :
    QueuedMma s (s.addMma e t l k) e t l k :=
  ⟨_, addOp_queued s e k, rfl⟩

/-- What an `mma` reads of its operands (R298). -/
def mmaOpnds (e : Env) (a b fw : Sel) (t : Tile) : (Nat × Nat) × (Nat × Nat) :=
  mmaRanges t ((e.read32 a e.low).toNat % 2 ^ 20) (e.read32 b e.low).toNat ((e.read32 a e.low).toNat / 2 ^ 20) (e.read32 fw e.low)

/-- The checks of an `mma` that its format word, its row counts and its first operand pass (R68, R69, R298). -/
structure MmaChecked (e : Env) (z : BitVec 4) (a b fw : Sel) (t : Tile) : Prop where
  tile : e.b.tile z = some t
  mode : (fwMode (e.read32 fw e.low)).isNone = false
  same : ∀ k ∈ e.r.exec, e.read32 fw k = e.read32 fw e.low
  rows : 1 ≤ (e.read32 a e.low).toNat / 2 ^ 20 ∧ (e.read32 a e.low).toNat / 2 ^ 20 ≤ 2048
  second : (e.read32 b e.low).toNat < 2 ^ 20
  first : (mmaOpnds e a b fw t).1.1 + (mmaOpnds e a b fw t).1.2 ≤ e.b.lsize

section Mma
variable {z : BitVec 4} {a b bcore fw : Sel} {t : Tile} (hc : MmaChecked e z a b fw t)
include hc

theorem MmaChecked.fields :
    ((e.read32 a e.low).extractLsb' 0 20).toNat = (e.read32 a e.low).toNat % 2 ^ 20 ∧
    ((e.read32 a e.low).extractLsb' 20 12).toNat = (e.read32 a e.low).toNat / 2 ^ 20 ∧
    ((e.read32 b e.low).extractLsb' 0 20).toNat = (e.read32 b e.low).toNat ∧
    ((e.read32 b e.low).extractLsb' 20 12 != 0) = false := by
  have ha := (e.read32 a e.low).isLt
  have hb := hc.second
  refine ⟨?_, ?_, ?_, ?_⟩
  · rw [field_toNat, Nat.pow_zero, Nat.div_one]
  · rw [field_toNat]; omega
  · rw [field_toNat]; omega
  · have : (e.read32 b e.low).extractLsb' 20 12 = 0 := word_zero (by rw [field_toNat]; omega)
    rw [this]; rfl

/-- R68, R69, R298: such an `mma` reaches its operand ranges. -/
theorem issueMma_checked (gang : Bool) (hw : gang = true → ((s.launch e.b.launch).bind (fun l => l.w[2]?)).getD 0 ≠ 0) {src : Block}
    (hsrc : (if gang = true then s.gangBlockAt e.b (e.readU bcore).toNat else some e.b) = some src)
    (hrb : src.uid = e.b.uid → (mmaOpnds e a b fw t).2.1 + (mmaOpnds e a b fw t).2.2 ≤ e.b.lsize) :
    s.issueMma e gang z a b bcore fw =
      (let xa := (e.read32 a e.low).toNat % 2 ^ 20
       let xb := (e.read32 b e.low).toNat
       let kb := (e.read32 a e.low).toNat / 2 ^ 20
       let w := e.read32 fw e.low
       let rs := mmaOpnds e a b fw t
       let mine := if src.uid = e.b.uid then [rs.1, rs.2] else [rs.1]
       if gang = true then
         let s1 := s.updBlk e.b.uid (fun b => { b with gangN := e.b.gangN + 1 })
         if e.b.gangN ∈ e.b.gangX then s1
         else s1.addMma e t mine (.mma t z.toNat xa xb kb w (some (e.readU bcore).toNat) e.b.gangN none)
       else s.addMma e t mine (.mma t z.toNat xa xb kb w none 0 (some e.b.uid))) := by
  obtain ⟨hxa, hkb, hxb, hhi⟩ := hc.fields
  have hra := hc.first
  generalize hr : mmaOpnds e a b fw t = r at hra hrb ⊢
  obtain ⟨ra, rb⟩ := r
  dsimp only at hra hrb
  unfold mmaOpnds at hr
  have hg : (gang && ((s.launch e.b.launch).bind (fun l => l.w[2]?)).getD 0 == 0) = false := by
    cases gang
    · rfl
    · simpa using hw rfl
  have hany : (e.r.exec.any (fun k => e.read32 fw k != e.read32 fw e.low)) = false := by simpa using hc.same
  have hrows : ((e.read32 a e.low).toNat / 2 ^ 20 == 0 || decide (2048 < (e.read32 a e.low).toNat / 2 ^ 20)) = false := by
    have := hc.rows
    simp only [Bool.or_eq_false_iff, beq_eq_false_iff_ne, decide_eq_false_iff_not]
    omega
  have hb2 : (src.uid == e.b.uid && decide (e.b.lsize < rb.1 + rb.2)) = false := by
    simp only [Bool.and_eq_false_imp, beq_iff_eq, decide_eq_false_iff_not]
    exact fun h => by have := hrb h; omega
  unfold State.issueMma
  rw [hc.tile]
  simp only [hxa, hkb, hxb, hhi, hg, hany, hc.mode, hrows, hsrc, hr, hb2, Bool.or_false, Bool.false_eq_true, if_false,
    not_lt.mpr hra, List.contains_iff_mem, beq_iff_eq]

end Mma

/-- R68: threads of a batch that differ in the format word stop it. -/
theorem issueMma_divergence {z : BitVec 4} {a b bcore fw : Sel} {t : Tile} (ht : e.b.tile z = some t)
    (hd : ∃ k ∈ e.r.exec, e.read32 fw k ≠ e.read32 fw e.low) :
    s.issueMma e false z a b bcore fw = s.trap e e.low .formatDivergence ((e.read32 fw e.low).setWidth 64) := by
  have hany : e.r.exec.any (fun k => e.read32 fw k != e.read32 fw e.low) = true := by simpa using hd
  unfold State.issueMma
  rw [ht]
  simp only [Bool.false_and, Bool.false_eq_true, if_false, hany, if_true]

/-- R305: an aligned `zld` or `zst` whose range passes. -/
theorem tileMem_aligned {z : BitVec 4} {base off : Sel} {out : Bool} {mk : Tile → List (Loc × Nat) → OpKind} {t : Tile}
    {locs : List (Loc × Nat)} (ht : e.b.tile z = some t) (hva : (e.gaddr ⟨base, off, 0⟩ 1 e.low).toNat % 32 = 0)
    (hc : s.checkAccess (e.walker s) (e.gaddr ⟨base, off, 0⟩ 1 e.low) (32 * (t.rows * t.cols + 1)) (askCopy out) (fun _ => none) =
      .ok locs) :
    s.tileMem e z base off out mk = s.addTile e (if out then some t else none) [] (mk t locs) := by
  have := checkAccess_own hc none
  unfold State.tileMem
  rw [ht]
  simp only [askTile, hva, beq_self_eq_true, if_true]
  simp only [Tile.size]
  rw [this]

/-- R236, R305: a misaligned one. -/
theorem tileMem_misaligned {z : BitVec 4} {base off : Sel} {out : Bool} {mk : Tile → List (Loc × Nat) → OpKind} {t : Tile}
    {locs : List (Loc × Nat)} (ht : e.b.tile z = some t) (hva : (e.gaddr ⟨base, off, 0⟩ 1 e.low).toNat % 32 ≠ 0)
    (hc : s.checkAccess (e.walker s) (e.gaddr ⟨base, off, 0⟩ 1 e.low) (32 * (t.rows * t.cols + 1)) (askCopy out) (fun _ => none) =
      .ok locs) :
    s.tileMem e z base off out mk = s.trap e e.low .protection (e.gaddr ⟨base, off, 0⟩ 1 e.low) := by
  have := checkAccess_own hc (some .protection)
  unfold State.tileMem
  rw [ht]
  simp only [askTile, beq_eq_false_iff_ne.mpr hva, Bool.false_eq_true, if_false]
  simp only [Tile.size]
  rw [this]
  rfl

/-- A drain without a descriptor has one of zero bytes (R303). -/
theorem dfield_zeros (lo n : Nat) : dfield (List.replicate 64 0) lo n = 0 := by
  have h : ∀ k, leNat (List.replicate k 0) = 0 := by
    intro k
    induction k with
    | zero => rfl
    | succ k ih => rw [List.replicate_succ, leNat, ih]; rfl
  rw [dfield, h, Nat.zero_div, Nat.zero_mod]

section Drain
variable {t : Tile} {va : Dword} {p : Nat} {d : List Byte} {locs : List (Loc × Nat)} (hd : ∀ lo n, dfield d lo n = 0)
include hd

/-- Its ranges are the rows of the main copy. -/
theorem drainRanges_zeros :
    drainRanges t va d 0 p = (List.range t.rows).map (fun i => (va + BitVec.ofNat 64 (i * p), t.cols * 4)) := by
  simp [drainRanges, hd, drainT, drainSize]

theorem drainLocs_zeros (h : s.rowLocs e va p (t.cols * 4) (askCopy true) t.rows = .ok locs) :
    s.drainLocs e t va d 0 p = .ok [locs, [], [], [], []] := by
  simp [State.drainLocs, hd, drainT, drainSize, h, State.rangeIf, State.rowLocs]

/-- R303: a drain without a descriptor whose rows pass. -/
theorem issueDrain_plain {z : BitVec 4} {rm : RMode} {s0 : State}
    (hs : s0 = s.walkedAll (e.walker s) ((List.range t.rows).map (fun i => (va + BitVec.ofNat 64 (i * (t.cols * 4)), t.cols * 4))))
    (h : s0.rowLocs e va (t.cols * 4) (t.cols * 4) (askCopy true) t.rows = .ok locs) :
    s.issueDrain e z t rm va d (t.cols * 4) = s0.addTile e (some t) [] (.zdrain t z.toNat
      { seed := 0, col0 := 0, row0 := 0, bias := [], nosat := false, dfmt := 0 } rm [locs, [], [], [], []]) := by
  have hl := drainLocs_zeros hd h
  have hb : s0.badLocs [] = none := rfl
  unfold State.issueDrain
  simp only [hd, drainSize, drainRanges_zeros hd, ← hs]
  simp [State.rangeIf, hb, State.readLocs, hl]

end Drain

/-- R303: a drain without a descriptor. -/
theorem execZdrain_plain (h : s.env = some e) {z : BitVec 4} {base off fw : Sel} {t : Tile} {rm : RMode} (ht : e.b.tile z = some t)
    (hm : fwMode (e.read32 fw e.low) = some rm) :
    execZdrain z false base off .zero fw s =
      .next (s.issueDrain e z t rm (e.gaddr ⟨base, off, 0⟩ 1 e.low) (List.replicate 64 0) (t.cols * 4)) := by
  unfold execZdrain
  rw [within_env h, ht]
  dsimp only
  rw [hm]
  simp only [Bool.false_eq_true, if_false, bne_self_eq_false]

/-- Settles O27: each instruction passes its checks and issues one operation, or stops where the check fails. -/
theorem tileOperationsIssue : Obligations.TileOperationsIssue := by
  intro s e z a b bcore fw base off tl src rm locs h ht
  have hmode : FormatWord (e.read32 fw e.low) rm → fwMode (e.read32 fw e.low) = some rm := fwMode_ok
  refine ⟨fun hf hsame hk1 hk2 hbv hra => ?_, fun hd => ?_, fun hva => ⟨fun hl => ?_, fun hl => ?_⟩, fun hva => ⟨fun hl => ?_, fun hl => ?_⟩,
    fun hf hl => ?_⟩
  · have hc : MmaChecked e z a b fw tl := ⟨ht, by rw [hmode hf]; rfl, hsame, ⟨hk1, hk2⟩, hbv, hra⟩
    refine ⟨fun hrb => ?_, fun hw hsrc hrb hx => ?_⟩
    · refine ⟨_, (within_env h _).trans ?_, addMma_queued s e tl _ _⟩
      rw [issueMma_checked hc false nofun rfl (fun _ => hrb)]
      simp only [Bool.false_eq_true, if_false, if_true, mmaOpnds]
    · refine ⟨_, _, (within_env h _).trans ?_, rfl, addMma_queued _ e tl _ _⟩
      rw [issueMma_checked hc true (fun _ => hw) hsrc hrb]
      simp only [if_true, if_neg hx, mmaOpnds]
  · exact (within_env h _).trans (congrArg _ (issueMma_divergence ht hd))
  · exact ⟨_, (within_env h _).trans (congrArg _ (tileMem_aligned ht hva hl)), addTile_queued s e none _⟩
  · exact ⟨_, (within_env h _).trans (congrArg _ (tileMem_aligned ht hva hl)), addTile_queued s e (some tl) _⟩
  · exact (within_env h _).trans (congrArg _ (tileMem_misaligned ht hva hl))
  · exact (within_env h _).trans (congrArg _ (tileMem_misaligned ht hva hl))
  · refine ⟨_, (execZdrain_plain h ht (hmode hf)).trans (congrArg _ (issueDrain_plain dfield_zeros rfl hl)),
      traffic_walkedAll s _ _, addTile_queued _ e (some tl) _⟩

end Sys2Proof.Safety
end

section
/-! PROOF. Transfers, messages and deposits issue (R64, R168, R318 to R321). -/

namespace Sys2Proof.Safety

open Sys2Proof Sys2Proof.Machine

variable {s : State} {e : Env}

/-! A range cut at multiples of a unit. -/

/-- The pieces of a range, with enough fuel: one behind the other, none empty, none across a multiple of the unit. -/
theorem cutAt_piece {u : Nat} (hu : 0 < u) : ∀ (fuel a n j : Nat) (p : Nat × Nat), (cutAt u fuel a n)[j]? = some p →
    p.1 = a + (((cutAt u fuel a n).take j).map (·.2)).sum ∧ 0 < p.2 ∧ p.1 % u + p.2 ≤ u := by
  intro fuel
  induction fuel with
  | zero => intro a n j p h; simp [cutAt] at h
  | succ fuel ih =>
    intro a n j p h
    have hmod := Nat.mod_lt a hu
    unfold cutAt at h ⊢
    split
    · rename_i hn; simp [hn] at h
    · rename_i hn
      rw [if_neg hn] at h
      cases j with
      | zero =>
        simp only [List.getElem?_cons_zero, Option.some.injEq] at h
        subst h
        simp only [List.take_zero, List.map_nil, List.sum_nil]
        omega
      | succ j =>
        obtain ⟨h1, h2, h3⟩ := ih _ _ _ _ h
        refine ⟨?_, h2, h3⟩
        simp only [List.take_succ_cons, List.map_cons, List.sum_cons]
        omega

/-- They cover it. -/
theorem cutAt_sum {u : Nat} (hu : 0 < u) : ∀ (fuel a n : Nat), n = 0 ∨ n + a % u ≤ fuel * u →
    ((cutAt u fuel a n).map (·.2)).sum = n := by
  intro fuel
  induction fuel with
  | zero => intro a n h; simp [cutAt]; omega
  | succ fuel ih =>
    intro a n h
    have hmod := Nat.mod_lt a hu
    unfold cutAt
    split
    · rename_i hn; simp [hn]
    · rename_i hn
      simp only [List.map_cons, List.sum_cons]
      rw [ih]
      · omega
      · by_cases hk : n ≤ u - a % u
        · left; omega
        · right
          have hmin : min n (u - a % u) = u - a % u := by omega
          have hz : (a + (u - a % u)) % u = 0 := by
            have := Nat.div_add_mod a u
            rw [show a + (u - a % u) = u * (a / u + 1) by rw [Nat.mul_succ]; omega, Nat.mul_mod_right]
          rw [hmin, hz]
          have : (fuel + 1) * u = fuel * u + u := Nat.succ_mul _ _
          omega

/-- R318: the packets of a transfer. -/
def packetsOf (dst n : Nat) : List (Nat × Nat) := (cutAt 4096 (n / 4096 + 2) dst n).map (fun p => (p.1 - dst, p.2))

theorem packetsOf_sum (dst n : Nat) : ((packetsOf dst n).map (·.2)).sum = n := by
  have h := cutAt_sum (u := 4096) (by omega) (n / 4096 + 2) dst n (.inr (by omega))
  simpa [packetsOf, Function.comp_def] using h

theorem packetsOf_piece {dst n j : Nat} {p : Nat × Nat} (h : (packetsOf dst n)[j]? = some p) :
    p.1 = (((packetsOf dst n).take j).map (·.2)).sum ∧ 0 < p.2 ∧ (dst + p.1) % 4096 + p.2 ≤ 4096 := by
  simp only [packetsOf, List.getElem?_map, Option.map_eq_some_iff] at h
  obtain ⟨q, hq, rfl⟩ := h
  obtain ⟨h1, h2, h3⟩ := cutAt_piece (by omega) _ _ _ _ _ hq
  simp only [packetsOf, ← List.map_take, List.map_map, Function.comp_def]
  have hd : dst + (q.1 - dst) = q.1 := by omega
  rw [hd]
  exact ⟨by omega, h2, h3⟩

/-! Counter words (R290). -/

/-- R290: a counter word with nothing in its reserved fields. -/
def CounterWord (w : Dword) : Prop := w.toNat / 2 ^ 33 = 0 ∧ w.toNat / 2 ^ 24 % 2 ^ 8 = 0

theorem counterOk_iff (w : Dword) : counterOk w = true ↔ CounterWord w := by
  have hw := w.isLt
  simp only [counterOk, CounterWord, Bool.and_eq_true, beq_iff_eq, BitVec.toNat_eq, field_toNat]
  constructor <;> rintro ⟨h1, h2⟩ <;> refine ⟨?_, h2⟩
  · have : w.toNat / 2 ^ 33 % 2 ^ 31 = 0 := h1
    omega
  · rw [h1]; rfl

theorem counterOk_false {w : Dword} (h : ¬CounterWord w) : counterOk w = false := by
  simpa [← counterOk_iff] using h

/-- R124, R290: a counter word passes, breaks R290, or names a stash range. -/
theorem counterFault_none {l c : Nat} {w : Dword} (h : CounterWord w) (hp : s.counterStash l c w = none) :
    s.counterFault l c w = none := by
  simp [State.counterFault, (counterOk_iff w).mpr h, hp]

theorem counterFault_bad {l c : Nat} {w : Dword} (h : ¬CounterWord w) : s.counterFault l c w = some (.illegalOperand, 0) := by
  simp [State.counterFault, counterOk_false h]

theorem counterFault_stash {l c a : Nat} {w : Dword} (h : CounterWord w) (hp : s.counterStash l c w = some a) :
    s.counterFault l c w = some (.protection, BitVec.ofNat 64 a) := by
  simp [State.counterFault, (counterOk_iff w).mpr h, hp]

/-! Transfers (R318). -/

/-- The counter of a transfer passes: R124 binds the reader's alone. -/
def xferFault (s : State) (e : Env) (wr : Bool) (ctr : Dword) : Option (Trap × Dword) :=
  if wr then (if counterOk ctr then none else some (Trap.illegalOperand, 0)) else s.counterFault e.b.launch e.b.ctx ctr

section Xfer
variable {wr : Bool} {stream : Byte} {dst src bytes ctr : Dword}

theorem issueXfer_fault {c : Trap} {x : Dword} (h : xferFault s e wr ctr = some (c, x)) :
    s.issueXfer e wr stream dst src bytes ctr = s.trap e e.low c x := by
  unfold State.issueXfer
  unfold xferFault at h
  rw [h]

/-- The low word of a length. -/
theorem lo32_toNat (w : Dword) : (lo32 w).toNat = w.toNat % 2 ^ 32 := by
  rw [lo32, field_toNat, Nat.pow_zero, Nat.div_one]

theorem issueXfer_empty (h : xferFault s e wr ctr = none) (hn : bytes.toNat % 2 ^ 32 = 0) :
    s.issueXfer e wr stream dst src bytes ctr = s := by
  unfold State.issueXfer
  unfold xferFault at h
  rw [h]
  simp only [lo32_toNat, hn, beq_self_eq_true, if_true]

/-- A transfer whose two sides pass their checks behind the walks of their pages. -/
theorem issueXfer_ok (h : xferFault s e wr ctr = none) {n : Nat} (hb : bytes.toNat % 2 ^ 32 = n) (hn : n ≠ 0) {w : State}
    (hw : w = s.walkedAll (e.walker s) [(dst, n), (src, n)]) {d c : List (Loc × Nat)}
    (hd : w.checkAccess (e.walker w) dst n (if wr then askPeer true else askOwn true) (fun _ => none) = .ok d)
    (hc : w.checkAccess (e.walker w) src n (if wr then askOwn false else askPeer false) (fun _ => none) = .ok c) :
    s.issueXfer e wr stream dst src bytes ctr =
      w.addOp e e.r.exec (.xfer wr d c (packetsOf dst.toNat n) [] n ctr stream.toNat) := by
  unfold State.issueXfer
  unfold xferFault at h
  rw [h]
  simp only [lo32_toNat, hb, beq_eq_false_iff_ne.mpr hn, Bool.false_eq_true, if_false, ← hw, hd, hc]
  rfl

end Xfer

/-! What orders the sender's stores (R168). -/

/-- A store performed leaves the stores that wait as they are. -/
theorem commit_coh (s : State) (pa : Nat) (d : List Byte) : (s.commit pa d).coh = s.coh := by
  unfold State.commit
  dsimp only
  split <;> rfl

theorem foldl_commit_coh (l : List Pend) (s : State) : (l.foldl (fun t x => t.commit x.pa x.data) s).coh = s.coh := by
  induction l generalizing s with
  | nil => rfl
  | cons x r ih => rw [List.foldl_cons, ih, commit_coh]

/-- R115: stores acknowledged no longer wait. -/
theorem ack_pend (s : State) (p : Pend → Bool) : (s.ack p).coh.pend = s.coh.pend.filter (fun x => !p x) := by
  unfold State.ack
  rw [foldl_commit_coh]

theorem foldl_commit_fabric (l : List Pend) (s : State) : (l.foldl (fun t x => t.commit x.pa x.data) s).fabric = s.fabric := by
  induction l generalizing s with
  | nil => rfl
  | cons x r ih =>
    rw [List.foldl_cons, ih]
    unfold State.commit
    dsimp only
    split <;> rfl

theorem ack_fabric (s : State) (p : Pend → Bool) : (s.ack p).fabric = s.fabric := foldl_commit_fabric _ _

/-- R168: a release at `.sys` is memory traffic that leaves no store of the die waiting. -/
theorem release_sys (s : State) (e : Env) :
    Traffic s (s.release e .sys) ∧ (∀ x ∈ (s.release e .sys).coh.pend, x.die ≠ dieOf e.b.core) ∧
      (s.release e .sys).fabric.device = s.fabric.device := by
  have hr : ∀ o, RequestsOnly (s.ack (fun p => p.die == dieOf e.b.core)) _ := requestsOnly_outst _
  refine ⟨(traffic_ack s _).trans (hr _).traffic, fun x hx => ?_, ?_⟩
  · have hp : (s.release e .sys).coh.pend = (s.ack (fun p => p.die == dieOf e.b.core)).coh.pend := congrArg (·.coh.pend) (hr _)
    rw [hp, ack_pend] at hx
    simpa using (List.mem_filter.mp hx).2
  · have hp : (s.release e .sys).fabric.device = (s.ack (fun p => p.die == dieOf e.b.core)).fabric.device :=
      (hr _).device
    rw [hp, ack_fabric]

/-- The dwords of a message (R319). -/
theorem payload_get (e : Env) (first : BitVec 6) (n : BitVec 4) :
    (e.payload first n).length = n.toNat ∧ ∀ j, j < n.toNat → (e.payload first n)[j]? = some (e.sp.sval (first.toNat + j)) := by
  refine ⟨by simp [Env.payload], fun j hj => by simp [Env.payload, hj]⟩

/-! The instructions. -/

theorem execXferw_eq (h : s.env = some e) (stream : Byte) (dst src bytes ctr : Sel) :
    execXferw stream dst src bytes ctr s =
      .next (s.issueXfer e true stream (e.readU dst) (e.readU src) (e.readU bytes) (e.readU ctr)) := within_env h _

theorem execXferr_eq (h : s.env = some e) (stream : Byte) (dst src bytes ctr : Sel) :
    execXferr stream dst src bytes ctr s =
      .next (s.issueXfer e false stream (e.readU dst) (e.readU src) (e.readU bytes) (e.readU ctr)) := within_env h _

/-- A message leaves behind the sender's stores (R168); its launch is kept for the reply (R320, log entry 32). -/
def keepMsg (s : State) (e : Env) (ctr : Dword) (t : State) : State :=
  { t with fabric := { t.fabric with
      msgs := t.fabric.msgs ++ [(replyToken ctr (BitVec.ofNat 12 e.b.ctx) s.fabric.device, e.b.launch)] } }

theorem execAmsg_ok (h : s.env = some e) {first : BitVec 6} {n : BitVec 4} {target ctr : Sel}
    (hc : s.counterFault e.b.launch e.b.ctx (e.readU ctr) = none) :
    execAmsg first n target ctr s = .next ((keepMsg s e (e.readU ctr) (s.release e .sys)).addOp e e.r.exec
      (.amsg (e.readU target) (e.readU ctr) (e.payload first n) false)) := by
  unfold execAmsg keepMsg
  rw [within_env h]
  dsimp only
  rw [hc, ← (release_sys s e).2.2]

theorem execAmsg_fault (h : s.env = some e) {first : BitVec 6} {n : BitVec 4} {target ctr : Sel} {c : Trap} {x : Dword}
    (hc : s.counterFault e.b.launch e.b.ctx (e.readU ctr) = some (c, x)) :
    execAmsg first n target ctr s = .next (s.trap e e.low c x) := by
  unfold execAmsg
  rw [within_env h]
  dsimp only
  rw [hc]

/-- R321: the core and the spindle number that a deposit names. -/
def depositCore (e : Env) (t : Dword) : Nat := gangOf e.b.core * Config.gangCores + t.toNat % 16
def depositSpid (t : Dword) : Nat := t.toNat / 16 % 256

/-- The words a deposit carries; an exited sender slot's are free. -/
def depositVals (s : State) (e : Env) (r : BitVec 7) : List Word :=
  (List.range 32).map (fun k => if e.sp.gone k then lo32 (Config.freeWord (s.freeCtr + k)) else e.sp.vword r.toNat k)

theorem depositVals_get (s : State) (e : Env) (r : BitVec 7) :
    (depositVals s e r).length = 32 ∧ ∀ k, k < 32 → e.sp.gone k = false → (depositVals s e r)[k]? = some (e.sp.vword r.toNat k) := by
  refine ⟨by simp [depositVals], fun k hk hg => ?_⟩
  simp only [depositVals, List.getElem?_map, List.getElem?_range hk, Option.map_some, hg, Bool.false_eq_true, if_false]

/-- R321: a deposit whose target and counter word are well formed. -/
theorem execRwr_eq (h : s.env = some e) {r : BitVec 7} {target ctr : Sel} (hc : CounterWord (e.readU ctr))
    (ht : (e.readU target).toNat < 2 ^ 19) :
    execRwr r target ctr s = .next (
      if s.rwrStash e.b.ctx (depositCore e (e.readU target)) (depositSpid (e.readU target)) (e.readU ctr) = true then
        s.trap e e.low .protection (BitVec.ofNat 64 (16 * ((e.readU ctr).toNat % 2 ^ 16)))
      else ({ s with freeCtr := s.freeCtr + 32 } : State).addOp e e.r.exec
        (.rwr (depositVals s e r) (depositCore e (e.readU target)) (depositSpid (e.readU target))
          ((e.readU target).toNat / 4096 % 128) (e.readU ctr))) := by
  have h0 : ((e.readU target).toNat / 2 ^ 19 != 0) = false := by simpa using Nat.div_eq_of_lt ht
  unfold execRwr
  rw [within_env h]
  dsimp only
  simp only [h0, (counterOk_iff _).mpr hc, Bool.not_true, Bool.or_false, Bool.false_eq_true, if_false, field_toNat, Nat.pow_zero,
    Nat.div_one]
  rfl

/-- Settles O40: each instruction passes its counter word and its checks and issues one operation, or stops there. -/
theorem fabricInstructions : Obligations.FabricInstructions := by
  intro s e stream dst src bytes ctr target first n r d c h
  have hword (hc : CounterWord (e.readU ctr)) : xferFault s e true (e.readU ctr) = none := by
    simp [xferFault, (counterOk_iff _).mpr hc]
  have hplace (hc : CounterWord (e.readU ctr)) (hp : s.counterStash e.b.launch e.b.ctx (e.readU ctr) = none) :
      xferFault s e false (e.readU ctr) = none := counterFault_none hc hp
  refine ⟨fun hc hn => ?_, fun hc hp hn => ?_, fun hc hn hd hs => ?_, fun hc hp hn hd hs => ?_, fun hc hp => ?_, ?_,
    fun hc ht => ⟨fun hr => ?_, fun hr => ?_⟩, fun hc i hi => ?_, fun a hc hp i hi => ?_⟩
  · exact (execXferw_eq h ..).trans (congrArg _ (issueXfer_empty (hword hc) hn))
  · exact (execXferr_eq h ..).trans (congrArg _ (issueXfer_empty (hplace hc hp) hn))
  · exact ⟨traffic_walkedAll s _ _, _, _, (execXferw_eq h ..).trans (congrArg _ (issueXfer_ok (hword hc) rfl hn rfl hd hs)),
      addOp_queued _ e _, packetsOf_sum _ _, fun j p hj => packetsOf_piece hj⟩
  · exact ⟨traffic_walkedAll s _ _, _, _, (execXferr_eq h ..).trans (congrArg _ (issueXfer_ok (hplace hc hp) rfl hn rfl hd hs)),
      addOp_queued _ e _, packetsOf_sum _ _, fun j p hj => packetsOf_piece hj⟩
  · obtain ⟨htr, hpend, -⟩ := release_sys s e
    exact ⟨_, _, _, execAmsg_ok h (counterFault_none hc hp), htr, hpend, addOp_queued _ e _, payload_get e first n⟩
  · obtain ⟨htr, hpend, -⟩ := release_sys s e
    exact ⟨_, _, _, within_env h _, htr, hpend, addOp_queued _ e _, payload_get e first n⟩
  · refine ⟨{ s with freeCtr := s.freeCtr + 32 }, _, _, (execRwr_eq h hc ht).trans (congrArg _ (if_neg ?_)), .of rfl rfl rfl,
      addOp_queued _ e _, depositVals_get s e r⟩
    exact Bool.eq_false_iff.mp hr
  · exact (execRwr_eq h hc ht).trans (congrArg _ (if_pos hr))
  · have hf : s.counterFault e.b.launch e.b.ctx (e.readU ctr) = some (.illegalOperand, 0) := counterFault_bad hc
    simp only [List.mem_cons, List.not_mem_nil, or_false] at hi
    rcases hi with rfl | rfl | rfl
    · exact (execXferw_eq h ..).trans (congrArg _ (issueXfer_fault (by simp [xferFault, counterOk_false hc])))
    · exact (execXferr_eq h ..).trans (congrArg _ (issueXfer_fault hf))
    · exact execAmsg_fault h hf
  · have hf : s.counterFault e.b.launch e.b.ctx (e.readU ctr) = some (.protection, BitVec.ofNat 64 a) := counterFault_stash hc hp
    simp only [List.mem_cons, List.not_mem_nil, or_false] at hi
    rcases hi with rfl | rfl
    · exact (execXferr_eq h ..).trans (congrArg _ (issueXfer_fault hf))
    · exact execAmsg_fault h hf

end Sys2Proof.Safety
end

section
/-! PROOF. An operation leaves the list (R61, R166), and a register result arrives (R50, R61 to R63). -/

namespace Sys2Proof.Safety

open Sys2Proof Sys2Proof.Machine

/-! Requests that go on do not see blocks and operations. -/

theorem foldl_comm {α σ : Type} {f : σ → α → σ} {g : σ → σ} (h : ∀ t x, f (g t) x = g (f t x)) (l : List α) (t : σ) :
    l.foldl f (g t) = g (l.foldl f t) := by
  induction l generalizing t with
  | nil => rfl
  | cons x r ih => rw [List.foldl_cons, h, ih, List.foldl_cons]

/-- The state with other blocks and operations. -/
def withWork (b : List Block) (o : List Op) (s : State) : State := { s with blocks := b, ops := o }

/-- A request by the plane that its line now takes. -/
def routed (t : State) (h : HeldOut) : HeldOut := { h with x := { h.x with plane := t.planeOf h.x.addr.toNat } }

/-- It waits at this device. -/
def holdOut (t : State) (h : HeldOut) : State := { t with fabric := { t.fabric with held := t.fabric.held ++ [h] } }

/-- A request leaves, or waits (R166, R394). -/
def sendOrHold (t : State) (h : HeldOut) : State := if t.mustHold h.x then holdOut t h else t.sendOut h

theorem flushHeld_eq (s : State) :
    s.flushHeld = s.fabric.held.foldl (fun t h => sendOrHold t (routed t h)) { s with fabric := { s.fabric with held := [] } } := rfl

theorem sendOrHold_withWork (b : List Block) (o : List Op) (t : State) (h : HeldOut) :
    sendOrHold (withWork b o t) h = withWork b o (sendOrHold t h) := by
  have hm : (withWork b o t).mustHold h.x = t.mustHold h.x := rfl
  rw [sendOrHold, sendOrHold, hm, apply_ite (withWork b o)]
  rfl

theorem flushHeld_withWork (b : List Block) (o : List Op) (s : State) : (withWork b o s).flushHeld = withWork b o s.flushHeld :=
  foldl_comm (g := withWork b o) (fun t h => sendOrHold_withWork b o t (routed t h)) s.fabric.held { s with fabric := { s.fabric with held := [] } }

theorem answered_withWork (b : List Block) (l : List Op) (s : State) (o : Op) :
    (withWork b l s).answered o = withWork b l (s.answered o) :=
  flushHeld_withWork b l { s with fabric := { s.fabric with outst := s.fabric.outst.filter (fun x => !(x.op == some o.id && x.thr.isSome)) } }

variable (s : State) (o : Op)

/-! An operation leaves the list. -/

/-- The list without an operation. -/
def offList : State := { s with ops := s.ops.filter (fun x => x.id != o.id) }

theorem dropOp_eq : s.dropOp o = (offList s o).settle o.blk o.m := rfl

/-- The spindles after it: the threads of its own settle. -/
theorem spn_dropOp (v n : Nat) : spn (s.dropOp o) v n = (spn s v n).map (fun x =>
    if v = o.blk ∧ n = o.m then settleSp (offList s o) o.blk o.m x else x) :=
  spn_settle (offList s o) o.blk o.m v n

/-- A thread of its spindle after it. -/
theorem thr_dropOp {k : Nat} {x : Thread} (hx : thr s o.blk o.m k = some x) :
    thr (s.dropOp o) o.blk o.m k = some (woken { x with tok := (offList s o).tokOf o.blk o.m k x }) := by
  have hx' : thr (offList s o) o.blk o.m k = some x := hx
  rw [dropOp_eq, settle_threads, hx', Option.map_some, if_pos ⟨rfl, rfl⟩]

/-- R61, R166: an operation that is over leaves. -/
theorem opLeaves_answered : OpLeaves s ((s.dropOp o).answered o) o :=
  have hr := requestsOnly_answered (s.dropOp o) o
  { rest := by
      rw [hr.blocks, hr.ops]
      exact answered_withWork (s.dropOp o).blocks (s.dropOp o).ops s o
    others := fun u' m' hne => by rw [hr.spn, spn_dropOp]; simp only [hne, if_false, Option.map_id']
    shells := fun u' => (hr.shell _).trans (shell_settle _ _ _ u')
    else_ := by
      rw [hr.spn, spn_dropOp]
      cases spn s o.blk o.m <;> simp [settleSp]
    threads := fun k x hx => by
      refine ⟨(offList s o).tokOf o.blk o.m k x, (hr.thr _ _ _).trans (thr_dropOp s o hx), fun i hi => ?_⟩
      rw [hr.covered, tokOf_bit _ _ _ _ _ _ hi]
      rfl
    ops := hr.ops }

/-! A register result arrives. -/

/-- The word that a result's writes put in slot k of register n, whose word was `old` (R50, R278). -/
def arrivedWord (sp : Spindle) (ws : List RegW) (n k : Nat) (old : Word) : Word :=
  ((ws.find? (fun w => w.reg == n && w.slot == k && !sp.gone k)).map (·.val)).getD old

/-- The writes of a register, and of them those of a slot. -/
theorem find?_mine (sp : Spindle) (ws : List RegW) (n k : Nat) :
    (ws.filter (fun w => w.reg == n && !sp.gone w.slot)).find? (fun w => w.slot == k) =
      ws.find? (fun w => w.reg == n && w.slot == k && !sp.gone k) := by
  rw [List.find?_filter]
  congr 1
  funext w
  by_cases hk : w.slot = k
  · subst hk
    simp [Bool.beq_eq_decide_eq]
  · simp [hk]

/-- The registers of a spindle after a result: each keeps its tag. -/
theorem deliver_v (sp : Spindle) (ws : List RegW) (n : Nat) : ∃ f : VReg → VReg, (sp.deliver ws).v[n]? = (sp.v[n]?).map f ∧
    (∀ r, (f r).tag = r.tag) ∧ ∀ r k, (f r).vals[k]? = (r.vals[k]?).map (arrivedWord sp ws n k) := by
  refine ⟨fun r => if (ws.filter (fun w => w.reg == n && !sp.gone w.slot)).isEmpty then r
      else { r with vals := r.vals.zipIdx.map (fun y =>
        (((ws.filter (fun w => w.reg == n && !sp.gone w.slot)).find? (fun w => w.slot == y.2)).map (·.val)).getD y.1) }, ?_, ?_, ?_⟩
  · simp [Spindle.deliver, List.getElem?_map, List.getElem?_zipIdx, Option.map_map, Function.comp_def]
  · intro r
    dsimp only
    split <;> rfl
  · intro r k
    have hm := find?_mine sp ws n k
    dsimp only
    split
    · rename_i he
      rw [List.isEmpty_iff.mp he] at hm
      have : arrivedWord sp ws n k = id := funext fun old => by rw [arrivedWord, ← hm]; rfl
      rw [this, Option.map_id, id]
    · simp only [List.getElem?_map, List.getElem?_zipIdx, Option.map_map, Function.comp_def, Nat.zero_add, hm]
      rfl

/-- The spindles after a result's writes (R62). -/
theorem spn_deliver (ws : List RegW) (v n : Nat) : spn (s.deliver o ws) v n =
    (spn s v n).map (fun x => if v = o.blk ∧ n = o.m then x.deliver ws else x) :=
  spn_updSp s o.blk o.m (fun sp => sp.deliver ws) (fun _ => rfl) v n

/-- Operations after it: earlier writes of the same registers may be gone from them. -/
theorem ops_deliver (ws : List RegW) {x : Op} (hx : x ∈ s.ops) : ∃ y ∈ (s.deliver o ws).ops, y = { x with kind := y.kind } := by
  refine ⟨_, List.mem_map_of_mem hx, ?_⟩
  split <;> rfl

/-- A result that has to wait for its own requests stays (R160, R394). -/
theorem complete_unsent {s : State} {o : Op} (h : s.unsent o = true) : s.complete o = none := by
  rw [State.complete, h, Bool.or_true, if_pos rfl]

/-- R61: TOKEN_CLEAR of an operation on the list. -/
theorem execTokenClear_eq {s : State} {o : Op} (h : s.ops.find? (fun x => x.id == o.id) = some o) :
    execTokenClear o.id s = .next (((s.complete o).map (fun t => t.answered o)).getD s) := by
  rw [execTokenClear, h]

theorem complete_regs {s : State} {o : Op} {ws : List RegW} (hk : o.kind = .regs ws) (h : s.unsent o = false) :
    s.complete o = some ((s.deliver o ws).dropOp o) := by
  have haway : s.away o = false := by simp [State.away, hk, OpKind.engine, OpKind.rows]
  rw [State.complete, haway, h, Bool.or_false, if_neg Bool.false_ne_true, hk]
  simp only [State.finishRegs, hk]

/-- Settles O13: the result's writes are made, and the operation leaves. -/
theorem registerResultArrives : Obligations.RegisterResultArrives := by
  intro s o ws sp hfind hk hsp
  refine ⟨fun hu => ?_, fun hu => ?_⟩
  · exact (execTokenClear_eq hfind).trans (by rw [complete_unsent hu]; rfl)
  refine ⟨((s.deliver o ws).dropOp o).answered o, (execTokenClear_eq hfind).trans (by rw [complete_regs hk hu]; rfl), ?_⟩
  obtain ⟨hrest, hothers, hshells, helse, hthreads, hops⟩ := opLeaves_answered (s.deliver o ws) o
  generalize ((s.deliver o ws).dropOp o).answered o = t at hrest hothers hshells helse hthreads hops ⊢
  have hd : spn (s.deliver o ws) o.blk o.m = some (sp.deliver ws) := by rw [spn_deliver, hsp]; simp
  obtain ⟨sp', hsp', heq⟩ : ∃ sp', spn t o.blk o.m = some sp' ∧ { sp' with threads := [] } = { sp.deliver ws with threads := [] } := by
    rw [hd] at helse
    simpa using helse
  have hv : sp'.v = (sp.deliver ws).v := (congrArg Spindle.v heq :)
  have hs : sp'.s = sp.s := (congrArg Spindle.s heq :)
  have hvreg (n : Nat) : vreg t o.blk o.m n = (sp.deliver ws).v[n]? := by rw [vreg, hsp', Option.bind_some, hv]
  have hold (n : Nat) : vreg s o.blk o.m n = sp.v[n]? := by rw [vreg, hsp, Option.bind_some]
  refine ⟨fun n k => ?_, fun n => ?_, fun i => ?_, fun u' m' hne => ?_, fun u' => ?_, fun x hx => ?_, fun x hx hid => ?_,
    fun k x hx => ?_, ?_⟩
  · obtain ⟨f, hf, -, hvals⟩ := deliver_v sp ws n
    rw [word, word, hvreg, hold, hf]
    cases sp.v[n]? with
    | none => rfl
    | some r => exact hvals r k
  · obtain ⟨f, hf, htag, -⟩ := deliver_v sp ws n
    rw [hvreg, hold, hf, Option.map_map]
    congr 1
    exact funext htag
  · rw [sreg, sreg, hsp', hsp, Option.bind_some, Option.bind_some, hs]
  · rw [hothers u' m' hne, spn_deliver]
    simp only [hne, if_false, Option.map_id']
  · exact (hshells u').trans (shell_updSp s o.blk o.m (fun sp => sp.deliver ws) u')
  · rw [hops] at hx
    simpa using (List.mem_filter.mp hx).2
  · obtain ⟨y, hy, hyx⟩ := ops_deliver s o ws hx
    have hyid : y.id = x.id := (congrArg Op.id hyx :)
    exact ⟨y, by rw [hops]; exact List.mem_filter.mpr ⟨hy, by simpa [hyid] using hid⟩, hyx⟩
  · refine hthreads k x ?_
    rw [thr, hd]
    rw [thr, hsp] at hx
    exact hx
  · have hd : (s.deliver o ws).answered o = withWork (s.deliver o ws).blocks (s.deliver o ws).ops (s.answered o) :=
      answered_withWork _ _ s o
    have hr : t = withWork t.blocks t.ops ((s.deliver o ws).answered o) := hrest
    rw [hd] at hr
    exact hr

end Sys2Proof.Safety
end

section
/-! PROOF. The tailstock hart's GRANT (R398). -/

namespace Sys2Proof.Safety

open Sys2Proof Sys2Proof.Machine

/-- A spindle whose one thread is HALTED. -/
def haltedSpindle : Spindle := { probeSpindle with threads := [{ probeThread with st := .halted }] }

/-- It is resident on core 0, which is stalled: one of its pages waits for service. -/
def haltedOnStalled : State :=
  { State.reset with
    blocks := [{ probeBlock 0 with spindles := [haltedSpindle] }]
    services := [{ core := 0, ctx := 0, va := 0, write := false, fetch := false, tag := 0, sent := true, spid := 0, slots := [0]
                   op := none, queue := none, record := none, mirror := false }] }

/-- R398: a HALTED thread is not STALLED, so such a spindle is not granted when it is selected. -/
theorem halted_not_granted :
    (match exec (.hsel 0 0) haltedOnStalled with
      | .next t => (t.hselOf 0).getLsbD 62
      | _ => true) = false := by
  decide +kernel

/-- Refutes O54: the statement counts every thread of a stalled core as quiet, a HALTED one too, and has HSEL grant its
spindle; R398 (and the model) grant a spindle whose threads are PARKED, STALLED or STOPPED only. -/
theorem not_tailstockHart : ¬ Obligations.TailstockHart := by
  intro h
  obtain ⟨-, hsel, -⟩ := h haltedOnStalled 0 0 0 { probeBlock 0 with spindles := [haltedSpindle] } haltedSpindle
  obtain ⟨t, ht, -, hgrant, -⟩ := hsel rfl (by decide) (by simp [haltedOnStalled, State.reset])
  have hup : (t.hselOf 0).getLsbD 62 = true := hgrant.mpr (fun x _ => .inr (.inr (.inr rfl)))
  have hdown := halted_not_granted
  rw [ht] at hdown
  exact absurd hup (by simpa using hdown)

end Sys2Proof.Safety
end

section
/-! PROOF. What an engine's read changes outside the caches: messages to the host leave the part, and the requests to peers
stay as they are (R122, R403 to R406). -/

namespace Sys2Proof.Safety

open Sys2Proof Sys2Proof.Machine

/-- The fabric's state stays, and messages may leave the part. -/
def Inward (s t : State) : Prop := t.fabric = s.fabric ∧ s.out <+: t.out

theorem Inward.refl (s : State) : Inward s s := ⟨rfl, List.prefix_refl _⟩

theorem Inward.trans {s t u : State} (h : Inward s t) (k : Inward t u) : Inward s u := ⟨k.1.trans h.1, h.2.trans k.2⟩

theorem Inward.foldl {α : Type} {f : State → α → State} (h : ∀ t x, Inward t (f t x)) (l : List α) (s : State) :
    Inward s (l.foldl f s) := by
  induction l generalizing s with
  | nil => exact .refl s
  | cons x r ih => exact (h s x).trans (ih _)

/-- Nothing leaves the part. -/
theorem Inward.of {s t : State} (hf : t.fabric = s.fabric) (ho : t.out = s.out) : Inward s t := ⟨hf, ho ▸ List.prefix_refl _⟩

/-- Messages leave the part. -/
theorem Inward.sends {s t : State} (l : List OutMsg) (hf : t.fabric = s.fabric) (ho : t.out = s.out ++ l) : Inward s t :=
  ⟨hf, ho ▸ List.prefix_append _ _⟩

variable (s : State)

theorem inward_commit (pa : Nat) (d : List Byte) : Inward s (s.commit pa d) := by
  unfold State.commit
  dsimp only
  split <;> exact .of rfl rfl

theorem inward_ack (p : Pend → Bool) : Inward s (s.ack p) :=
  Inward.trans (t := { s with coh := { s.coh with pend := s.coh.pend.filter (fun x => !p x) } }) (.of rfl rfl)
    (Inward.foldl (fun t (x : Pend) => inward_commit t x.pa x.data) _ _)

theorem inward_stashBack (b : Block) (x : Nat × Nat) : Inward s (s.stashBack b x) := by
  unfold State.stashBack
  split
  · exact .refl s
  · exact (inward_ack s _).trans (inward_commit _ _ _)

theorem inward_recallFrom (u : Nat) (x : Nat × Nat) : Inward s (s.recallFrom u x) := by
  unfold State.recallFrom
  split
  · exact .refl s
  · dsimp only
    split
    · exact (inward_stashBack s _ x).trans (.of rfl rfl)
    · exact .of rfl rfl

theorem inward_recall (l : Nat) : Inward s (s.recall l) :=
  Inward.foldl (fun _ (b : Block) => Inward.foldl (fun u (x : Nat × Nat) => inward_recallFrom u b.uid x) _ _) _ _

theorem inward_snoopHost (l : Nat) (w : Bool) : Inward s (s.snoopHost l w) := by
  unfold State.snoopHost
  split
  · split
    · exact .sends [_] rfl rfl
    · exact .sends [_] rfl rfl
  · exact .refl s

theorem inward_giveLine (l : Nat) : Inward s (s.giveLine l) := (inward_recall s l).trans (inward_ack _ _)

theorem inward_dropL1 (l : Nat) : Inward s (s.dropL1 l) := .of rfl rfl

theorem inward_dropOwn (core l : Nat) : Inward s (s.dropOwn core l) := .of rfl rfl

theorem inward_serveHost (r : HostReq) : Inward s (s.serveHost r) := by
  unfold State.serveHost
  dsimp only
  generalize linePieces r.pa (if r.write = true then r.data.length else r.len) = ps
  have h := Inward.foldl (fun t (p : Nat × Nat) => inward_giveLine t (lineOf p.1)) ps s
  generalize ps.foldl (fun t (p : Nat × Nat) => t.giveLine (lineOf p.1)) s = u at h ⊢
  split
  · have hw := Inward.foldl (fun t (p : Nat × Nat) =>
      (inward_commit t p.1 ((r.data.drop (p.1 - r.pa)).take p.2)).trans (inward_dropL1 _ (lineOf p.1))) ps u
    generalize ps.foldl (fun (t : State) p => (t.commit p.1 ((r.data.drop (p.1 - r.pa)).take p.2)).dropL1 (lineOf p.1)) u = v at hw ⊢
    exact (h.trans hw).trans (.sends (s := v) [.hostDone r] rfl rfl)
  · split
    · exact h.trans (.sends [.hostError r] rfl rfl)
    · exact h.trans (.sends [.hostData r (bytesAt u.home r.pa r.len)] rfl rfl)

theorem inward_flipWork (page : Nat) (toHost : Bool) : Inward s (s.flipWork page toHost) := by
  unfold State.flipWork
  dsimp only
  split
  · exact .refl s
  · split
    · have h := Inward.foldl (fun t l => inward_giveLine t l) (pageLines page) s
      generalize (pageLines page).foldl State.giveLine s = u at h ⊢
      exact h.trans (.of rfl rfl)
    · exact .sends _ rfl rfl

theorem inward_hostGo (n : Nat) (r : HostReq) : Inward s (s.hostGo n r) := by
  unfold State.hostGo
  split
  · exact .of rfl rfl
  · split
    · exact .of rfl rfl
    · exact inward_serveHost s r

theorem inward_endFlip (page : Nat) : Inward s (s.endFlip page) := by
  unfold State.endFlip
  split
  · exact .refl s
  · rename_i f _
    dsimp only
    have h : Inward s _ := Inward.trans (t := { s with coh := { s.coh with flips := s.coh.flips.erase f } }) (.of rfl rfl)
      (inward_flipWork _ page f.toHost)
    generalize State.flipWork _ page f.toHost = u at h ⊢
    refine h.trans (Inward.trans ?_ (Inward.foldl (fun t (x : Nat × HostReq) => inward_hostGo t x.1 x.2) _ _))
    exact .of rfl rfl

theorem inward_endFlips (page n : Nat) : Inward s (s.endFlips page n) := by
  induction n generalizing s with
  | zero => exact .refl s
  | succ n ih =>
    unfold State.endFlips
    split
    · exact (inward_endFlip s page).trans (ih _)
    · exact .refl s

theorem inward_takeLine (die : Option Nat) (l : Nat) (w : Bool) : Inward s (s.takeLine die l w) := by
  have h := (inward_endFlips s (l / 32) (2 * s.coh.flips.length + 2)).trans ((inward_recall _ l).trans (inward_snoopHost _ l w))
  unfold State.takeLine
  dsimp only
  split
  · exact h.trans (inward_ack _ _)
  · exact h.trans (inward_ack _ _)

/-- A read by an engine of a core. -/
theorem inward_engineLoad (core pa n : Nat) : Inward s (s.engineLoad (some core) pa n).2 :=
  Inward.foldl (fun t (p : Nat × Nat) => (inward_takeLine t (some (dieOf core)) (lineOf p.1) false).trans
    (inward_dropOwn _ core (lineOf p.1))) (linePieces pa n) s

end Sys2Proof.Safety
end

section
/-! PROOF. Memory as a core's die sees it where nothing stands between: an acknowledgement and an engine's read change no
byte, an engine's store changes the bytes it writes (R115, R161, R433). -/

namespace Sys2Proof.Safety

open Sys2Proof Sys2Proof.Machine

/-! Bytes of acknowledged memory. -/

/-- Nothing but acknowledged memory and its records for R126 differs. -/
structure HomeOnly (s t : State) : Prop where
  coh : t.coh = s.coh
  blocks : t.blocks = s.blocks
  health : t.health = s.health

theorem homeOnly_commit (s : State) (pa : Nat) (d : List Byte) : HomeOnly s (s.commit pa d) := by
  unfold State.commit
  dsimp only
  split <;> exact ⟨rfl, rfl, rfl⟩

/-- A byte after a commit. -/
theorem home_commit {s : State} (hf : s.health.unmapped = []) (pa : Nat) (d : List Byte) (a : Nat) :
    (s.commit pa d).home a = if pa ≤ a ∧ a < pa + d.length then (d[a - pa]?).getD 0 else s.home a := by
  have hret (u : State) (hu : u.health = s.health) : u.retired a = false := by simp [State.retired, hu, hf]
  have hmem : (s.commit pa d).mem = Memory.setMany s.mem pa d ∧ (s.commit pa d).epoch = s.epoch := by
    unfold State.commit
    dsimp only
    split <;> exact ⟨rfl, rfl⟩
  rw [State.home, hret _ (homeOnly_commit s pa d).health, State.home, hret s rfl, hmem.1, hmem.2, Memory.get_setMany]
  simp only [Bool.false_eq_true, if_false]
  split
  · rename_i h
    rw [List.getElem?_eq_getElem (by omega)]
    rfl
  · rfl

/-- A pending store writes the address. -/
def Covers (p : Pend) (a : Nat) : Prop := p.pa ≤ a ∧ a < p.pa + p.data.length

theorem pendByte_none {die a : Nat} {l : List Pend} (h : ∀ p ∈ l, ¬Covers p a) : pendByte die a l = none := by
  induction l with
  | nil => rfl
  | cons p r ih =>
    rw [pendByte, ih (fun q hq => h q (List.mem_cons_of_mem _ hq))]
    exact if_neg (fun hc => h p List.mem_cons_self hc.2)

/-- Stores that do not write the address may be left out. -/
theorem pendByte_filter {die a : Nat} {l : List Pend} {f : Pend → Bool} (h : ∀ p ∈ l, Covers p a → f p = true) :
    pendByte die a (l.filter f) = pendByte die a l := by
  induction l with
  | nil => rfl
  | cons p r ih =>
    have ih := ih (fun q hq => h q (List.mem_cons_of_mem _ hq))
    by_cases hf : f p = true
    · rw [List.filter_cons_of_pos hf, pendByte, pendByte, ih]
    · have hn : ¬(p.die = die ∧ p.pa ≤ a ∧ a < p.pa + p.data.length) := fun hc => hf (h p List.mem_cons_self hc.2)
      rw [List.filter_cons_of_neg hf, ih, pendByte, if_neg hn]
      cases pendByte die a r <;> rfl

theorem homeOnly_foldl (l : List Pend) (s : State) : HomeOnly s (l.foldl (fun t x => t.commit x.pa x.data) s) := by
  induction l generalizing s with
  | nil => exact ⟨rfl, rfl, rfl⟩
  | cons x r ih =>
    have h := homeOnly_commit s x.pa x.data
    have k := ih (s.commit x.pa x.data)
    exact ⟨k.coh.trans h.coh, k.blocks.trans h.blocks, k.health.trans h.health⟩

/-- A byte after the stores of one die are committed in the order performed. -/
theorem home_foldl {die a : Nat} {l : List Pend} (hd : ∀ p ∈ l, p.die = die) {s : State} (hf : s.health.unmapped = []) :
    (l.foldl (fun t x => t.commit x.pa x.data) s).home a = (pendByte die a l).getD (s.home a) := by
  induction l generalizing s with
  | nil => rfl
  | cons x r ih =>
    have hh := (homeOnly_commit s x.pa x.data).health
    rw [List.foldl_cons, ih (fun p hp => hd p (List.mem_cons_of_mem _ hp)) (by rw [hh, hf]), home_commit hf, pendByte]
    cases pendByte die a r with
    | some b => rfl
    | none =>
      have hx := hd x List.mem_cons_self
      by_cases hc : x.pa ≤ a ∧ a < x.pa + x.data.length
      · simp only [hx, hc, and_self, if_true, Option.getD_none]
        rw [List.getElem?_eq_getElem (by omega)]
        rfl
      · simp only [hx, true_and, if_neg hc, Option.getD_none]

/-- A byte of a die's own view changes not when some of its stores to the line, or all, are acknowledged. -/
theorem view_ack {die : Nat} {s : State} (hf : s.health.unmapped = []) (hd : ∀ p ∈ s.coh.pend, p.die = die) {f : Pend → Bool}
    {a : Nat} (hc : (∀ p ∈ s.coh.pend, Covers p a → f p = true) ∨ ∀ p ∈ s.coh.pend, Covers p a → f p = false) :
    (s.ack f).view (some die) a = s.view (some die) a := by
  have hcoh : (s.ack f).coh.pend = s.coh.pend.filter (fun x => !f x) := by rw [State.ack, (homeOnly_foldl _ _).coh]
  have hhome : (s.ack f).home a = (pendByte die a (s.coh.pend.filter f)).getD (s.home a) :=
    home_foldl (fun p hp => hd p (List.mem_filter.mp hp).1) hf
  rw [State.view, State.view, hcoh, hhome]
  rcases hc with hc | hc
  · rw [pendByte_filter hc, pendByte_none (l := s.coh.pend.filter (fun x => !f x)), Option.getD_none]
    intro p hp hcov
    have := List.mem_filter.mp hp
    simp [hc p this.1 hcov] at this
  · rw [pendByte_filter (f := fun x => !f x) (fun p hp hcov => by simp [hc p hp hcov]), pendByte_none (l := s.coh.pend.filter f),
      Option.getD_none]
    intro p hp hcov
    have := List.mem_filter.mp hp
    simp [hc p this.1 hcov] at this

/-! Quiet memory. -/

/-- A pending store inside one line writes only that line. -/
theorem Quiet.line {s : State} {core : Nat} (q : Quiet s core) {p : Pend} (hp : p ∈ s.coh.pend) {a : Nat} (hc : Covers p a) :
    lineOf p.pa = lineOf a := by
  have h := (q.pend p hp).2
  obtain ⟨h1, h2⟩ := hc
  unfold lineOf
  omega

/-- What keeps memory quiet: the caches lose copies and acknowledged stores. -/
theorem Quiet.mono {s t : State} {core : Nat} (q : Quiet s core) (hb : t.blocks = s.blocks) (hh : t.health = s.health)
    (hflips : t.coh.flips = s.coh.flips) (hdev : ∀ x ∈ t.coh.device, x ∈ s.coh.device) (hp : ∀ p ∈ t.coh.pend, p ∈ s.coh.pend)
    (hl : ∀ c ∈ t.coh.l1, c ∈ s.coh.l1) : Quiet t core where
  flips := hflips.trans q.flips
  stash := by rw [hb]; exact q.stash
  frames := by rw [hh]; exact q.frames
  device := by
    refine List.eq_nil_iff_forall_not_mem.mpr fun x hx => ?_
    have := hdev x hx
    rw [q.device] at this
    cases this
  pend := fun p h => q.pend p (hp p h)
  copies := fun c h => q.copies c (hl c h)

/-- Acknowledgements of a line keep memory quiet, and each byte that the core's die sees. -/
theorem Quiet.ack {s : State} {core : Nat} (q : Quiet s core) (f : Pend → Bool) :
    Quiet (s.ack f) core ∧ (s.ack f).coh.pend = s.coh.pend.filter (fun x => !f x) := by
  have h := homeOnly_foldl (s.coh.pend.filter f) { s with coh := { s.coh with pend := s.coh.pend.filter (fun x => !f x) } }
  have hcoh : (s.ack f).coh = { s.coh with pend := s.coh.pend.filter (fun x => !f x) } := h.coh
  refine ⟨q.mono h.blocks h.health ?_ ?_ ?_ ?_, ?_⟩ <;> rw [hcoh]
  · exact fun _ hx => hx
  · exact fun p hp => (List.mem_filter.mp hp).1
  · exact fun _ hc => hc

theorem seen_ackLine {s : State} {core : Nat} (q : Quiet s core) (line : Nat) {f : Pend → Bool}
    (hf : ∀ p ∈ s.coh.pend, f p = (lineOf p.pa == line)) (a : Nat) : seen (s.ack f) core a = seen s core a := by
  refine view_ack q.frames (fun p hp => (q.pend p hp).1) ?_
  by_cases hl : lineOf a = line
  · exact .inl fun p hp hc => by rw [hf p hp, q.line hp hc, hl, beq_self_eq_true]
  · exact .inr fun p hp hc => by rw [hf p hp, q.line hp hc]; exact beq_false_of_ne hl

/-- No stash holds a line. -/
theorem recall_quiet {s : State} {core : Nat} (q : Quiet s core) (line : Nat) : s.recall line = s := by
  have h (t : State) : ∀ l : List Block, (∀ b ∈ l, b.owned = []) →
      l.foldl (fun t b => (b.owned.filter (fun x => x.2 == line)).foldl (fun u x => u.recallFrom b.uid x) t) t = t := by
    intro l
    induction l with
    | nil => exact fun _ => rfl
    | cons b r ih =>
      intro hl
      rw [List.foldl_cons, hl b List.mem_cons_self]
      exact ih (fun c hc => hl c (List.mem_cons_of_mem _ hc))
  exact h s s.blocks q.stash

theorem endFlips_quiet {s : State} {core : Nat} (q : Quiet s core) (page n : Nat) : s.endFlips page n = s := by
  cases n with
  | zero => rfl
  | succ n => rw [State.endFlips, q.flips]; rfl

theorem snoopHost_quiet {s : State} {core : Nat} (q : Quiet s core) (line : Nat) (w : Bool) :
    Quiet (s.snoopHost line w) core ∧ (s.snoopHost line w).coh.pend = s.coh.pend ∧
      ∀ a, seen (s.snoopHost line w) core a = seen s core a := by
  unfold State.snoopHost
  split
  · split
    · exact ⟨⟨q.flips, q.stash, q.frames, q.device, q.pend, q.copies⟩, rfl, fun _ => rfl⟩
    · exact ⟨⟨q.flips, q.stash, q.frames, q.device, q.pend, q.copies⟩, rfl, fun _ => rfl⟩
  · exact ⟨q, rfl, fun _ => rfl⟩

/-- A line is taken by an agent outside the dies, or by the core's own die: nothing that the core's die sees changes. -/
structure Took (s t : State) (core line : Nat) : Prop where
  quiet : Quiet t core
  pend : t.coh.pend = s.coh.pend.filter (fun p => !(lineOf p.pa == line))
  seen : ∀ a, seen t core a = seen s core a

theorem took_ack {s : State} {core : Nat} (q : Quiet s core) (line : Nat) (w : Bool) {f : Pend → Bool}
    (hf : ∀ p ∈ s.coh.pend, f p = (lineOf p.pa == line)) : Took s ((s.snoopHost line w).ack f) core line := by
  obtain ⟨hq, hp, hs⟩ := snoopHost_quiet q line w
  obtain ⟨ha, hpend⟩ := hq.ack f
  refine ⟨ha, ?_, fun a => ?_⟩
  · rw [hpend, hp]
    exact List.filter_congr fun p hm => by rw [hf p hm]
  · rw [seen_ackLine hq line (by rw [hp]; exact hf), hs]

theorem took_read {s : State} {core : Nat} (q : Quiet s core) (line : Nat) :
    Took s (s.takeLine (some (dieOf core)) line false) core line := by
  unfold State.takeLine
  dsimp only
  rw [endFlips_quiet q, recall_quiet q]
  exact took_ack q line false fun p hp => by rw [(q.pend p hp).1]; simp

theorem took_write {s : State} {core : Nat} (q : Quiet s core) (line : Nat) : Took s (s.takeLine none line true) core line := by
  unfold State.takeLine
  dsimp only
  rw [endFlips_quiet q, recall_quiet q]
  exact took_ack q line true fun p hp => by simp

/-- R161: an engine of a core reads what the core's die sees. -/
theorem engineLoad_quiet {s : State} {core : Nat} (q : Quiet s core) (pa n : Nat) :
    (s.engineLoad (some core) pa n).1 = bytesAt (seen s core) pa n := by
  have h : ∀ (l : List (Nat × Nat)) (t : State), Quiet t core → ∀ a,
      seen (l.foldl (fun t p => (t.takeLine (some (dieOf core)) (lineOf p.1) false).dropOwn core (lineOf p.1)) t) core a = seen t core a := by
    intro l
    induction l with
    | nil => exact fun _ _ _ => rfl
    | cons p r ih =>
      intro t ht a
      have hr := took_read ht (lineOf p.1)
      have hq : Quiet ((t.takeLine (some (dieOf core)) (lineOf p.1) false).dropOwn core (lineOf p.1)) core :=
        hr.quiet.mono rfl rfl rfl (fun _ h => h) (fun _ h => h) (fun c hc => (List.mem_filter.mp hc).1)
      rw [List.foldl_cons, ih _ hq]
      exact hr.seen a
  exact congrArg (fun f => bytesAt f pa n) (funext (h (linePieces pa n) s q))

/-- R161: a piece of an engine's store, inside one line. -/
theorem storeSeen_quiet {s : State} {core : Nat} (q : Quiet s core) (pa : Nat) (d : List Byte) (hl : pa % 128 + d.length ≤ 128) :
    Quiet (s.storeSeen pa d false) core ∧ ∀ a, seen (s.storeSeen pa d false) core a =
      if pa ≤ a ∧ a < pa + d.length then (d[a - pa]?).getD 0 else seen s core a := by
  obtain ⟨hq, hp, hs⟩ := took_write q (lineOf pa)
  have ho : Quiet ((s.takeLine none (lineOf pa) true).overDevice (lineOf pa)) core :=
    hq.mono rfl rfl rfl (fun x hx => (List.mem_filter.mp hx).1) (fun _ h => h) (fun _ h => h)
  have hso (a : Nat) : seen ((s.takeLine none (lineOf pa) true).overDevice (lineOf pa)) core a = seen s core a := hs a
  have hpo : ((s.takeLine none (lineOf pa) true).overDevice (lineOf pa)).coh.pend = s.coh.pend.filter (fun p => !(lineOf p.pa == lineOf pa)) := hp
  have ht : s.storeSeen pa d false = (((s.takeLine none (lineOf pa) true).overDevice (lineOf pa)).commit pa d).dropL1 (lineOf pa) := rfl
  generalize (s.takeLine none (lineOf pa) true).overDevice (lineOf pa) = u at ho hso hpo ht
  rw [ht]
  have hc := homeOnly_commit u pa d
  refine ⟨ho.mono hc.blocks hc.health ?_ ?_ ?_ ?_, fun a => ?_⟩
  · exact (congrArg Coh.flips hc.coh :)
  · exact fun x hx => (congrArg Coh.device hc.coh :) ▸ hx
  · exact fun x hx => (congrArg Coh.pend hc.coh :) ▸ hx
  · exact fun x hx => (congrArg Coh.l1 hc.coh :) ▸ (List.mem_filter.mp hx).1
  · have hv : seen ((u.commit pa d).dropL1 (lineOf pa)) core a = (pendByte (dieOf core) a u.coh.pend).getD ((u.commit pa d).home a) :=
      congrArg (fun l => (pendByte (dieOf core) a l).getD ((u.commit pa d).home a)) (congrArg Coh.pend hc.coh :)
    rw [hv, home_commit ho.frames]
    split
    · rename_i hin
      rw [pendByte_none, Option.getD_none]
      intro p hm hcov
      have hline := ho.line hm hcov
      rw [hpo] at hm
      have hne := (List.mem_filter.mp hm).2
      have : lineOf a = lineOf pa := by unfold lineOf; omega
      simp [hline, this] at hne
    · exact hso a

/-- R161: the pieces of an engine's store from `a` on. -/
theorem engineStore_pieces {core pa : Nat} {d : List Byte} : ∀ (fuel a n : Nat) (s : State), Quiet s core → pa ≤ a →
    a + n = pa + d.length → (n = 0 ∨ n + a % 128 ≤ fuel * 128) →
    ∀ x, seen ((cutAt 128 fuel a n).foldl (fun t p => t.storeSeen p.1 ((d.drop (p.1 - pa)).take p.2) false) s) core x =
      if a ≤ x ∧ x < a + n then (d[x - pa]?).getD 0 else seen s core x := by
  intro fuel
  induction fuel with
  | zero =>
    intro a n s q ha he hf x
    rw [cutAt, List.foldl_nil, if_neg (by omega)]
  | succ fuel ih =>
    intro a n s q ha he hf x
    rw [cutAt]
    split
    · rw [List.foldl_nil, if_neg (by omega)]
    · rename_i hn
      have hk : (List.take (min n (128 - a % 128)) (d.drop (a - pa))).length = min n (128 - a % 128) := by
        rw [List.length_take, List.length_drop]; omega
      obtain ⟨hq, hs⟩ := storeSeen_quiet q a (List.take (min n (128 - a % 128)) (d.drop (a - pa))) (by omega)
      rw [List.foldl_cons, ih _ _ _ hq (by omega) (by omega) (by omega), hs, hk]
      by_cases h1 : a ≤ x ∧ x < a + min n (128 - a % 128)
      · rw [if_neg (by omega), if_pos h1, if_pos (by omega), List.getElem?_take_of_lt (by omega), List.getElem?_drop,
          show a - pa + (x - a) = x - pa by omega]
      · rw [if_neg h1]
        exact if_congr (by omega) rfl rfl

/-- R161: an engine's store. -/
theorem engineStore_quiet {s : State} {core : Nat} (q : Quiet s core) (pa : Nat) (d : List Byte) (a : Nat) :
    seen (s.engineStore pa d false) core a = if pa ≤ a ∧ a < pa + d.length then (d[a - pa]?).getD 0 else seen s core a :=
  engineStore_pieces (d.length / 128 + 2) pa d.length s q (Nat.le_refl _) rfl (.inr (by omega)) a

end Sys2Proof.Safety
end

section
/-! PROOF. The requests that a request to a peer makes leave together, or wait together (R166, R394). -/

namespace Sys2Proof.Safety

open Sys2Proof Sys2Proof.Machine

/-- What the fabric decides for a request depends on the fabric alone. -/
theorem mustHold_congr {s t : State} (h : t.fabric = s.fabric) (x : PeerOut) : t.mustHold x = s.mustHold x := by
  rw [State.mustHold, h, State.mustHold]

theorem requests_congr {s t : State} (h : t.fabric = s.fabric) (key : StreamId) (dev : BitVec 12) (pa : Nat) (k : PeerKind)
    (op : Option Nat) (thr : Option (Nat × Nat × Nat)) : requests t key dev pa k op thr = requests s key dev pa k op thr := by
  have hp (a : Nat) : t.planeOf a = s.planeOf a := by rw [State.planeOf, h, State.planeOf]
  simp only [requests, hp]

theorem sendOrHold_planes (t : State) (h : HeldOut) : (sendOrHold t h).fabric.planes = t.fabric.planes := by
  unfold sendOrHold
  split <;> rfl

/-- The request for a piece of what a request to a peer reaches (R166). -/
def requestAt (s : State) (key : StreamId) (dev : BitVec 12) (pa : Nat) (k : PeerKind) (op : Option Nat)
    (thr : Option (Nat × Nat × Nat)) (p : Nat × Nat) : HeldOut :=
  { kind := peerPart k (p.1 - pa) p.2
    x := { key := key, dev := dev, plane := s.planeOf p.1, op := op, thr := thr, addr := BitVec.ofNat 64 p.1, len := p.2 } }

/-- A request to a peer, as the list of what it makes. -/
theorem sendPeer_eq (s : State) (key : StreamId) (dev : BitVec 12) (pa : Nat) (k : PeerKind) (op : Option Nat)
    (thr : Option (Nat × Nat × Nat)) :
    s.sendPeer key dev pa k op thr = (requests s key dev pa k op thr).foldl sendOrHold s := by
  have h : ∀ (l : List (Nat × Nat)) (t : State), t.fabric.planes = s.fabric.planes →
      l.foldl (fun t p => sendOrHold t (requestAt t key dev pa k op thr p)) t =
        (l.map (requestAt s key dev pa k op thr)).foldl sendOrHold t := by
    intro l
    induction l with
    | nil => exact fun _ _ => rfl
    | cons p r ih =>
      intro t ht
      have hp : requestAt t key dev pa k op thr p = requestAt s key dev pa k op thr p := by
        rw [requestAt, State.planeOf, ht]
        rfl
      rw [List.foldl_cons, List.map_cons, List.foldl_cons, ih _ ((sendOrHold_planes t _).trans ht), hp]
  exact h _ s rfl

/-- The entry of the plane map by a request's address of 64 bits (R166). -/
theorem planeEntry_ofNat (a : Nat) : planeEntry (BitVec.ofNat 64 a).toNat = planeEntry a := by
  rw [BitVec.toNat_ofNat]
  unfold planeEntry lineOf
  omega

/-- Two of the requests that go by one entry go by one plane. -/
theorem requests_plane {s : State} {key : StreamId} {dev : BitVec 12} {pa : Nat} {k : PeerKind} {op : Option Nat}
    {thr : Option (Nat × Nat × Nat)} {h : HeldOut} (hm : h ∈ requests s key dev pa k op thr) :
    h.x.plane = ((s.fabric.planes[h.x.entry]?).map (·.1)).getD 0 := by
  obtain ⟨p, -, rfl⟩ := List.mem_map.mp hm
  rw [PeerOut.entry, planeEntry_ofNat]
  rfl

/-- Requests leave, in order. -/
def sendAll (t : State) (l : List HeldOut) : State :=
  { t with out := t.out ++ l.map HeldOut.msg, fabric := { t.fabric with outst := t.fabric.outst ++ l.map (·.x) } }

/-- Requests wait, in order. -/
def holdAll (t : State) (l : List HeldOut) : State := { t with fabric := { t.fabric with held := t.fabric.held ++ l } }

theorem mustHold_sendOut (t : State) (h : HeldOut) (x : PeerOut) :
    (t.sendOut h).mustHold x = (t.mustHold x || (h.x.entry == x.entry && h.x.plane != x.plane)) := by
  simp only [State.mustHold, State.sendOut, List.any_append, List.any_cons, List.any_nil, Bool.or_false, Bool.or_assoc]

/-- Requests of which none has to wait, and that agree on the planes of their entries, leave. -/
theorem foldl_sends {f : Nat → Nat} {l : List HeldOut} (hf : ∀ h ∈ l, h.x.plane = f h.x.entry) {t : State}
    (hm : ∀ h ∈ l, t.mustHold h.x = false) : l.foldl sendOrHold t = sendAll t l := by
  induction l generalizing t with
  | nil => simp [sendAll]
  | cons h r ih =>
    have hh := hm h List.mem_cons_self
    have hs : sendOrHold t h = t.sendOut h := by rw [sendOrHold, hh, if_neg Bool.false_ne_true]
    rw [List.foldl_cons, hs, ih (fun g hg => hf g (List.mem_cons_of_mem _ hg))]
    · simp [sendAll, State.sendOut, HeldOut.msg]
    · intro g hg
      rw [mustHold_sendOut, hm g (List.mem_cons_of_mem _ hg), hf h List.mem_cons_self, hf g (List.mem_cons_of_mem _ hg), Bool.false_or]
      by_cases he : h.x.entry = g.x.entry <;> simp [he]

theorem mustHold_holdOut (t : State) (h : HeldOut) {x : PeerOut} (hx : t.mustHold x = true) : (holdOut t h).mustHold x = true := by
  simp only [State.mustHold, holdOut, List.any_append, Bool.or_eq_true] at hx ⊢
  tauto

/-- Requests that all have to wait do. -/
theorem foldl_holds {l : List HeldOut} {t : State} (hm : ∀ h ∈ l, t.mustHold h.x = true) : l.foldl sendOrHold t = holdAll t l := by
  induction l generalizing t with
  | nil => simp [holdAll]
  | cons h r ih =>
    have hs : sendOrHold t h = holdOut t h := by rw [sendOrHold, hm h List.mem_cons_self, if_pos rfl]
    rw [List.foldl_cons, hs, ih (fun g hg => mustHold_holdOut t h (hm g (List.mem_cons_of_mem _ hg)))]
    simp [holdAll, holdOut]

/-- R166: a request to a peer of which nothing has to wait. -/
theorem sendPeer_sends {s : State} {key : StreamId} {dev : BitVec 12} {pa : Nat} {k : PeerKind} {op : Option Nat}
    {thr : Option (Nat × Nat × Nat)} (h : ∀ x ∈ requests s key dev pa k op thr, s.mustHold x.x = false) :
    s.sendPeer key dev pa k op thr = sendAll s (requests s key dev pa k op thr) := by
  rw [sendPeer_eq, foldl_sends (f := fun e => ((s.fabric.planes[e]?).map (·.1)).getD 0) (fun _ hm => requests_plane hm) h]

/-- R166, R394: one of which everything has to wait. -/
theorem sendPeer_holds {s : State} {key : StreamId} {dev : BitVec 12} {pa : Nat} {k : PeerKind} {op : Option Nat}
    {thr : Option (Nat × Nat × Nat)} (h : ∀ x ∈ requests s key dev pa k op thr, s.mustHold x.x = true) :
    s.sendPeer key dev pa k op thr = holdAll s (requests s key dev pa k op thr) := by
  rw [sendPeer_eq, foldl_holds h]

end Sys2Proof.Safety
end

section
/-! PROOF. Packets of a transfer leave and are acknowledged (R318, R394). -/

namespace Sys2Proof.Safety

open Sys2Proof Sys2Proof.Machine

/-! An operation on the list. -/

theorem pending_congr {s t : State} (h : t.ops = s.ops) (id : Nat) : pending t id = pending s id := by rw [pending, h, pending]

/-- What an operation still has to do is changed. -/
theorem pending_setKind {s : State} {id : Nat} {o : Op} (h : pending s id = some o) (k : OpKind) :
    (pending (s.setKind id k) id).map (·.kind) = some k := by
  have hid (x : Op) : ((if (x.id == id) = true then { x with kind := k } else x).id == id) = (x.id == id) := by
    split <;> rfl
  have hp : pending (s.setKind id k) id = (pending s id).map (fun x => if (x.id == id) = true then { x with kind := k } else x) := by
    unfold pending State.setKind
    rw [List.find?_map]
    exact congrArg (fun f => (s.ops.find? f).map _) (funext hid)
  have ho : (o.id == id) = true := by simpa using List.find?_some h
  rw [hp, h, Option.map_some, if_pos ho, Option.map_some]

/-- Nothing waits at this device. -/
theorem flushHeld_none {s : State} (h : s.fabric.held = []) : s.flushHeld = s := by
  rw [flushHeld_eq, h, List.foldl_nil, ← h]

/-- The state with other requests on their way. -/
def withOutst (s : State) (l : List PeerOut) : State := { s with fabric := { s.fabric with outst := l } }

theorem acked_none {s : State} (h : s.fabric.held = []) (op : Nat) (locs : List (Loc × Nat)) :
    s.acked op locs = withOutst s (s.fabric.outst.filter (fun x => !x.isFor op locs)) :=
  flushHeld_none (s := withOutst s _) h

/-- R290: a counter word with EN 0 names no counter. -/
theorem bumpWord_off (s : State) (launch ctx x : Nat) {w : Dword} (h : w.getLsbD 32 = false) : s.bumpWord launch ctx w x = s := by
  rw [State.bumpWord, h]
  rfl

theorem execMicro_sendPacket {s : State} {o : Op} (h : pending s o.id = some o) (i : Nat) :
    execMicro (.sendPacket o.id i) s = .next (s.sendPacket o i) := by
  have hx : execMicro (.sendPacket o.id i) s = .next (((pending s o.id).map (fun o => s.sendPacket o i)).getD s) := rfl
  rw [hx, h, Option.map_some, Option.getD_some]

section Transfer

variable {s : State} {o : Op} {i off len : Nat} {dst src : List (Loc × Nat)} {todo sent : List (Nat × Nat)} {bytes stream : Nat}
  {ctr : Dword} {wr : Bool}

/-- R394: no packet of a frozen stream leaves. -/
theorem sendPacket_frozen (hk : o.kind = .xfer wr dst src todo sent bytes ctr stream)
    (hf : (⟨o.core, o.ctx, stream⟩ : StreamId) ∈ s.fabric.frozen) : s.sendPacket o i = s := by
  rw [State.sendPacket, hk]
  dsimp only
  split
  · rfl
  · rw [List.contains_iff_mem.mpr hf, if_pos rfl]

/-- R318: a packet of an `xferw` leaves with the bytes that the transfer's engine reads. -/
theorem sendPacket_eq {pa pp : Nat} {dev : BitVec 12} (hk : o.kind = .xfer true dst src todo sent bytes ctr stream)
    (hi : todo[i]? = some (off, len)) (hf : (⟨o.core, o.ctx, stream⟩ : StreamId) ∉ s.fabric.frozen)
    (hd : subLocs dst off len = [(.peer dev pp, len)]) (hs : subLocs src off len = [(.mem pa, len)]) (hb : s.badIn pa len = none) :
    s.sendPacket o i = ((s.engineLoad (some o.core) pa len).2.setKind o.id
      (.xfer true dst src (todo.take i ++ todo.drop (i + 1)) (sent ++ [(off, len)]) bytes ctr stream)).sendPeer
        ⟨o.core, o.ctx, stream⟩ dev pp (.xfer (s.engineLoad (some o.core) pa len).1 ctr) (some o.id) none := by
  rw [State.sendPacket, hk]
  simp [hi, hf, hd, hs, hb, State.badLocs, State.readLocs, firstSome]

/-- R318, R394: a packet of an `xferw` leaves, line by line, or waits. -/
theorem packetLeaves {pa pp : Nat} {dev : BitVec 12} (ho : pending s o.id = some o)
    (hk : o.kind = .xfer true dst src todo sent bytes ctr stream)
    (hi : todo[i]? = some (off, len)) (hf : (⟨o.core, o.ctx, stream⟩ : StreamId) ∉ s.fabric.frozen)
    (hd : subLocs dst off len = [(.peer dev pp, len)]) (hs : subLocs src off len = [(.mem pa, len)]) (hb : s.badIn pa len = none) :
    ∃ t d, execMicro (.sendPacket o.id i) s = .next t ∧ d.length = len ∧
      (pending t o.id).map (·.kind) =
        some (.xfer true dst src (todo.take i ++ todo.drop (i + 1)) (sent ++ [(off, len)]) bytes ctr stream) ∧
      let all := requests s ⟨o.core, o.ctx, stream⟩ dev pp (.xfer d ctr) (some o.id) none
      ((∀ h ∈ all, s.mustHold h.x = false) → t.fabric.held = s.fabric.held ∧
        t.fabric.outst = s.fabric.outst ++ all.map (·.x) ∧ ∃ snoops, t.out = s.out ++ snoops ++ all.map HeldOut.msg) ∧
      ((∀ h ∈ all, s.mustHold h.x = true) → t.fabric.held = s.fabric.held ++ all ∧ t.fabric.outst = s.fabric.outst) ∧
      (Quiet s o.core → d = bytesAt (seen s o.core) pa len) := by
  obtain ⟨hfab, snoops, hout⟩ := inward_engineLoad s o.core pa len
  have hops : (s.engineLoad (some o.core) pa len).2.ops = s.ops := (congrArg State.ops (traffic_engineLoad s (some o.core) pa len false).1 :)
  have hpk := pending_setKind ((pending_congr hops o.id).trans ho)
    (.xfer true dst src (todo.take i ++ todo.drop (i + 1)) (sent ++ [(off, len)]) bytes ctr stream)
  have hlen : (s.engineLoad (some o.core) pa len).1.length = len := by simp [State.engineLoad, bytesAt]
  have hq : Quiet s o.core → (s.engineLoad (some o.core) pa len).1 = bytesAt (seen s o.core) pa len := (engineLoad_quiet · pa len)
  refine ⟨_, _, (execMicro_sendPacket ho i).trans (congrArg Host.Outcome.next (sendPacket_eq hk hi hf hd hs hb)), hlen, ?_, ?_, ?_, hq⟩
  · rw [pending_congr (requestsOnly_sendPeer _ _ _ _ _ _ _).ops]
    exact hpk
  all_goals
    generalize (s.engineLoad (some o.core) pa len).1 = d
    generalize hT : (s.engineLoad (some o.core) pa len).2.setKind o.id _ = T
    have hTf : T.fabric = s.fabric := hT ▸ hfab
    have hTo : T.out = s.out ++ snoops := hT ▸ hout.symm
    have hreq := requests_congr hTf ⟨o.core, o.ctx, stream⟩ dev pp (.xfer d ctr) (some o.id) none
    intro h
  · rw [sendPeer_sends (by rw [hreq]; exact fun x hx => (mustHold_congr hTf x.x).trans (h x hx)), hreq]
    refine ⟨?_, ?_, snoops, ?_⟩
    · exact (congrArg Fabric.held hTf :)
    · exact congrArg (Fabric.outst · ++ _) hTf
    · exact congrArg (· ++ _) hTo
  · rw [sendPeer_holds (by rw [hreq]; exact fun x hx => (mustHold_congr hTf x.x).trans (h x hx)), hreq]
    exact ⟨congrArg (Fabric.held · ++ _) hTf, (congrArg Fabric.outst hTf :)⟩

/-- R394: no packet of a frozen stream is acknowledged. -/
theorem packet_frozen (ho : pending s o.id = some o) (hk : o.kind = .xfer wr dst src todo sent bytes ctr stream)
    (hi : sent[i]? = some (off, len)) (hf : (⟨o.core, o.ctx, stream⟩ : StreamId) ∈ s.fabric.frozen) (data : List Byte) :
    exec (.xferPacket o.id i data) s = .next s := by
  change execXferPacket o.id i data s = .next s
  have ho : s.ops.find? (fun x => x.id == o.id) = some o := ho
  simp [execXferPacket, ho, hk, hi, hf]

/-- R318: an `xferr`'s packet of a stream that runs is acknowledged. -/
theorem packet_read (ho : pending s o.id = some o) (hk : o.kind = .xfer true dst src todo sent bytes ctr stream)
    (hi : sent[i]? = some (off, len)) (hf : (⟨o.core, o.ctx, stream⟩ : StreamId) ∉ s.fabric.frozen) (hh : s.fabric.held = [])
    (data : List Byte) : ∃ t, exec (.xferPacket o.id i data) s = .next t ∧ t.mem = s.mem ∧
      (pending t o.id).map (·.kind) = some (.xfer true dst src todo (sent.take i ++ sent.drop (i + 1)) bytes ctr stream) := by
  have hx : exec (.xferPacket o.id i data) s = .next ((s.acked o.id (subLocs dst off len)).setKind o.id
      (.xfer true dst src todo (sent.take i ++ sent.drop (i + 1)) bytes ctr stream)) := by
    change execXferPacket o.id i data s = _
    have ho : s.ops.find? (fun x => x.id == o.id) = some o := ho
    simp [execXferPacket, ho, hk, hi, hf, hh]
  rw [acked_none hh] at hx
  exact ⟨_, hx, rfl, pending_setKind (s := withOutst s _) ho _⟩

/-- R318: the bytes that a peer sends of an `xferw`'s packet are written; its counter is not named. -/
theorem packet_written {pa : Nat} {data : List Byte} (ho : pending s o.id = some o)
    (hk : o.kind = .xfer false dst src todo sent bytes ctr stream) (hi : sent[i]? = some (off, len))
    (hf : (⟨o.core, o.ctx, stream⟩ : StreamId) ∉ s.fabric.frozen) (hh : s.fabric.held = [])
    (hd : subLocs dst off len = [(.mem pa, len)]) (hdown : s.downIn pa len = none) (hlen : data.length = len)
    (hctr : ctr.getLsbD 32 = false) : ∃ t, exec (.xferPacket o.id i data) s = .next t ∧
      (pending t o.id).map (·.kind) = some (.xfer false dst src todo (sent.take i ++ sent.drop (i + 1)) bytes ctr stream) ∧
      (Quiet s o.core → ∀ a, seen t o.core a =
        if pa ≤ a ∧ a < pa + len then (data[a - pa]?).getD 0 else seen s o.core a) := by
  have hdata : List.take len (data ++ List.replicate len 0#8) = data := by rw [← hlen, List.take_left]
  have hcut : List.take len data = data := by rw [← hlen, List.take_length]
  have hx : exec (.xferPacket o.id i data) s = .next (((s.acked o.id (subLocs src off len)).engineStore pa data).setKind o.id
      (.xfer false dst src todo (sent.take i ++ sent.drop (i + 1)) bytes ctr stream)) := by
    change execXferPacket o.id i data s = _
    have ho : s.ops.find? (fun x => x.id == o.id) = some o := ho
    have hdown' : (s.acked o.id (subLocs src off len)).downLocs [(.mem pa, len)] = none := by
      rw [acked_none hh]
      exact congrArg (fun x => firstSome [x]) hdown
    have hdown : s.downLocs [(.mem pa, len)] = none := congrArg (fun x => firstSome [x]) hdown
    simp [execXferPacket, ho, hk, hi, hf, hh, hd, hdown, hdown', hdata, hcut, State.opWrite, State.writeLocs, bumpWord_off _ _ _ _ hctr]
  rw [acked_none hh] at hx
  have hops : ((withOutst s (s.fabric.outst.filter (fun x => !x.isFor o.id (subLocs src off len)))).engineStore pa data).ops = s.ops :=
    (congrArg State.ops (traffic_engineStore (withOutst s _) pa data false).1 :)
  refine ⟨_, hx, pending_setKind ((pending_congr hops o.id).trans ho) _, fun q a => ?_⟩
  have hq : Quiet (withOutst s (s.fabric.outst.filter (fun x => !x.isFor o.id (subLocs src off len)))) o.core :=
    q.mono rfl rfl rfl (fun _ h => h) (fun _ h => h) (fun _ h => h)
  subst hlen
  exact (engineStore_quiet hq pa data a).trans (if_congr Iff.rfl rfl rfl)

end Transfer

end Sys2Proof.Safety
end

section
/-! PROOF. A transfer ends, and a message leaves (R61, R318, R319). -/

namespace Sys2Proof.Safety

open Sys2Proof Sys2Proof.Machine

/-- An operation that leaves the list is gone, and the others stay as they are. -/
theorem opGone_of {s t : State} {id : Nat} (h : t.ops = s.ops.filter (fun x => x.id != id)) : OpGone s t id := by
  refine ⟨fun x hx => ?_, fun x hx hid => ⟨x, ?_, rfl⟩⟩
  · rw [h] at hx
    simpa using (List.mem_filter.mp hx).2
  · rw [h]
    exact List.mem_filter.mpr ⟨hx, by simpa using hid⟩

theorem opGone_congr {s s' t : State} {id : Nat} (h : s'.ops = s.ops) (k : OpGone s' t id) : OpGone s t id := by
  unfold OpGone at *
  rwa [h] at k

/-! Requests that go on after a wait. -/

/-- What holds of the requests on their way, and of those that waited by whatever plane they leave, holds after those go on. -/
theorem outst_foldl {P : PeerOut → Prop} {l : List HeldOut} (hl : ∀ h ∈ l, ∀ n, P { h.x with plane := n }) {t : State}
    (ht : ∀ x ∈ t.fabric.outst, P x) : ∀ x ∈ (l.foldl (fun t h => sendOrHold t (routed t h)) t).fabric.outst, P x := by
  induction l generalizing t with
  | nil => exact ht
  | cons h r ih =>
    rw [List.foldl_cons]
    refine ih (fun g hg => hl g (List.mem_cons_of_mem _ hg)) fun x hx => ?_
    unfold sendOrHold at hx
    split at hx
    · exact ht x hx
    · rcases List.mem_append.mp hx with hx | hx
      · exact ht x hx
      · rw [List.mem_singleton.mp hx]
        exact hl h List.mem_cons_self _

/-- What has left the part stays. -/
theorem out_flushHeld (s : State) : s.out <+: s.flushHeld.out := by
  have h : ∀ (l : List HeldOut) (t : State), t.out <+: (l.foldl (fun t h => sendOrHold t (routed t h)) t).out := by
    intro l
    induction l with
    | nil => exact fun _ => List.prefix_refl _
    | cons h r ih =>
      intro t
      refine List.IsPrefix.trans ?_ (ih _)
      dsimp only [sendOrHold]
      split
      · exact List.prefix_refl _
      · exact List.prefix_append _ _
  exact h s.fabric.held { s with fabric := { s.fabric with held := [] } }

/-- An operation that is over leaves no access of its own on its way. -/
theorem outst_answered {s t : State} {o : Op} (ht : t.fabric = s.fabric) (hu : s.unsent o = false) {x : PeerOut}
    (hx : x ∈ (t.answered o).fabric.outst) (hop : x.op = some o.id) : x.thr = none := by
  have hheld : ∀ h ∈ s.fabric.held, h.x.op ≠ some o.id := by
    have := (Bool.or_eq_false_iff.mp hu).1
    simpa using this
  refine outst_foldl (P := fun x => x.op = some o.id → x.thr = none) (fun h hm n hop => ?_) (fun x hm hop => ?_) x hx hop
  · exact absurd hop (hheld h (ht ▸ hm))
  · have hn := (List.mem_filter.mp hm).2
    simpa [hop] using hn

/-- R61: an operation that can be performed is, and its requests' answers are no longer awaited. -/
theorem execTokenClear_complete {s t : State} {o : Op} (ho : pending s o.id = some o) (hc : s.complete o = some t) :
    exec (.tokenClear o.id) s = .next (t.answered o) :=
  (execTokenClear_eq ho).trans (by rw [hc]; rfl)

/-! Transfers. -/

section Clear

variable {s : State} {o : Op}

/-- Operations of the fabric go on while their block is away and while their context halts (R389, R396). -/
theorem away_fabric (he : o.kind.engine = some 6) (hr : o.kind.rows = false) : s.away o = false := by
  simp [State.away, he, hr]

/-- R318: a transfer that has packets left does not end. -/
theorem transfer_waits {dst src : List (Loc × Nat)} {todo sent : List (Nat × Nat)} {bytes stream : Nat} {ctr : Dword} {wr : Bool}
    (ho : pending s o.id = some o) (hk : o.kind = .xfer wr dst src todo sent bytes ctr stream) (h : todo ≠ [] ∨ sent ≠ []) :
    exec (.tokenClear o.id) s = .next s := by
  have hc : s.complete o = none := by
    rw [State.complete]
    split
    · rfl
    · have hn : (todo.isEmpty && sent.isEmpty) = false := by
        rcases h with h | h
        · rw [List.isEmpty_eq_false_iff.mpr h, Bool.false_and]
        · rw [List.isEmpty_eq_false_iff.mpr h, Bool.and_false]
      rw [hk]
      dsimp only
      rw [hn, if_neg Bool.false_ne_true]
  exact (execTokenClear_eq ho).trans (by rw [hc]; rfl)

/-- R318: a transfer whose packets are all acknowledged ends. -/
theorem transfer_ends {dst src : List (Loc × Nat)} {bytes stream : Nat} {ctr : Dword} {wr : Bool}
    (ho : pending s o.id = some o) (hk : o.kind = .xfer wr dst src [] [] bytes ctr stream) (hu : s.unsent o = false) :
    ∃ t, exec (.tokenClear o.id) s = .next t ∧ OpGone s t o.id ∧ ∀ x ∈ t.fabric.outst, x.op = some o.id → x.thr = none := by
  have hc : s.complete o = some (s.dropOp o) := by
    rw [State.complete, away_fabric (by rw [hk]; rfl) (by rw [hk]; rfl), hu, hk]
    rfl
  exact ⟨_, execTokenClear_complete ho hc, opGone_of (opLeaves_answered s o).ops,
    fun x hx hop => outst_answered (t := s.dropOp o) rfl hu hx hop⟩

/-! Messages. -/

/-- The arrival of a message at this device, if it is the one named (R319, R320). -/
def arrivals (s : State) (o : Op) (target ctr : Dword) (payload : List Dword) (reply : Bool) : List Turn :=
  if target.extractLsb' 0 12 ≠ s.fabric.device then []
  else if reply then [.event (.replyArrival target payload)]
  else [.event (.amsgArrival { dev := s.fabric.device, sctx := BitVec.ofNat 12 o.ctx, tctx := target.extractLsb' 12 12
                               index := target.extractLsb' 24 8, ctr := ctr, payload := payload })]

theorem sendMsg_eq {target ctr : Dword} {payload : List Dword} {reply : Bool} (hk : o.kind = .amsg target ctr payload reply) :
    s.sendMsg o = { s with out := s.out ++ [.message target ctr payload reply]
                           agenda := s.agenda ++ arrivals s o target ctr payload reply } := by
  rw [State.sendMsg, hk, arrivals]
  by_cases hd : target.extractLsb' 0 12 = s.fabric.device
  · cases reply <;> simp [hd]
  · simp [hd]

/-- R319: a message leaves, and its operation with it. -/
theorem message_leaves {target ctr : Dword} {payload : List Dword} {reply : Bool} (ho : pending s o.id = some o)
    (hk : o.kind = .amsg target ctr payload reply) (hu : s.unsent o = false) :
    ∃ t, exec (.tokenClear o.id) s = .next t ∧ OpGone s t o.id ∧ .message target ctr payload reply ∈ t.out ∧
      (s.fabric.held = [] → t.out = s.out ++ [.message target ctr payload reply]) ∧
      t.agenda = s.agenda ++ arrivals s o target ctr payload reply := by
  have hc : s.complete o = some ((s.sendMsg o).dropOp o) := by
    rw [State.complete, away_fabric (by rw [hk]; rfl) (by rw [hk]; rfl), hu, hk]
    rfl
  refine ⟨_, execTokenClear_complete ho hc, ?_⟩
  rw [sendMsg_eq hk]
  generalize hm : ({ s with out := s.out ++ [.message target ctr payload reply]
                            agenda := s.agenda ++ arrivals s o target ctr payload reply } : State) = m
  have hops : m.ops = s.ops := hm ▸ rfl
  have hout : m.out = s.out ++ [.message target ctr payload reply] := hm ▸ rfl
  have hagenda : m.agenda = s.agenda ++ arrivals s o target ctr payload reply := hm ▸ rfl
  have hheld : m.fabric.held = s.fabric.held := hm ▸ rfl
  refine ⟨opGone_congr hops (opGone_of (opLeaves_answered m o).ops), ?_, fun h => ?_, ?_⟩
  · refine (out_flushHeld (withOutst (m.dropOp o) _)).subset ?_
    rw [show (withOutst (m.dropOp o) _).out = m.out from rfl, hout]
    exact List.mem_append_right _ (List.mem_singleton_self _)
  · have hf : (m.dropOp o).answered o = withOutst (m.dropOp o) _ := flushHeld_none (s := withOutst (m.dropOp o) _) (hheld.trans h)
    rw [hf]
    exact hout
  · have hr := requestsOnly_answered (m.dropOp o) o
    rw [hr]
    exact hagenda

end Clear

end Sys2Proof.Safety
end

section
/-! PROOF. A message starts a task where its handler entry holds one (R319). -/

namespace Sys2Proof.Safety

open Sys2Proof Sys2Proof.Machine

/-- R30, R319: a handler entry that starts a task. -/
def StartsTask (d : List Byte) : Prop :=
  bitsOf d 0 64 ≠ 0 ∧ 8 ≤ bitsOf d 128 16 ∧ bitsOf d 128 16 ≤ 128 ∧ bitsOf d 128 16 % 8 = 0 ∧ 128 * bitsOf d 144 16 ≤ 2 ^ 20

theorem handlerOk_iff (d : List Byte) : handlerOk d = true ↔ StartsTask d := by
  simp only [handlerOk, StartsTask, Bool.and_eq_true, bne_iff_ne, beq_iff_eq, decide_eq_true_eq]
  tauto

theorem bitsOf_lt (d : List Byte) (lo n : Nat) : bitsOf d lo n < 2 ^ n := Nat.mod_lt _ (Nat.two_pow_pos n)

/-- R319: the fields of a reply token do not overlap. -/
theorem replyToken_toNat (w : Dword) (ctx dev : BitVec 12) : (replyToken w ctx dev).toNat =
    w.toNat % 2 ^ 32 * 2 ^ 32 + (w.getLsbD 32).toNat * 2 ^ 24 + ctx.toNat * 2 ^ 12 + dev.toNat := by
  have hlo : (lo32 w).toNat = w.toNat % 2 ^ 32 := by rw [lo32, field_toNat]; simp
  have hb : (w.getLsbD 32).toNat ≤ 1 := Bool.toNat_le _
  have hc := ctx.isLt
  have hd := dev.isLt
  rw [replyToken, BitVec.toNat_ofNat, hlo]
  omega

/-- A task takes nothing but the time from the state. -/
theorem taskOf_congr {s t : State} (h : t.devtime = s.devtime) (c : Ctx) (m : AMsg) (d : List Byte) (uid : Nat) :
    t.taskOf c m d uid = s.taskOf c m d uid := by
  rw [State.taskOf, h, State.taskOf]

/-- R319: the part that a task runs, its own entry where the handler entry names no other. -/
theorem taskOf_ppart (s : State) (c : Ctx) (m : AMsg) (d : List Byte) (uid : Nat) : (s.taskOf c m d uid).ppart =
    BitVec.ofNat 64 (if bitsOf d 64 64 = 0 then bitsOf d 0 64 else bitsOf d 64 64) := by
  have hz : (BitVec.ofNat 64 (bitsOf d 64 64) == 0) = decide (bitsOf d 64 64 = 0) := by
    have hlt := bitsOf_lt d 64 64
    rw [Bool.beq_eq_decide_eq]
    refine decide_eq_decide.mpr ⟨fun h => ?_, fun h => by rw [h]; rfl⟩
    have := congrArg BitVec.toNat h
    rwa [BitVec.toNat_ofNat, Nat.mod_eq_of_lt hlt] at this
  unfold State.taskOf
  simp only [hz, decide_eq_true_eq]
  split <;> rfl

/-- R319: a task's number follows the context's messages. -/
theorem taskOf_seq (s : State) {c : Ctx} (m : AMsg) (d : List Byte) (uid : Nat) (h : c.msgs < 2 ^ 63) :
    (s.taskOf c m d uid).seq.toNat = 2 ^ 63 + c.msgs := by
  unfold State.taskOf
  simp only [BitVec.toNat_ofNat]
  omega

section Arrival

variable {s s1 : State} {m : AMsg} {c : Ctx} {ent : List Byte}

/-- R319: a message to no context is dropped. -/
theorem amsgArrival_none (hc : s.ctx m.tctx.toNat = none) : exec (.amsgArrival m) s = .next s := by
  change execAmsgArrival m s = _
  rw [execAmsgArrival, hc]

/-- R319: the handler entry of a context with a table decides. -/
theorem execAmsgArrival_read (hc : s.ctx m.tctx.toNat = some c) (hh : c.desc.htab ≠ 0)
    (hr : s.readVirt none c (c.desc.htab + BitVec.ofNat 64 (32 * m.index.toNat)) 32 = .ok (ent, s1)) :
    exec (.amsgArrival m) s =
      if !handlerOk ent then .next (s1.logError c.id 0x42 0)
      else
        let s2 : State := { s1 with nextId := s1.nextId + 1 }
        let l := s2.taskOf c m ent s1.nextId
        let t : State := { s2.updCtx c.id (fun c => { c with msgs := c.msgs + 1 }) with
          launches := s1.launches ++ [l], sched := { s1.sched with accepted := true } }
        if l.divertAt ≤ s1.devtime then .next ((t.updLaunch s1.nextId (fun l => { l with notst := 1 })).checkLaunch s1.nextId)
        else .next t := by
  change execAmsgArrival m s = _
  rw [execAmsgArrival, hc]
  dsimp only
  rw [beq_false_of_ne hh, if_neg Bool.false_ne_true, hr]
  rfl

/-- R319: one whose handler entry starts no task is logged. -/
theorem amsgArrival_bad (hc : s.ctx m.tctx.toNat = some c) (hh : c.desc.htab ≠ 0)
    (hr : s.readVirt none c (c.desc.htab + BitVec.ofNat 64 (32 * m.index.toNat)) 32 = .ok (ent, s1)) (hbad : ¬StartsTask ent) :
    ∃ t, exec (.amsgArrival m) s = .next t ∧ t.launches = s.launches := by
  have hok : handlerOk ent = false := by rwa [← handlerOk_iff, Bool.not_eq_true] at hbad
  refine ⟨s1.logError c.id 0x42 0, ?_, ?_⟩
  · rw [execAmsgArrival_read hc hh hr, hok]
    rfl
  · exact (congrArg State.launches ((traffic_readVirt s hr).trans (traffic_logError s1 c.id 0x42 0)).1 :)

/-- R319: one whose handler entry starts a task, in time. -/
theorem amsgArrival_starts (hc : s.ctx m.tctx.toNat = some c) (hh : c.desc.htab ≠ 0)
    (hr : s.readVirt none c (c.desc.htab + BitVec.ofNat 64 (32 * m.index.toNat)) 32 = .ok (ent, s1)) (hok : StartsTask ent)
    (ht : bitsOf ent 160 32 < bitsOf ent 192 64) :
    ∃ t, exec (.amsgArrival m) s = .next t ∧ t.launches = s.launches ++ [s.taskOf c m ent s1.nextId] := by
  have hok : handlerOk ent = true := (handlerOk_iff ent).mpr hok
  have hcalm := (traffic_readVirt s hr).1
  have hlaunches : s1.launches = s.launches := (congrArg State.launches hcalm :)
  have hdev : s1.devtime = s.devtime := (congrArg State.devtime hcalm :)
  have htask : ({ s1 with nextId := s1.nextId + 1 } : State).taskOf c m ent s1.nextId = s.taskOf c m ent s1.nextId := taskOf_congr hdev c m ent _
  have hlate : ¬(s.taskOf c m ent s1.nextId).divertAt ≤ s1.devtime := by
    rw [hdev]
    change ¬((s.devtime + bitsOf ent 192 64 : Nat) : Int) - (bitsOf ent 160 32 : Nat) ≤ s.devtime
    omega
  rw [execAmsgArrival_read hc hh hr, hok, Bool.not_true, if_neg Bool.false_ne_true]
  dsimp only
  rw [htask, if_neg hlate, hlaunches]
  exact ⟨_, rfl, rfl⟩

end Arrival

end Sys2Proof.Safety
end

section
/-! PROOF. A block's local memory and its counters after writes: a counter gains one, and what waits for it wakes
(R117, R124, R276). -/

namespace Sys2Proof.Safety

open Sys2Proof Sys2Proof.Machine

/-! Bytes of local memory. -/

/-- The little-endian bytes of a value are read as the value, within their number. -/
theorem leNat_leBytes (n x : Nat) : leNat (leBytes n x) = x % 256 ^ n := by
  induction n generalizing x with
  | zero => rw [leBytes, leNat, Nat.pow_zero, Nat.mod_one]
  | succ n ih =>
    rw [leBytes, leNat, ih, BitVec.toNat_ofNat, (Nat.pow_succ' : 256 ^ (n + 1) = 256 * 256 ^ n)]
    exact Nat.mod_mul.symm

theorem length_leBytes (n x : Nat) : (leBytes n x).length = n := by
  induction n generalizing x with
  | zero => rfl
  | succ n ih => rw [leBytes, List.length_cons, ih]

theorem length_bytesAt (f : Nat → Byte) (a n : Nat) : (bytesAt f a n).length = n := by rw [bytesAt, List.length_map, List.length_range]

theorem bytesAt_congr {f g : Nat → Byte} {a n : Nat} (h : ∀ x, a ≤ x → x < a + n → f x = g x) : bytesAt f a n = bytesAt g a n :=
  List.map_congr_left fun i hi => h (a + i) (Nat.le_add_right a i) (by have := List.mem_range.mp hi; omega)

/-- A byte after a write. -/
theorem lbyte_lwrite (b : Block) (a : Nat) (d : List Byte) (x : Nat) :
    (b.lwrite a d).lbyte x = if a ≤ x ∧ x < a + d.length then (d[x - a]?).getD 0 else b.lbyte x := by
  have h : (b.lwrite a d).lbyte x = (Memory.get (Memory.setMany b.lmem a d) x).getD (Config.coldLocal b.uid x) := rfl
  rw [h, Memory.get_setMany]
  split
  · rw [List.getElem?_eq_getElem (by omega)]
    rfl
  · rfl

/-- The bytes written are read. -/
theorem lbytes_lwrite (b : Block) (a : Nat) (d : List Byte) : (b.lwrite a d).lbytes a d.length = d := by
  refine List.ext_getElem (length_bytesAt _ _ _) fun i h1 h2 => ?_
  have hi : ((b.lwrite a d).lbytes a d.length)[i] = (b.lwrite a d).lbyte (a + i) := by simp [Block.lbytes, bytesAt]
  rw [hi, lbyte_lwrite, if_pos (by omega), Nat.add_sub_cancel_left, List.getElem?_eq_getElem h2]
  rfl

/-- Others are read as before. -/
theorem lbytes_lwrite_apart (b : Block) {a a' n : Nat} {d : List Byte} (h : a' + n ≤ a ∨ a + d.length ≤ a') :
    (b.lwrite a d).lbytes a' n = b.lbytes a' n :=
  bytesAt_congr fun x h1 h2 => by rw [lbyte_lwrite, if_neg (by omega)]

/-- R124: a counter whose COUNT is written. -/
theorem counter_lwrite (b : Block) (a n : Nat) : (b.lwrite a (leBytes 8 n)).counter a = (n % 2 ^ 64, (b.counter a).2) := by
  have hl := length_leBytes 8 n
  have h1 : (b.lwrite a (leBytes 8 n)).lbytes a 8 = leBytes 8 n := by
    have := lbytes_lwrite b a (leBytes 8 n)
    rwa [hl] at this
  have h2 : (b.lwrite a (leBytes 8 n)).lbytes (a + 8) 8 = b.lbytes (a + 8) 8 := lbytes_lwrite_apart b (.inr (by omega))
  rw [Block.counter, h1, h2, leNat_leBytes]
  rfl

theorem counter_lwrite_apart (b : Block) {a a' : Nat} {d : List Byte} (h : a' + 16 ≤ a) : (b.lwrite a d).counter a' = b.counter a' := by
  rw [Block.counter, lbytes_lwrite_apart b (.inl (by omega)), lbytes_lwrite_apart b (.inl (by omega)), Block.counter]

/-! Blocks but for their spindles. -/

/-- A block's local memory is no spindle's. -/
theorem localByte_shell (s : State) (u x : Nat) : localByte s u x = (shell s u).map (fun b => b.lbyte x) := by
  rw [localByte, shell, Option.map_map]
  rfl

theorem counter_shell (s : State) (u a : Nat) : (s.blk u).map (fun b => b.counter a) = (shell s u).map (fun b => b.counter a) := by
  rw [shell, Option.map_map]
  rfl

/-- What memory traffic leaves of a block's local memory: all. -/
theorem localByte_traffic {s t : State} (h : Traffic s t) (u x : Nat) : localByte t u x = localByte s u x := by
  have hc (r : State) : localByte (calm r) u x = localByte r u x := by
    have hb : (calm r).blk u = (r.blk u).map (fun b => { b with absent := [], owned := [], dirty := [] }) :=
      find?_map_same (fun b : Block => b.uid == u) (fun b => { b with absent := [], owned := [], dirty := [] }) (fun _ => rfl) r.blocks
    rw [localByte, hb, Option.map_map]
    rfl
  rw [← hc t, h.1, hc]

/-! What waits wakes. -/

/-- Threads may run on; operations, blocks' own fields and registers stay. -/
structure Wakes (s t : State) : Prop where
  ops : t.ops = s.ops
  shells : ∀ u, shell t u = shell s u
  regs : ∀ u m, (spn t u m).map (fun sp => (sp.v, sp.s)) = (spn s u m).map (fun sp => (sp.v, sp.s))

theorem Wakes.refl (s : State) : Wakes s s := ⟨rfl, fun _ => rfl, fun _ _ => rfl⟩

theorem Wakes.trans {s t u : State} (h : Wakes s t) (k : Wakes t u) : Wakes s u :=
  ⟨k.ops.trans h.ops, fun v => (k.shells v).trans (h.shells v), fun v n => (k.regs v n).trans (h.regs v n)⟩

theorem Wakes.foldl {α : Type} {f : State → α → State} (h : ∀ t x, Wakes t (f t x)) (l : List α) (s : State) :
    Wakes s (l.foldl f s) := by
  induction l generalizing s with
  | nil => exact .refl s
  | cons x r ih => exact (h s x).trans (ih _)

/-- Blocks and operations stay. -/
theorem Wakes.of {s t : State} (hb : t.blocks = s.blocks) (ho : t.ops = s.ops) : Wakes s t := by
  have h (u : Nat) : t.blk u = s.blk u := by rw [State.blk, hb, State.blk]
  exact ⟨ho, fun u => by rw [shell, h, shell], fun u m => by rw [spn, h, spn]⟩

section Keeps
variable {s t : State} (h : Wakes s t)
include h

theorem Wakes.vreg (u m n : Nat) : vreg t u m n = vreg s u m n := by
  have hf (r : State) : Safety.vreg r u m n = ((spn r u m).map (fun sp => (sp.v, sp.s))).bind (fun x => x.1[n]?) := by
    rw [Safety.vreg, Option.bind_map]
    rfl
  rw [hf, hf, h.regs]

theorem Wakes.sreg (u m n : Nat) : sreg t u m n = sreg s u m n := by
  have hf (r : State) : Safety.sreg r u m n = ((spn r u m).map (fun sp => (sp.v, sp.s))).bind (fun x => x.2[n]?) := by
    rw [Safety.sreg, Option.bind_map]
    rfl
  rw [hf, hf, h.regs]

theorem Wakes.localByte (u x : Nat) : localByte t u x = localByte s u x := by rw [localByte_shell, h.shells, localByte_shell]

theorem Wakes.counter (u a : Nat) : (t.blk u).map (fun b => b.counter a) = (s.blk u).map (fun b => b.counter a) := by
  rw [counter_shell, h.shells, counter_shell]

end Keeps

variable (s : State)

theorem wakes_settle (u m : Nat) : Wakes s (s.settle u m) where
  ops := rfl
  shells v := shell_settle s u m v
  regs v n := by
    rw [spn_settle, Option.map_map]
    congr 1
    funext sp
    dsimp only [Function.comp]
    split <;> rfl

theorem wakes_acquire (core : Nat) (sc : Scope) : Wakes s (s.acquire core sc) := by
  have hage (t : State) : Wakes t (t.ageLeases core) := .of rfl rfl
  have hack : Wakes s (s.ack (fun p => p.die == dieOf core)) :=
    .of (homeOnly_foldl _ _).blocks (congrArg State.ops (traffic_ack s _).1 :)
  cases sc with
  | gang => exact hage s
  | dev | sys => exact hack.trans (hage _)
  | no | sp | blk => exact .refl s

/-- Each spindle's threads change. -/
theorem wakes_updBlk (u : Nat) {f : Block → Block} {g : Block → Spindle → Spindle}
    (hf : ∀ b, f b = { b with spindles := b.spindles.map (g b) })
    (hm : ∀ b sp, (g b sp).m = sp.m ∧ (g b sp).v = sp.v ∧ (g b sp).s = sp.s) :
    Wakes s (s.updBlk u f) := by
  have hu : ∀ b, (f b).uid = b.uid := fun b => by rw [hf]
  refine ⟨rfl, fun v => ?_, fun v n => ?_⟩
  · rw [shell, State.blk_updBlk s u v f hu, Option.map_map, shell]
    congr 1
    funext b
    dsimp only [Function.comp]
    split
    · rw [hf]
    · rfl
  · rw [spn, State.blk_updBlk s u v f hu, spn]
    cases s.blk v with
    | none => rfl
    | some b =>
      rw [Option.map_some, Option.bind_some, Option.bind_some]
      split
      · have hs : (f b).sp n = (b.sp n).map (g b) := by
          rw [hf]
          exact find?_map_same (fun x : Spindle => x.m == n) (g b) (fun x => by rw [(hm b x).1]) b.spindles
        rw [hs, Option.map_map]
        congr 1
        funext sp
        dsimp only [Function.comp]
        rw [(hm b sp).2.1, (hm b sp).2.2]
      · rfl

theorem wakes_wake (u : Nat) (again : Block → Bool) (p : Block → Park → Bool) :
    Wakes s (s.updBlk u (fun b => b.wake (again b) (p b))) :=
  wakes_updBlk s u (g := fun b sp => { sp with threads := sp.threads.map (fun t => t.wakeIf (again b) (p b)) }) (fun _ => rfl)
    (fun _ _ => ⟨rfl, rfl, rfl⟩)

/-! Local memory written. -/

/-- A state whose block's local memory is written. -/
def lwritten (u a : Nat) (d : List Byte) : State := s.updBlk u (fun b => b.lwrite a d)

theorem blk_lwritten (u a : Nat) (d : List Byte) (v : Nat) :
    (lwritten s u a d).blk v = (s.blk v).map (fun b => if v = u then b.lwrite a d else b) := by
  rw [lwritten, State.blk_updBlk s u v (fun b => b.lwrite a d) (fun _ => rfl)]
  cases hb : s.blk v with
  | none => rfl
  | some b => simp [State.blk_uid hb]

/-- Registers are no local memory. -/
theorem spn_lwritten (u a : Nat) (d : List Byte) (v n : Nat) : spn (lwritten s u a d) v n = spn s v n := by
  rw [spn, blk_lwritten, spn]
  cases s.blk v with
  | none => rfl
  | some b =>
    rw [Option.map_some, Option.bind_some, Option.bind_some]
    split <;> rfl

theorem wakes_updCounter (u a : Nat) (d : List Byte) : Wakes (lwritten s u a d) (s.updCounter u a d) := by
  rw [State.updCounter]
  dsimp only
  rw [show s.updBlk u (fun b => b.lwrite a d) = lwritten s u a d from rfl]
  generalize lwritten s u a d = t
  split
  · exact .refl t
  · rename_i b _
    split
    · exact ((wakes_wake t u Block.evicted (fun b => b.counterMet a)).trans (wakes_acquire _ b.core .sys)).trans
        (Wakes.foldl (f := fun r (sp : Spindle) => r.settle u sp.m) (fun r sp => wakes_settle r u sp.m) b.spindles _)
    · exact .refl t

/-- R124: a counter gains one, and what waits for it wakes. -/
theorem wakes_arcAdd {u : Nat} {b : Block} (hb : s.blk u = some b) (a x : Nat) :
    Wakes (lwritten s u a (leBytes 8 ((b.counter a).1 + x))) (s.arcAdd u a x) := by
  rw [State.arcAdd, hb]
  exact wakes_updCounter s u a _

/-- Copies of its stash lines leave the L1s. -/
theorem wakes_localWrite {u : Nat} {b : Block} (hb : s.blk u = some b) (a : Nat) (d : List Byte) :
    Wakes (lwritten s u a d) (s.localWrite u a d) := by
  rw [State.localWrite, hb]
  exact Wakes.foldl (f := fun t (x : Nat × Nat) => t.dropL1 x.2) (fun t x => .of rfl rfl) _ _

end Sys2Proof.Safety
end

section
/-! PROOF. Replies land behind their counter, and deposits in their register (R320, R321). -/

namespace Sys2Proof.Safety

open Sys2Proof Sys2Proof.Machine

/-! A write of local memory, and a count. -/

section Local
variable {s : State} {u : Nat} {b : Block} (hb : s.blk u = some b)
include hb

theorem blk_lwritten_same (a : Nat) (d : List Byte) : (lwritten s u a d).blk u = some (b.lwrite a d) := by
  rw [blk_lwritten, hb, Option.map_some, if_pos rfl]

theorem localByte_localWrite (a : Nat) (d : List Byte) (x : Nat) :
    localByte (s.localWrite u a d) u x = some (if a ≤ x ∧ x < a + d.length then (d[x - a]?).getD 0 else b.lbyte x) := by
  rw [(wakes_localWrite s hb a d).localByte, localByte, blk_lwritten_same hb, Option.map_some, lbyte_lwrite]

theorem counter_localWrite {a a' : Nat} {d : List Byte} (h : a' + 16 ≤ a) :
    ((s.localWrite u a d).blk u).map (fun b => b.counter a') = some (b.counter a') := by
  rw [(wakes_localWrite s hb a d).counter, blk_lwritten_same hb, Option.map_some, counter_lwrite_apart b h]

/-- R124: a counter that gains one. -/
theorem counter_arcAdd (a : Nat) :
    ((s.arcAdd u a 1).blk u).map (fun b => b.counter a) = some (((b.counter a).1 + 1) % 2 ^ 64, (b.counter a).2) := by
  rw [(wakes_arcAdd s hb a 1).counter, blk_lwritten_same hb, Option.map_some, counter_lwrite]

theorem localByte_arcAdd {a x : Nat} (n : Nat) (h : ¬(a ≤ x ∧ x < a + 8)) : localByte (s.arcAdd u a n) u x = some (b.lbyte x) := by
  rw [(wakes_arcAdd s hb a n).localByte, localByte, blk_lwritten_same hb, Option.map_some, lbyte_lwrite, length_leBytes, if_neg h]

end Local

/-! Replies. -/

section Reply
variable {s : State} {token : Dword} {payload : List Dword}

/-- The local address of the counter that a reply token names (R319). -/
def replyPlace (token : Dword) : Nat := 16 * (token.toNat / 2 ^ 32 % 2 ^ 16)

/-- The block that holds it: the launch's that sent the message, where the message is known (R290). -/
def replyBlock (s : State) (token : Dword) : Option Block :=
  s.counterBlock (((s.fabric.msgs.find? (fun x => x.1 == token)).map (·.2)).getD s.nextId) (token.toNat / 2 ^ 12 % 2 ^ 12)
    (token.toNat / 2 ^ 48 % 2 ^ 8) (replyPlace token)

/-- A reply's bytes. -/
def replyBytes (payload : List Dword) : List Byte := payload.flatMap (fun w => leBytes 8 w.toNat)

theorem length_replyBytes (payload : List Dword) : (replyBytes payload).length = 8 * payload.length := by
  simp [replyBytes, List.length_flatMap, length_leBytes, Nat.mul_comm]

/-- R320: a reply whose place no block holds is lost. -/
theorem reply_lost (h : replyBlock s token = none) :
    ∃ t, exec (.replyArrival token payload) s = .next t ∧ ∀ u x, localByte t u x = localByte s u x := by
  have hx : exec (.replyArrival token payload) s =
      .next (if token.getLsbD 24 then s.logError (token.extractLsb' 12 12).toNat 0x40 0 else s) := by
    change execReplyArrival token payload s = _
    rw [replyBlock, replyPlace, ← field_toNat, ← field_toNat, ← field_toNat] at h
    rw [execReplyArrival]
    dsimp only
    rw [h]
  refine ⟨_, hx, fun u x => localByte_traffic ?_ u x⟩
  split
  · exact traffic_logError s _ _ _
  · exact .refl s

/-- R320: a reply is written behind its counter, and counts itself where its token says so. -/
theorem execReplyArrival_lands {b : Block} (h : replyBlock s token = some b) (hsize : replyPlace token + 16 + 8 * payload.length ≤ b.lsize) :
    exec (.replyArrival token payload) s = .next (
      if token.getLsbD 24 then (s.localWrite b.uid (replyPlace token + 16) (replyBytes payload)).arcAdd b.uid (replyPlace token) 1
      else s.localWrite b.uid (replyPlace token + 16) (replyBytes payload)) := by
  change execReplyArrival token payload s = _
  unfold replyPlace at hsize ⊢
  rw [replyBlock, replyPlace, ← field_toNat, ← field_toNat, ← field_toNat] at h
  rw [← field_toNat] at hsize ⊢
  rw [execReplyArrival]
  dsimp only
  rw [h]
  dsimp only
  rw [if_neg (by omega)]
  rfl

theorem reply_lands {b : Block} (h : replyBlock s token = some b) (hb : s.blk b.uid = some b)
    (hsize : replyPlace token + 16 + 8 * payload.length ≤ b.lsize) :
    ∃ t, exec (.replyArrival token payload) s = .next t ∧
      (t.blk b.uid).map (fun b => b.counter (replyPlace token)) = some (
        if token.getLsbD 24 = true then (((b.counter (replyPlace token)).1 + 1) % 2 ^ 64, (b.counter (replyPlace token)).2)
        else b.counter (replyPlace token)) ∧
      ∀ x, ¬(token.getLsbD 24 = true ∧ replyPlace token ≤ x ∧ x < replyPlace token + 8) → localByte t b.uid x = some (
        if replyPlace token + 16 ≤ x ∧ x < replyPlace token + 16 + 8 * payload.length then
          ((replyBytes payload)[x - (replyPlace token + 16)]?).getD 0
        else b.lbyte x) := by
  refine ⟨_, execReplyArrival_lands h hsize, ?_⟩
  generalize replyPlace token = a
  have hc := counter_localWrite hb (a := a + 16) (a' := a) (d := replyBytes payload) (Nat.le_refl _)
  have hl := localByte_localWrite hb (a + 16) (replyBytes payload)
  rw [length_replyBytes] at hl
  generalize s.localWrite b.uid (a + 16) (replyBytes payload) = r at hc hl ⊢
  obtain ⟨b', hb', hcount⟩ := Option.map_eq_some_iff.mp hc
  have hbyte (x : Nat) : localByte r b.uid x = some (b'.lbyte x) := by rw [localByte, hb', Option.map_some]
  cases htok : token.getLsbD 24 with
  | false =>
    simp only [Bool.false_eq_true, if_false, false_and, not_false_eq_true, true_implies]
    exact ⟨hc, hl⟩
  | true =>
    simp only [if_true, true_and]
    refine ⟨by rw [counter_arcAdd hb', hcount], fun x hx => ?_⟩
    rw [localByte_arcAdd hb' 1 hx, ← hbyte, hl]

end Reply

/-! Deposits. -/

section Deposit
variable {s : State} {o : Op} {vals : List Word} {core spid reg : Nat} {ctr : Dword}

/-- The number of the launch whose block sent the deposit, for the log. -/
def senderSeq (s : State) (o : Op) : Dword := ((s.blk o.blk).map (fun b => s.seqOf b)).getD 0

/-- What is left when an operation leaves after other work, in which the list stays. -/
theorem opGone_dropOp {t : State} (h : t.ops = s.ops) : OpGone s (t.dropOp o) o.id := opGone_congr h (opGone_of rfl)

theorem wakes_dropOp (t : State) (o : Op) : Wakes (offList t o) (t.dropOp o) := wakes_settle _ _ _

theorem vreg_dropOp (t : State) (o : Op) (u k n : Nat) : vreg (t.dropOp o) u k n = vreg t u k n := (wakes_dropOp t o).vreg u k n

theorem sreg_dropOp (t : State) (o : Op) (u k n : Nat) : sreg (t.dropOp o) u k n = sreg t u k n := (wakes_dropOp t o).sreg u k n

theorem shell_dropOp (t : State) (o : Op) (u : Nat) : shell (t.dropOp o) u = shell t u := (wakes_dropOp t o).shells u

theorem vreg_traffic {t : State} (h : Traffic s t) (u k n : Nat) : vreg t u k n = vreg s u k n := by rw [vreg, h.spn_eq, vreg]

theorem sreg_traffic {t : State} (h : Traffic s t) (u k n : Nat) : sreg t u k n = sreg s u k n := by rw [sreg, h.spn_eq, sreg]

theorem ops_traffic {t : State} (h : Traffic s t) : t.ops = s.ops := (congrArg State.ops h.1 :)

/-- R321: a deposit that is lost is logged, and no register changes. -/
theorem deposit_lost (h : exec (.deposit o.id) s = .next ((s.logError o.ctx 0x43 (senderSeq s o)).dropOp o)) :
    ∃ t, exec (.deposit o.id) s = .next t ∧ OpGone s t o.id ∧ ∀ u k n, vreg t u k n = vreg s u k n := by
  have ht := traffic_logError s o.ctx 0x43 (senderSeq s o)
  exact ⟨_, h, opGone_dropOp (ops_traffic ht), fun u k n => by rw [vreg_dropOp, vreg_traffic ht]⟩

theorem execDeposit_none (ho : pending s o.id = some o) (hk : o.kind = .rwr vals core spid reg ctr)
    (ht : s.target o.ctx core spid = none) :
    exec (.deposit o.id) s = .next ((s.logError o.ctx 0x43 (senderSeq s o)).dropOp o) := by
  have ho : s.ops.find? (fun x => x.id == o.id) = some o := ho
  change execDeposit o.id s = _
  rw [execDeposit, ho]
  dsimp only
  rw [hk]
  dsimp only
  rw [ht]
  rfl

/-- R321: the register named is beyond the spindle's. -/
theorem execDeposit_beyond {b : Block} {sp : Spindle} (ho : pending s o.id = some o) (hk : o.kind = .rwr vals core spid reg ctr)
    (ht : s.target o.ctx core spid = some (b, sp)) (hr : sp.vcount ≤ reg) :
    exec (.deposit o.id) s = .next ((s.logError o.ctx 0x43 (senderSeq s o)).dropOp o) := by
  have ho : s.ops.find? (fun x => x.id == o.id) = some o := ho
  change execDeposit o.id s = _
  rw [execDeposit, ho]
  dsimp only
  rw [hk]
  dsimp only
  rw [ht]
  dsimp only
  rw [if_pos hr]
  rfl

/-- The state in which the register is written. -/
def deposited (s : State) (u m reg : Nat) (vals : List Word) : State :=
  s.updSp u m (fun sp => sp.setV reg (fun _ => { tag := .g, vals := vals }))

/-- R290, R321: the state in which the deposit has counted itself, or its count is dropped. -/
def depositCounted (s t : State) (o : Op) (b : Block) (ctr : Dword) : State :=
  if !ctr.getLsbD 32 then t
  else if 16 * (ctr.toNat % 2 ^ 16) + 16 ≤ b.lsize then t.arcAdd b.uid (16 * (ctr.toNat % 2 ^ 16)) 1
  else t.logError o.ctx 0x40 (senderSeq s o)

theorem execDeposit_lands {b : Block} {sp : Spindle} (ho : pending s o.id = some o) (hk : o.kind = .rwr vals core spid reg ctr)
    (ht : s.target o.ctx core spid = some (b, sp)) (hr : ¬sp.vcount ≤ reg) (he : b.evicted = false) :
    exec (.deposit o.id) s = .next ((depositCounted s (deposited s b.uid sp.m reg vals) o b ctr).dropOp o) := by
  have ho : s.ops.find? (fun x => x.id == o.id) = some o := ho
  have ha : (ctr.extractLsb' 0 16).toNat = ctr.toNat % 2 ^ 16 := by rw [field_toNat, Nat.pow_zero, Nat.div_one]
  change execDeposit o.id s = _
  rw [execDeposit, ho]
  dsimp only
  rw [hk]
  dsimp only
  rw [ht]
  dsimp only
  rw [if_neg hr, he, ha]
  rfl

/-- The register written, and the others. -/
theorem vreg_deposited (u m : Nat) (v k n : Nat) : vreg (deposited s u m reg vals) v k n =
    (vreg s v k n).map (fun old => if v = u ∧ k = m ∧ n = reg then { tag := .g, vals := vals } else old) := by
  rw [vreg, deposited, spn_updSp s u m (fun sp => sp.setV reg (fun _ => { tag := .g, vals := vals })) (fun _ => rfl), vreg]
  cases spn s v k with
  | none => rfl
  | some sp =>
    rw [Option.map_some, Option.bind_some, Option.bind_some]
    by_cases hc : v = u ∧ k = m
    · rw [if_pos hc]
      simp only [Spindle.setV, List.getElem?_map, List.getElem?_zipIdx, Option.map_map, Function.comp_def, Nat.zero_add, hc,
        true_and, beq_iff_eq]
    · have hn : ¬(v = u ∧ k = m ∧ n = reg) := fun h => hc ⟨h.1, h.2.1⟩
      simp only [if_neg hc, if_neg hn, Option.map_id']

theorem sreg_deposited (u m : Nat) (v k n : Nat) : sreg (deposited s u m reg vals) v k n = sreg s v k n := by
  rw [sreg, deposited, spn_updSp s u m (fun sp => sp.setV reg (fun _ => { tag := .g, vals := vals })) (fun _ => rfl), sreg]
  cases spn s v k with
  | none => rfl
  | some sp =>
    rw [Option.map_some, Option.bind_some, Option.bind_some]
    split <;> rfl

theorem shell_deposited (u m v : Nat) : shell (deposited s u m reg vals) v = shell s v := shell_updSp _ _ _ _ v

/-- A deposit's count changes no register and no operation. -/
theorem regs_depositCounted {t : State} {b b' : Block} (hb : t.blk b.uid = some b') :
    (depositCounted s t o b ctr).ops = t.ops ∧ (∀ u k n, vreg (depositCounted s t o b ctr) u k n = vreg t u k n) ∧
      ∀ u k n, sreg (depositCounted s t o b ctr) u k n = sreg t u k n := by
  unfold depositCounted
  split
  · exact ⟨rfl, fun _ _ _ => rfl, fun _ _ _ => rfl⟩
  · split
    · have hw := wakes_arcAdd t hb (16 * (ctr.toNat % 2 ^ 16)) 1
      refine ⟨hw.ops, fun u k n => ?_, fun u k n => ?_⟩
      · rw [hw.vreg, vreg, spn_lwritten, vreg]
      · rw [hw.sreg, sreg, spn_lwritten, sreg]
    · have ht := traffic_logError t o.ctx 0x40 (senderSeq s o)
      exact ⟨ops_traffic ht, vreg_traffic ht, sreg_traffic ht⟩

/-- R321: a deposit writes its register whole, tagged G, and counts itself. -/
theorem deposit_lands {b : Block} {sp : Spindle} (ho : pending s o.id = some o) (hk : o.kind = .rwr vals core spid reg ctr)
    (ht : s.target o.ctx core spid = some (b, sp)) (hb : s.blk b.uid = some b) (hr : ¬sp.vcount ≤ reg) (he : b.evicted = false) :
    ∃ t, exec (.deposit o.id) s = .next t ∧ OpGone s t o.id ∧
      (∀ u k n, vreg t u k n = (vreg s u k n).map (fun old =>
        if u = b.uid ∧ k = sp.m ∧ n = reg then { tag := .g, vals := vals } else old)) ∧
      (∀ u k n, sreg t u k n = sreg s u k n) ∧
      (ctr.getLsbD 32 = true → 16 * (ctr.toNat % 2 ^ 16) + 16 ≤ b.lsize →
        (t.blk b.uid).map (fun b => b.counter (16 * (ctr.toNat % 2 ^ 16))) =
          some (((b.counter (16 * (ctr.toNat % 2 ^ 16))).1 + 1) % 2 ^ 64, (b.counter (16 * (ctr.toNat % 2 ^ 16))).2)) ∧
      (ctr.getLsbD 32 = false → ∀ u, shell t u = shell s u) := by
  have hshell := shell_deposited (s := s) (reg := reg) (vals := vals) b.uid sp.m
  have hcounter (a : Nat) : ((deposited s b.uid sp.m reg vals).blk b.uid).map (fun b => b.counter a) = some (b.counter a) := by
    rw [counter_shell, hshell, ← counter_shell, hb, Option.map_some]
  obtain ⟨b', hb', -⟩ := Option.map_eq_some_iff.mp (hcounter 0)
  obtain ⟨hops, hvreg, hsreg⟩ := regs_depositCounted (s := s) (o := o) (ctr := ctr) hb'
  refine ⟨_, execDeposit_lands ho hk ht hr he, opGone_dropOp hops, fun u k n => ?_, fun u k n => ?_, fun hen hsize => ?_,
    fun hen u => ?_⟩
  · rw [vreg_dropOp, hvreg, vreg_deposited]
  · rw [sreg_dropOp, hsreg, sreg_deposited]
  · have hcount := hcounter (16 * (ctr.toNat % 2 ^ 16))
    rw [hb', Option.map_some, Option.some.injEq] at hcount
    rw [counter_shell, shell_dropOp, ← counter_shell, depositCounted, hen, Bool.not_true, if_neg Bool.false_ne_true, if_pos hsize,
      counter_arcAdd hb', hcount]
  · rw [shell_dropOp, depositCounted, hen, Bool.not_false, if_pos rfl, hshell]

end Deposit

end Sys2Proof.Safety
end

section
/-! PROOF. What was sent over the fabric takes effect (R318 to R321). -/

namespace Sys2Proof.Safety

open Sys2Proof Sys2Proof.Machine

/-- Settles O41: packets, messages, replies and deposits, one by one. -/
theorem fabricDeliveries : Obligations.FabricDeliveries := by
  intro s o i dst src todo sent bytes stream off len pa pp dev ctr target token data payload reply vals core spid reg b sp m c ent s1
    counter one key gone
  refine ⟨fun ho hk hi => ⟨fun hf => ?_, fun hf hd hs hb => packetLeaves ho hk hi hf hd hs hb⟩,
    fun ho hk hi => ⟨fun hf => packet_frozen ho hk hi hf data, fun hf hh => ⟨fun hr => ?_, fun hr => ?_⟩⟩,
    fun ho hk => ⟨transfer_waits ho hk, fun htodo hsent hu => ?_⟩, message_leaves, amsgArrival_none,
    fun hc hh hr => ⟨amsgArrival_bad hc hh hr, fun hok ht => ?_⟩, ⟨reply_lost, reply_lands⟩,
    fun ho hk => ⟨fun ht => deposit_lost (execDeposit_none ho hk ht), fun ht hb hsp he => ?_⟩⟩
  · rw [execMicro_sendPacket ho, sendPacket_frozen hk hf]
  · subst hr
    exact packet_read ho hk hi hf hh data
  · subst hr
    exact fun hd hdown hlen hctr => packet_written ho hk hi hf hh hd hdown hlen hctr
  · subst htodo hsent
    exact transfer_ends ho hk hu
  · obtain ⟨t, hx, hl⟩ := amsgArrival_starts hc hh hr hok ht
    exact ⟨t, _, hx, hl, rfl, rfl, rfl, rfl, rfl, rfl, rfl, rfl, taskOf_ppart _ _ _ _ _, replyToken_toNat _ _ _, rfl, rfl, rfl,
      rfl, rfl, taskOf_seq s m ent _⟩
  · split
    · exact deposit_lost (execDeposit_beyond ho hk ht ‹_›)
    · exact deposit_lands ho hk ht hb ‹_› he

end Sys2Proof.Safety
end

section
/-! PROOF. NaN operands and rounding to nearest (R72, R73, R85). -/

namespace Sys2Proof.Safety

open Sys2Proof Sys2Proof.Machine

/-- A format with infinities and NaNs of every fraction but 0 (R72): all but E4M3. -/
structure HasInf (F : FFmt) : Prop where
  e4m3 : F.e4m3 = false
  frac : 0 < F.fbits
  ex : 1 < F.ebits

theorem hasInf_of_mem {F : FFmt} (h : F ∈ [FFmt.f16, FFmt.bf16, FFmt.f32, FFmt.f64]) : HasInf F := by
  simp only [List.mem_cons, List.not_mem_nil, or_false] at h
  obtain rfl | rfl | rfl | rfl := h <;> constructor <;> decide

/-- The bits of a NaN (R72). -/
def NanBits (F : FFmt) (x : Nat) : Prop := x / 2 ^ F.fbits % 2 ^ F.ebits = 2 ^ F.ebits - 1 ∧ x % 2 ^ F.fbits ≠ 0

/-- The sign that a pattern's bits give. -/
def signOf (F : FFmt) (x : Nat) : Bool := x / 2 ^ (F.fbits + F.ebits) % 2 == 1

section Nan
variable {F : FFmt} (hF : HasInf F) {x y z : Nat}
include hF

theorem decode_nan (h : NanBits F x) : F.decode x = .nan (signOf F x) (x % 2 ^ F.fbits) := by
  obtain ⟨hex, hfrac⟩ := h
  simp only [FFmt.decode, hF.e4m3, hex, beq_iff_eq, hfrac, signOf, Bool.false_and, Bool.false_eq_true, if_false, Bool.not_false,
    BEq.rfl, Bool.and_self, if_true]

theorem read_nan (h : NanBits F x) (ftz : Bool) : F.read ftz x = .nan (signOf F x) (x % 2 ^ F.fbits) := by
  rw [FFmt.read, decode_nan hF h]
  cases ftz <;> rfl

theorem decode_notNan (h : ¬NanBits F x) : (F.decode x).isNan = false := by
  simp only [FFmt.decode, hF.e4m3, Bool.false_and, Bool.false_eq_true, if_false, Bool.not_false, Bool.true_and, beq_iff_eq]
  split
  · rw [if_pos (by_contra fun hf => h ⟨‹_›, hf⟩)]
    rfl
  · split <;> rfl

theorem read_notNan (h : ¬NanBits F x) (ftz : Bool) : (F.read ftz x).isNan = false := by
  have hd := decode_notNan hF h
  rw [FFmt.read]
  generalize F.decode x = v at hd
  cases ftz with
  | false => exact hd
  | true =>
    cases v with
    | fin n m e => rw [if_pos rfl, FFmt.flush]; split <;> rfl
    | inf n => rfl
    | nan n f => exact hd

omit hF in
/-- Setting a bit below the fraction's width leaves the bits above it. -/
theorem or_below {n a b c : Nat} (hb : b < 2 ^ n) (hc : c < 2 ^ n) : (2 ^ n * a + b) ||| c = 2 ^ n * a + (b ||| c) := by
  rw [Nat.two_pow_add_eq_or_of_lt hb, Nat.or_assoc, ← Nat.two_pow_add_eq_or_of_lt (Nat.or_lt_two_pow hb hc)]

theorem nanTo_self (h : NanBits F x) (hx : x < 2 ^ (F.fbits + F.ebits + 1)) :
    F.nanTo F (signOf F x) (x % 2 ^ F.fbits) = x ||| 2 ^ (F.fbits - 1) := by
  have hpos := Nat.two_pow_pos F.fbits
  have hbit : 2 ^ (F.fbits - 1) < 2 ^ F.fbits := Nat.pow_lt_pow_right (by decide) (Nat.sub_lt hF.frac Nat.one_pos)
  have hsplit : x = 2 ^ F.fbits * (x / 2 ^ F.fbits) + x % 2 ^ F.fbits := (Nat.div_add_mod _ _).symm
  have htop : x / 2 ^ (F.fbits + F.ebits) = x / 2 ^ F.fbits / 2 ^ F.ebits := by rw [Nat.pow_add, Nat.div_div_eq_div_mul]
  have hsign : x / 2 ^ (F.fbits + F.ebits) < 2 := by
    rwa [Nat.div_lt_iff_lt_mul (Nat.two_pow_pos _), Nat.mul_comm, ← Nat.pow_succ]
  have hfield : F.signBit (signOf F x) + F.infBits = 2 ^ F.fbits * (x / 2 ^ F.fbits) := by
    have hdm := Nat.div_add_mod (x / 2 ^ F.fbits) (2 ^ F.ebits)
    rw [h.1, ← htop] at hdm
    have hs : F.signBit (signOf F x) = 2 ^ F.fbits * (2 ^ F.ebits * (x / 2 ^ (F.fbits + F.ebits))) := by
      rw [FFmt.signBit, signOf, Nat.mod_eq_of_lt hsign, ← Nat.mul_assoc, ← Nat.pow_add]
      obtain h0 | h1 := Nat.le_one_iff_eq_zero_or_eq_one.mp (Nat.lt_succ_iff.mp hsign)
      · rw [h0]; rfl
      · rw [h1]; simp
    rw [hs, FFmt.infBits, Nat.mul_comm (_ - 1), ← Nat.mul_add, hdm]
  rw [FFmt.nanTo, hF.e4m3, if_neg Bool.false_ne_true, if_neg Bool.false_ne_true, hfield, Nat.mul_div_cancel _ hpos]
  conv_rhs => rw [hsplit, or_below (Nat.mod_lt _ hpos) hbit]

/-- R73: the first NaN of the operands as they are read. -/
theorem firstNan_read (h : NanBits F x) (hx : x < 2 ^ (F.fbits + F.ebits + 1)) (ftz : Bool) (l : List FVal) :
    F.firstNan (F.read ftz x :: l) = some (x ||| 2 ^ (F.fbits - 1)) := by
  rw [read_nan hF h, FFmt.firstNan, nanTo_self hF h hx]

theorem firstNan_skip (h : ¬NanBits F x) (ftz : Bool) (l : List FVal) : F.firstNan (F.read ftz x :: l) = F.firstNan l := by
  have hn := read_notNan hF h ftz
  generalize F.read ftz x = v at hn
  cases v with
  | nan n f => exact absurd hn (by simp [FVal.isNan])
  | fin n m e => rfl
  | inf n => rfl

theorem isSnan_read (h : NanBits F x) (hs : x % 2 ^ F.fbits < 2 ^ (F.fbits - 1)) (ftz : Bool) :
    F.isSnan (F.read ftz x) = true := by
  rw [read_nan hF h, FFmt.isSnan, hF.e4m3]
  exact decide_eq_true hs

omit hF in
theorem snanExc_invalid {l : List FVal} (h : ∃ v ∈ l, F.isSnan v = true) : (F.snanExc l).getLsbD 0 = true := by
  rw [FFmt.snanExc, List.any_eq_true.mpr h]
  rfl

omit hF in
/-- What the three operations answer where an operand is a NaN. -/
theorem add_nan {rm : RMode} {ftz sub : Bool} {n : Nat} (h : F.firstNan [F.read ftz x, F.read ftz y] = some n) :
    F.add rm ftz sub x y = (n, F.snanExc [F.read ftz x, F.read ftz y]) := by
  simp only [FFmt.add, h]

omit hF in
theorem mul_nan {rm : RMode} {ftz : Bool} {n : Nat} (h : F.firstNan [F.read ftz x, F.read ftz y] = some n) :
    F.mul rm ftz x y = (n, F.snanExc [F.read ftz x, F.read ftz y]) := by
  simp only [FFmt.mul, h]

omit hF in
theorem fma_nan {rm : RMode} {ftz : Bool} {n : Nat} (h : F.firstNan [F.read ftz x, F.read ftz y, F.read ftz z] = some n) :
    ∃ w, F.fma rm ftz x y z = (n, F.snanExc [F.read ftz x, F.read ftz y, F.read ftz z] ||| w) := by
  simp only [FFmt.fma, h]
  exact ⟨_, rfl⟩

theorem nan_first {rm : RMode} {ftz sub : Bool} (h : NanBits F x) (hx : x < 2 ^ (F.fbits + F.ebits + 1)) :
    (F.add rm ftz sub x y).1 = x ||| 2 ^ (F.fbits - 1) ∧ (F.mul rm ftz x y).1 = x ||| 2 ^ (F.fbits - 1) ∧
      (F.fma rm ftz x y z).1 = x ||| 2 ^ (F.fbits - 1) := by
  have hfirst := firstNan_read hF h hx ftz
  obtain ⟨w, hw⟩ := fma_nan (rm := rm) (hfirst [F.read ftz y, F.read ftz z])
  exact ⟨by rw [add_nan (hfirst _)], by rw [mul_nan (hfirst _)], by rw [hw]⟩

theorem nan_second {rm : RMode} {ftz sub : Bool} (hx : ¬NanBits F x) (h : NanBits F y) (hy : y < 2 ^ (F.fbits + F.ebits + 1)) :
    (F.add rm ftz sub x y).1 = y ||| 2 ^ (F.fbits - 1) ∧ (F.mul rm ftz x y).1 = y ||| 2 ^ (F.fbits - 1) ∧
      (F.fma rm ftz x y z).1 = y ||| 2 ^ (F.fbits - 1) := by
  have hfirst (l : List FVal) : F.firstNan (F.read ftz x :: F.read ftz y :: l) = some (y ||| 2 ^ (F.fbits - 1)) := by
    rw [firstNan_skip hF hx, firstNan_read hF h hy]
  obtain ⟨w, hw⟩ := fma_nan (rm := rm) (hfirst [F.read ftz z])
  exact ⟨by rw [add_nan (hfirst _)], by rw [mul_nan (hfirst _)], by rw [hw]⟩

theorem nan_third {rm : RMode} {ftz : Bool} (hx : ¬NanBits F x) (hy : ¬NanBits F y) (h : NanBits F z)
    (hz : z < 2 ^ (F.fbits + F.ebits + 1)) : (F.fma rm ftz x y z).1 = z ||| 2 ^ (F.fbits - 1) := by
  have hfirst : F.firstNan [F.read ftz x, F.read ftz y, F.read ftz z] = some (z ||| 2 ^ (F.fbits - 1)) := by
    rw [firstNan_skip hF hx, firstNan_skip hF hy, firstNan_read hF h hz]
  obtain ⟨w, hw⟩ := fma_nan (rm := rm) hfirst
  rw [hw]

/-- A signalling NaN (R72). -/
def SignalBits (F : FFmt) (x : Nat) : Prop := NanBits F x ∧ x % 2 ^ F.fbits < 2 ^ (F.fbits - 1)

theorem nan_signals {rm : RMode} {ftz sub : Bool} (h : SignalBits F x ∨ SignalBits F y)
    (hx : x < 2 ^ (F.fbits + F.ebits + 1)) (hy : y < 2 ^ (F.fbits + F.ebits + 1)) :
    (F.add rm ftz sub x y).2.getLsbD 0 = true ∧ (F.mul rm ftz x y).2.getLsbD 0 = true ∧
      (F.fma rm ftz x y z).2.getLsbD 0 = true := by
  have hfirst : ∃ n, ∀ l, F.firstNan (F.read ftz x :: F.read ftz y :: l) = some n := by
    by_cases hnx : NanBits F x
    · exact ⟨_, fun l => firstNan_read hF hnx hx ftz _⟩
    · obtain ⟨hny, -⟩ := h.resolve_left (fun hs => hnx hs.1)
      exact ⟨_, fun l => (firstNan_skip hF hnx ftz _).trans (firstNan_read hF hny hy ftz l)⟩
  have hsnan (l : List FVal) : (F.snanExc (F.read ftz x :: F.read ftz y :: l)).getLsbD 0 = true := by
    obtain ⟨hn, hs⟩ | ⟨hn, hs⟩ := h
    · exact snanExc_invalid ⟨_, List.mem_cons_self, isSnan_read hF hn hs ftz⟩
    · exact snanExc_invalid ⟨_, List.mem_cons_of_mem _ List.mem_cons_self, isSnan_read hF hn hs ftz⟩
  obtain ⟨n, hn⟩ := hfirst
  obtain ⟨w, hw⟩ := fma_nan (rm := rm) (hn [F.read ftz z])
  refine ⟨by rw [add_nan (hn [])]; exact hsnan [], by rw [mul_nan (hn [])]; exact hsnan [], ?_⟩
  rw [hw, BitVec.getLsbD_or, hsnan, Bool.true_or]

end Nan

/-! Rounding. -/

section Nearest
variable {F : FFmt}

theorem infBits_pos (hF : HasInf F) : 0 < F.infBits :=
  Nat.mul_pos (Nat.sub_pos_of_lt (Nat.one_lt_two_pow (Nat.ne_of_gt (Nat.zero_lt_one.trans hF.ex)))) (Nat.two_pow_pos _)

/-- What a pattern of sign `neg` and magnitude bits `B` below infinity's stands for (R72). -/
theorem decode_finite (neg : Bool) {B : Nat} (h : B < F.infBits) (hF : HasInf F) :
    F.decode (F.signBit neg + B) = if B / 2 ^ F.fbits = 0 then .fin neg (B % 2 ^ F.fbits) F.qmin
      else .fin neg (2 ^ F.fbits + B % 2 ^ F.fbits) (F.qmin + ((B / 2 ^ F.fbits : Nat) - 1)) := by
  have hex : B / 2 ^ F.fbits < 2 ^ F.ebits - 1 := (Nat.div_lt_iff_lt_mul (Nat.two_pow_pos _)).mpr h
  have hlt : B < 2 ^ (F.fbits + F.ebits) := by
    rw [Nat.pow_add, Nat.mul_comm, ← Nat.div_lt_iff_lt_mul (Nat.two_pow_pos _)]
    exact hex.trans_le (Nat.sub_le _ _)
  have hsign : F.signBit neg = 2 ^ F.fbits * (2 ^ F.ebits * neg.toNat) := by
    rw [FFmt.signBit, ← Nat.mul_assoc, ← Nat.pow_add]
    cases neg <;> simp
  have hneg : (F.signBit neg + B) / 2 ^ (F.fbits + F.ebits) = neg.toNat := by
    rw [hsign, ← Nat.mul_assoc, ← Nat.pow_add, Nat.mul_add_div (Nat.two_pow_pos _), Nat.div_eq_of_lt hlt, Nat.add_zero]
  have hexp : (F.signBit neg + B) / 2 ^ F.fbits % 2 ^ F.ebits = B / 2 ^ F.fbits := by
    rw [hsign, Nat.mul_add_div (Nat.two_pow_pos _), Nat.mul_add_mod, Nat.mod_eq_of_lt (hex.trans_le (Nat.sub_le _ _))]
  have hfrac : (F.signBit neg + B) % 2 ^ F.fbits = B % 2 ^ F.fbits := by rw [hsign, Nat.mul_add_mod]
  have hbool : (neg.toNat % 2 == 1) = neg := by cases neg <;> rfl
  simp only [FFmt.decode, hF.e4m3, hneg, hexp, hfrac, hbool, Bool.false_and, Bool.false_eq_true, if_false, Bool.not_false,
    Bool.true_and, beq_iff_eq, hex.ne]

/-- The pattern whose magnitude bits count `k` steps of the `j`-th spacing (R72) is k × 2^(qmin + j). -/
theorem decode_steps (neg : Bool) {j k : Nat} (hk : k ≤ 2 * 2 ^ F.fbits) (hj : j = 0 ∨ 2 ^ F.fbits ≤ k)
    (h : j * 2 ^ F.fbits + k < F.infBits) (hF : HasInf F) :
    ∃ m e, F.decode (F.signBit neg + (j * 2 ^ F.fbits + k)) = .fin neg m e ∧ F.qmin ≤ e ∧
      m * 2 ^ (e - F.qmin).toNat = k * 2 ^ j := by
  have hpos := Nat.two_pow_pos F.fbits
  have hfin (i r : Nat) (hr : r < 2 ^ F.fbits) (he : j * 2 ^ F.fbits + k = 2 ^ F.fbits * (i + 1) + r) :
      F.decode (F.signBit neg + (j * 2 ^ F.fbits + k)) = .fin neg (2 ^ F.fbits + r) (F.qmin + i) := by
    rw [decode_finite neg h hF, he, Nat.mul_add_div hpos, Nat.div_eq_of_lt hr, Nat.mul_add_mod, Nat.mod_eq_of_lt hr,
      if_neg (Nat.succ_ne_zero _)]
    congr 2
    omega
  have hexp (i : Nat) : (F.qmin + i - F.qmin).toNat = i := by omega
  obtain hlt | hge := Nat.lt_or_ge k (2 ^ F.fbits)
  · obtain rfl := hj.resolve_right (Nat.not_le_of_lt hlt)
    refine ⟨k, F.qmin, ?_, Int.le_refl _, by rw [Int.sub_self]; rfl⟩
    rw [decode_finite neg h hF, Nat.zero_mul, Nat.zero_add, Nat.div_eq_of_lt hlt, Nat.mod_eq_of_lt hlt, if_pos rfl]
  · obtain hlt | heq := Nat.lt_or_eq_of_le hk
    · refine ⟨_, _, hfin j (k - 2 ^ F.fbits) (by omega) (by rw [Nat.mul_comm j, Nat.mul_add]; omega), by omega, ?_⟩
      rw [hexp, Nat.add_sub_cancel' hge]
    · refine ⟨_, _, hfin (j + 1) 0 hpos (by rw [Nat.mul_comm j, Nat.mul_add, Nat.mul_add]; omega), by omega, ?_⟩
      rw [hexp, heq, Nat.add_zero, Nat.pow_succ, Nat.mul_comm (2 ^ j), ← Nat.mul_assoc, Nat.mul_comm 2]

/-- Every finite value is a multiple of the smallest spacing, of at most fbits + 1 bits. -/
theorem fin_of_decode {w : Nat} {n : Bool} {m : Nat} {e : Int} (h : F.decode w = .fin n m e) :
    F.qmin ≤ e ∧ m < 2 * 2 ^ F.fbits := by
  have hlt : w % 2 ^ F.fbits < 2 ^ F.fbits := Nat.mod_lt _ (Nat.two_pow_pos _)
  unfold FFmt.decode at h
  dsimp only at h
  split at h
  · cases h
  · split at h
    · split at h <;> cases h
    · split at h
      · cases h
        exact ⟨Int.le_refl _, by omega⟩
      · have hne : w / 2 ^ F.fbits % 2 ^ F.ebits ≠ 0 := fun h0 => ‹¬_› (beq_iff_eq.mpr h0)
        cases h
        exact ⟨by omega, by omega⟩

/-! The grid of multiples of 2^q. -/

section Grid
variable (neg : Bool) (m : Nat) (e q : Int)

/-- The steps that the nearest-even mode rounds a magnitude to. -/
def gridSteps : Nat := (roundGrid .rne 0 neg false m e q).1

theorem gridSteps_exact (h : q ≤ e) : gridSteps neg m e q = m * 2 ^ (e - q).toNat := by
  rw [gridSteps, roundGrid, if_pos h]

/-- Above the exponent it is the quotient or the next number, as the remainder lies below or above the half. -/
theorem gridSteps_cut {d : Nat} (hd : q = e + (d + 1)) :
    gridSteps neg m e q = m / 2 ^ (d + 1) ∧ m % 2 ^ (d + 1) ≤ 2 ^ d ∨
      gridSteps neg m e q = m / 2 ^ (d + 1) + 1 ∧ 2 ^ d ≤ m % 2 ^ (d + 1) := by
  have hn : (q - e).toNat = d + 1 := by omega
  have hq : ¬q ≤ e := by omega
  simp only [gridSteps, roundGrid, if_neg hq, hn, Nat.add_sub_cancel]
  split
  · refine .inr ⟨rfl, ?_⟩
    rename_i h
    simp only [Bool.or_eq_true, decide_eq_true_eq, Bool.and_eq_true, beq_iff_eq] at h
    omega
  · refine .inl ⟨rfl, ?_⟩
    rename_i h
    simp only [Bool.or_eq_true, decide_eq_true_eq, not_or] at h
    omega

/-- No multiple of the spacing lies nearer. -/
theorem gridSteps_nearest {d : Nat} (hd : q = e + (d + 1)) (j : Int) :
    (gridSteps neg m e q * 2 ^ (d + 1) - m : Int).natAbs ≤ (j * 2 ^ (d + 1) - m : Int).natAbs := by
  have hm : (m : Int) = (m / 2 ^ (d + 1) : Nat) * 2 ^ (d + 1) + (m % 2 ^ (d + 1) : Nat) := by
    have := Nat.div_add_mod m (2 ^ (d + 1))
    push_cast
    rw [Int.mul_comm]
    exact_mod_cast this.symm
  have hlt := Nat.mod_lt m (Nat.two_pow_pos (d + 1))
  have hhalf : (2 ^ (d + 1) : Nat) = 2 * 2 ^ d := by rw [Nat.pow_succ, Nat.mul_comm]
  have hbelow (t : Int) (ht : t ≤ 0) : t * (2 ^ (d + 1) : Nat) ≤ 0 := Int.mul_nonpos_of_nonpos_of_nonneg ht (Int.natCast_nonneg _)
  have habove (t : Int) (ht : 1 ≤ t) : ((2 ^ (d + 1) : Nat) : Int) ≤ t * (2 ^ (d + 1) : Nat) :=
    le_mul_of_one_le_left (Int.natCast_nonneg _) ht
  have hsteps := gridSteps_cut neg m e q hd
  have hcast : (2 : Int) ^ (d + 1) = (2 ^ (d + 1) : Nat) := by push_cast; rfl
  rw [hcast] at hm ⊢
  generalize (2 ^ (d + 1) : Nat) = D at *
  generalize m / D = k at *
  generalize m % D = r at *
  have hj : j * (D : Int) = (j - k) * D + k * D := by ring
  obtain ⟨hk, hr⟩ | ⟨hk, hr⟩ := hsteps
  all_goals
    rw [hk]
    push_cast
    obtain ht | ht := le_or_gt (j - k) 0
  · have := hbelow _ ht
    omega
  · have := habove _ ht
    omega
  · have := hbelow _ ht
    rw [Int.add_mul]
    omega
  · have := habove _ ht
    rw [Int.add_mul]
    omega

/-- The steps of a grid that keeps fbits + 1 bits, or fewer where the spacing is the smallest. -/
theorem gridSteps_bound {f : Nat} {lo : Int} (hm : m ≠ 0) (hq : q = max (e + (Nat.log2 m : Int) - f) lo) :
    gridSteps neg m e q ≤ 2 * 2 ^ f ∧ (q = lo ∨ 2 ^ f ≤ gridSteps neg m e q) := by
  have hlow : 2 ^ Nat.log2 m ≤ m := Nat.log2_self_le hm
  have hhigh : m < 2 ^ (Nat.log2 m + 1) := Nat.lt_log2_self
  have hwide : 2 * 2 ^ f = 2 ^ (f + 1) := by rw [Nat.pow_succ, Nat.mul_comm]
  generalize Nat.log2 m = g at *
  by_cases h : q ≤ e
  · rw [gridSteps_exact neg m e q h, hwide]
    refine ⟨?_, or_iff_not_imp_left.mpr fun hne => ?_⟩
    · calc m * 2 ^ (e - q).toNat ≤ 2 ^ (g + 1) * 2 ^ (e - q).toNat := Nat.mul_le_mul_right _ hhigh.le
        _ = 2 ^ (g + 1 + (e - q).toNat) := (Nat.pow_add _ _ _).symm
        _ ≤ 2 ^ (f + 1) := Nat.pow_le_pow_right (by decide) (by omega)
    · calc 2 ^ f = 2 ^ g * 2 ^ (e - q).toNat := by rw [← Nat.pow_add]; congr 1; omega
        _ ≤ m * 2 ^ (e - q).toNat := Nat.mul_le_mul_right _ hlow
  · obtain ⟨d, hd⟩ : ∃ d : Nat, q = e + (d + 1) := ⟨(q - e - 1).toNat, by omega⟩
    have hquot : m / 2 ^ (d + 1) < 2 ^ (f + 1) := by
      rw [Nat.div_lt_iff_lt_mul (Nat.two_pow_pos _), ← Nat.pow_add]
      exact hhigh.trans_le (Nat.pow_le_pow_right (by decide) (by omega))
    have hcut := gridSteps_cut neg m e q hd
    refine ⟨by omega, or_iff_not_imp_left.mpr fun hne => ?_⟩
    have hleast : 2 ^ f ≤ m / 2 ^ (d + 1) := by
      rw [Nat.le_div_iff_mul_le (Nat.two_pow_pos _), ← Nat.pow_add]
      exact (Nat.pow_le_pow_right (by decide) (by omega)).trans hlow
    omega

/-- Of all multiples of the spacing, and of all values below the magnitude's leading bit where that sets the spacing, none lies
nearer. The unit is 2^u. -/
theorem gridSteps_least {f : Nat} {u : Int} (hm : m ≠ 0) (hu : u ≤ e) (huq : u ≤ q) {w : Int}
    (hw : (∃ j : Int, w = j * 2 ^ (q - u).toNat) ∨
      q = e + (Nat.log2 m : Int) - f ∧ w.natAbs ≤ 2 ^ f * 2 ^ (q - u).toNat) :
    (gridSteps neg m e q * 2 ^ (q - u).toNat - m * 2 ^ (e - u).toNat : Int).natAbs ≤ (w - m * 2 ^ (e - u).toNat).natAbs := by
  by_cases h : q ≤ e
  · have hexp : (e - u).toNat = (e - q).toNat + (q - u).toNat := by omega
    rw [gridSteps_exact neg m e q h, hexp, pow_add]
    push_cast
    rw [Int.mul_assoc, Int.sub_self]
    exact Nat.zero_le _
  · obtain ⟨d, hd⟩ : ∃ d : Nat, q = e + (d + 1) := ⟨(q - e - 1).toNat, by omega⟩
    have hexp : (q - u).toNat = d + 1 + (e - u).toNat := by omega
    have hscale (j : Int) : (j * 2 ^ (q - u).toNat - m * 2 ^ (e - u).toNat : Int).natAbs =
        (j * 2 ^ (d + 1) - m : Int).natAbs * 2 ^ (e - u).toNat := by
      rw [hexp, pow_add, ← Int.mul_assoc, ← Int.sub_mul, Int.natAbs_mul, Int.natAbs_pow]
      rfl
    have hmult (j : Int) : (gridSteps neg m e q * 2 ^ (q - u).toNat - m * 2 ^ (e - u).toNat : Int).natAbs ≤
        (j * 2 ^ (q - u).toNat - m * 2 ^ (e - u).toNat : Int).natAbs := by
      rw [hscale, hscale]
      exact Nat.mul_le_mul_right _ (gridSteps_nearest neg m e q hd j)
    obtain ⟨j, rfl⟩ | ⟨hq, hw⟩ := hw
    · exact hmult j
    · have htop : 2 ^ f * 2 ^ (q - u).toNat ≤ m * 2 ^ (e - u).toNat := by
        have : 2 ^ f * 2 ^ (q - u).toNat = 2 ^ Nat.log2 m * 2 ^ (e - u).toNat := by
          rw [← Nat.pow_add, ← Nat.pow_add]
          congr 1
          omega
        rw [this]
        exact Nat.mul_le_mul_right _ (Nat.log2_self_le hm)
      have hpow := hmult (2 ^ f : Nat)
      have htop : ((2 ^ f * 2 ^ (q - u).toNat : Nat) : Int) ≤ (m * 2 ^ (e - u).toNat : Nat) := Int.ofNat_le.mpr htop
      push_cast at hpow htop hw
      have hcast : ((2 ^ f * 2 ^ (q - u).toNat : Nat) : Int) = 2 ^ f * 2 ^ (q - u).toNat := by push_cast; rfl
      omega

end Grid

/-- The nearest-even mode keeps a zero, and gives any other value that does not overflow the pattern of the steps of its
grid. -/
theorem round_zero (neg : Bool) (x : Int) : (F.round .rne 0 false neg false 0 x).bits = F.signBit neg := rfl

theorem round_steps {neg : Bool} {m : Nat} {x q : Int} (hF : HasInf F) (hm : m ≠ 0)
    (hq : q = max (x + (Nat.log2 m : Int) - F.fbits) F.qmin) (h : (F.round .rne 0 false neg false m x).ovf = false) :
    (F.round .rne 0 false neg false m x).bits =
        F.signBit neg + ((q - F.qmin).toNat * 2 ^ F.fbits + gridSteps neg m x q) ∧
      (q - F.qmin).toNat * 2 ^ F.fbits + gridSteps neg m x q < F.infBits := by
  have hpos := infBits_pos hF
  have hz : (m == 0 && !false) = false := by simpa using hm
  have hmax : F.maxBits = F.infBits - 1 := by rw [FFmt.maxBits, hF.e4m3, if_neg Bool.false_ne_true]
  unfold FFmt.round at h ⊢
  rw [hz, if_neg Bool.false_ne_true] at h ⊢
  dsimp only at h ⊢
  rw [← hq] at h ⊢
  split at h
  · cases h
  · rename_i hle
    rw [if_neg hle]
    refine ⟨rfl, ?_⟩
    rw [gridSteps]
    omega

theorem scaled_unit {n : Bool} {m : Nat} {e q u : Int} (hq : q ≤ e) (hu : u ≤ q) :
    FVal.scaled n m e u = FVal.scaled n (m * 2 ^ (e - q).toNat) q u := by
  have hexp : (e - u).toNat = (e - q).toNat + (q - u).toNat := by omega
  unfold FVal.scaled
  dsimp only
  rw [hexp, pow_add]
  push_cast
  rw [Int.mul_assoc]

/-- A finite value is a multiple of any spacing up to its own, and at any greater spacing it stays below a leading bit. -/
theorem scaled_fits {w : Nat} {n : Bool} {m : Nat} {e q u : Int} (h : F.decode w = .fin n m e) (hu : u ≤ F.qmin)
    (hq : F.qmin ≤ q) : (∃ j : Int, FVal.scaled n m e u = j * 2 ^ (q - u).toNat) ∨
      q ≠ F.qmin ∧ (FVal.scaled n m e u).natAbs ≤ 2 ^ F.fbits * 2 ^ (q - u).toNat := by
  obtain ⟨hlow, hm⟩ := fin_of_decode h
  by_cases hqe : q ≤ e
  · rw [scaled_unit hqe (hu.trans hq)]
    refine .inl ⟨FVal.scaled n (m * 2 ^ (e - q).toNat) q q, ?_⟩
    unfold FVal.scaled
    dsimp only
    rw [Int.sub_self]
    cases n <;> simp
  · refine .inr ⟨by omega, ?_⟩
    have hnat : (FVal.scaled n m e u).natAbs = m * 2 ^ (e - u).toNat := by
      unfold FVal.scaled
      dsimp only
      split
      · rw [Int.natAbs_neg]; exact Int.natAbs_natCast _
      · exact Int.natAbs_natCast _
    calc (FVal.scaled n m e u).natAbs = m * 2 ^ (e - u).toNat := hnat
      _ ≤ 2 * 2 ^ F.fbits * 2 ^ (e - u).toNat := Nat.mul_le_mul_right _ hm.le
      _ = 2 ^ F.fbits * 2 ^ ((e - u).toNat + 1) := by rw [Nat.pow_succ]; ring
      _ ≤ 2 ^ F.fbits * 2 ^ (q - u).toNat := Nat.mul_le_mul_left _ (Nat.pow_le_pow_right (by decide) (by omega))

theorem scaled_neg_natAbs (neg : Bool) (m k : Nat) (x q u w : Int) :
    (FVal.scaled neg k q u - FVal.scaled neg m x u).natAbs = (k * 2 ^ (q - u).toNat - m * 2 ^ (x - u).toNat : Int).natAbs ∧
      (w - FVal.scaled neg m x u).natAbs = ((if neg then -w else w) - m * 2 ^ (x - u).toNat : Int).natAbs := by
  unfold FVal.scaled
  cases neg
  · exact ⟨rfl, rfl⟩
  · simp only [if_true]
    generalize (k * 2 ^ (q - u).toNat : Int) = a
    generalize (m * 2 ^ (x - u).toNat : Int) = b
    omega

/-- R85: of all finite values of the format, the result lies at the least distance from the exact value. -/
theorem round_nearest (hF : HasInf F) {neg : Bool} {m : Nat} {x : Int} {w : Nat}
    (hovf : (F.round .rne 0 false neg false m x).ovf = false) {rn wn : Bool} {rm wm : Nat} {rx wx : Int}
    (hr : F.decode (F.round .rne 0 false neg false m x).bits = .fin rn rm rx) (hw : F.decode w = .fin wn wm wx) :
    let u := min x F.qmin
    (FVal.scaled rn rm rx u - FVal.scaled neg m x u).natAbs ≤ (FVal.scaled wn wm wx u - FVal.scaled neg m x u).natAbs := by
  intro u
  have hux : u ≤ x := min_le_left _ _
  have huq : u ≤ F.qmin := min_le_right _ _
  by_cases hm : m = 0
  · subst hm
    rw [round_zero, ← Nat.add_zero (F.signBit neg), decode_finite neg (infBits_pos hF) hF, Nat.zero_div, if_pos rfl, Nat.zero_mod] at hr
    cases hr
    have hzero (n : Bool) (e : Int) : FVal.scaled n 0 e u = 0 := by unfold FVal.scaled; cases n <;> simp
    rw [hzero, hzero]
    exact Nat.zero_le _
  · obtain ⟨q, hq⟩ : ∃ q, q = max (x + (Nat.log2 m : Int) - F.fbits) F.qmin := ⟨_, rfl⟩
    obtain ⟨hbits, hfin⟩ := round_steps hF hm hq hovf
    obtain ⟨hk, hj⟩ := gridSteps_bound neg m x q hm hq
    obtain ⟨m', e', hd, hlow, hval⟩ := decode_steps neg hk (hj.imp_left (fun h => by rw [h, Int.sub_self]; rfl)) hfin hF
    rw [hbits, hd] at hr
    cases hr
    have hqmin : F.qmin ≤ q := by rw [hq]; exact le_max_right _ _
    have hres : FVal.scaled neg rm rx u = FVal.scaled neg (gridSteps neg m x q) q u := by
      rw [scaled_unit hlow huq, hval, scaled_unit hqmin huq]
    have hleast := gridSteps_least (f := F.fbits) (u := u) (w := if neg then -FVal.scaled wn wm wx u else FVal.scaled wn wm wx u)
      neg m x q hm hux (huq.trans hqmin) (by
        obtain ⟨j, hj⟩ | ⟨hne, habs⟩ := scaled_fits hw huq hqmin
        · exact .inl ⟨if neg then -j else j, by rw [hj]; cases neg <;> simp⟩
        · exact .inr ⟨by omega, by cases neg <;> simpa using habs⟩)
    rw [hres, (scaled_neg_natAbs neg m _ x q u 0).1, (scaled_neg_natAbs neg m 0 x q u _).2]
    exact hleast

end Nearest

/-- Settles O8: a NaN operand decides each operation before anything is computed; a rounded value is the nearest of its grid,
and a finite value off that grid lies below the leading bit. -/
theorem floatRules : Obligations.FloatRules := by
  refine ⟨fun F hF rm ftz sub x y z hx hy hz => ?_,
    fun F hF neg m x r w hr hovf rn wn rm wm rx wx hdr hdw => ?_⟩
  · have hF := hasInf_of_mem hF
    exact ⟨fun h => nan_first hF h hx, fun hnx h => nan_second hF hnx h hy, fun hnx hny h => nan_third hF hnx hny h hz,
      fun h => nan_signals hF h hx hy⟩
  · subst hr
    exact round_nearest (hasInf_of_mem hF) hovf hdr hdw

end Sys2Proof.Safety
end

section
/-! PROOF. The special functions on zeros, infinities, negative numbers, integers and half integers (R99). -/

namespace Sys2Proof.Safety

open Sys2Proof Sys2Proof.Machine

/-! Zeros and infinities: closed evaluations of the model. -/

theorem rcp_sqrt_ends : ∀ cr ftz : Bool, let g := Grid.f32 (if cr then 24 else 23)
    sfRcp g ftz 0 = (0x7F80_0000, 2) ∧ sfRcp g ftz 0x8000_0000 = (0xFF80_0000, 2) ∧ sfRcp g ftz 0x7F80_0000 = (0, 0) ∧
    sfRcp g ftz 0xFF80_0000 = (0x8000_0000, 0) ∧ sfSqrt g ftz 0 = (0, 0) ∧ sfSqrt g ftz 0x8000_0000 = (0x8000_0000, 0) ∧
    sfSqrt g ftz 0x7F80_0000 = (0x7F80_0000, 0) ∧ sfSqrt g ftz 0xFF80_0000 = (0x7FC0_0000, 1) := by
  decide

theorem rsq_exp2_log2_ends : ∀ ftz : Bool,
    sfRsq (Grid.f32 23) ftz 0 = (0x7F80_0000, 2) ∧ sfRsq (Grid.f32 23) ftz 0x8000_0000 = (0xFF80_0000, 2) ∧
    sfRsq (Grid.f32 23) ftz 0x7F80_0000 = (0, 0) ∧ sfExp2 (Grid.f32 22) ftz 0xFF80_0000 = (0, 0) ∧
    sfExp2 (Grid.f32 22) ftz 0x7F80_0000 = (0x7F80_0000, 0) ∧ sfLog2 (Grid.f32 22) ftz 0 = (0xFF80_0000, 2) ∧
    sfLog2 (Grid.f32 22) ftz 0x8000_0000 = (0xFF80_0000, 2) ∧ sfLog2 (Grid.f32 22) ftz 0x7F80_0000 = (0x7F80_0000, 0) := by
  decide

theorem sinCos_ends : ∀ ftz : Bool,
    (∀ x ∈ [0x7F80_0000, 0xFF80_0000], sfSinCos (Grid.f32 22) false ftz x = (0x7FC0_0000, 1) ∧
      sfSinCos (Grid.f32 22) true ftz x = (0x7FC0_0000, 1)) ∧
    sfSinCos (Grid.f32 22) false ftz 0 = (0, 0) ∧ sfSinCos (Grid.f32 22) false ftz 0x8000_0000 = (0x8000_0000, 0) := by
  decide

theorem tanh_erf_ends : ∀ ftz : Bool, ∀ f ∈ [sfTanh (Grid.f32 21) ftz, sfErf (Grid.f32 21) ftz],
    f 0x7F80_0000 = (0x3F80_0000, 0) ∧ f 0xFF80_0000 = (0xBF80_0000, 0) ∧ f 0 = (0, 0) ∧ f 0x8000_0000 = (0x8000_0000, 0) := by
  decide

/-! Numbers. -/

section Number
variable {x m : Nat} {neg ftz : Bool} {e : Int} (p : Nat)

theorem fmt_f32 : (Grid.f32 p).fmt = FFmt.f32 := rfl

theorem bad_f32 : (Grid.f32 p).bad = (0x7FC0_0000, 1) := by
  rw [Grid.bad, fmt_f32]
  decide

/-- A number that `.ftz` does not flush is read as it stands (R95). -/
theorem read_number (hd : FFmt.f32.decode x = .fin neg m e) (hn : ftz = false ∨ 2 ^ 23 ≤ m) :
    FFmt.f32.read ftz x = .fin neg m e := by
  rw [FFmt.read, hd]
  cases ftz with
  | false => rfl
  | true =>
    have hm : 2 ^ FFmt.f32.fbits ≤ m := hn.resolve_left nofun
    simp only [FFmt.flush, Nat.not_lt.mpr hm, decide_false, Bool.and_false, Bool.false_eq_true, if_false, if_true]

variable (hr : FFmt.f32.read ftz x = .fin neg m e) (hm : m ≠ 0)
include hr hm

/-- A negative number has no square root and no logarithm. -/
theorem sfSqrt_negative (hneg : neg = true) : sfSqrt (Grid.f32 p) ftz x = (0x7FC0_0000, 1) := by
  have hz : (m == 0) = false := beq_false_of_ne hm
  simp only [sfSqrt, fmt_f32, hr, hz, hneg, Grid.nan, FFmt.firstNan, Bool.false_eq_true, if_false, if_true, bad_f32]

theorem sfRsq_negative (hneg : neg = true) : sfRsq (Grid.f32 p) ftz x = (0x7FC0_0000, 1) := by
  have hz : (m == 0) = false := beq_false_of_ne hm
  simp only [sfRsq, fmt_f32, hr, hz, hneg, Grid.nan, FFmt.firstNan, Bool.false_eq_true, if_false, if_true, bad_f32]

theorem sfLog2_negative (hneg : neg = true) : sfLog2 (Grid.f32 p) ftz x = (0x7FC0_0000, 1) := by
  have hz : (m == 0) = false := beq_false_of_ne hm
  simp only [sfLog2, fmt_f32, hr, hz, hneg, Grid.nan, FFmt.firstNan, Bool.false_eq_true, if_false, if_true, bad_f32]

omit hr hm in
/-- The argument that the sine is taken of, modulo 2 and in fixed point: cos(π x) is sin(π (x + 1/2)). -/
def sinPhase (cosine : Bool) (m : Nat) (e : Int) : Nat :=
  let t := if 1 ≤ e then 0 else fxOf m e % (2 * fxOne)
  if cosine then (t + fxOne / 2) % (2 * fxOne) else t

/-- At a whole argument the sine is a zero: the operand's of `sinpi`, +0 of `cospi`. -/
theorem sfSinCos_whole {cosine : Bool} (h : sinPhase cosine m e = 0 ∨ sinPhase cosine m e = fxOne) :
    sfSinCos (Grid.f32 p) cosine ftz x = (Grid.f32 p).zero (neg && !cosine) := by
  have hz : (m == 0) = false := beq_false_of_ne hm
  have hpos : 0 < fxOne := Nat.two_pow_pos _
  have hfold : (if fxOne ≤ sinPhase cosine m e then sinPhase cosine m e - fxOne else sinPhase cosine m e) = 0 := by
    split <;> omega
  unfold sinPhase at hfold
  simp only [sfSinCos, fmt_f32, hr, hz, Grid.nan, FFmt.firstNan, Bool.false_eq_true, if_false, hfold, Nat.not_lt_zero]
  cases cosine <;> simp

end Number

/-- From the exponent of the smallest number on, the fixed-point form is exact. -/
theorem fxOf_exact {m : Nat} {e : Int} (he : -149 ≤ e) : fxOf m e = m * 2 ^ (e + 200).toNat * 2 ^ 440 := by
  have hexp : (e + (fxBits : Int)).toNat = (e + 200).toNat + 440 := by unfold fxBits; omega
  have hge : 0 ≤ e + (fxBits : Int) := by unfold fxBits; omega
  calc fxOf m e = m * 2 ^ ((e + 200).toNat + 440) := by rw [fxOf, if_pos hge, hexp]
    _ = m * 2 ^ (e + 200).toNat * 2 ^ 440 := by rw [Nat.pow_add, Nat.mul_assoc]

theorem fxOne_eq : fxOne = 2 ^ 200 * 2 ^ 440 :=
  (congrArg (2 ^ ·) (rfl : fxBits = 200 + 440)).trans (Nat.pow_add 2 200 440)

theorem sinPhase_integer {m : Nat} {e : Int} (he : -149 ≤ e) (h : m * 2 ^ (e + 200).toNat % 2 ^ 200 = 0) :
    sinPhase false m e = 0 ∨ sinPhase false m e = fxOne := by
  obtain ⟨c, hc⟩ := Nat.dvd_of_mod_eq_zero h
  have hfx : fxOf m e = fxOne * c := by rw [fxOf_exact he, fxOne_eq, hc, Nat.mul_right_comm]
  rw [sinPhase, if_neg Bool.false_ne_true, hfx, Nat.mul_comm 2, Nat.mul_mod_mul_left]
  split
  · exact .inl rfl
  · obtain h0 | h1 := Nat.mod_two_eq_zero_or_one c
    · exact .inl (by rw [h0, Nat.mul_zero])
    · exact .inr (by rw [h1, Nat.mul_one])

theorem sinPhase_half {m : Nat} {e : Int} (he : -149 ≤ e) (h : m * 2 ^ (e + 200).toNat % 2 ^ 200 = 2 ^ 199) :
    sinPhase true m e = 0 ∨ sinPhase true m e = fxOne := by
  have hlow : ¬1 ≤ e := fun h1 => by
    have hexp : (e + 200).toNat = e.toNat + 200 := by omega
    rw [hexp, Nat.pow_add, ← Nat.mul_assoc, Nat.mul_mod_left] at h
    exact absurd h (by decide)
  obtain ⟨c, hc⟩ : ∃ c, m * 2 ^ (e + 200).toNat = 2 ^ 199 * (2 * c + 1) := ⟨m * 2 ^ (e + 200).toNat / 2 ^ 200, by omega⟩
  obtain ⟨half, hone, hfx⟩ : ∃ half, fxOne = half * 2 ∧ fxOf m e = half * (2 * c + 1) :=
    ⟨2 ^ 199 * 2 ^ 440, by rw [fxOne_eq, Nat.mul_right_comm]; rfl, by rw [fxOf_exact he, hc, Nat.mul_right_comm]⟩
  have hturn : 2 * (half * 2) = half * 4 := by omega
  rw [sinPhase, if_pos rfl, if_neg hlow, hfx, hone, Nat.mul_div_cancel _ two_pos, hturn, Nat.mul_mod_mul_left,
    ← Nat.mul_succ, Nat.mul_mod_mul_left]
  obtain h1 | h3 : (2 * c + 1) % 4 = 1 ∨ (2 * c + 1) % 4 = 3 := by omega
  · exact .inr (by rw [h1])
  · exact .inl (by rw [h3]; rfl)

/-- Settles O12: the ends are evaluated; a negative number meets the branch of the invalid result, and the whole arguments of
the sine that of the zeros. -/
theorem specialFunctionInputs : Obligations.SpecialFunctionInputs := by
  refine ⟨rcp_sqrt_ends, fun ftz => ?_, fun x m neg ftz e hd hm hn => ?_⟩
  · obtain ⟨hrsq, hrsqN, hrsqI, hexpN, hexpI, hlog, hlogN, hlogI⟩ := rsq_exp2_log2_ends ftz
    obtain ⟨hsc, hs0, hsN⟩ := sinCos_ends ftz
    exact ⟨hrsq, hrsqN, hrsqI, hexpN, hexpI, hlog, hlogN, hlogI, hsc, hs0, hsN, tanh_erf_ends ftz⟩
  · have hr := read_number hd hn
    obtain ⟨he, -⟩ := fin_of_decode hd
    have he : -149 ≤ e := he
    have hcast : (m : Int) * 2 ^ (e + 200).toNat % 2 ^ 200 = ((m * 2 ^ (e + 200).toNat % 2 ^ 200 : Nat) : Int) := by
      push_cast; rfl
    refine ⟨fun hneg => ⟨fun p => sfSqrt_negative p hr hm hneg, sfRsq_negative 23 hr hm hneg, sfLog2_negative 22 hr hm hneg⟩,
      fun h => ?_, fun h => ?_⟩
    · rw [sfSinCos_whole 22 hr hm (sinPhase_integer he (by omega))]
      cases neg <;> rfl
    · rw [sfSinCos_whole 22 hr hm (sinPhase_half he (by omega)), Bool.not_true, Bool.and_false]
      rfl

end Sys2Proof.Safety
end

section
/-! PROOF. Tile operations at their completion: the block but for its threads and stash lines, and a tile's flags (R61, R81, R84). -/

namespace Sys2Proof.Safety

open Sys2Proof Sys2Proof.Machine

/-! What neither the end of an operation nor memory traffic changes of a block. -/

/-- A block but for its spindles and its stash lines. -/
def bare (b : Block) : Block := { b with spindles := [], absent := [], owned := [], dirty := [] }

/-- The same by the block's number. -/
def bareOf (s : State) (u : Nat) : Option Block := (s.blk u).map bare

theorem bareOf_shell (s : State) (u : Nat) : bareOf s u = (shell s u).map bare := by
  rw [bareOf, shell, Option.map_map]
  rfl

theorem bareOf_of_shell {s t : State} (h : ∀ u, shell t u = shell s u) (u : Nat) : bareOf t u = bareOf s u := by
  rw [bareOf_shell, h, ← bareOf_shell]

theorem bareOf_traffic {s t : State} (h : Traffic s t) (u : Nat) : bareOf t u = bareOf s u := by
  have hc (r : State) : bareOf (calm r) u = bareOf r u := by
    have hb : (calm r).blk u = (r.blk u).map (fun b => { b with absent := [], owned := [], dirty := [] }) :=
      find?_map_same (fun b : Block => b.uid == u) (fun b => { b with absent := [], owned := [], dirty := [] }) (fun _ => rfl) r.blocks
    rw [bareOf, hb, Option.map_map]
    rfl
  rw [← hc t, h.1, hc]

theorem bareOf_end (s : State) (o : Op) (u : Nat) : bareOf ((s.dropOp o).answered o) u = bareOf s u :=
  bareOf_of_shell (opLeaves_answered s o).shells u

theorem bareOf_some {s : State} {u : Nat} {b : Block} (h : bareOf s u = some (bare b)) : ∃ b', s.blk u = some b' ∧ bare b' = bare b :=
  Option.map_eq_some_iff.mp h

section Bare
variable {b b' : Block} (h : bare b' = bare b)
include h

theorem accGet_bare (n : Nat) : b'.accGet n = b.accGet n := by
  have ha : b'.acc = b.acc := (congrArg Block.acc h :)
  have hu : b'.uid = b.uid := (congrArg Block.uid h :)
  rw [Block.accGet, ha, hu, Block.accGet]

theorem tiles_bare : b'.tiles = b.tiles := (congrArg Block.tiles h :)

theorem tileNow_bare (t : Tile) : b'.tileNow t = b.tileNow t := by rw [Block.tileNow, tiles_bare h, Block.tileNow]

theorem lmem_bare : b'.lmem = b.lmem := (congrArg Block.lmem h :)

end Bare

/-! A tile's flags. -/

section Flags
variable (b : Block) (t : Tile)

theorem tileNow_uid : (b.tileNow t).uid = t.uid := by
  unfold Block.tileNow
  cases hf : b.tiles.find? (fun x => x.map (·.uid) == some t.uid) with
  | none => rfl
  | some x =>
    have hx := List.find?_some hf
    cases x with
    | none => exact absurd hx (by simp)
    | some y => simpa using hx

/-- The flags of a defined tile after a change. -/
theorem tileNow_setTile {t : Tile} {x : Tile} (hx : x.uid = t.uid) (h : ∃ y ∈ b.tiles, y.map (·.uid) = some t.uid) :
    (b.setTile x).tileNow t = x := by
  have hfind (l : List (Option Tile)) (hl : ∃ y ∈ l, y.map (·.uid) = some t.uid) :
      (l.map (fun y => if y.map (·.uid) == some t.uid then some x else y)).find? (fun y => y.map (·.uid) == some t.uid) =
        some (some x) := by
    induction l with
    | nil => obtain ⟨_, h, _⟩ := hl; cases h
    | cons y r ih =>
      rw [List.map_cons, List.find?_cons]
      by_cases hy : y.map (·.uid) = some t.uid
      · simp [hy, hx]
      · have hr : ∃ y ∈ r, y.map (·.uid) = some t.uid := by
          obtain ⟨z, hz, hzu⟩ := hl
          obtain rfl | hz := List.mem_cons.mp hz
          · exact absurd hzu hy
          · exact ⟨z, hz, hzu⟩
        have hno := beq_eq_false_iff_ne.mpr hy
        simp only [hno, Bool.false_eq_true, if_false]
        exact ih hr
  rw [Block.tileNow, Block.setTile, hx]
  dsimp only
  rw [hfind b.tiles h]
  rfl

theorem accGet_setTile (x : Tile) (n : Nat) : (b.setTile x).accGet n = b.accGet n := rfl

/-- The other handles keep theirs. -/
theorem setTile_others (x : Tile) {i : Nat} (h : (b.tiles[i]?).join.map (·.uid) ≠ some x.uid) :
    (b.setTile x).tiles[i]? = b.tiles[i]? := by
  rw [Block.setTile]
  dsimp only
  rw [List.getElem?_map]
  cases hi : b.tiles[i]? with
  | none => rfl
  | some y =>
    rw [hi] at h
    have hy : y.map (·.uid) ≠ some x.uid := h
    simp only [Option.map_some, beq_iff_eq, hy, if_false]

end Flags

/-! A tile operation that may go on. -/

section Runs
variable {s : State} {o : Op} {b : Block}

theorem away_resident (hb : s.blk o.blk = some b) (he : b.evicted = false) (hh : s.halting o.ctx = false) : s.away o = false := by
  rw [State.away, hb, Option.map_some, he, hh, Bool.and_false]
  rfl

/-- TOKEN_CLEAR of an operation that leaves the list. -/
theorem execTokenClear_drop {t : State} (ho : pending s o.id = some o) (hc : s.complete o = some (t.dropOp o)) (ht : t.ops = s.ops) :
    ∃ u, exec (.tokenClear o.id) s = .next u ∧ OpGone s u o.id ∧ OpLeaves t u o ∧ ∀ v, bareOf u v = bareOf t v :=
  ⟨_, execTokenClear_complete ho hc, opGone_congr ht (opGone_of (opLeaves_answered t o).ops), opLeaves_answered t o, bareOf_end t o⟩

end Runs

/-- The record of an engine is memory traffic (R393). -/
theorem traffic_logOp (s : State) (o : Op) (cause : Nat) : Traffic s (s.logOp o cause) := by
  unfold State.logOp
  split
  · exact traffic_logTo s _ _ _
  · exact .refl s

theorem blk_updBlk_same {s : State} {u : Nat} {b : Block} {f : Block → Block} (hb : s.blk u = some b) (hf : ∀ b, (f b).uid = b.uid) :
    (s.updBlk u f).blk u = some (f b) := by
  rw [State.blk_updBlk s u u f hf, hb, Option.map_some, if_pos (beq_iff_eq.mpr (State.blk_uid hb))]

end Sys2Proof.Safety
end

section
/-! PROOF. A performed `mma` adds the exact sum of products to every word of its tile (R81 to R84, R299). -/

namespace Sys2Proof.Safety

open Sys2Proof Sys2Proof.Machine

/-! Rows, and sums over pairs of rows. -/

theorem add_lt_mul {i j r c : Nat} (hi : i < r) (hj : j < c) : i * c + j < r * c :=
  calc i * c + j < i * c + c := Nat.add_lt_add_left hj _
    _ = (i + 1) * c := (Nat.succ_mul i c).symm
    _ ≤ r * c := Nat.mul_le_mul_right c hi

/-- The element of a table laid out row by row. -/
theorem getElem?_table {α β γ : Type} (f : α → β → γ) (ys : List β) {y : β} {j : Nat} (hy : ys[j]? = some y) :
    ∀ (xs : List α) {i : Nat} {x : α}, xs[i]? = some x → (xs.flatMap (fun x => ys.map (f x)))[i * ys.length + j]? = some (f x y) := by
  have hj : j < ys.length := (List.getElem?_eq_some_iff.mp hy).1
  intro xs
  induction xs with
  | nil => intro i x hx; cases hx
  | cons z r ih =>
    intro i x hx
    rw [List.flatMap_cons]
    cases i with
    | zero =>
      cases hx
      rw [Nat.zero_mul, Nat.zero_add, List.getElem?_append_left (by simpa using hj), List.getElem?_map, hy]
      rfl
    | succ i =>
      have hlen : (ys.map (f z)).length ≤ (i + 1) * ys.length + j := by rw [List.length_map, Nat.succ_mul]; omega
      have hoff : (i + 1) * ys.length + j - (ys.map (f z)).length = i * ys.length + j := by
        rw [List.length_map, Nat.succ_mul]; omega
      rw [List.getElem?_append_right hlen, hoff]
      exact ih hx

theorem length_table {α β γ : Type} (f : α → β → γ) (xs : List α) (ys : List β) :
    (xs.flatMap (fun x => ys.map (f x))).length = xs.length * ys.length := by
  rw [List.length_flatMap]
  simp

theorem dotRows_map (f g : Nat → Option Int) (l : List Nat) :
    dotRows (l.map f) (l.map g) = (l.map (fun k => (f k).getD 0 * (g k).getD 0)).sum := by
  induction l with
  | nil => rfl
  | cons k r ih => rw [List.map_cons, List.map_cons, dotRows, ih, List.map_cons, List.sum_cons]

/-- The count of the values missing in some rows. -/
def missing (l : List (List (Option Int))) : Nat := l.foldl (fun n r => n + (r.filter (fun v => v.isNone)).length) 0

theorem missing_zero (l : List (List (Option Int))) : missing l = 0 ↔ ∀ r ∈ l, none ∉ r := by
  have hstep (n : Nat) : l.foldl (fun n r => n + (r.filter (fun v => v.isNone)).length) n = 0 ↔ n = 0 ∧ ∀ r ∈ l, none ∉ r := by
    induction l generalizing n with
    | nil => simp
    | cons r t ih =>
      rw [List.foldl_cons, ih, Nat.add_eq_zero_iff, List.length_eq_zero_iff, List.filter_eq_nil_iff, List.forall_mem_cons, and_assoc]
      have hr : (∀ v ∈ r, ¬Option.isNone v = true) ↔ none ∉ r :=
        ⟨fun h hn => h none hn rfl, fun h v hv hn => h (Option.isNone_iff_eq_none.mp hn ▸ hv)⟩
      rw [hr]
  rw [missing, hstep]
  exact and_iff_right rfl

/-! The work of an `mma` whose block has no store still to be seen (R162). -/

theorem opndByte_seen {b : Block} (h : b.unseen = []) (c : Nat) : b.opndByte c = b.lbyte := by
  funext a
  rw [Block.opndByte, h]
  rfl

section Work
variable (b : Block) (t : Tile) (xa xb kb : Nat) (fw : Word)

/-- The rows of A, and those of B. -/
def rowsA : List (List (Option Int)) :=
  (List.range t.rows).map (fun i => opndRow b.lbyte (fw.toNat % 16) t.rows kb (fw.getLsbD 11) xa i)
def rowsB : List (List (Option Int)) :=
  (List.range t.cols).map (fun j => opndRow b.lbyte (fw.toNat / 16 % 16) t.cols kb (fw.getLsbD 12) xb j)

/-- The tile's words with the sums added (R84). -/
def addedWords : List (BitVec 256 × BitVec 8) :=
  List.zipWith (fun w u => exactAdd w.1 w.2 u) (b.accAll t)
    ((rowsA b t xa kb fw).flatMap (fun x => (rowsB b t xb kb fw).map (dotRows x)))

def nonFinite : Nat := missing (rowsA b t xa kb fw ++ rowsB b t xb kb fw)

/-- The block with the sums added, and NF set where an element is not finite. -/
def addedBlock (c : Block) : Block := c.accPut t.base (addedWords b t xa xb kb fw)
def markedBlock (c : Block) : Block :=
  if nonFinite b t xa xb kb fw = 0 then addedBlock b t xa xb kb fw c
  else (addedBlock b t xa xb kb fw c).setTile { (addedBlock b t xa xb kb fw c).tileNow t with nf := true }

theorem markedBlock_uid (c : Block) : (markedBlock b t xa xb kb fw c).uid = c.uid := by
  unfold markedBlock
  split <;> rfl

variable {b t xa xb kb fw}

theorem mmaWork_eq {s : State} {o : Op} {z n : Nat} {core : Option Nat} {src : Option Nat}
    (hk : o.kind = .mma t z xa xb kb fw core n src) (hb : s.blk o.blk = some b) (hu : b.unseen = []) (c : Nat) :
    s.mmaWork o (b.opndByte c) xb none =
      (List.range (nonFinite b t xa xb kb fw)).foldl (fun u _ => u.logOp o 0x13) (s.updBlk o.blk (markedBlock b t xa xb kb fw)) := by
  have hfa : (fw.extractLsb' 0 4).toNat = fw.toNat % 16 := (field_toNat fw 0 4).trans (by rw [Nat.pow_zero, Nat.div_one]; rfl)
  have hfb : (fw.extractLsb' 4 4).toNat = fw.toNat / 16 % 16 := field_toNat fw 4 4
  have hmark : (if (nonFinite b t xa xb kb fw == 0) = true then s.updBlk o.blk (addedBlock b t xa xb kb fw)
      else (s.updBlk o.blk (addedBlock b t xa xb kb fw)).updBlk o.blk (fun b => b.setTile { b.tileNow t with nf := true })) =
      s.updBlk o.blk (markedBlock b t xa xb kb fw) := by
    by_cases hz : nonFinite b t xa xb kb fw = 0
    · rw [if_pos (beq_iff_eq.mpr hz)]
      unfold markedBlock
      simp only [hz, if_true]
    · rw [if_neg (by simpa using hz)]
      unfold State.updBlk markedBlock
      simp only [hz, if_false, List.map_map]
      congr 1
      refine List.map_congr_left fun d _ => ?_
      by_cases hd : (d.uid == o.blk) = true
      · have hd' : ((addedBlock b t xa xb kb fw d).uid == o.blk) = true := hd
        simp only [Function.comp, hd, hd', if_true]
      · simp only [Function.comp, hd, if_false, Bool.false_eq_true]
  rw [← hmark]
  simp only [State.mmaWork, hk, hb, hu, opndByte_seen hu, hfa, hfb, List.isEmpty_nil, if_true]
  rfl

theorem range_get {n i : Nat} (h : i < n) : (List.range n)[i]? = some i := List.getElem?_eq_some_iff.mpr ⟨by simpa using h, by simp⟩

theorem length_addedWords : (addedWords b t xa xb kb fw).length = t.rows * t.cols := by
  rw [addedWords, List.length_zipWith, length_table, Block.accAll]
  simp [rowsA, rowsB, Tile.size]

/-- The word of row i and column j. -/
theorem addedWords_get {i j : Nat} (hi : i < t.rows) (hj : j < t.cols) : (addedWords b t xa xb kb fw)[i * t.cols + j]? =
    some (exactAdd (b.accGet (t.base + (i * t.cols + j))).1 (b.accGet (t.base + (i * t.cols + j))).2
      (dotRows (opndRow b.lbyte (fw.toNat % 16) t.rows kb (fw.getLsbD 11) xa i)
        (opndRow b.lbyte (fw.toNat / 16 % 16) t.cols kb (fw.getLsbD 12) xb j))) := by
  have hold : (b.accAll t)[i * t.cols + j]? = some (b.accGet (t.base + (i * t.cols + j))) := by
    rw [Block.accAll, List.getElem?_map, range_get (n := t.size) (add_lt_mul hi hj)]
    rfl
  have hb : (rowsB b t xb kb fw)[j]? = some (opndRow b.lbyte (fw.toNat / 16 % 16) t.cols kb (fw.getLsbD 12) xb j) := by
    rw [rowsB, List.getElem?_map, range_get hj]
    rfl
  have ha : (rowsA b t xa kb fw)[i]? = some (opndRow b.lbyte (fw.toNat % 16) t.rows kb (fw.getLsbD 11) xa i) := by
    rw [rowsA, List.getElem?_map, range_get hi]
    rfl
  have hlen : (rowsB b t xb kb fw).length = t.cols := by simp [rowsB]
  have hsum := getElem?_table dotRows (rowsB b t xb kb fw) hb _ ha
  rw [hlen] at hsum
  rw [addedWords, List.getElem?_zipWith, hold, hsum]

theorem nonFinite_zero : nonFinite b t xa xb kb fw = 0 ↔ ¬∃ k, k < 32 * kb ∧
    ((∃ i, i < t.rows ∧ opndElem b.lbyte (fw.toNat % 16) t.rows kb (fw.getLsbD 11) xa i k = none) ∨
      ∃ j, j < t.cols ∧ opndElem b.lbyte (fw.toNat / 16 % 16) t.cols kb (fw.getLsbD 12) xb j k = none) := by
  rw [nonFinite, missing_zero]
  simp only [rowsA, rowsB, opndRow, List.mem_append, List.mem_map, List.mem_range]
  constructor
  · rintro h ⟨k, hk, ⟨i, hi, he⟩ | ⟨j, hj, he⟩⟩
    · exact h _ (.inl ⟨i, hi, rfl⟩) (List.mem_map.mpr ⟨k, List.mem_range.mpr hk, by rw [he]; rfl⟩)
    · exact h _ (.inr ⟨j, hj, rfl⟩) (List.mem_map.mpr ⟨k, List.mem_range.mpr hk, by rw [he]; rfl⟩)
  · rintro h r (⟨i, hi, rfl⟩ | ⟨j, hj, rfl⟩) hn <;> obtain ⟨k, hk, he⟩ := List.mem_map.mp hn
    · exact h ⟨k, List.mem_range.mp hk, .inl ⟨i, hi, Option.map_eq_none_iff.mp he⟩⟩
    · exact h ⟨k, List.mem_range.mp hk, .inr ⟨j, hj, Option.map_eq_none_iff.mp he⟩⟩

/-! The marked block. -/

theorem accGet_marked (m : Nat) : (markedBlock b t xa xb kb fw b).accGet m = (addedBlock b t xa xb kb fw b).accGet m := by
  unfold markedBlock
  split <;> rfl

theorem tileNow_marked (h : ∃ x ∈ b.tiles, x.map (·.uid) = some t.uid) :
    ((markedBlock b t xa xb kb fw b).tileNow t).nf = true ↔ (b.tileNow t).nf = true ∨ nonFinite b t xa xb kb fw ≠ 0 := by
  unfold markedBlock
  split
  · rename_i hz
    simp only [hz, ne_eq, not_true, or_false]
    rfl
  · rename_i hz
    have hset := tileNow_setTile (addedBlock b t xa xb kb fw b) (x := { (addedBlock b t xa xb kb fw b).tileNow t with nf := true })
      (tileNow_uid (addedBlock b t xa xb kb fw b) t) h
    exact iff_of_true (congrArg Tile.nf hset :) (.inr hz)

theorem marked_else : { markedBlock b t xa xb kb fw b with acc := [], tiles := [] } = { b with acc := [], tiles := [] } := by
  unfold markedBlock
  split <;> rfl

theorem marked_others {i : Nat} (h : (b.tiles[i]?).join.map (·.uid) ≠ some t.uid) :
    (markedBlock b t xa xb kb fw b).tiles[i]? = b.tiles[i]? := by
  unfold markedBlock
  split
  · rfl
  · exact setTile_others (addedBlock b t xa xb kb fw b) _ (by rwa [tileNow_uid])

theorem marked_lmem : (markedBlock b t xa xb kb fw b).lmem = b.lmem := (congrArg Block.lmem marked_else :)

end Work

/-! The operation performed. -/

section Performed
variable {s : State} {o : Op} {b : Block} {t : Tile} {z xa xb kb n : Nat} {fw : Word}

/-- The state in which the sums are added, and then the records of the missing elements are made. -/
def mmaAdded (s : State) (o : Op) (b : Block) (t : Tile) (xa xb kb : Nat) (fw : Word) : State :=
  s.updBlk o.blk (markedBlock b t xa xb kb fw)
def mmaLogged (s : State) (o : Op) (b : Block) (t : Tile) (xa xb kb : Nat) (fw : Word) : State :=
  (List.range (nonFinite b t xa xb kb fw)).foldl (fun u _ => u.logOp o 0x13) (mmaAdded s o b t xa xb kb fw)

theorem traffic_mmaLogged : Traffic (mmaAdded s o b t xa xb kb fw) (mmaLogged s o b t xa xb kb fw) :=
  Traffic.foldl (fun u _ => traffic_logOp u o 0x13) _ _

theorem complete_mma (hk : o.kind = .mma t z xa xb kb fw none n (some o.blk)) (hb : s.blk o.blk = some b)
    (hp : b.allPresent [(mmaRanges t xa xb kb fw).1, (mmaRanges t xa xb kb fw).2] = true) (hu : b.unseen = [])
    (ha : s.away o = false) (hun : s.unsent o = false) :
    s.complete o = some ((mmaLogged s o b t xa xb kb fw).dropOp o) := by
  have hready : s.mmaReady o = some ([o], b, xb) := by
    simp only [State.mmaReady, hk, hb]
    exact if_pos hp
  have hdo : s.doMma o = some ((s.mmaWork o (b.opndByte (s.freeCtr + 2 ^ 20)) xb none).dropOp o) := by
    rw [State.doMma, hready, Option.map_some, hu, List.isEmpty_nil, if_pos rfl, List.foldl_cons, List.foldl_nil]
  rw [State.complete, ha, hun, Bool.or_false, if_neg Bool.false_ne_true, hk]
  dsimp only
  rw [hready, Option.map_some, Option.getD_some, List.any_cons, ha, List.any_nil, Bool.or_false, if_neg Bool.false_ne_true, hdo,
    mmaWork_eq hk hb hu]
  rfl

/-- What the additions change of the blocks. -/
theorem mmaAdded_blk (hb : s.blk o.blk = some b) : (mmaAdded s o b t xa xb kb fw).blk o.blk = some (markedBlock b t xa xb kb fw b) ∧
    ∀ u, u ≠ o.blk → (mmaAdded s o b t xa xb kb fw).blk u = s.blk u := by
  have huid := markedBlock_uid b t xa xb kb fw
  refine ⟨blk_updBlk_same hb huid, fun u hne => ?_⟩
  rw [mmaAdded, State.blk_updBlk s o.blk u _ huid]
  cases hu : s.blk u with
  | none => rfl
  | some c =>
    rw [Option.map_some, if_neg]
    rw [State.blk_uid hu]
    simpa using hne

theorem spn_mmaAdded (hb : s.blk o.blk = some b) (u m : Nat) : spn (mmaAdded s o b t xa xb kb fw) u m = spn s u m := by
  obtain ⟨hsame, hother⟩ := mmaAdded_blk (t := t) (xa := xa) (xb := xb) (kb := kb) (fw := fw) hb
  by_cases hu : u = o.blk
  · subst hu
    have hsp : (markedBlock b t xa xb kb fw b).spindles = b.spindles := (congrArg Block.spindles marked_else :)
    rw [spn, spn, hsame, hb, Option.bind_some, Option.bind_some, Block.sp, hsp, Block.sp]
  · rw [spn, hother u hu, spn]

/-- R299: the sum of products in units of 2^−112, a missing element as 0. -/
theorem dotRows_opnd (rd : Nat → Byte) (fa fb : Nat) (ra rb : Nat) (ta tb : Bool) (i j : Nat) :
    dotRows (opndRow rd fa ra kb ta xa i) (opndRow rd fb rb kb tb xb j) =
      ((List.range (32 * kb)).map (fun k => (((opndElem rd fa ra kb ta xa i k).map (fun v => v.units 56)).getD 0) *
        (((opndElem rd fb rb kb tb xb j k).map (fun v => v.units 56)).getD 0))).sum :=
  dotRows_map _ _ _

end Performed

end Sys2Proof.Safety
end

section
/-! PROOF. A halt of a context keeps the other contexts, and issues no operation (R389). -/

namespace Sys2Proof.Safety

open Sys2Proof Sys2Proof.Machine

/-- No context changes, and no operation comes. -/
structure NoNewWork (s t : State) : Prop where
  ctxs : t.ctxs = s.ctxs
  ops : ∀ x ∈ t.ops, ∃ y ∈ s.ops, y.id = x.id

theorem NoNewWork.refl (s : State) : NoNewWork s s := ⟨rfl, fun x hx => ⟨x, hx, rfl⟩⟩

theorem NoNewWork.trans {s t u : State} (h : NoNewWork s t) (k : NoNewWork t u) : NoNewWork s u :=
  ⟨k.ctxs.trans h.ctxs, fun x hx =>
    let ⟨y, hy, hyx⟩ := k.ops x hx
    let ⟨z, hz, hzy⟩ := h.ops y hy
    ⟨z, hz, hzy.trans hyx⟩⟩

theorem NoNewWork.foldl {α : Type} {f : State → α → State} (h : ∀ t x, NoNewWork t (f t x)) (l : List α) (s : State) :
    NoNewWork s (l.foldl f s) := by
  induction l generalizing s with
  | nil => exact .refl s
  | cons x r ih => exact (h s x).trans (ih _)

theorem NoNewWork.of {s t : State} (hc : t.ctxs = s.ctxs) (ho : t.ops = s.ops) : NoNewWork s t :=
  ⟨hc, fun x hx => ⟨x, ho ▸ hx, rfl⟩⟩

variable (s : State)

theorem noNewWork_dropOp (o : Op) : NoNewWork s (s.dropOp o) :=
  ⟨rfl, fun x hx => ⟨x, (List.mem_filter.mp hx).1, rfl⟩⟩

/-- Operations changed without their numbers. -/
theorem noNewWork_map {t : State} {f : Op → Op} (hc : t.ctxs = s.ctxs) (ho : t.ops = s.ops.map f) (hf : ∀ o, (f o).id = o.id) :
    NoNewWork s t := by
  refine ⟨hc, fun x hx => ?_⟩
  rw [ho] at hx
  obtain ⟨y, hy, rfl⟩ := List.mem_map.mp hx
  exact ⟨y, hy, (hf y).symm⟩

theorem noNewWork_deliver (o : Op) (ws : List RegW) : NoNewWork s (s.deliver o ws) :=
  noNewWork_map s rfl rfl (fun x => by split <;> rfl)

theorem noNewWork_deliverS (o : Op) (n : Nat) (v : Dword) : NoNewWork s (s.deliverS o n v) := by
  unfold State.deliverS
  split
  · exact .refl s
  · split
    · exact .refl s
    · exact noNewWork_map s rfl rfl (fun x => by split <;> rfl)

theorem noNewWork_finishRegs (o : Op) : NoNewWork s (s.finishRegs o) := by
  unfold State.finishRegs
  split
  · exact noNewWork_deliver s o _
  · exact noNewWork_deliver s o _
  · exact noNewWork_deliverS s o _ _
  · exact noNewWork_deliverS s o _ _
  · exact .refl s

theorem noNewWork_stopOp (o : Op) : NoNewWork s (s.stopOp o) := by
  unfold State.stopOp
  dsimp only
  split
  · exact .refl s
  · refine (noNewWork_finishRegs s o).trans (.trans ?_ (noNewWork_dropOp _ o))
    split
    · exact .refl _
    · split
      · exact .refl _
      · exact .of rfl rfl

theorem noNewWork_stopStalled (n : Nat) : NoNewWork s (s.stopStalled n) :=
  NoNewWork.trans (NoNewWork.foldl (f := fun t r => t.stopAt r true none) (fun _ _ => .of rfl rfl) _ s) (.of rfl rfl)

theorem noNewWork_cancelGangs (p : Block → Bool) : NoNewWork s (s.cancelGangs p) := by
  unfold State.cancelGangs
  refine NoNewWork.trans ?_ (NoNewWork.foldl noNewWork_dropOp _ _)
  exact .of rfl rfl

theorem noNewWork_stopFills (n : Nat) : NoNewWork s (s.stopFills n) := .of rfl rfl

theorem noNewWork_haltThreads (n : Nat) : NoNewWork s (s.haltThreads n) := .of rfl rfl

/-- R389: the halt line of a running context goes up with its cause. -/
theorem haltCtx_raises {n : Nat} {cause : Trap} {c : Ctx} (hc : s.ctx n = some c) (hh : c.halted = false) (hl : c.halting = false) :
    ((s.haltCtx n cause).ctx n).map (fun c => (c.halting, c.cause)) = some (true, cause) ∧
      ∀ x ∈ (s.haltCtx n cause).ops, ∃ y ∈ s.ops, y.id = x.id := by
  obtain ⟨hctxs, hops⟩ : NoNewWork (s.updCtx n (fun c => { c with halting := true, cause := cause })) (s.haltCtx n cause) := by
    unfold State.haltCtx
    rw [hc]
    dsimp only
    rw [hh, hl, Bool.or_false, if_neg Bool.false_ne_true]
    exact (((noNewWork_stopStalled _ n).trans (noNewWork_cancelGangs _ _)).trans (noNewWork_stopFills _ n)).trans
      ((NoNewWork.foldl noNewWork_stopOp _ _).trans (noNewWork_haltThreads _ n))
  refine ⟨?_, hops⟩
  have hid : (c.id == n) = true := List.find?_some (p := fun c : Ctx => c.id == n) hc
  have hfind := find?_map_same (fun c : Ctx => c.id == n) (fun c => if c.id == n then { c with halting := true, cause := cause } else c)
    (fun c => by split <;> rfl) s.ctxs
  have hold : s.ctxs.find? (fun c => c.id == n) = some c := hc
  rw [State.ctx, hctxs]
  rw [State.updCtx, hfind, hold, Option.map_some, if_pos hid]
  rfl

end Sys2Proof.Safety
end

section
/-! PROOF. GANG_MMA_MATCH compares the operations of a gang operation, and gives each the address of B (R301). -/

namespace Sys2Proof.Safety

open Sys2Proof Sys2Proof.Machine

/-! Searches. -/

/-- The only element that a partial map takes decides its result. -/
theorem filterMap_only {α β : Type} {f : α → Option β} {l : List α} {x : α} {y : β} (hx : x ∈ l) (hy : f x = some y)
    (h : ∀ p ∈ l, f p ≠ none → p = x) : ∃ r, l.filterMap f = y :: r := by
  cases hl : l.filterMap f with
  | nil => exact absurd (hl ▸ List.mem_filterMap.mpr ⟨x, hx, hy⟩ : y ∈ []) List.not_mem_nil
  | cons z r =>
    obtain ⟨p, hp, hz⟩ := List.mem_filterMap.mp (hl ▸ List.mem_cons_self : z ∈ l.filterMap f)
    have hpx := h p hp (by rw [hz]; exact Option.some_ne_none z)
    rw [hpx, hy] at hz
    exact ⟨r, by rw [Option.some.inj hz]⟩

/-- The first result where all results agree. -/
theorem firstSome_agree {α : Type} {v : α} {l : List (Option α)} (hv : some v ∈ l) (h : ∀ x ∈ l, x = none ∨ x = some v) :
    firstSome l = some v := by
  induction l with
  | nil => cases hv
  | cons x r ih =>
    obtain rfl | rfl := h x List.mem_cons_self
    · exact ih ((List.mem_cons.mp hv).resolve_left nofun) (fun y hy => h y (List.mem_cons_of_mem _ hy))
    · rfl

theorem pending_id {s : State} {id : Nat} {o : Op} (h : pending s id = some o) : o.id = id :=
  beq_iff_eq.mp (List.find?_some (p := fun o : Op => o.id == id) h)

/-! Operations of a gang operation. -/

/-- The gang operation that an operation of a block is, where it waits for the match, with the core that holds B. -/
def waitsAs (blk : Nat) (o : Op) : Option (Nat × Nat) :=
  match o.kind with
  | .mma _ _ _ _ _ _ (some core) n none => if o.blk == blk then some (n, core) else none
  | _ => none

theorem waitsAs_kind {blk : Nat} {p : Op} (h : waitsAs blk p ≠ none) :
    p.blk = blk ∧ ∃ t z x y k w m q, p.kind = .mma t z x y k w (some m) q none := by
  unfold waitsAs at h
  split at h
  · rename_i hk
    split at h
    · exact ⟨beq_iff_eq.mp ‹_›, _, _, _, _, _, _, _, _, hk⟩
    · exact absurd rfl h
  · exact absurd rfl h

theorem gangOps_mem {s : State} {b : Block} {n : Nat} {p : Op} (h : p ∈ s.gangOps b n) : p ∈ s.ops := by
  obtain ⟨x, -, hx⟩ := List.mem_filterMap.mp h
  exact List.mem_of_find?_eq_some hx

/-- The blocks disagree in a field (R301). -/
def disagree (os : List Op) : Bool :=
  (os.map (fun o => o.kind.gangKey)).any (fun k => k != (os.map (fun o => o.kind.gangKey)).headD none)

theorem disagree_true {os : List Op} {o p : Op} (ho : o ∈ os) (hp : p ∈ os) (h : p.kind.gangKey ≠ o.kind.gangKey) :
    disagree os = true := by
  by_contra hn
  have hall : ∀ q ∈ os, q.kind.gangKey = (os.map (fun o => o.kind.gangKey)).headD none := fun q hq => by
    by_contra hne
    exact hn (List.any_eq_true.mpr ⟨_, List.mem_map_of_mem hq, bne_iff_ne.mpr hne⟩)
  exact h ((hall p hp).trans (hall o ho).symm)

theorem disagree_false {os : List Op} {o : Op} (h : ∀ p ∈ os, p.kind.gangKey = o.kind.gangKey) : disagree os = false := by
  cases os with
  | nil => rfl
  | cons a r =>
    refine List.any_eq_false.mpr fun k hk => ?_
    obtain ⟨p, hp, rfl⟩ := List.mem_map.mp hk
    rw [h p hp, List.map_cons, List.headD_cons, h a List.mem_cons_self]
    simp

/-- What the records of the stops hold. -/
def gangStop (o : Op) : EngStop :=
  o.engStop .formatDivergence 2 (match o.kind with | .mma _ _ _ _ _ fw _ _ _ => fw.toNat | _ => 0)

/-- The address of B that an operation of a block gives. -/
def givenBy (blk : Nat) (o : Op) : Option Nat :=
  match o.kind with
  | .mma _ _ _ xb _ _ _ _ _ => if o.blk == blk then some xb else none
  | _ => none

/-- An operation reads B of a block at an address. -/
def readFrom (blk : Nat) (xb : Option Nat) (t : State) (o : Op) : State :=
  match o.kind with
  | .mma u z xa x kb fw c k _ => t.setKind o.id (.mma u z xa (xb.getD x) kb fw c k (some blk))
  | _ => t

section Match
variable {s : State} {b : Block} {o : Op} {n core : Nat} (hb : s.blk b.uid = some b) (hm : o ∈ s.ops)
  (hw : waitsAs b.uid o = some (n, core)) (honly : ∀ p ∈ s.ops, waitsAs b.uid p ≠ none → p = o)
  (hos : o ∈ s.gangOps b n) (hall : ((s.launch b.launch).bind (fun l => l.e[2]?)).getD 0 ≤ (s.gangOps b n).length)

include hb hm hw honly hos hall

/-- R301: once every block has issued the operation, they are compared. -/
theorem execGangMmaMatch_eq : exec (.gangMmaMatch b.uid) s = .next (
    if disagree (s.gangOps b n) then
      ((s.gangOps b n).foldl State.dropOp { s with engStops := s.engStops ++ (s.gangOps b n).map gangStop }).haltCtx
        b.ctx .formatDivergence
    else
      match s.gangBlockAt b core with
      | none => s
      | some sb => (s.gangOps b n).foldl (readFrom sb.uid (firstSome ((s.gangOps b n).map (givenBy sb.uid)))) s) := by
  obtain ⟨r, hr⟩ := filterMap_only hm hw honly
  have hne : (s.gangOps b n).isEmpty = false := List.isEmpty_eq_false_iff.mpr (List.ne_nil_of_mem hos)
  change execGangMmaMatch b.uid s = _
  rw [execGangMmaMatch, hb]
  dsimp only
  split
  · rename_i hnil
    exact absurd (hr.symm.trans hnil) (List.cons_ne_nil _ _)
  rename_i hcons
  obtain ⟨hhead, -⟩ := List.cons.inj (hr.symm.trans hcons)
  cases hhead
  rw [if_neg (by simpa [hne] using hall)]
  have hd : (List.map (fun o => o.kind.gangKey) (s.gangOps b n)).any
      (fun k => k != (List.map (fun o => o.kind.gangKey) (s.gangOps b n)).headD none) = disagree (s.gangOps b n) := rfl
  rw [hd]
  cases disagree (s.gangOps b n)
  · rw [if_neg Bool.false_ne_true, if_neg Bool.false_ne_true]
    cases s.gangBlockAt b core <;> rfl
  · rfl

end Match

theorem mem_foldl_dropOp (os : List Op) (s : State) {x : Op} (hx : x ∈ (os.foldl State.dropOp s).ops) :
    x ∈ s.ops ∧ ∀ p ∈ os, x.id ≠ p.id := by
  induction os generalizing s with
  | nil => exact ⟨hx, fun p hp => absurd hp List.not_mem_nil⟩
  | cons q r ih =>
    obtain ⟨hm, hr⟩ := ih _ hx
    obtain ⟨hs, hq⟩ := List.mem_filter.mp hm
    exact ⟨hs, List.forall_mem_cons.mpr ⟨by simpa using hq, hr⟩⟩

section Reads
variable (blk : Nat) (xb : Option Nat)

theorem readFrom_ops (t : State) (p : Op) : readFrom blk xb t p = { t with ops := (readFrom blk xb t p).ops } := by
  unfold readFrom
  split <;> rfl

theorem foldl_readFrom_ops (os : List Op) (s : State) :
    os.foldl (readFrom blk xb) s = { s with ops := (os.foldl (readFrom blk xb) s).ops } := by
  induction os generalizing s with
  | nil => rfl
  | cons p r ih =>
    rw [List.foldl_cons, ih, readFrom_ops]

theorem pending_setKind_other (s : State) {id i : Nat} (h : i ≠ id) (k : OpKind) :
    (pending (s.setKind i k) id).map (·.kind) = (pending s id).map (·.kind) := by
  have hf := find?_map_same (fun o : Op => o.id == id) (fun o => if o.id == i then { o with kind := k } else o)
    (fun o => by split <;> rfl) s.ops
  rw [pending, State.setKind, hf, Option.map_map]
  unfold pending
  cases hp : s.ops.find? (fun o => o.id == id) with
  | none => rfl
  | some o =>
    have hid : o.id = id := pending_id hp
    have hne : ¬(o.id == i) = true := fun he => h ((beq_iff_eq.mp he).symm.trans hid)
    simp only [Option.map_some, Function.comp, if_neg hne]

/-- Each operation of the list reads there in the end. -/
theorem pending_foldl_readFrom {o : Op} {u : Tile} {z xa x kb k : Nat} {fw : Word} {c src : Option Nat}
    (hk : o.kind = .mma u z xa x kb fw c k src) (os : List Op) (hids : ∀ p ∈ os, p.id = o.id → p = o) (s : State) {K : OpKind}
    (hs : (pending s o.id).map (·.kind) = some K) (ho : o ∈ os ∨ K = .mma u z xa (xb.getD x) kb fw c k (some blk)) :
    (pending (os.foldl (readFrom blk xb) s) o.id).map (·.kind) = some (.mma u z xa (xb.getD x) kb fw c k (some blk)) := by
  induction os generalizing s K with
  | nil => exact hs.trans (congrArg some (ho.resolve_left List.not_mem_nil))
  | cons p r ih =>
    rw [List.foldl_cons]
    have hr : ∀ q ∈ r, q.id = o.id → q = o := fun q hq => hids q (List.mem_cons_of_mem _ hq)
    by_cases hpo : p = o
    · subst hpo
      obtain ⟨q, hq, -⟩ := Option.map_eq_some_iff.mp hs
      have hqid : q.id = p.id := pending_id hq
      refine ih hr _ (K := .mma u z xa (xb.getD x) kb fw c k (some blk)) ?_ (.inr rfl)
      have hset := pending_setKind (o := q) (hqid ▸ hq) (.mma u z xa (xb.getD x) kb fw c k (some blk))
      rw [hqid] at hset
      unfold readFrom
      rw [hk]
      exact hset
    · have hne : p.id ≠ o.id := fun he => hpo (hids p List.mem_cons_self he)
      refine ih hr _ (K := K) ?_ (ho.imp_left (fun hm => (List.mem_cons.mp hm).resolve_left (Ne.symm hpo)))
      unfold readFrom
      split
      · rw [pending_setKind_other _ hne, hs]
      · exact hs

end Reads

/-- Of operations with numbers of their own, each is the one that its number finds. -/
theorem pending_of_nodup {s : State} (h : (s.ops.map (·.id)).Nodup) {o : Op} (ho : o ∈ s.ops) : pending s o.id = some o := by
  cases hp : pending s o.id with
  | none => exact absurd (List.find?_eq_none.mp hp o ho) (by simp)
  | some q =>
    have hq := List.mem_of_find?_eq_some hp
    have hid : q.id = o.id := pending_id hp
    exact congrArg some (List.inj_on_of_nodup_map h hq ho hid)

/-- Settles O28: the performed operation writes the added words and marks NF; the match drops the operations and halts, or gives
each the address of B. -/
theorem mmaAddsExactly : Obligations.MmaAddsExactly := by
  refine ⟨fun s o b tl z xa xb kb n fw ho hk hb he hp htile hu hun hh => ?_,
    fun s b sb o tl z xa xb kb n core fw c hb hm hblk hk honly hos hall hids => ?_⟩
  · obtain ⟨t, hexec, hgone, hleaves, hbare⟩ := execTokenClear_drop ho (complete_mma hk hb hp hu (away_resident hb he hh) hun)
      (ops_traffic (traffic_mmaLogged (s := s)) :)
    obtain ⟨hblk, hothers⟩ := mmaAdded_blk (t := tl) (xa := xa) (xb := xb) (kb := kb) (fw := fw) hb
    have hbare : bareOf t o.blk = some (bare (markedBlock b tl xa xb kb fw b)) := by
      rw [hbare, bareOf_traffic traffic_mmaLogged, bareOf, hblk, Option.map_some]
    obtain ⟨b', hb', hbb⟩ := bareOf_some hbare
    have hbad := nonFinite_zero (b := b) (t := tl) (xa := xa) (xb := xb) (kb := kb) (fw := fw)
    refine ⟨t, b', hexec, hgone, hb', fun i j hi hj => ?_, fun m hm => ?_, ?_, (lmem_bare hbb).trans marked_lmem,
      mmaAdded s o b tl xa xb kb fw, mmaLogged s o b tl xa xb kb fw,
      ⟨rfl, spn_mmaAdded hb, hothers, ?_, fun x hx i hi => ?_⟩, traffic_mmaLogged, fun hnb => ?_, hleaves⟩
    · rw [accGet_bare hbb, accGet_marked, addedBlock, accGet_accPut_in b (Nat.le_add_right _ _)
        (by rw [Nat.add_sub_cancel_left]; exact addedWords_get hi hj), dotRows_opnd]
      rfl
    · rw [accGet_bare hbb, accGet_marked, addedBlock, accGet_accPut_out b (by rwa [length_addedWords])]
    · rw [tileNow_bare hbb, tileNow_marked htile, ne_eq, hbad, not_not]
    · rw [hblk, Option.map_some, marked_else]
    · rw [hblk] at hx
      cases hx
      exact marked_others hi
    · rw [mmaLogged, hbad.mpr hnb]
      rfl
  · have hw : waitsAs b.uid o = some (n, core) := by
      unfold waitsAs
      rw [hk, hblk]
      exact if_pos BEq.rfl
    have hexec := execGangMmaMatch_eq hb hm hw (fun p hp hne => honly p hp (waitsAs_kind hne).1 (waitsAs_kind hne).2) hos hall
    refine ⟨fun ⟨p, hp, hne⟩ hc hh hl => ?_, fun hagree hsb p hp hpb hponly u y x xbs hpk => ?_⟩
    · rw [disagree_true hos hp hne, if_pos rfl] at hexec
      have hdrops : NoNewWork { s with engStops := s.engStops ++ (s.gangOps b n).map gangStop }
          ((s.gangOps b n).foldl State.dropOp { s with engStops := s.engStops ++ (s.gangOps b n).map gangStop }) :=
        NoNewWork.foldl noNewWork_dropOp _ _
      obtain ⟨hcause, hops⟩ := haltCtx_raises _ (cause := .formatDivergence)
        (show State.ctx _ b.ctx = some c by rw [State.ctx, hdrops.ctxs]; exact hc) hh hl
      refine ⟨_, hexec, hcause, fun q hq x hx he => ?_⟩
      obtain ⟨y, hy, hyx⟩ := hops x hx
      exact (mem_foldl_dropOp _ _ hy).2 q hq (hyx.trans he)
    · rw [disagree_false hagree, if_neg Bool.false_ne_true, hsb] at hexec
      dsimp only at hexec
      have hgives : givenBy sb.uid p = some xbs := by
        unfold givenBy
        rw [hpk]
        exact if_pos (beq_iff_eq.mpr hpb)
      have hxb : firstSome ((s.gangOps b n).map (givenBy sb.uid)) = some xbs := by
        refine firstSome_agree (hgives ▸ List.mem_map_of_mem hp) fun v hv => ?_
        obtain ⟨q, hq, rfl⟩ := List.mem_map.mp hv
        by_cases hqb : q.blk = sb.uid
        · exact .inr (by rw [hponly q hq hqb, hgives])
        · refine .inl ?_
          unfold givenBy
          split
          · exact if_neg (fun h => hqb (beq_iff_eq.mp h))
          · rfl
      rw [hxb] at hexec
      refine ⟨_, hexec, foldl_readFrom_ops _ _ _ _, ?_⟩
      exact pending_foldl_readFrom sb.uid (some xbs) hk (s.gangOps b n)
        (fun q hq he => List.inj_on_of_nodup_map hids (gangOps_mem hq) hm he) s (K := o.kind)
        (by rw [pending_of_nodup hids hm]; rfl) (.inl hos)

end Sys2Proof.Safety
end

section
/-! PROOF. A tile is read, and its rounded elements will arrive in registers (R84, R85, R302). -/

namespace Sys2Proof.Safety

open Sys2Proof Sys2Proof.Machine

/-! The read of a tile that no `mma` covers (R66). -/

section Read
variable {s : State} {u : Nat} {b : Block} {t : Tile}

/-- What such a read gives. -/
def readOf (b : Block) (t : Tile) : TileRead :=
  { ws := b.accAll t, nf := (b.tileNow t).nf, ovf := (b.tileNow t).ovf || (b.accAll t).any (fun w => w.2 != 0), free := false }

theorem tileRead_settled (hb : s.blk u = some b) (hm : b.mmaOver t = false) : s.tileRead u t false = (readOf b t, s) := by
  simp only [State.tileRead, hb, hm, Bool.or_false, Bool.false_eq_true, if_false]
  rfl

theorem accAll_get {i : Nat} (h : i < t.rows * t.cols) : (b.accAll t)[i]? = some (b.accGet (t.base + i)) := by
  rw [Block.accAll, List.getElem?_map, range_get (n := t.size) h]
  rfl

/-- R84: seeing a carry changes the tile's flags at most. -/
theorem seeOvf_state (r : TileRead) : (s.seeOvf u t r).2 = s ∨ ∃ x : Tile, (s.seeOvf u t r).2 = s.updBlk u (fun b => b.setTile x) := by
  unfold State.seeOvf
  split
  · dsimp only
    split
    · exact .inr ⟨_, rfl⟩
    · exact .inl rfl
  · exact .inl rfl

end Read

/-! Registers and operations. -/

/-- The clause in progress, the operations and the registers stay. -/
structure SameWork (s t : State) : Prop where
  run : t.run = s.run
  ops : t.ops = s.ops
  nextId : t.nextId = s.nextId
  spn : ∀ u m, spn t u m = spn s u m

theorem SameWork.refl (s : State) : SameWork s s := ⟨rfl, rfl, rfl, fun _ _ => rfl⟩

theorem SameWork.trans {s t u : State} (h : SameWork s t) (k : SameWork t u) : SameWork s u :=
  ⟨k.run.trans h.run, k.ops.trans h.ops, k.nextId.trans h.nextId, fun v n => (k.spn v n).trans (h.spn v n)⟩

theorem SameWork.traffic {s t : State} (h : Traffic s t) : SameWork s t :=
  ⟨(congrArg State.run h.1 :), (congrArg State.ops h.1 :), (congrArg State.nextId h.1 :), h.spn_eq⟩

/-- A change of a block that keeps its spindles. -/
theorem sameWork_updBlk (s : State) (u : Nat) {f : Block → Block} (hu : ∀ b, (f b).uid = b.uid)
    (hs : ∀ b, (f b).spindles = b.spindles) : SameWork s (s.updBlk u f) where
  run := rfl
  ops := rfl
  nextId := rfl
  spn v n := by
    rw [spn, State.blk_updBlk s u v f hu, spn, Option.bind_map]
    congr 1
    funext b
    dsimp only [Function.comp]
    split
    · rw [Block.sp, hs, Block.sp]
    · rfl

theorem sameWork_seeOvf (s : State) (u : Nat) (t : Tile) (r : TileRead) : SameWork s (s.seeOvf u t r).2 := by
  obtain h | ⟨x, h⟩ := seeOvf_state (s := s) (u := u) (t := t) r
  · rw [h]; exact .refl s
  · rw [h]; exact sameWork_updBlk s u (fun _ => rfl) (fun _ => rfl)

/-- A spindle with registers tagged G. -/
def tagSp (base count : Nat) (sp : Spindle) : Spindle :=
  { sp with v := sp.v.zipIdx.map (fun x => if base ≤ x.2 ∧ x.2 < base + count then { x.1 with tag := .g } else x.1) }

theorem tagG_eq (s : State) (e : Env) (base count : Nat) : s.tagG e base count = s.updSp e.b.uid e.sp.m (tagSp base count) := rfl

/-- R52, R63: the registers of a long-latency destination are tagged G. -/
theorem vreg_tagG (s : State) (e : Env) (base count n : Nat) : vreg (s.tagG e base count) e.b.uid e.sp.m n =
    (vreg s e.b.uid e.sp.m n).map (fun r => if base ≤ n ∧ n < base + count then { r with tag := .g } else r) := by
  rw [vreg, tagG_eq, spn_updSp s e.b.uid e.sp.m (tagSp base count) (fun _ => rfl), vreg]
  cases spn s e.b.uid e.sp.m with
  | none => rfl
  | some sp =>
    simp only [Option.map_some, and_self, if_true, Option.bind_some, tagSp, List.getElem?_map, List.getElem?_zipIdx, Option.map_map,
      Function.comp_def, Nat.zero_add]

/-! The words that will arrive. -/

/-- The register writes of a batch: `n` words of each slot's value, from register `d` up. -/
def slotWords (ks : List Nat) (d n : Nat) (v : Nat → Nat) : List RegW :=
  ks.flatMap (fun k => (List.range n).map (fun i => { slot := k, reg := d + i, val := BitVec.ofNat 32 (v k / 2 ^ (32 * i)) }))

theorem mem_slotWords {ks : List Nat} {d n : Nat} {v : Nat → Nat} {w : RegW} (h : w ∈ slotWords ks d n v) :
    w.slot ∈ ks ∧ ∃ i, w.reg = d + i ∧ w.val = BitVec.ofNat 32 (v w.slot / 2 ^ (32 * i)) := by
  obtain ⟨k, hk, hw⟩ := List.mem_flatMap.mp h
  obtain ⟨i, -, rfl⟩ := List.mem_map.mp hw
  exact ⟨hk, i, rfl, rfl⟩

theorem find?_slotWords {ks : List Nat} {d n : Nat} {v : Nat → Nat} {k i : Nat} (hk : k ∈ ks) (hi : i < n) :
    ((slotWords ks d n v).find? (fun w => w.slot == k && w.reg == d + i)).map (·.val) =
      some (BitVec.ofNat 32 (v k / 2 ^ (32 * i))) := by
  cases hf : (slotWords ks d n v).find? (fun w => w.slot == k && w.reg == d + i) with
  | none =>
    refine absurd (List.find?_eq_none.mp hf { slot := k, reg := d + i, val := BitVec.ofNat 32 (v k / 2 ^ (32 * i)) } ?_) (by simp)
    exact List.mem_flatMap.mpr ⟨k, hk, List.mem_map.mpr ⟨i, List.mem_range.mpr hi, rfl⟩⟩
  | some w =>
    obtain ⟨-, j, hreg, hval⟩ := mem_slotWords (List.mem_of_find?_eq_some hf)
    have hp := List.find?_some hf
    simp only [Bool.and_eq_true, beq_iff_eq] at hp
    have hji : j = i := by omega
    rw [Option.map_some, hval, hp.1, hji]

/-! `zrnd`. -/

section Zrnd
variable {s : State} {e : Env} (d : BitVec 7) (f : ZFmt) (rm : RMode) (pos origin seed : Sel) (t : Tile)

/-- What a slot receives (R302), and whether it overflowed. -/
def rndSlot (e : Env) (f : ZFmt) (rm : RMode) (pos origin seed : Sel) (t : Tile) (k : Nat) : Nat × Bool :=
  zrndSlot t (e.b.tileNow t).nf (e.b.accAll t) f rm k (e.read true pos k) (e.read true origin k) (e.read true seed k)

/-- The state in which the operation is issued: the tile read, and the records of its overflows made. -/
def zrndRead (s : State) (e : Env) (f : ZFmt) (rm : RMode) (pos origin seed : Sel) (t : Tile) : State :=
  let s1 := s.seeOvf e.b.uid t (readOf e.b t)
  let s2 := if s1.1 then s1.2.logArith e 0x11 e.low true else s1.2
  if (e.r.exec.map (rndSlot e f rm pos origin seed t)).any (·.2) then s2.logArith e 0x10 e.low true else s2

theorem sameWork_zrndRead : SameWork s (zrndRead s e f rm pos origin seed t) := by
  have hlog (t : State) (b : Bool) (c : Nat) : SameWork t (if b then t.logArith e c e.low true else t) := by
    cases b
    · exact .refl t
    · exact .traffic (traffic_logArith t e c e.low true)
  exact ((sameWork_seeOvf s e.b.uid t (readOf e.b t)).trans (hlog _ _ _)).trans (hlog _ _ _)

theorem execZrnd_eq (h : s.env = some e) {z : BitVec 4} {t : Tile} (ht : e.b.tile z = some t) (hm : e.b.mmaOver t = false) :
    exec (.zrnd d f rm z pos origin seed) s = .next (((zrndRead s e f rm pos origin seed t).tagG e d.toNat (if f = .f64 then 2 else 1)).addOp
      e e.r.exec (.zrnd t z.toNat (slotWords e.r.exec d.toNat (if f = .f64 then 2 else 1)
        (fun k => (rndSlot e f rm pos origin seed t k).1)))) := by
  obtain ⟨-, hb, -, -⟩ := env_found h
  have hn : (if (f == .f64) = true then 2 else 1) = (if f = .f64 then 2 else 1) := by simp only [beq_iff_eq]
  change execZrnd d f rm z pos origin seed s = _
  rw [execZrnd, within_env h, ht]
  dsimp only
  rw [tileRead_settled hb hm]
  dsimp only
  rw [hn, List.any_map, List.flatMap_map]
  unfold zrndRead slotWords
  rw [List.any_map]
  rfl

end Zrnd

/-- What a slot receives, element by element. -/
theorem rndSlot_value (e : Env) (f : ZFmt) (rm : RMode) (pos origin seed : Sel) (t : Tile) (k : Nat) :
    let row := (e.read true pos k).toNat % 2 ^ 16
    let col := (e.read true pos k).toNat / 2 ^ 16 % 2 ^ 16 + k
    let elem : Int := (e.b.accGet (t.base + (row * t.cols + col))).1.toInt
    let hash : Nat := if rm = .sr then
      srHash (e.read true seed k) ((e.read true origin k).toNat % 2 ^ 16) ((e.read true origin k).toNat / 2 ^ 16 % 2 ^ 16)
        (row * t.cols + col) else 0
    (rndSlot e f rm pos origin seed t k).1 = if t.rows ≤ row ∨ t.cols ≤ col then 0
      else if (e.b.tileNow t).nf = true then zrndNf f else (zrndRound f rm hash elem).1 := by
  intro row col elem hash
  unfold rndSlot zrndSlot
  dsimp only
  by_cases hout : t.rows ≤ row ∨ t.cols ≤ col
  · rw [if_pos hout, if_pos]
    simpa only [Bool.or_eq_true, decide_eq_true_eq] using hout
  · rw [if_neg hout, if_neg (by simpa only [Bool.or_eq_true, decide_eq_true_eq] using hout)]
    rw [not_or, Nat.not_le, Nat.not_le] at hout
    by_cases hnf : (e.b.tileNow t).nf = true
    · rw [if_pos hnf, if_pos hnf]
    · rw [if_neg hnf, if_neg hnf, accAll_get (add_lt_mul hout.1 hout.2)]
      simp only [beq_iff_eq]
      rfl

/-- The NaN of each format, and the most negative integer (R81). -/
theorem zrndNf_eq (f : ZFmt) : zrndNf f = match f with
    | .f32 => 0x7FC0_0000
    | .bf16 => 0x7FC0
    | .f16 => 0x7E00
    | .f64 => 0x7FF8_0000_0000_0000
    | .int32 => 0x8000_0000 := by
  cases f <;> decide

/-- Settles O29: the tile is read at issue, and one operation will bring each slot its value's words. -/
theorem roundingToRegisters : Obligations.RoundingToRegisters := by
  intro s e d f rm z pos origin seed tl henv ht hm regs row col elem hash value
  have hwork := sameWork_zrndRead (s := s) (e := e) f rm pos origin seed tl
  refine ⟨_, slotWords e.r.exec d.toNat regs (fun k => (rndSlot e f rm pos origin seed tl k).1),
    execZrnd_eq d f rm pos origin seed henv ht hm, hwork.run, fun n => ?_,
    ⟨_, congrArg (· ++ _) hwork.ops, hwork.nextId, rfl, rfl, rfl, rfl, rfl⟩, fun w hw => (mem_slotWords hw).1, fun k hk i hi => ?_⟩
  · refine (vreg_tagG (zrndRead s e f rm pos origin seed tl) e d.toNat regs n).trans ?_
    rw [vreg, hwork.spn, vreg]
  · rw [find?_slotWords hk hi, rndSlot_value]
    congr 3
    dsimp only [value]
    rw [zrndNf_eq]
    cases f <;> rfl

end Sys2Proof.Safety
end

section
/-! PROOF. What reads, walks and register work leave of memory as a core's die sees it where nothing stands between (R115, R161,
R386, R433). -/

namespace Sys2Proof.Safety

open Sys2Proof Sys2Proof.Machine

/-- Quiet memory stays quiet, and the core's die sees the same bytes. -/
def SeesSame (core : Nat) (s t : State) : Prop := Quiet s core → Quiet t core ∧ ∀ a, seen t core a = seen s core a

section Basic
variable {core : Nat} {s t u : State}

theorem SeesSame.refl (s : State) : SeesSame core s s := fun q => ⟨q, fun _ => rfl⟩

theorem SeesSame.trans (h : SeesSame core s t) (k : SeesSame core t u) : SeesSame core s u := fun q =>
  ⟨(k (h q).1).1, fun a => ((k (h q).1).2 a).trans ((h q).2 a)⟩

theorem SeesSame.foldl {α : Type} {f : State → α → State} (h : ∀ t x, SeesSame core t (f t x)) (l : List α) (s : State) :
    SeesSame core s (l.foldl f s) := by
  induction l generalizing s with
  | nil => exact .refl s
  | cons x r ih => exact (h s x).trans (ih _)

/-- What memory is made of. -/
structure SameMemory (s t : State) : Prop where
  coh : t.coh = s.coh
  mem : t.mem = s.mem
  health : t.health = s.health
  clk : t.clk = s.clk
  epoch : t.epoch = s.epoch

theorem SameMemory.refl (s : State) : SameMemory s s := ⟨rfl, rfl, rfl, rfl, rfl⟩

theorem SameMemory.seen (h : SameMemory s t) (a : Nat) : Safety.seen t core a = Safety.seen s core a := by
  unfold Safety.seen State.view State.home State.retired
  rw [h.coh, h.mem, h.health, h.clk, h.epoch]

/-- Work that is no access of memory and takes no stash line. -/
theorem SeesSame.of (h : SameMemory s t) (hb : ∀ b ∈ t.blocks, ∃ c ∈ s.blocks, b.owned = c.owned) : SeesSame core s t := fun q =>
  ⟨{ flips := by rw [h.coh]; exact q.flips
     stash := fun b hm => let ⟨c, hc, hbc⟩ := hb b hm; hbc.trans (q.stash c hc)
     frames := by rw [h.health]; exact q.frames
     device := by rw [h.coh]; exact q.device
     pend := by rw [h.coh]; exact q.pend
     copies := by rw [h.coh]; exact q.copies }, h.seen⟩

theorem SeesSame.of_blocks (h : SameMemory s t) (hb : t.blocks = s.blocks) : SeesSame core s t :=
  .of h (fun b hm => ⟨b, hb ▸ hm, rfl⟩)

theorem seesSame_updBlk (s : State) (u : Nat) {f : Block → Block} (hf : ∀ b, (f b).owned = b.owned) :
    SeesSame core s (s.updBlk u f) :=
  .of ⟨rfl, rfl, rfl, rfl, rfl⟩ (fun b hm => by
    obtain ⟨c, hc, rfl⟩ := List.mem_map.mp hm
    refine ⟨c, hc, ?_⟩
    split
    · exact hf c
    · rfl)

theorem seesSame_updSp (s : State) (u m : Nat) (f : Spindle → Spindle) : SeesSame core s (s.updSp u m f) :=
  seesSame_updBlk s u (fun _ => rfl)

theorem seesSame_dropOp (s : State) (o : Op) : SeesSame core s (s.dropOp o) :=
  SeesSame.trans (t := offList s o) (.of_blocks ⟨rfl, rfl, rfl, rfl, rfl⟩ rfl) (seesSame_updSp _ _ _ _)

theorem seesSame_requests (h : RequestsOnly s t) : SeesSame core s t :=
  .of_blocks ⟨h.coh, by rw [h], by rw [h], by rw [h], by rw [h]⟩ h.blocks

/-- The end of an operation. -/
theorem seesSame_end (s : State) (o : Op) : SeesSame core s ((s.dropOp o).answered o) :=
  (seesSame_dropOp s o).trans (seesSame_requests (requestsOnly_answered _ o))

end Basic

/-! Reads. -/

section Reads
variable {core : Nat} (s : State)

theorem seesSame_takeLine (line : Nat) : SeesSame core s (s.takeLine (some (dieOf core)) line false) := fun q =>
  let h := took_read q line
  ⟨h.quiet, h.seen⟩

theorem seesSame_dropOwn (line : Nat) : SeesSame core s (s.dropOwn core line) := fun q =>
  ⟨q.mono rfl rfl rfl (fun _ h => h) (fun _ h => h) (fun _ hc => (List.mem_filter.mp hc).1), fun _ => rfl⟩

theorem seesSame_engineLoad (pa n : Nat) : SeesSame core s (s.engineLoad (some core) pa n).2 :=
  SeesSame.foldl (f := fun t (p : Nat × Nat) => (t.takeLine (some (dieOf core)) (lineOf p.1) false).dropOwn core (lineOf p.1))
    (fun t _ => (seesSame_takeLine t _).trans (seesSame_dropOwn _ _)) _ _

theorem seesSame_readLocs (l : List (Loc × Nat)) : SeesSame core s (s.readLocs (some core) l).2 := by
  induction l generalizing s with
  | nil => exact .refl s
  | cons x r ih =>
    obtain ⟨l, n⟩ := x
    cases l with
    | mem pa => exact (seesSame_engineLoad s pa n).trans (ih _)
    | peer dev pa =>
      refine SeesSame.trans (t := { s with freeCtr := s.freeCtr + 1 }) (.of_blocks ⟨rfl, rfl, rfl, rfl, rfl⟩ rfl) ?_
      refine SeesSame.trans ?_ (ih _)
      exact seesSame_requests (requestsOnly_sendPeer _ _ _ _ _ _ _)
    | mmio pa =>
      exact SeesSame.trans (t := { s with freeCtr := s.freeCtr + 1 }) (.of_blocks ⟨rfl, rfl, rfl, rfl, rfl⟩ rfl) (ih _)
    | win r o f => exact ih _
    | nowhere => exact ih _

/-- What an engine reads of one range of memory. -/
theorem readLocs_mem (q : Quiet s core) (pa n : Nat) : (s.readLocs (some core) [(.mem pa, n)]).1 = bytesAt (seen s core) pa n :=
  (List.append_nil _).trans (engineLoad_quiet q pa n)

theorem seesSame_walkLoads (va : Nat) (ls : List (Nat × Nat × Option Nat)) (base : Nat) :
    SeesSame core s (s.walkLoads (some (dieOf core)) va ls base) := by
  induction ls generalizing s base with
  | nil => exact .refl s
  | cons x r ih =>
    obtain ⟨lo, w, lf⟩ := x
    rw [State.walkLoads]
    dsimp only
    split
    · split
      · exact (seesSame_takeLine s _).trans (ih _ _)
      · exact seesSame_takeLine s _
    · exact .refl s

theorem seesSame_walked {w : Walker} (hw : w.die = some (dieOf core)) (va : Dword) (n : Nat) : SeesSame core s (s.walked w va n) := by
  refine SeesSame.foldl (fun t p => ?_) _ _
  dsimp only
  split
  · exact .refl t
  · rw [hw]
    exact seesSame_walkLoads t _ _ _

theorem seesSame_walkedAll {w : Walker} (hw : w.die = some (dieOf core)) (l : List (Dword × Nat)) :
    SeesSame core s (s.walkedAll w l) :=
  SeesSame.foldl (f := fun t (r : Dword × Nat) => t.walked w r.1 r.2) (fun t r => seesSame_walked t hw r.1 r.2) _ _

end Reads

/-! Stores of an engine. -/

section Stores
variable {core : Nat}

theorem quiet_engineStore {s : State} (q : Quiet s core) (pa : Nat) (d : List Byte) : Quiet (s.engineStore pa d false) core := by
  have h : ∀ (fuel a n : Nat) (s : State), Quiet s core →
      Quiet ((cutAt 128 fuel a n).foldl (fun t p => t.storeSeen p.1 ((d.drop (p.1 - pa)).take p.2) false) s) core := by
    intro fuel
    induction fuel with
    | zero => exact fun _ _ _ q => q
    | succ fuel ih =>
      intro a n s q
      rw [cutAt]
      split
      · exact q
      · exact ih _ _ _ (storeSeen_quiet q _ _ (by rw [List.length_take]; omega)).1
  exact h _ _ _ _ q

theorem inward_storeSeen (s : State) (pa : Nat) (d : List Byte) : Inward s (s.storeSeen pa d false) :=
  have h : Inward s ((s.takeLine none (lineOf pa) true).overDevice (lineOf pa)) := (inward_takeLine s none _ true).trans (.of rfl rfl)
  (h.trans (inward_commit _ pa d)).trans (inward_dropL1 _ _)

theorem inward_engineStore (s : State) (pa : Nat) (d : List Byte) : Inward s (s.engineStore pa d false) :=
  Inward.foldl (f := fun t (p : Nat × Nat) => t.storeSeen p.1 ((d.drop (p.1 - pa)).take p.2) false) (fun t p => inward_storeSeen t p.1 _) _ _

/-- An engine's store of as many bytes as its place holds. -/
theorem writeLocs_mem (s : State) (k : StreamId) (id pa : Nat) (d : List Byte) :
    s.writeLocs k (some id) [(.mem pa, d.length)] d = s.engineStore pa d := by
  have hcut : d.take d.length = d := List.take_length
  simp only [State.writeLocs, hcut]
  rfl

theorem downLocs_mem {s : State} {pa n : Nat} (h : s.downIn pa n = none) : s.downLocs [(.mem pa, n)] = none := by
  have e : s.downLocs [(.mem pa, n)] = firstSome [s.downIn pa n] := rfl
  rw [e, h]
  rfl

theorem badLocs_mem {s : State} {pa n : Nat} (h : s.badIn pa n = none) : s.badLocs [(.mem pa, n)] = none := by
  have e : s.badLocs [(.mem pa, n)] = firstSome [s.badIn pa n] := rfl
  rw [e, h]
  rfl

end Stores

end Sys2Proof.Safety
end

section
/-! PROOF. A tile is written to memory and read back (R81, R84, R303 to R305). -/

namespace Sys2Proof.Safety

open Sys2Proof Sys2Proof.Machine

/-! Bytes in order. -/

section Bytes

/-- Bytes that a list gives, read from an offset on. -/
theorem bytesAt_list {f : Nat → Byte} {pa : Nat} {d : List Byte} (h : ∀ a, pa ≤ a → a < pa + d.length → f a = (d[a - pa]?).getD 0)
    {i k : Nat} (hk : i + k ≤ d.length) : bytesAt f (pa + i) k = (d.drop i).take k := by
  apply List.ext_getElem
  · rw [length_bytesAt, List.length_take, List.length_drop]
    omega
  · intro j hj _
    rw [length_bytesAt] at hj
    have hget : (d[i + j]?).getD 0 = d[i + j] := by rw [List.getElem?_eq_getElem (by omega), Option.getD_some]
    simp only [bytesAt, List.getElem_map, List.getElem_range, List.getElem_take, List.getElem_drop]
    rw [h _ (by omega) (by omega), ← hget, Nat.add_assoc, Nat.add_sub_cancel_left]

theorem bytesAt_chunk (f : Nat → Byte) (pa : Nat) {n i k : Nat} (hk : i + k ≤ n) :
    ((bytesAt f pa n).drop i).take k = bytesAt f (pa + i) k := by
  refine (bytesAt_list (fun a h1 h2 => ?_) (by rw [length_bytesAt]; exact hk)).symm
  rw [length_bytesAt] at h2
  rw [bytesAt, List.getElem?_map, List.getElem?_range (by omega), Option.map_some, Option.getD_some, Nat.add_sub_cancel' h1]

/-- The i-th of several pieces of one length. -/
theorem flatMap_chunk {α : Type} {f : α → List Byte} {k : Nat} (hf : ∀ x, (f x).length = k) (tail : List Byte) :
    ∀ {l : List α} {i : Nat} {x : α}, l[i]? = some x → ((l.flatMap f ++ tail).drop (k * i)).take k = f x
  | y :: r, 0, x, h => by
    cases h
    rw [Nat.mul_zero, List.drop_zero, List.flatMap_cons, List.append_assoc, List.take_left' (hf y)]
  | y :: r, i + 1, x, h => by
    have hk : k * (i + 1) = (f y).length + k * i := by rw [hf, Nat.mul_succ, Nat.add_comm]
    rw [List.flatMap_cons, List.append_assoc, hk, List.drop_length_add_append]
    exact flatMap_chunk hf tail h

theorem length_flatMap_chunks {α : Type} {f : α → List Byte} {k : Nat} (hf : ∀ x, (f x).length = k) (l : List α) :
    (l.flatMap f).length = k * l.length := by
  simp only [List.length_flatMap, hf, List.map_const', List.sum_replicate, smul_eq_mul, Nat.mul_comm]

/-- Rows one after another are one row. -/
theorem flatMap_rows {α : Type} (g : Nat → List α) (r c : Nat) :
    (List.range r).flatMap (fun i => (List.range c).flatMap (fun j => g (i * c + j))) = (List.range (r * c)).flatMap g := by
  induction r with
  | zero => rw [Nat.zero_mul]; rfl
  | succ r ih => rw [List.range_succ, List.flatMap_append, ih, Nat.succ_mul, List.range_add, List.flatMap_append, List.flatMap_map,
      List.flatMap_singleton]

end Bytes

/-! The results of RoundTo fit their format (R85, R86). -/

/-- Every result but for its sign is a pattern of the format. -/
structure FitsFormat (F : FFmt) : Prop where
  max : F.maxBits < 2 ^ (F.fbits + F.ebits)
  inf : F.infBits < 2 ^ (F.fbits + F.ebits)
  nan : F.e4m3 = true → 0x7F < 2 ^ (F.fbits + F.ebits)

theorem round_bits_lt {F : FFmt} (hF : FitsFormat F) (mode : RMode) (r : Nat) (nosat neg st : Bool) (m : Nat) (e : Int) :
    (F.round mode r nosat neg st m e).bits < 2 ^ (F.fbits + F.ebits + 1) := by
  have hsign : ∀ x, x < 2 ^ (F.fbits + F.ebits) → F.signBit neg + x < 2 ^ (F.fbits + F.ebits + 1) := by
    intro x hx
    rw [Nat.pow_succ, FFmt.signBit]
    split <;> omega
  obtain ⟨hmax, hinf, hnan⟩ := hF
  unfold FFmt.round
  split
  · exact hsign 0 (Nat.two_pow_pos _)
  · dsimp only
    split
    · refine hsign _ ?_
      split
      · have := hnan ‹_›
        split <;> omega
      · cases mode
        case rne => exact hinf
        case rz | sr => exact hmax
        case ru | rd => dsimp only; split <;> assumption
    · exact hsign _ (by omega)

theorem roundUnits_lt {F : FFmt} (hF : FitsFormat F) (mode : RMode) (r : Nat) (nosat : Bool) (u q : Int) :
    (roundUnits F mode r nosat u q).1 < 2 ^ (F.fbits + F.ebits + 1) := round_bits_lt hF _ _ _ _ _ _ _

theorem fits_f32 : FitsFormat FFmt.f32 := ⟨by decide, by decide, by decide⟩
theorem fits_f16 : FitsFormat FFmt.f16 := ⟨by decide, by decide, by decide⟩
theorem fits_e5m2 : FitsFormat FFmt.e5m2 := ⟨by decide, by decide, by decide⟩
theorem fits_e4m3 : FitsFormat FFmt.e4m3f := ⟨by decide, by decide, by decide⟩

/-! No arithmetic log (R393). -/

/-- The context of an operation keeps no arithmetic log. -/
def Unlogged (s : State) (o : Op) : Prop := ∀ c, s.ctx o.ctx = some c → c.desc.alogbase = 0

theorem Unlogged.traffic {s t : State} {o : Op} (h : Unlogged s o) (k : Traffic s t) : Unlogged t o := by
  have hc (r : State) : (calm r).ctx o.ctx = (r.ctx o.ctx).map (fun c => { c with prodA := 0, prodE := 0, logdrops := 0 }) :=
    find?_map_same (fun c : Ctx => c.id == o.ctx) (fun c => { c with prodA := 0, prodE := 0, logdrops := 0 }) (fun _ => rfl) r.ctxs
  intro c hct
  have heq := (hc t).symm.trans ((congrArg (fun s => s.ctx o.ctx) k.1).trans (hc s))
  rw [hct] at heq
  obtain ⟨c', hcs, hcc⟩ := Option.map_eq_some_iff.mp heq.symm
  have hd : c'.desc = c.desc := (congrArg Ctx.desc hcc :)
  rw [← hd]
  exact h c' hcs

theorem logOp_unlogged {s : State} {o : Op} (h : Unlogged s o) (cause : Nat) : s.logOp o cause = s := by
  unfold State.logOp
  split
  · unfold State.logTo
    split
    · rfl
    · rename_i c hc
      dsimp only
      rw [if_pos rfl, h c hc]
      rfl
  · rfl

theorem leaveOp_sent {s t : State} {o : Op} (h : s.unsent o = false) (k : Inward s t) : t.leaveOp o = t.dropOp o := by
  have hu : t.unsent o = false := by
    rw [State.unsent, k.1]
    exact h
  rw [State.leaveOp, hu, if_neg Bool.false_ne_true]

/-! What the end of an operation leaves of memory. -/

theorem SameMemory.trans {s t u : State} (h : SameMemory s t) (k : SameMemory t u) : SameMemory s u :=
  ⟨k.coh.trans h.coh, k.mem.trans h.mem, k.health.trans h.health, k.clk.trans h.clk, k.epoch.trans h.epoch⟩

theorem SameMemory.requests {s t : State} (h : RequestsOnly s t) : SameMemory s t :=
  ⟨h.coh, by rw [h], by rw [h], by rw [h], by rw [h]⟩

theorem seen_opLeaves {s t : State} {o : Op} {core : Nat} (h : OpLeaves s t o) (a : Nat) : seen t core a = seen s core a := by
  have hr : SameMemory s (State.flushHeld { s with fabric := { s.fabric with outst := s.fabric.outst.filter (fun x =>
      !(x.op == some o.id && x.thr.isSome)) } }) :=
    SameMemory.trans ⟨rfl, rfl, rfl, rfl, rfl⟩ (.requests (requestsOnly_flushHeld _))
  rw [h.rest]
  exact SameMemory.seen ⟨hr.coh, hr.mem, hr.health, hr.clk, hr.epoch⟩ a

/-! A tile seen. -/

section Saw
variable {s : State} {o : Op} {b : Block} {t : Tile}

/-- A tile with another OVF. -/
def withOvf (x : Tile) (v : Bool) : Tile := { x with ovf := v }

/-- R84: the block once a read has found a carry, or not. -/
def sawOvf (b : Block) (t : Tile) : Block :=
  if (b.accAll t).any (fun w => w.2 != 0) && !(b.tileNow t).ovf then b.setTile (withOvf (b.tileNow t) true) else b

theorem seeOvf_blk (hb : s.blk o.blk = some b) : (s.seeOvf o.blk t (readOf b t)).2.blk o.blk = some (sawOvf b t) := by
  have hnot : (readOf b t).free = false := rfl
  have hws : (readOf b t).ws = b.accAll t := rfl
  simp only [State.seeOvf, hb, hnot, hws, Bool.not_false, Bool.true_and, sawOvf]
  split
  · exact blk_updBlk_same hb (fun _ => rfl)
  · exact hb

theorem accGet_sawOvf (n : Nat) : (sawOvf b t).accGet n = b.accGet n := by
  unfold sawOvf
  split <;> rfl

theorem tileNow_sawOvf (h : ∃ x ∈ b.tiles, x.map (·.uid) = some t.uid) :
    (sawOvf b t).tileNow t = withOvf (b.tileNow t) (readOf b t).ovf := by
  unfold sawOvf
  split
  · rename_i hc
    have ho : (readOf b t).ovf = true := by
      rw [Bool.and_eq_true] at hc
      rw [readOf, hc.1, Bool.or_true]
    rw [ho]
    exact tileNow_setTile b (x := withOvf (b.tileNow t) true) (tileNow_uid b t) h
  · rename_i hc
    have ho : (readOf b t).ovf = (b.tileNow t).ovf := by
      rw [readOf]
      revert hc
      cases (b.tileNow t).ovf <;> simp
    rw [ho]
    rfl

/-- Whether some word of the tile carries. -/
theorem any_carry : (b.accAll t).any (fun w => w.2 != 0) = true ↔ ∃ i, i < t.rows * t.cols ∧ (b.accGet (t.base + i)).2 ≠ 0 := by
  rw [Block.accAll, List.any_map, List.any_eq_true]
  simp only [List.mem_range, Function.comp, bne_iff_ne]
  rfl

theorem seeOvf_same (s : State) (u : Nat) (t : Tile) (r : TileRead) {core : Nat} : SeesSame core s (s.seeOvf u t r).2 := by
  obtain h | ⟨x, h⟩ := seeOvf_state (s := s) (u := u) (t := t) r
  · rw [h]; exact .refl s
  · rw [h]; exact seesSame_updBlk s u (fun _ => rfl)

theorem seeOvf_else (s : State) (u : Nat) (t : Tile) (r : TileRead) : ∃ bs, (s.seeOvf u t r).2 = { s with blocks := bs } := by
  obtain h | ⟨x, h⟩ := seeOvf_state (s := s) (u := u) (t := t) r
  · exact ⟨s.blocks, h⟩
  · exact ⟨_, h⟩

theorem inward_seeOvf (s : State) (u : Nat) (t : Tile) (r : TileRead) : Inward s (s.seeOvf u t r).2 := by
  obtain ⟨bs, h⟩ := seeOvf_else s u t r
  rw [h]
  exact .of rfl rfl

theorem downIn_seeOvf (s : State) (u : Nat) (t : Tile) (r : TileRead) (pa n : Nat) : (s.seeOvf u t r).2.downIn pa n = s.downIn pa n := by
  obtain ⟨bs, h⟩ := seeOvf_else s u t r
  rw [h]
  rfl

theorem Unlogged.seeOvf (h : Unlogged s o) (u : Nat) (t : Tile) (r : TileRead) : Unlogged (s.seeOvf u t r).2 o := by
  obtain ⟨bs, hs⟩ := seeOvf_else s u t r
  rw [hs]
  exact h

end Saw

end Sys2Proof.Safety
end

section
/-! PROOF. `zst`, `zld` and the plain `zdrain` performed (R303 to R305). -/

namespace Sys2Proof.Safety

open Sys2Proof Sys2Proof.Machine

/-- What the completion of a tile's transfer stands on: the operation waits, its block is resident, memory is quiet, the tile
is defined and settled, no request waits and no log is kept. -/
structure TileOp (s : State) (o : Op) (b : Block) (t : Tile) : Prop where
  waits : pending s o.id = some o
  blk : s.blk o.blk = some b
  resident : b.evicted = false
  quiet : Quiet s o.core
  tile : ∃ x ∈ b.tiles, x.map (·.uid) = some t.uid
  settled : b.mmaOver t = false
  sent : s.unsent o = false
  runs : s.halting o.ctx = false
  unlogged : Unlogged s o

section Stored
variable {s : State} {o : Op} {b : Block} {t : Tile}

/-- The state in which the tile has been read and bytes stored. -/
def storedTile (s : State) (o : Op) (b : Block) (t : Tile) (pa : Nat) (d : List Byte) : State :=
  (s.seeOvf o.blk t (readOf b t)).2.engineStore pa d

theorem stored_ops (pa : Nat) (d : List Byte) : (storedTile s o b t pa d).ops = s.ops :=
  ((SameWork.traffic (traffic_engineStore _ pa d false)).ops).trans (sameWork_seeOvf s o.blk t (readOf b t)).ops

theorem stored_inward (pa : Nat) (d : List Byte) : Inward s (storedTile s o b t pa d) :=
  (inward_seeOvf s o.blk t (readOf b t)).trans (inward_engineStore _ pa d)

/-- An engine's store to memory whose links are up. -/
theorem opWrite_stored {pa : Nat} {d : List Byte} (hd : s.downIn pa d.length = none) :
    (s.seeOvf o.blk t (readOf b t)).2.opWrite o [(.mem pa, d.length)] d = storedTile s o b t pa d := by
  have hdown := downLocs_mem ((downIn_seeOvf s o.blk t (readOf b t) pa d.length).trans hd)
  unfold State.opWrite
  rw [hdown]
  exact writeLocs_mem _ o.stream o.id pa d

/-- The arithmetic records of an operation, each where it is due. -/
def withRecords (o : Op) (p q : Bool) (w : State) : State :=
  let w := if p then w.logOp o 0x11 else w
  if q then w.logOp o 0x10 else w

end Stored

section Performed
variable {s : State} {o : Op} {b : Block} {t : Tile} (h : TileOp s o b t)
include h

theorem TileOp.clears {r : Option State} (hk : s.complete o = if s.away o || s.unsent o then none else r) : s.complete o = r := by
  rw [hk, away_resident h.blk h.resident h.runs, h.sent]
  rfl

/-- The end of the operation, its work done in `w`. -/
theorem TileOp.performed {w : State} (hc : s.complete o = some (w.dropOp o)) (hw : w.ops = s.ops) {c : Block}
    (hbare : bareOf w o.blk = some (bare c)) :
    ∃ u b', exec (.tokenClear o.id) s = .next u ∧ OpGone s u o.id ∧ u.blk o.blk = some b' ∧ bare b' = bare c ∧
      ∀ a, seen u o.core a = seen w o.core a := by
  obtain ⟨u, hu, hgone, hleaves, hbu⟩ := execTokenClear_drop h.waits hc hw
  obtain ⟨b', hb', hbb⟩ := bareOf_some ((hbu o.blk).trans hbare)
  exact ⟨u, b', hu, hgone, hb', hbb, seen_opLeaves hleaves⟩

theorem TileOp.stored_bare (pa : Nat) (d : List Byte) : bareOf (storedTile s o b t pa d) o.blk = some (bare (sawOvf b t)) := by
  rw [storedTile, bareOf_traffic (traffic_engineStore _ pa d false), bareOf, seeOvf_blk h.blk]
  rfl

theorem TileOp.stored_seen (pa : Nat) (d : List Byte) (a : Nat) : seen (storedTile s o b t pa d) o.core a =
    if pa ≤ a ∧ a < pa + d.length then (d[a - pa]?).getD 0 else seen s o.core a := by
  obtain ⟨hq, hs⟩ := seeOvf_same s o.blk t (readOf b t) h.quiet
  rw [storedTile, engineStore_quiet hq, hs]

theorem TileOp.stored_unlogged (pa : Nat) (d : List Byte) : Unlogged (storedTile s o b t pa d) o :=
  (h.unlogged.seeOvf _ _ _).traffic (traffic_engineStore _ pa d false)

/-- What the work leaves, but for the store: its records are not made, and the operation leaves. -/
theorem TileOp.leaves (pa : Nat) (d : List Byte) (p q : Bool) :
    (withRecords o p q (storedTile s o b t pa d)).leaveOp o = (storedTile s o b t pa d).dropOp o := by
  have hu := h.stored_unlogged pa d
  unfold withRecords
  dsimp only
  rw [logOp_unlogged hu, ite_self, logOp_unlogged hu, ite_self]
  exact leaveOp_sent h.sent (stored_inward pa d)

end Performed

/-! `zst`. -/

/-- The bytes of a stored tile. -/
def tileBytes (b : Block) (t : Tile) : List Byte :=
  (b.accAll t).flatMap (fun w => leBytes 32 w.1.toNat) ++ leBytes 32 ((readOf b t).ovf.toNat + 2 * (readOf b t).nf.toNat)

section Zst
variable {s : State} {o : Op} {b : Block} {t : Tile} {z pa : Nat}

theorem length_accAll (b : Block) (t : Tile) : (b.accAll t).length = t.rows * t.cols := by
  rw [Block.accAll, List.length_map, List.length_range, Tile.size]

theorem length_tileBytes (b : Block) (t : Tile) : (tileBytes b t).length = 32 * (t.rows * t.cols + 1) := by
  rw [tileBytes, List.length_append, length_flatMap_chunks (fun w => length_leBytes 32 _), length_leBytes, length_accAll]
  omega

theorem tileBytes_word {i : Nat} (hi : i < t.rows * t.cols) :
    ((tileBytes b t).drop (32 * i)).take 32 = leBytes 32 (b.accGet (t.base + i)).1.toNat :=
  flatMap_chunk (fun (w : BitVec 256 × BitVec 8) => length_leBytes 32 w.1.toNat) _ (accAll_get hi)

theorem tileBytes_flags : ((tileBytes b t).drop (32 * (t.rows * t.cols))).take 32 =
    leBytes 32 ((readOf b t).ovf.toNat + 2 * (readOf b t).nf.toNat) := by
  have hlen : 32 * (t.rows * t.cols) = ((b.accAll t).flatMap (fun w => leBytes 32 w.1.toNat)).length := by
    rw [length_flatMap_chunks (fun w => length_leBytes 32 _), length_accAll]
  rw [tileBytes, hlen, List.drop_left, List.take_of_length_le (by rw [length_leBytes])]

theorem complete_zst (h : TileOp s o b t) (he : o.early = false) (hk : o.kind = .zst t z [(.mem pa, 32 * (t.rows * t.cols + 1))])
    (hd : s.downIn pa (32 * (t.rows * t.cols + 1)) = none) :
    s.complete o = some ((storedTile s o b t pa (tileBytes b t)).dropOp o) := by
  rw [← length_tileBytes b t] at hd hk
  have hz : s.doZst o none = some ((storedTile s o b t pa (tileBytes b t)).dropOp o) := by
    rw [State.doZst, hk]
    dsimp only
    rw [he, tileRead_settled h.blk h.settled]
    dsimp only
    have hw := opWrite_stored (o := o) (b := b) (t := t) hd
    rw [tileBytes] at hw ⊢
    exact congrArg some ((congrArg (fun w => (if (s.seeOvf o.blk t (readOf b t)).1 then w.logOp o 0x11 else w).leaveOp o) hw).trans
      (h.leaves pa _ _ false))
  exact (h.clears (r := s.doZst o none) (by rw [State.complete, hk])).trans hz

theorem zst_performed (h : TileOp s o b t) (he : o.early = false) (hk : o.kind = .zst t z [(.mem pa, 32 * (t.rows * t.cols + 1))])
    (hd : s.downIn pa (32 * (t.rows * t.cols + 1)) = none) :
    ∃ u b', exec (.tokenClear o.id) s = .next u ∧ OpGone s u o.id ∧ u.blk o.blk = some b' ∧
      (∀ i, i < t.rows * t.cols → leNat (bytesAt (seen u o.core) (pa + 32 * i) 32) = (b.accGet (t.base + i)).1.toNat) ∧
      (∃ ovf : Bool, (ovf = true ↔ (b.tileNow t).ovf = true ∨ ∃ i, i < t.rows * t.cols ∧ (b.accGet (t.base + i)).2 ≠ 0) ∧
        (b'.tileNow t).ovf = ovf ∧
        leNat (bytesAt (seen u o.core) (pa + 32 * (t.rows * t.cols)) 32) = ovf.toNat + 2 * ((b.tileNow t).nf).toNat) ∧
      (∀ m, b'.accGet m = b.accGet m) ∧
      ∀ a, ¬(pa ≤ a ∧ a < pa + 32 * (t.rows * t.cols + 1)) → seen u o.core a = seen s o.core a := by
  obtain ⟨u, b', hu, hgone, hb', hbare, hseen⟩ :=
    h.performed (complete_zst h he hk hd) (stored_ops pa _) (h.stored_bare pa _)
  have hs (a : Nat) := (hseen a).trans (h.stored_seen pa (tileBytes b t) a)
  have hin : ∀ a, pa ≤ a → a < pa + (tileBytes b t).length → seen u o.core a = ((tileBytes b t)[a - pa]?).getD 0 :=
    fun a h1 h2 => (hs a).trans (if_pos ⟨h1, h2⟩)
  have hbyte (i : Nat) (hi : i ≤ t.rows * t.cols) :=
    bytesAt_list (f := seen u o.core) hin (i := 32 * i) (k := 32) (by rw [length_tileBytes]; omega)
  refine ⟨u, b', hu, hgone, hb', fun i hi => ?_, ⟨(readOf b t).ovf, ?_, ?_, ?_⟩, fun m => ?_, fun a ha => ?_⟩
  · rw [hbyte i (Nat.le_of_lt hi), tileBytes_word hi, leNat_leBytes]
    exact Nat.mod_eq_of_lt (lt_of_lt_of_eq (BitVec.isLt _) (by decide))
  · rw [readOf, Bool.or_eq_true, any_carry]
  · rw [tileNow_bare hbare, tileNow_sawOvf h.tile]
    rfl
  · rw [hbyte _ (Nat.le_refl _), tileBytes_flags, leNat_leBytes]
    refine Nat.mod_eq_of_lt (lt_of_lt_of_le (b := 4) ?_ (by decide))
    have h1 := (readOf b t).ovf.toNat_le
    have h2 := (readOf b t).nf.toNat_le
    omega
  · rw [accGet_bare hbare, accGet_sawOvf]
  · rw [hs, length_tileBytes, if_neg ha]

end Zst

/-! `zld`. -/

section Zld
variable {s : State} {o : Op} {b : Block} {t : Tile} {z pa : Nat}

/-- The words and flags that bytes give a tile. -/
def loadedWords (t : Tile) (d : List Byte) : List (BitVec 256 × BitVec 8) :=
  (List.range t.size).map (fun i => (BitVec.ofNat 256 (leNat ((d.drop (32 * i)).take 32)), 0))
def loadedFlags (x t : Tile) (d : List Byte) : Tile :=
  { x with ovf := ((d.drop (32 * t.size)).headD 0).getLsbD 0, nf := ((d.drop (32 * t.size)).headD 0).getLsbD 1 }
def loadedBlock (t : Tile) (d : List Byte) (b : Block) : Block := (b.accPut t.base (loadedWords t d)).setTile (loadedFlags (b.tileNow t) t d)

/-- The state in which a tile has been loaded. -/
def loadedTile (s : State) (o : Op) (t : Tile) (pa : Nat) : State :=
  let r := s.readLocs (some o.core) [(.mem pa, 32 * (t.rows * t.cols + 1))]
  r.2.updBlk o.blk (loadedBlock t r.1)

theorem complete_zld (h : TileOp s o b t) (hk : o.kind = .zld t z [(.mem pa, 32 * (t.rows * t.cols + 1))])
    (hd : s.badIn pa (32 * (t.rows * t.cols + 1)) = none) : s.complete o = some ((loadedTile s o t pa).dropOp o) := by
  have hz : s.doZld o none = some ((loadedTile s o t pa).dropOp o) := by
    rw [State.doZld, hk]
    dsimp only
    rw [badLocs_mem hd]
    rfl
  exact (h.clears (r := s.doZld o none) (by rw [State.complete, hk])).trans hz

theorem zld_performed (h : TileOp s o b t) (hk : o.kind = .zld t z [(.mem pa, 32 * (t.rows * t.cols + 1))])
    (hd : s.badIn pa (32 * (t.rows * t.cols + 1)) = none) :
    ∃ u b', exec (.tokenClear o.id) s = .next u ∧ OpGone s u o.id ∧ u.blk o.blk = some b' ∧
      (∀ i, i < t.rows * t.cols →
        b'.accGet (t.base + i) = (BitVec.ofNat 256 (leNat (bytesAt (seen s o.core) (pa + 32 * i) 32)), 0)) ∧
      (∀ m, ¬(t.base ≤ m ∧ m < t.base + t.rows * t.cols) → b'.accGet m = b.accGet m) ∧
      (b'.tileNow t).ovf = (seen s o.core (pa + 32 * (t.rows * t.cols))).getLsbD 0 ∧
      (b'.tileNow t).nf = (seen s o.core (pa + 32 * (t.rows * t.cols))).getLsbD 1 ∧
      ∀ a, seen u o.core a = seen s o.core a := by
  have hloc : (s.readLocs (some o.core) [(.mem pa, 32 * (t.rows * t.cols + 1))]).1 = _ := readLocs_mem s h.quiet pa _
  have htraffic := traffic_readLocs s (some o.core) [(.mem pa, 32 * (t.rows * t.cols + 1))]
  have hquiet := seesSame_readLocs (core := o.core) s [(.mem pa, 32 * (t.rows * t.cols + 1))] h.quiet
  obtain ⟨b2, hb2, hbare2⟩ := bareOf_some ((bareOf_traffic htraffic o.blk).trans (congrArg (Option.map bare) h.blk))
  have hblk := blk_updBlk_same (f := loadedBlock t (s.readLocs (some o.core) [(.mem pa, 32 * (t.rows * t.cols + 1))]).1) hb2 (fun _ => rfl)
  rw [hloc] at hblk
  have hld : loadedTile s o t pa = (s.readLocs (some o.core) [(.mem pa, 32 * (t.rows * t.cols + 1))]).2.updBlk o.blk
      (loadedBlock t (bytesAt (seen s o.core) pa (32 * (t.rows * t.cols + 1)))) := by rw [loadedTile, hloc]
  have hops : (loadedTile s o t pa).ops = s.ops := (SameWork.traffic htraffic).ops
  have hbare : bareOf (loadedTile s o t pa) o.blk = some (bare (loadedBlock t (bytesAt (seen s o.core) pa (32 * (t.rows * t.cols + 1))) b2)) := by
    rw [hld, bareOf, hblk, Option.map_some]
  obtain ⟨u, b', hu, hgone, hb', hbb, hseen⟩ := h.performed (complete_zld h hk hd) hops hbare
  have hlen : (loadedWords t (bytesAt (seen s o.core) pa (32 * (t.rows * t.cols + 1)))).length = t.rows * t.cols := by
    rw [loadedWords, List.length_map, List.length_range, Tile.size]
  have hflags : b'.tileNow t = loadedFlags (b2.tileNow t) t (bytesAt (seen s o.core) pa (32 * (t.rows * t.cols + 1))) := by
    rw [tileNow_bare hbb, loadedBlock]
    refine tileNow_setTile _ (tileNow_uid b2 t) ?_
    have ht : ∃ x ∈ b2.tiles, x.map (·.uid) = some t.uid := tiles_bare hbare2 ▸ h.tile
    exact ht
  have hhead : ((bytesAt (seen s o.core) pa (32 * (t.rows * t.cols + 1))).drop (32 * t.size)).headD 0 =
      seen s o.core (pa + 32 * (t.rows * t.cols)) := by
    rw [List.headD_eq_head?_getD, List.head?_drop, bytesAt, List.getElem?_map, Tile.size, List.getElem?_range (by omega)]
    rfl
  refine ⟨u, b', hu, hgone, hb', fun i hi => ?_, fun m hm => ?_, ?_, ?_, fun a => ?_⟩
  · rw [accGet_bare hbb, loadedBlock, accGet_setTile, accGet_accPut_in _ (Nat.le_add_right _ _)]
    rw [Nat.add_sub_cancel_left, loadedWords, List.getElem?_map, range_get (n := t.size) hi, Option.map_some,
      bytesAt_chunk _ _ (by omega)]
  · rw [accGet_bare hbb, loadedBlock, accGet_setTile, accGet_accPut_out _ (by rw [hlen]; exact hm), accGet_bare hbare2]
  · rw [hflags, loadedFlags, hhead]
  · rw [hflags, loadedFlags, hhead]
  · rw [hseen, hld, ((seesSame_updBlk _ o.blk (f := loadedBlock t _) (fun _ => rfl)) hquiet.1).2, hquiet.2]

end Zld

/-! The plain `zdrain`. -/

section Drain
variable {s : State} {o : Op} {b : Block} {t : Tile} {z pa : Nat} {rm : RMode}

theorem drainElem_float {c : Nat} {F : FFmt} (h : drainFmt c = some F) (rm : RMode) (nosat nf : Bool) (r : Nat) (u q : Int) :
    drainElem c rm nosat nf r u q = if nf then (F.canon, false) else roundUnits F rm r nosat u q := by rw [drainElem, h]

/-- The descriptor of a drain that has none. -/
def plainDrain : DrainD := { seed := 0, col0 := 0, row0 := 0, bias := [], nosat := false, dfmt := 0 }

/-- What a word of the tile becomes. -/
def drained (b : Block) (t : Tile) (rm : RMode) (i : Nat) : Nat × Bool :=
  drainElem 0 rm false (b.tileNow t).nf 0 ((((b.accAll t)[i]?).map (fun w => w.1.toInt * 2 ^ 37)).getD 0 + 0) 149
def drainedBytes (b : Block) (t : Tile) (rm : RMode) : List Byte :=
  (List.range (t.rows * t.cols)).flatMap (fun i => leBytes 4 (drained b t rm i).1)

theorem length_drainedBytes : (drainedBytes b t rm).length = 4 * (t.rows * t.cols) := by
  rw [drainedBytes, length_flatMap_chunks (fun i => length_leBytes 4 _), List.length_range]

theorem drained_value {i : Nat} (hi : i < t.rows * t.cols) : (drained b t rm i).1 = if (b.tileNow t).nf = true then 0x7FC0_0000
    else (roundUnits FFmt.f32 rm 0 false ((b.accGet (t.base + i)).1.toInt * 2 ^ 37) 149).1 := by
  rw [drained, accAll_get hi, Option.map_some, Option.getD_some, Int.add_zero, drainElem_float (F := FFmt.f32) rfl]
  split <;> rfl

theorem drained_lt {i : Nat} (hi : i < t.rows * t.cols) : (drained b t rm i).1 < 256 ^ 4 := by
  rw [drained_value hi]
  split
  · decide
  · exact lt_of_lt_of_le (roundUnits_lt fits_f32 rm 0 false _ _) (by decide)

/-- One row. -/
theorem drainLine_plain (hr : rm ≠ .sr) (rw_ : Nat → Nat) (i : Nat) :
    (drainLine 0 rm false (b.tileNow t).nf rw_ ((List.range t.cols).map (fun j =>
      ((((b.accAll t)[i * t.cols + j]?).map (fun w => w.1.toInt * 2 ^ 37)).getD 0 + 0, i * t.cols + j)))).1 =
      (List.range t.cols).flatMap (fun j => leBytes 4 (drained b t rm (i * t.cols + j)).1) := by
  have hsr : (rm == .sr) = false := beq_eq_false_iff_ne.mpr hr
  dsimp only [drainLine, drainT, drainSize]
  rw [List.map_map, List.flatMap_map]
  simp only [Function.comp, hsr, Bool.false_eq_true, if_false]
  rfl

theorem takeLocs_one (l : Loc) (n : Nat) : takeLocs [(l, n)] n = if n = 0 then [] else [(l, n)] := by
  rw [takeLocs, Nat.min_self]
  rfl

theorem opWrite_none (s : State) (o : Op) (d : List Byte) : s.opWrite o [] d = s := rfl

theorem opWrite_all {d : List Byte} (hd : s.downIn pa d.length = none) :
    (s.seeOvf o.blk t (readOf b t)).2.opWrite o (takeLocs [(.mem pa, d.length)] d.length) d = storedTile s o b t pa d := by
  rw [takeLocs_one]
  split
  · have hnil : d = [] := List.eq_nil_of_length_eq_zero ‹_›
    rw [hnil, opWrite_none]
    rfl
  · exact opWrite_stored hd

/-- The rows of the copy. -/
def plainLines (b : Block) (t : Tile) (rm : RMode) : List (List Byte × List Byte × Bool) :=
  ((List.range t.rows).map (fun i => drainLine 0 rm false (b.tileNow t).nf (srHash 0 0 0) ((List.range t.cols).map (fun j =>
    ((((b.accAll t)[i * t.cols + j]?).map (fun w => w.1.toInt * 2 ^ 37)).getD 0 + 0, i * t.cols + j))))).take t.rows

theorem plainLines_bytes (hr : rm ≠ .sr) : (plainLines b t rm).flatMap (·.1) = drainedBytes b t rm := by
  rw [plainLines, List.take_of_length_le (by rw [List.length_map, List.length_range]), List.flatMap_map, drainedBytes, ← flatMap_rows]
  simp only [drainLine_plain hr]

/-- The drain writes its main copy and makes at most its records. -/
theorem doDrain_plain (h : TileOp s o b t) (he : o.early = false) {locs : List (Loc × Nat)}
    (hk : o.kind = .zdrain t z plainDrain rm [locs, [], [], [], []]) :
    ∃ p q, s.doDrain o none = some ((withRecords o p q ((s.seeOvf o.blk t (readOf b t)).2.opWrite o
      (takeLocs locs ((plainLines b t rm).flatMap (·.1)).length) ((plainLines b t rm).flatMap (·.1)))).leaveOp o) := by
  rw [State.doDrain, hk]
  dsimp only
  rw [he, tileRead_settled h.blk h.settled]
  exact ⟨_, _, rfl⟩

theorem complete_zdrain (h : TileOp s o b t) (he : o.early = false)
    (hk : o.kind = .zdrain t z plainDrain rm [[(.mem pa, 4 * (t.rows * t.cols))], [], [], [], []]) (hr : rm ≠ .sr)
    (hd : s.downIn pa (4 * (t.rows * t.cols)) = none) :
    s.complete o = some ((storedTile s o b t pa (drainedBytes b t rm)).dropOp o) := by
  rw [← length_drainedBytes (b := b) (t := t) (rm := rm)] at hd hk
  have hz : s.doDrain o none = some ((storedTile s o b t pa (drainedBytes b t rm)).dropOp o) := by
    obtain ⟨p, q, hpq⟩ := doDrain_plain h he hk
    rw [hpq, plainLines_bytes hr, opWrite_all hd, h.leaves]
  exact (h.clears (r := s.doDrain o none) (by rw [State.complete, hk])).trans hz

theorem zdrain_performed (h : TileOp s o b t) (he : o.early = false)
    (hk : o.kind = .zdrain t z plainDrain rm [[(.mem pa, 4 * (t.rows * t.cols))], [], [], [], []]) (hr : rm ≠ .sr)
    (hd : s.downIn pa (4 * (t.rows * t.cols)) = none) :
    ∃ u, exec (.tokenClear o.id) s = .next u ∧ OpGone s u o.id ∧
      (∀ i, i < t.rows * t.cols → leNat (bytesAt (seen u o.core) (pa + 4 * i) 4) = if (b.tileNow t).nf = true then 0x7FC0_0000
        else (roundUnits FFmt.f32 rm 0 false ((b.accGet (t.base + i)).1.toInt * 2 ^ 37) 149).1) ∧
      ∀ a, ¬(pa ≤ a ∧ a < pa + 4 * (t.rows * t.cols)) → seen u o.core a = seen s o.core a := by
  obtain ⟨u, b', hu, hgone, -, -, hseen⟩ := h.performed (complete_zdrain h he hk hr hd) (stored_ops pa _) (h.stored_bare pa _)
  have hs (a : Nat) := (hseen a).trans (h.stored_seen pa (drainedBytes b t rm) a)
  have hin : ∀ a, pa ≤ a → a < pa + (drainedBytes b t rm).length → seen u o.core a = ((drainedBytes b t rm)[a - pa]?).getD 0 :=
    fun a h1 h2 => (hs a).trans (if_pos ⟨h1, h2⟩)
  refine ⟨u, hu, hgone, fun i hi => ?_, fun a ha => ?_⟩
  · have hword := flatMap_chunk (f := fun i => leBytes 4 (drained b t rm i).1) (fun i => length_leBytes 4 _) [] (range_get hi)
    rw [List.append_nil] at hword
    rw [bytesAt_list (f := seen u o.core) hin (i := 4 * i) (k := 4) (by rw [length_drainedBytes]; omega), drainedBytes, hword,
      leNat_leBytes, Nat.mod_eq_of_lt (drained_lt hi), drained_value hi]
  · rw [hs, length_drainedBytes, if_neg ha]

end Drain

end Sys2Proof.Safety
end

section
/-! PROOF. `quant`: its descriptor read at issue, its blocks of 32, its local writes (R88, R89, R288, R306). -/

namespace Sys2Proof.Safety

open Sys2Proof Sys2Proof.Machine

/-! A local descriptor read at issue (R288). -/

section Desc
variable {s : State} {e : Env} {a n : Nat}

/-- The pieces of a range lie in it. -/
theorem cutAt_within {u : Nat} (hu : 0 < u) : ∀ (fuel a n : Nat) (p : Nat × Nat), p ∈ cutAt u fuel a n → a ≤ p.1 ∧ p.1 < a + n
  | 0, _, _, _, h => nomatch h
  | fuel + 1, a, n, p, h => by
    have hmod := Nat.mod_lt a hu
    rw [cutAt] at h
    split at h
    · cases h
    · obtain rfl | h := List.mem_cons.mp h
      · exact ⟨Nat.le_refl _, by dsimp only; omega⟩
      · obtain ⟨h1, h2⟩ := cutAt_within hu fuel _ _ p h
        omega

/-- Every line that a range touches is that of an address in it. -/
theorem linesOf_mem {j l : Nat} (h : l ∈ linesOf [(j, a)] n) : ∃ i, i < n ∧ l = (a + i) / 128 := by
  rw [linesOf, List.mem_eraseDups, List.flatMap_singleton, List.mem_map] at h
  obtain ⟨p, hp, rfl⟩ := h
  obtain ⟨h1, h2⟩ := cutAt_within (by decide) _ _ _ p hp
  exact ⟨p.1 - a, by omega, by rw [Nat.add_sub_cancel' h1]⟩

/-- A range of bytes with a store laid over it. -/
theorem overlay_bytesAt (f : Nat → Byte) (pa : Nat) (d : List Byte) : overlay a (bytesAt f a n) pa d =
    bytesAt (fun y => if pa ≤ y ∧ y < pa + d.length then (d[y - pa]?).getD (f y) else f y) a n := by
  refine List.ext_getElem? fun i => ?_
  unfold overlay bytesAt
  rw [List.getElem?_map, List.getElem?_zipIdx, List.getElem?_map, List.getElem?_map, Option.map_map, Option.map_map]
  by_cases hi : i < n
  · rw [List.getElem?_range hi]
    simp only [Option.map_some, Function.comp, Nat.zero_add]
  · rw [List.getElem?_eq_none (by simpa using hi)]
    rfl

/-- A local byte as the loads of a spindle see it (R156). -/
theorem lread_own (hb : s.blk e.b.uid = some e.b) (m : Nat) :
    e.b.lread m a n = bytesAt (fun a => (ownByte s e.b.uid m a).getD 0) a n := by
  have h : ∀ (l : List LateStl) (f : Nat → Byte),
      l.foldl (fun d x => overlay a d x.addr x.data) (bytesAt f a n) = bytesAt (fun y => l.foldl (fun old x =>
        if x.addr ≤ y ∧ y < x.addr + x.data.length then (x.data[y - x.addr]?).getD old else old) (f y)) a n := by
    intro l
    induction l with
    | nil => exact fun f => rfl
    | cons x r ih =>
      intro f
      rw [List.foldl_cons, overlay_bytesAt]
      exact ih _
  rw [Block.lread, Block.lbytes, h]
  simp only [ownByte, hb, Option.map_some, Option.getD_some]

theorem withDesc_present {f : State → List Byte → State} (hb : s.blk e.b.uid = some e.b) (hl : a + n ≤ e.b.lsize)
    (hp : ∀ i, i < n → e.b.present ((a + i) / 128) = true) :
    s.withDesc e a n f = f s (bytesAt (fun a => (ownByte s e.b.uid e.sp.m a).getD 0) a n) := by
  have hpres : ∀ x ∈ linesOf [(e.low, a)] n, e.b.present x = true := fun x hx => by
    obtain ⟨i, hi, rfl⟩ := linesOf_mem hx
    exact hp i hi
  have hun : e.b.unfilled (linesOf [(e.low, a)] n) = [] := by
    rw [Block.unfilled, List.filter_eq_nil_iff.mpr fun x hx => by simp [hpres x hx]]
    rfl
  have hfills : s.fillsOk e [(e.low, a)] n = .ok [] := by
    have hf : [(e.low, a)].filter (fun x => x.1 == e.low) = [(e.low, a)] := by simp
    rw [State.fillsOk]
    simp only [List.map_cons, List.map_nil, checkSlots, hf, hun]
    rfl
  have hmiss : (linesOf [(e.low, a)] n).filter (fun x => !e.b.present x) = [] :=
    List.filter_eq_nil_iff.mpr fun x hx => by simp [hpres x hx]
  rw [State.withDesc, Env.localOk, if_pos hl]
  dsimp only
  rw [hfills]
  dsimp only
  rw [hmiss, List.isEmpty_nil, if_pos rfl, lread_own hb]

end Desc

/-- R306: `quant` issues. -/
theorem quant_issues {s : State} {e : Env} {z : Option (BitVec 4)} {desc fw : Sel} {q : QuantD} {rm : RMode} (h : s.env = some e)
    (hrm : fwMode (e.read32 fw e.low) = some rm) (ha : (e.readU desc).toNat % 64 = 0) (hl : (e.readU desc).toNat + 64 ≤ e.b.lsize)
    (hp : ∀ i, i < 64 → e.b.present (((e.readU desc).toNat + i) / 128) = true)
    (hq : quantDesc (bytesAt (fun a => (ownByte s e.b.uid e.sp.m a).getD 0) (e.readU desc).toNat 64) (z.bind (fun z => e.b.tile z))
      z.isSome = some q) (hr : ∀ r ∈ q.reads ++ q.writes, r.1 + r.2 ≤ e.b.lsize) :
    ∃ t, exec (.quant z desc fw) s = .next t ∧
      Queued s t e (.quant (z.bind (fun z => e.b.tile z)) ((z.map (·.toNat)).getD 0) q rm)
        (((z.bind (fun z => e.b.tile z)).map (fun t => e.b.mmaOver t)).getD false || s.opndOver e.b q.reads) := by
  obtain ⟨-, hb, -, -⟩ := env_found h
  have hfind : (q.reads ++ q.writes).find? (fun r => decide (e.b.lsize < r.1 + r.2)) = none :=
    List.find?_eq_none.mpr fun r hm => by simpa using hr r hm
  have hexec : exec (.quant z desc fw) s = .next (s.addTile e (z.bind (fun z => e.b.tile z)) q.reads
      (.quant (z.bind (fun z => e.b.tile z)) ((z.map (·.toNat)).getD 0) q rm)) := by
    change execQuant z desc fw s = _
    rw [execQuant, within_env h, hrm]
    dsimp only
    rw [ha]
    simp only [bne_self_eq_false, Bool.false_eq_true, if_false]
    rw [withDesc_present hb hl hp, hq]
    dsimp only
    rw [hfind]
  exact ⟨_, hexec, rfl⟩

/-! Local writes one after another. -/

/-- The writes made in order. -/
def lwrites (l : List (Nat × List Byte)) (b : Block) : Block := l.foldl (fun b w => b.lwrite w.1 w.2) b

/-- A write reaches a byte. -/
def reaches (w : Nat × List Byte) (a : Nat) : Prop := w.1 ≤ a ∧ a < w.1 + w.2.length

section Writes
variable {a : Nat} {v : Byte}

theorem lbyte_lwrites_miss : ∀ (l : List (Nat × List Byte)) (b : Block), (∀ w ∈ l, ¬reaches w a) → (lwrites l b).lbyte a = b.lbyte a
  | [], _, _ => rfl
  | w :: r, b, h => by
    have hw : ¬(w.1 ≤ a ∧ a < w.1 + w.2.length) := h w List.mem_cons_self
    exact (lbyte_lwrites_miss r _ fun x hx => h x (List.mem_cons_of_mem _ hx)).trans ((lbyte_lwrite b w.1 w.2 a).trans (if_neg hw))

/-- A byte that some write reaches, and all that reach it agree on. -/
theorem lbyte_lwrites_hit : ∀ (l : List (Nat × List Byte)) (b : Block), (∃ w ∈ l, reaches w a) →
    (∀ w ∈ l, reaches w a → w.2[a - w.1]? = some v) → (lwrites l b).lbyte a = v
  | [], _, ⟨_, h, _⟩, _ => nomatch h
  | w :: r, b, h, hv => by
    by_cases hr : ∃ x ∈ r, reaches x a
    · exact lbyte_lwrites_hit r _ hr fun x hx => hv x (List.mem_cons_of_mem _ hx)
    · have hw : w.1 ≤ a ∧ a < w.1 + w.2.length := by
        obtain ⟨x, hx, hxa⟩ := h
        obtain rfl | hx := List.mem_cons.mp hx
        · exact hxa
        · exact absurd ⟨x, hx, hxa⟩ hr
      refine (lbyte_lwrites_miss r _ fun x hx hxa => hr ⟨x, hx, hxa⟩).trans ((lbyte_lwrite b w.1 w.2 a).trans ?_)
      rw [if_pos hw, hv w List.mem_cons_self hw, Option.getD_some]

/-- Local writes change local bytes alone, and the stash lines marked as written. -/
theorem lwrites_else (l : List (Nat × List Byte)) (b : Block) : { lwrites l b with lmem := [], dirty := [] } = { b with lmem := [], dirty := [] } := by
  induction l generalizing b with
  | nil => rfl
  | cons w r ih => exact ih _

end Writes

/-! Blocks of 32. -/

section Blocks
variable {α β : Type}

theorem blocks32_eq : ∀ (fuel : Nat) (l : List α), l.length ≤ fuel →
    blocks32 fuel l = (List.range ((l.length + 31) / 32)).map (fun k => (l.drop (32 * k)).take 32)
  | 0, l, h => by
    have h0 : (l.length + 31) / 32 = 0 := by omega
    rw [h0]
    rfl
  | fuel + 1, l, h => by
    rw [blocks32]
    cases l with
    | nil =>
      have h0 : (([] : List α).length + 31) / 32 = 0 := by simp
      rw [h0]
      rfl
    | cons x r =>
      have hlen : ((x :: r).drop 32).length ≤ fuel := by rw [List.length_drop]; rw [List.length_cons] at *; omega
      have hcount : ((x :: r).length + 31) / 32 = (((x :: r).drop 32).length + 31) / 32 + 1 := by
        rw [List.length_drop]; rw [List.length_cons]; omega
      rw [List.isEmpty_cons, if_neg Bool.false_ne_true, blocks32_eq fuel _ hlen, hcount, List.range_succ_eq_map, List.map_cons,
        List.map_map, Nat.mul_zero, List.drop_zero]
      refine congrArg _ (List.map_congr_left fun k _ => ?_)
      rw [List.drop_drop, Function.comp, Nat.mul_succ, Nat.add_comm]

/-- The elements block by block, each worked on with its block. -/
theorem blocks32_flat (g : List α → α → β) : ∀ (fuel : Nat) (l : List α) (j : Nat), l.length ≤ fuel →
    ((blocks32 fuel l).flatMap (fun b => b.map (g b)))[j]? = (l[j]?).map (g ((l.drop (32 * (j / 32))).take 32))
  | 0, l, j, h => by rw [List.eq_nil_of_length_eq_zero (Nat.le_zero.mp h)]; rfl
  | fuel + 1, l, j, h => by
    rw [blocks32]
    cases l with
    | nil => rfl
    | cons x r =>
      generalize hl : x :: r = l at *
      have hne : l.isEmpty = false := by rw [← hl]; rfl
      have hlen : (l.drop 32).length ≤ fuel := by rw [← hl, List.length_drop]; rw [← hl] at h; rw [List.length_cons] at *; omega
      rw [hne, if_neg Bool.false_ne_true, List.flatMap_cons]
      by_cases hj : j < 32
      · have hdiv : j / 32 = 0 := Nat.div_eq_of_lt hj
        rw [hdiv, Nat.mul_zero, List.drop_zero]
        by_cases hjl : j < l.length
        · rw [List.getElem?_append_left (by rw [List.length_map, List.length_take]; omega), List.getElem?_map, List.getElem?_take_of_lt hj]
        · have hnil : l.drop 32 = [] := List.drop_eq_nil_of_le (by omega)
          have hb : blocks32 fuel (l.drop 32) = [] := by rw [hnil]; cases fuel <;> rfl
          rw [hb, List.flatMap_nil, List.append_nil, List.getElem?_map, List.getElem?_take_of_lt hj]
      · have hstep : j / 32 = (j - 32) / 32 + 1 := by omega
        have hget : l[j]? = (l.drop 32)[j - 32]? := by rw [List.getElem?_drop, Nat.add_sub_cancel' (by omega)]
        have hih := blocks32_flat g fuel (l.drop 32) (j - 32) hlen
        rw [List.drop_drop, Nat.add_comm 32, ← Nat.mul_succ] at hih
        by_cases hjl : 32 ≤ l.length
        · have htake : ((l.take 32).map (g (l.take 32))).length = 32 := by rw [List.length_map, List.length_take]; omega
          rw [List.getElem?_append_right (by omega), htake, hih, hstep, hget]
        · have hnil : l.drop 32 = [] := List.drop_eq_nil_of_le (by omega)
          have hb : blocks32 fuel (l.drop 32) = [] := by rw [hnil]; cases fuel <;> rfl
          rw [hb, List.flatMap_nil, List.append_nil, List.getElem?_map, List.getElem?_eq_none (by rw [List.length_take]; omega),
            List.getElem?_eq_none (by omega)]
          rfl

/-- The columns of a block. -/
theorem range_block (n k : Nat) : ((List.range n).drop (32 * k)).take 32 = (List.range n).filter (fun j => j / 32 == k) := by
  have hmid : ((List.range n).drop (32 * k)).take 32 = (List.range (min 32 (n - 32 * k))).map (32 * k + ·) := by
    rw [List.range_eq_range', List.drop_range', List.range'_eq_map_range, ← List.map_take, List.take_range, Nat.zero_add, Nat.mul_one]
  have hlow : ((List.range n).take (32 * k)).filter (fun j => j / 32 == k) = [] := List.filter_eq_nil_iff.mpr fun j hj => by
    rw [List.take_range, List.mem_range] at hj
    rw [beq_iff_eq]
    omega
  have hhigh : (((List.range n).drop (32 * k)).drop 32).filter (fun j => j / 32 == k) = [] := List.filter_eq_nil_iff.mpr fun j hj => by
    rw [List.range_eq_range', List.drop_range', List.drop_range', List.mem_range'_1] at hj
    rw [beq_iff_eq]
    omega
  have hself : (((List.range n).drop (32 * k)).take 32).filter (fun j => j / 32 == k) = ((List.range n).drop (32 * k)).take 32 :=
    List.filter_eq_self.mpr fun j hj => by
      rw [hmid, List.mem_map] at hj
      obtain ⟨i, hi, rfl⟩ := hj
      rw [List.mem_range] at hi
      rw [beq_iff_eq]
      omega
  conv_rhs => rw [← List.take_append_drop (32 * k) (List.range n), ← List.take_append_drop 32 ((List.range n).drop (32 * k))]
  rw [List.filter_append, List.filter_append, hlow, hhigh, hself, List.nil_append, List.append_nil]

end Blocks

end Sys2Proof.Safety
end

section
/-! PROOF. `quant` performed: a row-blocked copy of a local array (R88, R89, R306). -/

namespace Sys2Proof.Safety

open Sys2Proof Sys2Proof.Machine

/-! What a copy writes. -/

section Copy
variable {α β : Type}

/-- The writes of one line: its elements, then its scale bytes. -/
def lineWrites (size : Nat) (place scale : Nat → Nat → Nat) (l : List (Nat × List Nat × Bool) × Nat) : List (Nat × List Byte) :=
  (l.1.flatMap (fun p => p.2.1)).zipIdx.map (fun x => (place l.2 x.2, leBytes size x.1)) ++
    l.1.zipIdx.map (fun p => (scale l.2 p.2, [BitVec.ofNat 8 p.1.1]))

theorem putQuant_lwrites (b : Block) (size : Nat) (place scale : Nat → Nat → Nat) (lines : List (List (Nat × List Nat × Bool))) :
    b.putQuant size place scale lines = lwrites (lines.zipIdx.flatMap (lineWrites size place scale)) b := by
  rw [lwrites, List.foldl_flatMap, Block.putQuant]
  refine congrArg (fun f => lines.zipIdx.foldl f b) (funext fun c => funext fun l => ?_)
  rw [lineWrites, List.foldl_append, List.foldl_map, List.foldl_map]

theorem zipIdx_map_range (n : Nat) (f : Nat → α) (g : α × Nat → β) :
    ((List.range n).map f).zipIdx.map g = (List.range n).map (fun j => g (f j, j)) := by
  refine List.ext_getElem? fun j => ?_
  rw [List.getElem?_map, List.getElem?_zipIdx, List.getElem?_map, List.getElem?_map, Nat.zero_add]
  by_cases hj : j < n
  · rw [range_get hj]
    rfl
  · rw [List.getElem?_eq_none (by simpa using hj)]
    rfl

end Copy

section Row
variable (q : QuantD) (rm : RMode) (b : Block)

/-- A source element in units of 2^−149, none for an infinity or a NaN. -/
def srcVal (i j : Nat) : Option Int :=
  (FFmt.f32.decode (leNat (b.lbytes (q.srcaddr + i * q.srcpitch + j * 4) 4))).exact.map (fun x => x.units 149)

/-- A row of them, each with its number, and its blocks. -/
def srcRow (i : Nat) : List (Option Int × Nat) := (List.range q.cols).map (fun j => (srcVal q b i j, i * q.cols + j))
def srcBlock (i k : Nat) : List (Option Int × Nat) := ((srcRow q b i).drop (32 * k)).take 32

/-- An element of the copy. -/
def copyElem (blk : List (Option Int × Nat)) (x : Option Int × Nat) : Nat :=
  if blk.any (fun x => x.1.isNone) then ((drainFmt q.dfmt).getD FFmt.f16).canon
  else (drainElem q.dfmt rm false false (if rm == .sr then srHash q.seed q.row0 q.col0 x.2 else 0) (x.1.getD 0)
    (149 + (blockExp ((drainT q.dfmt).getD 14) (maxAbs (blk.map (fun x => x.1.getD 0))) 149 : Int) - 32)).1

/-- The lines of the copy. -/
def copyLines : List (List (Nat × List Nat × Bool)) :=
  (List.range q.rows).map (fun i => (blocks32 (srcRow q b i).length (srcRow q b i)).map (quantBlock q rm))

theorem quantBlock_elems (blk : List (Option Int × Nat)) : (quantBlock q rm blk).2.1 = blk.map (copyElem q rm blk) := by
  unfold quantBlock copyElem
  split
  · rfl
  · dsimp only
    rw [List.map_map]
    rfl

theorem length_srcRow (i : Nat) : (srcRow q b i).length = q.cols := by rw [srcRow, List.length_map, List.length_range]

theorem copy_elem {i j : Nat} (hj : j < q.cols) :
    (((blocks32 (srcRow q b i).length (srcRow q b i)).map (quantBlock q rm)).flatMap (fun p => p.2.1))[j]? =
      some (copyElem q rm (srcBlock q b i (j / 32)) (srcVal q b i j, i * q.cols + j)) := by
  rw [List.flatMap_map]
  simp only [quantBlock_elems]
  rw [blocks32_flat (copyElem q rm) _ _ _ (Nat.le_refl _), ← srcBlock, srcRow, List.getElem?_map, range_get hj]
  rfl

theorem copy_elem_none {i j : Nat} (hj : q.cols ≤ j) :
    (((blocks32 (srcRow q b i).length (srcRow q b i)).map (quantBlock q rm)).flatMap (fun p => p.2.1))[j]? = none := by
  rw [List.flatMap_map]
  simp only [quantBlock_elems]
  rw [blocks32_flat (copyElem q rm) _ _ _ (Nat.le_refl _), List.getElem?_eq_none (by rw [length_srcRow]; exact hj)]
  rfl

theorem copy_block {i k : Nat} : ((blocks32 (srcRow q b i).length (srcRow q b i)).map (quantBlock q rm))[k]? =
    if k < (q.cols + 31) / 32 then some (quantBlock q rm (srcBlock q b i k)) else none := by
  rw [blocks32_eq _ _ (Nat.le_refl _), length_srcRow, List.map_map, List.getElem?_map]
  split
  · rw [range_get ‹_›]
    rfl
  · rw [List.getElem?_eq_none (by rw [List.length_range]; omega)]
    rfl

/-- Every write of the copy: an element or a scale byte. -/
theorem mem_copyWrites {size : Nat} {place scale : Nat → Nat → Nat} {w : Nat × List Byte} :
    w ∈ (copyLines q rm b).zipIdx.flatMap (lineWrites size place scale) ↔ ∃ i, i < q.rows ∧
      ((∃ j, j < q.cols ∧ w = (place i j, leBytes size (copyElem q rm (srcBlock q b i (j / 32)) (srcVal q b i j, i * q.cols + j)))) ∨
        ∃ k, k < (q.cols + 31) / 32 ∧ w = (scale i k, [BitVec.ofNat 8 (quantBlock q rm (srcBlock q b i k)).1])) := by
  have hline {l : List (Nat × List Nat × Bool)} {i : Nat} : (l, i) ∈ (copyLines q rm b).zipIdx ↔
      i < q.rows ∧ l = (blocks32 (srcRow q b i).length (srcRow q b i)).map (quantBlock q rm) := by
    rw [List.mem_zipIdx_iff_getElem?, copyLines, List.getElem?_map]
    by_cases hi : i < q.rows
    · rw [range_get hi, Option.map_some, Option.some_inj]
      exact ⟨fun h => ⟨hi, h.symm⟩, fun h => h.2.symm⟩
    · rw [List.getElem?_eq_none (by simpa using hi)]
      exact ⟨fun h => (nomatch h), fun h => absurd h.1 hi⟩
  rw [List.mem_flatMap]
  constructor
  · rintro ⟨⟨l, i⟩, hl, hw⟩
    obtain ⟨hi, rfl⟩ := hline.mp hl
    refine ⟨i, hi, ?_⟩
    rw [lineWrites, List.mem_append, List.mem_map, List.mem_map] at hw
    obtain ⟨⟨x, j⟩, hx, rfl⟩ | ⟨⟨p, k⟩, hp, rfl⟩ := hw
    · rw [List.mem_zipIdx_iff_getElem?] at hx
      by_cases hj : j < q.cols
      · rw [copy_elem q rm b hj, Option.some_inj] at hx
        exact .inl ⟨j, hj, by rw [hx]⟩
      · rw [copy_elem_none q rm b (Nat.le_of_not_lt hj)] at hx
        cases hx
    · rw [List.mem_zipIdx_iff_getElem?, copy_block] at hp
      split at hp
      · rw [Option.some_inj] at hp
        exact .inr ⟨k, ‹_›, by rw [hp]⟩
      · cases hp
  · rintro ⟨i, hi, hw⟩
    refine ⟨_, hline.mpr ⟨hi, rfl⟩, ?_⟩
    rw [lineWrites, List.mem_append, List.mem_map, List.mem_map]
    obtain ⟨j, hj, rfl⟩ | ⟨k, hk, rfl⟩ := hw
    · exact .inl ⟨(_, j), List.mem_zipIdx_iff_getElem?.mpr (copy_elem q rm b hj), rfl⟩
    · exact .inr ⟨(_, k), List.mem_zipIdx_iff_getElem?.mpr ((copy_block q rm b).trans (if_pos hk)), rfl⟩

end Row

/-! The operation. -/

section Performed
variable {s : State} {o : Op} {b : Block} {q : QuantD} {rm : RMode}

/-- The place of an element and of a scale byte of the row-blocked copy. -/
def rowPitch (q : QuantD) : Nat := (q.cols * drainSize q.dfmt + 15) / 16 * 16
def rowScales (q : QuantD) : Nat := (q.rows * rowPitch q + 127) / 128 * 128
def rowPlace (q : QuantD) (i j : Nat) : Nat := q.raddr + i * rowPitch q + j * drainSize q.dfmt
def rowScale (q : QuantD) (i k : Nat) : Nat := q.raddr + rowScales q + i * ((q.cols + 31) / 32) + k

/-- The block once the copy is written. -/
def copied (q : QuantD) (rm : RMode) (src c : Block) : Block :=
  (q.writes.foldl (fun b r => b.seenAll r.1 r.2) c).putQuant (drainSize q.dfmt) (rowPlace q) (rowScale q) (copyLines q rm src)

theorem seenAlls_else (l : List (Nat × Nat)) (b : Block) : { l.foldl (fun b r => b.seenAll r.1 r.2) b with unseen := [] } = { b with unseen := [] } := by
  induction l generalizing b with
  | nil => rfl
  | cons w r ih => exact ih _

/-- The copy changes local bytes, the stash lines marked as written, and what an `mma` may still read of the old bytes. -/
theorem copied_else (src c : Block) :
    { copied q rm src c with lmem := [], dirty := [], unseen := [] } = { c with lmem := [], dirty := [], unseen := [] } := by
  have h1 := lwrites_else ((copyLines q rm src).zipIdx.flatMap (lineWrites (drainSize q.dfmt) (rowPlace q) (rowScale q)))
    (q.writes.foldl (fun b r => b.seenAll r.1 r.2) c)
  have h2 := seenAlls_else q.writes c
  rw [← putQuant_lwrites] at h1
  exact (congrArg (fun b : Block => { b with unseen := [] }) h1 :).trans (congrArg (fun b : Block => { b with lmem := [], dirty := [] }) h2 :)

theorem doQuant_eq (hk : o.kind = .quant none 0 q rm) (hb : s.blk o.blk = some b) (hp : b.allPresent q.reads = true)
    (h16 : q.sbf16 = false) (hr : q.rcopy = true) (hc : q.ccopy = false) (he : o.early = false) (ho : s.opndOver b q.reads = false)
    (hm : s.mmaReads o.blk q.reads = false) (hu : Unlogged s o) :
    s.doQuant o none = some ((s.updBlk o.blk (copied q rm b)).dropOp o) := by
  have hlog (c : Nat) : (s.updBlk o.blk (copied q rm b)).logOp o c = s.updBlk o.blk (copied q rm b) :=
    logOp_unlogged (s := s.updBlk o.blk (copied q rm b)) hu c
  have hrows : s.quantSource o b none q = ((List.range q.rows).map (fun i => (List.range q.cols).map (srcVal q b i)), false, false, s) := by
    simp only [State.quantSource, he, ho, hm, Bool.or_false, Bool.false_eq_true, if_false, QuantD.srcSize, h16]
    rfl
  have hmarked : ((List.range q.rows).map (fun i => (List.range q.cols).map (srcVal q b i))).zipIdx.map
      (fun r => r.1.zipIdx.map (fun x => (x.1, r.2 * q.cols + x.2))) = (List.range q.rows).map (srcRow q b) := by
    rw [zipIdx_map_range]
    refine List.map_congr_left fun i _ => ?_
    rw [zipIdx_map_range]
    rfl
  have hbyRow : (((List.range q.rows).map (srcRow q b)).map (fun r => (blocks32 r.length r).map (quantBlock q rm))).take q.rows =
      copyLines q rm b := by
    rw [List.take_of_length_le (by rw [List.length_map, List.length_map, List.length_range]), List.map_map]
    rfl
  unfold State.doQuant
  rw [hk, hb]
  dsimp only
  rw [hp, hrows]
  dsimp only
  rw [hmarked, hr, hc, if_pos rfl, Option.getD_none, hbyRow]
  have hone (x y : Bool) (w : State) (hw : ∀ c, w.logOp o c = w) :
      (if x then (if y then w.logOp o 0x10 else w).logOp o 0x13 else (if y then w.logOp o 0x10 else w)) = w := by
    rw [hw, ite_self, hw, ite_self]
  exact congrArg (fun w : State => some (w.dropOp o)) (hone _ _ _ hlog)

/-! Where the copy lies. -/

theorem digits_unique {p i j u v : Nat} (hu : u < p) (hv : v < p) (h : i * p + u = j * p + v) : i = j ∧ u = v := by
  have hdiv (a b : Nat) (hb : b < p) : (a * p + b) / p = a := by
    rw [Nat.mul_comm, Nat.mul_add_div (Nat.zero_lt_of_lt hb), Nat.div_eq_of_lt hb, Nat.add_zero]
  have hij : i = j := by rw [← hdiv i u hu, h, hdiv j v hv]
  subst hij
  exact ⟨rfl, Nat.add_left_cancel h⟩

section Places
variable {i j k x : Nat}

theorem row_fits (hj : j < q.cols) (hx : x < drainSize q.dfmt) : j * drainSize q.dfmt + x < rowPitch q := by
  have h := add_lt_mul hj hx
  unfold rowPitch
  omega

/-- The elements lie before the scale bytes. -/
theorem place_low (hi : i < q.rows) (hj : j < q.cols) (hx : x < drainSize q.dfmt) :
    q.raddr ≤ rowPlace q i j + x ∧ rowPlace q i j + x < q.raddr + rowScales q := by
  have h := add_lt_mul hi (row_fits hj hx)
  unfold rowPlace rowScales
  omega

theorem scale_high (hi : i < q.rows) (hk : k < (q.cols + 31) / 32) :
    q.raddr + rowScales q ≤ rowScale q i k ∧ rowScale q i k < q.raddr + rowScales q + q.rows * ((q.cols + 31) / 32) := by
  have h := add_lt_mul hi hk
  unfold rowScale
  omega

theorem place_unique {i' j' x' : Nat} (hj : j < q.cols) (hx : x < drainSize q.dfmt) (hj' : j' < q.cols) (hx' : x' < drainSize q.dfmt)
    (h : rowPlace q i j + x = rowPlace q i' j' + x') : i = i' ∧ j = j' ∧ x = x' := by
  unfold rowPlace at h
  obtain ⟨rfl, h2⟩ := digits_unique (i := i) (j := i') (row_fits hj hx) (row_fits hj' hx') (by omega)
  obtain ⟨rfl, h3⟩ := digits_unique hx hx' h2
  exact ⟨rfl, rfl, h3⟩

theorem scale_unique {i' k' : Nat} (hk : k < (q.cols + 31) / 32) (hk' : k' < (q.cols + 31) / 32) (h : rowScale q i k = rowScale q i' k') :
    i = i' ∧ k = k' := by
  unfold rowScale at h
  exact digits_unique hk hk' (by omega)

/-- A write that reaches an element's byte is that element's. -/
theorem reaches_elem {w : Nat × List Byte} {b : Block} (hi : i < q.rows) (hj : j < q.cols) (hx : x < drainSize q.dfmt)
    (hw : w ∈ (copyLines q rm b).zipIdx.flatMap (lineWrites (drainSize q.dfmt) (rowPlace q) (rowScale q)))
    (hr : reaches w (rowPlace q i j + x)) :
    w = (rowPlace q i j, leBytes (drainSize q.dfmt) (copyElem q rm (srcBlock q b i (j / 32)) (srcVal q b i j, i * q.cols + j))) := by
  obtain ⟨i', hi', ⟨j', hj', rfl⟩ | ⟨k', hk', rfl⟩⟩ := (mem_copyWrites q rm b).mp hw
  · obtain ⟨h1, h2⟩ := hr
    rw [length_leBytes] at h2
    obtain ⟨rfl, rfl, -⟩ := place_unique (i := i) (i' := i') (j' := j') (x' := rowPlace q i j + x - rowPlace q i' j') hj hx hj' (by omega) (by omega)
    rfl
  · have h1 := hr.1
    have h2 := (scale_high hi' hk').1
    have h3 := (place_low hi hj hx).2
    dsimp only at h1
    omega

/-- A write that reaches a scale byte is its own. -/
theorem reaches_scale {w : Nat × List Byte} {b : Block} (hi : i < q.rows) (hk : k < (q.cols + 31) / 32)
    (hw : w ∈ (copyLines q rm b).zipIdx.flatMap (lineWrites (drainSize q.dfmt) (rowPlace q) (rowScale q)))
    (hr : reaches w (rowScale q i k)) : w = (rowScale q i k, [BitVec.ofNat 8 (quantBlock q rm (srcBlock q b i k)).1]) := by
  obtain ⟨i', hi', ⟨j', hj', rfl⟩ | ⟨k', hk', rfl⟩⟩ := (mem_copyWrites q rm b).mp hw
  · obtain ⟨h1, h2⟩ := hr
    rw [length_leBytes] at h2
    have h3 := (scale_high hi hk).1
    have h4 := (place_low (x := rowScale q i k - rowPlace q i' j') hi' hj' (by omega)).2
    dsimp only at h1
    omega
  · obtain ⟨h1, h2⟩ := hr
    rw [List.length_singleton] at h2
    obtain ⟨rfl, rfl⟩ := scale_unique (i := i') (i' := i) hk' hk (by dsimp only at h1; omega)
    rfl

theorem reaches_inside {w : Nat × List Byte} {b : Block} {a : Nat}
    (hw : w ∈ (copyLines q rm b).zipIdx.flatMap (lineWrites (drainSize q.dfmt) (rowPlace q) (rowScale q))) (hr : reaches w a) :
    q.raddr ≤ a ∧ a < q.raddr + rowScales q + q.rows * ((q.cols + 31) / 32) := by
  obtain ⟨i', hi', ⟨j', hj', rfl⟩ | ⟨k', hk', rfl⟩⟩ := (mem_copyWrites q rm b).mp hw
  · obtain ⟨h1, h2⟩ := hr
    rw [length_leBytes] at h2
    have h4 := place_low (x := a - rowPlace q i' j') hi' hj' (by omega)
    dsimp only at h1
    omega
  · obtain ⟨h1, h2⟩ := hr
    rw [List.length_singleton] at h2
    have h3 := scale_high hi' hk'
    dsimp only at h1
    omega

end Places

/-! What the block then holds. -/

section Holds
variable (b : Block) {i j k : Nat}

theorem copied_lbyte (c : Block) (a : Nat) : (copied q rm b c).lbyte a =
    (lwrites ((copyLines q rm b).zipIdx.flatMap (lineWrites (drainSize q.dfmt) (rowPlace q) (rowScale q)))
      (q.writes.foldl (fun b r => b.seenAll r.1 r.2) c)).lbyte a := by rw [copied, putQuant_lwrites]

theorem copied_scale (hi : i < q.rows) (hk : k < (q.cols + 31) / 32) :
    (copied q rm b b).lbyte (rowScale q i k) = BitVec.ofNat 8 (quantBlock q rm (srcBlock q b i k)).1 := by
  rw [copied_lbyte]
  refine lbyte_lwrites_hit _ _ ⟨_, (mem_copyWrites q rm b).mpr ⟨i, hi, .inr ⟨k, hk, rfl⟩⟩, Nat.le_refl _, Nat.lt_succ_self _⟩
    fun w hw hr => ?_
  rw [reaches_scale hi hk hw hr, Nat.sub_self]
  rfl

theorem copied_elem (hi : i < q.rows) (hj : j < q.cols) : (copied q rm b b).lbytes (rowPlace q i j) (drainSize q.dfmt) =
    leBytes (drainSize q.dfmt) (copyElem q rm (srcBlock q b i (j / 32)) (srcVal q b i j, i * q.cols + j)) := by
  generalize hd : leBytes (drainSize q.dfmt) (copyElem q rm (srcBlock q b i (j / 32)) (srcVal q b i j, i * q.cols + j)) = d
  have hlen : d.length = drainSize q.dfmt := by rw [← hd, length_leBytes]
  refine List.ext_getElem ((length_bytesAt _ _ _).trans hlen.symm) fun x h1 h2 => ?_
  have hx : x < drainSize q.dfmt := hlen ▸ h2
  have hbyte : (copied q rm b b).lbyte (rowPlace q i j + x) = d[x] := by
    rw [copied_lbyte]
    refine lbyte_lwrites_hit _ _ ⟨_, (mem_copyWrites q rm b).mpr ⟨i, hi, .inl ⟨j, hj, rfl⟩⟩, Nat.le_add_right _ _, ?_⟩ fun w hw hr => ?_
    · rw [length_leBytes]
      exact Nat.add_lt_add_left hx _
    · rw [reaches_elem hi hj hx hw hr, hd, Nat.add_sub_cancel_left]
      exact List.getElem?_eq_getElem h2
  simpa [Block.lbytes, bytesAt] using hbyte

theorem copied_outside {a : Nat} (ha : ¬(q.raddr ≤ a ∧ a < q.raddr + rowScales q + q.rows * ((q.cols + 31) / 32))) :
    (copied q rm b b).lbyte a = b.lbyte a := by
  rw [copied_lbyte, lbyte_lwrites_miss _ _ fun w hw hr => ha (reaches_inside hw hr)]
  have h := seenAlls_else q.writes b
  have hm : (q.writes.foldl (fun b r => b.seenAll r.1 r.2) b).lmem = b.lmem := (congrArg Block.lmem h :)
  have hu : (q.writes.foldl (fun b r => b.seenAll r.1 r.2) b).uid = b.uid := (congrArg Block.uid h :)
  rw [Block.lbyte, hm, hu, Block.lbyte]

/-- Presence bits and fills stay. -/
theorem copied_lines (line : Nat) : (copied q rm b b).present line = b.present line ∧ (copied q rm b b).fillCount line = b.fillCount line := by
  have h := copied_else (q := q) (rm := rm) b b
  have ha : (copied q rm b b).absent = b.absent := (congrArg Block.absent h :)
  have hf : (copied q rm b b).fills = b.fills := (congrArg Block.fills h :)
  rw [Block.present, Block.fillCount, ha, hf]
  exact ⟨rfl, rfl⟩

end Holds

end Performed

end Sys2Proof.Safety
end

section
/-! PROOF. Tiles move and arrays are quantised (R81, R84, R88, R89, R303 to R306). -/

namespace Sys2Proof.Safety

open Sys2Proof Sys2Proof.Machine

/-! The formats of a quantiser. -/

/-- What the format code of a quantiser says: E4M3, E5M2 or SF16. -/
structure QuantFormat (c : Nat) (F : FFmt) (size : Nat) (T : Int) : Prop where
  fmt : drainFmt c = some F
  bytes : drainSize c = size
  top : (drainT c).getD 14 = T
  fits : FitsFormat F
  width : 2 ^ (F.fbits + F.ebits + 1) = 256 ^ size
  canon : F.canon < 256 ^ size

theorem quantFormat {c : Nat} (h3 : 3 ≤ c) (h5 : c ≤ 5) :
    QuantFormat c (if c = 3 then FFmt.e4m3f else if c = 4 then FFmt.e5m2 else FFmt.f16) (if c = 5 then 2 else 1) (if c = 3 then 7 else 14) := by
  obtain rfl | rfl | rfl : c = 3 ∨ c = 4 ∨ c = 5 := by omega
  · exact ⟨rfl, rfl, rfl, fits_e4m3, rfl, by decide⟩
  · exact ⟨rfl, rfl, rfl, fits_e5m2, rfl, by decide⟩
  · exact ⟨rfl, rfl, rfl, fits_f16, rfl, by decide⟩

section Values
variable (q : QuantD) (rm : RMode) (b : Block) (i k : Nat)

/-- The columns of a block, whether its elements are all finite, and its exponent. -/
def blockCols : List Nat := (List.range q.cols).filter (fun j => j / 32 == k)
def wholeBlock : Bool := (blockCols q k).all (fun j => (srcVal q b i j).isSome)
def blockTop (T : Int) : Nat := blockExp T (((blockCols q k).map (fun j => ((srcVal q b i j).getD 0).natAbs)).foldl max 0) 149

theorem srcBlock_cols : srcBlock q b i k = (blockCols q k).map (fun j => (srcVal q b i j, i * q.cols + j)) := by
  rw [srcBlock, srcRow, ← List.map_drop, ← List.map_take, range_block]
  rfl

theorem srcBlock_missing : (srcBlock q b i k).any (fun x => x.1.isNone) = !wholeBlock q b i k := by
  rw [srcBlock_cols, List.any_map, wholeBlock, List.not_all_eq_any_not]
  refine congrArg (fun f => (blockCols q k).any f) (funext fun j => ?_)
  cases h : srcVal q b i j <;> simp [Function.comp, h]

theorem srcBlock_exp (T : Int) : blockExp T (maxAbs ((srcBlock q b i k).map (fun x => x.1.getD 0))) 149 = blockTop q b i k T := by
  rw [srcBlock_cols, maxAbs, List.map_map, List.map_map]
  rfl

variable {F : FFmt} {size : Nat} {T : Int} (hf : QuantFormat q.dfmt F size T)
include hf

theorem quantBlock_scale : (quantBlock q rm (srcBlock q b i k)).1 = if wholeBlock q b i k then blockTop q b i k T else 0x20 := by
  unfold quantBlock
  rw [srcBlock_missing]
  cases wholeBlock q b i k
  · rfl
  · dsimp only
    rw [hf.top, srcBlock_exp]
    rfl

theorem copyElem_value (hr : rm ≠ .sr) (x : Option Int × Nat) : copyElem q rm (srcBlock q b i k) x =
    if wholeBlock q b i k then (roundUnits F rm 0 false (x.1.getD 0) (149 + (blockTop q b i k T : Int) - 32)).1 else F.canon := by
  have hsr : (rm == .sr) = false := beq_eq_false_iff_ne.mpr hr
  unfold copyElem
  rw [srcBlock_missing, hf.fmt, hf.top, srcBlock_exp, drainElem_float hf.fmt, hsr]
  cases wholeBlock q b i k <;> rfl

theorem copyElem_lt (hr : rm ≠ .sr) (x : Option Int × Nat) : copyElem q rm (srcBlock q b i k) x < 256 ^ size := by
  rw [copyElem_value q rm b i k hf hr]
  split
  · exact lt_of_lt_of_eq (roundUnits_lt hf.fits rm 0 false _ _) hf.width
  · exact hf.canon

end Values

section Quant
variable {s : State} {o : Op} {b : Block} {q : QuantD} {rm : RMode}

theorem quant_performed (hpend : pending s o.id = some o) (hk : o.kind = .quant none 0 q rm) (hb : s.blk o.blk = some b)
    (hev : b.evicted = false) (hp : b.allPresent q.reads = true) (h16 : q.sbf16 = false) (hrc : q.rcopy = true) (hcc : q.ccopy = false)
    (he : o.early = false) (ho : s.opndOver b q.reads = false) (hm : s.mmaReads o.blk q.reads = false) (hun : s.unsent o = false)
    (hh : s.halting o.ctx = false) (hu : Unlogged s o) :
    ∃ t b', exec (.tokenClear o.id) s = .next t ∧ OpGone s t o.id ∧ t.blk o.blk = some b' ∧
      { b' with spindles := [] } = { copied q rm b b with spindles := [] } := by
  have hcomplete : s.complete o = some ((s.updBlk o.blk (copied q rm b)).dropOp o) := by
    rw [← doQuant_eq hk hb hp h16 hrc hcc he ho hm hu, State.complete, away_resident hb hev hh, hun, hk]
    rfl
  obtain ⟨u, hu, hgone, hleaves, -⟩ := execTokenClear_drop hpend hcomplete rfl
  have huid (c : Block) : (copied q rm b c).uid = c.uid := (congrArg Block.uid (copied_else (q := q) (rm := rm) b c) :)
  have hshell := hleaves.shells o.blk
  rw [shell, shell, blk_updBlk_same hb huid, Option.map_some] at hshell
  obtain ⟨b', hb', hbb⟩ := Option.map_eq_some_iff.mp hshell
  exact ⟨u, b', hu, hgone, hb', hbb⟩

end Quant

/-- Settles O30: a transfer reads or stores the tile's bytes in order, and nothing but the tile or those bytes changes;
`quant` writes each element and each scale byte at a place of its own. -/
theorem tileTransfers : Obligations.TileTransfers := by
  refine ⟨?_, ?_⟩
  · intro s o b tl z pa rm hpend hb hev hq ht hm he hun hh hu
    have h : TileOp s o b tl := ⟨hpend, hb, hev, hq, ht, hm, hun, hh, hu⟩
    exact ⟨fun hk => zst_performed h he hk, fun hk => zld_performed h hk, fun hk => zdrain_performed h he hk⟩
  · intro s e z desc fw q rm o b
    refine ⟨quant_issues, ?_⟩
    intro hpend hk hb hev hp hsrc h16 hrc hcc hrows hcols h3 h5 hr he ho hm hun hh hu
    obtain ⟨t, b', ht, hgone, hb', hbb⟩ := quant_performed hpend hk hb hev hp h16 hrc hcc he ho hm hun hh hu
    have hf := quantFormat h3 h5
    have hmem : b'.lmem = (copied q rm b b).lmem := (congrArg Block.lmem hbb :)
    have huid : b'.uid = (copied q rm b b).uid := (congrArg Block.uid hbb :)
    have habs : b'.absent = (copied q rm b b).absent := (congrArg Block.absent hbb :)
    have hfill : b'.fills = (copied q rm b b).fills := (congrArg Block.fills hbb :)
    have hbyte : b'.lbyte = (copied q rm b b).lbyte := funext fun a => by rw [Block.lbyte, hmem, huid, Block.lbyte]
    have hpitch : rowPitch q = (q.cols * (if q.dfmt = 5 then 2 else 1) + 15) / 16 * 16 := by rw [rowPitch, hf.bytes]
    refine ⟨t, b', ht, hgone, hb', fun line => ?_, fun i k hi hk => ?_, fun i j hi hj => ?_, fun a ha => ?_⟩
    · rw [Block.present, Block.fillCount, habs, hfill]
      exact copied_lines b line
    · rw [← hpitch, hbyte]
      refine (copied_scale b hi hk).trans ?_
      rw [quantBlock_scale q rm b i k hf]
      exact apply_ite (BitVec.ofNat 8) _ _ _
    · rw [← hpitch, ← hf.bytes, Block.lbytes, hbyte]
      refine (congrArg leNat (copied_elem b hi hj)).trans ?_
      rw [leNat_leBytes, hf.bytes, Nat.mod_eq_of_lt (copyElem_lt q rm b i (j / 32) hf hr _), copyElem_value q rm b i (j / 32) hf hr]
      rfl
    · rw [← hpitch] at ha
      rw [hbyte, copied_outside b ha]

end Sys2Proof.Safety
end

section
/-! PROOF. What a merge unit reads, and how a merge operation ends (R90, R164, R309 to R313). -/

namespace Sys2Proof.Safety

open Sys2Proof Sys2Proof.Machine

/-! Fields of bytes. -/

theorem leNat_append (a b : List Byte) : leNat (a ++ b) = leNat a + 256 ^ a.length * leNat b := by
  induction a with
  | nil => rw [List.nil_append, leNat, List.length_nil, Nat.pow_zero, Nat.zero_add, Nat.one_mul]
  | cons x r ih => rw [List.cons_append, leNat, ih, leNat, List.length_cons, Nat.pow_succ']; ring

theorem leNat_lt (a : List Byte) : leNat a < 256 ^ a.length := by
  induction a with
  | nil => exact Nat.one_pos
  | cons x r ih =>
    rw [leNat, List.length_cons, Nat.pow_succ']
    have := x.isLt
    omega

theorem bytesAt_split (f : Nat → Byte) (a m n : Nat) : bytesAt f a (m + n) = bytesAt f a m ++ bytesAt f (a + m) n := by
  simp only [bytesAt, List.range_add, List.map_append, List.map_map, Function.comp_def, Nat.add_assoc]

/-- The bytes from an offset on as a number. -/
theorem leNat_div (f : Nat → Byte) (a m n : Nat) : leNat (bytesAt f a (m + n)) / 256 ^ m = leNat (bytesAt f (a + m) n) := by
  have hlt := leNat_lt (bytesAt f a m)
  rw [length_bytesAt] at hlt
  rw [bytesAt_split, leNat_append, length_bytesAt, Nat.add_mul_div_left _ _ (by positivity), Nat.div_eq_of_lt hlt, Nat.zero_add]

theorem leNat_mod (f : Nat → Byte) (a m n : Nat) : leNat (bytesAt f a (m + n)) % 256 ^ m = leNat (bytesAt f a m) := by
  have hlt := leNat_lt (bytesAt f a m)
  rw [length_bytesAt] at hlt
  rw [bytesAt_split, leNat_append, length_bytesAt, Nat.add_mul_mod_self_left, Nat.mod_eq_of_lt hlt]

/-- A field of whole bytes. -/
theorem bitsOf_bytes (f : Nat → Byte) (a : Nat) {i k n : Nat} (h : i + k ≤ n) :
    bitsOf (bytesAt f a n) (8 * i) (8 * k) = leNat (bytesAt f (a + i) k) := by
  obtain ⟨r, rfl⟩ := Nat.exists_eq_add_of_le h
  have hp (x : Nat) : 2 ^ (8 * x) = 256 ^ x := by rw [Nat.pow_mul]
  rw [bitsOf, hp, hp, Nat.add_assoc, leNat_div, leNat_mod]

/-! Headers and words (R309, R313). -/

section Reads
variable (s : State) (e : Env) (target : Dword)

theorem walker_die : (e.walker s).die = some (dieOf e.b.core) := rfl

/-- A good header: where it lies and what it says. -/
structure GoodHdr (s : State) (e : Env) (h : MHdr) : Prop where
  raw : Quiet s e.b.core → h.raw = bytesAt (seen s e.b.core) h.pa 64
  gang : bitsOf h.raw 256 4 = gangOf e.b.core
  zero : bitsOf h.raw 262 250 = 0
  state : bitsOf h.raw 260 2 ≤ 1
  limit : h.limit = BitVec.ofNat 64 (bitsOf h.raw 0 64)
  limitOk : limitOk h.limit = true
  count : h.count = bitsOf h.raw 64 64
  some : h.count ≠ 0
  small : h.count ≤ 4194304

/-- What the fields of a header decide. -/
def hdrBad (e : Env) (h : MHdr) : Bool :=
  bitsOf h.raw 262 250 != 0 || decide (1 < bitsOf h.raw 260 2) || bitsOf h.raw 256 4 != gangOf e.b.core || !limitOk h.limit ||
    h.count == 0 || decide (4194304 < h.count)

/-- The header at an address as an engine reads it. -/
def hdrAt (s : State) (e : Env) (pa : Nat) : MHdr :=
  let d := (s.engineLoad (some e.b.core) pa 64).1
  { pa := pa, raw := d, limit := BitVec.ofNat 64 (bitsOf d 0 64), count := bitsOf d 64 64 }

theorem hdrBad_false {e : Env} {h : MHdr} : hdrBad e h = false ↔ bitsOf h.raw 262 250 = 0 ∧ bitsOf h.raw 260 2 ≤ 1 ∧
    bitsOf h.raw 256 4 = gangOf e.b.core ∧ limitOk h.limit = true ∧ h.count ≠ 0 ∧ h.count ≤ 4194304 := by
  simp only [hdrBad, Bool.or_eq_false_iff, bne_eq_false_iff_eq, decide_eq_false_iff_not, Nat.not_lt, Bool.not_eq_false', beq_eq_false_iff_ne,
    and_assoc]

/-- R309, R310: what the read of a header comes to where its place is aligned bed memory that can be read. -/
theorem mergeHdr_read {l : List (Loc × Nat)} {pa : Nat}
    (hacc : (s.walked (e.walker s) target 64).checkAccess (e.walker (s.walked (e.walker s) target 64)) target 64 (askTarget false)
      (fun _ => none) = .ok l) (ha : target.toNat % 64 = 0) (hp : bedPa l = some pa)
    (hb : (s.walked (e.walker s) target 64).badIn pa 64 = none) :
    s.mergeHdr e target = (if hdrBad e (hdrAt (s.walked (e.walker s) target 64) e pa) then .status 1
      else .ok (hdrAt (s.walked (e.walker s) target 64) e pa),
      ((s.walked (e.walker s) target 64).engineLoad (some e.b.core) pa 64).2) := by
  have h0 : (target.toNat % 64 != 0) = false := by rw [ha]; rfl
  unfold State.mergeHdr
  dsimp only
  rw [hacc]
  dsimp only
  rw [h0, hp]
  dsimp only
  rw [hb]
  dsimp only
  exact (apply_ite (fun x : MRead => (x, ((s.walked (e.walker s) target 64).engineLoad (some e.b.core) pa 64).2)) _ _ _).symm

/-- What the read of a header comes to: a status or a line before the header is loaded, or the header. -/
theorem mergeHdr_cases (w : State) (hw : s.walked (e.walker s) target 64 = w) :
    (∃ x, s.mergeHdr e target = (x, w) ∧ ∀ h, x ≠ .ok h) ∨
      ∃ pa, s.mergeHdr e target = (if hdrBad e (hdrAt w e pa) then .status 1 else .ok (hdrAt w e pa),
        (w.engineLoad (some e.b.core) pa 64).2) := by
  unfold State.mergeHdr
  dsimp only
  rw [hw]
  split
  · exact .inl ⟨_, rfl, fun _ => nofun⟩
  · split
    · exact .inl ⟨_, rfl, fun _ => nofun⟩
    · split
      · exact .inl ⟨_, rfl, fun _ => nofun⟩
      · split
        · exact .inl ⟨_, rfl, fun _ => nofun⟩
        · rename_i pa _ _ _
          exact .inr ⟨pa, (apply_ite (fun x : MRead => (x, (w.engineLoad (some e.b.core) pa 64).2)) _ _ _).symm⟩

theorem traffic_mergeHdr : Traffic s (s.mergeHdr e target).2 := by
  have hw := traffic_walked s (e.walker s) target 64
  obtain ⟨x, h, -⟩ | ⟨pa, h⟩ := mergeHdr_cases s e target _ rfl
  · rw [h]; exact hw
  · rw [h]; exact hw.trans (traffic_engineLoad _ _ _ _ _)

theorem seesSame_mergeHdr : SeesSame e.b.core s (s.mergeHdr e target).2 := by
  have hw := seesSame_walked s (walker_die s e) target 64
  obtain ⟨x, h, -⟩ | ⟨pa, h⟩ := mergeHdr_cases s e target _ rfl
  · rw [h]; exact hw
  · rw [h]; exact hw.trans (seesSame_engineLoad _ _ _)

/-- A header that is read is a good one. -/
theorem mergeHdr_ok {h : MHdr} (hr : (s.mergeHdr e target).1 = .ok h) : GoodHdr s e h := by
  have hw := seesSame_walked s (walker_die s e) target 64
  generalize hwe : s.walked (e.walker s) target 64 = w at hw
  obtain ⟨x, hm, hx⟩ | ⟨pa, hm⟩ := mergeHdr_cases s e target w hwe
  · rw [hm] at hr
    exact absurd hr (hx h)
  · rw [hm] at hr
    cases hb : hdrBad e (hdrAt w e pa) with
    | true => rw [hb] at hr; cases hr
    | false =>
      rw [hb] at hr
      cases hr
      obtain ⟨hz, hst, hg, hl, hc, hn⟩ := hdrBad_false.mp hb
      refine ⟨fun q => ?_, hg, hz, hst, rfl, hl, rfl, hc, hn⟩
      obtain ⟨hq, hs⟩ := hw q
      exact (engineLoad_quiet hq pa 64).trans (bytesAt_congr fun x _ _ => hs x)

theorem mergeRead_status {n : Nat} (hr : (s.mergeHdr e target).1 = .status n) (i : Nat) :
    (s.mergeRead e target i).1 = .ok (0x7FC00000, 0) := by
  unfold State.mergeRead
  generalize s.mergeHdr e target = p at hr ⊢
  obtain ⟨x, t⟩ := p
  cases hr
  rfl

/-- R313: an index beyond the words. -/
theorem mergeRead_past {h : MHdr} {t : State} (hr : s.mergeHdr e target = (.ok h, t)) {i : Nat} (hi : h.count ≤ i) :
    (s.mergeRead e target i).1 = .ok (0x7FC00000, BitVec.ofNat 32 (bitsOf h.raw 128 32)) := by
  unfold State.mergeRead
  rw [hr]
  dsimp only
  rw [if_pos hi]

/-- A word in aligned bed memory that can be read. -/
theorem mergeRead_word {h : MHdr} {t : State} (hr : s.mergeHdr e target = (.ok h, t)) {i : Nat} (hi : i < h.count) {w : State}
    (hw : t.walked (e.walker t) (target + 64 + BitVec.ofNat 64 (16 * i)) 16 = w) {l : List (Loc × Nat)} {pa : Nat}
    (hacc : w.checkAccess (e.walker w) (target + 64 + BitVec.ofNat 64 (16 * i)) 16 (askTarget false) (fun _ => none) = .ok l)
    (hp : bedPa l = some pa) (hb : w.badIn pa 16 = none) :
    (s.mergeRead e target i).1 =
      .ok (BitVec.ofNat 32 (mergeValue (BitVec.ofNat 128 (leNat (w.engineLoad (some e.b.core) pa 16).1)) h.limit),
        BitVec.ofNat 32 (bitsOf h.raw 128 32)) := by
  unfold State.mergeRead
  rw [hr]
  dsimp only
  rw [if_neg (Nat.not_le_of_lt hi), hw, hacc]
  dsimp only
  rw [hp]
  dsimp only
  rw [hb]

/-- Walks and loads at most. -/
theorem mergeRead_state (i : Nat) : (s.mergeRead e target i).2 = (s.mergeHdr e target).2 ∨
    ∃ va n, (s.mergeRead e target i).2 = (s.mergeHdr e target).2.walked (e.walker (s.mergeHdr e target).2) va n ∨
      ∃ pa k, (s.mergeRead e target i).2 =
        (((s.mergeHdr e target).2.walked (e.walker (s.mergeHdr e target).2) va n).engineLoad (some e.b.core) pa k).2 := by
  unfold State.mergeRead
  generalize s.mergeHdr e target = p
  obtain ⟨x, t⟩ := p
  cases x with
  | bad l => exact .inl rfl
  | status n => exact .inl rfl
  | ok h =>
    dsimp only
    split
    · exact .inl rfl
    · refine .inr ⟨target + 64 + BitVec.ofNat 64 (16 * i), 16, ?_⟩
      split
      · exact .inl rfl
      · split
        · exact .inl rfl
        · rename_i pa _
          split
          · exact .inl rfl
          · dsimp only
            exact .inr ⟨pa, 16, rfl⟩

theorem traffic_mergeRead (i : Nat) : Traffic s (s.mergeRead e target i).2 := by
  have hh := traffic_mergeHdr s e target
  obtain h | ⟨va, n, h | ⟨pa, k, h⟩⟩ := mergeRead_state s e target i
  · rw [h]; exact hh
  · rw [h]; exact hh.trans (traffic_walked _ _ _ _)
  · rw [h]; exact (hh.trans (traffic_walked _ _ _ _)).trans (traffic_engineLoad _ _ _ _ _)

theorem seesSame_mergeRead (i : Nat) : SeesSame e.b.core s (s.mergeRead e target i).2 := by
  have hh := seesSame_mergeHdr s e target
  obtain h | ⟨va, n, h | ⟨pa, k, h⟩⟩ := mergeRead_state s e target i
  · rw [h]; exact hh
  · rw [h]; exact hh.trans (seesSame_walked _ (walker_die _ e) _ _)
  · rw [h]; exact (hh.trans (seesSame_walked _ (walker_die _ e) _ _)).trans (seesSame_engineLoad _ _ _)

end Reads

/-! The end of an operation that writes an s register. -/

section DeliverS
variable (s : State) (o : Op) (r : Nat) (v : Dword)

theorem deliverS_else : s.deliverS o r v =
    { s with blocks := (s.deliverS o r v).blocks, ops := (s.deliverS o r v).ops, runs := (s.deliverS o r v).runs, run := (s.deliverS o r v).run } := by
  unfold State.deliverS
  split
  · rfl
  · split <;> rfl

theorem ops_deliverS {x : Op} (hx : x ∈ s.ops) : ∃ y ∈ (s.deliverS o r v).ops, y = { x with lost := y.lost } := by
  unfold State.deliverS
  split
  · exact ⟨x, hx, rfl⟩
  · split
    · exact ⟨x, hx, rfl⟩
    · refine ⟨_, List.mem_map_of_mem hx, ?_⟩
      split <;> rfl

theorem spn_writeS (u m n : Nat) (u' m' : Nat) : ∃ f : Spindle → Spindle, (∀ sp, (f sp).s = sp.s.set n v) ∧
    spn (s.writeS u m n v) u' m' = (spn s u' m').map (fun x => if u' = u ∧ m' = m then f x else x) :=
  ⟨_, fun _ => rfl, spn_updSp s u m (fun sp => { sp with s := sp.s.set n v, threads := sp.threads.map (fun t => t.keepOld n ((sp.s[n]?).getD 0)) })
    (fun _ => rfl) u' m'⟩

theorem spn_deliverS (u m : Nat) : spn (s.deliverS o r v) u m = spn s u m ∨
    ∃ f : Spindle → Spindle, (∀ sp, (f sp).s = sp.s.set r v) ∧
      spn (s.deliverS o r v) u m = (spn s u m).map (fun x => if u = o.blk ∧ m = o.m then f x else x) := by
  unfold State.deliverS
  split
  · exact .inl rfl
  · split
    · exact .inl rfl
    · exact .inr (spn_writeS s v o.blk o.m r u m)

theorem deliverS_live (h : live s o) : ∃ f : Spindle → Spindle, (∀ sp, (f sp).s = sp.s.set r v) ∧
    spn (s.deliverS o r v) o.blk o.m = (spn s o.blk o.m).map f := by
  obtain ⟨hl, sp, hsp, k, hk, hg⟩ := h
  have hall : o.slots.all (fun k => sp.gone k) = false := List.all_eq_false.mpr ⟨k, hk, by rw [hg]; exact Bool.false_ne_true⟩
  have hb : (s.blk o.blk).bind (fun b => b.sp o.m) = some sp := hsp
  unfold State.deliverS
  rw [hb]
  dsimp only
  rw [hl, hall]
  obtain ⟨f, hf, hs⟩ := spn_writeS s v o.blk o.m r o.blk o.m
  exact ⟨f, hf, hs.trans (by simp only [and_self, if_true])⟩

/-- The register takes the value while the operation is live. -/
theorem sreg_deliverS (h : live s o) : sreg (s.deliverS o r v) o.blk o.m r = (sreg s o.blk o.m r).map (fun _ => v) := by
  obtain ⟨f, hf, hs⟩ := deliverS_live s o r v h
  obtain ⟨-, sp, hsp, -⟩ := h
  rw [sreg, hs, sreg, hsp, Option.map_some, Option.bind_some, Option.bind_some, hf, List.getElem?_set_self']
  rfl

/-- The others keep theirs. -/
theorem sreg_deliverS_other {i : Nat} (h : i ≠ r) (u m : Nat) : sreg (s.deliverS o r v) u m i = sreg s u m i := by
  obtain hs | ⟨f, hf, hs⟩ := spn_deliverS s o r v u m
  · rw [sreg, hs, sreg]
  · rw [sreg, hs, sreg, Option.bind_map]
    congr 1
    funext sp
    dsimp only [Function.comp]
    split
    · rw [hf, List.getElem?_set_ne (Ne.symm h)]
    · rfl

theorem seesSame_deliverS {core : Nat} : SeesSame core s (s.deliverS o r v) := by
  unfold State.deliverS
  split
  · exact .refl s
  · split
    · exact .refl s
    · exact SeesSame.trans (t := s.updSp o.blk o.m (fun sp =>
        { sp with s := sp.s.set r v, threads := sp.threads.map (fun t => t.keepOld r ((sp.s[r]?).getD 0)) }))
        (seesSame_updSp s _ _ _) (.of_blocks ⟨rfl, rfl, rfl, rfl, rfl⟩ rfl)

end DeliverS

end Sys2Proof.Safety
end

section
/-! PROOF. The merge operations performed: close, commit, plain read (R90 to R93, R164, R311 to R313). -/

namespace Sys2Proof.Safety

open Sys2Proof Sys2Proof.Machine

/-! An operation of a merge unit completes. -/

section Ends
variable {s w : State} {o : Op}

/-- No operation of a merge unit waits for its block or its context. -/
theorem complete_merge {k : OpKind} (hk : o.kind = k) (he : k.engine = some 0x04) (hr : k.rows = false) (hu : s.unsent o = false)
    {r : Option State} (hc : s.complete o = if s.away o || s.unsent o then none else r) : s.complete o = r := by
  have haway : s.away o = false := by
    rw [State.away, hk, he, hr, Bool.false_and, Bool.or_false]
    exact Bool.and_false _
  rw [hc, haway, hu]
  rfl

/-- The operations and the spindles are as they were. -/
structure KeepsWork (s w : State) : Prop where
  ops : w.ops = s.ops
  spn : ∀ u m, spn w u m = spn s u m

theorem KeepsWork.traffic (h : Traffic s w) : KeepsWork s w := ⟨ops_traffic h, h.spn_eq⟩

theorem KeepsWork.live (h : KeepsWork s w) : live w o ↔ live s o := by rw [Safety.live, h.spn, Safety.live]

theorem KeepsWork.sreg (h : KeepsWork s w) (u m n : Nat) : sreg w u m n = sreg s u m n := by rw [Safety.sreg, h.spn, Safety.sreg]

/-- TOKEN_CLEAR of an operation that writes an s register after its work. -/
theorem sOp_ends {r : Nat} {v : Dword} (hp : pending s o.id = some o) (hc : s.complete o = some ((w.deliverS o r v).dropOp o))
    (hw : KeepsWork s w) : ∃ t, exec (.tokenClear o.id) s = .next t ∧ OpGone s t o.id ∧ t.mslots = w.mslots ∧
      (live s o → sreg t o.blk o.m r = (sreg s o.blk o.m r).map (fun _ => v)) ∧
      (∀ i, i ≠ r → sreg t o.blk o.m i = sreg s o.blk o.m i) ∧ ∀ core, SeesSame core w t := by
  have hr := requestsOnly_answered ((w.deliverS o r v).dropOp o) o
  have hsreg (i : Nat) : sreg (((w.deliverS o r v).dropOp o).answered o) o.blk o.m i = sreg (w.deliverS o r v) o.blk o.m i := by
    rw [sreg, hr.spn, ← sreg, sreg_dropOp]
  refine ⟨_, execTokenClear_complete hp hc, ⟨fun x hx => ?_, fun x hx hid => ?_⟩, ?_, fun hl => ?_, fun i hi => ?_, fun core => ?_⟩
  · rw [hr.ops] at hx
    simpa using (List.mem_filter.mp hx).2
  · obtain ⟨y, hy, hyx⟩ := ops_deliverS w o r v (hw.ops ▸ hx)
    have hyid : y.id = x.id := (congrArg Op.id hyx :)
    have hyk : y.kind = x.kind := (congrArg Op.kind hyx :)
    refine ⟨y, ?_, by rw [hyk]; exact hyx⟩
    rw [hr.ops]
    exact List.mem_filter.mpr ⟨hy, by simpa [hyid] using hid⟩
  · have h1 : (((w.deliverS o r v).dropOp o).answered o).mslots = ((w.deliverS o r v).dropOp o).mslots := by rw [hr]
    exact h1.trans (congrArg State.mslots (deliverS_else w o r v) :)
  · rw [hsreg, sreg_deliverS w o r v (hw.live.mpr hl), hw.sreg]
  · rw [hsreg, sreg_deliverS_other w o r v hi, hw.sreg]
  · exact ((seesSame_deliverS w o r v).trans (seesSame_dropOp _ _)).trans (seesSame_requests hr)

end Ends

/-! The sum of squares (R91). -/

/-- A staged element in units, its place aside. -/
def unitsOf (x : Nat × MgFmt × Word) : Option Int := stagedUnits x.2.1 x.2.2

theorem sumSquares_foldl (l : List (Nat × MgFmt × Word)) (a : Option Nat) :
    l.foldl (fun acc x => match acc, stagedUnits x.2.1 x.2.2 with
      | some a, some g => some (a + g.natAbs * g.natAbs)
      | _, _ => none) a =
      if ∃ x ∈ l, unitsOf x = none then none else a.map (· + (l.map (fun x => ((unitsOf x).getD 0).natAbs ^ 2)).sum) := by
  induction l generalizing a with
  | nil => simp
  | cons x r ih =>
    rw [List.foldl_cons, ih]
    cases hx : unitsOf x with
    | none =>
      have hx' : stagedUnits x.2.1 x.2.2 = none := hx
      have hex : ∃ y ∈ x :: r, unitsOf y = none := ⟨x, List.mem_cons_self, hx⟩
      rw [if_pos hex]
      cases a <;> simp [hx']
    | some g =>
      have hx' : stagedUnits x.2.1 x.2.2 = some g := hx
      have hiff : (∃ y ∈ x :: r, unitsOf y = none) ↔ ∃ y ∈ r, unitsOf y = none := by simp [hx]
      simp only [hiff]
      cases a <;> simp [hx, hx', pow_two, Nat.add_assoc]

theorem sumSquares_none {l : List (Nat × MgFmt × Word)} (h : ∃ x ∈ l, stagedUnits x.2.1 x.2.2 = none) : sumSquares l = none :=
  (sumSquares_foldl l (some 0)).trans (if_pos h)

theorem sumSquares_some {l : List (Nat × MgFmt × Word)} (h : ∀ x ∈ l, ∃ g, stagedUnits x.2.1 x.2.2 = some g) :
    sumSquares l = some (l.map (fun x => ((stagedUnits x.2.1 x.2.2).getD 0).natAbs ^ 2)).sum := by
  refine (sumSquares_foldl l (some 0)).trans ((if_neg ?_).trans ?_)
  · rintro ⟨x, hx, hn⟩
    obtain ⟨g, hg⟩ := h x hx
    have hn : stagedUnits x.2.1 x.2.2 = none := hn
    rw [hg] at hn
    cases hn
  · rw [Option.map_some, Nat.zero_add]
    rfl

/-! Engines' stores of numbers. -/

section Numbers
variable {core : Nat} {t : State}

/-- A number stored is read. -/
theorem number_stored (q : Quiet t core) (pa k x : Nat) : leNat (bytesAt (seen (t.engineStore pa (leBytes k x)) core) pa k) = x % 256 ^ k := by
  have h := bytesAt_list (f := seen (t.engineStore pa (leBytes k x)) core) (pa := pa) (d := leBytes k x)
    (fun a h1 h2 => (engineStore_quiet q pa _ a).trans (if_pos ⟨h1, h2⟩)) (i := 0) (k := k) (by rw [length_leBytes]; omega)
  rw [Nat.add_zero, List.drop_zero, List.take_of_length_le (by rw [length_leBytes])] at h
  rw [h, leNat_leBytes]

theorem number_else (q : Quiet t core) {pa k x a : Nat} (ha : ¬(pa ≤ a ∧ a < pa + k)) :
    seen (t.engineStore pa (leBytes k x)) core a = seen t core a :=
  (engineStore_quiet q pa _ a).trans (if_neg (by rw [length_leBytes]; exact ha))

theorem seesSame_rmwLine (t : State) (line : Nat) : SeesSame core t (t.rmwLine line false) := fun q =>
  let h := took_write q line
  ⟨h.quiet, h.seen⟩

/-- An agent's release at `.dev`: its die's stores reach the home. -/
theorem seesSame_release (t : State) (e : Env) : SeesSame e.b.core t (t.release e .dev) := fun q =>
  ⟨(q.ack _).1, fun _ => view_ack q.frames (fun p hp => (q.pend p hp).1) (.inl fun p hp _ => beq_iff_eq.mpr (q.pend p hp).1)⟩

end Numbers

/-! The commit (R312). -/

section Commit
variable (e : Env) (m : MSlot)

/-- One element added to its word. -/
def commitStep (locs : List (Loc × Nat)) (acc : State × Bool) (x : Nat × MgFmt × Word) : State × Bool :=
  match stagedUnits x.2.1 x.2.2, paAt locs (64 + 16 * x.1) with
  | some g, some pa =>
    let (t, w) := acc.1.addMerge e pa (mergeUnits m.scale m.limit g)
    (t, acc.2 || w)
  | _, _ => acc

/-- The header once the commit is counted. -/
def countCommit (h : MHdr) (t : State) : State :=
  ((t.engineStore (h.pa + 16) (leBytes 8 ((bitsOf h.raw 128 64 + 1) % 2 ^ 64))).engineStore (h.pa + 24)
    (leBytes 8 ((bitsOf h.raw 192 64 + 1) % 2 ^ 64))).engineStore (h.pa + 32) (leBytes 8 (bitsOf h.raw 256 4))

/-- Memory once the commit is made. -/
def committed (h : MHdr) (locs : List (Loc × Nat)) (s : State) : State :=
  let (t, wrap) := m.elems.foldl (commitStep e m locs) (s.release e .dev, false)
  if wrap then (countCommit h t).logArith e 0x12 e.low true else countCommit h t

theorem commitSlot_eq (s : State) (h : MHdr) (locs : List (Loc × Nat)) : s.commitSlot e m h locs = (committed e m h locs s).putMslot m none := by
  unfold State.commitSlot committed countCommit
  rfl

theorem traffic_addMerge (t : State) (pa : Nat) (u : Int) : Traffic t (t.addMerge e pa u).1 := by
  have h := (traffic_rmwLine t (lineOf pa) false).trans (traffic_engineLoad (t.rmwLine (lineOf pa) false) (some e.b.core) pa 16 false)
  unfold State.addMerge
  exact h.trans (traffic_engineStore _ _ _ _)

theorem traffic_commitStep (locs : List (Loc × Nat)) (acc : State × Bool) (x : Nat × MgFmt × Word) :
    Traffic acc.1 (commitStep e m locs acc x).1 := by
  unfold commitStep
  split
  · rename_i g pa _ _
    exact traffic_addMerge e acc.1 pa (mergeUnits m.scale m.limit g)
  · exact .refl _

theorem traffic_commitSteps (locs : List (Loc × Nat)) (l : List (Nat × MgFmt × Word)) (acc : State × Bool) :
    Traffic acc.1 (l.foldl (commitStep e m locs) acc).1 := by
  induction l generalizing acc with
  | nil => exact .refl _
  | cons x r ih => exact (traffic_commitStep e m locs acc x).trans (ih _)

theorem traffic_committed (h : MHdr) (locs : List (Loc × Nat)) (s : State) : Traffic s (committed e m h locs s) := by
  have hcount (t : State) : Traffic t (countCommit h t) :=
    Traffic.trans (Traffic.trans (traffic_engineStore t _ _ false) (traffic_engineStore _ _ _ false)) (traffic_engineStore _ _ _ false)
  have hall := ((traffic_ack s (fun p => p.die == dieOf e.b.core)).trans
    (traffic_commitSteps e m locs m.elems (s.release e .dev, false))).trans (hcount _)
  unfold committed
  dsimp only
  split
  · exact hall.trans (traffic_logArith _ e 0x12 e.low true)
  · exact hall

/-- The word of an element, and the units that its commit adds. -/
def wordAt (t : State) (pa j : Nat) : BitVec 128 := BitVec.ofNat 128 (leNat (bytesAt (seen t e.b.core) (pa + 64 + 16 * j) 16))
def addedUnits (x : Nat × MgFmt × Word) : Int := ((stagedUnits x.2.1 x.2.2).map (fun g => mergeUnits m.scale m.limit g)).getD 0

/-- A merge word added to without a wrap. -/
theorem addMerge_quiet {t : State} (q : Quiet t e.b.core) (pa : Nat) (u : Int)
    (hlo : -(2 ^ 127) ≤ (BitVec.ofNat 128 (leNat (bytesAt (seen t e.b.core) pa 16))).toInt + u)
    (hhi : (BitVec.ofNat 128 (leNat (bytesAt (seen t e.b.core) pa 16))).toInt + u < 2 ^ 127) :
    (t.addMerge e pa u).2 = false ∧ Quiet (t.addMerge e pa u).1 e.b.core ∧
      (BitVec.ofNat 128 (leNat (bytesAt (seen (t.addMerge e pa u).1 e.b.core) pa 16))).toInt =
        (BitVec.ofNat 128 (leNat (bytesAt (seen t e.b.core) pa 16))).toInt + u ∧
      ∀ a, ¬(pa ≤ a ∧ a < pa + 16) → seen (t.addMerge e pa u).1 e.b.core a = seen t e.b.core a := by
  obtain ⟨hq1, hs1⟩ := seesSame_rmwLine t (lineOf pa) q
  obtain ⟨hq2, hs2⟩ := seesSame_engineLoad (t.rmwLine (lineOf pa) false) pa 16 hq1
  have hload : ((t.rmwLine (lineOf pa) false).engineLoad (some e.b.core) pa 16).1 = bytesAt (seen t e.b.core) pa 16 :=
    (engineLoad_quiet hq1 pa 16).trans (bytesAt_congr fun x _ _ => hs1 x)
  unfold State.addMerge
  dsimp only
  rw [hload]
  generalize (BitVec.ofNat 128 (leNat (bytesAt (seen t e.b.core) pa 16))).toInt + u = v at *
  refine ⟨?_, quiet_engineStore hq2 _ _, ?_, fun a ha => ?_⟩
  · rw [Bool.or_eq_false_iff, decide_eq_false_iff_not, decide_eq_false_iff_not]
    omega
  · have h256 : (BitVec.ofInt 128 v).toNat % 256 ^ 16 = (BitVec.ofInt 128 v).toNat :=
      Nat.mod_eq_of_lt (lt_of_lt_of_eq (BitVec.isLt _) (by decide))
    rw [number_stored hq2, h256, BitVec.ofNat_toNat, BitVec.setWidth_eq]
    exact BitVec.toInt_ofInt_eq_self (by decide) hlo hhi
  · rw [number_else hq2 ha, hs2, hs1]

end Commit

end Sys2Proof.Safety
end

section
/-! PROOF. What a commit leaves in memory, and the merge operations at their end (R90 to R93, R164, R311 to R313). -/

namespace Sys2Proof.Safety

open Sys2Proof Sys2Proof.Machine

section Words
variable (e : Env) (m : MSlot) {pa n : Nat}

theorem paAt_mem {off : Nat} (h : off < n) : paAt [(.mem pa, n)] off = some (pa + off) := if_pos h

/-- Words at different indices share no byte. -/
theorem word_apart {i j a : Nat} (h : i ≠ j) (ha : pa + 64 + 16 * j ≤ a) (hb : a < pa + 64 + 16 * j + 16) :
    ¬(pa + (64 + 16 * i) ≤ a ∧ a < pa + (64 + 16 * i) + 16) := by omega

/-- One element added to its word: memory stays quiet, its word takes the units, every other byte stays. -/
theorem commitStep_quiet {t : State} {w : Bool} {x : Nat × MgFmt × Word} (q : Quiet t e.b.core) (hx : 64 + 16 * x.1 < n)
    (hlo : -(2 ^ 127) ≤ (wordAt e t pa x.1).toInt + addedUnits m x) (hhi : (wordAt e t pa x.1).toInt + addedUnits m x < 2 ^ 127) :
    (commitStep e m [(.mem pa, n)] (t, w) x).2 = w ∧ Quiet (commitStep e m [(.mem pa, n)] (t, w) x).1 e.b.core ∧
      (wordAt e (commitStep e m [(.mem pa, n)] (t, w) x).1 pa x.1).toInt = (wordAt e t pa x.1).toInt + addedUnits m x ∧
      ∀ a, ¬(pa + (64 + 16 * x.1) ≤ a ∧ a < pa + (64 + 16 * x.1) + 16) →
        seen (commitStep e m [(.mem pa, n)] (t, w) x).1 e.b.core a = seen t e.b.core a := by
  unfold commitStep
  rw [paAt_mem hx]
  unfold addedUnits wordAt at *
  cases hg : stagedUnits x.2.1 x.2.2 with
  | none => exact ⟨rfl, q, by rw [Option.map_none, Option.getD_none, Int.add_zero], fun _ _ => rfl⟩
  | some g =>
    rw [hg, Option.map_some, Option.getD_some, Nat.add_assoc] at hlo hhi
    obtain ⟨hw, hq, hv, ho⟩ := addMerge_quiet e q (pa + (64 + 16 * x.1)) (mergeUnits m.scale m.limit g) hlo hhi
    rw [Nat.add_assoc, Option.map_some, Option.getD_some]
    dsimp only
    exact ⟨by rw [hw, Bool.or_false], hq, hv, ho⟩

/-- All elements, each at an index of its own. -/
theorem commitSteps_quiet : ∀ (l : List (Nat × MgFmt × Word)) (t : State) (w : Bool), Quiet t e.b.core → (l.map (·.1)).Nodup →
    (∀ x ∈ l, 64 + 16 * x.1 < n) →
    (∀ x ∈ l, -(2 ^ 127) ≤ (wordAt e t pa x.1).toInt + addedUnits m x ∧ (wordAt e t pa x.1).toInt + addedUnits m x < 2 ^ 127) →
    (l.foldl (commitStep e m [(.mem pa, n)]) (t, w)).2 = w ∧ Quiet (l.foldl (commitStep e m [(.mem pa, n)]) (t, w)).1 e.b.core ∧
      (∀ x ∈ l, (wordAt e (l.foldl (commitStep e m [(.mem pa, n)]) (t, w)).1 pa x.1).toInt =
        (wordAt e t pa x.1).toInt + addedUnits m x) ∧
      ∀ a, (∀ x ∈ l, ¬(pa + (64 + 16 * x.1) ≤ a ∧ a < pa + (64 + 16 * x.1) + 16)) →
        seen (l.foldl (commitStep e m [(.mem pa, n)]) (t, w)).1 e.b.core a = seen t e.b.core a
  | [], t, w, q, _, _, _ => ⟨rfl, q, fun _ h => (nomatch h), fun _ _ => rfl⟩
  | x :: r, t, w, q, hd, hn, hr => by
    rw [List.map_cons, List.nodup_cons] at hd
    have hne : ∀ y ∈ r, x.1 ≠ y.1 := fun y hy h => hd.1 (h ▸ List.mem_map_of_mem hy)
    obtain ⟨hw1, hq1, hv1, ho1⟩ := commitStep_quiet e m (w := w) q (hn x List.mem_cons_self) (hr x List.mem_cons_self).1 (hr x List.mem_cons_self).2
    rw [List.foldl_cons]
    generalize commitStep e m [(.mem pa, n)] (t, w) x = p at hw1 hq1 hv1 ho1 ⊢
    obtain ⟨t1, w1⟩ := p
    dsimp only at hw1 hq1 hv1 ho1
    subst hw1
    have hold : ∀ y ∈ r, wordAt e t1 pa y.1 = wordAt e t pa y.1 := fun y hy => by
      unfold wordAt
      rw [bytesAt_congr fun a ha hb => ho1 a (word_apart (hne y hy) ha hb)]
    obtain ⟨hw2, hq2, hv2, ho2⟩ := commitSteps_quiet r t1 w1 hq1 hd.2 (fun y hy => hn y (List.mem_cons_of_mem _ hy))
      (fun y hy => by rw [hold y hy]; exact hr y (List.mem_cons_of_mem _ hy))
    refine ⟨hw2, hq2, fun y hy => ?_, fun a ha => ?_⟩
    · obtain rfl | hy := List.mem_cons.mp hy
      · rw [← hv1]
        unfold wordAt
        rw [bytesAt_congr fun a ha hb => ho2 a fun z hz => word_apart (Ne.symm (hne z hz)) ha hb]
      · rw [hv2 y hy, hold y hy]
    · rw [ho2 a fun y hy => ha y (List.mem_cons_of_mem _ hy), ho1 a (ha x List.mem_cons_self)]

/-- The count of a commit in the header. -/
theorem countCommit_quiet {h : MHdr} {t : State} {core : Nat} (q : Quiet t core) :
    Quiet (countCommit h t) core ∧ leNat (bytesAt (seen (countCommit h t) core) (h.pa + 16) 8) = (bitsOf h.raw 128 64 + 1) % 2 ^ 64 ∧
      leNat (bytesAt (seen (countCommit h t) core) (h.pa + 24) 8) = (bitsOf h.raw 192 64 + 1) % 2 ^ 64 ∧
      leNat (bytesAt (seen (countCommit h t) core) (h.pa + 32) 8) = bitsOf h.raw 256 4 ∧
      ∀ a, ¬(h.pa + 16 ≤ a ∧ a < h.pa + 40) → seen (countCommit h t) core a = seen t core a := by
  have h64 (x : Nat) : x % 2 ^ 64 % 256 ^ 8 = x % 2 ^ 64 := Nat.mod_mod x _
  have h4 : bitsOf h.raw 256 4 % 256 ^ 8 = bitsOf h.raw 256 4 :=
    Nat.mod_eq_of_lt (lt_of_lt_of_le (Nat.mod_lt _ (by decide : 0 < 2 ^ 4)) (by decide))
  have q1 := quiet_engineStore q (h.pa + 16) (leBytes 8 ((bitsOf h.raw 128 64 + 1) % 2 ^ 64))
  have q2 := quiet_engineStore q1 (h.pa + 24) (leBytes 8 ((bitsOf h.raw 192 64 + 1) % 2 ^ 64))
  unfold countCommit
  refine ⟨quiet_engineStore q2 _ _, ?_, ?_, ?_, fun a ha => ?_⟩
  · rw [bytesAt_congr fun a h1 h2 => (number_else q2 (by omega)).trans (number_else q1 (by omega)), number_stored q, h64]
  · rw [bytesAt_congr fun a h1 h2 => number_else q2 (by omega), number_stored q1, h64]
  · rw [number_stored q2, h4]
  · rw [number_else q2 (by omega), number_else q1 (by omega), number_else q (by omega)]

/-- Memory once a commit without a wrap is made. -/
theorem committed_quiet {h : MHdr} {s : State} (q : Quiet s e.b.core) (hp : h.pa = pa) (hd : (m.elems.map (·.1)).Nodup)
    (hc : ∀ x ∈ m.elems, x.1 < m.count)
    (hr : ∀ x ∈ m.elems, -(2 ^ 127) ≤ (wordAt e s pa x.1).toInt + addedUnits m x ∧ (wordAt e s pa x.1).toInt + addedUnits m x < 2 ^ 127) :
    let t := committed e m h [(.mem pa, 64 + 16 * m.count)] s
    Quiet t e.b.core ∧ (∀ x ∈ m.elems, (wordAt e t pa x.1).toInt = (wordAt e s pa x.1).toInt + addedUnits m x) ∧
      leNat (bytesAt (seen t e.b.core) (pa + 16) 8) = (bitsOf h.raw 128 64 + 1) % 2 ^ 64 ∧
      leNat (bytesAt (seen t e.b.core) (pa + 24) 8) = (bitsOf h.raw 192 64 + 1) % 2 ^ 64 ∧
      leNat (bytesAt (seen t e.b.core) (pa + 32) 8) = bitsOf h.raw 256 4 ∧
      ∀ a, ¬(pa + 16 ≤ a ∧ a < pa + 40) → (∀ x ∈ m.elems, ¬(pa + (64 + 16 * x.1) ≤ a ∧ a < pa + (64 + 16 * x.1) + 16)) →
        seen t e.b.core a = seen s e.b.core a := by
  obtain ⟨hq0, hs0⟩ := seesSame_release s e q
  have hold (j : Nat) : wordAt e (s.release e .dev) pa j = wordAt e s pa j := by
    unfold wordAt
    rw [bytesAt_congr fun a _ _ => hs0 a]
  obtain ⟨hw, hq, hv, ho⟩ := commitSteps_quiet e m (pa := pa) (n := 64 + 16 * m.count) m.elems (s.release e .dev) false hq0 hd
    (fun x hx => by have := hc x hx; omega) (fun x hx => by rw [hold]; exact hr x hx)
  unfold committed
  generalize m.elems.foldl (commitStep e m [(.mem pa, 64 + 16 * m.count)]) (s.release e .dev, false) = p at hw hq hv ho
  obtain ⟨t1, w⟩ := p
  dsimp only at hw hq hv ho ⊢
  subst hw
  rw [if_neg Bool.false_ne_true]
  obtain ⟨hqc, h16, h24, h32, hrest⟩ := countCommit_quiet (h := h) hq
  rw [hp] at h16 h24 h32 hrest
  refine ⟨hqc, fun x hx => ?_, h16, h24, h32, fun a h1 h2 => ?_⟩
  · have hw : wordAt e (countCommit h t1) pa x.1 = wordAt e t1 pa x.1 := by
      unfold wordAt
      rw [bytesAt_congr fun a ha hb => hrest a (by omega)]
    rw [hw, hv x hx, hold]
  · rw [hrest a h1, ho a h2, hs0]

end Words

/-! The operations. -/

section Reading

/-- The spindle of the clause that issued an operation. -/
theorem spn_opEnv {s : State} {o : Op} {e : Env} (h : s.opEnv o = some e) : spn s o.blk o.m = some e.sp := by
  unfold State.opEnv at h
  split at h
  · cases h
  · rename_i b hb
    obtain ⟨sp, hsp, rfl⟩ := Option.map_eq_some_iff.mp h
    rw [spn, hb, Option.bind_some, hsp]

/-- The register writes of a plain read: its value and the count, to the registers not written since. -/
def readWords (k dst : Nat) (kept : List Nat) (v n : Word) : List RegW :=
  ([(dst, v), (dst + 1, n)].filter (fun x => kept.contains x.1)).map (fun x => ({ slot := k, reg := x.1, val := x.2 } : RegW))

theorem arrived_readWords (sp : Spindle) (k dst : Nat) (kept : List Nat) (v n : Word) (i j : Nat) (old : Word) :
    arrivedWord sp (readWords k dst kept v n) i j old =
      if j ≠ k ∨ sp.gone k = true then old
      else if i = dst ∧ dst ∈ kept then v
      else if i = dst + 1 ∧ dst + 1 ∈ kept then n
      else old := by
  unfold arrivedWord readWords
  rw [List.find?_map, List.find?_filter]
  by_cases hj : j ≠ k ∨ sp.gone k = true
  · rw [if_pos hj, List.find?_eq_none.mpr, Option.map_none, Option.map_none, Option.getD_none]
    intro x _
    obtain hj | hg := hj
    · simp [Ne.symm hj]
    · by_cases hjk : k = j
      · subst hjk; simp [hg]
      · simp [hjk]
  · rw [if_neg hj]
    obtain ⟨rfl, hg⟩ : j = k ∧ sp.gone k = false := by
      rw [not_or, Bool.not_eq_true] at hj
      exact ⟨not_not.mp hj.1, hj.2⟩
    simp only [Function.comp, hg, BEq.rfl, Bool.not_false, Bool.and_true, List.find?_cons, List.find?_nil]
    by_cases h1 : i = dst ∧ dst ∈ kept
    · obtain ⟨rfl, hk⟩ := h1
      simp [hk]
    · have hb : ¬(kept.contains dst = true ∧ (dst == i) = true) := fun hc =>
          h1 ⟨(beq_iff_eq.mp hc.2).symm, List.contains_iff_mem.mp hc.1⟩
      rw [decide_eq_false hb, if_neg h1]
      by_cases h2 : i = dst + 1 ∧ dst + 1 ∈ kept
      · obtain ⟨rfl, hk⟩ := h2
        simp [hk]
      · have hb2 : ¬(kept.contains (dst + 1) = true ∧ (dst + 1 == i) = true) := fun hc =>
            h2 ⟨(beq_iff_eq.mp hc.2).symm, List.contains_iff_mem.mp hc.1⟩
        rw [decide_eq_false hb2, if_neg h2]
        rfl

theorem seesSame_deliver (s : State) (o : Op) (ws : List RegW) {core : Nat} : SeesSame core s (s.deliver o ws) :=
  SeesSame.trans (t := s.updSp o.blk o.m (fun sp => sp.deliver ws)) (seesSame_updSp _ _ _ _) (.of_blocks ⟨rfl, rfl, rfl, rfl, rfl⟩ rfl)

end Reading

section Operations
variable {s : State} {o : Op} {e : Env} {r : Nat} {h : Dword}

/-- What a merge operation with a status leaves. -/
def MergeEnds (s : State) (o : Op) (r : Nat) (slots : List MSlot) (st : Nat) (t : State) : Prop :=
  exec (.tokenClear o.id) s = .next t ∧ OpGone s t o.id ∧ t.mslots = slots ∧
    (live s o → sreg t o.blk o.m r = (sreg s o.blk o.m r).map (fun _ => BitVec.ofNat 64 st)) ∧
    ∀ i, i ≠ r → sreg t o.blk o.m i = sreg s o.blk o.m i

variable (hp : pending s o.id = some o) (hu : s.unsent o = false) (he : s.opEnv o = some e)
include hp hu he

/-- A close that comes to a status, its state but for slots as it was. -/
theorem close_ends {n : Nat} {w : State} (hk : o.kind = .mgclose r h) (hn : s.closeNow e h = (n, w)) (hw : KeepsWork s w) :
    ∃ t, MergeEnds s o r w.mslots n t ∧ ∀ core, SeesSame core w t := by
  have hd : s.doMerge o = (w.deliverS o r (BitVec.ofNat 64 n)).dropOp o := by
    rw [State.doMerge, he]
    dsimp only
    rw [hk]
    dsimp only
    rw [hn]
  obtain ⟨t, ht, hg, hm, hl, ho, hs⟩ := sOp_ends (w := w) (v := BitVec.ofNat 64 n) hp
    ((complete_merge hk rfl rfl hu (by rw [State.complete, hk])).trans (congrArg some hd)) hw
  exact ⟨t, ⟨ht, hg, hm, hl, ho⟩, hs⟩

/-- A commit that comes to a status. -/
theorem commit_ends {n : Nat} {w : State} (hk : o.kind = .mgcommit r h) (hn : s.commitNow e h = (.ok n, w)) (hw : KeepsWork s w) :
    ∃ t, MergeEnds s o r w.mslots n t ∧ ∀ core, SeesSame core w t := by
  have hd : s.doMerge o = (w.deliverS o r (BitVec.ofNat 64 n)).dropOp o := by
    rw [State.doMerge, he]
    dsimp only
    rw [hk]
    dsimp only
    rw [hn]
  obtain ⟨t, ht, hg, hm, hl, ho, hs⟩ := sOp_ends (w := w) (v := BitVec.ofNat 64 n) hp
    ((complete_merge hk rfl rfl hu (by rw [State.complete, hk])).trans (congrArg some hd)) hw
  exact ⟨t, ⟨ht, hg, hm, hl, ho⟩, hs⟩

/-- A commit refused after reads alone. -/
theorem commit_refused {n : Nat} {w : State} (hk : o.kind = .mgcommit r h) (hn : s.commitNow e h = (.ok n, w)) (hw : Traffic s w)
    (hs : SeesSame e.b.core s w) : ∃ t, MergeEnds s o r s.mslots n t ∧
      (Quiet s e.b.core → ∀ a, seen t e.b.core a = seen s e.b.core a) := by
  obtain ⟨t, ht, hst⟩ := commit_ends hp hu he hk hn (.traffic hw)
  have hm : w.mslots = s.mslots := (congrArg State.mslots hw.1 :)
  rw [hm] at ht
  exact ⟨t, ht, fun q => ((hs.trans (hst _)) q).2⟩

/-- R313: a plain read brings its two words. -/
theorem read_ends {k dst idx : Nat} {kept : List Nat} {tgt : Dword} {v n : Word} (hk : o.kind = .mgread k dst kept tgt idx)
    (hr : (s.mergeRead e tgt idx).1 = .ok (v, n)) : ∃ t, exec (.tokenClear o.id) s = .next t ∧ OpGone s t o.id ∧
      (Quiet s e.b.core → ∀ a, seen t e.b.core a = seen s e.b.core a) ∧
      ∀ i j, word t o.blk o.m i j = (word s o.blk o.m i j).map (fun old =>
        if j ≠ k ∨ e.sp.gone k = true then old
        else if i = dst ∧ dst ∈ kept then v
        else if i = dst + 1 ∧ dst + 1 ∈ kept then n
        else old) := by
  have htr := traffic_mergeRead s e tgt idx
  have hss := seesSame_mergeRead s e tgt idx
  generalize hp' : s.mergeRead e tgt idx = p at hr htr hss
  obtain ⟨x, w⟩ := p
  dsimp only at hr htr hss
  subst hr
  have hd : s.doMerge o = (w.deliver o (readWords k dst kept v n)).dropOp o := by
    rw [State.doMerge, he]
    dsimp only
    rw [hk]
    dsimp only
    rw [hp']
    rfl
  have hreq := requestsOnly_answered ((w.deliver o (readWords k dst kept v n)).dropOp o) o
  refine ⟨_, execTokenClear_complete hp ((complete_merge hk rfl rfl hu (by rw [State.complete, hk])).trans (congrArg some hd)),
    ⟨fun x hx => ?_, fun x hx hid => ?_⟩, fun q => ?_, fun i j => ?_⟩
  · rw [hreq.ops] at hx
    simpa using (List.mem_filter.mp hx).2
  · obtain ⟨y, hy, hyx⟩ := ops_deliver w o (readWords k dst kept v n) (ops_traffic htr ▸ hx)
    have hyid : y.id = x.id := (congrArg Op.id hyx :)
    have hyl : y.lost = x.lost := (congrArg Op.lost hyx :)
    refine ⟨y, ?_, by rw [hyl]; exact hyx⟩
    rw [hreq.ops]
    exact List.mem_filter.mpr ⟨hy, by simpa [hyid] using hid⟩
  · exact ((((hss.trans (seesSame_deliver w o _)).trans (seesSame_dropOp _ _)).trans (seesSame_requests hreq)) q).2
  · obtain ⟨f, hf, -, hvals⟩ := deliver_v e.sp (readWords k dst kept v n) i
    have hsp := spn_opEnv he
    have hnew : vreg (((w.deliver o (readWords k dst kept v n)).dropOp o).answered o) o.blk o.m i = (e.sp.v[i]?).map f := by
      rw [vreg, hreq.spn, ← vreg, vreg_dropOp, vreg, spn_deliver, htr.spn_eq, hsp, Option.map_some, if_pos ⟨rfl, rfl⟩,
        Option.bind_some, hf]
    rw [word, hnew, word, vreg, hsp, Option.bind_some]
    cases e.sp.v[i]? with
    | none => rfl
    | some x => exact (hvals x j).trans (congrArg (fun g => (x.vals[j]?).map g) (funext fun old => arrived_readWords e.sp k dst kept v n i j old))

end Operations

theorem keepsWork_putMslot (s : State) (m : MSlot) (x : Option MSlot) : KeepsWork s (s.putMslot m x) := ⟨rfl, fun _ _ => rfl⟩

theorem seesSame_putMslot (s : State) (m : MSlot) (x : Option MSlot) {core : Nat} : SeesSame core s (s.putMslot m x) :=
  .of_blocks ⟨rfl, rfl, rfl, rfl, rfl⟩ rfl

/-- Bed memory. -/
theorem bedPa_mem {pa k : Nat} (h : ∃ n, pclass pa = .bed n) : bedPa [(.mem pa, k)] = some pa := by
  obtain ⟨n, hn⟩ := h
  simp [bedPa, hn]

theorem badIn_traffic {s t : State} (h : Traffic s t) (pa n : Nat) : t.badIn pa n = s.badIn pa n := by
  have hh : t.health = s.health := (congrArg State.health h.1 :)
  unfold State.badIn State.badLine State.retired
  rw [hh]

/-- A target that is not all bed memory. -/
def outsideBed (acc : Except Stop (List (Loc × Nat))) : Bool :=
  match acc with
  | .ok locs => (bedPa locs).isNone
  | .error _ => false

/-- R312: what a commit comes to once its header is read, by its target's place and its slot's state. -/
def commitOutcome (e : Env) (m : MSlot) (hd : MHdr) (w : State) (acc : Except Stop (List (Loc × Nat))) : Except Nat Nat × State :=
  if outsideBed acc then (.ok 1, w)
  else if m.st == .opened then (.ok 4, w)
  else if m.st == .nonfinite then (.ok 6, w)
  else
    match acc with
    | .error _ => (.ok 7, w)
    | .ok locs =>
      match w.badLocs locs with
      | some l => (.error l, w)
      | none => (.ok 0, w.commitSlot e m hd locs)

theorem commitNow_read {s s1 : State} {e : Env} {h : Dword} {m : MSlot} {hd : MHdr} (hm : s.mslot e h = some m)
    (hh : s.mergeHdr e m.target = (.ok hd, s1)) {w : State} (hw : s1.walked (e.walker s1) m.target (64 + 16 * m.count) = w) :
    s.commitNow e h = commitOutcome e m hd w
      (w.checkAccess (e.walker w) m.target (64 + 16 * m.count) (askTarget true) (fun _ => none)) := by
  rw [State.commitNow, hm]
  dsimp only
  rw [hh]
  dsimp only
  rw [hw]
  rfl

section Outcome
variable {e : Env} {m : MSlot} {hd : MHdr} {w : State} {acc : Except Stop (List (Loc × Nat))}

theorem commitOutcome_notBed {l : List (Loc × Nat)} (hl : acc = .ok l) (hb : bedPa l = none) : commitOutcome e m hd w acc = (.ok 1, w) := by
  have ho : outsideBed acc = true := by unfold outsideBed; rw [hl]; dsimp only; rw [hb]; rfl
  exact if_pos ho

theorem commitOutcome_bed (hbed : ∀ l, acc = .ok l → bedPa l ≠ none) : (m.st = .opened → commitOutcome e m hd w acc = (.ok 4, w)) ∧
    (m.st = .nonfinite → commitOutcome e m hd w acc = (.ok 6, w)) ∧
    (m.st = .measured → ∀ x, acc = .error x → commitOutcome e m hd w acc = (.ok 7, w)) ∧
    (m.st = .measured → ∀ l, acc = .ok l → w.badLocs l = none → commitOutcome e m hd w acc = (.ok 0, w.commitSlot e m hd l)) := by
  have hno : outsideBed acc = false := by
    unfold outsideBed
    split
    · rename_i l
      exact Option.isNone_eq_false_iff.mpr (Option.isSome_iff_ne_none.mpr (hbed l rfl))
    · rfl
  have hn : commitOutcome e m hd w acc = _ := if_neg (by rw [hno]; exact Bool.false_ne_true)
  refine ⟨fun hst => ?_, fun hst => ?_, fun hst x hx => ?_, fun hst l hl hb => ?_⟩
  · rw [hn, hst]; rfl
  · rw [hn, hst]; rfl
  · rw [hn, hst, hx]; rfl
  · rw [hn, hst, hl]
    dsimp only
    rw [hb]
    rfl

end Outcome

/-- An element found by its index, the indices being distinct. -/
theorem find?_nodup {α : Type} {l : List (Nat × α)} (hd : (l.map (·.1)).Nodup) {x : Nat × α} (hx : x ∈ l) :
    l.find? (fun y => y.1 == x.1) = some x := by
  induction l with
  | nil => cases hx
  | cons y r ih =>
    rw [List.map_cons, List.nodup_cons] at hd
    obtain rfl | hx := List.mem_cons.mp hx
    · rw [List.find?_cons, beq_self_eq_true]
    · have hne : (y.1 == x.1) = false := beq_eq_false_iff_ne.mpr fun h => hd.1 (h ▸ List.mem_map_of_mem hx)
      rw [List.find?_cons, hne]
      exact ih hd.2 hx

/-- Settles O36: a close measures its slot, a commit adds each element to its own word and counts itself, a plain read
brings two words; a refusal has read memory at most. -/
theorem mergeOperations : Obligations.MergeOperations := by
  intro s o eo r k dst idx pa h tgt kept hd m s1 v n hp hu he gang core ends same others bytes
  refine ⟨fun hk hm => ?_, fun hk hm hst => ?_, fun hk hm st hst => ?_, fun hk hm hst => ⟨fun hx => ?_, fun hx => ?_⟩,
    fun hk hm hh => ?_, fun hk hr => read_ends hp hu he hk hr⟩
  · obtain hk | hk := hk
    · obtain ⟨t, ht, hs⟩ := close_ends (n := 4) hp hu he hk (by rw [State.closeNow, hm]) ⟨rfl, fun _ _ => rfl⟩
      exact ⟨t, ht, fun q => (hs core q).2⟩
    · exact commit_refused hp hu he hk (by rw [State.commitNow, hm]) (.refl s) (.refl s)
  · obtain ⟨t, ht, hs⟩ := close_ends (n := 4) hp hu he hk
      (by rw [State.closeNow, hm]; dsimp only; rw [if_pos (bne_iff_ne.mpr hst)]) ⟨rfl, fun _ _ => rfl⟩
    exact ⟨t, ht, fun q => (hs core q).2⟩
  · have htr := traffic_mergeHdr s eo m.target
    have hss := seesSame_mergeHdr s eo m.target
    have hn : s.commitNow eo h = (.ok st, (s.mergeHdr eo m.target).2) := by
      rw [State.commitNow, hm]
      dsimp only
      generalize s.mergeHdr eo m.target = p at hst ⊢
      obtain ⟨x, w⟩ := p
      cases hst
      rfl
    exact commit_refused hp hu he hk hn htr hss
  · have hn : s.closeNow eo h = (0, s.putMslot m (some { m with st := .nonfinite })) := by
      rw [State.closeNow, hm]
      dsimp only
      rw [if_neg (by rw [hst]; decide), sumSquares_none hx]
    obtain ⟨t, ht, hs⟩ := close_ends hp hu he hk hn (keepsWork_putMslot _ _ _)
    exact ⟨t, ht, fun q => ((seesSame_putMslot s m _).trans (hs core) q).2⟩
  · have hn : s.closeNow eo h = (0, s.putMslot m (some { m with
        st := .measured, scale := clipScale (m.elems.map (fun x => ((stagedUnits x.2.1 x.2.2).getD 0).natAbs ^ 2)).sum m.limit })) := by
      rw [State.closeNow, hm]
      dsimp only
      rw [if_neg (by rw [hst]; decide), sumSquares_some hx]
    obtain ⟨t, ht, hs⟩ := close_ends hp hu he hk hn (keepsWork_putMslot _ _ _)
    exact ⟨t, ht, fun q => ((seesSame_putMslot s m _).trans (hs core) q).2⟩
  · intro w1 acc
    have hnow : s.commitNow eo h = commitOutcome eo m hd w1 acc := commitNow_read hm hh rfl
    have hh1 : (s.mergeHdr eo m.target).1 = .ok hd := by rw [hh]
    have htr1 : Traffic s s1 := by have := traffic_mergeHdr s eo m.target; rwa [hh] at this
    have hss1 : SeesSame core s s1 := by have := seesSame_mergeHdr s eo m.target; rwa [hh] at this
    have htr : Traffic s w1 := htr1.trans (traffic_walked _ _ _ _)
    have hss : SeesSame core s w1 := hss1.trans (seesSame_walked _ (walker_die _ eo) _ _)
    refine ⟨fun l hl hb => commit_refused hp hu he hk (hnow.trans (commitOutcome_notBed hl hb)) htr hss, fun hbed => ?_, fun hst hpa hbedn hbad hacc => ?_⟩
    · obtain ⟨h4, h6, h7, -⟩ := commitOutcome_bed (e := eo) (m := m) (hd := hd) (w := w1) hbed
      exact ⟨fun hst => commit_refused hp hu he hk (hnow.trans (h4 hst)) htr hss, fun hst => commit_refused hp hu he hk (hnow.trans (h6 hst)) htr hss,
        fun hst ⟨x, hx⟩ => commit_refused hp hu he hk (hnow.trans (h7 hst x hx)) htr hss⟩
    · have hbed : ∀ l, acc = .ok l → bedPa l ≠ none := fun l hl => by
        cases hacc.symm.trans hl
        rw [bedPa_mem hbedn]
        exact Option.some_ne_none pa
      have hbad' : w1.badLocs [(.mem pa, 64 + 16 * m.count)] = none :=
        badLocs_mem ((badIn_traffic (traffic_walked _ _ _ _) pa _).trans hbad)
      have hn := hnow.trans ((commitOutcome_bed hbed).2.2.2 hst _ hacc hbad')
      rw [commitSlot_eq] at hn
      have htc := htr.trans (traffic_committed eo m hd [(.mem pa, 64 + 16 * m.count)] w1)
      obtain ⟨t, ht, hs⟩ := commit_ends hp hu he hk hn
        (w := (committed eo m hd [(.mem pa, 64 + 16 * m.count)] w1).putMslot m none)
        ⟨(ops_traffic htc : _), fun u' m' => (htc.spn_eq u' m' : _)⟩
      have hms : (committed eo m hd [(.mem pa, 64 + 16 * m.count)] w1).mslots = s.mslots := (congrArg State.mslots htc.1 :)
      have hslots : ((committed eo m hd [(.mem pa, 64 + 16 * m.count)] w1).putMslot m none).mslots = others := by
        rw [State.putMslot, hms]
        rfl
      rw [hslots] at ht
      refine ⟨t, ht, ?_⟩
      intro q hal hnd hc units old hrange
      obtain ⟨hqw, hsw⟩ := hss q
      have hraw := (mergeHdr_ok s eo m.target hh1).raw q
      have hgang := (mergeHdr_ok s eo m.target hh1).gang
      have hfield (i : Nat) (hi : i + 8 ≤ 64) : bitsOf hd.raw (8 * i) 64 = bytes (pa + i) 8 := by
        rw [hraw, ← hpa]
        exact bitsOf_bytes (seen s core) pa (k := 8) hi
      have hword (j : Nat) : wordAt eo w1 pa j = old j := by
        unfold wordAt
        rw [bytesAt_congr fun a _ _ => hsw a]
      have hunits : ∀ x ∈ m.elems, units x.1 = addedUnits m x := fun x hx => by
        have hfind : m.elems.find? (fun y => y.1 == x.1) = some x := find?_nodup hnd hx
        change ((m.elems.find? (fun y => y.1 == x.1)).map _).getD 0 = _
        rw [hfind]
        rfl
      obtain ⟨hqc, hv, h16, h24, h32, ho⟩ := committed_quiet eo m hqw hpa.symm hnd hc (fun x hx => by
        rw [hword, ← hunits x hx]
        exact hrange x.1)
      have hst : ∀ a, seen t core a = seen (committed eo m hd [(.mem pa, 64 + 16 * m.count)] w1) core a :=
        (((seesSame_putMslot _ m none).trans (hs core)) hqc).2
      have hnum (a k : Nat) : bytesAt (seen t core) a k = bytesAt (seen (committed eo m hd [(.mem pa, 64 + 16 * m.count)] w1) core) a k :=
        bytesAt_congr fun x _ _ => hst x
      refine ⟨fun j hj => ?_, ?_, ?_, ?_, fun a h1 h2 => ?_⟩
      · rw [hnum]
        by_cases hx : ∃ x ∈ m.elems, x.1 = j
        · obtain ⟨x, hx, rfl⟩ := hx
          rw [hunits x hx, ← hword]
          exact hv x hx
        · have hfind : m.elems.find? (fun x => x.1 == j) = none :=
            List.find?_eq_none.mpr fun x hxm => by simpa using fun h => hx ⟨x, hxm, h⟩
          have hzero : units j = 0 := by
            change ((m.elems.find? (fun x => x.1 == j)).map _).getD 0 = 0
            rw [hfind]
            rfl
          rw [hzero, Int.add_zero, ← hword]
          unfold wordAt
          rw [bytesAt_congr fun a ha hb => ho a (by omega) fun x hxm =>
            word_apart (fun h => hx ⟨x, hxm, h⟩) ha hb]
      · rw [hnum, h16, ← hfield 16 (by omega)]
      · rw [hnum, h24, ← hfield 24 (by omega)]
      · rw [hnum, h32, hgang]
      · rw [hst, ho a h1 fun x hxm => by have := hc x hxm; omega, hsw]

end Sys2Proof.Safety
end

section
/-! PROOF. A unit serves a batch or holds it (R380). -/

namespace Sys2Proof.Safety

open Sys2Proof Sys2Proof.Machine

section Serve
variable {s : State} {e : Env} {unit ctx : Nat}

theorem serve_some (h : Serves s unit ctx) : s.serve unit ctx = some (serving s unit ctx) := by
  obtain ⟨hs, hu⟩ := h
  unfold State.serve serving
  dsimp only
  cases hm : s.sched.units.contains (unit, ctx) with
  | true => simp [hs]
  | false =>
    rw [hm] at hu
    obtain hu | ⟨hb, hl⟩ := hu
    · cases hu
    · simp [hs, hb, hl]

theorem serve_none (h : ¬Serves s unit ctx) : s.serve unit ctx = none := by
  unfold State.serve
  dsimp only
  refine if_pos ?_
  by_contra hno
  refine h ⟨?_, ?_⟩
  · cases hs : s.unitStopped unit ctx with
    | false => rfl
    | true => rw [hs] at hno; exact absurd rfl hno
  · cases hm : s.sched.units.contains (unit, ctx) with
    | true => exact .inl rfl
    | false =>
      rw [hm] at hno
      cases hb : s.unitBusy unit ctx <;> cases hl : s.loader unit <;> simp [hb, hl] at hno ⊢

theorem stopUnit_held (s : State) (e : Env) (unit : Nat) : HeldAt s ((s.stopUnit unit e.b.ctx).hold e) e := by
  unfold State.stopUnit
  split
  · exact ⟨rfl, rfl⟩
  · exact ⟨rfl, rfl⟩

/-- A batch held. -/
theorem withUnit_held (h : ¬Serves s unit e.b.ctx) (f : State → State) : HeldAt s (s.withUnit e unit f) e := by
  rw [State.withUnit, serve_none h]
  exact stopUnit_held s e unit

/-- A batch served. -/
theorem withUnit_served (h : Serves s unit e.b.ctx) (f : State → State) : s.withUnit e unit f = f (serving s unit e.b.ctx) := by
  rw [State.withUnit, serve_some h]

/-- The load leaves the blocks. -/
theorem serving_blocks (s : State) (unit ctx : Nat) : (serving s unit ctx).blocks = s.blocks := by
  unfold serving
  split <;> rfl

theorem vreg_serving (s : State) (unit ctx u m n : Nat) : vreg (serving s unit ctx) u m n = vreg s u m n := by
  unfold vreg spn State.blk
  rw [serving_blocks]

end Serve

/-! Operations issued after traffic. -/

/-- R50, R52, R63: `issueRegs`, whatever has changed of the state since the clause began. -/
theorem issueRegs_issued (s : State) (e : Env) (base count : Nat) (f : Nat → List Word) :
    Issued s (s.issueRegs e base count f) e base count f := by
  have hspn (u m : Nat) : spn (s.tagG e base count) u m = (spn s u m).map (fun x => if u = e.b.uid ∧ m = e.sp.m then tagSp base count x else x) :=
    spn_updSp s e.b.uid e.sp.m (tagSp base count) (fun _ => rfl) u m
  unfold State.issueRegs State.issueRegsAt
  rw [foldl_addOp]
  exact
    { rest := rfl
      others := fun u m hne => (hspn u m).trans (by simp only [hne, if_false, Option.map_id'])
      shells := fun u => shell_updSp s _ _ _ u
      regs := vreg_tagG s e base count
      else_ := by
        refine (congrArg (Option.map (fun sp : Spindle => { sp with v := [] })) (hspn e.b.uid e.sp.m)).trans ?_
        rw [Option.map_map]
        congr 1
        funext sp
        simp only [Function.comp, and_self, if_true]
        rfl
      ids := rfl
      ops := rfl }

/-- Slots of the merge units aside, traffic is traffic. -/
theorem traffic_mslots {s t : State} (h : Traffic s t) (l : List MSlot) : Traffic { s with mslots := l } { t with mslots := l } :=
  ⟨(congrArg (fun s : State => { s with mslots := l }) h.1 :), h.2⟩

theorem traffic_acq (s : State) (e : Env) (sc : Scope) : Traffic s (s.acq e sc) := by
  have hack := traffic_ack s (fun p => p.die == dieOf e.b.core)
  cases sc with
  | gang => exact traffic_ageLeases s e.b.core
  | dev | sys => exact hack.trans (traffic_ageLeases _ e.b.core)
  | _ => exact .refl s

theorem traffic_mergeReads (e : Env) (f : Nat → Dword × Nat) : ∀ (ks : List Nat) (s : State), Traffic s (s.mergeReads e f ks).2
  | [], s => .refl s
  | k :: r, s => by
    have hk := traffic_mergeRead s e (f k).1 (f k).2
    rw [State.mergeReads]
    generalize s.mergeRead e (f k).1 (f k).2 = p at hk ⊢
    obtain ⟨x, t⟩ := p
    have hr := hk.trans (traffic_mergeReads e f r t)
    cases x with
    | error l => exact hk
    | ok x =>
      dsimp only
      generalize t.mergeReads e f r = p at hr ⊢
      obtain ⟨y, t'⟩ := p
      cases y <;> exact hr

/-- A range fetched: what it holds, and the uncorrectable line met. -/
theorem fetchVirt_ok {s : State} {e : Env} {va : Dword} {n : Nat} {l : List (Loc × Nat)} {w : State}
    (hw : s.walked (e.walker s) va n = w) (h : w.checkAccess (e.walker w) va n askRead (fun _ => none) = .ok l) :
    s.fetchVirt e va n = (some ((w.readLocs (some e.b.core) l).1, w.badLocs l), (w.readLocs (some e.b.core) l).2) := by
  rw [State.fetchVirt, hw, h]

theorem fetchVirt_error {s : State} {e : Env} {va : Dword} {n : Nat} {x : Stop} {w : State}
    (hw : s.walked (e.walker s) va n = w) (h : w.checkAccess (e.walker w) va n askRead (fun _ => none) = .error x) :
    s.fetchVirt e va n = (none, w) := by
  rw [State.fetchVirt, hw, h]

theorem badLocs_traffic {s t : State} (h : Traffic s t) (l : List (Loc × Nat)) : t.badLocs l = s.badLocs l := by
  unfold State.badLocs
  refine congrArg firstSome (List.map_congr_left fun x _ => ?_)
  split
  · exact badIn_traffic h _ _
  · rfl

end Sys2Proof.Safety
end

section
/-! PROOF. The merge instructions: what they issue and answer (R90 to R93, R309 to R313). -/

namespace Sys2Proof.Safety

open Sys2Proof Sys2Proof.Machine

/-! Headers (R309). -/

/-- Fields of the header's last half. -/
theorem bitsOf_high (f : Nat → Byte) (a k m : Nat) :
    bitsOf (bytesAt f a 64) (256 + k) m = leNat (bytesAt f (a + 32) 32) / 2 ^ k % 2 ^ m := by
  have h32 : leNat (bytesAt f a 64) / 2 ^ 256 = leNat (bytesAt f (a + 32) 32) := leNat_div f a 32 32
  rw [bitsOf, Nat.pow_add, ← Nat.div_div_eq_div_mul, h32]

/-- The header that an engine reads in quiet memory. -/
theorem hdrAt_quiet {u w : State} {e : Env} (hs : SeesSame e.b.core u w) (q : Quiet u e.b.core) (pa : Nat) :
    (hdrAt w e pa).pa = pa ∧ (hdrAt w e pa).limit = BitVec.ofNat 64 (leNat (bytesAt (seen u e.b.core) pa 8)) ∧
      (hdrAt w e pa).count = leNat (bytesAt (seen u e.b.core) (pa + 8) 8) ∧ (hdrAt w e pa).raw = bytesAt (seen u e.b.core) pa 64 := by
  obtain ⟨hq, hseen⟩ := hs q
  have hraw : (w.engineLoad (some e.b.core) pa 64).1 = bytesAt (seen u e.b.core) pa 64 :=
    (engineLoad_quiet hq pa 64).trans (bytesAt_congr fun a _ _ => hseen a)
  have h0 : bitsOf (bytesAt (seen u e.b.core) pa 64) 0 64 = leNat (bytesAt (seen u e.b.core) pa 8) :=
    bitsOf_bytes (seen u e.b.core) pa (i := 0) (k := 8) (by decide)
  have h8 : bitsOf (bytesAt (seen u e.b.core) pa 64) 64 64 = leNat (bytesAt (seen u e.b.core) (pa + 8) 8) :=
    bitsOf_bytes (seen u e.b.core) pa (i := 8) (k := 8) (by decide)
  refine ⟨rfl, ?_, ?_, hraw⟩
  · rw [hdrAt, hraw, h0]
  · rw [hdrAt, hraw, h8]

/-- R309: the fields that make a header good. -/
def GoodFields (gang : Nat) (last : Nat) (L : Dword) (count : Nat) : Prop :=
  last / 2 ^ 6 = 0 ∧ last / 2 ^ 4 % 4 < 2 ∧ last % 2 ^ 4 = gang ∧ 0 < L.toNat / 2 ^ 52 ∧ L.toNat / 2 ^ 52 < 2047 ∧ 0 < count ∧
    count ≤ 4194304

theorem hdrBad_fields {e : Env} {h : MHdr} {f : Nat → Byte} {pa : Nat} (hr : h.raw = bytesAt f pa 64) :
    hdrBad e h = false ↔ GoodFields (gangOf e.b.core) (leNat (bytesAt f (pa + 32) 32)) h.limit h.count := by
  have hlt := leNat_lt (bytesAt f (pa + 32) 32)
  rw [length_bytesAt] at hlt
  have hz : bitsOf h.raw 262 250 = leNat (bytesAt f (pa + 32) 32) / 2 ^ 6 := by
    rw [hr, bitsOf_high f pa 6 250]
    refine Nat.mod_eq_of_lt ?_
    rw [Nat.div_lt_iff_lt_mul (by decide), ← Nat.pow_add]
    exact lt_of_lt_of_eq hlt (by rw [show (256 : Nat) = 2 ^ 8 from rfl, ← Nat.pow_mul])
  have hst : bitsOf h.raw 260 2 = leNat (bytesAt f (pa + 32) 32) / 2 ^ 4 % 4 := by rw [hr, bitsOf_high f pa 4 2]; rfl
  have hg : bitsOf h.raw 256 4 = leNat (bytesAt f (pa + 32) 32) % 2 ^ 4 := by
    rw [hr, bitsOf_high f pa 0 4, Nat.pow_zero, Nat.div_one]
  have hle (x : Nat) : x ≤ 1 ↔ x < 2 := Nat.lt_succ_iff.symm
  rw [hdrBad_false, hz, hst, hg, limitOk, Bool.and_eq_true, decide_eq_true_iff, decide_eq_true_iff, GoodFields, and_assoc, hle,
    Nat.pos_iff_ne_zero (n := h.count)]

section Header
variable {u : State} {e : Env} {va : Dword} {pa : Nat}

/-- R309, R310: a header in aligned bed memory that can be read is read where its fields are good, and refused otherwise. -/
theorem mergeHdr_fields
    (hacc : (u.walked (e.walker u) va 64).checkAccess (e.walker (u.walked (e.walker u) va 64)) va 64 (askTarget false) (fun _ => none) =
      .ok [(.mem pa, 64)]) (hbed : ∃ n, pclass pa = .bed n) (hbad : u.badIn pa 64 = none) (q : Quiet u e.b.core) (ha : va.toNat % 64 = 0) :
    let L := BitVec.ofNat 64 (leNat (bytesAt (seen u e.b.core) pa 8))
    let count := leNat (bytesAt (seen u e.b.core) (pa + 8) 8)
    let good := GoodFields (gangOf e.b.core) (leNat (bytesAt (seen u e.b.core) (pa + 32) 32)) L count
    (good ↔ ∃ h, (u.mergeHdr e va).1 = .ok h) ∧
      (∀ h, (u.mergeHdr e va).1 = .ok h → h.pa = pa ∧ h.limit = L ∧ h.count = count) ∧ (¬good → (u.mergeHdr e va).1 = .status 1) := by
  intro L count good
  obtain ⟨hpa, hl, hc, hraw⟩ := hdrAt_quiet (seesSame_walked u (walker_die u e) va 64) q pa
  have hread := congrArg Prod.fst (mergeHdr_read u e va hacc ha (bedPa_mem hbed) ((badIn_traffic (traffic_walked _ _ _ _) pa 64).trans hbad))
  have hfields := hdrBad_fields (e := e) hraw
  rw [hl, hc] at hfields
  generalize hdrAt (u.walked (e.walker u) va 64) e pa = h0 at hpa hl hc hread hfields
  dsimp only at hread
  cases hb : hdrBad e h0 with
  | false =>
    rw [hb, if_neg Bool.false_ne_true] at hread
    have hgood : good := hfields.mp hb
    refine ⟨⟨fun _ => ⟨h0, hread⟩, fun _ => hgood⟩, fun h hh => ?_, fun hn => absurd hgood hn⟩
    cases hread.symm.trans hh
    exact ⟨hpa, hl, hc⟩
  | true =>
    rw [hb, if_pos rfl] at hread
    have hno : ¬good := fun hg => Bool.false_ne_true ((hfields.mpr hg).symm.trans hb)
    refine ⟨⟨fun hg => absurd hg hno, fun ⟨h, hh⟩ => ?_⟩, fun h hh => ?_, fun _ => hread⟩
    · cases hread.symm.trans hh
    · cases hread.symm.trans hh

/-- COMMITTED's low half of a good header. -/
theorem committed_low {h : MHdr} (hr : (u.mergeHdr e va).1 = .ok h) (q : Quiet u e.b.core) :
    (BitVec.ofNat 32 (bitsOf h.raw 128 32)).toNat = leNat (bytesAt (seen u e.b.core) (h.pa + 16) 4) := by
  have h4 : bitsOf (bytesAt (seen u e.b.core) h.pa 64) 128 32 = leNat (bytesAt (seen u e.b.core) (h.pa + 16) 4) :=
    bitsOf_bytes (seen u e.b.core) h.pa (i := 16) (k := 4) (by decide)
  have hlt := leNat_lt (bytesAt (seen u e.b.core) (h.pa + 16) 4)
  rw [length_bytesAt] at hlt
  rw [(mergeHdr_ok u e va hr).raw q, h4, BitVec.toNat_ofNat]
  exact Nat.mod_eq_of_lt hlt

theorem mergeValue_lt (w : BitVec 128) (l : Dword) : mergeValue w l < 2 ^ 32 := by
  unfold mergeValue
  exact lt_of_lt_of_eq (round_bits_lt fits_f32 _ _ _ _ _ _ _) (by decide)

end Header

/-! What the instructions answer. -/

/-- R311: what staging comes to once its source has been fetched, for a count in range. -/
def stageOutcome (e : Env) (d : BitVec 6) (f : MgFmt) (hs off cnt : Sel) (x : Option (List Byte × Option Nat)) (T : State) : State :=
  match x, T.mslot e (e.readU hs) with
  | none, _ => T.mergeStatus e d 7
  | some _, none => T.mergeStatus e d 4
  | some (bytes, bad), some m =>
    if m.st != .opened then T.mergeStatus e d 4
    else if decide (m.count < (e.readU off).toNat + (e.readU cnt).toNat) ||
        m.elems.any (fun x => (e.readU off).toNat ≤ x.1 && x.1 < (e.readU off).toNat + (e.readU cnt).toNat) then T.mergeStatus e d 5
    else
      match bad with
      | some l => T.unitHalt e 4 l
      | none => (T.putMslot m (some { m with
          elems := m.elems ++ stageElems f (e.readU off).toNat (e.readU cnt).toNat bytes, last := T.devtime })).mergeStatus e d 0

/-- A merge instruction completes with a status, the slots as given, memory traffic aside. -/
def MergeAnswers (s u : State) (e : Env) (d : BitVec 6) (i : Instr) (slots : List MSlot) (n : Nat) : Prop :=
  ∃ T t, exec i s = .next t ∧ Traffic { u with mslots := slots } T ∧ Queued T t e (.sreg d.toNat (BitVec.ofNat 64 n))

/-- The state in which the merge unit serves the batch. -/
def mergeState (s : State) (e : Env) : State := serving s (1 + 2 * gangOf e.b.core) e.b.ctx

/-- Registers that a read of a merge word will bring. -/
theorem vreg_reading (s : State) (e : Env) (v n : Nat) : vreg ((mergeState s e).tagG e v 2) e.b.uid e.sp.m n =
    (vreg s e.b.uid e.sp.m n).map (fun r => if v ≤ n ∧ n < v + 2 then { r with tag := .g } else r) :=
  (vreg_tagG (mergeState s e) e v 2 n).trans (congrArg (Option.map _) (vreg_serving s _ e.b.ctx _ _ n))

section Answers
variable {s : State} {e : Env} {d : BitVec 6}

theorem answers_of {u T : State} {i : Instr} {slots : List MSlot} {n : Nat} (hx : exec i s = .next (T.mergeStatus e d n))
    (hT : Traffic { u with mslots := slots } T) : MergeAnswers s u e d i slots n :=
  ⟨T, _, hx, hT, addOp_queued T e _⟩

variable (h : s.env = some e) (hs : Serves s (1 + 2 * gangOf e.b.core) e.b.ctx)
include h hs

theorem exec_mgopen (target contrib : Sel) : exec (.mgopen d target contrib) s = .next (
    match (mergeState s e).mergeHdr e (e.readU target) with
    | (.bad l, s) => s.unitHalt e 4 l
    | (.status n, s) => s.mergeStatus e d n
    | (.ok h, s) =>
      let gang := gangOf e.b.core
      let mine := s.mslots.filter (fun m => m.gang == gang)
      match (List.range 8).find? (fun i => !mine.any (fun m => m.idx == i)) with
      | none => s.mergeStatus e d 2
      | some i =>
        if mine.any (fun m => m.pa == h.pa && m.contrib == e.readU contrib && m.st != .nonfinite) then s.mergeStatus e d 3
        else
          let m : MSlot :=
            { gang := gang, idx := i, ctx := e.b.ctx, target := e.readU target, pa := h.pa, contrib := e.readU contrib
              count := h.count, limit := h.limit, st := .opened, elems := [], scale := 0, last := s.devtime }
          ({ s with mslots := m :: s.mslots }).mergeStatus e d (i * 2 ^ 8)) := by
  change execMgopen d target contrib s = _
  rw [execMgopen, within_env h, State.atMerge, withUnit_served hs]
  rfl

theorem mgopen_status (target contrib : Sel) {st : Nat} (hr : ((mergeState s e).mergeHdr e (e.readU target)).1 = .status st) :
    MergeAnswers s (mergeState s e) e d (.mgopen d target contrib) (mergeState s e).mslots st := by
  have hx := exec_mgopen (d := d) h hs target contrib
  have htr := traffic_mergeHdr (mergeState s e) e (e.readU target)
  generalize (mergeState s e).mergeHdr e (e.readU target) = p at hr hx htr
  obtain ⟨x, T⟩ := p
  dsimp only at hr htr
  subst hr
  exact answers_of hx htr

/-- R310: the lowest free slot is taken, where there is one and the contributor is not open on the target. -/
theorem mgopen_ok (target contrib : Sel) {hd : MHdr} (hr : ((mergeState s e).mergeHdr e (e.readU target)).1 = .ok hd) :
    let u := mergeState s e
    let mine := u.mslots.filter (fun m => m.gang == gangOf e.b.core)
    ((∀ j, j < 8 → ∃ x ∈ mine, x.idx = j) → MergeAnswers s u e d (.mgopen d target contrib) u.mslots 2) ∧
      ∀ i, i < 8 → (∀ x ∈ mine, x.idx ≠ i) → (∀ j, j < i → ∃ x ∈ mine, x.idx = j) →
        if ∃ x ∈ mine, x.pa = hd.pa ∧ x.contrib = e.readU contrib ∧ x.st ≠ .nonfinite then
          MergeAnswers s u e d (.mgopen d target contrib) u.mslots 3
        else MergeAnswers s u e d (.mgopen d target contrib)
          ({ gang := gangOf e.b.core, idx := i, ctx := e.b.ctx, target := e.readU target, pa := hd.pa, contrib := e.readU contrib
             count := hd.count, limit := hd.limit, st := .opened, elems := [], scale := 0, last := u.devtime } :: u.mslots) (i * 256) := by
  intro u mine
  have hx := exec_mgopen (d := d) h hs target contrib
  have htr : Traffic u (u.mergeHdr e (e.readU target)).2 := traffic_mergeHdr u e (e.readU target)
  have hr : (u.mergeHdr e (e.readU target)).1 = .ok hd := hr
  change exec (.mgopen d target contrib) s = .next (match u.mergeHdr e (e.readU target) with
    | (.bad l, s) => _ | (.status n, s) => _ | (.ok h, s) => _) at hx
  generalize u.mergeHdr e (e.readU target) = p at hr hx htr
  obtain ⟨x, T⟩ := p
  dsimp only at hr htr
  subst hr
  have hms : T.mslots = u.mslots := (congrArg State.mslots htr.1 :)
  have hdev : T.devtime = u.devtime := (congrArg State.devtime htr.1 :)
  dsimp only at hx
  rw [hms] at hx
  have hany (i : Nat) : mine.any (fun m => m.idx == i) = true ↔ ∃ x ∈ mine, x.idx = i := by simp only [List.any_eq_true, beq_iff_eq]
  refine ⟨fun hall => ?_, fun i hi hfree hlow => ?_⟩
  · have hfind : (List.range 8).find? (fun i => !mine.any (fun m => m.idx == i)) = none :=
      List.find?_eq_none.mpr fun j hj => by
        rw [(hany j).mpr (hall j (List.mem_range.mp hj))]
        decide
    change exec (.mgopen d target contrib) s = .next (match (List.range 8).find? (fun i => !mine.any (fun m => m.idx == i)) with
      | none => _ | some i => _) at hx
    rw [hfind] at hx
    exact answers_of hx htr
  · have hfind : (List.range 8).find? (fun i => !mine.any (fun m => m.idx == i)) = some i := by
      rw [List.find?_range_eq_some]
      refine ⟨?_, List.mem_range.mpr hi, fun j hj => ?_⟩
      · rw [Bool.not_eq_true', ← Bool.not_eq_true, hany]
        exact fun ⟨x, hx, hxi⟩ => hfree x hx hxi
      · rw [Bool.not_not]
        exact (hany j).mpr (hlow j hj)
    change exec (.mgopen d target contrib) s = .next (match (List.range 8).find? (fun i => !mine.any (fun m => m.idx == i)) with
      | none => _ | some i => _) at hx
    rw [hfind] at hx
    dsimp only at hx
    have hdup : mine.any (fun m => m.pa == hd.pa && m.contrib == e.readU contrib && m.st != .nonfinite) = true ↔
        ∃ x ∈ mine, x.pa = hd.pa ∧ x.contrib = e.readU contrib ∧ x.st ≠ .nonfinite := by
      simp only [List.any_eq_true, Bool.and_eq_true, beq_iff_eq, bne_iff_ne, and_assoc]
    split
    · rw [if_pos (hdup.mpr ‹_›)] at hx
      exact answers_of hx htr
    · rw [if_neg (fun hc => absurd (hdup.mp hc) ‹_›)] at hx
      rw [← hdev]
      exact answers_of hx (traffic_mslots htr _)

/-- The close and the commit are queued. -/
theorem mgclose_queued (hs' : Sel) :
    ∃ t, exec (.mgclose d hs') s = .next t ∧ Queued (mergeState s e) t e (.mgclose d.toNat (e.readU hs')) := by
  refine ⟨_, ?_, addOp_queued (mergeState s e) e _⟩
  change execMgclose d hs' s = _
  rw [execMgclose, within_env h, State.atMerge, withUnit_served hs]
  rfl

theorem mgcommit_queued (hs' : Sel) :
    ∃ t, exec (.mgcommit d hs') s = .next t ∧ Queued (mergeState s e) t e (.mgcommit d.toNat (e.readU hs')) := by
  refine ⟨_, ?_, addOp_queued (mergeState s e) e _⟩
  change execMgcommit d hs' s = _
  rw [execMgcommit, within_env h, State.atMerge, withUnit_served hs]
  rfl

/-- An abort frees the slot. -/
theorem mgabort_answers (hs' : Sel) :
    ((mergeState s e).mslot e (e.readU hs') = none → MergeAnswers s (mergeState s e) e d (.mgabort d hs') (mergeState s e).mslots 4) ∧
      ∀ m, (mergeState s e).mslot e (e.readU hs') = some m → MergeAnswers s (mergeState s e) e d (.mgabort d hs')
        ((mergeState s e).mslots.filter (fun x => !(x.gang == m.gang && x.idx == m.idx))) 0 := by
  have hx : exec (.mgabort d hs') s = .next (match (mergeState s e).mslot e (e.readU hs') with
      | none => (mergeState s e).mergeStatus e d 4
      | some m => ((mergeState s e).putMslot m none).mergeStatus e d 0) := by
    change execMgabort d hs' s = _
    rw [execMgabort, within_env h, State.atMerge, withUnit_served hs]
    rfl
  refine ⟨fun hm => ?_, fun m hm => ?_⟩
  · rw [hm] at hx
    exact answers_of hx (.refl _)
  · rw [hm] at hx
    exact answers_of hx (.refl _)

/-- Staging, once the firmware of the die runs and the count is in range. -/
theorem exec_mgstage {f : MgFmt} (hs' src off cnt : Sel) (hf : s.firmwareOn (dieOf e.b.core) = true) (h1 : 1 ≤ (e.readU cnt).toNat)
    (hn : (e.readU cnt).toNat ≤ 65536) : exec (.mgstage d f hs' src off cnt) s = .next (stageOutcome e d f hs' off cnt
      ((mergeState s e).fetchVirt e (e.readU src) ((e.readU cnt).toNat * mgSize f)).1
      ((mergeState s e).fetchVirt e (e.readU src) ((e.readU cnt).toNat * mgSize f)).2) := by
  have hsized : (decide (1 ≤ (e.readU cnt).toNat) && decide ((e.readU cnt).toNat ≤ 65536)) = true := by
    rw [decide_eq_true h1, decide_eq_true hn]
    rfl
  change execMgstage d f hs' src off cnt s = _
  rw [execMgstage, within_env h, State.atStaging, hf, if_pos rfl, State.atMerge, withUnit_served hs]
  dsimp only
  rw [hsized, if_pos rfl]
  rfl

/-- Elements staged from a fetched range. -/
theorem mgstage_answers {f : MgFmt} {l : List (Loc × Nat)} {m : MSlot} (hs' src off cnt : Sel) (hf : s.firmwareOn (dieOf e.b.core) = true)
    (h1 : 1 ≤ (e.readU cnt).toNat) (hn : (e.readU cnt).toNat ≤ 65536) (hm : (mergeState s e).mslot e (e.readU hs') = some m)
    (hacc : ((mergeState s e).walked (e.walker (mergeState s e)) (e.readU src) ((e.readU cnt).toNat * mgSize f)).checkAccess
      (e.walker ((mergeState s e).walked (e.walker (mergeState s e)) (e.readU src) ((e.readU cnt).toNat * mgSize f)))
      (e.readU src) ((e.readU cnt).toNat * mgSize f) askRead (fun _ => none) = .ok l) (hbad : (mergeState s e).badLocs l = none) :
    let u := mergeState s e
    let n := (e.readU cnt).toNat
    let o := (e.readU off).toNat
    let w1 := u.walked (e.walker u) (e.readU src) (n * mgSize f)
    if m.st ≠ .opened then MergeAnswers s u e d (.mgstage d f hs' src off cnt) u.mslots 4
    else if m.count < o + n ∨ ∃ x ∈ m.elems, o ≤ x.1 ∧ x.1 < o + n then MergeAnswers s u e d (.mgstage d f hs' src off cnt) u.mslots 5
    else MergeAnswers s u e d (.mgstage d f hs' src off cnt)
      ({ m with elems := m.elems ++ stageElems f o n (w1.readLocs (some e.b.core) l).1, last := u.devtime } ::
        u.mslots.filter (fun x => !(x.gang == m.gang && x.idx == m.idx))) 0 := by
  intro u n o w1
  have hx := exec_mgstage (d := d) (f := f) h hs hs' src off cnt hf h1 hn
  have hw := traffic_walked u (e.walker u) (e.readU src) (n * mgSize f)
  have htr : Traffic u (w1.readLocs (some e.b.core) l).2 := hw.trans (traffic_readLocs _ _ _)
  rw [fetchVirt_ok rfl hacc, (badLocs_traffic hw l).trans hbad] at hx
  change exec (.mgstage d f hs' src off cnt) s = .next (stageOutcome e d f hs' off cnt (some ((w1.readLocs (some e.b.core) l).1, none))
    (w1.readLocs (some e.b.core) l).2) at hx
  generalize w1.readLocs (some e.b.core) l = p at hx htr ⊢
  obtain ⟨bytes, T⟩ := p
  dsimp only at hx htr ⊢
  have hms : T.mslots = u.mslots := (congrArg State.mslots htr.1 :)
  have hdev : T.devtime = u.devtime := (congrArg State.devtime htr.1 :)
  have hslot : T.mslot e (e.readU hs') = some m := by
    rw [State.mslot, hms]
    exact hm
  have hover : (decide (m.count < o + n) || m.elems.any (fun x => o ≤ x.1 && x.1 < o + n)) = true ↔
      (m.count < o + n ∨ ∃ x ∈ m.elems, o ≤ x.1 ∧ x.1 < o + n) := by
    simp only [Bool.or_eq_true, decide_eq_true_iff, List.any_eq_true, Bool.and_eq_true]
  unfold stageOutcome at hx
  rw [hslot] at hx
  dsimp only at hx
  split
  · rw [if_pos (bne_iff_ne.mpr ‹_›)] at hx
    exact answers_of hx htr
  · rename_i hst
    rw [if_neg (fun hc => hst (bne_iff_ne.mp hc))] at hx
    split
    · rw [if_pos (hover.mpr ‹_›)] at hx
      exact answers_of hx htr
    · rename_i ho
      rw [if_neg (fun hc => ho (hover.mp hc))] at hx
      have hput : Traffic { u with mslots := { m with elems := m.elems ++ stageElems f o n bytes, last := T.devtime } ::
            (u.mslots.filter (fun x => !(x.gang == m.gang && x.idx == m.idx))) }
          (T.putMslot m (some { m with elems := m.elems ++ stageElems f o n bytes, last := T.devtime })) := by
        rw [State.putMslot, hms]
        exact traffic_mslots htr _
      rw [← hdev]
      exact answers_of hx hput

/-- A source that cannot be read. -/
theorem mgstage_unread {f : MgFmt} {x : Stop} (hs' src off cnt : Sel) (hf : s.firmwareOn (dieOf e.b.core) = true)
    (h1 : 1 ≤ (e.readU cnt).toNat) (hn : (e.readU cnt).toNat ≤ 65536)
    (hacc : ((mergeState s e).walked (e.walker (mergeState s e)) (e.readU src) ((e.readU cnt).toNat * mgSize f)).checkAccess
      (e.walker ((mergeState s e).walked (e.walker (mergeState s e)) (e.readU src) ((e.readU cnt).toNat * mgSize f)))
      (e.readU src) ((e.readU cnt).toNat * mgSize f) askRead (fun _ => none) = .error x) :
    MergeAnswers s (mergeState s e) e d (.mgstage d f hs' src off cnt) (mergeState s e).mslots 7 := by
  have hx := exec_mgstage (d := d) (f := f) h hs hs' src off cnt hf h1 hn
  rw [fetchVirt_error rfl hacc] at hx
  exact answers_of hx (traffic_walked _ _ _ _)

/-! Reading (R313). -/

theorem exec_mgread_stable (v : BitVec 7) (target cnt : Sel) : exec (.mgread v true target cnt) s = .next (
    if (e.r.exec.map (fun k => (k, e.read true target k, (e.read32 cnt k).toNat))).any (fun x => (mergeState s e).committing e x.2.1) then
      ((mergeState s e).tagG e v.toNat 2).addOp e e.r.exec (.mgstable v.toNat (e.r.exec.flatMap (fun k => [(k, v.toNat), (k, v.toNat + 1)]))
        (e.r.exec.map (fun k => (k, e.read true target k, (e.read32 cnt k).toNat))))
    else
      match ((mergeState s e).acq e .dev).mergeReads e (fun k => (e.read true target k, (e.read32 cnt k).toNat)) e.r.exec with
      | (.error l, s) => s.unitHalt e 4 l
      | (.ok res, s) =>
        s.issueRegs e v.toNat 2 (fun k =>
          match res.find? (fun x => x.1 == k) with
          | some x => [x.2.1, x.2.2]
          | none => [0, 0])) := by
  change execMgread v true target cnt s = _
  rw [execMgread, within_env h, State.atMerge, withUnit_served hs, if_pos rfl]
  rfl

theorem exec_mgread_plain (v : BitVec 7) (target cnt : Sel) : exec (.mgread v false target cnt) s = .next (
    e.r.exec.foldl (fun t k => t.addOp e [k] (.mgread k v.toNat [v.toNat, v.toNat + 1] (e.read true target k) (e.read32 cnt k).toNat))
      ((mergeState s e).tagG e v.toNat 2)) := by
  change execMgread v false target cnt s = _
  rw [execMgread, within_env h, State.atMerge, withUnit_served hs, if_neg Bool.false_ne_true]
  rfl

/-- A stable read waits for the commits in progress on its targets. -/
theorem mgread_committing (v : BitVec 7) (target cnt : Sel)
    (hc : ∃ k ∈ e.r.exec, (mergeState s e).committing e (e.read true target k) = true) :
    ∃ t, exec (.mgread v true target cnt) s = .next t ∧
      t = { mergeState s e with blocks := t.blocks, ops := t.ops, nextId := (mergeState s e).nextId + 1 } ∧
      (∀ n, vreg t e.b.uid e.sp.m n = (vreg s e.b.uid e.sp.m n).map (fun r =>
        if v.toNat ≤ n ∧ n < v.toNat + 2 then { r with tag := .g } else r)) ∧
      ∃ o live, t.ops = (mergeState s e).ops ++ [o] ∧ o.id = (mergeState s e).nextId ∧ o.slots = e.r.exec ∧ o.token = e.r.token ∧
        o.kind = .mgstable v.toNat live (e.r.exec.map (fun k => (k, e.read true target k, (e.read32 cnt k).toNat))) := by
  have hany : (e.r.exec.map (fun k => (k, e.read true target k, (e.read32 cnt k).toNat))).any
      (fun x => (mergeState s e).committing e x.2.1) = true := by
    rw [List.any_map, List.any_eq_true]
    exact hc
  refine ⟨_, (exec_mgread_stable h hs v target cnt).trans (congrArg Host.Outcome.next (if_pos hany)), rfl,
    fun n => vreg_reading s e v.toNat n, _, _, rfl, rfl, rfl, rfl, rfl⟩

/-- A stable read of targets at rest reads at once. -/
theorem mgread_stable (v : BitVec 7) (target cnt : Sel) {xs : List (Nat × Word × Word)} {s2 : State}
    (hc : ∀ k ∈ e.r.exec, (mergeState s e).committing e (e.read true target k) = false)
    (hr : ((mergeState s e).acq e .dev).mergeReads e (fun k => (e.read true target k, (e.read32 cnt k).toNat)) e.r.exec = (.ok xs, s2)) :
    ∃ t, exec (.mgread v true target cnt) s = .next t ∧ Traffic (mergeState s e) s2 ∧
      Issued s2 t e v.toNat 2 (fun k => match xs.find? (fun x => x.1 == k) with
        | some x => [x.2.1, x.2.2]
        | none => [0, 0]) := by
  have hany : ¬(e.r.exec.map (fun k => (k, e.read true target k, (e.read32 cnt k).toNat))).any
      (fun x => (mergeState s e).committing e x.2.1) = true := by
    rw [List.any_map, List.any_eq_true]
    exact fun ⟨k, hk, hkc⟩ => Bool.false_ne_true ((hc k hk).symm.trans hkc)
  have htr := (traffic_acq (mergeState s e) e .dev).trans
    (traffic_mergeReads e (fun k => (e.read true target k, (e.read32 cnt k).toNat)) e.r.exec _)
  have hx := (exec_mgread_stable h hs v target cnt).trans (congrArg Host.Outcome.next (if_neg hany))
  rw [hr] at hx htr
  exact ⟨_, hx, htr, issueRegs_issued s2 e v.toNat 2 _⟩

/-- A plain read issues one operation for each slot. -/
theorem mgread_plain (v : BitVec 7) (target cnt : Sel) : ∃ t, exec (.mgread v false target cnt) s = .next t ∧
    t = { mergeState s e with blocks := t.blocks, ops := t.ops, nextId := (mergeState s e).nextId + e.r.exec.length } ∧
    (∀ n, vreg t e.b.uid e.sp.m n = (vreg s e.b.uid e.sp.m n).map (fun r =>
      if v.toNat ≤ n ∧ n < v.toNat + 2 then { r with tag := .g } else r)) ∧
    t.ops = (mergeState s e).ops ++ e.r.exec.zipIdx.map (fun x =>
      { id := (mergeState s e).nextId + x.2, blk := e.b.uid, m := e.sp.m, ctx := e.b.ctx, core := e.b.core, spid := e.sp.spid
        slots := [x.1], token := e.r.token, hdr := e.r.hdr, start := (mergeState s e).devtime
        kind := .mgread x.1 v.toNat [v.toNat, v.toNat + 1] (e.read true target x.1) (e.read32 cnt x.1).toNat }) :=
  ⟨_, (exec_mgread_plain h hs v target cnt).trans (congrArg Host.Outcome.next
    (foldl_addOp e (fun k => .mgread k v.toNat [v.toNat, v.toNat + 1] (e.read true target k) (e.read32 cnt k).toNat) e.r.exec _)),
    rfl, fun n => vreg_reading s e v.toNat n, rfl⟩

end Answers

/-- What staging takes from quiet memory. -/
theorem stageElems_get {f : MgFmt} {o n j : Nat} {d : List Byte} (hj : j < n) : (stageElems f o n d)[j]? =
    some (o + j, f, BitVec.ofNat 32 (leNat ((d.drop (j * mgSize f)).take (mgSize f)))) := by
  rw [stageElems, List.getElem?_map, range_get hj]
  rfl

theorem staged_quiet {f : MgFmt} (g : Nat → Byte) {pa n j : Nat} (hj : j < n) :
    (BitVec.ofNat 32 (leNat (((bytesAt g pa (n * mgSize f)).drop (j * mgSize f)).take (mgSize f)))).toNat =
      leNat (bytesAt g (pa + j * mgSize f) (mgSize f)) := by
  have hfit : j * mgSize f + mgSize f ≤ n * mgSize f := by
    rw [← Nat.succ_mul]
    exact Nat.mul_le_mul_right _ hj
  have hlt := leNat_lt (bytesAt g (pa + j * mgSize f) (mgSize f))
  rw [length_bytesAt] at hlt
  have h32 : 256 ^ mgSize f ≤ 2 ^ 32 := by cases f <;> decide
  rw [bytesAt_chunk g pa hfit, BitVec.toNat_ofNat]
  exact Nat.mod_eq_of_lt (lt_of_lt_of_le hlt h32)

/-! Batches held (R380, R414). -/
section Held
variable {s : State} {e : Env} {d : BitVec 6}

theorem held_of {i : Instr} {unit : Nat} {f : State → State} (hx : exec i s = .next (s.withUnit e unit f)) (hno : ¬Serves s unit e.b.ctx) :
    ∃ t, exec i s = .next t ∧ HeldAt s t e := ⟨_, hx, withUnit_held hno f⟩

theorem atStaging_held (hf : s.firmwareOn (dieOf e.b.core) = true) (hno : ¬Serves s (1 + 2 * gangOf e.b.core) e.b.ctx) (g : State → State) :
    HeldAt s (s.atStaging e g) e := by
  rw [State.atStaging, hf, if_pos rfl]
  exact withUnit_held hno g

variable (h : s.env = some e)
include h

theorem mgstage_unstaffed {f : MgFmt} (hs src off cnt : Sel) (hf : s.firmwareOn (dieOf e.b.core) = false) :
    ∃ t, exec (.mgstage d f hs src off cnt) s = .next t ∧ HeldAt s t e := by
  refine ⟨s.hold e, ?_, rfl, rfl⟩
  change execMgstage d f hs src off cnt s = _
  rw [execMgstage, within_env h, State.atStaging, hf, if_neg Bool.false_ne_true]

theorem merge_held (hno : ¬Serves s (1 + 2 * gangOf e.b.core) e.b.ctx) (v : BitVec 7) (target contrib hs src off cnt : Sel) (f : MgFmt)
    (stable : Bool) :
    (∀ j ∈ ([.mgopen d target contrib, .mgclose d hs, .mgcommit d hs, .mgabort d hs, .mgread v stable target cnt] : List Instr),
      ∃ t, exec j s = .next t ∧ HeldAt s t e) ∧ ∃ t, exec (.mgstage d f hs src off cnt) s = .next t ∧ HeldAt s t e := by
  refine ⟨fun j hj => ?_, ?_⟩
  · simp only [List.mem_cons, List.not_mem_nil, or_false] at hj
    obtain rfl | rfl | rfl | rfl | rfl := hj
    · exact held_of (within_env h _) hno
    · exact held_of (within_env h _) hno
    · exact held_of (within_env h _) hno
    · exact held_of (within_env h _) hno
    · exact held_of (within_env h _) hno
  · cases hf : s.firmwareOn (dieOf e.b.core) with
    | false => exact mgstage_unstaffed h hs src off cnt hf
    | true => exact ⟨_, within_env h _, atStaging_held hf hno _⟩

end Held

/-- A timer of an open slot (R311). -/
theorem mergeTimeout_exec {s : State} {g k : Nat} {m : MSlot} (hm : s.mslots.find? (fun m => m.gang == g && m.idx == k) = some m) :
    exec (.mergeTimeout g k) s = .next (
      if m.st = .opened ∧ m.last + 1000 * ((s.ctx m.ctx).map (fun c => c.desc.mgto)).getD 0 ≤ s.devtime then
      { s with mslots := s.mslots.filter (fun x => !(x.gang == m.gang && x.idx == m.idx)) } else s) := by
  change execMergeTimeout g k s = _
  rw [execMergeTimeout, hm]
  dsimp only
  split <;> rename_i hc <;> rw [Bool.and_eq_true, beq_iff_eq, decide_eq_true_iff] at hc
  · rw [if_pos hc]
    rfl
  · rw [if_neg hc]

/-- Settles O35: each instruction's answer, state by state of its slot and its target's header; held batches change nothing. -/
theorem mergeInstructions : Obligations.MergeInstructions := by
  intro s e d v target contrib hs src off cnt f stable hd m s1 st i pa l h gang unit
  refine ⟨fun hno => merge_held h hno v target contrib hs src off cnt f stable, fun hf => mgstage_unstaffed h hs src off cnt hf,
    fun hserves => ?_⟩
  intro u ends mine others va bytes good
  refine ⟨?_, mgopen_status h hserves target contrib, ?_, mgclose_queued h hserves hs, mgcommit_queued h hserves hs,
    (mgabort_answers h hserves hs).1, ?_, ?_, ?_, ?_, ?_, ?_, ?_, fun hr => mergeRead_status u e va hr i, fun g k hm => mergeTimeout_exec hm⟩
  · intro hacc hal hbed hbad q ha L
    exact mergeHdr_fields hacc hbed hbad q ha
  · intro hr
    obtain ⟨hfull, hfree⟩ := mgopen_ok (d := d) h hserves target contrib hr
    exact ⟨hfull, hfree i⟩
  · intro hm
    refine ⟨(mgabort_answers h hserves hs).2 m hm, ?_⟩
    intro n o w1 hf h1 hn hacc hmem hbad
    have hst := mgstage_answers (d := d) (f := f) h hserves hs src off cnt hf h1 hn hm hacc hbad
    split
    · rw [if_pos ‹_›] at hst
      exact hst
    · rw [if_neg ‹_›] at hst
      split
      · rw [if_pos ‹_›] at hst
        exact hst
      · rw [if_neg ‹_›] at hst
        refine ⟨_, hst, by rw [stageElems, List.length_map, List.length_range], fun j hj => ⟨_, stageElems_get hj, fun q hl => ?_⟩⟩
        obtain ⟨hq, hsame⟩ := seesSame_walked u (walker_die u e) (e.readU src) (n * mgSize f) q
        subst hl
        have hread : (w1.readLocs (some e.b.core) [(.mem pa, n * mgSize f)]).1 = bytesAt (seen u e.b.core) pa (n * mgSize f) :=
          (readLocs_mem _ hq _ _).trans (bytesAt_congr fun a _ _ => hsame a)
        exact (congrArg (fun d => (BitVec.ofNat 32 (leNat ((List.drop (j * mgSize f) d).take (mgSize f)))).toNat) hread).trans
          (staged_quiet (seen u e.b.core) hj)
  · intro n w1 hf h1 hn ⟨x, hx⟩
    exact mgstage_unread h hserves hs src off cnt hf h1 hn hx
  · intro hc
    exact mgread_committing h hserves v target cnt hc
  · intro xs s2 hc hreads
    exact mgread_stable h hserves v target cnt hc hreads
  · exact mgread_plain h hserves v target cnt
  · intro hr hi hbed hbad q w1 hacc
    have hr1 : (u.mergeHdr e va).1 = .ok hd := by rw [hr]
    have hss1 : SeesSame e.b.core u s1 := by have := seesSame_mergeHdr u e va; rwa [hr] at this
    obtain ⟨hq, hseen⟩ := (hss1.trans (seesSame_walked s1 (walker_die s1 e) (va + 64 + BitVec.ofNat 64 (16 * i)) 16)) q
    refine ⟨_, _, mergeRead_word u e va hr hi rfl hacc (bedPa_mem hbed) ((badIn_traffic (traffic_walked _ _ _ _) pa 16).trans hbad),
      committed_low hr1 q, ?_⟩
    rw [engineLoad_quiet hq, bytesAt_congr fun a _ _ => hseen a, BitVec.toNat_ofNat]
    exact Nat.mod_eq_of_lt (mergeValue_lt _ _)
  · intro hr hi q
    exact ⟨_, mergeRead_past u e va hr hi, committed_low (by rw [hr]) q⟩

end Sys2Proof.Safety
end

section
/-! PROOF. The operator instructions (R128 to R131, R133, R138 to R144, R307, R308). -/

namespace Sys2Proof.Safety

open Sys2Proof Sys2Proof.Machine

/-! What `opinst` reads changes nothing (R131). -/

theorem traffic_fetchVirt (s : State) (e : Env) (va : Dword) (n : Nat) : Traffic s (s.fetchVirt e va n).2 := by
  have hw := traffic_walked s (e.walker s) va n
  unfold State.fetchVirt
  dsimp only
  split
  · exact hw
  · exact hw.trans (traffic_readLocs _ _ _)

theorem traffic_fetchPart (e : Env) : ∀ (l : List (Nat × Nat)) (s : State), Traffic s (s.fetchPart e l).2.2.2
  | [], s => .refl s
  | (a, n) :: r, s => by
    have ht := (traffic_fetchVirt s e (BitVec.ofNat 64 a) n).trans (traffic_fetchPart e r _)
    unfold State.fetchPart
    dsimp only
    split <;> exact ht

/-- A part of an operator read as far as the operator has it. -/
def readPart (s : State) (e : Env) (d : List Byte) (use : Bool) (lo n : Nat) : List Byte × Bool × Option Nat × State :=
  if use then s.fetchPart e (pageCuts (BitVec.ofNat 64 (bitsOf d lo 64)) n) else ([], true, none, s)

theorem traffic_readPart (s : State) (e : Env) (d : List Byte) (use : Bool) (lo n : Nat) :
    Traffic s (readPart s e d use lo n).2.2.2 := by
  unfold readPart
  split
  · exact traffic_fetchPart e _ s
  · exact .refl s

/-- What `opinst` comes to once weights, scales and biases have been read. -/
def judgeOperator (d : List Byte) (o : Operator) (owner : Nat) (w sc bi : List Byte × Bool × Option Nat × State) (s : State) :
    Install × State :=
  match firstSome [w.2.2.1, sc.2.2.1, bi.2.2.1] with
  | some l => (.bad l, s)
  | none =>
    let o := { o with weights := w.1, scales := sc.1, biases := bi.1 }
    let gs := (List.range 8).map (fun i => bitsOf d (256 + 32 * i) 32)
    if o.notFinite then (.status 5, s)
    else if grantBad owner gs || (o.isOpaque && o.grants.any (·.readW)) then (.status 6, s)
    else if !w.2.1 || !sc.2.1 || !bi.2.1 then (.status 7, s)
    else (.put o, s)

section Judge
variable (d : List Byte) (o : Operator) (owner : Nat) (w sc bi : List Byte × Bool × Option Nat × State) (s : State)

theorem judgeOperator_state : (judgeOperator d o owner w sc bi s).2 = s := by
  unfold judgeOperator
  split
  · rfl
  · dsimp only
    split
    · rfl
    split
    · rfl
    split <;> rfl

variable {d o owner w sc bi s}

theorem judgeOperator_put {new : Operator} (h : (judgeOperator d o owner w sc bi s).1 = .put new) :
    new = { o with weights := w.1, scales := sc.1, biases := bi.1 } := by
  unfold judgeOperator at h
  split at h
  · cases h
  · dsimp only at h
    split at h
    · cases h
    split at h
    · cases h
    split at h
    · cases h
    cases h
    rfl

end Judge

/-- What `opinst` comes to once the descriptor is found good. -/
def readOperator (s : State) (e : Env) (d : List Byte) (o : Operator) (owner : Nat) : Install × State :=
  let w := readPart s e d true 64 (o.rows * rowBytes o.wfmt o.cols)
  let sc := readPart w.2.2.2 e d (codeScaled o.wfmt) 128 (o.rows * ((o.cols + 31) / 32))
  let bi := readPart sc.2.2.2 e d o.bias 192 (4 * o.rows)
  judgeOperator d o owner w sc bi bi.2.2.2

theorem readOperator_put {s : State} {e : Env} {d : List Byte} {o new : Operator} {owner : Nat}
    (h : (readOperator s e d o owner).1 = .put new) : Traffic s (readOperator s e d o owner).2 ∧
      ∃ w sc bi, new = { o with weights := w, scales := sc, biases := bi } := by
  refine ⟨?_, _, _, _, judgeOperator_put h⟩
  rw [readOperator, judgeOperator_state]
  exact ((traffic_readPart s e d _ _ _).trans (traffic_readPart _ e d _ _ _)).trans (traffic_readPart _ e d _ _ _)

/-- The tests of a descriptor, in the order of R131's table. -/
def afterTests (c1 c2 c3 c4 : Bool) (s : State) (r : Install × State) : Install × State :=
  if c1 then (.status 1, s) else if c2 then (.status 2, s) else if c3 then (.status 3, s) else if c4 then (.status 4, s) else r

theorem afterTests_put {c1 c2 c3 c4 : Bool} {s : State} {r : Install × State} {o : Operator}
    (h : (afterTests c1 c2 c3 c4 s r).1 = .put o) : c4 = false ∧ afterTests c1 c2 c3 c4 s r = r := by
  match c1, c2, c3, c4, h with
  | false, false, false, false, _ => exact ⟨rfl, rfl⟩

/-- The first operator number of a gang that is free. -/
def freeNumber (s : State) (gang : Nat) : Option Nat :=
  (List.range 64).find? (fun i => !((s.operators.filter (fun o => o.num / 64 == gang)).any (fun o => o.num % 64 == i)))

theorem freeNumber_some {s : State} {gang i : Nat} (h : freeNumber s gang = some i) :
    (gang * 64 + i) / 64 = gang ∧ ∀ x ∈ s.operators, x.num / 64 = gang → x.num ≠ gang * 64 + i := by
  rw [freeNumber, List.find?_range_eq_some] at h
  obtain ⟨hno, hi, -⟩ := h
  have hi := List.mem_range.mp hi
  refine ⟨by omega, fun x hx hg hn => ?_⟩
  refine Bool.false_ne_true (((Bool.not_eq_true' _).mp hno).symm.trans ?_)
  refine List.any_eq_true.mpr ⟨x, List.mem_filter.mpr ⟨hx, beq_iff_eq.mpr hg⟩, beq_iff_eq.mpr ?_⟩
  omega

/-- What an `opinst` that installs an operator anew gives. -/
structure InstalledNew (s t : State) (e : Env) (o : Operator) : Prop where
  operators : t.operators = s.operators
  bound : o.bound = false
  resident : o.resident = true
  owner : o.owner = e.b.ctx
  gang : o.num / 64 = gangOf e.b.core
  fresh : ∀ x ∈ s.operators, x.num / 64 = gangOf e.b.core → x.num ≠ o.num

/-- An operator that is put has passed every test before its weights are read. -/
theorem install_put {s : State} {e : Env} {va : Dword} {o : Operator} (h : (s.install e va none).1 = .put o) :
    InstalledNew s (s.install e va none).2 e o := by
  unfold State.install at h ⊢
  split at h
  · cases h
  rename_i ha
  rw [if_neg ha]
  have htr := traffic_fetchVirt s e va 64
  generalize s.fetchVirt e va 64 = p at h htr ⊢
  obtain ⟨x, T⟩ := p
  match x with
  | none => cases h
  | some (_, some l) => cases h
  | some (d, none) =>
    change (afterTests _ _ _ (true && (freeNumber T (gangOf e.b.core)).isNone) T (readOperator T e d
      (descOp d (gangOf e.b.core * 64 + (freeNumber T (gangOf e.b.core)).getD 0) e.b.ctx) e.b.ctx)).1 = .put o at h
    obtain ⟨hfree, hr⟩ := afterTests_put h
    rw [hr] at h
    obtain ⟨hread, w, sc, bi, rfl⟩ := readOperator_put h
    have hops : T.operators = s.operators := (congrArg State.operators htr.1 :)
    obtain ⟨i, hi⟩ : ∃ i, freeNumber T (gangOf e.b.core) = some i := by
      cases hf : freeNumber T (gangOf e.b.core) with
      | none =>
        rw [hf] at hfree
        cases hfree
      | some i => exact ⟨i, rfl⟩
    obtain ⟨hgang, hfresh⟩ := freeNumber_some hi
    have hnum (x : Operator) : x.num = gangOf e.b.core * 64 + (freeNumber T (gangOf e.b.core)).getD 0 → x.num = gangOf e.b.core * 64 + i := by
      rw [hi]
      exact id
    refine ⟨?_, rfl, rfl, rfl, ?_, fun x hx hg hn => hfresh x (hops ▸ hx) hg (hnum x hn)⟩
    · exact ((congrArg (fun p : Install × State => p.2.operators) hr).trans (congrArg State.operators hread.1 :)).trans hops
    · rw [hi]
      exact hgang

/-! Instructions served by the operator unit. -/

/-- The state in which the operator unit serves the batch. -/
def operatorState (s : State) (e : Env) : State := serving s (2 + 2 * gangOf e.b.core) e.b.ctx

section Exec
variable {s : State} {e : Env} {i : Instr} {f : Env → State → State}

theorem exec_operator (hx : exec i s = s.within (fun e => s.withUnit e (2 + 2 * gangOf e.b.core) (f e))) (h : s.env = some e)
    (hs : Serves s (2 + 2 * gangOf e.b.core) e.b.ctx) : exec i s = .next (f e (operatorState s e)) :=
  hx.trans ((within_env h _).trans (congrArg Host.Outcome.next (withUnit_served hs _)))

end Exec

section WithOp
variable {u : State} {e : Env} {x : Dword} {right : Operator → Bool} {f : Operator → State} {o : Operator}

theorem withOp_none (h : u.operatorOf x = none) : u.withOp e x right f = u.trapWin e := by rw [State.withOp, h]

theorem withOp_refused (h : u.operatorOf x = some o) (hr : right o = false) : u.withOp e x right f = u.trapWin e := by
  rw [State.withOp, h]
  exact if_pos ((Bool.not_eq_true' _).mpr hr)

theorem withOp_served (h : u.operatorOf x = some o) (hr : right o = true) (hres : o.resident = true) : u.withOp e x right f = f o := by
  rw [State.withOp, h]
  dsimp only
  rw [hr, hres]
  rfl

theorem withOp_owner (h : u.operatorOf x = some o) (ho : e.b.ctx = o.owner) (hres : o.resident = true) :
    u.withOp e x (fun o => o.isOwner (.ctx e.b.ctx)) f = f o :=
  withOp_served h (beq_iff_eq.mpr (congrArg Agent.ctx ho)) hres

theorem withOp_stranger (h : u.operatorOf x = some o) (ho : e.b.ctx ≠ o.owner) :
    u.withOp e x (fun o => o.isOwner (.ctx e.b.ctx)) f = u.trapWin e :=
  withOp_refused h (beq_eq_false_iff_ne.mpr fun hc => ho (Agent.ctx.inj hc))

theorem operatorOf_none (h : 1024 ≤ x.toNat ∨ u.operator x.toNat = none) : u.operatorOf x = none := by
  unfold State.operatorOf
  split
  · exact h.resolve_left (Nat.not_le.mpr ‹_›)
  · rfl

theorem operatorOf_some (hx : x.toNat < 1024) (h : u.operator x.toNat = some o) : u.operatorOf x = some o := (if_pos hx).trans h

end WithOp

/-- An operator instruction completes with a status. -/
def OpAnswers (s T : State) (e : Env) (d : BitVec 6) (i : Instr) (n : Nat) : Prop :=
  ∃ t, exec i s = .next t ∧ Queued T t e (.sreg d.toNat (BitVec.ofNat 64 n))

theorem opAnswers_of {s T : State} {e : Env} {d : BitVec 6} {i : Instr} {n : Nat} (h : exec i s = .next (T.issueS e d (BitVec.ofNat 64 n))) :
    OpAnswers s T e d i n := ⟨_, h, addOp_queued T e _⟩

section Install
variable {s : State} {e : Env} {d : BitVec 6} (h : s.env = some e) (hs : Serves s (2 + 2 * gangOf e.b.core) e.b.ctx) (desc op : Sel)
include h hs

theorem exec_opinst_new : exec (.opinst d false desc op) s = .next (match (operatorState s e).install e (e.readU desc) none with
    | (.status n, s) => s.issueS e d (BitVec.ofNat 64 n)
    | (.bad l, s) => s.unitHalt e 3 l
    | (.put o, s) => ({ s with operators := s.operators ++ [o] }).issueS e d (BitVec.ofNat 64 (o.num * 2 ^ 8))) := by
  have hx := exec_operator (i := .opinst d false desc op) rfl h hs
  exact hx

theorem opinst_status {n : Nat} (hi : ((operatorState s e).install e (e.readU desc) none).1 = .status n) :
    OpAnswers s ((operatorState s e).install e (e.readU desc) none).2 e d (.opinst d false desc op) n := by
  have hx := exec_opinst_new (d := d) h hs desc op
  generalize (operatorState s e).install e (e.readU desc) none = p at hi hx ⊢
  obtain ⟨x, T⟩ := p
  dsimp only at hi
  subst hi
  exact opAnswers_of hx

theorem opinst_put {new : Operator} (hi : ((operatorState s e).install e (e.readU desc) none).1 = .put new) :
    ∃ t0 t, exec (.opinst d false desc op) s = .next t ∧ Queued t0 t e (.sreg d.toNat (BitVec.ofNat 64 (new.num * 256))) ∧
      t0.operators = ((operatorState s e).install e (e.readU desc) none).2.operators ++ [new] := by
  have hx := exec_opinst_new (d := d) h hs desc op
  generalize (operatorState s e).install e (e.readU desc) none = p at hi hx ⊢
  obtain ⟨x, T⟩ := p
  dsimp only at hi
  subst hi
  exact ⟨_, _, hx, addOp_queued { T with operators := T.operators ++ [new] } e _, rfl⟩

end Install

/-! What an operator's change leaves. -/

theorem operator_num {s : State} {n : Nat} {o : Operator} (h : s.operator n = some o) : o.num = n :=
  beq_iff_eq.mp (List.find?_some (p := fun o : Operator => o.num == n) h)

theorem operator_updOp (s : State) (n m : Nat) (f : Operator → Operator) (hf : ∀ o, (f o).num = o.num) :
    (s.updOp n f).operator m = (s.operator m).map (fun o => if o.num == n then f o else o) := by
  have hnum (o : Operator) : (if o.num == n then f o else o).num = o.num := by
    split
    · exact hf o
    · rfl
  unfold State.operator State.updOp
  rw [List.find?_map]
  congr 2
  funext o
  exact congrArg (· == m) (hnum o)

theorem dropPosted_posted (s : State) (o : Operator) : (s.dropPosted o).posted = s.posted.filter (fun p => p.op != o.num) := by
  unfold State.dropPosted
  dsimp only
  refine (congrArg State.posted (Traffic.foldl (fun t (p : Posted) => ?_) _ _).1 :)
  split <;> exact traffic_logError _ _ _ _

theorem unbind_posted (s : State) (o : Operator) (free : Bool) : ∀ p ∈ (s.unbind o free).posted, p.op ≠ o.num := by
  have hp : (s.unbind o free).posted = ((s.endSlots o).dropPosted o).posted := by
    unfold State.unbind
    dsimp only
    split <;> rfl
  intro p hmem
  rw [hp, dropPosted_posted, List.mem_filter] at hmem
  exact bne_iff_ne.mp hmem.2

theorem unbind_freed (s : State) (o : Operator) : (s.unbind o true).operator o.num = none := by
  unfold State.unbind State.operator
  dsimp only
  rw [if_pos rfl, List.find?_eq_none]
  intro x hx
  rw [List.mem_filter, bne_iff_ne] at hx
  rw [beq_iff_eq]
  exact hx.2

theorem unbind_kept (s : State) (o x : Operator) (h : (s.unbind o false).operator o.num = some x) : x.bound = false ∧ x.slotst = [] := by
  unfold State.unbind at h
  dsimp only at h
  rw [if_neg Bool.false_ne_true] at h
  obtain ⟨y, hy, rfl⟩ := Option.map_eq_some_iff.mp ((operator_updOp _ o.num o.num
    (fun x : Operator => { x with bound := false, slotst := [], waiting := [] }) (fun _ => rfl)).symm.trans h)
  rw [operator_num hy, beq_self_eq_true]
  exact ⟨rfl, rfl⟩

/-! Binding and unbinding (R133, R141). -/

/-- An operator bound. -/
def boundIn (u : State) (o : Operator) : State := u.updOp o.num (fun o => { o with bound := true, slotst := [] })

section Bind
variable {s : State} {e : Env} {d : BitVec 6} {o : Operator} (h : s.env = some e) (hs : Serves s (2 + 2 * gangOf e.b.core) e.b.ctx)
  (op ib rb : Sel) (ho : (operatorState s e).operatorOf (e.readU op) = some o) (howner : e.b.ctx = o.owner) (hres : o.resident = true)
include h hs ho howner hres

theorem opbind_answers :
    let u := operatorState s e
    if o.bound then OpAnswers s u e d (.opbind d op ib rb) 8
    else if u.bindOk e o false (e.readU ib) (o.slots * o.istride) && u.bindOk e o true (e.readU rb) (o.slots * o.rstride) then
      OpAnswers s (boundIn u o) e d (.opbind d op ib rb) 0
    else OpAnswers s u e d (.opbind d op ib rb) 9 := by
  intro u
  have hx := exec_operator (i := .opbind d op ib rb) rfl h hs
  rw [withOp_owner ho howner hres] at hx
  split
  · rw [if_pos ‹_›] at hx
    exact opAnswers_of hx
  · rw [if_neg ‹_›] at hx
    split
    · rw [if_pos ‹_›] at hx
      exact opAnswers_of hx
    · rw [if_neg ‹_›] at hx
      exact opAnswers_of hx

theorem opunbind_answers {free : Bool} (hf : o.bound = true ∨ free = true) :
    OpAnswers s ((operatorState s e).unbind o free) e d (.opunbind d free op) (if o.bound then 0 else 10) := by
  have hx := exec_operator (i := .opunbind d free op) rfl h hs
  have hgo : ¬(!o.bound && !free) = true := by
    rw [Bool.and_eq_true, Bool.not_eq_true', Bool.not_eq_true']
    rintro ⟨hb, hfree⟩
    rw [hb, hfree] at hf
    cases hf <;> rename_i hf <;> cases hf
  rw [withOp_owner ho howner hres, if_neg hgo] at hx
  refine opAnswers_of (hx.trans (congrArg (fun n => Host.Outcome.next (State.issueS _ e d n)) ?_))
  split <;> rfl

theorem opunbind_unbound (hb : o.bound = false) : OpAnswers s (operatorState s e) e d (.opunbind d false op) 10 := by
  have hx := exec_operator (i := .opunbind d false op) rfl h hs
  rw [withOp_owner ho howner hres, hb] at hx
  exact opAnswers_of hx

end Bind

theorem boundIn_operators (u : State) (o : Operator) :
    (∀ x ∈ (boundIn u o).operators, x.num = o.num → x.bound = true ∧ x.slotst = []) ∧
      ∀ m, m ≠ o.num → (boundIn u o).operator m = u.operator m := by
  refine ⟨fun x hx hn => ?_, fun m hm => ?_⟩
  · obtain ⟨y, -, rfl⟩ := List.mem_map.mp hx
    split at hn
    · rw [if_pos ‹_›]
      exact ⟨rfl, rfl⟩
    · exact absurd (beq_iff_eq.mpr hn) ‹_›
  · refine (operator_updOp u o.num m (fun o : Operator => { o with bound := true, slotst := [] }) (fun _ => rfl)).trans ?_
    cases hf : u.operator m with
    | none => rfl
    | some x =>
      rw [Option.map_some, if_neg (fun hc => hm ((operator_num hf).symm.trans (beq_iff_eq.mp hc)))]

/-! Reading an operator back (R144). -/

theorem operatorState_seen (s : State) (e : Env) (core a : Nat) : seen (operatorState s e) core a = seen s core a := by
  unfold operatorState serving
  split <;> rfl

/-- The byte of one piece. -/
theorem piece_getD (pa n a : Nat) (d : List Byte) (b : Byte) :
    (if pa ≤ a ∧ a < pa + (d.take n).length then ((d.take n)[a - pa]?).getD 0 else b) =
      (if pa ≤ a ∧ a < pa + n then d[a - pa]? else none).getD b := by
  rw [List.length_take]
  by_cases hin : pa ≤ a ∧ a < pa + n
  · rw [if_pos hin]
    by_cases hd : a - pa < d.length
    · rw [if_pos (by omega), List.getElem?_take_of_lt (by omega), List.getElem?_eq_getElem hd]
      rfl
    · rw [if_neg (by omega), List.getElem?_eq_none (by omega)]
      rfl
  · rw [if_neg hin, if_neg (by omega)]
    rfl

/-- What an engine's stores to memory leave to see. -/
theorem writeLocs_seen {core : Nat} (k : StreamId) (id : Nat) : ∀ (l : List (Loc × Nat)) (d : List Byte) (t : State), Quiet t core →
    (∀ x ∈ l, isMem x.1) → Quiet (t.writeLocs k (some id) l d) core ∧
      ∀ a, seen (t.writeLocs k (some id) l d) core a = (stored l d a).getD (seen t core a)
  | [], d, t, q, _ => ⟨q, fun _ => rfl⟩
  | (x, n) :: r, d, t, q, hmem => by
    obtain ⟨pa, hpa⟩ := hmem _ List.mem_cons_self
    change x = .mem pa at hpa
    subst hpa
    have q1 := quiet_engineStore q pa (d.take n)
    obtain ⟨q2, hseen⟩ := writeLocs_seen k id r (d.drop n) _ q1 (fun x hx => hmem x (List.mem_cons_of_mem _ hx))
    refine ⟨q2, fun a => (hseen a).trans ?_⟩
    rw [engineStore_quiet q, stored, piece_getD]
    cases stored r (d.drop n) a <;> rfl

theorem downLocs_traffic {s t : State} (h : Traffic s t) (l : List (Loc × Nat)) : t.downLocs l = s.downLocs l := by
  have hh : t.health = s.health := (congrArg State.health h.1 :)
  unfold State.downLocs State.downIn
  rw [hh]

/-- The ranges that `opread` writes. -/
def opreadRanges (o : Operator) (va : Dword) : List (Dword × Nat) :=
  [(va, o.weights.length), (va + BitVec.ofNat 64 (roundUp 64 o.weights.length), o.scales.length),
    (va + BitVec.ofNat 64 (roundUp 64 (roundUp 64 o.weights.length + o.scales.length)), o.biases.length)]

/-- The state in which they have been written. -/
def readBack (t : State) (e : Env) (o : Operator) (a b c : List (Loc × Nat)) : State :=
  ((t.writeLocs e.stream (some t.nextId) a o.weights).writeLocs e.stream (some t.nextId) b o.scalesOut).writeLocs e.stream
    (some t.nextId) c o.biases

theorem readBack_seen {t : State} {e : Env} {core : Nat} (o : Operator) {a b c : List (Loc × Nat)} (q : Quiet t core)
    (hmem : ∀ x ∈ a ++ b ++ c, isMem x.1) (x : Nat) : seen (readBack t e o a b c) core x =
      (stored c o.biases x).getD ((stored b o.scalesOut x).getD ((stored a o.weights x).getD (seen t core x))) := by
  simp only [List.mem_append, or_imp, forall_and] at hmem
  obtain ⟨⟨ha, hb⟩, hc⟩ := hmem
  obtain ⟨q1, h1⟩ := writeLocs_seen e.stream t.nextId a o.weights t q ha
  obtain ⟨q2, h2⟩ := writeLocs_seen e.stream t.nextId b o.scalesOut _ q1 hb
  rw [readBack, (writeLocs_seen e.stream t.nextId c o.biases _ q2 hc).2, h2, h1]

theorem traffic_readBack (t : State) (e : Env) (o : Operator) (a b c : List (Loc × Nat)) : Traffic t (readBack t e o a b c) :=
  ((traffic_writeLocs _ _ _ _ _).trans (traffic_writeLocs _ _ _ _ _)).trans (traffic_writeLocs _ _ _ _ _)

section Read
variable {s : State} {e : Env} {d : BitVec 6} {o : Operator} (h : s.env = some e) (hs : Serves s (2 + 2 * gangOf e.b.core) e.b.ctx)
  (op : Sel) (ho : (operatorState s e).operatorOf (e.readU op) = some o)
include h hs ho

/-- The state of a slot. -/
theorem opstat_right (k : Sel) (hr : o.holds (.ctx e.b.ctx) true (fun g => g.reinstall || g.readW || g.readOut || g.writeIn) = true)
    (hk : (e.readU k).toNat < o.slots) : ∃ t, exec (.opstat d op k) s = .next t ∧
      Queued (operatorState s e) t e (.sreg d.toNat (o.stat (e.readU k).toNat)) := by
  have hx := exec_operator (i := .opstat d op k) rfl h hs
  rw [ho] at hx
  dsimp only at hx
  rw [hr, decide_eq_true hk] at hx
  exact ⟨_, hx, addOp_queued _ e _⟩

theorem opstat_past (k : Sel) (hk : o.slots ≤ (e.readU k).toNat) : exec (.opstat d op k) s = .next ((operatorState s e).trapWin e) := by
  have hx := exec_operator (i := .opstat d op k) rfl h hs
  rw [ho] at hx
  dsimp only at hx
  rw [decide_eq_false (Nat.not_lt.mpr hk), Bool.and_false] at hx
  exact hx

theorem opread_opaque (dst : Sel) (hq : o.isOpaque = true) : OpAnswers s (operatorState s e) e d (.opread d op dst) 6 := by
  have hx := exec_operator (i := .opread d op dst) rfl h hs
  dsimp only at hx
  rw [ho] at hx
  dsimp only at hx
  rw [if_pos hq] at hx
  exact opAnswers_of hx

theorem opread_refused (dst : Sel) (hq : o.isOpaque = false) (hr : o.holds (.ctx e.b.ctx) true (·.readW) = false) :
    exec (.opread d op dst) s = .next ((operatorState s e).trapWin e) := by
  have hx := exec_operator (i := .opread d op dst) rfl h hs
  dsimp only at hx
  rw [ho] at hx
  dsimp only at hx
  rw [hq, if_neg Bool.false_ne_true, hr] at hx
  exact hx

theorem opread_written (dst : Sel) (hq : o.isOpaque = false) (hr : o.holds (.ctx e.b.ctx) true (·.readW) = true)
    (hres : o.resident = true) {la lb lc : List (Loc × Nat)} {w : State}
    (hw : (operatorState s e).walkedAll (e.walker (operatorState s e)) (opreadRanges o (e.readU dst)) = w)
    (ha : w.opreadLocs e (e.readU dst) o.weights.length = some la)
    (hb : w.opreadLocs e (e.readU dst + BitVec.ofNat 64 (roundUp 64 o.weights.length)) o.scales.length = some lb)
    (hc : w.opreadLocs e (e.readU dst + BitVec.ofNat 64 (roundUp 64 (roundUp 64 o.weights.length + o.scales.length))) o.biases.length = some lc)
    (hdown : w.downLocs (la ++ lb ++ lc) = none) :
    OpAnswers s (readBack w e o la lb lc) e d (.opread d op dst) 0 := by
  have hx := exec_operator (i := .opread d op dst) rfl h hs
  dsimp only at hx
  rw [ho] at hx
  dsimp only at hx
  rw [hq, if_neg Bool.false_ne_true, hr, hres, if_neg (by decide), if_neg (by decide)] at hx
  have hm : exec (.opread d op dst) s = .next (match w.opreadLocs e (e.readU dst) o.weights.length,
      w.opreadLocs e (e.readU dst + BitVec.ofNat 64 (roundUp 64 o.weights.length)) o.scales.length,
      w.opreadLocs e (e.readU dst + BitVec.ofNat 64 (roundUp 64 (roundUp 64 o.weights.length + o.scales.length))) o.biases.length with
      | some a, some b, some c =>
        match w.downLocs (a ++ b ++ c) with
        | some l => w.unitHalt e 3 l
        | none => (readBack w e o a b c).issueS e d 0
      | _, _, _ => w.issueS e d 7) := by
    subst hw
    exact hx
  rw [ha, hb, hc] at hm
  dsimp only at hm
  rw [hdown] at hm
  exact opAnswers_of hm

end Read

theorem operator_held {s : State} {e : Env} (h : s.env = some e) (hno : ¬Serves s (2 + 2 * gangOf e.b.core) e.b.ctx) (d : BitVec 6)
    (desc op ib rb k dst : Sel) (free : Bool) :
    ∀ i ∈ ([.opinst d free desc op, .opbind d op ib rb, .opunbind d free op, .opstat d op k, .opread d op dst] : List Instr),
      ∃ t, exec i s = .next t ∧ HeldAt s t e := by
  intro i hi
  simp only [List.mem_cons, List.not_mem_nil, or_false] at hi
  obtain rfl | rfl | rfl | rfl | rfl := hi
  · exact held_of (within_env h _) hno
  · exact held_of (within_env h _) hno
  · exact held_of (within_env h _) hno
  · exact held_of (within_env h _) hno
  · exact held_of (within_env h _) hno

section Refused
variable {s : State} {e : Env} {d : BitVec 6} (h : s.env = some e) (hs : Serves s (2 + 2 * gangOf e.b.core) e.b.ctx)
  (desc op ib rb k dst : Sel) (free : Bool)
include h hs

/-- No operator has the number. -/
theorem operator_unknown (hno : (operatorState s e).operatorOf (e.readU op) = none) :
    let window : Out := .next ((operatorState s e).trapWin e)
    exec (.opinst d true desc op) s = window ∧ exec (.opbind d op ib rb) s = window ∧ exec (.opunbind d free op) s = window ∧
      exec (.opstat d op k) s = window ∧ exec (.opread d op dst) s = window := by
  have h1 := exec_operator (i := .opinst d true desc op) rfl h hs
  have h2 := exec_operator (i := .opbind d op ib rb) rfl h hs
  have h3 := exec_operator (i := .opunbind d free op) rfl h hs
  have h4 := exec_operator (i := .opstat d op k) rfl h hs
  have h5 := exec_operator (i := .opread d op dst) rfl h hs
  dsimp only at h4 h5
  rw [hno] at h4 h5
  exact ⟨h1.trans (congrArg Host.Outcome.next (withOp_none hno)), h2.trans (congrArg Host.Outcome.next (withOp_none hno)),
    h3.trans (congrArg Host.Outcome.next (withOp_none hno)), h4, h5⟩

variable {o : Operator} (ho : (operatorState s e).operatorOf (e.readU op) = some o)
include ho

theorem opinst_refused (hr : o.holds (.ctx e.b.ctx) true (·.reinstall) = false) :
    exec (.opinst d true desc op) s = .next ((operatorState s e).trapWin e) :=
  (exec_operator (i := .opinst d true desc op) rfl h hs).trans (congrArg Host.Outcome.next (withOp_refused ho hr))

theorem bind_refused (hne : e.b.ctx ≠ o.owner) : exec (.opbind d op ib rb) s = .next ((operatorState s e).trapWin e) ∧
    exec (.opunbind d free op) s = .next ((operatorState s e).trapWin e) :=
  ⟨(exec_operator (i := .opbind d op ib rb) rfl h hs).trans (congrArg Host.Outcome.next (withOp_stranger ho hne)),
    (exec_operator (i := .opunbind d free op) rfl h hs).trans (congrArg Host.Outcome.next (withOp_stranger ho hne))⟩

theorem opinst_again (hr : o.holds (.ctx e.b.ctx) true (·.reinstall) = true) (hres : o.resident = true) {new : Operator}
    (hi : ((operatorState s e).install e (e.readU desc) (some o)).1 = .put new) :
    OpAnswers s (((operatorState s e).install e (e.readU desc) (some o)).2.reinstall o new) e d (.opinst d true desc op) (o.num * 256) := by
  have hx := (exec_operator (i := .opinst d true desc op) rfl h hs).trans (congrArg Host.Outcome.next (withOp_served ho hr hres))
  generalize (operatorState s e).install e (e.readU desc) (some o) = p at hi hx ⊢
  obtain ⟨x, T⟩ := p
  dsimp only at hi
  subst hi
  exact opAnswers_of hx

end Refused

/-- Settles O31: each instruction's answer where the unit serves the batch, and the batch held where it does not. -/
theorem operatorInstructions : Obligations.OperatorInstructions := by
  intro s e d desc op ib rb k dst free o new n la lb lc h unit
  refine ⟨fun hno => operator_held h hno d desc op ib rb k dst free, fun hserves => ?_⟩
  intro u me id done window rights
  refine ⟨fun hi => ?_, fun hi => ?_,
    fun hno => operator_unknown h hserves desc op ib rb k dst free (operatorOf_none hno), fun hid hop => ?_⟩
  · obtain ⟨t, hx, hq⟩ := opinst_status (d := d) h hserves desc op hi
    exact ⟨_, t, hx, hq, rfl⟩
  · obtain ⟨t0, t, hx, hq, hops⟩ := opinst_put (d := d) h hserves desc op hi
    have hnew := install_put hi
    exact ⟨t0, t, hx, hq, hops, hnew.bound, hnew.resident, hnew.owner, hnew.gang, hnew.fresh⟩
  have ho : u.operatorOf (e.readU op) = some o := operatorOf_some hid hop
  have hright (f : Grant → Bool) : rights f = o.holds (.ctx e.b.ctx) true f :=
    (congrArg (· || o.grants.any (fun g => g.names me && f g)) (Bool.and_true (me == .ctx o.owner))).symm
  refine ⟨fun hr => opinst_refused h hserves desc op ho ((hright _).symm.trans hr), fun hr hres hi => ?_,
    bind_refused h hserves op ib rb free ho,
    fun howner hres => ⟨?_, fun hf => ?_, opunbind_unbound h hserves op ho howner hres⟩, fun hr hk => ?_, opstat_past h hserves op ho k,
    opread_opaque h hserves op ho dst, fun hq hr => opread_refused h hserves op ho dst hq ((hright _).symm.trans hr),
    fun hq hr hres => ?_⟩
  · obtain ⟨t, hx, hq⟩ := opinst_again (d := d) h hserves desc op ho ((hright _).symm.trans hr) hres hi
    exact ⟨_, t, hx, hq, rfl⟩
  · have hx := opbind_answers (d := d) h hserves op ib rb ho howner hres
    dsimp only at hx
    split at hx <;> rename_i hb
    · obtain ⟨t, hx, hq⟩ := hx
      refine ⟨u, t, hx, ?_⟩
      rw [if_pos hb]
      exact ⟨hq, rfl⟩
    split at hx <;> rename_i hok <;> obtain ⟨t, hx, hq⟩ := hx
    · refine ⟨boundIn u o, t, hx, ?_⟩
      rw [if_neg hb]
      exact Eq.mpr (if_pos hok) ⟨hq, rfl, boundIn_operators u o⟩
    · refine ⟨u, t, hx, ?_⟩
      rw [if_neg hb]
      exact Eq.mpr (if_neg hok) ⟨hq, rfl⟩
  · obtain ⟨t, hx, hq⟩ := opunbind_answers (d := d) h hserves op ho howner hres hf
    refine ⟨_, t, hx, hq, unbind_posted u o free, fun hfree => ?_, fun hfree => ?_⟩
    · rw [hfree]
      exact unbind_freed u o
    · rw [hfree]
      exact unbind_kept u o
  · obtain ⟨t, hx, hq⟩ := opstat_right (d := d) h hserves op ho k ((hright _).symm.trans hr) hk
    refine ⟨t, hx, ?_⟩
    intro x
    change Queued u t e (.sreg d.toNat (BitVec.ofNat 64 (x.gen.toNat + 2 ^ 32 * min x.elems.length 4095 + 2 ^ 44 * o.resident.toNat +
      2 ^ 45 * o.bound.toNat + 2 ^ 46 * x.st.code)))
    rw [Nat.mul_comm (2 ^ 32), Nat.mul_comm (2 ^ 44), Nat.mul_comm (2 ^ 45), Nat.mul_comm (2 ^ 46)]
    exact hq
  · intro sc bi scales w ha hb hc hmem hdown q
    have htr : Traffic u w := traffic_walkedAll u (e.walker u) _
    obtain ⟨qw, hsame⟩ := seesSame_walkedAll u (walker_die u e) _ q
    obtain ⟨t, hx, hq⟩ := opread_written (d := d) h hserves op ho dst hq ((hright _).symm.trans hr) hres (w := w) rfl ha hb hc
      ((downLocs_traffic htr _).trans hdown)
    have hscales : o.scalesOut = scales := by
      unfold Operator.scalesOut
      simp only [beq_iff_eq]
      rfl
    refine ⟨_, t, hx, hq, htr.trans (traffic_readBack w e o la lb lc), fun a => ?_⟩
    have hseen : seen t e.b.core a = seen (readBack w e o la lb lc) e.b.core a := by
      rw [hq]
      rfl
    have hsaw : seen u e.b.core a = seen s e.b.core a := operatorState_seen s e e.b.core a
    rw [hseen, readBack_seen o qw hmem, hscales, hsame, hsaw]

end Sys2Proof.Safety
end

section
/-! PROOF. An engine's reads and walks leave every access as it is (R236, R384 to R386). -/

namespace Sys2Proof.Safety

open Sys2Proof Sys2Proof.Machine

/-- Nothing that an access of a core in quiet memory looks at differs. -/
structure ReadOnly (core : Nat) (s t : State) : Prop where
  traffic : Traffic s t
  sees : SeesSame core s t
  tlb : Quiet s core → t.coh.tlb = s.coh.tlb

section ReadOnly
variable {core : Nat} {s t u : State}

theorem ReadOnly.refl (s : State) : ReadOnly core s s := ⟨.refl s, .refl s, fun _ => rfl⟩

theorem ReadOnly.trans (h : ReadOnly core s t) (k : ReadOnly core t u) : ReadOnly core s u :=
  ⟨h.traffic.trans k.traffic, h.sees.trans k.sees, fun q => (k.tlb (h.sees q).1).trans (h.tlb q)⟩

theorem ReadOnly.foldl {α : Type} {f : State → α → State} (h : ∀ t x, ReadOnly core t (f t x)) (l : List α) (s : State) :
    ReadOnly core s (l.foldl f s) := by
  induction l generalizing s with
  | nil => exact .refl s
  | cons x r ih => exact (h s x).trans (ih _)

theorem takeLine_tlb (q : Quiet s core) (line : Nat) : (s.takeLine (some (dieOf core)) line false).coh.tlb = s.coh.tlb := by
  have hsnoop : (s.snoopHost line false).coh.tlb = s.coh.tlb := by
    unfold State.snoopHost
    split <;> rfl
  have hack (t : State) (f : Pend → Bool) : (t.ack f).coh.tlb = t.coh.tlb := by rw [State.ack, (homeOnly_foldl _ _).coh]
  unfold State.takeLine
  dsimp only
  rw [endFlips_quiet q, recall_quiet q]
  exact (hack _ _).trans hsnoop

theorem readOnly_takeLine (s : State) (line : Nat) : ReadOnly core s (s.takeLine (some (dieOf core)) line false) :=
  ⟨traffic_takeLine s _ _ _, seesSame_takeLine s line, fun q => takeLine_tlb q line⟩

theorem readOnly_dropOwn (s : State) (line : Nat) : ReadOnly core s (s.dropOwn core line) :=
  ⟨.of rfl rfl rfl, seesSame_dropOwn s line, fun _ => rfl⟩

theorem readOnly_engineLoad (s : State) (pa n : Nat) : ReadOnly core s (s.engineLoad (some core) pa n).2 :=
  ReadOnly.foldl (f := fun t (p : Nat × Nat) => (t.takeLine (some (dieOf core)) (lineOf p.1) false).dropOwn core (lineOf p.1))
    (fun t _ => (readOnly_takeLine t _).trans (readOnly_dropOwn _ _)) _ _

theorem readOnly_walkLoads (s : State) (va : Nat) (ls : List (Nat × Nat × Option Nat)) (base : Nat) :
    ReadOnly core s (s.walkLoads (some (dieOf core)) va ls base) := by
  induction ls generalizing s base with
  | nil => exact .refl s
  | cons x r ih =>
    obtain ⟨lo, w, lf⟩ := x
    rw [State.walkLoads]
    dsimp only
    split
    · split
      · exact (readOnly_takeLine s _).trans (ih _ _)
      · exact readOnly_takeLine s _
    · exact .refl s

theorem readOnly_walked (s : State) {w : Walker} (hw : w.die = some (dieOf core)) (va : Dword) (n : Nat) :
    ReadOnly core s (s.walked w va n) := by
  refine ReadOnly.foldl (fun t p => ?_) _ _
  dsimp only
  split
  · exact .refl t
  · rw [hw]
    exact readOnly_walkLoads t _ _ _

/-! The same walk, the same check. -/

theorem targetOk_of (hd : t.diemask = s.diemask) (hb : t.boot = s.boot) (m a n : Nat) : t.targetOk m a n = s.targetOk m a n := by
  unfold State.targetOk
  rw [hd, hb]

theorem walkGo_of (hd : t.diemask = s.diemask) (hb : t.boot = s.boot) {f g : Nat → Dword} (hr : ∀ a, f a = g a) (va : Nat) :
    ∀ (ls : List (Nat × Nat × Option Nat)) (base : Nat), t.walkGo f va ls base = s.walkGo g va ls base
  | [], _ => rfl
  | (lo, w, lf) :: r, base => by
    have htable : t.tableAt base = s.tableAt base := by
      unfold State.tableAt
      rw [hd]
    have hleaf (e : Dword) (k : Nat) : t.leaf e k = s.leaf e k := by
      unfold State.leaf
      simp only [targetOk_of hd hb]
    rw [State.walkGo.eq_def, State.walkGo.eq_def s]
    simp only [hr, htable, hleaf, walkGo_of hd hb hr va r]

theorem checkAccess_readOnly (h : ReadOnly core s t) (q : Quiet s core) {w : Walker} (hw : w.die = some (dieOf core)) (va : Dword) (n : Nat)
    (ask : Ask) (right : List (Loc × Nat) → Option Stop) : t.checkAccess w va n ask right = s.checkAccess w va n ask right := by
  have hd : t.diemask = s.diemask := (congrArg State.diemask h.traffic.1 :)
  have hb : t.boot = s.boot := (congrArg State.boot h.traffic.1 :)
  obtain ⟨qt, hseen⟩ := h.sees q
  have hentry (a : Nat) : t.entryAt w.die a = s.entryAt w.die a := by
    rw [hw]
    unfold State.entryAt
    have h1 : (t.takeLine (some (dieOf core)) (lineOf a) false).view (some (dieOf core)) =
        (s.takeLine (some (dieOf core)) (lineOf a) false).view (some (dieOf core)) :=
      funext fun x => ((took_read qt _).seen x).trans ((hseen x).trans ((took_read q _).seen x).symm)
    rw [h1]
  have hwalk (va : Dword) : t.walk w va = s.walk w va := by
    have htab : t.walkTables w va = s.walkTables w va := by
      unfold State.walkTables
      rw [walkGo_of hd hb hentry]
    have hhit : t.tlbHit w va = s.tlbHit w va := by
      unfold State.tlbHit
      rw [h.tlb q]
    unfold State.walk
    rw [hhit, htab]
  have hrange (va : Dword) (n : Nat) (x : Walk) : t.inRange va n x = s.inRange va n x := by
    unfold State.inRange State.inRegion
    simp only [targetOk_of hd hb, hb]
  have hps : t.pieces w va n = s.pieces w va n := by
    unfold State.pieces
    simp only [hwalk, hrange]
  unfold State.checkAccess
  rw [hps]

theorem calm_rootOf (s : State) (n : Nat) : (calm s).rootOf n = s.rootOf n := by
  unfold calm State.rootOf State.ctx
  rw [List.find?_map, Option.map_map]
  rfl

/-- The walker of a block's core. -/
theorem walker_traffic (h : Traffic s t) (e : Env) : e.walker t = e.walker s := by
  have hroot : t.rootOf e.b.ctx = s.rootOf e.b.ctx := by rw [← calm_rootOf t, h.1, calm_rootOf]
  unfold Env.walker State.walkerOf
  rw [hroot]

end ReadOnly

/-- An engine fetches a range of quiet memory that it may read. -/
theorem fetch_quiet {s w : State} {e : Env} {va : Dword} {pa n : Nat} (q : Quiet s e.b.core) (hw : ReadOnly e.b.core s w)
    (hacc : s.checkAccess (e.walker s) va n askRead (fun _ => none) = .ok [(.mem pa, n)]) (hbad : s.badIn pa n = none) :
    (w.fetchVirt e va n).1 = some (bytesAt (seen s e.b.core) pa n, none) ∧ ReadOnly e.b.core s (w.fetchVirt e va n).2 := by
  have hx := hw.trans (readOnly_walked w (walker_die w e) va n)
  have hcheck : (w.walked (e.walker w) va n).checkAccess (e.walker (w.walked (e.walker w) va n)) va n askRead (fun _ => none) =
      .ok [(.mem pa, n)] := by
    rw [walker_traffic hx.traffic, checkAccess_readOnly hx q (walker_die s e)]
    exact hacc
  obtain ⟨qx, hseen⟩ := hx.sees q
  have hb : (w.walked (e.walker w) va n).badLocs [(.mem pa, n)] = none := badLocs_mem ((badIn_traffic hx.traffic pa n).trans hbad)
  rw [fetchVirt_ok rfl hcheck, hb]
  exact ⟨congrArg (fun d => some (d, none)) ((readLocs_mem _ qx pa n).trans (bytesAt_congr fun a _ _ => hseen a)),
    hx.trans (readOnly_engineLoad _ pa n)⟩

end Sys2Proof.Safety
end

section
/-! PROOF. The bounded-error pack: the numbers of a block and what decoding makes of them (R103 to R105). -/

namespace Sys2Proof.Safety

open Sys2Proof Sys2Proof.Machine

/-! The quotient (R104). -/

/-- A multiple of k beside n, k·q + r, at the nearer end, the even one at a tie. -/
theorem nearestMultiple {q r k m : Nat} (hr : r < k) (hm : m = if k < 2 * r ∨ 2 * r = k ∧ q % 2 = 1 then q + 1 else q) :
    2 * ((k * q + r : Int) - m * k).natAbs ≤ k ∧ (2 * ((k * q + r : Int) - m * k).natAbs = k → m % 2 = 0) := by
  subst hm
  split
  · have hd : ((k * q + r : Int) - ((q + 1 : Nat) : Int) * k).natAbs = k - r := by
      rw [show ((k * q + r : Int) - ((q + 1 : Nat) : Int) * k) = (r : Int) - k by push_cast; ring]
      omega
    rw [hd]
    omega
  · have hd : ((k * q + r : Int) - (q : Int) * k).natAbs = r := by
      rw [show ((k * q + r : Int) - (q : Int) * k) = (r : Int) by ring]
      exact Int.natAbs_natCast r
    rw [hd]
    omega

/-- R104: the quotient is the nearest integer, ties to even. -/
theorem rneDiv_nearest (x : Int) {k : Nat} (hk : 0 < k) :
    2 * (x - rneDiv x k * k).natAbs ≤ k ∧ (2 * (x - rneDiv x k * k).natAbs = k → rneDiv x k % 2 = 0) := by
  obtain ⟨hle, heven⟩ := nearestMultiple (q := x.natAbs / k) (r := x.natAbs % k) (k := k) (Nat.mod_lt _ hk) rfl
  have hn : ((k * (x.natAbs / k : Nat) + (x.natAbs % k : Nat) : Int)) = x.natAbs := by exact_mod_cast Nat.div_add_mod x.natAbs k
  rw [hn] at hle heven
  unfold rneDiv
  simp only [Bool.or_eq_true, Bool.and_eq_true, decide_eq_true_iff, beq_iff_eq]
  generalize (if k < 2 * (x.natAbs % k) ∨ 2 * (x.natAbs % k) = k ∧ x.natAbs / k % 2 = 1 then x.natAbs / k + 1
    else x.natAbs / k) = m at hle heven ⊢
  split
  · have hx : (x - -(m : Int) * k).natAbs = ((x.natAbs : Int) - m * k).natAbs := by
      rw [show (x - -(m : Int) * k) = -((x.natAbs : Int) - m * k) by rw [Int.ofNat_natAbs_of_nonpos (by omega)]; ring, Int.natAbs_neg]
    rw [hx]
    exact ⟨hle, fun h => by have := heven h; omega⟩
  · have hx : (x - (m : Int) * k).natAbs = ((x.natAbs : Int) - m * k).natAbs := by
      rw [Int.natAbs_of_nonneg (by omega)]
    rw [hx]
    exact ⟨hle, fun h => by have := heven h; omega⟩

/-! Zigzag codes (R104, R105). -/

/-- The code of a difference of quotients. -/
def zigzag (res : Word) : Word := (res <<< 1) ^^^ (res.sshiftRight 31)

/-- The difference that a code stands for. -/
def unzigzag (z : Word) : Word := (z >>> 1) ^^^ (-(z &&& 1))

theorem zigzag_low (res : Word) : (zigzag res).getLsbD 0 = res.msb := by
  rw [zigzag, BitVec.getLsbD_xor, BitVec.getLsbD_shiftLeft, BitVec.getLsbD_sshiftRight, BitVec.msb_eq_getLsbD_last]
  simp

theorem zigzag_succ (res : Word) {i : Nat} (hi : i + 1 < 32) : (zigzag res).getLsbD (i + 1) = (res.getLsbD i ^^ res.msb) := by
  rw [zigzag, BitVec.getLsbD_xor, BitVec.getLsbD_shiftLeft, BitVec.getLsbD_sshiftRight, if_neg (by omega)]
  have h31 : i < 31 := Nat.lt_of_succ_lt_succ hi
  simp [hi, h31]

theorem neg_lowBit (z : Word) : -(z &&& 1) = if z.getLsbD 0 then BitVec.allOnes 32 else 0 := by
  have h : z &&& 1 = (BitVec.ofBool (z.getLsbD 0)).setWidth 32 := BitVec.and_one_eq_setWidth_ofBool_getLsbD
  rw [h]
  cases z.getLsbD 0 <;> rfl

theorem unzigzag_zigzag (res : Word) : unzigzag (zigzag res) = res := by
  refine BitVec.eq_of_getLsbD_eq fun i hi => ?_
  have hfill : (if res.msb = true then BitVec.allOnes 32 else 0 : Word).getLsbD i = res.msb := by
    cases res.msb with
    | false => exact BitVec.getLsbD_zero
    | true => rw [if_pos rfl, BitVec.getLsbD_allOnes, decide_eq_true hi]
  rw [unzigzag, neg_lowBit, zigzag_low, BitVec.getLsbD_xor, BitVec.getLsbD_ushiftRight, hfill, Nat.add_comm]
  by_cases hl : i + 1 < 32
  · rw [zigzag_succ res hl, Bool.xor_assoc, Bool.xor_self, Bool.xor_false]
  · rw [BitVec.getLsbD_of_ge _ _ (by omega), Bool.false_xor, BitVec.msb_eq_getLsbD_last]
    congr 1
    omega
/-- A quotient from the one before it and the code of their difference. -/
theorem quotient_decoded {pred q : Int} (hq : q.natAbs < 2 ^ 31) :
    (BitVec.ofInt 32 pred + unzigzag (BitVec.ofNat 32 (zigzag (BitVec.ofInt 32 (q - pred))).toNat)).toInt = q := by
  rw [BitVec.ofNat_toNat, BitVec.setWidth_eq, unzigzag_zigzag, ← BitVec.ofInt_add, Int.add_comm, Int.sub_add_cancel, BitVec.toInt_ofInt]
  exact Int.bmod_eq_of_le (by omega) (by omega)

theorem packQuot_lt {f64 : Bool} {eb : Dword} {x : Nat} {q : Int} (h : packQuot f64 eb x = some q) : q.natAbs < 2 ^ 31 := by
  have key (z : Int) (c : Bool) (h : (if (decide (z.natAbs < 2 ^ 31) && c) = true then some z else none) = some q) : q.natAbs < 2 ^ 31 := by
    split at h
    · rename_i hc
      cases h
      exact of_decide_eq_true (Bool.and_eq_true_iff.mp hc).1
    · cases h
  unfold packQuot at h
  split at h
  · exact key _ _ h
  · cases h

theorem zigzags_length : ∀ (pred : Int) (qs : List (Option Int)), (zigzags pred qs).length = qs.length
  | _, [] => rfl
  | _, none :: r => congrArg (· + 1) (zigzags_length 0 r)
  | _, some q :: r => congrArg (· + 1) (zigzags_length q r)

theorem zigzags_lt : ∀ (pred : Int) (qs : List (Option Int)), ∀ z ∈ zigzags pred qs, z < 2 ^ 32
  | _, [], _, h => by cases h
  | _, none :: r, z, h => by
    obtain rfl | h := List.mem_cons.mp h
    · decide
    · exact zigzags_lt 0 r z h
  | _, some q :: r, z, h => by
    obtain rfl | h := List.mem_cons.mp h
    · exact BitVec.isLt _
    · exact zigzags_lt q r z h

/-! Codes of one width (R103). -/

theorem foldl_max_le {l : List Nat} {a b : Nat} : l.foldl max a ≤ b ↔ a ≤ b ∧ ∀ x ∈ l, x ≤ b := by
  induction l generalizing a with
  | nil => simp
  | cons x r ih => simp only [List.foldl_cons, ih, Nat.max_le, List.forall_mem_cons, and_assoc]

/-- The width of a block's codes. -/
def codeWidth (zs : List Nat) : Nat := (zs.map (fun z => if z == 0 then 0 else Nat.log2 z + 1)).foldl max 0

theorem codeWidth_le {zs : List Nat} {b : Nat} : codeWidth zs ≤ b ↔ ∀ z ∈ zs, z < 2 ^ b := by
  have h (z : Nat) : (if (z == 0) = true then 0 else Nat.log2 z + 1) ≤ b ↔ z < 2 ^ b := by
    split
    · rename_i hz
      rw [beq_iff_eq.mp hz]
      exact ⟨fun _ => Nat.two_pow_pos b, fun _ => Nat.zero_le b⟩
    · rename_i hz
      exact Nat.log2_lt (fun h0 => hz (beq_iff_eq.mpr h0))
  simp only [codeWidth, foldl_max_le, Nat.zero_le, true_and, List.forall_mem_map, h]

theorem code_lt {zs : List Nat} {z : Nat} (h : z ∈ zs) : z < 2 ^ codeWidth zs := codeWidth_le.mp (Nat.le_refl _) z h

theorem packBits_lt {w : Nat} : ∀ {zs : List Nat}, (∀ z ∈ zs, z < 2 ^ w) → packBits w zs < 2 ^ (zs.length * w)
  | [], _ => by rw [List.length_nil, Nat.zero_mul]; exact Nat.one_pos
  | z :: r, h => by
    have hz := h z List.mem_cons_self
    have hr := packBits_lt (fun x hx => h x (List.mem_cons_of_mem _ hx))
    have hm := Nat.mul_le_mul_left (2 ^ w) (Nat.succ_le_of_lt hr)
    rw [packBits, List.length_cons, Nat.succ_mul, Nat.add_comm _ w, Nat.pow_add]
    rw [Nat.mul_succ] at hm
    omega

theorem packBits_code {w : Nat} : ∀ {zs : List Nat} {j z : Nat}, (∀ z ∈ zs, z < 2 ^ w) → zs[j]? = some z →
    packBits w zs / 2 ^ (j * w) % 2 ^ w = z
  | z :: r, 0, x, h, hj => by
    cases hj
    rw [packBits, Nat.zero_mul, Nat.pow_zero, Nat.div_one, Nat.add_mul_mod_self_left, Nat.mod_eq_of_lt (h z List.mem_cons_self)]
  | z :: r, j + 1, x, h, hj => by
    rw [packBits, Nat.succ_mul, Nat.add_comm _ w, Nat.pow_add, ← Nat.div_div_eq_div_mul, Nat.add_mul_div_left _ _ (Nat.two_pow_pos w),
      Nat.div_eq_of_lt (h z List.mem_cons_self), Nat.zero_add]
    exact packBits_code (fun x hx => h x (List.mem_cons_of_mem _ hx)) hj

/-! The escape mask (R103). -/

/-- The mask of a block's quotients from position i on. -/
def maskFrom (i a : Nat) (qs : List (Option Int)) : Nat := (qs.zipIdx i).foldl (fun a x => if x.1.isNone then a + 2 ^ x.2 else a) a

theorem maskFrom_cons (i a : Nat) (q : Option Int) (r : List (Option Int)) :
    maskFrom i a (q :: r) = maskFrom (i + 1) (if q.isNone then a + 2 ^ i else a) r := rfl

theorem maskStep {i a : Nat} (q : Option Int) (h : a < 2 ^ i) : (if q.isNone then a + 2 ^ i else a) < 2 ^ (i + 1) ∧
    (∀ j, j < i → (if q.isNone then a + 2 ^ i else a).testBit j = a.testBit j) ∧ (if q.isNone then a + 2 ^ i else a).testBit i = q.isNone := by
  cases q with
  | none =>
    refine ⟨?_, fun j hj => ?_, ?_⟩
    · simp only [Option.isNone_none, if_true, Nat.pow_succ]
      omega
    · simp only [Option.isNone_none, if_true, Nat.add_comm a]
      exact Nat.testBit_two_pow_add_gt hj a
    · simp only [Option.isNone_none, if_true, Nat.add_comm a]
      rw [Nat.testBit_two_pow_add_eq, Nat.testBit_lt_two_pow h]
      rfl
  | some q =>
    refine ⟨?_, fun j hj => rfl, Nat.testBit_lt_two_pow h⟩
    exact Nat.lt_trans h (Nat.pow_lt_pow_succ (by decide))

theorem maskFrom_bits : ∀ (qs : List (Option Int)) {i a : Nat}, a < 2 ^ i → maskFrom i a qs < 2 ^ (i + qs.length) ∧
    (∀ j, j < i → (maskFrom i a qs).testBit j = a.testBit j) ∧ ∀ j q, qs[j]? = some q → (maskFrom i a qs).testBit (i + j) = q.isNone
  | [], i, a, h => ⟨h, fun _ _ => rfl, fun j q hj => by cases hj⟩
  | q :: r, i, a, h => by
    obtain ⟨hlt, hlow, hbit⟩ := maskStep q h
    obtain ⟨hm, hl, hb⟩ := maskFrom_bits r hlt
    rw [maskFrom_cons]
    refine ⟨?_, fun j hj => (hl j (by omega)).trans (hlow j hj), fun j x hj => ?_⟩
    · rwa [List.length_cons, Nat.add_comm r.length, ← Nat.add_assoc]
    · cases j with
      | zero =>
        cases hj
        exact (hl i (Nat.lt_succ_self i)).trans hbit
      | succ j =>
        have := hb j x hj
        rwa [Nat.add_assoc, Nat.add_comm 1] at this

theorem count_bits {f : Nat → Bool} {p : Nat → Bool} : ∀ {xs : List Nat} {i : Nat}, (∀ j x, xs[j]? = some x → f (i + j) = p x) →
    ((List.range' i xs.length).filter f).length = (xs.filter p).length
  | [], _, _ => rfl
  | x :: r, i, h => by
    have h0 : f i = p x := h 0 x rfl
    have hr := count_bits (f := f) (p := p) (xs := r) (i := i + 1) fun j y hj => by
      have := h (j + 1) y hj
      rwa [Nat.add_comm j, ← Nat.add_assoc] at this
    rw [List.length_cons, List.range'_succ, List.filter_cons, List.filter_cons, h0]
    cases p x with
    | false => exact hr
    | true => exact congrArg (· + 1) hr

end Sys2Proof.Safety
end

section
/-! PROOF. The bounded-error pack: a block as it stands in the stream, and its decoding (R103, R105). -/

namespace Sys2Proof.Safety

open Sys2Proof Sys2Proof.Machine

section Parts
variable (f64 : Bool) (eb : Dword) (xs : List Nat)

/-- The zigzag codes of a block. -/
def blockCodes : List Nat := zigzags 0 (xs.map (packQuot f64 eb))
/-- The elements of a block that stand in it as they are. -/
def blockRaw : List Nat := xs.filter (fun x => (packQuot f64 eb x).isNone)
/-- The mask of their positions. -/
def blockMask : Nat := maskFrom 0 0 (xs.map (packQuot f64 eb))
/-- The bytes of the codes. -/
def bodyLen (w : Nat) : Nat := 8 * ((xs.length * w + 63) / 64)
/-- The header of a block. -/
def blockHeader : Nat := codeWidth (blockCodes f64 eb xs) + (if (blockRaw f64 eb xs).isEmpty then 0 else 64)
/-- The escape mask as it stands there. -/
def blockMaskBytes : List Byte := if (blockRaw f64 eb xs).isEmpty then [] else leBytes 8 (blockMask f64 eb xs)
/-- The codes as they stand there. -/
def blockBody : List Byte :=
  leBytes (bodyLen xs (codeWidth (blockCodes f64 eb xs))) (packBits (codeWidth (blockCodes f64 eb xs)) (blockCodes f64 eb xs))
/-- The escaped elements as they stand there. -/
def blockTail : List Byte :=
  let raw := (blockRaw f64 eb xs).flatMap (leBytes (packSize f64))
  raw ++ List.replicate (roundUp 8 raw.length - raw.length) 0

theorem zip_raw : ((xs.zip (xs.map (packQuot f64 eb))).filter (fun x => x.2.isNone)).map Prod.fst = blockRaw f64 eb xs := by
  induction xs with
  | nil => rfl
  | cons x r ih =>
    simp only [List.map_cons, List.zip_cons_cons, List.filter_cons, blockRaw] at ih ⊢
    cases (packQuot f64 eb x).isNone with
    | false => exact ih
    | true => exact congrArg (x :: ·) ih

theorem packBlock_eq : packBlock f64 eb xs = leBytes 8 (blockHeader f64 eb xs) ++ blockMaskBytes f64 eb xs ++ blockBody f64 eb xs ++
    blockTail f64 eb xs := by
  have hz := zip_raw f64 eb xs
  have hraw : ((xs.zip (xs.map (packQuot f64 eb))).filter (fun x => x.2.isNone)).flatMap (fun x => leBytes (packSize f64) x.1) =
      (blockRaw f64 eb xs).flatMap (leBytes (packSize f64)) := by rw [← hz, List.flatMap_map]
  have hempty : ((xs.zip (xs.map (packQuot f64 eb))).filter (fun x => x.2.isNone)).isEmpty = (blockRaw f64 eb xs).isEmpty := by
    rw [← hz, List.isEmpty_map]
  unfold packBlock
  dsimp only
  rw [hraw, hempty, List.append_assoc _ (List.flatMap _ _)]
  rfl

theorem blockCodes_length : (blockCodes f64 eb xs).length = xs.length := by rw [blockCodes, zigzags_length, List.length_map]

theorem codeWidth_codes : codeWidth (blockCodes f64 eb xs) ≤ 32 := codeWidth_le.mpr (zigzags_lt _ _)

theorem blockHeader_lt : blockHeader f64 eb xs < 256 ^ 8 := by
  have := codeWidth_codes f64 eb xs
  unfold blockHeader
  split <;> omega

theorem blockBody_length : (blockBody f64 eb xs).length = bodyLen xs (codeWidth (blockCodes f64 eb xs)) := length_leBytes _ _

theorem roundUp_le {x y : Nat} (h : x ≤ 8 * y) : roundUp 8 x ≤ 8 * y := by
  unfold roundUp
  omega

theorem le_roundUp (x : Nat) : x ≤ roundUp 8 x := by
  unfold roundUp
  omega

theorem blockTail_length : (blockTail f64 eb xs).length = roundUp 8 (packSize f64 * (blockRaw f64 eb xs).length) := by
  have := le_roundUp (packSize f64 * (blockRaw f64 eb xs).length)
  simp only [blockTail, List.length_append, List.length_replicate, length_flatMap_chunks (length_leBytes (packSize f64))]
  omega

theorem blockRaw_length : (blockRaw f64 eb xs).length ≤ xs.length := List.length_filter_le _ _

/-- The largest block (R322). -/
theorem packBlock_length (h : xs.length ≤ 64) : (packBlock f64 eb xs).length ≤ 16 + 256 + 64 * packSize f64 := by
  have hw := codeWidth_codes f64 eb xs
  have hr := blockRaw_length f64 eb xs
  have hb : bodyLen xs (codeWidth (blockCodes f64 eb xs)) ≤ 256 := by
    have := Nat.mul_le_mul h hw
    unfold bodyLen
    omega
  have hm : (blockMaskBytes f64 eb xs).length ≤ 8 := by
    unfold blockMaskBytes
    split
    · exact Nat.zero_le 8
    · rw [length_leBytes]
  have ht : roundUp 8 (packSize f64 * (blockRaw f64 eb xs).length) ≤ 8 * (8 * packSize f64) := roundUp_le (by
    have := Nat.mul_le_mul_left (packSize f64) (hr.trans h)
    omega)
  rw [packBlock_eq]
  simp only [List.length_append, length_leBytes, blockBody_length, blockTail_length]
  omega

end Parts

/-! The stream (R102, R103, R322). -/

theorem blocks64_one {xs : List Nat} (h0 : xs.length ≠ 0) (h : xs.length ≤ 64) : blocks64 (xs.length / 64 + 1) xs = [xs] := by
  have hne : xs.isEmpty = false := by
    cases xs with
    | nil => exact absurd rfl h0
    | cons x r => rfl
  have htail (k : Nat) : blocks64 k (xs.drop 64) = [] := by
    rw [List.drop_of_length_le h]
    cases k <;> rfl
  rw [blocks64, hne, if_neg Bool.false_ne_true, List.take_of_length_le h, htail]

theorem blocks64_length : ∀ (k : Nat) (xs : List Nat) (f : List Nat → List Byte) (n : Nat), (∀ b, b.length ≤ 64 → (f b).length ≤ n) →
    ((blocks64 k xs).flatMap f).length ≤ (xs.length + 63) / 64 * n
  | 0, _, _, _, _ => Nat.zero_le _
  | k + 1, xs, f, n, hf => by
    have ih := blocks64_length k (xs.drop 64) f n hf
    have h1 := hf (xs.take 64) (by rw [List.length_take]; exact Nat.min_le_left _ _)
    rw [blocks64]
    cases xs with
    | nil => exact Nat.zero_le _
    | cons x r =>
      rw [List.isEmpty_cons, if_neg Bool.false_ne_true, List.flatMap_cons, List.length_append]
      have hcut : ((x :: r).length + 63) / 64 = (((x :: r).drop 64).length + 63) / 64 + 1 := by
        rw [List.length_drop, List.length_cons]
        omega
      rw [hcut, Nat.succ_mul]
      omega

theorem packStream_length (f64 : Bool) (eb : Dword) (xs : List Nat) :
    (packStream f64 eb xs).length ≤ 16 + (xs.length + 63) / 64 * (16 + 256 + 64 * packSize f64) := by
  have h := blocks64_length (xs.length / 64 + 1) xs (packBlock f64 eb) _ (packBlock_length f64 eb)
  rw [packStream, List.length_append, List.length_append, length_leBytes, length_leBytes]
  omega

/-! Decoding (R105, R323). -/

/-- The element that decoding gives for an element packed. -/
def rebuilt (f64 : Bool) (eb : Dword) (x : Nat) : Nat :=
  match packQuot f64 eb x with
  | some q => packDecode f64 eb q
  | none => x

theorem unpackBlock_codes {f64 : Bool} {eb : Dword} {w body mask : Nat} : ∀ (xs : List Nat) (i : Nat) (pred : Int),
    (∀ j z, (zigzags pred (xs.map (packQuot f64 eb)))[j]? = some z → body / 2 ^ ((i + j) * w) % 2 ^ w = z) →
    (∀ j x, xs[j]? = some x → mask.testBit (i + j) = (packQuot f64 eb x).isNone) →
    unpackBlock f64 eb w body mask xs.length i pred (blockRaw f64 eb xs) = xs.map (rebuilt f64 eb)
  | [], _, _, _, _ => rfl
  | x :: r, i, pred, hc, hm => by
    have hm0 : mask.testBit i = (packQuot f64 eb x).isNone := hm 0 x rfl
    have hmr (j : Nat) (y : Nat) (hj : r[j]? = some y) : mask.testBit (i + 1 + j) = (packQuot f64 eb y).isNone := by
      have := hm (j + 1) y hj
      rwa [Nat.add_comm j, ← Nat.add_assoc] at this
    have ih (p : Int) (hcr : ∀ j z, (zigzags p (r.map (packQuot f64 eb)))[j]? = some z → body / 2 ^ ((i + (j + 1)) * w) % 2 ^ w = z) :=
      unpackBlock_codes r (i + 1) p (fun j z hj => by
        have := hcr j z hj
        rwa [Nat.add_comm j, ← Nat.add_assoc] at this) hmr
    rw [List.length_cons, unpackBlock, hm0, List.map_cons, rebuilt, blockRaw, List.filter_cons]
    rw [List.map_cons] at hc
    cases hq : packQuot f64 eb x with
    | none =>
      rw [hq] at hc
      exact congrArg (x :: ·) (ih 0 fun j z hj => hc (j + 1) z hj)
    | some q =>
      rw [hq] at hc
      have hz := hc 0 _ rfl
      rw [Nat.add_zero] at hz
      have hdec : (BitVec.ofInt 32 pred + unzigzag (BitVec.ofNat 32 (body / 2 ^ (i * w) % 2 ^ w))).toInt = q := by
        rw [hz]
        exact quotient_decoded (packQuot_lt hq)
      have hrest := ih q fun j z hj => hc (j + 1) z hj
      have hstep (q' : Int) (hq' : q' = q) : packDecode f64 eb q' :: unpackBlock f64 eb w body mask r.length (i + 1) q' (blockRaw f64 eb r) =
          packDecode f64 eb q :: r.map (rebuilt f64 eb) := by rw [hq', hrest]
      exact hstep _ hdec

/-- What the fields of a block's stream decode to. -/
theorem unpackBlock_block (f64 : Bool) (eb : Dword) (xs : List Nat) :
    unpackBlock f64 eb (codeWidth (blockCodes f64 eb xs)) (packBits (codeWidth (blockCodes f64 eb xs)) (blockCodes f64 eb xs))
      (blockMask f64 eb xs) xs.length 0 0 (blockRaw f64 eb xs) = xs.map (rebuilt f64 eb) := by
  refine unpackBlock_codes xs 0 0 (fun j z hj => ?_) (fun j x hj => ?_)
  · rw [Nat.zero_add]
    exact packBits_code (fun z hz => code_lt hz) hj
  · exact (maskFrom_bits (xs.map (packQuot f64 eb)) (i := 0) (a := 0) Nat.one_pos).2.2 j _ (by rw [List.getElem?_map, hj]; rfl)

theorem blockMask_lt (f64 : Bool) (eb : Dword) (xs : List Nat) : blockMask f64 eb xs < 2 ^ xs.length := by
  have h := (maskFrom_bits (xs.map (packQuot f64 eb)) (i := 0) (a := 0) Nat.one_pos).1
  rwa [List.length_map, Nat.zero_add] at h

theorem blockMask_count (f64 : Bool) (eb : Dword) (xs : List Nat) :
    ((List.range xs.length).filter (fun i => (blockMask f64 eb xs).testBit i)).length = (blockRaw f64 eb xs).length := by
  rw [List.range_eq_range']
  refine count_bits fun j x hj => ?_
  exact (maskFrom_bits (xs.map (packQuot f64 eb)) (i := 0) (a := 0) Nat.one_pos).2.2 j _ (by rw [List.getElem?_map, hj]; rfl)

/-- No escaped element: an empty mask. -/
theorem blockMask_zero {f64 : Bool} {eb : Dword} {xs : List Nat} (h : (blockRaw f64 eb xs).isEmpty = true) : blockMask f64 eb xs = 0 := by
  have hc := blockMask_count f64 eb xs
  rw [List.isEmpty_iff.mp h, List.length_nil, List.length_eq_zero_iff, List.filter_eq_nil_iff] at hc
  refine Nat.eq_of_testBit_eq fun i => ?_
  rw [Nat.zero_testBit]
  by_cases hi : i < xs.length
  · exact Bool.not_eq_true _ ▸ hc i (List.mem_range.mpr hi)
  · exact Nat.testBit_lt_two_pow (Nat.lt_of_lt_of_le (blockMask_lt f64 eb xs) (Nat.pow_le_pow_right (by decide) (Nat.not_lt.mp hi)))

theorem body_number (f64 : Bool) (eb : Dword) (xs : List Nat) :
    leNat (blockBody f64 eb xs) = packBits (codeWidth (blockCodes f64 eb xs)) (blockCodes f64 eb xs) := by
  have hlt := packBits_lt (fun z hz => code_lt (zs := blockCodes f64 eb xs) hz)
  rw [blockCodes_length] at hlt
  rw [blockBody, leNat_leBytes]
  refine Nat.mod_eq_of_lt (Nat.lt_of_lt_of_le hlt ?_)
  rw [show (256 : Nat) = 2 ^ 8 from rfl, ← Nat.pow_mul]
  refine Nat.pow_le_pow_right (by decide) ?_
  unfold bodyLen
  omega

/-- Elements as they stand in bytes. -/
theorem elemsIn_flat {f64 : Bool} {l : List Nat} (h : ∀ x ∈ l, x < 2 ^ (8 * packSize f64)) (tail : List Byte) :
    elemsIn f64 l.length (l.flatMap (leBytes (packSize f64)) ++ tail) = l := by
  refine List.ext_getElem? fun i => ?_
  rw [elemsIn, List.getElem?_map]
  by_cases hi : i < l.length
  · rw [range_get hi, Option.map_some, List.getElem?_eq_getElem hi, Nat.mul_comm,
      flatMap_chunk (length_leBytes _) tail (List.getElem?_eq_getElem hi), leNat_leBytes, show (256 : Nat) = 2 ^ 8 from rfl, ← Nat.pow_mul,
      Nat.mod_eq_of_lt (h _ (List.getElem_mem hi))]
  · rw [List.getElem?_eq_none (by rw [List.length_range]; omega), List.getElem?_eq_none (by omega)]
    rfl

end Sys2Proof.Safety
end

section
/-! PROOF. `bepack` and `beunpack` (R102 to R105, R322, R323). -/

namespace Sys2Proof.Safety

open Sys2Proof Sys2Proof.Machine

/-! Parts of a range. -/

/-- Each address of a range lies in a line of one of its pieces. -/
theorem cutAt_covers : ∀ (fuel a n x : Nat), a ≤ x → x < a + n → n + a % 128 ≤ 128 * fuel →
    ∃ p ∈ cutAt 128 fuel a n, lineOf p.1 = lineOf x
  | 0, a, n, x, h1, h2, hf => by omega
  | fuel + 1, a, n, x, h1, h2, hf => by
    rw [cutAt, if_neg (by omega)]
    dsimp only
    by_cases hx : x < a + min n (128 - a % 128)
    · refine ⟨_, List.mem_cons_self, ?_⟩
      unfold lineOf
      dsimp only
      omega
    · obtain ⟨p, hp, hl⟩ := cutAt_covers fuel (a + min n (128 - a % 128)) (n - min n (128 - a % 128)) x (by omega) (by omega) (by omega)
      exact ⟨p, List.mem_cons_of_mem _ hp, hl⟩

theorem badIn_part {s : State} {pa n i k : Nat} (h : s.badIn pa n = none) (hk : i + k ≤ n) : s.badIn (pa + i) k = none := by
  rw [State.badIn, Option.map_eq_none_iff, List.find?_eq_none] at h ⊢
  intro p hp
  obtain ⟨h1, h2⟩ := cutAt_within (by decide) _ _ _ p hp
  obtain ⟨r, hr, hl⟩ := cutAt_covers (n / 128 + 2) pa n p.1 (by omega) (by omega) (by omega)
  rw [← hl]
  exact h r hr

/-- A part of bytes that are known. -/
theorem bytesAt_part {g : Nat → Byte} {pa : Nat} (a b c : List Byte) (h : bytesAt g pa (a ++ b ++ c).length = a ++ b ++ c) :
    bytesAt g (pa + a.length) b.length = b := by
  rw [← bytesAt_chunk g pa (n := (a ++ b ++ c).length) (by simp only [List.length_append]; omega), h, List.append_assoc, List.drop_left,
    List.take_left]

theorem subLocs_start (pd m n : Nat) (h0 : n ≠ 0) (h : n ≤ m) : subLocs [(.mem pd, m)] 0 n = [(.mem pd, n)] := by
  rw [subLocs, if_neg (by rwa [beq_iff_eq]), if_neg (by omega), Nat.sub_zero, Nat.min_eq_right h]
  exact congrArg (_ :: ·) (by rw [Nat.sub_self]; rfl)

/-! `bepack`. -/

theorem boundOk_iff (b : Dword) : boundOk b = true ↔ 2 ^ 51 ≤ b.toNat ∧ b.toNat < 0x7FE0000000000000 := by
  rw [boundOk, Bool.and_eq_true, decide_eq_true_iff, decide_eq_true_iff]

/-- What `bepack` may write at most. -/
def worstLen (f64 : Bool) (n : Nat) : Nat := 16 + (n + 63) / 64 * (16 + 256 + 64 * packSize f64)

section Pack
variable {s : State} {e : Env} {d : BitVec 6} {f64 : Bool} {dst src cnt eb : Sel} (h : s.env = some e)
include h

theorem bepack_refused (hr : (e.readU cnt).toNat = 0 ∨ boundOk (e.readU eb) = false) :
    ∃ t, exec (.bepack d f64 dst src cnt eb) s = .next t ∧ Queued s t e (.sreg d.toNat 0) := by
  have hc : ((e.readU cnt).toNat == 0 || !boundOk (e.readU eb)) = true := by
    rw [Bool.or_eq_true, beq_iff_eq, Bool.not_eq_true']
    exact hr
  refine ⟨_, ?_, addOp_queued s e _⟩
  change execBepack d f64 dst src cnt eb s = _
  rw [execBepack, within_env h]
  exact congrArg Host.Outcome.next (if_pos hc)

theorem bepack_past (hn : 2 ^ 40 ≤ (e.readU cnt).toNat) (hb : boundOk (e.readU eb) = true) :
    ∃ t v, exec (.bepack d f64 dst src cnt eb) s = .next t ∧ Queued { s with freeCtr := s.freeCtr + 1 } t e (.sreg d.toNat v) := by
  have hc : ¬((e.readU cnt).toNat == 0 || !boundOk (e.readU eb)) = true := by
    rw [Bool.or_eq_true, beq_iff_eq, Bool.not_eq_true', hb]
    rintro (h0 | h0)
    · omega
    · cases h0
  refine ⟨_, Config.freeWord s.freeCtr, ?_, addOp_queued { s with freeCtr := s.freeCtr + 1 } e _⟩
  change execBepack d f64 dst src cnt eb s = _
  rw [execBepack, within_env h]
  exact congrArg Host.Outcome.next ((if_neg hc).trans (if_pos hn))

theorem bepack_written {w : State} {ls ld : List (Loc × Nat)}
    (hw : s.walkedAll (e.walker s) [(e.readU src, (e.readU cnt).toNat * packSize f64), (e.readU dst, worstLen f64 (e.readU cnt).toNat)] = w)
    (h0 : (e.readU cnt).toNat ≠ 0) (hn : (e.readU cnt).toNat < 2 ^ 40) (hb : boundOk (e.readU eb) = true)
    (hr : w.checkAccess (e.walker w) (e.readU src) ((e.readU cnt).toNat * packSize f64) askRead (fun _ => none) = .ok ls)
    (hd : w.checkAccess (e.walker w) (e.readU dst) (worstLen f64 (e.readU cnt).toNat) askWrite (fun _ => none) = .ok ld)
    (hbad : w.badLocs ls = none) (hdown : w.downLocs ld = none) :
    let r := w.readLocs (some e.b.core) ls
    let out := packStream f64 (e.readU eb) (elemsIn f64 (e.readU cnt).toNat r.1)
    exec (.bepack d f64 dst src cnt eb) s = .next ((r.2.writeLocs e.stream (some r.2.nextId) (subLocs ld 0 out.length) out).issueS e d
      (BitVec.ofNat 64 out.length)) := by
  have hc : ¬((e.readU cnt).toNat == 0 || !boundOk (e.readU eb)) = true := by
    rw [Bool.or_eq_true, beq_iff_eq, Bool.not_eq_true', hb]
    rintro (hz | hz)
    · exact h0 hz
    · cases hz
  intro r out
  unfold worstLen at hw hd
  change execBepack d f64 dst src cnt eb s = _
  rw [execBepack, within_env h]
  refine congrArg Host.Outcome.next ((if_neg hc).trans ((if_neg (Nat.not_le.mpr hn)).trans ?_))
  dsimp only
  rw [hw, hr]
  dsimp only
  rw [hd]
  dsimp only
  rw [hbad, hdown]
  rfl

end Pack

/-! `beunpack`. -/

section Unpack
variable {s : State} {e : Env} {src : Dword} {pa : Nat} {f64 : Bool} {eb : Dword} {xs : List Nat}

/-- The stream stands in quiet memory that may be read. -/
structure StreamAt (s : State) (e : Env) (src : Dword) (pa : Nat) (str : List Byte) : Prop where
  quiet : Quiet s e.b.core
  read : ∀ pos len, 0 < len → pos + len ≤ str.length →
    s.checkAccess (e.walker s) (src + BitVec.ofNat 64 pos) len askRead (fun _ => none) = .ok [(.mem (pa + pos), len)]
  good : s.badIn pa str.length = none
  bytes : bytesAt (seen s e.b.core) pa str.length = str

/-- A part of the stream fetched. -/
theorem StreamAt.fetch {str a b c : List Byte} {pos n : Nat} (h : StreamAt s e src pa str) (hstr : str = a ++ b ++ c) (hpos : pos = a.length)
    (hn : n = b.length) (h0 : 0 < n) {w : State} (hw : ReadOnly e.b.core s w) :
    ∃ w', ReadOnly e.b.core s w' ∧ w.fetchVirt e (src + BitVec.ofNat 64 pos) n = (some (b, none), w') := by
  subst hstr hpos hn
  have hfit : a.length + b.length ≤ (a ++ b ++ c).length := by
    simp only [List.length_append]
    omega
  obtain ⟨h1, h2⟩ := fetch_quiet h.quiet hw (h.read a.length b.length h0 hfit) (badIn_part h.good hfit)
  rw [bytesAt_part a b c h.bytes] at h1
  exact ⟨_, h2, Prod.ext h1 rfl⟩

/-- The first 16 bytes of a stream. -/
def streamHead (f64 : Bool) (eb : Dword) (n : Nat) : List Byte := leBytes 8 eb.toNat ++ leBytes 8 (n + (if f64 then 2 ^ 40 else 0))

theorem packStream_one (h0 : xs.length ≠ 0) (h : xs.length ≤ 64) :
    packStream f64 eb xs = streamHead f64 eb xs.length ++ packBlock f64 eb xs := by
  rw [packStream, blocks64_one h0 h, List.flatMap_singleton]
  rfl

theorem streamHead_fields {n : Nat} (hn : n ≤ 64) : BitVec.ofNat 64 (bitsOf (streamHead f64 eb n) 0 64) = eb ∧
    bitsOf (streamHead f64 eb n) 64 40 = n ∧ bitsOf (streamHead f64 eb n) 105 23 = 0 ∧ bitsOf (streamHead f64 eb n) 104 1 = f64.toNat := by
  have hnum : leNat (streamHead f64 eb n) = eb.toNat + 2 ^ 64 * (n + f64.toNat * 2 ^ 40) := by
    have hlo : eb.toNat % 256 ^ 8 = eb.toNat := Nat.mod_eq_of_lt eb.isLt
    have hhi : (n + if f64 = true then 2 ^ 40 else 0) % 256 ^ 8 = n + f64.toNat * 2 ^ 40 := by
      cases f64
      · exact Nat.mod_eq_of_lt (by simp; omega)
      · exact Nat.mod_eq_of_lt (by simp; omega)
    rw [streamHead, leNat_append, leNat_leBytes, leNat_leBytes, length_leBytes, hlo, hhi, show (256 : Nat) ^ 8 = 2 ^ 64 from rfl]
  have heb := eb.isLt
  have hf : f64.toNat ≤ 1 := Bool.toNat_le f64
  unfold bitsOf
  rw [hnum]
  refine ⟨BitVec.eq_of_toNat_eq ?_, ?_, ?_, ?_⟩
  · rw [BitVec.toNat_ofNat]
    omega
  · omega
  · omega
  · omega

/-! One block. -/

theorem blockHeader_fields : blockHeader f64 eb xs % 64 = codeWidth (blockCodes f64 eb xs) ∧
    (blockHeader f64 eb xs / 64 % 2 == 1) = !(blockRaw f64 eb xs).isEmpty ∧
    (decide (32 < blockHeader f64 eb xs % 64) || blockHeader f64 eb xs / 128 != 0) = false := by
  have hw := codeWidth_codes f64 eb xs
  unfold blockHeader
  cases (blockRaw f64 eb xs).isEmpty with
  | true =>
    rw [if_pos rfl]
    refine ⟨by omega, ?_, ?_⟩
    · rw [beq_eq_false_iff_ne.mpr (by omega)]
      rfl
    · rw [decide_eq_false (by omega), bne_eq_false_iff_eq.mpr (by omega)]
      rfl
  | false =>
    rw [if_neg Bool.false_ne_true]
    refine ⟨by omega, ?_, ?_⟩
    · rw [beq_iff_eq.mpr (by omega)]
      rfl
    · rw [decide_eq_false (by omega), bne_eq_false_iff_eq.mpr (by omega)]
      rfl

theorem blockMaskBytes_number (h : xs.length ≤ 64) : leNat (blockMaskBytes f64 eb xs) % 2 ^ xs.length = blockMask f64 eb xs := by
  have hlt := blockMask_lt f64 eb xs
  unfold blockMaskBytes
  split
  · rename_i he
    rw [blockMask_zero he]
    exact Nat.zero_mod _
  · have h64 : blockMask f64 eb xs < 256 ^ 8 := Nat.lt_of_lt_of_le hlt (Nat.pow_le_pow_right (by decide) h)
    rw [leNat_leBytes, Nat.mod_eq_of_lt h64, Nat.mod_eq_of_lt hlt]

theorem unpackGo_one {head : List Byte} {w : State} (h : StreamAt s e src pa (head ++ packBlock f64 eb xs)) (hhead : head.length = 16)
    (h0 : xs.length ≠ 0) (h64 : xs.length ≤ 64) (hx : ∀ x ∈ xs, x < 2 ^ (8 * packSize f64)) (hw : ReadOnly e.b.core s w)
    (to_ : List (Loc × Nat)) :
    ∃ w', ReadOnly e.b.core s w' ∧ w.unpackGo e f64 eb src to_ 1 16 0 xs.length = (⟨0, xs.length, none⟩,
      w'.writeLocs e.stream (some w'.nextId) (subLocs to_ 0 (xs.length * packSize f64))
        ((xs.map (rebuilt f64 eb)).flatMap (leBytes (packSize f64)))) := by
  obtain ⟨hwid, hesc, hform⟩ := blockHeader_fields (f64 := f64) (eb := eb) (xs := xs)
  have hnum : leNat (leBytes 8 (blockHeader f64 eb xs)) = blockHeader f64 eb xs := by
    rw [leNat_leBytes, Nat.mod_eq_of_lt (blockHeader_lt f64 eb xs)]
  rw [packBlock_eq] at h
  obtain ⟨w1, k1, h1⟩ := h.fetch (a := head) (b := leBytes 8 (blockHeader f64 eb xs))
    (c := blockMaskBytes f64 eb xs ++ blockBody f64 eb xs ++ blockTail f64 eb xs) (pos := 16) (n := 8)
    (by simp only [List.append_assoc]) hhead.symm (length_leBytes _ _).symm (by decide) hw
  have hmask : ∃ w2, ReadOnly e.b.core s w2 ∧ (if (!(blockRaw f64 eb xs).isEmpty) = true then
      w1.fetchVirt e (src + BitVec.ofNat 64 (16 + 8)) 8 else (some ([], none), w1)) = (some (blockMaskBytes f64 eb xs, none), w2) := by
    cases he : (blockRaw f64 eb xs).isEmpty with
    | true =>
      refine ⟨w1, k1, ?_⟩
      rw [blockMaskBytes, he]
      rfl
    | false =>
      have hb : blockMaskBytes f64 eb xs = leBytes 8 (blockMask f64 eb xs) := by
        rw [blockMaskBytes, he]
        rfl
      exact h.fetch (a := head ++ leBytes 8 (blockHeader f64 eb xs)) (c := blockBody f64 eb xs ++ blockTail f64 eb xs)
        (by simp only [List.append_assoc]) (by rw [List.length_append, hhead, length_leBytes]) (by rw [hb, length_leBytes]) (by decide) k1
  obtain ⟨w2, k2, h2⟩ := hmask
  have hbody : ∃ w3, ReadOnly e.b.core s w3 ∧
      (if (bodyLen xs (codeWidth (blockCodes f64 eb xs)) + roundUp 8 ((blockRaw f64 eb xs).length * packSize f64) == 0) = true then
        (some ([], none), w2)
      else w2.fetchVirt e (src + BitVec.ofNat 64 (16 + 8 + (if (!(blockRaw f64 eb xs).isEmpty) = true then 8 else 0)))
        (bodyLen xs (codeWidth (blockCodes f64 eb xs)) + roundUp 8 ((blockRaw f64 eb xs).length * packSize f64))) =
      (some (blockBody f64 eb xs ++ blockTail f64 eb xs, none), w3) := by
    have hlen : bodyLen xs (codeWidth (blockCodes f64 eb xs)) + roundUp 8 ((blockRaw f64 eb xs).length * packSize f64) =
        (blockBody f64 eb xs ++ blockTail f64 eb xs).length := by
      rw [List.length_append, blockBody_length, blockTail_length, Nat.mul_comm]
    rw [hlen]
    split
    · rename_i hz
      rw [List.length_eq_zero_iff.mp (beq_iff_eq.mp hz)]
      exact ⟨w2, k2, rfl⟩
    · rename_i hz
      refine h.fetch (a := head ++ leBytes 8 (blockHeader f64 eb xs) ++ blockMaskBytes f64 eb xs) (c := [])
        (by simp only [List.append_assoc, List.append_nil]) ?_ rfl (Nat.pos_of_ne_zero fun hc => hz (beq_iff_eq.mpr hc)) k2
      rw [List.length_append, List.length_append, hhead, length_leBytes, blockMaskBytes]
      cases (blockRaw f64 eb xs).isEmpty
      · rw [if_neg Bool.false_ne_true, length_leBytes]
        rfl
      · rfl
  obtain ⟨w3, k3, h3⟩ := hbody
  refine ⟨w3, k3, ?_⟩
  have hraw : elemsIn f64 (blockRaw f64 eb xs).length (blockTail f64 eb xs) = blockRaw f64 eb xs :=
    elemsIn_flat (fun x hm => hx x (List.mem_filter.mp hm).1) _
  rw [State.unpackGo, if_neg (by rwa [beq_iff_eq])]
  dsimp only
  rw [Nat.min_eq_left h64, h1]
  dsimp only
  rw [hnum, hform, if_neg Bool.false_ne_true, hesc, h2]
  dsimp only
  rw [blockMaskBytes_number h64, blockMask_count, hwid]
  change (match (if (bodyLen xs _ + _ == 0) = true then _ else State.fetchVirt _ _ _ (bodyLen xs _ + _)) with
    | (none, s) => _ | (some (_, some l), s) => _ | (some (b, none), s) => _) = _
  rw [h3]
  dsimp only
  rw [show 8 * ((xs.length * codeWidth (blockCodes f64 eb xs) + 63) / 64) = (blockBody f64 eb xs).length from (blockBody_length f64 eb xs).symm,
    List.take_left, List.drop_left, body_number, hraw, unpackBlock_block, Nat.zero_mul, Nat.zero_add]
  rfl

/-! The whole stream. -/

section Whole
variable {w : State} (h : StreamAt s e src pa (packStream f64 eb xs)) (h0 : xs.length ≠ 0) (h64 : xs.length ≤ 64) (hok : boundOk eb = true)
  (hw : ReadOnly e.b.core s w) (to_ : List (Loc × Nat))
include h h0 h64 hok hw

theorem unpack_head (cap : Nat) : ∃ w', ReadOnly e.b.core s w' ∧ w.unpack e f64 src cap to_ =
    if cap < xs.length then (⟨2, 0, none⟩, w') else w'.unpackGo e f64 eb src to_ 1 16 0 xs.length := by
  obtain ⟨hbound, hn, hz, hf⟩ := streamHead_fields (f64 := f64) (eb := eb) h64
  rw [packStream_one h0 h64] at h
  have hlen : (streamHead f64 eb xs.length).length = 16 := by rw [streamHead, List.length_append, length_leBytes, length_leBytes]
  obtain ⟨w1, k1, h1⟩ := h.fetch (a := []) (b := streamHead f64 eb xs.length) (c := packBlock f64 eb xs) (pos := 0) (n := 16)
    (by rw [List.nil_append]) rfl hlen.symm (by decide) hw
  have hsrc : src + BitVec.ofNat 64 0 = src := BitVec.add_zero src
  rw [hsrc] at h1
  have hgood : ¬(!boundOk eb || xs.length == 0 || (0 : Nat) != 0 || f64.toNat != f64.toNat) = true := by
    rw [hok, beq_eq_false_iff_ne.mpr h0, bne_self_eq_false, bne_self_eq_false]
    decide
  have hblocks : (xs.length + 63) / 64 = 1 := by omega
  refine ⟨w1, k1, ?_⟩
  rw [State.unpack, h1]
  dsimp only
  rw [hbound, hn, hz, hf, if_neg hgood, hblocks]

theorem unpack_small {cap : Nat} (hcap : cap < xs.length) :
    ∃ w', ReadOnly e.b.core s w' ∧ w.unpack e f64 src cap to_ = (⟨2, 0, none⟩, w') := by
  obtain ⟨w1, k1, h1⟩ := unpack_head h h0 h64 hok hw to_ cap
  exact ⟨w1, k1, h1.trans (if_pos hcap)⟩

theorem unpack_block (hx : ∀ x ∈ xs, x < 2 ^ (8 * packSize f64)) {cap : Nat} (hcap : xs.length ≤ cap) :
    ∃ w', ReadOnly e.b.core s w' ∧ w.unpack e f64 src cap to_ = (⟨0, xs.length, none⟩,
      w'.writeLocs e.stream (some w'.nextId) (subLocs to_ 0 (xs.length * packSize f64))
        ((xs.map (rebuilt f64 eb)).flatMap (leBytes (packSize f64)))) := by
  obtain ⟨w1, k1, h1⟩ := unpack_head h h0 h64 hok hw to_ cap
  rw [packStream_one h0 h64] at h
  obtain ⟨w2, k2, h2⟩ := unpackGo_one h (by rw [streamHead, List.length_append, length_leBytes, length_leBytes]) h0 h64 hx k1 to_
  exact ⟨w2, k2, (h1.trans (if_neg (Nat.not_lt.mpr hcap))).trans h2⟩

end Whole

end Unpack

section Exec
variable {s : State} {e : Env} {d : BitVec 6} {f64 : Bool} {dst src cnt : Sel} (h : s.env = some e) {to_ : List (Loc × Nat)}
include h

/-- `beunpack` once its destination is found. -/
theorem exec_beunpack {w : State}
    (hw : (if ((e.readU cnt).toNat == 0) = true then s else s.walked (e.walker s) (e.readU dst) ((e.readU cnt).toNat * packSize f64)) = w)
    (hto : (if ((e.readU cnt).toNat == 0) = true then .ok [] else
      w.checkAccess (e.walker w) (e.readU dst) ((e.readU cnt).toNat * packSize f64) askWrite (fun _ => none)) = Except.ok (ε := Stop) to_)
    (hdown : w.downLocs to_ = none) {st done : Nat} {w' : State}
    (hu : w.unpack e f64 (e.readU src) (e.readU cnt).toNat to_ = (⟨st, done, none⟩, w')) :
    exec (.beunpack d f64 dst src cnt) s = .next (w'.issueS e d (BitVec.ofNat 64 (st + done * 2 ^ 8))) := by
  change execBeunpack d f64 dst src cnt s = _
  rw [execBeunpack, within_env h]
  dsimp only
  rw [hw, hto]
  dsimp only
  rw [hdown]
  dsimp only
  rw [hu]

end Exec

theorem readOnly_walkedAll {core : Nat} (s : State) {w : Walker} (hw : w.die = some (dieOf core)) (l : List (Dword × Nat)) :
    ReadOnly core s (s.walkedAll w l) :=
  ReadOnly.foldl (f := fun t (r : Dword × Nat) => t.walked w r.1 r.2) (fun t r => readOnly_walked t hw r.1 r.2) _ _

/-- What a store to the start of one range of quiet memory leaves to see. -/
theorem written_seen {core : Nat} {s w : State} (q : Quiet s core) (hw : SeesSame core s w) {pd m : Nat} {out : List Byte}
    (h0 : out.length ≠ 0) (hm : out.length ≤ m) (k : StreamId) (id a : Nat) :
    seen (w.writeLocs k (some id) (subLocs [(.mem pd, m)] 0 out.length) out) core a =
      if pd ≤ a ∧ a < pd + out.length then (out[a - pd]?).getD 0 else seen s core a := by
  obtain ⟨qw, hsame⟩ := hw q
  rw [subLocs_start pd m _ h0 hm, writeLocs_mem, engineStore_quiet qw, hsame]

theorem elemsIn_bytesAt (f64 : Bool) (g : Nat → Byte) (pa n : Nat) : elemsIn f64 n (bytesAt g pa (n * packSize f64)) =
    (List.range n).map (fun i => leNat (bytesAt g (pa + i * packSize f64) (packSize f64))) := by
  refine List.map_congr_left fun i hi => ?_
  have hfit : i * packSize f64 + packSize f64 ≤ n * packSize f64 := by
    rw [← Nat.succ_mul]
    exact Nat.mul_le_mul_right _ (List.mem_range.mp hi)
  rw [bytesAt_chunk g pa hfit]

theorem packStream_length_pos (f64 : Bool) (eb : Dword) (xs : List Nat) : (packStream f64 eb xs).length ≠ 0 := by
  rw [packStream, List.length_append, List.length_append, length_leBytes]
  omega

theorem elemsIn_length (f64 : Bool) (n : Nat) (d : List Byte) : (elemsIn f64 n d).length = n := by
  rw [elemsIn, List.length_map, List.length_range]

/-- A destination of one range, or none. -/
theorem destination_ready {s : State} {e : Env} {dst : Dword} {cap sz pd : Nat} (q : Quiet s e.b.core)
    (hd : if cap = 0 then True else s.checkAccess (e.walker s) dst (cap * sz) askWrite (fun _ => none) = .ok [(.mem pd, cap * sz)] ∧
      s.downIn pd (cap * sz) = none) :
    ∃ w to_, (if (cap == 0) = true then s else s.walked (e.walker s) dst (cap * sz)) = w ∧ ReadOnly e.b.core s w ∧
      (if (cap == 0) = true then .ok [] else w.checkAccess (e.walker w) dst (cap * sz) askWrite (fun _ => none)) =
        Except.ok (ε := Stop) to_ ∧ w.downLocs to_ = none ∧ (cap ≠ 0 → to_ = [(.mem pd, cap * sz)]) := by
  by_cases hc : cap = 0
  · refine ⟨s, [], ?_, .refl s, ?_, rfl, fun h => absurd hc h⟩
    · rw [if_pos (beq_iff_eq.mpr hc)]
    · rw [if_pos (beq_iff_eq.mpr hc)]
  · rw [if_neg hc] at hd
    obtain ⟨hacc, hdown⟩ := hd
    have hw := readOnly_walked s (walker_die s e) dst (cap * sz)
    have hne : ¬(cap == 0) = true := fun h => hc (beq_iff_eq.mp h)
    refine ⟨_, [(.mem pd, cap * sz)], if_neg hne, hw, (if_neg hne).trans ?_, ?_, fun _ => rfl⟩
    · rw [walker_traffic hw.traffic, checkAccess_readOnly hw q (walker_die s e)]
      exact hacc
    · rw [downLocs_traffic hw.traffic]
      exact downLocs_mem hdown

/-- Settles O37: the stream of an array and its length; a one-block stream decoded; the nearest quotient. -/
theorem packedArrays : Obligations.PackedArrays := by
  intro s e d f64 dst src cnt eb ls ld pa pd bound xs h sz n ok worst read write w put
  refine ⟨fun hr => ?_, fun hn hok => bepack_past h hn ((boundOk_iff _).mpr hok), fun h0 hn hok hr hd hmem hbad hdown => ?_, ?_,
    fun x k hk => rneDiv_nearest x hk⟩
  · refine bepack_refused h (hr.imp_right fun hno => ?_)
    rw [← Bool.not_eq_true, boundOk_iff]
    exact hno
  · have hsrc : e.readU src + BitVec.ofNat 64 0 = e.readU src := BitVec.add_zero _
    have hx := bepack_written (d := d) (w := w) h rfl h0 hn ((boundOk_iff _).mpr hok)
      ((congrArg (fun a => w.checkAccess (e.walker w) a (n * sz) askRead (fun _ => none)) hsrc.symm).trans hr) hd hbad hdown
    have hw : ReadOnly e.b.core s w := readOnly_walkedAll s (walker_die s e) _
    have hread : SeesSame e.b.core s (w.readLocs (some e.b.core) ls).2 := hw.sees.trans (seesSame_readLocs w ls)
    have hlen : (packStream f64 (e.readU eb) (elemsIn f64 n (w.readLocs (some e.b.core) ls).1)).length ≤ worst := by
      refine (packStream_length f64 _ _).trans ?_
      rw [elemsIn_length]
      exact Nat.le_refl _
    refine ⟨_, _, _, hx, (hw.traffic.trans (traffic_readLocs _ _ _)).trans (traffic_writeLocs _ _ _ _ _), addOp_queued _ e _, hlen,
      fun q hls hld => ⟨?_, fun a => ?_⟩⟩
    · obtain ⟨qw, hsame⟩ := hw.sees q
      rw [hls, readLocs_mem _ qw, bytesAt_congr fun a _ _ => hsame a]
      exact congrArg (packStream f64 (e.readU eb)) (elemsIn_bytesAt f64 _ pa n)
    · rw [hld]
      exact written_seen q hread (packStream_length_pos _ _ _) hlen e.stream _ a
  · intro str cap h0 h64 hx hok q hread hbad hbytes hdst
    have hstr : StreamAt s e (e.readU src) pa str := ⟨q, hread, hbad, hbytes⟩
    have hok := (boundOk_iff _).mpr hok
    obtain ⟨w0, to_, hw, k0, hto, hdown, hrange⟩ := destination_ready q hdst
    by_cases hcap : xs.length ≤ cap
    · obtain ⟨w1, k1, hu⟩ := unpack_block hstr h0 h64 hok k0 to_ hx hcap
      have hlist : (xs.map (rebuilt f64 bound)).flatMap (leBytes (packSize f64)) =
          xs.flatMap (fun x => leBytes sz (rebuilt f64 bound x)) := List.flatMap_map _ _ _
      have hout : (xs.flatMap (fun x => leBytes sz (rebuilt f64 bound x))).length = xs.length * sz := by
        rw [length_flatMap_chunks (fun _ => length_leBytes _ _), Nat.mul_comm]
      have hsz : 0 < sz := by cases f64 <;> decide
      have hcap0 : cap ≠ 0 := by omega
      have hcut : subLocs to_ 0 (xs.length * packSize f64) =
          subLocs [(.mem pd, cap * sz)] 0 (xs.flatMap (fun x => leBytes sz (rebuilt f64 bound x))).length := by
        rw [hrange hcap0, hout]
        rfl
      rw [hcut, hlist] at hu
      have hx := exec_beunpack (d := d) h hw hto hdown hu
      rw [Nat.zero_add] at hx
      refine ⟨_, _, hx, k1.traffic.trans (traffic_writeLocs w1 _ _ _ _), fun _ => ⟨addOp_queued _ e _, fun a => ?_⟩,
        fun hlt => absurd hcap (Nat.not_le.mpr hlt)⟩
      refine written_seen q k1.sees ?_ ?_ e.stream w1.nextId a
      · rw [hout]
        exact Nat.mul_ne_zero h0 hsz.ne'
      · rw [hout]
        exact Nat.mul_le_mul_right sz hcap
    · obtain ⟨w1, k1, hu⟩ := unpack_small hstr h0 h64 hok k0 to_ (Nat.not_le.mp hcap)
      exact ⟨_, _, exec_beunpack h hw hto hdown hu, k1.traffic, fun hle => absurd hle hcap, fun _ => ⟨addOp_queued w1 e _, (k1.sees q).2⟩⟩

end Sys2Proof.Safety
end

section
/-! PROOF. The state after reset (O60). -/

namespace Sys2Proof.Safety
open Sys2Proof.Machine

/-- Every queue of the reset state is a queue at its Reset column (R362). -/
theorem queue_reset (n : Nat) : State.reset.queue n = Queue.reset n := rfl

/-- The queue block of the register BAR: dword k of queue n's block (R362). -/
theorem reg_queue (s : State) (n k : Nat) (hn : n < 1024) (hk : k < 8) :
    s.reg (0x20_0000 + 64 * n + 8 * k) = (s.queue n).reg k := by
  have hq : (0x20_0000 + 64 * n + 8 * k - 0x20_0000) / 64 = n := by omega
  have hr : (0x20_0000 + 64 * n + 8 * k) % 64 / 8 = k := by omega
  have hc : ¬(0x18_0000 ≤ 0x20_0000 + 64 * n + 8 * k ∧ 0x20_0000 + 64 * n + 8 * k < 0x18_8000) := by omega
  have hb : 0x20_0000 ≤ 0x20_0000 + 64 * n + 8 * k ∧ 0x20_0000 + 64 * n + 8 * k < 0x21_0000 := by omega
  simp only [State.reg, Bool.and_eq_true, decide_eq_true_eq]
  rw [if_neg hc, if_pos hb, hq, hr]

/-- CTXSTAT_n stands at its place of the register BAR (R383). -/
theorem reg_ctxstat (s : State) (n : Nat) (hn : n < 4096) : s.reg (0x18_0000 + 8 * n) = s.ctxstat n := by
  have hq : (0x18_0000 + 8 * n - 0x18_0000) / 8 = n := by omega
  have hb : 0x18_0000 ≤ 0x18_0000 + 8 * n ∧ 0x18_0000 + 8 * n < 0x18_8000 := by omega
  simp only [State.reg, Bool.and_eq_true, decide_eq_true_eq]
  rw [if_pos hb, hq]

/-- The dwords of a queue's block at reset (R362). -/
theorem reg_queue_reset (n k : Nat) (hn : n < 1024) (hk : k < 6) :
    State.reset.reg (0x20_0000 + 64 * n + 8 * k) = if k = 1 then 0x0001_0000_0000_0010 else 0 := by
  have hreg : ∀ j : Fin 6, (Queue.reset 0).reg j.val = if j.val = 1 then 0x0001_0000_0000_0010 else 0 := by decide
  rw [reg_queue _ _ _ hn (by omega), queue_reset]
  exact hreg ⟨k, hk⟩

/-- PLANEMAP_n of the reset state names plane n mod 12, which is live (R167). -/
theorem reg_planemap_reset (n : Nat) (hn : n < 64) :
    State.reset.reg (0x30_0700 + 8 * n) = BitVec.ofNat 64 (n % 12 + 16) := by
  have hall : ∀ m : Fin 64, State.reset.reg (0x30_0700 + 8 * m.val) = BitVec.ofNat 64 (m.val % 12 + 16) := by
    decide +kernel
  exact hall ⟨n, hn⟩

/-- PWRSTAT of the reset state, below the temperature and the power, which have no reset value (R430). -/
theorem toNat_reg_pwrstat_reset : ∃ x, (State.reset.reg 0x30_0508).toNat = (x * 2 ^ 16 + 3600) * 2 ^ 16 := by
  obtain ⟨w, hw⟩ : ∃ w : Word, State.reset.reg 0x30_0508 = w ++ 3600#16 ++ 0#16 := ⟨_, rfl⟩
  refine ⟨w.toNat, ?_⟩
  rw [hw, BitVec.toNat_append, ← Nat.shiftLeft_add_eq_or_of_lt (by decide), BitVec.toNat_append,
    ← Nat.shiftLeft_add_eq_or_of_lt (by decide), Nat.shiftLeft_eq, Nat.shiftLeft_eq]
  simp

/-- Settles O60: the reset state holds nothing, and its registers are read one block of the BAR at a time. -/
theorem resetLeaves : Obligations.ResetLeaves := by
  unfold Obligations.ResetLeaves
  refine ⟨⟨rfl, by intro b hb; cases hb⟩, rfl, rfl, rfl, rfl, rfl, ?queues, ?contexts, reg_planemap_reset, ?bootstat,
    ?clock, ?flags, ?table⟩
  case queues =>
    intro n hn
    exact ⟨reg_queue_reset n 0 hn (by omega), reg_queue_reset n 1 hn (by omega), reg_queue_reset n 2 hn (by omega),
      reg_queue_reset n 3 hn (by omega), reg_queue_reset n 4 hn (by omega), reg_queue_reset n 5 hn (by omega)⟩
  case contexts => exact fun n hn => reg_ctxstat _ n hn
  case bootstat => decide +kernel
  case clock =>
    obtain ⟨x, hx⟩ := toNat_reg_pwrstat_reset
    omega
  case flags =>
    obtain ⟨x, hx⟩ := toNat_reg_pwrstat_reset
    omega
  case table => decide +kernel

end Sys2Proof.Safety
end

section
/-! PROOF. Every instruction, every event and every step answers (O58). -/

namespace Sys2Proof.Safety
open Sys2Proof.Machine

/-- An outcome is a next state. -/
def Answers (o : Out) : Prop := ∃ t, o = .next t

theorem answers_next (t : State) : Answers (.next t) := ⟨t, rfl⟩

/-- An instruction answers whatever it does to its clause, and without a clause in progress too. -/
theorem answers_within (s : State) (f : Env → State) : Answers (s.within f) := by
  unfold State.within
  split
  · exact answers_next _
  · exact answers_next _

/-- Every instruction acts within the clause in progress; an event is taken, or finds nothing to do. -/
theorem answers_exec (i : Instr) (s : State) : Answers (exec i s) := by
  cases i with
  | iadd | isub | imul | imulhi | imad | iabs | ineg | imin | imax | iaddc | isubb | iadds | shl | shr | sar | rot | and | or |
  xor | andn | orn | not | logic3 | popc | clz | ctz | brev | bfx | bfi | bperm | icmp | sel | mov | fadd | fsub | fmul | ffma |
  fmin | fmax | fminn | fmaxn | fabs | fneg | fsgn | fcmp | fclass | fround | fscale | fexpn | fmant | cvt | cvtp | cvtu | pand
  | por | pxor | pnot | pmov | shfl | spush | vote | ballot | matchSlots | redux | scan | nact | shape | shapeof | ld | st | ldl
  | stl | atom | atomx | fence | pref | roinv | persist | wfence | wfire | wrel | pclr | arcset | arcadd | sadd | ssub | smul |
  smulhi | smad | sshl | sshr | ssar | sand | sor | sxor | snot | smin | smax | smov | scmp | ssel | spopc | sclz | rfa | rcp |
  rsq | sqrt | exp2 | log2 | sinpi | cospi | tanh | erf | fdiv | idiv | cpy | cpyw | stmap | stunmap | stflush | zdef | zclr |
  mma | mmaGang | opfence | zrnd | zdrain | zld | zst | quant | opinst | opbind | opunbind | opstat | opread | mgopen | mgstage
  | mgclose | mgcommit | mgread | mgabort | coll | xferw | xferr | amsg | amsgReply | rwr | bepack | beunpack | bra | jmp | brx
  | call | calli | ret | enrol | rejoin | bar | gbar | arcwait | acq | rela | exit | yield | nop | trap | sleep | time | slack |
  vpub | sys | csrr | csrw | tret | brk =>
    exact answers_within _ _
  | tdprod | thcons | biasFlipCommand | flipComplete | directoryAcknowledgement | inputStoreJoin | wfireJoin | wrelJoin |
  fireComplete | qtail | queueEnable | queueDisable | quar | queueSwitchOut | nopPacket | launch | indirect | waitmem |
  waitmemRecheck | signal | fencePacket | setctx | timestamp | define | reload | halt | resume | destroy | tinvctl | retire |
  planemapWrite | syncTimeout | stepTime | servoEnable | servoDisable | correctedError | powerLoss | reset | bootok |
  bootokTimeout | retry | standbyPowerLoss | clockclassChange =>
    exact answers_next _
  | registerWrite | clauseIssue | tokenClear | copyWrite | stashFillComplete | stashRecall | orphanWait | divert | deadlineStop
  | blockAdmit | blockEvict | blockReadmit | allotmentGrant | spindleRelease | blockFree | sleepExpire | serviceComplete |
  stopRecords | fault =>
    dsimp only [exec, execRegisterWrite, execClauseIssue, execTokenClear, execCopyWrite, execStashFillComplete,
      execStashRecall, execOrphanWait, execDivert, execDeadlineStop, execBlockAdmit, execBlockEvict, execBlockReadmit,
      execAllotmentGrant, execSpindleRelease, execBlockFree, execSleepExpire, execServiceComplete, execStopRecords, execFault]
    repeat' split
    all_goals exact answers_next _
  | faultReply | attest | unknownTdMessage | coreFailed | uncorr | hostMemRequest | hostWindowRequest | peerRequest |
  streamResume | remoteReject | amsgArrival | replyArrival | deposit | xferPacket | collComplete | tsilent | resultLoadJoin |
  gangMmaMatch | mergeTimeout =>
    dsimp only [exec, execFaultReply, execAttest, execUnknownTdMessage, execCoreFailed, execUncorr, execHostMemRequest,
      execHostWindowRequest, execPeerRequest, execStreamResume, execRemoteReject, execAmsgArrival, execReplyArrival,
      execDeposit, execXferPacket, execCollComplete, execTsilent, execResultLoadJoin, execGangMmaMatch, execMergeTimeout]
    repeat' split
    all_goals exact answers_next _
  | operatorMoveOut | operatorRestore | unitLoad | queueSwitchIn | tinvDone | planeDeath | sync | clockThrottle | thermalTrip |
  coreFailure | uncorrectableError | linkDown | codePageFill | firmwareCoreStop | slicePeriodEnd | hsel | hdata |
  hostCxlCacheSnoop | downstreamBackInvalidate =>
    dsimp only [exec, execOperatorMoveOut, execOperatorRestore, execUnitLoad, execQueueSwitchIn, execTinvDone, execPlaneDeath,
      execSync, execClockThrottle, execThermalTrip, execCoreFailure, execUncorrectableError, execLinkDown, execCodePageFill,
      execFirmwareCoreStop, execSlicePeriodEnd, execHsel, execHdata, execHostCxlCacheSnoop, execDownstreamBackInvalidate]
    repeat' split
    all_goals exact answers_next _

/-- Every smaller move answers too. -/
theorem answers_execMicro (m : Micro) (s : State) : Answers (execMicro m s) := by
  cases m with
  | deliver | tile | tlbFill | tlbDrop | hostEvict | sendPacket | freeze | extend | enumerate | foreignWrite | stockDrop
  | readBootstat | ibkWrite | slowStl | landStl | swapStl | announce =>
    exact answers_next _
  | boot | persistAck | writeBootctl | readHdata | peerAck | windowGo =>
    dsimp only [execMicro, execBootStep, execPersistAck, execWriteBootctl, execReadHdata, execPeerAck, execWindowGo]
    repeat' split
    all_goals exact answers_next _

/-- What goes on beside a move keeps its answer. -/
theorem answers_perform (s : State) (i : Instr) : Answers (s.perform i) := by
  unfold State.perform
  split
  · exact answers_next _
  · obtain ⟨t, ht⟩ := answers_exec i (s.before i)
    rw [ht]
    exact answers_next _

theorem answers_performPart (s : State) (m : Micro) : Answers (s.performPart m) := by
  obtain ⟨t, ht⟩ := answers_execMicro m s
  unfold State.performPart
  rw [ht]
  exact answers_next _

theorem answers_stepRun (s : State) : Answers (stepRun s) := by
  unfold stepRun
  split
  · exact answers_next _
  · split
    · exact answers_next _
    · exact answers_perform _ _

theorem answers_stepTurn (t : Turn) (s : State) : Answers (stepTurn t s) := by
  cases t with
  | event i => exact answers_perform s i
  | run core spid => exact answers_stepRun _
  | part m => exact answers_performPart s m

theorem answers_stepPlan (s : State) : Answers (stepPlan s) := by
  dsimp only [stepPlan]
  split
  · exact answers_stepTurn _ _
  · exact answers_next _

/-- A powered part always has a step: what is due, the turn given, the clause in progress, or its own plan. -/
theorem answers_stepLive (s : State) : Answers (stepLive s) := by
  unfold stepLive
  split
  · exact answers_perform _ _
  · split
    · exact answers_stepTurn _ _
    · split
      · exact answers_stepRun _
      · exact answers_stepPlan _

/-- Without power the part stops when no turn is left, and only then (R126). -/
theorem answers_stepDark (s : State) : Answers (stepDark s) ∨ stepDark s = .fault .unpowered := by
  unfold stepDark
  split
  · exact .inr rfl
  · split
    · exact .inl (answers_exec _ _)
    · exact .inl (answers_exec _ _)
    · exact .inl (answers_next _)
  · exact .inl (answers_next _)
  · exact .inl (answers_next _)

/-- Settles O58: every arm of `exec` answers, and each way a step is taken comes down to one of them. -/
theorem stepAnswers : Obligations.StepAnswers := by
  unfold Obligations.StepAnswers
  refine ⟨answers_exec, fun s => ?_⟩
  unfold Runs step
  split
  · exact .inl (answers_stepLive _)
  · exact answers_stepDark s

end Sys2Proof.Safety
end

section
/-! PROOF. Reset and boot (R126, R409 to R413, R416, R434): the lines that outlive a reset, a failure, and each boot state. -/

namespace Sys2Proof.Safety
open Sys2Proof.Machine

/-! The lines that outlive a reset (R126). -/

/-- A line written out whole with the bytes `f`. -/
def writeOut (f : Nat → Byte) (t : State) (l : Nat) : State :=
  { t with mem := Memory.setMany t.mem (128 * l) (bytesAt f (128 * l) 128) }

/-- The kept lines are written out once the devices' own lines are taken over. -/
theorem settleLines_eq (s : State) :
    s.settleLines = s.kept.foldl (writeOut s.home) s ∨ s.coh.device ≠ [] := by
  by_cases hd : s.coh.device = []
  · left
    unfold State.settleLines
    rw [hd]
    rfl
  · exact .inr hd

theorem traffic_writeOut (f : Nat → Byte) (t : State) (l : Nat) : Traffic t (writeOut f t l) :=
  ⟨rfl, fun h => ⟨Memory.setMany_wf h.1 _ _, h.2⟩⟩

theorem traffic_settleLines (s : State) : Traffic s s.settleLines :=
  (Traffic.foldl traffic_refresh _ s).trans (Traffic.foldl (traffic_writeOut _) _ _)

theorem settleLines_boot (s : State) : s.settleLines.boot = s.boot := by
  have h := congrArg State.boot (traffic_settleLines s).1
  exact h

/-- Lines written out whole hold their bytes, and a byte that was written with those bytes still holds them. -/
theorem get_writeOuts (f : Nat → Byte) (ls : List Nat) (t : State) (a : Nat)
    (h : lineOf a ∈ ls ∨ Memory.get t.mem a = some (f a)) :
    Memory.get (ls.foldl (writeOut f) t).mem a = some (f a) := by
  induction ls generalizing t with
  | nil => simpa using h
  | cons l r ih =>
    refine ih _ ?_
    by_cases hl : a / 128 = l
    · right
      have hin : a - 128 * l < 128 := by omega
      have hle : 128 * l ≤ a := by omega
      rw [writeOut, Memory.get_setMany, if_pos ⟨hle, by rw [length_bytesAt]; omega⟩, bytesAt,
        List.getElem?_map, List.getElem?_range hin, Option.map_some, Nat.add_sub_cancel' hle]
    · rcases h with h | h
      · exact .inl ((List.mem_cons.mp h).resolve_left hl)
      · right
        have hout : ¬(128 * l ≤ a ∧ a < 128 * l + (bytesAt f (128 * l) 128).length) := by rw [length_bytesAt]; omega
        rw [writeOut, Memory.get_setMany, if_neg hout, h]

theorem kept_writeOuts (f : Nat → Byte) (ls : List Nat) (t : State) : (ls.foldl (writeOut f) t).kept = t.kept := by
  induction ls generalizing t with
  | nil => rfl
  | cons l r ih => exact ih _

theorem settleLines_kept {s : State} (hd : s.coh.device = []) : s.settleLines.kept = s.kept := by
  rw [(settleLines_eq s).resolve_right (not_not_intro hd), kept_writeOuts]

/-- After a reset a kept line reads as before it (R126). -/
theorem home_afterReset {s : State} (hd : s.coh.device = []) (fails : Nat) (reason : Byte)
    {a : Nat} (ha : lineOf a ∈ s.kept) : (s.afterReset fails reason).home a = s.home a := by
  have hget : Memory.get (s.afterReset fails reason).mem a = some (s.home a) := by
    show Memory.get (Memory.drop s.settleLines.mem (fun x => !s.settleLines.kept.contains (lineOf x))) a = _
    rw [Memory.get_drop, settleLines_kept hd, if_neg (by simpa using ha),
      (settleLines_eq s).resolve_right (not_not_intro hd)]
    exact get_writeOuts s.home s.kept s a (.inl ha)
  have hret : (s.afterReset fails reason).retired a = false := rfl
  rw [State.home, hret, hget]
  rfl

/-- Only kept lines hold bytes after a reset. -/
theorem mem_afterReset (s : State) (fails : Nat) (reason : Byte) :
    ∀ c ∈ (s.afterReset fails reason).mem, lineOf c.1 ∈ (s.afterReset fails reason).kept := by
  intro c hc
  have h : (!!s.settleLines.kept.contains (lineOf c.1)) = true := (List.mem_filter.mp hc).2
  rw [Bool.not_not] at h
  exact List.contains_iff_mem.mp h

/-! A failure (R412). -/

theorem boot_afterReset (s : State) (fails : Nat) (reason : Byte) :
    (s.afterReset fails reason).boot = { Boot.reset fails reason with inp := s.boot.inp } := by
  rw [← settleLines_boot s]
  rfl

/-- A failure resets the part with its reason; one after RUNNING counts. -/
theorem bootFail_boot (s : State) (r : Byte) :
    (s.bootFail r).boot =
      { Boot.reset (if s.boot.state = 6 then min 3 (s.boot.fails + 1) else s.boot.fails) r with inp := s.boot.inp } := by
  simp only [State.bootFail, boot_afterReset, beq_iff_eq]

/-- An attempt ends with a reason: the part is reset, its count and what the ROM finds as they were. -/
def FailsWith (s : State) (o : Out) (r : Byte) : Prop :=
  ∃ t, o = .next t ∧ t.boot.state = 0 ∧ t.boot.fails = s.boot.fails ∧ t.boot.reason = r ∧ t.boot.inp = s.boot.inp

theorem failsWith_bootFail {s : State} {o : Out} {r : Byte} (h6 : s.boot.state ≠ 6) (h : o = .next (s.bootFail r)) :
    FailsWith s o r := by
  have hb := bootFail_boot s r
  rw [if_neg h6] at hb
  exact ⟨_, h, by rw [hb]; rfl, by rw [hb]; rfl, by rw [hb]; rfl, by rw [hb]⟩

/-! Fields of the boot descriptor (R410). -/

/-- The little-endian value of a field, by its byte offset and its size. -/
def bootField (d : List Byte) (lo n : Nat) : Nat := leNat ((d.drop lo).take n)

theorem leNat_div_bytes (d : List Byte) (k : Nat) : leNat d / 256 ^ k = leNat (d.drop k) := by
  induction k generalizing d with
  | zero => simp
  | succ k ih =>
    cases d with
    | nil => simp [leNat]
    | cons b r =>
      have hb := b.isLt
      have h1 : leNat (b :: r) / 256 = leNat r := by simp only [leNat]; omega
      rw [Nat.pow_succ', ← Nat.div_div_eq_div_mul, h1, ih, List.drop_succ_cons]

theorem leNat_mod_bytes (d : List Byte) (k : Nat) : leNat d % 256 ^ k = leNat (d.take k) := by
  induction k generalizing d with
  | zero => simp [leNat, Nat.mod_one]
  | succ k ih =>
    cases d with
    | nil => simp [leNat]
    | cons b r =>
      have hb := b.isLt
      have h0 : (b.toNat + 256 * leNat r) % 256 = b.toNat := by omega
      have h1 : (b.toNat + 256 * leNat r) / 256 = leNat r := by omega
      rw [List.take_succ_cons, leNat, leNat, ← ih, Nat.pow_succ', Nat.mod_mul, h0, h1]

/-- The bits of whole bytes are a field. -/
theorem bitsOf_field (d : List Byte) (lo n : Nat) : bitsOf d (8 * lo) (8 * n) = bootField d lo n := by
  have hp (x : Nat) : 2 ^ (8 * x) = 256 ^ x := by rw [Nat.pow_mul]
  rw [bitsOf, hp, hp, leNat_div_bytes, leNat_mod_bytes, bootField]

/-- The descriptor's own fields are good (R410). -/
structure DescGood (d : List Byte) : Prop where
  magic : bootField d 0 4 = 0x454E_4144
  version : bootField d 4 2 = 1
  reserved : bootField d 40 88 = 0
  entryAlign : bootField d 32 8 % 4 = 0
  lenAlign : bootField d 16 8 % 4096 = 0
  lenMax : bootField d 16 8 ≤ 2 ^ 28
  offAlign : bootField d 8 8 % 4096 = 0
  entryIn : bootField d 32 8 < bootField d 16 8
  tableIn : bootField d 24 8 + 64 * (bootField d 16 8 / 4096) ≤ bootField d 16 8

theorem bootDescOk_iff (d : List Byte) : bootDescOk d = true ↔ DescGood d := by
  have h0 : bitsOf d 0 32 = _ := bitsOf_field d 0 4
  have h4 : bitsOf d 32 16 = _ := bitsOf_field d 4 2
  have h8 : bitsOf d 64 64 = _ := bitsOf_field d 8 8
  have h16 : bitsOf d 128 64 = _ := bitsOf_field d 16 8
  have h24 : bitsOf d 192 64 = _ := bitsOf_field d 24 8
  have h32 : bitsOf d 256 64 = _ := bitsOf_field d 32 8
  have h40 : bitsOf d 320 704 = _ := bitsOf_field d 40 88
  simp only [bootDescOk, h0, h4, h8, h16, h24, h32, h40, Bool.and_eq_true, beq_iff_eq, decide_eq_true_eq]
  constructor
  · rintro ⟨⟨⟨⟨⟨⟨⟨⟨a, b⟩, c⟩, e⟩, f⟩, g⟩, h⟩, i⟩, j⟩
    exact ⟨a, b, c, e, f, g, h, i, j⟩
  · rintro ⟨a, b, c, e, f, g, h, i, j⟩
    exact ⟨⟨⟨⟨⟨⟨⟨⟨a, b⟩, c⟩, e⟩, f⟩, g⟩, h⟩, i⟩, j⟩

/-! The boot ROM (R409). Each state's work, on what the ROM finds. -/

section Rom
variable {s : State} {b : BootIn} (hb : s.boot.inp = some b)
include hb

theorem boot_counts (hs : s.boot.state = 0) : execMicro .boot s = .next { s with boot :=
    if s.boot.fails = 3 then { s.boot with state := 7 } else { s.boot with state := 1, fails := s.boot.fails + 1 } } := by
  simp [execMicro, execBootStep, hb, hs]

theorem boot_identity (hs : s.boot.state = 1) : execMicro .boot s = .next (s.bootIdentity b) := by
  simp [execMicro, execBootStep, hb, hs]

theorem boot_config (hs : s.boot.state = 2) : execMicro .boot s = .next (s.bootConfig b) := by
  simp [execMicro, execBootStep, hb, hs]

theorem boot_fetch (hs : s.boot.state = 3) : execMicro .boot s = .next (s.bootFetch b) := by
  simp [execMicro, execBootStep, hb, hs]

theorem boot_verify (hs : s.boot.state = 4) : execMicro .boot s = .next (s.bootVerify b) := by
  simp [execMicro, execBootStep, hb, hs]

theorem boot_train (hs : s.boot.state = 5) : execMicro .boot s = .next (s.bootTrain b) := by
  simp [execMicro, execBootStep, hb, hs]

/-- From RUNNING on, the ROM has nothing to do. -/
theorem boot_done (hs : 6 ≤ s.boot.state.toNat) : execMicro .boot s = .next s := by
  obtain ⟨k, hk⟩ := Nat.exists_eq_add_of_le' hs
  simp only [execMicro, execBootStep, hb, hk]

end Rom

/-- A byte that another agent than the retired frames holds, after bytes are written from a place on. -/
theorem home_setMany {s : State} (hf : s.health.unmapped = []) (pa : Nat) (d : List Byte) {i : Nat} {y : Byte}
    (hy : d[i]? = some y) {t : State} (hm : t.mem = Memory.setMany s.mem pa d) (hh : t.health = s.health) :
    t.home (pa + i) = y := by
  have hlt : i < d.length := (List.getElem?_eq_some_iff.mp hy).1
  have hret : t.retired (pa + i) = false := by simp [State.retired, hh, hf]
  rw [State.home, hret, hm, if_neg Bool.false_ne_true, Memory.get_setMany, if_pos ⟨by omega, by omega⟩,
    Nat.add_sub_cancel_left, hy]
  rfl

/-- FETCH finds the region and a good descriptor: the region is memory behind its port (R410, R411). -/
theorem bootFetch_good {s : State} {b : BootIn} (hp : b.portUp = true) (hl : 256 ≤ b.region.length)
    (hd : DescGood (b.region.take 256)) :
    ∃ t, s.bootFetch b = t ∧ t = { s with mem := t.mem, boot := { s.boot with state := 4, region := some (bootPlace b, b.region.length) } } ∧
      (s.health.unmapped = [] → ∀ i y, b.region[i]? = some y → t.home (bootPlace b + i) = y) := by
  have hok : bootDescOk (bootDesc b) = true := (bootDescOk_iff _).mpr hd
  refine ⟨_, by rw [State.bootFetch, if_neg (by simp [hp, hl]), if_neg (by simp [hok])], rfl, ?_⟩
  exact fun hf i y hy => home_setMany hf _ _ hy rfl rfl

/-- VERIFY's image and its descriptor's fields. -/
theorem bootImage_eq (b : BootIn) : bootImage b =
    (b.region.drop (bootField (b.region.take 256) 8 8)).take (bootField (b.region.take 256) 16 8) := by
  have h8 : bitsOf (bootDesc b) 64 64 = _ := bitsOf_field _ 8 8
  have h16 : bitsOf (bootDesc b) 128 64 = _ := bitsOf_field _ 16 8
  rw [bootImage, h8, h16]
  rfl

/-- The image is whole, and its digest is the descriptor's (R410). -/
def ImageWhole (b : BootIn) : Prop :=
  (bootImage b).length = bootField (b.region.take 256) 16 8 ∧
    bootField (b.region.take 256) 128 64 = (Config.sha512 (bootImage b)).toNat

/-- VERIFY's signature is the ROM key's (R410). -/
def SigGood (b : BootIn) : Bool :=
  Config.romKeyVerifies (BitVec.ofNat 512 (bootField (b.region.take 256) 192 64)) ((b.region.take 256).take 192)

/-- VERIFY looks at the image, the signature and the version, in this order (R410, R411). -/
theorem bootVerify_eq (s : State) (b : BootIn) [Decidable (ImageWhole b)] : s.bootVerify b =
    if ¬ImageWhole b then s.bootFail 0x07
    else if SigGood b = false then s.bootFail 0x08
    else if bootField (b.region.take 256) 6 2 < b.record.minsvn.toNat then s.bootFail 0x09
    else
      let m := ((s.boot.extend 0 (leBytes 64 (Config.sha512 ((b.region.take 256).take 192)).toNat)).extend 0
        (leBytes 64 (Config.sha512 (bootImage b)).toNat)).extend 1 (leBytes 64 (Config.sha512 (Config.recordBytes b.record)).toNat)
      let al := aliasSeedOf (s.boot.puf.getD 0) ((m.meas[0]?).getD 0) ((m.meas[1]?).getD 0)
      { s with boot := { m with
          state := 5, aliasSeed := al
          aliasSig := Config.ed25519Sign (identitySeed (s.boot.puf.getD 0)) (leBytes 32 (Config.ed25519Public al).toNat)
          puf := none, fwStart := s.devtime, fwRunning := s.dies
          pageDigests := pageTable (bootImage b) (bootField (b.region.take 256) 24 8) } } := by
  have h6 : bitsOf (bootDesc b) 48 16 = _ := bitsOf_field _ 6 2
  have h16 : bitsOf (bootDesc b) 128 64 = _ := bitsOf_field _ 16 8
  have h24 : bitsOf (bootDesc b) 192 64 = _ := bitsOf_field _ 24 8
  have h128 : bitsOf (bootDesc b) 1024 512 = _ := bitsOf_field _ 128 64
  have h192 : bitsOf (bootDesc b) 1536 512 = _ := bitsOf_field _ 192 64
  have hlt : bootField (bootDesc b) 128 64 < 2 ^ 512 := h128 ▸ bitsOf_lt _ _ _
  have hdig : BitVec.ofNat 512 (bootField (bootDesc b) 128 64) = Config.sha512 (bootImage b) ↔
      bootField (bootDesc b) 128 64 = (Config.sha512 (bootImage b)).toNat := by
    rw [← BitVec.toNat_inj, BitVec.toNat_ofNat, Nat.mod_eq_of_lt hlt]
  have hwhole : ((bootImage b).length != bootField (bootDesc b) 16 8 ||
      BitVec.ofNat 512 (bootField (bootDesc b) 128 64) != Config.sha512 (bootImage b)) = true ↔ ¬ImageWhole b := by
    rw [ImageWhole, not_and_or, Bool.or_eq_true, bne_iff_ne, bne_iff_ne, ne_eq, ne_eq, hdig]
    rfl
  simp only [State.bootVerify, h6, h16, h24, h128, h192, hwhole, Bool.not_eq_true']
  rfl

theorem bootVerify_broken {s : State} {b : BootIn} (hw : ¬ImageWhole b) : s.bootVerify b = s.bootFail 0x07 := by
  classical
  rw [bootVerify_eq, if_pos hw]

theorem bootVerify_unsigned {s : State} {b : BootIn} (hw : ImageWhole b) (hs : SigGood b = false) :
    s.bootVerify b = s.bootFail 0x08 := by
  classical
  rw [bootVerify_eq, if_neg (not_not_intro hw), if_pos hs]

theorem bootVerify_old {s : State} {b : BootIn} (hw : ImageWhole b) (hs : SigGood b = true)
    (hv : bootField (b.region.take 256) 6 2 < b.record.minsvn.toNat) : s.bootVerify b = s.bootFail 0x09 := by
  classical
  rw [bootVerify_eq, if_neg (not_not_intro hw), if_neg (by rw [hs]; exact Bool.noConfusion), if_pos hv]

/-- The measurements of VERIFY: of descriptor and image in register 0, of the record in register 1 (R413). -/
def measuredImage (b : BootIn) (m : BitVec 512) : BitVec 512 :=
  let ext (m : BitVec 512) (d : List Byte) : BitVec 512 := Config.sha512 (leBytes 64 m.toNat ++ d)
  ext (ext m (leBytes 64 (Config.sha512 ((b.region.take 256).take 192)).toNat)) (leBytes 64 (Config.sha512 (bootImage b)).toNat)

def measuredRecord (b : BootIn) (m : BitVec 512) : BitVec 512 :=
  Config.sha512 (leBytes 64 m.toNat ++ leBytes 64 (Config.sha512 (Config.recordBytes b.record)).toNat)

/-- What VERIFY extends the first two registers with, and that it leaves the others. -/
theorem verify_measures {m : Boot} (h8 : m.meas.length = 8) (b : BootIn) {x : Boot}
    (hx : x = ((m.extend 0 (leBytes 64 (Config.sha512 ((b.region.take 256).take 192)).toNat)).extend 0
      (leBytes 64 (Config.sha512 (bootImage b)).toNat)).extend 1 (leBytes 64 (Config.sha512 (Config.recordBytes b.record)).toNat)) :
    x.meas[0]? = some (measuredImage b ((m.meas[0]?).getD 0)) ∧ x.meas[1]? = some (measuredRecord b ((m.meas[1]?).getD 0)) ∧
      ∀ i, 2 ≤ i → x.meas[i]? = m.meas[i]? := by
  subst hx
  simp only [Boot.extend]
  refine ⟨?_, ?_, fun i hi => ?_⟩
  · simp [h8, measuredImage]
  · simp [h8, measuredRecord]
  · rw [List.getElem?_set_ne (by omega), List.getElem?_set_ne (by omega), List.getElem?_set_ne (by omega)]

/-- VERIFY's success: the firmware starts with its measurements, its alias key and the page digests (R411, R413, R416). -/
theorem bootVerify_good {s : State} {b : BootIn} {puf : BitVec 256} (hw : ImageWhole b) (hs : SigGood b = true)
    (hv : b.record.minsvn.toNat ≤ bootField (b.region.take 256) 6 2) (hp : s.boot.puf = some puf) (h8 : s.boot.meas.length = 8) :
    let m0 := measuredImage b ((s.boot.meas[0]?).getD 0)
    let m1 := measuredRecord b ((s.boot.meas[1]?).getD 0)
    ∃ t, s.bootVerify b = t ∧ t = { s with boot := t.boot } ∧ t.boot.state = 5 ∧ t.boot.puf = none ∧
      t.boot.fails = s.boot.fails ∧ t.boot.meas[0]? = some m0 ∧ t.boot.meas[1]? = some m1 ∧
      (∀ i, 2 ≤ i → t.boot.meas[i]? = s.boot.meas[i]?) ∧ t.boot.fwRunning = s.dies ∧ t.boot.fwStart = s.devtime ∧
      t.boot.aliasSeed = aliasSeedOf puf m0 m1 ∧
      t.boot.aliasSig = Config.ed25519Sign (identitySeed puf) (leBytes 32 (Config.ed25519Public (aliasSeedOf puf m0 m1)).toNat) ∧
      t.boot.pageDigests = pageTable (bootImage b) (bootField (b.region.take 256) 24 8) := by
  classical
  intro m0 m1
  obtain ⟨h0, h1, hrest⟩ := verify_measures h8 b rfl
  refine ⟨_, rfl, ?_⟩
  rw [bootVerify_eq, if_neg (not_not_intro hw), if_neg (by rw [hs]; exact Bool.noConfusion), if_neg (by omega), hp]
  dsimp only
  rw [h0, h1]
  exact ⟨rfl, rfl, rfl, rfl, rfl, rfl, hrest, rfl, rfl, rfl, rfl, rfl⟩

/-- The page digest table's entries (R411). -/
theorem pageTable_get {img : List Byte} {off i len : Nat} (hl : img.length = len) (hi : i < len / 4096) :
    (pageTable img off)[i]? = some (BitVec.ofNat 512 (leNat ((img.drop (off + 64 * i)).take 64))) := by
  rw [pageTable, hl, List.getElem?_map, List.getElem?_range hi]
  rfl

/-! The events of the running firmware. -/

/-- A failure of the running firmware: it counts toward the limit in RUNNING (R412). -/
theorem bootFail_counts (s : State) (r : Byte) : (s.bootFail r).boot.state = 0 ∧ (s.bootFail r).boot.reason = r ∧
    (s.bootFail r).boot.fails = if s.boot.state = 6 then min 3 (s.boot.fails + 1) else s.boot.fails := by
  rw [bootFail_boot]
  exact ⟨rfl, rfl, rfl⟩

theorem bootok_early {s : State} (h : s.boot.state ≠ 5 ∨ s.boot.trained = false) : exec .bootok s = .next s := by
  have hc : ¬((s.boot.state == 5 && s.boot.trained) = true) := by
    rw [Bool.and_eq_true, beq_iff_eq]
    rintro ⟨h5, ht⟩
    rcases h with h | h
    · exact h h5
    · exact absurd (ht.symm.trans h) Bool.noConfusion
  show execBootok s = _
  rw [execBootok, if_neg hc]

theorem bootokTimeout_early {s : State} (h : s.boot.state ≠ 5 ∨ s.devtime < s.boot.fwStart + 60000000000) :
    exec .bootokTimeout s = .next s := by
  have hc : ¬((s.boot.state == 5 && decide (s.boot.fwStart + bootokLimit ≤ s.devtime)) = true) := by
    rw [Bool.and_eq_true, beq_iff_eq, decide_eq_true_eq, bootokLimit]
    rintro ⟨h5, ht⟩
    rcases h with h | h
    · exact h h5
    · omega
  show execBootokTimeout s = _
  rw [execBootokTimeout, if_neg hc]

theorem bootokTimeout_late {s : State} (h5 : s.boot.state = 5) (ht : s.boot.fwStart + 60000000000 ≤ s.devtime) :
    exec .bootokTimeout s = .next (s.bootFail 0x0B) := by
  show execBootokTimeout s = _
  rw [execBootokTimeout, if_pos (by simp [h5, bootokLimit, ht])]

theorem codePageFill_eq {s : State} {page : Nat} {x : BitVec 512} (hx : s.boot.pageDigests[page]? = some x)
    (hs : s.boot.state = 5 ∨ s.boot.state = 6) (dig : BitVec 512) :
    exec (.codePageFill page dig) s = .next (if x = dig then s else s.bootFail 0x0A) := by
  show execCodePageFill page dig s = _
  have hon : (s.boot.state == 5 || s.boot.state == 6) = true := by simpa using hs
  by_cases h : x = dig
  · simp [execCodePageFill, hx, h]
  · simp only [execCodePageFill, hx, hon, Bool.true_and, bne_iff_ne, ne_eq, h, not_false_eq_true, if_true, if_false]

theorem firmwareCoreStop_running {s : State} {die : Nat} (hd : die ∈ s.boot.fwRunning) (h6 : s.boot.state = 6) :
    exec (.firmwareCoreStop die) s = .next (s.bootFail 0x0D) := by
  show execFirmwareCoreStop die s = _
  rw [execFirmwareCoreStop, if_neg (by simp [hd]), if_pos (by simp [h6])]

theorem firmwareCoreStop_absent {s : State} {die : Nat} (hd : die ∉ s.boot.fwRunning) :
    exec (.firmwareCoreStop die) s = .next s := by
  show execFirmwareCoreStop die s = _
  rw [execFirmwareCoreStop, if_pos (by simp [hd])]

theorem extendBy_firmware {s : State} {n : Nat} (hf : s.firmware = true) (h3 : 3 ≤ n) (h7 : n ≤ 7) (d : List Byte) :
    execMicro (.extend n d) s = .next { s with boot := s.boot.extend n d } := by
  show Host.Outcome.next (s.extendBy n d) = _
  rw [State.extendBy, if_pos (by simp [hf, h3, h7])]

theorem extendBy_refused {s : State} {n : Nat} (h : s.firmware = false ∨ n < 3 ∨ 7 < n) (d : List Byte) :
    execMicro (.extend n d) s = .next s := by
  have hc : ¬((s.firmware && decide (3 ≤ n) && decide (n ≤ 7)) = true) := by
    simp only [Bool.and_eq_true, decide_eq_true_eq]
    rintro ⟨⟨hf, h3⟩, h7⟩
    rcases h with h | h | h
    · exact absurd (hf.symm.trans h) Bool.noConfusion
    · omega
    · omega
  show Host.Outcome.next (s.extendBy n d) = _
  rw [State.extendBy, if_neg hc]

theorem retry_minimal {s : State} (h7 : s.boot.state = 7) : exec .retry s = .next (s.afterReset 0 0) := by
  show execRetry s = _
  rw [execRetry, if_pos (by simp [h7])]

theorem retry_else {s : State} (h7 : s.boot.state ≠ 7) : exec .retry s = .next s := by
  show execRetry s = _
  rw [execRetry, if_neg (by simpa using h7)]

theorem writeBootctl_retry {w : Dword} (hw : w.getLsbD 0 = true) (s : State) :
    execMicro (.writeBootctl w) s = exec .retry s := by
  show execWriteBootctl w s = execRetry s
  rw [execWriteBootctl, if_pos hw]

/-- Settles O53: reset, then the ROM's states one after another, then the firmware and MINIMAL. -/
theorem bootStates : Obligations.BootStates := by
  unfold Obligations.BootStates
  intro s b page die n dig x puf d w fails desc field key len descOk img ext digest meas place boot failsWith
  refine ⟨?reset, ?none, ?rom, ?bootok, bootok_early, ?timeout, bootokTimeout_early, ?page, ?stop, firmwareCoreStop_absent,
    fun hf h3 h7 _ => extendBy_firmware hf h3 h7 d, fun h => extendBy_refused h d, ?retry, retry_else, rfl⟩
  case reset =>
    refine ⟨_, rfl, rfl, rfl, rfl, rfl, fun i hi => List.getElem?_replicate_of_lt hi, rfl, rfl, rfl, rfl, rfl, rfl, rfl,
      settleLines_kept, mem_afterReset s fails s.boot.reason, fun hd _ a ha => home_afterReset hd fails s.boot.reason ha⟩
  case none =>
    intro h
    show execBootStep s = _
    rw [execBootStep, h]
  case rom =>
    intro hb
    refine ⟨boot_counts hb, fun hs => ?identity, fun hs => ?config, fun hs => ?fetch, fun hs hl => ?verify, fun hs ht => ?train, ?done⟩
    case identity =>
      have heq : boot = _ := boot_identity hb hs
      have h6 : s.boot.state ≠ 6 := by rw [hs]; decide
      refine ⟨fun he => failsWith_bootFail h6 ?_, fun he hp => failsWith_bootFail h6 ?_, fun he hp => ?_⟩
      · rw [heq, State.bootIdentity, if_pos (by simp [he])]
      · rw [heq, State.bootIdentity, if_neg (by simp [he]), hp]
      · rw [heq, State.bootIdentity, if_neg (by simp [he]), hp]
        rfl
    case config =>
      have heq : boot = _ := boot_config hb hs
      have h6 : s.boot.state ≠ 6 := by rw [hs]; decide
      intro ok
      have hok : Config.recordVerifies b.recSig (Config.recordBytes b.record) = ok := rfl
      refine ⟨fun ho => failsWith_bootFail h6 ?_, fun ho hk => failsWith_bootFail h6 ?_, fun ho hk => ?_⟩
      · rw [heq, State.bootConfig, hok, if_pos (by rw [ho]; rfl)]
      · rw [heq, State.bootConfig, hok, if_neg (by rw [ho]; decide), if_pos (by simpa using hk)]
      · rw [heq, State.bootConfig, hok, if_neg (by rw [ho]; decide), if_neg (by simp [hk])]
    case fetch =>
      have heq : boot = _ := boot_fetch hb hs
      have h6 : s.boot.state ≠ 6 := by rw [hs]; decide
      have hgood : descOk ↔ DescGood (b.region.take 256) :=
        ⟨fun ⟨h1, h2, h3, h4, h5, h6, h7, h8, h9⟩ => ⟨h1, h2, h3, h4, h5, h6, h7, h8, h9⟩,
          fun ⟨h1, h2, h3, h4, h5, h6, h7, h8, h9⟩ => ⟨h1, h2, h3, h4, h5, h6, h7, h8, h9⟩⟩
      refine ⟨fun h => failsWith_bootFail h6 ?_, fun hp hl => ⟨fun hd => failsWith_bootFail h6 ?_, fun hd => ?_⟩⟩
      · rw [heq, State.bootFetch, if_pos (by simpa using h)]
      · have hbad : bootDescOk (bootDesc b) = false := by
          rw [Bool.eq_false_iff, ne_eq, bootDescOk_iff]
          exact fun h => hd (hgood.mpr h)
        rw [heq, State.bootFetch, if_neg (by simp [hp, hl]), if_pos (by rw [hbad]; rfl)]
      · obtain ⟨t, ht, hrest⟩ := bootFetch_good hp hl (hgood.mp hd)
        exact ⟨t, heq.trans (congrArg _ ht), hrest⟩
    case verify =>
      have heq : boot = _ := boot_verify hb hs
      have h6 : s.boot.state ≠ 6 := by rw [hs]; decide
      have himg : bootImage b = img := bootImage_eq b
      intro sig whole
      have hwhole : whole ↔ ImageWhole b := by rw [ImageWhole, himg]; exact Iff.rfl
      refine ⟨fun hw => failsWith_bootFail h6 ?_, fun hw hsig => failsWith_bootFail h6 ?_,
        fun hw hsig hv => failsWith_bootFail h6 ?_, fun hw hsig hv hp h8 => ?_⟩
      · rw [heq, bootVerify_broken (fun h => hw (hwhole.mpr h))]
      · rw [heq, bootVerify_unsigned (hwhole.mp hw) hsig]
      · rw [heq, bootVerify_old (hwhole.mp hw) hsig hv]
      · obtain ⟨t, ht, hs', hst, hpuf, hfails, hm0, hm1, hrest, hrun, hstart, hseed, hsig', hpages⟩ :=
          bootVerify_good (hwhole.mp hw) hsig hv hp h8
        rw [measuredImage, himg] at hm0 hseed hsig'
        rw [himg] at hpages
        refine ⟨t, heq.trans (congrArg _ ht), hs', hst, hpuf, hfails, hm0, hm1, hrest, hrun, hstart, hseed, hsig', fun i hi => ?_⟩
        rw [hpages]
        exact pageTable_get hw.1 hi
    case train =>
      have heq : boot = _ := boot_train hb hs
      have h6 : s.boot.state ≠ 6 := by rw [hs]; decide
      refine ⟨fun hbed => failsWith_bootFail h6 ?_, fun hbed => ?_⟩
      · rw [heq, State.bootTrain, if_neg (by simp [ht]), if_pos (by simp [hbed])]
      · rw [heq, State.bootTrain, if_neg (by simp [ht]), if_neg (by simp [hbed])]
    case done =>
      rintro (⟨h5, ht⟩ | h)
      · rw [show boot = _ from boot_train hb h5, State.bootTrain, if_pos ht]
      · exact boot_done hb h
  case bootok =>
    intro h5 ht
    show execBootok s = _
    rw [execBootok, if_pos (by simp [h5, ht])]
  case timeout =>
    intro h5 ht
    obtain ⟨t, h, hst, hfails, hreason, -⟩ := failsWith_bootFail (by rw [h5]; decide) (bootokTimeout_late h5 ht)
    exact ⟨t, h, hst, hfails, hreason⟩
  case page =>
    intro hx hs
    have heq := codePageFill_eq hx hs dig
    refine ⟨fun h => by rw [heq, if_pos h], fun h => ?_⟩
    obtain ⟨hst, hreason, hfails⟩ := bootFail_counts s 0x0A
    exact ⟨_, by rw [heq, if_neg h], hst, hreason, hfails⟩
  case stop =>
    intro hd h6
    obtain ⟨hst, hreason, hfails⟩ := bootFail_counts s 0x0D
    exact ⟨_, firmwareCoreStop_running hd h6, hst, hreason, by rw [hfails, if_pos h6]⟩
  case retry =>
    intro h7
    exact ⟨_, retry_minimal h7, rfl, rfl, rfl, fun hw => (writeBootctl_retry hw s).trans (retry_minimal h7)⟩

end Sys2Proof.Safety
end

section
/-! PROOF. Throttling, core failure, thermal trip and power loss (R126, R400, R412, R430, R431). -/

namespace Sys2Proof.Safety
open Sys2Proof.Machine

/-! What traffic leaves. -/

/-- Traffic leaves of a context what its logs' counts do not show. -/
theorem ctx_traffic {α : Type} {s t : State} (h : Traffic s t) (f : Ctx → α)
    (hf : ∀ c, f { c with prodA := 0, prodE := 0, logdrops := 0 } = f c) (n : Nat) : (t.ctx n).map f = (s.ctx n).map f := by
  have hshown (x : State) : (x.ctx n).map f = ((calm x).ctx n).map f := by
    have hfind := find?_map_same (fun c : Ctx => c.id == n) (fun c => { c with prodA := 0, prodE := 0, logdrops := 0 })
      (fun _ => rfl) x.ctxs
    show _ = ((x.ctxs.map _).find? _).map f
    rw [hfind, Option.map_map]
    exact congrArg (Option.map · _) (funext fun c => (hf c).symm)
  rw [hshown t, hshown s, h.1]

theorem spindles_traffic {s t : State} (h : Traffic s t) : t.blocks.map (·.spindles) = s.blocks.map (·.spindles) := by
  have hb := congrArg (List.map Block.spindles) (congrArg State.blocks h.1 :)
  simpa [calm, List.map_map, Function.comp_def] using hb

/-- Two engine stores, and the count of the part's log. -/
theorem twoStores_keep (s : State) (a b : Nat) (d e : List Byte) (k : Nat) :
    ∃ u, Traffic s u ∧ ∃ n, ({ (s.engineStore a d).engineStore b e with
      health := { ((s.engineStore a d).engineStore b e).health with prodP := k } } : State) =
        { u with health := { s.health with prodP := n } } := by
  have h := (traffic_engineStore s a d false).trans (traffic_engineStore _ b e false)
  have hh : ((s.engineStore a d).engineStore b e).health = s.health := (congrArg State.health h.1 :)
  exact ⟨_, h, k, by rw [hh]⟩

/-- A record of the part's log: memory traffic, and the log's count (R428). -/
theorem logPart_keeps (s : State) (cause : Nat) (d : Dword) :
    ∃ u, Traffic s u ∧ ∃ n, s.logPart cause d = { u with health := { s.health with prodP := n } } := by
  unfold State.logPart
  split
  · exact ⟨s, .refl s, s.health.prodP, rfl⟩
  · exact twoStores_keep s _ _ _ _ _

theorem logPart_health (s : State) (cause : Nat) (d : Dword) :
    ∃ n, (s.logPart cause d).health = { s.health with prodP := n } := by
  obtain ⟨u, -, n, h⟩ := logPart_keeps s cause d
  exact ⟨n, by rw [h]⟩

theorem logPart_mail (s : State) (cause : Nat) (d : Dword) : (s.logPart cause d).mail = s.mail := by
  obtain ⟨u, hu, n, h⟩ := logPart_keeps s cause d
  rw [h]
  exact (congrArg State.mail hu.1 :)

theorem logPart_ctx {α : Type} (s : State) (cause : Nat) (d : Dword) (f : Ctx → α)
    (hf : ∀ c, f { c with prodA := 0, prodE := 0, logdrops := 0 } = f c) (n : Nat) :
    ((s.logPart cause d).ctx n).map f = (s.ctx n).map f := by
  obtain ⟨u, hu, k, h⟩ := logPart_keeps s cause d
  rw [h]
  exact ctx_traffic hu f hf n

/-! A halt reaches blocks, operations and contexts, and leaves the rest of the part. -/

/-- Nothing differs but blocks, operations, contexts, runs and services, and the engines' stop records. -/
structure HaltOnly (s t : State) : Prop where
  rest : t = { s with
    blocks := t.blocks, ops := t.ops, ctxs := t.ctxs, run := t.run, runs := t.runs, services := t.services
    engStops := t.engStops }

theorem HaltOnly.health {s t : State} (h : HaltOnly s t) : t.health = s.health := (congrArg State.health h.rest :)

theorem HaltOnly.mail {s t : State} (h : HaltOnly s t) : t.mail = s.mail := (congrArg State.mail h.rest :)

theorem HaltOnly.trans {s t u : State} (h : HaltOnly s t) (k : HaltOnly t u) : HaltOnly s u := by
  have hk := k.rest
  rw [h.rest] at hk
  exact ⟨hk⟩

theorem HaltOnly.foldl {α : Type} {f : State → α → State} (h : ∀ t x, HaltOnly t (f t x)) (l : List α) (s : State) :
    HaltOnly s (l.foldl f s) := by
  induction l generalizing s with
  | nil => exact ⟨rfl⟩
  | cons x r ih => exact (h s x).trans (ih _)

theorem haltOnly_deliverS (s : State) (o : Op) (n : Nat) (v : Dword) : HaltOnly s (s.deliverS o n v) := by
  unfold State.deliverS
  split
  · exact ⟨rfl⟩
  · dsimp only
    split
    · exact ⟨rfl⟩
    · exact ⟨rfl⟩

theorem haltOnly_finishRegs (s : State) (o : Op) : HaltOnly s (s.finishRegs o) := by
  unfold State.finishRegs
  split
  · exact ⟨rfl⟩
  · exact ⟨rfl⟩
  · exact haltOnly_deliverS s o _ _
  · exact haltOnly_deliverS s o _ _
  · exact ⟨rfl⟩

theorem haltOnly_dropOp (s : State) (o : Op) : HaltOnly s (s.dropOp o) := ⟨rfl⟩

theorem haltOnly_stopOp (s : State) (o : Op) : HaltOnly s (s.stopOp o) := by
  unfold State.stopOp
  dsimp only
  split
  · exact ⟨rfl⟩
  · refine (haltOnly_finishRegs s o).trans (.trans ?_ (haltOnly_dropOp _ o))
    split
    · exact ⟨rfl⟩
    · split
      · exact ⟨rfl⟩
      · exact ⟨rfl⟩

theorem haltOnly_stopStalled (s : State) (n : Nat) : HaltOnly s (s.stopStalled n) :=
  HaltOnly.trans (HaltOnly.foldl (f := fun t r => t.stopAt r true none) (fun _ _ => ⟨rfl⟩) _ s) ⟨rfl⟩

theorem haltOnly_cancelGangs (s : State) (p : Block → Bool) : HaltOnly s (s.cancelGangs p) := by
  unfold State.cancelGangs
  refine HaltOnly.trans ?_ (HaltOnly.foldl haltOnly_dropOp _ _)
  exact ⟨rfl⟩

theorem haltOnly_stopFills (s : State) (n : Nat) : HaltOnly s (s.stopFills n) := ⟨rfl⟩

theorem haltOnly_haltThreads (s : State) (n : Nat) : HaltOnly s (s.haltThreads n) := ⟨rfl⟩

theorem haltOnly_haltCtx (s : State) (n : Nat) (cause : Trap) : HaltOnly s (s.haltCtx n cause) := by
  unfold State.haltCtx
  split
  · exact ⟨rfl⟩
  · split
    · exact ⟨rfl⟩
    · refine HaltOnly.trans (t := s.updCtx n (fun c => { c with halting := true, cause := cause })) ⟨rfl⟩ ?_
      exact (((haltOnly_stopStalled _ n).trans (haltOnly_cancelGangs _ _)).trans (haltOnly_stopFills _ n)).trans
        ((HaltOnly.foldl haltOnly_stopOp _ _).trans (haltOnly_haltThreads _ n))

/-! Halts of several contexts. -/

/-- A halt of one context leaves the others. -/
theorem haltCtx_other (s : State) {n m : Nat} (h : m ≠ n) (cause : Trap) : (s.haltCtx n cause).ctx m = s.ctx m := by
  cases hc : s.ctx n with
  | none => rw [State.haltCtx, hc]
  | some c =>
    by_cases hh : (c.halted || c.halting) = true
    · rw [State.haltCtx, hc]
      dsimp only
      rw [if_pos hh]
    · obtain ⟨hctxs, -⟩ : NoNewWork (s.updCtx n (fun c => { c with halting := true, cause := cause })) (s.haltCtx n cause) := by
        unfold State.haltCtx
        rw [hc]
        dsimp only
        rw [if_neg hh]
        exact (((noNewWork_stopStalled _ n).trans (noNewWork_cancelGangs _ _)).trans (noNewWork_stopFills _ n)).trans
          ((NoNewWork.foldl noNewWork_stopOp _ _).trans (noNewWork_haltThreads _ n))
      have hfind := find?_map_same (fun c : Ctx => c.id == m)
        (fun c => if c.id == n then { c with halting := true, cause := cause } else c) (fun c => by split <;> rfl) s.ctxs
      rw [State.ctx, hctxs, State.updCtx, hfind]
      show (s.ctx m).map _ = s.ctx m
      cases hm : s.ctx m with
      | none => rfl
      | some x =>
        have hid : x.id = m := beq_iff_eq.mp (List.find?_some (p := fun c : Ctx => c.id == m) hm)
        rw [Option.map_some, if_neg (by simpa [hid] using h)]

/-- The halt line is up with a cause. -/
def Raised (t : State) (n : Nat) (cause : Trap) : Prop := (t.ctx n).map (fun c => (c.halting, c.cause)) = some (true, cause)

/-- A halt line that is up stays up, with its cause. -/
theorem Raised.haltCtx {t : State} {n : Nat} {cause : Trap} (h : Raised t n cause) (m : Nat) (k : Trap) :
    Raised (t.haltCtx m k) n cause := by
  by_cases hm : n = m
  · subst hm
    obtain ⟨c, hc, hv⟩ := Option.map_eq_some_iff.mp h
    have hl : c.halting = true := (Prod.mk.inj hv).1
    rw [State.haltCtx, hc]
    dsimp only
    rw [if_pos (by rw [hl, Bool.or_true])]
    exact h
  · rw [Raised, haltCtx_other t hm]
    exact h

/-- Of the contexts that halt together, a running one gets the cause. -/
theorem halts_raise {l : List Nat} {n : Nat} (hn : n ∈ l) (cause : Trap) {s : State} {c : Ctx} (hc : s.ctx n = some c)
    (hh : c.halted = false) (hl : c.halting = false) : Raised (l.foldl (fun t n => t.haltCtx n cause) s) n cause := by
  have hkeep (l : List Nat) (t : State) (h : Raised t n cause) : Raised (l.foldl (fun t n => t.haltCtx n cause) t) n cause := by
    induction l generalizing t with
    | nil => exact h
    | cons x r ih => exact ih _ (h.haltCtx x cause)
  induction l generalizing s with
  | nil => cases hn
  | cons x r ih =>
    by_cases hx : n = x
    · subst hx
      exact hkeep r _ (haltCtx_raises s hc hh hl).1
    · exact ih ((List.mem_cons.mp hn).resolve_left hx) ((haltCtx_other s hx cause).trans hc)

theorem halts_other {l : List Nat} {m : Nat} (hm : m ∉ l) (cause : Trap) (s : State) :
    (l.foldl (fun t n => t.haltCtx n cause) s).ctx m = s.ctx m := by
  induction l generalizing s with
  | nil => rfl
  | cons x r ih =>
    obtain ⟨hx, hr⟩ := not_or.mp (mt List.mem_cons.mpr hm)
    exact (ih hr _).trans (haltCtx_other s hx cause)

theorem haltOnly_failCores (s : State) (p : Nat → Bool) : HaltOnly s (s.failCores p) :=
  HaltOnly.foldl (fun t n => haltOnly_haltCtx t n .coreFailed) _ s

/-- A context with a block on a failed core halts (R400). -/
theorem failCores_raises {s : State} {p : Nat → Bool} {b : Block} {c : Ctx} (hb : b ∈ s.blocks) (hp : p b.core = true)
    (he : b.evicted = false) (hc : s.ctx b.ctx = some c) (hh : c.halted = false) (hl : c.halting = false) :
    Raised (s.failCores p) b.ctx .coreFailed := by
  have hid : c.id = b.ctx := beq_iff_eq.mp (List.find?_some (p := fun c : Ctx => c.id == b.ctx) hc)
  refine halts_raise (List.mem_filter.mpr ⟨List.mem_map.mpr ⟨c, List.mem_of_find?_eq_some hc, hid⟩, ?_⟩) _ hc hh hl
  have hany : s.blocks.any (fun x => x.ctx == b.ctx && !x.evicted && p x.core) = true :=
    List.any_eq_true.mpr ⟨b, hb, by simp [he, hp]⟩
  rw [hany]
  rfl

/-- One core is never a whole gang. -/
theorem not_all_gangCores (g core : Nat) : (gangCoresOf g).all (· == core) = false := by
  have h0 : Config.gangCores * g + 0 ∈ gangCoresOf g := List.mem_map.mpr ⟨0, List.mem_range.mpr (by decide), rfl⟩
  have h1 : Config.gangCores * g + 1 ∈ gangCoresOf g := List.mem_map.mpr ⟨1, List.mem_range.mpr (by decide), rfl⟩
  rw [Bool.eq_false_iff]
  intro h
  have e0 := beq_iff_eq.mp (List.all_eq_true.mp h _ h0)
  have e1 := beq_iff_eq.mp (List.all_eq_true.mp h _ h1)
  omega

/-- A context with nothing on a failed core stands (R400). -/
theorem failCores_other {s : State} {core m : Nat} (hb : ∀ b ∈ s.blocks, b.ctx = m → b.evicted = true ∨ b.core ≠ core)
    (ho : ∀ o ∈ s.ops, o.ctx = m → o.core ≠ core) (hr : ∀ o ∈ s.operators, o.owner ≠ m) :
    (s.failCores (· == core)).ctx m = s.ctx m := by
  refine halts_other (fun hm => ?_) _ s
  have hhit := (List.mem_filter.mp hm).2
  simp only [Bool.or_eq_true, List.any_eq_true, Bool.and_eq_true, beq_iff_eq, Bool.not_eq_true', not_all_gangCores,
    Bool.false_eq_true, and_false, exists_false, or_false] at hhit
  obtain (⟨b, hmem, ⟨hctx, hev⟩, hcore⟩ | ⟨o, hmem, hctx, hcore⟩) | ⟨o, hmem, ⟨hown, -⟩, -⟩ := hhit
  · exact (hb b hmem hctx).elim (fun h => by rw [h] at hev; cases hev) (fun h => h hcore)
  · exact ho o hmem hctx hcore
  · exact hr o hmem hown

/-! Loss of power (R126). -/

theorem reverts_none (l : List (Nat × Nat)) {s : State} (hd : s.durable = []) : l.foldl State.revert s = s := by
  induction l with
  | nil => rfl
  | cons x r ih =>
    have hx : s.revert x = s := by rw [State.revert, hd]; rfl
    rw [List.foldl_cons, hx, ih]

theorem ack_none {s : State} (hp : s.coh.pend = []) (p : Pend → Bool) : s.ack p = s := by
  have hs : { s with coh := { s.coh with pend := [] } } = s := by rw [← hp]
  rw [State.ack, hp]
  exact hs

/-! The events. -/

theorem coreFailure_eq {s : State} {core : Nat} (hu : core < s.userCores) (hd : core ∉ s.health.deadCores) :
    exec (.coreFailure core) s = .next (State.logPart
      { s.failCores (· == core) with
        health := { (s.failCores (· == core)).health with deadCores := core :: (s.failCores (· == core)).health.deadCores }
        mail := { (s.failCores (· == core)).mail with failedDue := (s.failCores (· == core)).mail.failedDue ++ [core] } }
      0x82 (BitVec.ofNat 64 core)) := by
  show execCoreFailure core s = _
  rw [execCoreFailure, if_neg (by simp [hd, hu])]

theorem thermalTrip_eq {s : State} {die n : Nat} (hn : s.dies.findIdx? (fun d => d == die) = some n) (hd : n ∉ s.health.deadDies) :
    exec (.thermalTrip die) s = .next (State.logPart
      { s.failCores (fun c => dieOf c == n) with
        health := { (s.failCores (fun c => dieOf c == n)).health with
          deadDies := n :: (s.failCores (fun c => dieOf c == n)).health.deadDies, trip := true } }
      0x85 (BitVec.ofNat 64 die)) := by
  show execThermalTrip die s = _
  simp only [execThermalTrip, hn]
  rw [if_neg (by simp [hd])]

/-- The clock register takes the frequency; a record of leaving full speed changes nothing else (R431). -/
theorem clockThrottle_takes {s : State} {mhz : Nat} (h1 : 1200 ≤ mhz) (h2 : mhz ≤ 3600) (h3 : mhz % 100 = 0) :
    ∃ t, exec (.clockThrottle mhz) s = .next t ∧ t.health.mhz.toNat = mhz ∧ t.devtime = s.devtime ∧
      t.blocks.map (·.spindles) = s.blocks.map (·.spindles) := by
  have hmhz : (BitVec.ofNat 16 mhz).toNat = mhz := by rw [BitVec.toNat_ofNat]; omega
  show ∃ t, execClockThrottle mhz s = .next t ∧ _
  rw [execClockThrottle, if_neg (by simp; omega)]
  dsimp only
  split
  · obtain ⟨u, hu, n, hlog⟩ := logPart_keeps (State.free { s with health := { s.health with mhz := BitVec.ofNat 16 mhz } }).2 0x84
      (State.free { s with health := { s.health with mhz := BitVec.ofNat 16 mhz } }).1
    refine ⟨_, rfl, ?_⟩
    rw [hlog]
    exact ⟨hmhz, (congrArg State.devtime hu.1 :), (spindles_traffic hu :)⟩
  · exact ⟨_, rfl, hmhz, rfl, rfl⟩

/-- Settles O52: failed cores and dies halt what had state on them, context by context. -/
theorem powerAndHealth : Obligations.PowerAndHealth := by
  unfold Obligations.PowerAndHealth
  intro s mhz core die n c b reverts
  refine ⟨?throttleBad, clockThrottle_takes, ?coreNone, ?core, ?trip, ?tripNone, ?power, rfl, ?dark⟩
  case throttleBad =>
    intro h
    show execClockThrottle mhz s = _
    rw [execClockThrottle, if_pos (by simpa [or_assoc] using h)]
  case coreNone =>
    intro h
    show execCoreFailure core s = _
    rw [execCoreFailure, if_pos (by simpa using h)]
  case core =>
    intro hu hd
    have hh := (haltOnly_failCores s (· == core)).health
    have hm := (haltOnly_failCores s (· == core)).mail
    refine ⟨_, coreFailure_eq hu hd, ?_, ?_, fun hb hcore he hc hhd hl => ?_, fun m hbs hos hrs => ?_⟩
    · obtain ⟨k, hk⟩ := logPart_health _ 0x82 (BitVec.ofNat 64 core)
      rw [hk]
      exact congrArg (fun x : Health => core :: x.deadCores) hh
    · rw [logPart_mail]
      exact congrArg (fun x : Mail => x.failedDue ++ [core]) hm
    · rw [logPart_ctx _ _ _ _ (fun _ => rfl)]
      exact failCores_raises hb (beq_iff_eq.mpr hcore) he hc hhd hl
    · rw [logPart_ctx _ _ _ _ (fun _ => rfl)]
      exact congrArg (Option.map (·.halting)) (failCores_other hbs hos hrs)
  case trip =>
    intro hn hd
    have hh := (haltOnly_failCores s (fun c => dieOf c == n)).health
    obtain ⟨k, hk⟩ := logPart_health
      { s.failCores (fun c => dieOf c == n) with
        health := { (s.failCores (fun c => dieOf c == n)).health with
          deadDies := n :: (s.failCores (fun c => dieOf c == n)).health.deadDies, trip := true } }
      0x85 (BitVec.ofNat 64 die)
    refine ⟨_, thermalTrip_eq hn hd, ?_, by rw [hk], fun hb hcore he hc hhd hl => ?_⟩
    · rw [hk]
      exact congrArg (fun x : Health => n :: x.deadDies) hh
    · rw [logPart_ctx _ _ _ _ (fun _ => rfl)]
      exact failCores_raises hb (beq_iff_eq.mpr hcore) he hc hhd hl
  case tripNone =>
    intro hn
    show execThermalTrip die s = _
    simp only [execThermalTrip, hn]
  case power =>
    refine ⟨_, rfl, rfl, rfl, rfl, fun hd hp a => ?_⟩
    show (reverts.foldl State.revert (s.ack (fun _ => true))).home a = s.home a
    rw [ack_none hp, reverts_none _ hd]
  case dark =>
    intro hp ha
    rw [step, hp, if_neg Bool.false_ne_true, stepDark, ha]

end Sys2Proof.Safety
end

section
/-! PROOF. The stash instructions: `stmap`, `stunmap`, `stflush`, and an unmapping's completion (R120, R123, R288, R295). -/

namespace Sys2Proof.Safety
open Sys2Proof.Machine

/-! Lines made absent. -/

/-- Lines made absent one after another. -/
theorem clearLines_spec (ls : List Nat) (b : Block) :
    { ls.foldl Block.clearLine b with absent := b.absent } = b ∧
      ∀ l, (ls.foldl Block.clearLine b).present l = (b.present l && !ls.contains l) := by
  induction ls generalizing b with
  | nil => exact ⟨rfl, fun l => by simp⟩
  | cons x r ih =>
    obtain ⟨he, hp⟩ := ih (b.clearLine x)
    have hx : { b.clearLine x with absent := b.absent } = b ∧ ∀ l, (b.clearLine x).present l = (b.present l && !(l == x)) := by
      unfold Block.clearLine Block.present
      split
      · rename_i hc
        refine ⟨rfl, fun l => ?_⟩
        by_cases hl : l = x
        · subst hl
          simpa using hc
        · simp [hl]
      · exact ⟨rfl, fun l => by rw [List.contains_cons, Bool.not_or, Bool.and_comm]⟩
    constructor
    · have h := congrArg (fun c : Block => { c with absent := b.absent }) he
      exact h.trans hx.1
    · intro l
      rw [List.foldl_cons, hp, hx.2, List.contains_cons, Bool.not_or, Bool.and_assoc]

/-- The lines of a local range of whole lines. -/
theorem rangeLines_contains {l n : Nat} (hl : l % 128 = 0) (hn : n % 128 = 0) (x : Nat) :
    ((List.range (n / 128)).map (fun i => l / 128 + i)).contains x = decide (l ≤ 128 * x ∧ 128 * x < l + n) := by
  rw [Bool.eq_iff_iff, decide_eq_true_iff, List.contains_iff_mem, List.mem_map]
  constructor
  · rintro ⟨i, hi, rfl⟩
    have := List.mem_range.mp hi
    omega
  · rintro ⟨h1, h2⟩
    exact ⟨x - l / 128, List.mem_range.mpr (by omega), by omega⟩

/-- The lines of a range made absent one by one, as the model writes it. -/
theorem clearRange_eq (l n : Nat) (b : Block) : (List.range n).foldl (fun b i => b.clearLine (l + i)) b =
    ((List.range n).map (fun i => l + i)).foldl Block.clearLine b := (List.foldl_map).symm

/-! `stmap` (R120, R295). -/

/-- The operands of `stmap` are whole units, the address on a line. -/
def stmapWhole (l v n : Nat) : Bool := l != 0 && l % 0x10000 == 0 && n != 0 && n % 0x10000 == 0 && v % 128 == 0

/-- Lines of the range are mapped, or have a fill pending. -/
def StmapUsed (b : Block) (l n : Nat) : Prop :=
  b.stash.any (fun m => m.l < l + n && l < m.l + m.bytes) = true ∨ ∃ f ∈ b.fills, l ≤ 128 * f.1 ∧ 128 * f.1 < l + n

/-- A page of the range cannot be stashed. -/
def StmapBad (s : State) (e : Env) (v : Dword) (n : Nat) : Prop :=
  ∃ p ∈ s.pieces (e.walker s) v n, match p.wk with
    | .page g => 3 ≤ g.mtype
    | .service => False
    | .fail => True

theorem stmapUsed_iff {b : Block} {l n : Nat} (hl : l % 128 = 0) (hn : n % 128 = 0) :
    (b.stash.any (fun m => m.l < l + n && l < m.l + m.bytes) ||
      b.fills.any (fun f => ((List.range (n / 128)).map (fun i => l / 128 + i)).contains f.1)) = true ↔ StmapUsed b l n := by
  rw [Bool.or_eq_true, StmapUsed, List.any_eq_true (l := b.fills)]
  simp only [rangeLines_contains hl hn, decide_eq_true_eq]

theorem stmapBad_iff (s : State) (e : Env) (v : Dword) (n : Nat) :
    (s.pieces (e.walker s) v n).any (fun p => match p.wk with
      | .page g => !(decide (g.mtype < 3))
      | .service => false
      | .fail => true) = true ↔ StmapBad s e v n := by
  rw [List.any_eq_true, StmapBad]
  refine exists_congr fun p => and_congr_right fun _ => ?_
  cases p.wk with
  | page g => simp
  | service => simp
  | fail => simp

theorem stmapWhole_iff (l v n : Nat) : (!(l != 0 && l % 0x10000 == 0) || !(n != 0 && n % 0x10000 == 0) || v % 128 != 0) =
    !stmapWhole l v n := by
  simp only [stmapWhole, Bool.not_and, bne, Bool.or_assoc]

/-- R295: the status of `stmap` is that of its first check that fails. -/
theorem stmapStatus_spec (s : State) (e : Env) (l : Nat) (v : Dword) (n : Nat) :
    let whole := stmapWhole l v.toNat n
    let st := s.stmapStatus e l v n
    (whole = false → st = 1) ∧ (whole = true → e.b.lsize < l + n → st = 2) ∧
    (whole = true → l + n ≤ e.b.lsize → StmapUsed e.b l n → st = 3) ∧
    (whole = true → l + n ≤ e.b.lsize → ¬StmapUsed e.b l n → StmapBad s e v n → st = 4) ∧
    (whole = true → l + n ≤ e.b.lsize → ¬StmapUsed e.b l n → ¬StmapBad s e v n → st = 0) := by
  intro whole st
  have hst : st = s.stmapStatus e l v n := rfl
  rw [State.stmapStatus] at hst
  dsimp only at hst
  rw [stmapWhole_iff] at hst
  cases hw : stmapWhole l v.toNat n with
  | false =>
    rw [hw] at hst
    exact ⟨fun _ => hst, fun h => absurd (hw.symm.trans h) Bool.noConfusion, fun h => absurd (hw.symm.trans h) Bool.noConfusion,
      fun h => absurd (hw.symm.trans h) Bool.noConfusion, fun h => absurd (hw.symm.trans h) Bool.noConfusion⟩
  | true =>
    have hparts : l % 0x10000 = 0 ∧ n % 0x10000 = 0 := by
      simp only [stmapWhole, Bool.and_eq_true, beq_iff_eq] at hw
      exact ⟨hw.1.1.1.2, hw.1.2⟩
    rw [hw, if_neg (by decide)] at hst
    refine ⟨fun h => absurd (hw.symm.trans h) Bool.noConfusion, fun _ hsz => ?_, fun _ hsz hu => ?_, fun _ hsz hu hb => ?_,
      fun _ hsz hu hb => ?_⟩
    · rw [if_pos hsz] at hst
      exact hst
    · rw [if_neg (by omega), if_pos ((stmapUsed_iff (by omega) (by omega)).mpr hu)] at hst
      exact hst
    · rw [if_neg (by omega), if_neg (mt (stmapUsed_iff (by omega) (by omega)).mp hu)] at hst
      exact hst.trans (if_pos ((stmapBad_iff s e v n).mpr hb))
    · rw [if_neg (by omega), if_neg (mt (stmapUsed_iff (by omega) (by omega)).mp hu)] at hst
      exact hst.trans (if_neg (mt (stmapBad_iff s e v n).mp hb))

/-- A mapping made: its lines are absent (R120). -/
def mapped (l : Nat) (v : Dword) (n : Nat) (b : Block) : Block :=
  (List.range (n / 128)).foldl (fun b i => b.clearLine (l / 128 + i)) { b with stash := b.stash ++ [{ l := l, v := v, bytes := n }] }

theorem mapped_spec {l n : Nat} (hl : l % 128 = 0) (hn : n % 128 = 0) (v : Dword) (b : Block) :
    { mapped l v n b with stash := b.stash, absent := b.absent } = b ∧
      (mapped l v n b).stash = b.stash ++ [{ l := l, v := v, bytes := n }] ∧ (mapped l v n b).uid = b.uid ∧
      ∀ x, (mapped l v n b).present x = (b.present x && !decide (l ≤ 128 * x ∧ 128 * x < l + n)) := by
  obtain ⟨he, hp⟩ := clearLines_spec ((List.range (n / 128)).map (fun i => l / 128 + i))
    { b with stash := b.stash ++ [{ l := l, v := v, bytes := n }] }
  rw [← clearRange_eq] at he hp
  refine ⟨congrArg (fun c : Block => { c with stash := b.stash }) he, (congrArg Block.stash he :), (congrArg Block.uid he :), fun x => ?_⟩
  rw [mapped, hp, rangeLines_contains hl hn]
  rfl

/-! Write-backs (R123). -/

theorem blocks_stashBack (s : State) (b : Block) (x : Nat × Nat) : (s.stashBack b x).blocks = s.blocks := by
  unfold State.stashBack
  split
  · rfl
  · rw [(homeOnly_commit _ _ _).blocks]
    exact (homeOnly_foldl _ _).blocks

theorem blocks_stashBacks (b : Block) (l : List (Nat × Nat)) (s : State) :
    (l.foldl (fun t x => t.stashBack b x) s).blocks = s.blocks := by
  induction l generalizing s with
  | nil => rfl
  | cons x r ih => exact (ih _).trans (blocks_stashBack s b x)

/-- The stash lines of a block in a local range that are dirty. -/
def dirtyIn (b : Block) (lo n : Nat) : List (Nat × Nat) :=
  b.owned.filter (fun x => b.dirty.contains x.1 && decide (lo ≤ 128 * x.1) && decide (128 * x.1 < lo + n))

/-- A block whose dirty lines of a range are written back. -/
def cleaned (b : Block) (lo n : Nat) : Block := { b with dirty := b.dirty.filter (fun l => !(dirtyIn b lo n).any (fun x => x.1 == l)) }

theorem writeBack_traffic (s : State) (u lo n : Nat) : Traffic s (s.writeBack u lo n) := by
  unfold State.writeBack
  split
  · exact .refl s
  · rename_i b _
    exact (Traffic.foldl (fun t x => traffic_stashBack t b x) _ s).trans
      (traffic_updBlk _ _ _ (fun _ => rfl) (fun _ => rfl))

theorem blk_writeBack {s : State} {u : Nat} {b : Block} (hb : s.blk u = some b) (lo n : Nat) :
    (s.writeBack u lo n).blk u = some (cleaned b lo n) := by
  have hblks := blocks_stashBacks b (dirtyIn b lo n) s
  have hblk : ((dirtyIn b lo n).foldl (fun t x => t.stashBack b x) s).blk u = some b := by
    rw [State.blk, hblks]
    exact hb
  rw [State.writeBack, hb]
  exact blk_updBlk_same hblk (fun _ => rfl)

theorem cleaned_clean {b : Block} {lo n : Nat} {x : Nat × Nat} (hx : x ∈ b.owned) (h1 : lo ≤ 128 * x.1) (h2 : 128 * x.1 < lo + n) :
    x.1 ∉ (cleaned b lo n).dirty := by
  intro hd
  obtain ⟨hm, hn⟩ := List.mem_filter.mp hd
  have hmine : x ∈ dirtyIn b lo n := List.mem_filter.mpr ⟨hx, by simp [hm, h1, h2]⟩
  have hany : (dirtyIn b lo n).any (fun y => y.1 == x.1) = true := List.any_eq_true.mpr ⟨x, hmine, beq_self_eq_true _⟩
  rw [hany] at hn
  exact Bool.noConfusion hn

/-! An operation that ends with a value for an s register. -/

theorem shell_deliverS (s : State) (o : Op) (r : Nat) (v : Dword) (u : Nat) : shell (s.deliverS o r v) u = shell s u := by
  unfold State.deliverS
  split
  · rfl
  · split
    · rfl
    · exact shell_updSp s o.blk o.m _ u

/-- An operation whose result nothing takes delivers nothing. -/
theorem deliverS_dead {s : State} {o : Op} (h : ¬live s o) (r : Nat) (v : Dword) : s.deliverS o r v = s := by
  unfold State.deliverS
  cases hsp : (s.blk o.blk).bind (fun b => b.sp o.m) with
  | none => rfl
  | some sp =>
    dsimp only
    have hall : (o.lost || o.slots.all (fun k => sp.gone k)) = true := by
      by_contra hn
      obtain ⟨hl, hg⟩ := Bool.or_eq_false_iff.mp (Bool.eq_false_iff.mpr hn)
      obtain ⟨k, hk, hkg⟩ := List.all_eq_false.mp hg
      exact h ⟨hl, sp, hsp, k, hk, Bool.eq_false_iff.mpr hkg⟩
    rw [if_pos hall]

/-- TOKEN_CLEAR of such an operation: it goes, blocks keep what its work `w` has made of them, and its register, as long as
something takes it, gets the value. -/
theorem sOp_blocks {s w : State} {o : Op} {r : Nat} {v : Dword} (hp : pending s o.id = some o)
    (hc : s.complete o = some ((w.deliverS o r v).dropOp o)) (hw : KeepsWork s w) :
    ∃ t, exec (.tokenClear o.id) s = .next t ∧ OpGone s t o.id ∧ (∀ u, shell t u = shell w u) ∧
      (live s o → ∀ i, sreg t o.blk o.m i = (sreg s o.blk o.m i).map (fun old => if i = r then v else old)) ∧
      (¬live s o → ∀ i, sreg t o.blk o.m i = sreg s o.blk o.m i) := by
  obtain ⟨t, ht, hgone, -, hlive, hother, -⟩ := sOp_ends hp hc hw
  have heq : t = ((w.deliverS o r v).dropOp o).answered o := by
    have h := ht.symm.trans (execTokenClear_complete hp hc)
    exact Host.Outcome.next.inj h
  have hr := requestsOnly_answered ((w.deliverS o r v).dropOp o) o
  refine ⟨t, ht, hgone, fun u => ?_, fun hl i => ?_, fun hn i => ?_⟩
  · rw [heq, hr.shell, shell_dropOp, shell_deliverS]
  · by_cases hi : i = r
    · subst hi
      simpa using hlive hl
    · simpa [hi] using hother i hi
  · rw [heq, sreg, hr.spn, ← sreg, sreg_dropOp, deliverS_dead (mt hw.live.mp hn), hw.sreg]

/-! An unmapping is performed (R295). -/

/-- A local line of a mapping. -/
def inMap (m : StashMap) (l : Nat) : Bool := decide (m.l ≤ 128 * l) && decide (128 * l < m.l + m.bytes)

/-- A block without a mapping: its lines are scratchpad again, absent and owned no more. -/
def unmapped (la : Nat) (m : StashMap) (b : Block) : Block :=
  (List.range (m.bytes / 128)).foldl (fun b i => b.clearLine (m.l / 128 + i))
    { b with stash := b.stash.filter (fun x => x.l != la), owned := b.owned.filter (fun x => !inMap m x.1) }

theorem unmapped_kept (la : Nat) (m : StashMap) (b : Block) :
    { unmapped la m b with absent := b.absent, stash := b.stash, owned := b.owned } = b := by
  obtain ⟨he, -⟩ := clearLines_spec ((List.range (m.bytes / 128)).map (fun i => m.l / 128 + i))
    { b with stash := b.stash.filter (fun x => x.l != la), owned := b.owned.filter (fun x => !inMap m x.1) }
  rw [← clearRange_eq] at he
  exact congrArg (fun c : Block => { c with stash := b.stash, owned := b.owned }) he

theorem unmapped_uid (la : Nat) (m : StashMap) (b : Block) : (unmapped la m b).uid = b.uid :=
  (congrArg Block.uid (unmapped_kept la m b) :)

theorem unmapped_spindles (la : Nat) (m : StashMap) (b : Block) : (unmapped la m b).spindles = b.spindles :=
  (congrArg Block.spindles (unmapped_kept la m b) :)

theorem unmapped_spec {m : StashMap} (hl : m.l % 128 = 0) (hn : m.bytes % 128 = 0) (la : Nat) (b : Block) :
    (unmapped la m b).stash = b.stash.filter (fun x => x.l != la) ∧
      (unmapped la m b).owned = b.owned.filter (fun x => !inMap m x.1) ∧
      ∀ x, (unmapped la m b).present x = (b.present x && !decide (m.l ≤ 128 * x ∧ 128 * x < m.l + m.bytes)) := by
  obtain ⟨he, hp⟩ := clearLines_spec ((List.range (m.bytes / 128)).map (fun i => m.l / 128 + i))
    { b with stash := b.stash.filter (fun x => x.l != la), owned := b.owned.filter (fun x => !inMap m x.1) }
  rw [← clearRange_eq] at he hp
  refine ⟨(congrArg Block.stash he :), (congrArg Block.owned he :), fun x => ?_⟩
  rw [unmapped, hp, rangeLines_contains hl hn]
  rfl

/-- No thread still has an access to make that a fill of the mapping served. -/
theorem waitsOn_none {b : Block} {m : StashMap}
    (h : b.evicted = true ∨ ∀ sp ∈ b.spindles, ∀ x ∈ sp.threads, ∀ line, m.l ≤ 128 * line → 128 * line < m.l + m.bytes →
      (x.st = .ready → line ∉ x.served) ∧
      ∀ ls since, x.st = .parked (.lines ls since) → line ∈ ls → b.present line = false) :
    b.waitsOn (inMap m) = false := by
  obtain he | h := h
  · rw [Block.waitsOn, he]
    rfl
  · rw [Bool.eq_false_iff]
    intro hw
    obtain ⟨sp, hsp, ht⟩ := List.any_eq_true.mp (Bool.and_eq_true_iff.mp hw).2
    obtain ⟨x, hx, hst⟩ := List.any_eq_true.mp ht
    have hin (line : Nat) (hl : inMap m line = true) : m.l ≤ 128 * line ∧ 128 * line < m.l + m.bytes := by
      simpa [inMap] using hl
    split at hst
    · rename_i hr
      obtain ⟨line, hmem, hl⟩ := List.any_eq_true.mp hst
      exact (h sp hsp x hx line (hin line hl).1 (hin line hl).2).1 hr hmem
    · rename_i ls since hr
      obtain ⟨line, hmem, hl⟩ := List.any_eq_true.mp hst
      obtain ⟨hl, hpres⟩ := Bool.and_eq_true_iff.mp hl
      rw [(h sp hsp x hx line (hin line hl).1 (hin line hl).2).2 ls since hr hmem] at hpres
      exact Bool.noConfusion hpres
    · exact Bool.noConfusion hst

section Unmap
variable {s : State} {u la : Nat} {b : Block} {m : StashMap}

/-- The unmapping: the dirty lines are written back, and the mapping goes. -/
theorem unmapStash_eq (hb : s.blk u = some b) (hm : b.stash.find? (fun x => x.l == la) = some m)
    (hf : ∀ f ∈ b.fills, ¬(m.l ≤ 128 * f.1 ∧ 128 * f.1 < m.l + m.bytes)) (hw : b.waitsOn (inMap m) = false) :
    s.unmapStash u la = some ((s.writeBack u m.l m.bytes).updBlk u (unmapped la m)) := by
  have hfills : b.fills.any (fun f => inMap m f.1) = false :=
    List.any_eq_false.mpr fun f hmem => by simpa [inMap] using hf f hmem
  rw [State.unmapStash, hb]
  dsimp only
  rw [hm]
  dsimp only
  exact if_neg (Bool.eq_false_iff.mp (Bool.or_eq_false_iff.mpr ⟨hfills, hw⟩))

theorem keepsWork_unmap (s : State) (u la : Nat) (m : StashMap) :
    KeepsWork s ((s.writeBack u m.l m.bytes).updBlk u (unmapped la m)) := by
  have h := (SameWork.traffic (writeBack_traffic s u m.l m.bytes)).trans
    (sameWork_updBlk _ u (unmapped_uid la m) (unmapped_spindles la m))
  exact ⟨h.ops, h.spn⟩

theorem blk_unmap (hb : s.blk u = some b) :
    ((s.writeBack u m.l m.bytes).updBlk u (unmapped la m)).blk u = some (unmapped la m (cleaned b m.l m.bytes)) :=
  blk_updBlk_same (blk_writeBack hb m.l m.bytes) (unmapped_uid la m)

end Unmap

/-- A block found by its number has what its shell has. -/
theorem blk_of_shell {t w : State} {u : Nat} {c : Block} (h : shell t u = shell w u) (hw : w.blk u = some c) :
    ∃ b', t.blk u = some b' ∧ { b' with spindles := [] } = { c with spindles := [] } := by
  rw [shell, shell, hw, Option.map_some] at h
  exact Option.map_eq_some_iff.mp h

/-- Settles O24: each instruction queues its operation; the mapping, the write-back and the unmapping are each one lemma. -/
theorem stashInstructions : Obligations.StashInstructions := by
  unfold Obligations.StashInstructions
  intro s e d l v bytes h la n whole inside
  obtain ⟨-, hb, -, -⟩ := env_found h
  refine ⟨?stmap, ?stunmap, ?stflush, ?unmap⟩
  case stmap =>
    have hspec := stmapStatus_spec s e la (e.readU v) n
    refine ⟨if s.stmapStatus e la (e.readU v) n ≠ 0 then s else s.updBlk e.b.uid (mapped la (e.readU v) n), _,
      s.stmapStatus e la (e.readU v) n, within_env h _, ?_, hspec, fun hst => if_pos hst, fun hst => ?_⟩
    · have hif : (if s.stmapStatus e la (e.readU v) n ≠ 0 then s else s.updBlk e.b.uid (mapped la (e.readU v) n)) =
          if (s.stmapStatus e la (e.readU v) n != 0) = true then s else s.updBlk e.b.uid (mapped la (e.readU v) n) := by
        simp only [bne_iff_ne]
      rw [hif]
      exact addOp_queued _ e _
    · have hwhole : la % 128 = 0 ∧ n % 128 = 0 := by
        by_contra hn
        have hw : stmapWhole la (e.readU v).toNat n = false := by
          rw [Bool.eq_false_iff]
          intro hw
          simp only [stmapWhole, Bool.and_eq_true, beq_iff_eq] at hw
          exact hn ⟨by omega, by omega⟩
        have h1 := hspec.1 hw
        omega
      rw [if_neg (not_not_intro hst)]
      obtain ⟨hsame, hother⟩ := blk_updBlk_env h (mapped la (e.readU v) n)
        (fun b => (mapped_spec hwhole.1 hwhole.2 (e.readU v) b).2.2.1)
      obtain ⟨helse, hstash, -, hpres⟩ := mapped_spec hwhole.1 hwhole.2 (e.readU v) e.b
      exact ⟨rfl, hother, _, hsame, helse, hstash, hpres⟩
  case stunmap =>
    refine ⟨_, within_env h _, ?_⟩
    dsimp only
    split
    · exact addOp_queued s e _
    · exact addOp_queued s e _
  case stflush =>
    refine ⟨if inside then s.writeBack e.b.uid la n else s, _, within_env h _, addOp_queued _ e _, ?_, fun hi => ?_, fun hi b hblk => ?_⟩
    · split
      · exact writeBack_traffic s _ _ _
      · exact .refl s
    · rw [hi]
      rfl
    · rw [hi, if_pos rfl, blk_writeBack hb la n] at hblk
      cases hblk
      exact ⟨rfl, rfl, rfl, fun x hx h1 h2 => cleaned_clean hx h1 h2⟩
  case unmap =>
    intro o b m r hp hk hblk hm hml hmn hfills hunsent hthr live_
    have hmap : b.stash.any (fun m => m.l == la) = true :=
      List.any_eq_true.mpr ⟨m, List.mem_of_find?_eq_some hm, List.find?_some (p := fun x : StashMap => x.l == la) hm⟩
    have haway : s.away o = false := by simp [State.away, hk, OpKind.engine, OpKind.rows]
    have hc : s.complete o = some ((((s.writeBack o.blk m.l m.bytes).updBlk o.blk (unmapped la m)).deliverS o r 0).dropOp o) := by
      rw [State.complete, haway, hunsent, if_neg (by decide), hk]
      dsimp only
      rw [unmapStash_eq hblk hm hfills (waitsOn_none hthr), hblk, Option.map_some, Option.map_some, Option.getD_some, hmap]
      rfl
    obtain ⟨t, ht, hgone, hshell, hlive, hdead⟩ := sOp_blocks hp hc (keepsWork_unmap s o.blk la m)
    obtain ⟨b', hb', helse⟩ := blk_of_shell (hshell o.blk) (blk_unmap (la := la) (m := m) hblk)
    have hkept := unmapped_kept la m (cleaned b m.l m.bytes)
    obtain ⟨hstash, howned, hpres⟩ := unmapped_spec hml hmn la (cleaned b m.l m.bytes)
    have hlive_ : live_ ↔ live s o := by
      show (o.lost = false ∧ ∃ sp, b.sp o.m = some sp ∧ _) ↔ (o.lost = false ∧ ∃ sp, (s.blk o.blk).bind (fun b => b.sp o.m) = some sp ∧ _)
      rw [hblk]
      rfl
    have hstash' : b'.stash = (unmapped la m (cleaned b m.l m.bytes)).stash := (congrArg Block.stash helse :)
    have howned' : b'.owned = (unmapped la m (cleaned b m.l m.bytes)).owned := (congrArg Block.owned helse :)
    have habsent' : b'.absent = (unmapped la m (cleaned b m.l m.bytes)).absent := (congrArg Block.absent helse :)
    refine ⟨t, b', ht, hgone, hb', fun x hx => ?_, ?_, fun x hx => ?_, fun line => ?_, fun hl => hlive (hlive_.mp hl),
      fun hl => hdead (mt hlive_.mpr hl)⟩
    · rw [hstash', hstash] at hx
      simpa using (List.mem_filter.mp hx).2
    · exact (congrArg Block.lmem helse :).trans (congrArg Block.lmem hkept :)
    · rw [howned', howned] at hx
      have hout : inMap m x.1 = false := by simpa using (List.mem_filter.mp hx).2
      rintro ⟨h1, h2⟩
      rw [inMap, decide_eq_true h1, decide_eq_true h2] at hout
      exact Bool.noConfusion hout
    · rw [Block.present, habsent', ← Block.present, hpres]
      rfl

end Sys2Proof.Safety
end

section
/-! PROOF. A core sees its own store (R109, R111, R115). -/

namespace Sys2Proof.Safety
open Sys2Proof.Machine

/-! Bytes of acknowledged memory at an address that no retired frame holds. -/

theorem retired_commit (s : State) (pa : Nat) (d : List Byte) (a : Nat) : (s.commit pa d).retired a = s.retired a := by
  rw [State.retired, (homeOnly_commit s pa d).health, State.retired]

theorem home_commit_at {s : State} {a : Nat} (hr : s.retired a = false) (pa : Nat) (d : List Byte) :
    (s.commit pa d).home a = if pa ≤ a ∧ a < pa + d.length then (d[a - pa]?).getD 0 else s.home a := by
  have hmem : (s.commit pa d).mem = Memory.setMany s.mem pa d ∧ (s.commit pa d).epoch = s.epoch := by
    unfold State.commit
    dsimp only
    split
    · exact ⟨rfl, rfl⟩
    · exact ⟨rfl, rfl⟩
    · exact ⟨rfl, rfl⟩
  rw [State.home, retired_commit, hr, State.home, hr, hmem.1, hmem.2, Memory.get_setMany]
  simp only [Bool.false_eq_true, if_false]
  split
  · rename_i h
    rw [List.getElem?_eq_getElem (by omega)]
    rfl
  · rfl

/-- A byte after the stores of one die are committed in the order performed. -/
theorem home_foldl_at {die a : Nat} {l : List Pend} (hd : ∀ p ∈ l, p.die = die) {s : State} (hr : s.retired a = false) :
    (l.foldl (fun t x => t.commit x.pa x.data) s).home a = (pendByte die a l).getD (s.home a) := by
  induction l generalizing s with
  | nil => rfl
  | cons x r ih =>
    have hx := hd x List.mem_cons_self
    rw [List.foldl_cons, ih (fun p hp => hd p (List.mem_cons_of_mem _ hp)) (by rw [retired_commit, hr]), home_commit_at hr, pendByte]
    cases pendByte die a r with
    | some b => rfl
    | none =>
      by_cases hc : x.pa ≤ a ∧ a < x.pa + x.data.length
      · simp only [hx, hc, and_self, if_true, Option.getD_none]
        rw [List.getElem?_eq_getElem (by omega)]
        rfl
      · simp only [hx, true_and, if_neg hc, Option.getD_none]

/-- The last pending store decides where it writes. -/
theorem pendByte_append (die a : Nat) (l : List Pend) (p : Pend) : pendByte die a (l ++ [p]) =
    if p.die = die ∧ p.pa ≤ a ∧ a < p.pa + p.data.length then p.data[a - p.pa]? else pendByte die a l := by
  induction l with
  | nil => rfl
  | cons q r ih =>
    rw [List.cons_append, pendByte, ih, pendByte]
    by_cases hp : p.die = die ∧ p.pa ≤ a ∧ a < p.pa + p.data.length
    · rw [if_pos hp, if_pos hp, List.getElem?_eq_getElem (by omega)]
    · rw [if_neg hp, if_neg hp]

/-- Pending stores of other dies, and those elsewhere, may be left out. -/
theorem pendByte_own {die a : Nat} {l : List Pend} {f : Pend → Bool} (h : ∀ p ∈ l, p.die = die → Covers p a → f p = true) :
    pendByte die a (l.filter f) = pendByte die a l := by
  induction l with
  | nil => rfl
  | cons p r ih =>
    have ih := ih (fun q hq => h q (List.mem_cons_of_mem _ hq))
    by_cases hf : f p = true
    · rw [List.filter_cons_of_pos hf, pendByte, pendByte, ih]
    · have hn : ¬(p.die = die ∧ p.pa ≤ a ∧ a < p.pa + p.data.length) := fun hc => hf (h p List.mem_cons_self hc.1 hc.2)
      rw [List.filter_cons_of_neg hf, ih, pendByte, if_neg hn]
      cases pendByte die a r <;> rfl

/-- No pending store of the die writes the address. -/
theorem pendByte_absent {die a : Nat} {l : List Pend} (h : ∀ p ∈ l, p.die = die → ¬Covers p a) : pendByte die a l = none := by
  induction l with
  | nil => rfl
  | cons p r ih =>
    rw [pendByte, ih (fun q hq => h q (List.mem_cons_of_mem _ hq))]
    exact if_neg (fun hc => h p List.mem_cons_self hc.1 hc.2)

/-- What an acknowledgement leaves beside memory. -/
theorem ack_coh (s : State) (f : Pend → Bool) : (s.ack f).coh = { s.coh with pend := s.coh.pend.filter (fun x => !f x) } :=
  (homeOnly_foldl _ _).coh

theorem ack_blocks (s : State) (f : Pend → Bool) : (s.ack f).blocks = s.blocks := (homeOnly_foldl _ _).blocks

theorem ack_retired (s : State) (f : Pend → Bool) (a : Nat) : (s.ack f).retired a = s.retired a := by
  have h : (s.ack f).health = s.health := (homeOnly_foldl _ _).health
  rw [State.retired, h, State.retired]

/-- A die's own stores to an address acknowledged together: its view stays. -/
theorem view_ack_own {die a : Nat} {s : State} (hr : s.retired a = false) {f : Pend → Bool}
    (hall : ∀ p ∈ s.coh.pend, p.die = die → Covers p a → f p = true) (hown : ∀ p ∈ s.coh.pend, f p = true → p.die = die) :
    (s.ack f).view (some die) a = s.view (some die) a := by
  have hhome : (s.ack f).home a = (pendByte die a (s.coh.pend.filter f)).getD (s.home a) :=
    home_foldl_at (fun p hp => hown p (List.mem_filter.mp hp).1 (List.mem_filter.mp hp).2) hr
  rw [State.view, State.view, ack_coh, hhome, pendByte_own hall, pendByte_absent, Option.getD_none]
  intro p hp hd hc
  obtain ⟨hm, hn⟩ := List.mem_filter.mp hp
  rw [hall p hm hd hc] at hn
  exact Bool.noConfusion hn

/-! Stash lines given up (R122). -/

/-- What a recall leaves of the caches and the health registers; it acknowledges stores at most. -/
structure RecallKeeps (s t : State) : Prop where
  flips : t.coh.flips = s.coh.flips
  device : t.coh.device = s.coh.device
  l1 : t.coh.l1 = s.coh.l1
  health : t.health = s.health
  pend : ∀ p ∈ t.coh.pend, p ∈ s.coh.pend

theorem RecallKeeps.refl (s : State) : RecallKeeps s s := ⟨rfl, rfl, rfl, rfl, fun _ h => h⟩

theorem RecallKeeps.trans {s t u : State} (h : RecallKeeps s t) (k : RecallKeeps t u) : RecallKeeps s u :=
  ⟨k.flips.trans h.flips, k.device.trans h.device, k.l1.trans h.l1, k.health.trans h.health, fun p hp => h.pend p (k.pend p hp)⟩

theorem RecallKeeps.foldl {α : Type} {f : State → α → State} (h : ∀ t x, RecallKeeps t (f t x)) (l : List α) (s : State) :
    RecallKeeps s (l.foldl f s) := by
  induction l generalizing s with
  | nil => exact .refl s
  | cons x r ih => exact (h s x).trans (ih _)

theorem recallKeeps_stashBack (s : State) (b : Block) (x : Nat × Nat) : RecallKeeps s (s.stashBack b x) := by
  unfold State.stashBack
  split
  · exact .refl s
  · have hc := homeOnly_commit (s.ackLine x.2) (128 * x.2) (b.lbytes (128 * x.1) 128)
    have hcoh : ((s.ackLine x.2).commit (128 * x.2) (b.lbytes (128 * x.1) 128)).coh =
        { s.coh with pend := s.coh.pend.filter (fun p => !(lineOf p.pa == x.2)) } := hc.coh.trans (ack_coh s _)
    have hh : (s.ackLine x.2).health = s.health := (homeOnly_foldl _ _).health
    refine ⟨(congrArg Coh.flips hcoh :), (congrArg Coh.device hcoh :), (congrArg Coh.l1 hcoh :), hc.health.trans hh, fun p hp => ?_⟩
    rw [hcoh] at hp
    exact (List.mem_filter.mp hp).1

theorem recallKeeps_recallFrom (s : State) (u : Nat) (x : Nat × Nat) : RecallKeeps s (s.recallFrom u x) := by
  unfold State.recallFrom
  split
  · exact .refl s
  · rename_i b _
    dsimp only
    split
    · obtain ⟨h1, h2, h3, h4, h5⟩ := recallKeeps_stashBack s b x
      exact ⟨h1, h2, h3, h4, h5⟩
    · exact ⟨rfl, rfl, rfl, rfl, fun _ h => h⟩

theorem recallKeeps_recall (s : State) (line : Nat) : RecallKeeps s (s.recall line) :=
  RecallKeeps.foldl (fun t (b : Block) => RecallKeeps.foldl (fun u (x : Nat × Nat) => recallKeeps_recallFrom u b.uid x) _ t) _ s

/-- A block of a number holds a stash line. -/
def Owns (s : State) (u : Nat) (x : Nat × Nat) : Prop := ∃ b ∈ s.blocks, b.uid = u ∧ x ∈ b.owned

/-- A recall from a block takes the line away from it, and gives no block a line. -/
theorem owns_recallFrom {s : State} {u v : Nat} {x y : Nat × Nat} (h : Owns (s.recallFrom u x) v y) :
    Owns s v y ∧ ¬(v = u ∧ y = x) := by
  obtain ⟨b, hb, hv, hy⟩ := h
  cases hu : s.blk u with
  | none =>
    rw [State.recallFrom, hu] at hb
    refine ⟨⟨b, hb, hv, hy⟩, fun hc => ?_⟩
    have := List.find?_eq_none.mp hu b hb
    simp [hv, hc.1] at this
  | some c =>
    have hblks : (s.recallFrom u x).blocks = s.blocks.map (fun b => if b.uid == u then
        { (b.clearLine x.1) with owned := b.owned.filter (· != x), dirty := b.dirty.filter (· != x.1) } else b) := by
      rw [State.recallFrom, hu]
      dsimp only [State.updBlk]
      split
      · rw [blocks_stashBack]
      · rfl
    rw [hblks] at hb
    obtain ⟨b', hb', rfl⟩ := List.mem_map.mp hb
    by_cases hc : (b'.uid == u) = true
    · rw [if_pos hc] at hv hy
      have huid : b'.uid = v := by
        have : (b'.clearLine x.1).uid = b'.uid := by unfold Block.clearLine; split <;> rfl
        exact this.symm.trans hv
      obtain ⟨hm, hne⟩ := List.mem_filter.mp hy
      exact ⟨⟨b', hb', huid, hm⟩, fun h => by simp [h.2] at hne⟩
    · rw [if_neg hc] at hv hy
      exact ⟨⟨b', hb', hv, hy⟩, fun h => hc (by simp [hv, h.1])⟩

theorem owns_recallsFrom {u v : Nat} {y : Nat × Nat} {l : List (Nat × Nat)} {s : State}
    (h : Owns (l.foldl (fun t x => t.recallFrom u x) s) v y) : Owns s v y ∧ ¬(v = u ∧ y ∈ l) := by
  induction l generalizing s with
  | nil => exact ⟨h, fun hc => by cases hc.2⟩
  | cons x r ih =>
    obtain ⟨h1, h2⟩ := ih h
    obtain ⟨h3, h4⟩ := owns_recallFrom h1
    refine ⟨h3, fun hc => ?_⟩
    rcases List.mem_cons.mp hc.2 with hx | hx
    · exact h4 ⟨hc.1, hx⟩
    · exact h2 ⟨hc.1, hx⟩

/-- After a recall no stash holds the line. -/
theorem recall_free (s : State) (line : Nat) : ∀ b ∈ (s.recall line).blocks, ∀ x ∈ b.owned, x.2 ≠ line := by
  have hgo : ∀ (l : List Block) (t : State) (v : Nat) (y : Nat × Nat),
      Owns (l.foldl (fun t b => (b.owned.filter (fun x => x.2 == line)).foldl (fun u x => u.recallFrom b.uid x) t) t) v y →
        Owns t v y ∧ ∀ b ∈ l, b.uid = v → y ∈ b.owned → y.2 ≠ line := by
    intro l
    induction l with
    | nil => exact fun t v y h => ⟨h, fun b hb => by cases hb⟩
    | cons c r ih =>
      intro t v y h
      obtain ⟨h1, h2⟩ := ih _ v y h
      obtain ⟨h3, h4⟩ := owns_recallsFrom h1
      refine ⟨h3, fun b hb hv hy hl => ?_⟩
      rcases List.mem_cons.mp hb with rfl | hb
      · exact h4 ⟨hv.symm, List.mem_filter.mpr ⟨hy, beq_iff_eq.mpr hl⟩⟩
      · exact h2 b hb hv hy hl
  intro b hb x hx
  obtain ⟨⟨c, hc, hcv, hcx⟩, hall⟩ := hgo s.blocks s b.uid x ⟨b, hb, rfl, hx⟩
  exact hall c hc hcv hcx

/-- A line that no stash holds is not recalled. -/
theorem recall_unowned {s : State} {line : Nat} (h : ∀ b ∈ s.blocks, ∀ x ∈ b.owned, x.2 ≠ line) : s.recall line = s := by
  have hgo : ∀ (l : List Block) (t : State), (∀ b ∈ l, ∀ x ∈ b.owned, x.2 ≠ line) →
      l.foldl (fun t b => (b.owned.filter (fun x => x.2 == line)).foldl (fun u x => u.recallFrom b.uid x) t) t = t := by
    intro l
    induction l with
    | nil => exact fun _ _ => rfl
    | cons b r ih =>
      intro t hl
      have hb : b.owned.filter (fun x => x.2 == line) = [] :=
        List.filter_eq_nil_iff.mpr fun x hx => by simpa using hl b List.mem_cons_self x hx
      rw [List.foldl_cons, hb]
      exact ih t fun c hc => hl c (List.mem_cons_of_mem _ hc)
  exact hgo s.blocks s h

/-! A line taken while no flip is in progress (R122, R405). -/

theorem endFlips_none {s : State} (h : s.coh.flips = []) (page n : Nat) : s.endFlips page n = s := by
  cases n with
  | zero => rfl
  | succ n => rw [State.endFlips, h]; rfl

theorem takeLine_noFlips {s : State} (h : s.coh.flips = []) (die : Option Nat) (line : Nat) (w : Bool) :
    s.takeLine die line w = ((s.recall line).snoopHost line w).ack
      (if w then (fun p => lineOf p.pa == line && some p.die != die) else fun p => lineOf p.pa == line && some p.die == die) := by
  rw [State.takeLine, endFlips_none h]
  cases w with
  | true => rfl
  | false => rfl

/-- A snoop of the host changes no copy of the part. -/
structure SnoopKeeps (s t : State) : Prop where
  keeps : RecallKeeps s t
  pend : t.coh.pend = s.coh.pend
  blocks : t.blocks = s.blocks
  view : ∀ die a, t.view die a = s.view die a

theorem snoopKeeps (s : State) (line : Nat) (w : Bool) : SnoopKeeps s (s.snoopHost line w) := by
  unfold State.snoopHost
  split
  · split
    · exact ⟨⟨rfl, rfl, rfl, rfl, fun _ h => h⟩, rfl, rfl, fun _ _ => rfl⟩
    · exact ⟨⟨rfl, rfl, rfl, rfl, fun _ h => h⟩, rfl, rfl, fun _ _ => rfl⟩
  · exact ⟨.refl s, rfl, rfl, fun _ _ => rfl⟩

theorem recallKeeps_ack (s : State) (f : Pend → Bool) : RecallKeeps s (s.ack f) := by
  have h := ack_coh s f
  refine ⟨(congrArg Coh.flips h :), (congrArg Coh.device h :), (congrArg Coh.l1 h :), (homeOnly_foldl _ _).health, fun p hp => ?_⟩
  rw [h] at hp
  exact (List.mem_filter.mp hp).1

theorem recallKeeps_take {s : State} (h : s.coh.flips = []) (die : Option Nat) (line : Nat) (w : Bool) :
    RecallKeeps s (s.takeLine die line w) := by
  rw [takeLine_noFlips h]
  exact ((recallKeeps_recall s line).trans (snoopKeeps _ line w).keeps).trans (recallKeeps_ack _ _)

/-- A line taken is in no stash. -/
theorem take_free {s : State} (h : s.coh.flips = []) (die : Option Nat) (line : Nat) (w : Bool) :
    ∀ b ∈ (s.takeLine die line w).blocks, ∀ x ∈ b.owned, x.2 ≠ line := by
  rw [takeLine_noFlips h, ack_blocks, (snoopKeeps _ line w).blocks]
  exact recall_free s line

/-- The state that a store of one piece by a core's die leaves, its L1 copies aside. -/
structure Performed (t : State) (core pa : Nat) (d : List Byte) : Prop where
  flips : t.coh.flips = []
  stash : ∀ b ∈ t.blocks, ∀ x ∈ b.owned, x.2 ≠ lineOf pa
  device : t.coh.device.find? (fun x => x.1 == lineOf pa) = none
  pend : ∀ p ∈ t.coh.pend, p.pa % 128 + p.data.length ≤ 128
  frames : ∀ a, pa ≤ a → a < pa + d.length → t.retired a = false
  view : bytesAt (t.view (some (dieOf core))) pa d.length = d

/-- The state that a core's store of one piece leaves, as far as a load of it goes. -/
structure Stored (t : State) (core pa : Nat) (d : List Byte) : Prop extends Performed t core pa d where
  copies : ∀ c ∈ t.coh.l1, c.core = core → c.line = lineOf pa → (c.data.drop (pa - 128 * lineOf pa)).take d.length = d

/-- A store that stays inside one line is one piece. -/
theorem linePieces_one {pa n : Nat} (hn : 0 < n) (hl : pa % 128 + n ≤ 128) : linePieces pa n = [(pa, n)] := by
  have hmin : min n (128 - pa % 128) = n := by omega
  rw [linePieces, cutAt, if_neg (by omega)]
  dsimp only
  rw [hmin, Nat.sub_self]
  have hnil (f a : Nat) : cutAt 128 f a 0 = [] := by
    cases f with
    | zero => rfl
    | succ f => rw [cutAt, if_pos rfl]
  rw [hnil]

theorem view_dropOwn (s : State) (core line : Nat) (die : Option Nat) : (s.dropOwn core line).view die = s.view die := rfl

theorem refresh_none {s : State} {line : Nat} (h : s.coh.device.find? (fun x => x.1 == line) = none) : s.refresh line = s := by
  rw [State.refresh, h]

section Load
variable {t : State} {core pa : Nat} {d : List Byte}

/-- A load's take leaves the bytes of the line as the core's die sees them. -/
theorem Stored.take (h : Stored t core pa d) (hl : pa % 128 + d.length ≤ 128) {a : Nat} (h1 : pa ≤ a) (h2 : a < pa + d.length) :
    (t.takeLine (some (dieOf core)) (lineOf pa) false).view (some (dieOf core)) a = t.view (some (dieOf core)) a := by
  have hs := snoopKeeps t (lineOf pa) false
  rw [takeLine_noFlips h.flips, recall_unowned h.stash, if_neg Bool.false_ne_true, view_ack_own, hs.view]
  · rw [State.retired, hs.keeps.health]
    exact h.frames a h1 h2
  · intro p hp hd hc
    have hlen := h.pend p (hs.keeps.pend p hp)
    have hline : lineOf p.pa = lineOf pa := by
      obtain ⟨c1, c2⟩ := hc
      unfold lineOf
      omega
    simp [hline, hd]
  · intro p _ hf
    simpa using (Bool.and_eq_true_iff.mp hf).2

theorem Stored.take_bytes (h : Stored t core pa d) (hl : pa % 128 + d.length ≤ 128) :
    bytesAt ((t.takeLine (some (dieOf core)) (lineOf pa) false).view (some (dieOf core))) pa d.length = d := by
  refine Eq.trans (List.map_congr_left fun i hi => ?_) h.view
  have := List.mem_range.mp hi
  exact h.take hl (by omega) (by omega)

/-- A load of the piece, under any policy but `.ro`, returns it. -/
theorem Stored.load (h : Stored t core pa d) (hd : d ≠ []) (hl : pa % 128 + d.length ≤ 128) {pol : Pol} (hp : pol ≠ .ro) :
    (t.loadPhys core pol pa d.length).1 = d := by
  have hpos : 0 < d.length := List.length_pos_of_ne_nil hd
  have hone : (t.loadPhys core pol pa d.length).1 = (t.loadLine core pol pa d.length).1 := by
    rw [State.loadPhys, linePieces_one hpos hl]
    rfl
  rw [hone]
  have htake := h.take_bytes hl
  have hdevice := h.device
  have hdev : ((t.takeLine (some (dieOf core)) (lineOf pa) false).dropOwn core (lineOf pa)).refresh (lineOf pa) =
      (t.takeLine (some (dieOf core)) (lineOf pa) false).dropOwn core (lineOf pa) := by
    refine refresh_none ?_
    have hkeep := (recallKeeps_take h.flips (some (dieOf core)) (lineOf pa) false).device
    rw [← hkeep] at hdevice
    exact hdevice
  cases pol with
  | ro => exact absurd rfl hp
  | l1 =>
    rw [State.loadLine]
    dsimp only
    cases hc : t.expireLeases.coh.l1.find? (fun c => c.core == core && c.line == lineOf pa) with
    | some c =>
      obtain ⟨h1, h2⟩ := Bool.and_eq_true_iff.mp (List.find?_some (p := fun c : LineCopy => c.core == core && c.line == lineOf pa) hc)
      exact h.copies c (List.mem_filter.mp (List.mem_of_find?_eq_some hc)).1 (beq_iff_eq.mp h1) (beq_iff_eq.mp h2)
    | none =>
      have he : Stored t.expireLeases core pa d := ⟨⟨h.flips, h.stash, h.device, h.pend, h.frames, h.view⟩,
        fun c hc => h.copies c (List.mem_filter.mp hc).1⟩
      exact he.take_bytes hl
  | l2 =>
    rw [State.loadLine]
    dsimp only
    rw [if_neg (by decide), view_dropOwn, htake]
  | str =>
    rw [State.loadLine]
    dsimp only
    rw [if_neg (by decide), view_dropOwn, htake]
  | sys =>
    rw [State.loadLine]
    dsimp only
    rw [if_pos (by decide), hdev, view_dropOwn, htake]

end Load

/-! The store (R109, R111). -/

/-- A line's bytes at the device are taken over or overwritten. -/
structure LineFresh (s t : State) (line : Nat) : Prop where
  flips : t.coh.flips = s.coh.flips
  l1 : t.coh.l1 = s.coh.l1
  health : t.health = s.health
  blocks : t.blocks = s.blocks
  pend : ∀ p ∈ t.coh.pend, p ∈ s.coh.pend
  device : t.coh.device.find? (fun x => x.1 == line) = none

theorem find?_filter_ne {α : Type} (l : List (Nat × α)) (n : Nat) :
    (l.filter (fun x => x.1 != n)).find? (fun x => x.1 == n) = none :=
  List.find?_eq_none.mpr fun x hx => by simpa using (List.mem_filter.mp hx).2

theorem lineFresh_overDevice (s : State) (line : Nat) : LineFresh s (s.overDevice line) line :=
  ⟨rfl, rfl, rfl, rfl, fun _ h => h, find?_filter_ne _ _⟩

theorem lineFresh_refresh (s : State) (line : Nat) : LineFresh s (s.refresh line) line := by
  unfold State.refresh
  split
  · rename_i h
    exact ⟨rfl, rfl, rfl, rfl, fun _ h => h, h⟩
  · rename_i x _
    have hc := homeOnly_commit (s.ackLine line) (128 * line) x.2
    have hcoh : ((s.ackLine line).commit (128 * line) x.2).coh =
        { s.coh with pend := s.coh.pend.filter (fun p => !(lineOf p.pa == line)) } := hc.coh.trans (ack_coh s _)
    have hh : (s.ackLine line).health = s.health := (homeOnly_foldl _ _).health
    refine ⟨(congrArg Coh.flips hcoh :), (congrArg Coh.l1 hcoh :), hc.health.trans hh, hc.blocks.trans (ack_blocks s _),
      fun p hp => ?_, find?_filter_ne _ _⟩
    have hp' : p ∈ ((s.ackLine line).commit (128 * line) x.2).coh.pend := hp
    rw [hcoh] at hp'
    exact (List.mem_filter.mp hp').1

/-- The state in which a piece is put: its line taken, and the device's bytes of it gone. -/
structure Ready (s u : State) (line : Nat) : Prop where
  flips : u.coh.flips = []
  l1 : u.coh.l1 = s.coh.l1
  health : u.health = s.health
  stash : ∀ b ∈ u.blocks, ∀ x ∈ b.owned, x.2 ≠ line
  pend : ∀ p ∈ u.coh.pend, p ∈ s.coh.pend
  device : u.coh.device.find? (fun x => x.1 == line) = none

theorem ready_of {s u : State} {line : Nat} (h : s.coh.flips = []) (die : Option Nat)
    (hu : LineFresh (s.takeLine die line true) u line) : Ready s u line := by
  have hk := recallKeeps_take h die line true
  have hf := take_free h die line true
  exact ⟨hu.flips.trans (hk.flips.trans h), hu.l1.trans hk.l1, hu.health.trans hk.health, by rw [hu.blocks]; exact hf,
    fun p hp => hk.pend p (hu.pend p hp), hu.device⟩

section Store
variable {s u : State} {core spid pa : Nat} {d : List Byte}

/-- The bytes of a piece read back one by one. -/
theorem bytesAt_eq {f : Nat → Byte} (h : ∀ a, pa ≤ a → a < pa + d.length → f a = (d[a - pa]?).getD 0) : bytesAt f pa d.length = d := by
  refine List.ext_getElem? fun i => ?_
  rw [bytesAt, List.getElem?_map]
  by_cases hi : i < d.length
  · rw [List.getElem?_range hi, Option.map_some, h _ (by omega) (by omega), Nat.add_sub_cancel_left, List.getElem?_eq_getElem hi]
    rfl
  · rw [List.getElem?_eq_none (by rw [List.length_range]; omega), List.getElem?_eq_none (by omega)]
    rfl

/-- A store that waits for its acknowledgement is seen by its own die (R115). -/
theorem performed_pend (h : Ready s u (lineOf pa)) (hl : pa % 128 + d.length ≤ 128)
    (hr : ∀ a, pa ≤ a → a < pa + d.length → s.retired a = false) (hp : ∀ p ∈ s.coh.pend, p.pa % 128 + p.data.length ≤ 128)
    (clk spid : Nat) :
    Performed { u with coh := { u.coh with
      pend := u.coh.pend ++ [{ die := dieOf core, pa := pa, data := d, clk := clk, core := core, spid := spid }] } } core pa d where
  flips := h.flips
  stash := h.stash
  device := h.device
  pend p hm := by
    rcases List.mem_append.mp hm with hm | hm
    · exact hp p (h.pend p hm)
    · rw [List.mem_singleton.mp hm]
      exact hl
  frames a h1 h2 := by
    have := hr a h1 h2
    rw [State.retired] at this ⊢
    rw [h.health]
    exact this
  view := bytesAt_eq fun a h1 h2 => by
    rw [State.view]
    dsimp only
    rw [pendByte_append, if_pos ⟨rfl, h1, h2⟩, List.getElem?_eq_getElem (show a - pa < d.length by omega)]
    rfl

/-- A store performed at the home is seen by every die (R109). -/
theorem performed_home (h : Ready s u (lineOf pa)) (hl : pa % 128 + d.length ≤ 128)
    (hr : ∀ a, pa ≤ a → a < pa + d.length → s.retired a = false) (hp : ∀ p ∈ s.coh.pend, p.pa % 128 + p.data.length ≤ 128) :
    Performed ((u.ackLine (lineOf pa)).commit pa d) core pa d := by
  have hc := homeOnly_commit (u.ackLine (lineOf pa)) pa d
  have hcoh : ((u.ackLine (lineOf pa)).commit pa d).coh = { u.coh with pend := u.coh.pend.filter (fun p => !(lineOf p.pa == lineOf pa)) } :=
    hc.coh.trans (ack_coh u _)
  have hret (a : Nat) (h1 : pa ≤ a) (h2 : a < pa + d.length) : (u.ackLine (lineOf pa)).retired a = false := by
    have := hr a h1 h2
    rw [State.ackLine, ack_retired, State.retired, h.health]
    exact this
  refine ⟨(congrArg Coh.flips hcoh :).trans h.flips, ?_, ?_, ?_, fun a h1 h2 => ?_, bytesAt_eq fun a h1 h2 => ?_⟩
  · rw [hc.blocks, State.ackLine, ack_blocks]
    exact h.stash
  · rw [hcoh]
    exact h.device
  · intro p hm
    rw [hcoh] at hm
    exact hp p (h.pend p (List.mem_filter.mp hm).1)
  · rw [retired_commit, hret a h1 h2]
  · rw [State.view, hcoh, pendByte_absent, Option.getD_none, home_commit_at (hret a h1 h2), if_pos ⟨h1, h2⟩]
    intro p hm _ hcov
    obtain ⟨hm, hne⟩ := List.mem_filter.mp hm
    have hlen := hp p (h.pend p hm)
    have hline : lineOf p.pa = lineOf pa := by
      obtain ⟨c1, c2⟩ := hcov
      unfold lineOf
      omega
    simp [hline] at hne

/-- The piece performed, under each policy; the L1 copies are as they were. -/
theorem performed_storeLine (home : Bool) (hfl : s.coh.flips = []) (hl : pa % 128 + d.length ≤ 128)
    (hr : ∀ a, pa ≤ a → a < pa + d.length → s.retired a = false) (hp : ∀ p ∈ s.coh.pend, p.pa % 128 + p.data.length ≤ 128) :
    Performed (s.storeLine (some (dieOf core)) home (core, spid) pa d) core pa d ∧
      (s.storeLine (some (dieOf core)) home (core, spid) pa d).coh.l1 = s.coh.l1 := by
  cases home with
  | true =>
    have h := ready_of hfl (some (dieOf core)) (lineFresh_refresh _ (lineOf pa))
    refine ⟨performed_home h hl hr hp, ?_⟩
    have hc := homeOnly_commit (((s.takeLine (some (dieOf core)) (lineOf pa) true).refresh (lineOf pa)).ackLine (lineOf pa)) pa d
    exact ((congrArg Coh.l1 (hc.coh.trans (ack_coh _ _)) :)).trans h.l1
  | false =>
    have h := ready_of hfl (some (dieOf core)) (lineFresh_overDevice _ (lineOf pa))
    exact ⟨performed_pend h hl hr hp _ spid, h.l1⟩

end Store

/-! The core's L1 copies after its store (R111). -/

theorem overlay_cut {base pa : Nat} {old d : List Byte} (hb : base ≤ pa) (hl : pa - base + d.length ≤ old.length) :
    ((overlay base old pa d).drop (pa - base)).take d.length = d := by
  refine List.ext_getElem? fun i => ?_
  by_cases hi : i < d.length
  · rw [List.getElem?_take_of_lt hi, List.getElem?_drop, overlay, List.getElem?_map, List.getElem?_zipIdx,
      List.getElem?_eq_getElem (by omega), Option.map_some, Option.map_some]
    dsimp only
    rw [if_pos (by omega), show base + (0 + (pa - base + i)) - pa = i by omega, List.getElem?_eq_getElem hi]
    rfl
  · rw [List.getElem?_eq_none (by rw [List.length_take]; omega), List.getElem?_eq_none (by omega)]

theorem bytesAt_cut (f : Nat → Byte) {base pa m n : Nat} (hb : base ≤ pa) (hl : pa - base + n ≤ m) :
    ((bytesAt f base m).drop (pa - base)).take n = bytesAt f pa n := by
  refine List.ext_getElem? fun i => ?_
  by_cases hi : i < n
  · rw [List.getElem?_take_of_lt hi, List.getElem?_drop, bytesAt, bytesAt, List.getElem?_map, List.getElem?_map,
      List.getElem?_range (by omega), List.getElem?_range hi, Option.map_some, Option.map_some, show base + (pa - base + i) = pa + i by omega]
  · rw [List.getElem?_eq_none (by rw [List.length_take]; omega), List.getElem?_eq_none (by rw [length_bytesAt]; omega)]

section Copies
variable {t : State} {core pa : Nat} {d : List Byte}

theorem stored_l1Update (h : Performed t core pa d) (hl : pa % 128 + d.length ≤ 128) (hc : ∀ c ∈ t.coh.l1, c.data.length = 128) :
    Stored (t.l1Update core pa d) core pa d := by
  refine ⟨⟨h.flips, h.stash, h.device, h.pend, h.frames, h.view⟩, fun c hm hcore hline => ?_⟩
  obtain ⟨c0, hm0, rfl⟩ := List.mem_map.mp hm
  by_cases hcc : (c0.core == core) = true
  · rw [if_pos hcc] at hline ⊢
    have hl0 : c0.line = lineOf pa := hline
    dsimp only
    rw [hl0]
    exact overlay_cut (by unfold lineOf; omega) (by rw [hc c0 hm0]; unfold lineOf; omega)
  · rw [if_neg hcc] at hcore
    exact absurd (beq_iff_eq.mpr hcore) hcc

theorem stored_l1Fill (h : Stored t core pa d) (hl : pa % 128 + d.length ≤ 128) : Stored (t.l1Fill core (lineOf pa)) core pa d := by
  unfold State.l1Fill
  split
  · exact h
  · refine ⟨⟨h.flips, h.stash, h.device, h.pend, h.frames, h.view⟩, fun c hm hcore hline => ?_⟩
    rcases List.mem_cons.mp hm with rfl | hm
    · exact (bytesAt_cut _ (by unfold lineOf; omega) (by unfold lineOf; omega)).trans h.view
    · exact h.copies c hm hcore hline

end Copies

/-- A core's store of one piece. -/
theorem storePhys_one {s : State} {core pa : Nat} {d : List Byte} (hd : d ≠ []) (hl : pa % 128 + d.length ≤ 128) (pol : Pol) (spid : Nat) :
    s.storePhys (some (dieOf core)) pol (core, spid) pa d =
      if pol = .l1 then ((s.storeLine (some (dieOf core)) (pol == .sys) (core, spid) pa d).l1Update core pa d).l1Fill core (lineOf pa)
      else (s.storeLine (some (dieOf core)) (pol == .sys) (core, spid) pa d).l1Update core pa d := by
  rw [State.storePhys, linePieces_one (List.length_pos_of_ne_nil hd) hl]
  simp only [List.foldl_cons, List.foldl_nil, Nat.sub_self, List.drop_zero, List.take_length, Option.isSome_some, Bool.and_true, beq_iff_eq]

theorem stored_storePhys {s : State} {core pa : Nat} {d : List Byte} (hd : d ≠ []) (hl : pa % 128 + d.length ≤ 128)
    (hr : ∀ a, pa ≤ a → a < pa + d.length → s.retired a = false) (hc : ∀ c ∈ s.coh.l1, c.data.length = 128)
    (hp : ∀ p ∈ s.coh.pend, p.pa % 128 + p.data.length ≤ 128) (hfl : s.coh.flips = []) (pol : Pol) (spid : Nat) :
    Stored (s.storePhys (some (dieOf core)) pol (core, spid) pa d) core pa d := by
  obtain ⟨hperf, hl1⟩ := performed_storeLine (spid := spid) (core := core) (pol == .sys) hfl hl hr hp
  have hupd := stored_l1Update hperf hl (by rw [hl1]; exact hc)
  rw [storePhys_one hd hl]
  split
  · exact stored_l1Fill hupd hl
  · exact hupd

/-! Every other byte, where nothing stands between (R115). -/

section Others
variable {s u : State} {core pa : Nat} {d : List Byte}

/-- A store's take acknowledges stores of other dies, of which there are none. -/
theorem took_own (q : Quiet s core) (line : Nat) :
    Quiet (s.takeLine (some (dieOf core)) line true) core ∧ ∀ a, seen (s.takeLine (some (dieOf core)) line true) core a = seen s core a := by
  obtain ⟨hq, -, hs⟩ := snoopHost_quiet q line true
  have hnone (f : Pend → Bool) (hf : ∀ p ∈ (s.snoopHost line true).coh.pend, f p = false) (a : Nat) :
      seen ((s.snoopHost line true).ack f) core a = seen (s.snoopHost line true) core a :=
    view_ack hq.frames (fun p hp => (hq.pend p hp).1) (.inr fun p hp _ => hf p hp)
  rw [takeLine_noFlips q.flips, recall_quiet q, if_pos rfl]
  refine ⟨(hq.ack _).1, fun a => ?_⟩
  rw [hnone, hs]
  intro p hp
  rw [(hq.pend p hp).1]
  simp

/-- Bytes written at the home of a line whose stores are all acknowledged. -/
theorem seen_commit (q : Quiet u core) (hp : ∀ p ∈ u.coh.pend, lineOf p.pa ≠ lineOf pa) (hl : pa % 128 + d.length ≤ 128) (a : Nat) :
    seen (u.commit pa d) core a = if pa ≤ a ∧ a < pa + d.length then (d[a - pa]?).getD 0 else seen u core a := by
  have hv : seen (u.commit pa d) core a = (pendByte (dieOf core) a u.coh.pend).getD ((u.commit pa d).home a) :=
    congrArg (fun l => (pendByte (dieOf core) a l).getD ((u.commit pa d).home a)) (congrArg Coh.pend (homeOnly_commit u pa d).coh :)
  rw [hv, home_commit q.frames]
  split
  · rename_i hin
    rw [pendByte_none, Option.getD_none]
    intro p hm hcov
    refine hp p hm ((q.line hm hcov).trans ?_)
    unfold lineOf
    omega
  · rfl

theorem seen_overDevice (s : State) (line core a : Nat) : seen (s.overDevice line) core a = seen s core a := rfl

theorem seen_pend (s : State) (core a : Nat) (p : Pend) : seen { s with coh := { s.coh with pend := s.coh.pend ++ [p] } } core a =
    if p.die = dieOf core ∧ p.pa ≤ a ∧ a < p.pa + p.data.length then (p.data[a - p.pa]?).getD (s.home a) else seen s core a := by
  show (pendByte (dieOf core) a (s.coh.pend ++ [p])).getD (s.home a) = _
  rw [pendByte_append]
  split
  · rfl
  · rfl

/-- One piece of a core's store changes what its die sees of it, and nothing else. -/
theorem storeLine_quiet (q : Quiet s core) (home : Bool) (spid : Nat) (hl : pa % 128 + d.length ≤ 128) (a : Nat) :
    seen (s.storeLine (some (dieOf core)) home (core, spid) pa d) core a =
      if pa ≤ a ∧ a < pa + d.length then (d[a - pa]?).getD 0 else seen s core a := by
  obtain ⟨hq, hs⟩ := took_own q (lineOf pa)
  cases home with
  | true =>
    have href : (s.takeLine (some (dieOf core)) (lineOf pa) true).refresh (lineOf pa) = s.takeLine (some (dieOf core)) (lineOf pa) true :=
      refresh_none (by rw [hq.device]; rfl)
    obtain ⟨hq', hp'⟩ := hq.ack (fun p => lineOf p.pa == lineOf pa)
    have hnone : ∀ p ∈ ((s.takeLine (some (dieOf core)) (lineOf pa) true).ack (fun p => lineOf p.pa == lineOf pa)).coh.pend,
        lineOf p.pa ≠ lineOf pa := by
      intro p hp
      rw [hp'] at hp
      simpa using (List.mem_filter.mp hp).2
    show seen ((((s.takeLine (some (dieOf core)) (lineOf pa) true).refresh (lineOf pa)).ackLine (lineOf pa)).commit pa d) core a = _
    rw [href, State.ackLine, seen_commit hq' hnone hl, seen_ackLine hq (lineOf pa) (fun _ _ => rfl), hs]
  | false =>
    refine (seen_pend ((s.takeLine (some (dieOf core)) (lineOf pa) true).overDevice (lineOf pa)) core a _).trans ?_
    rw [seen_overDevice, hs]
    by_cases hin : pa ≤ a ∧ a < pa + d.length
    · rw [if_pos ⟨rfl, hin⟩, if_pos hin]
      dsimp only
      rw [List.getElem?_eq_getElem (show a - pa < d.length by omega)]
      rfl
    · rw [if_neg (fun h => hin h.2), if_neg hin]

end Others

theorem seen_l1Fill (s : State) (core line : Nat) : seen (s.l1Fill core line) core = seen s core := by
  unfold State.l1Fill
  split
  · rfl
  · rfl

/-- Settles O14: the piece is performed at L2 or at the home, and the core's L1 copies hold it too. -/
theorem ownStoreIsSeen : Obligations.OwnStoreIsSeen := by
  unfold Obligations.OwnStoreIsSeen
  intro s core spid pa pol pol' d hpol hd hl hr hc hp hfl t
  refine ⟨(stored_storePhys hd hl hr hc hp hfl pol spid).load hd hl hpol, fun q a => ?_⟩
  have hline := storeLine_quiet q (pol == .sys) spid hl a
  show seen (s.storePhys (some (dieOf core)) pol (core, spid) pa d) core a = _
  rw [storePhys_one hd hl]
  split
  · rw [seen_l1Fill]
    exact hline
  · exact hline

end Sys2Proof.Safety
end

section
/-! PROOF. Copies: the issue of `cpy` and `cpyw`, and the packets of COPY_WRITE (R118, R124, R161, R288, R293, R294). -/

namespace Sys2Proof.Safety
open Sys2Proof.Machine

/-! Checks of the slots. -/

/-- Every slot's check succeeds. -/
theorem checkSlots_ok {α : Type} {f : Nat → Except Stop α} {g : Nat → α} {ks : List Nat} (h : ∀ k ∈ ks, f k = .ok (g k)) :
    checkSlots f ks = .ok (ks.map (fun k => (k, g k))) := by
  induction ks with
  | nil => rfl
  | cons k r ih =>
    rw [checkSlots, h k List.mem_cons_self]
    dsimp only
    rw [ih (fun x hx => h x (List.mem_cons_of_mem _ hx))]
    rfl

/-! Fills begin (R118). -/

/-- A block whose lines differ from an earlier one's by the fills `n` that have begun since. -/
structure Filling (b0 b : Block) (n : Nat → Nat) : Prop where
  else_ : { b with absent := b0.absent, fills := b0.fills } = b0
  count : ∀ line, b.fillCount line = b0.fillCount line + n line
  present : ∀ line, b.present line = (b0.present line && n line == 0)

theorem Filling.refl (b : Block) : Filling b b (fun _ => 0) := ⟨rfl, fun _ => rfl, fun _ => by simp⟩

theorem Filling.trans {b0 b c : Block} {n m : Nat → Nat} (h : Filling b0 b n) (k : Filling b c m) :
    Filling b0 c (fun line => n line + m line) where
  else_ := (congrArg (fun x : Block => { x with absent := b0.absent, fills := b0.fills }) k.else_).trans h.else_
  count line := by rw [k.count, h.count, Nat.add_assoc]
  present line := by
    rw [k.present, h.present, Bool.and_assoc]
    congr 1
    rw [Bool.eq_iff_iff, Bool.and_eq_true, beq_iff_eq, beq_iff_eq, beq_iff_eq]
    omega

theorem Filling.congr {b0 b : Block} {n m : Nat → Nat} (h : Filling b0 b n) (hn : ∀ line, n line = m line) : Filling b0 b m :=
  ⟨h.else_, fun line => by rw [h.count, hn], fun line => by rw [h.present, hn]⟩

theorem present_clearLine (b : Block) (l line : Nat) : (b.clearLine l).present line = (b.present line && line != l) := by
  have h := (clearLines_spec [l] b).2 line
  rw [List.foldl_cons, List.foldl_nil] at h
  rw [h, List.contains_cons, List.contains_nil, Bool.or_false]
  rfl

theorem filling_fillStart (b : Block) (l : Nat) : Filling b (b.fillStart l) (fun line => if line = l then 1 else 0) := by
  have hfills : (b.clearLine l).fills = b.fills := by unfold Block.clearLine; split <;> rfl
  refine ⟨?_, fun line => ?_, fun line => ?_⟩
  · rw [Block.fillStart, Block.clearLine]
    split
    · rfl
    · rfl
  · rw [Block.fillStart, Block.fillCount]
    dsimp only
    rw [hfills, List.find?_cons]
    by_cases hl : line = l
    · subst hl
      rw [if_pos rfl, beq_self_eq_true]
      rfl
    · have hne : (l == line) = false := beq_false_of_ne (Ne.symm hl)
      have hfind : (b.fills.filter (fun x => x.1 != l)).find? (fun x => x.1 == line) = b.fills.find? (fun x => x.1 == line) := by
        rw [List.find?_filter]
        congr 1
        funext x
        by_cases hx : x.1 = line
        · simp [hx, hl]
        · simp [hx]
      rw [hne, if_neg hl, Block.fillCount]
      dsimp only
      rw [hfind]
      rfl
  · have hp : (b.fillStart l).present line = (b.clearLine l).present line := rfl
    rw [hp, present_clearLine]
    by_cases hl : line = l
    · simp [hl]
    · simp [hl]

theorem filling_starts (ls : List Nat) (b : Block) : Filling b (ls.foldl (fun b l => b.fillStart l) b) (fun line => ls.count line) := by
  induction ls generalizing b with
  | nil => exact .refl b
  | cons l r ih =>
    refine ((filling_fillStart b l).trans (ih _)).congr fun line => ?_
    rw [List.count_cons, Nat.add_comm]
    congr 1
    by_cases hl : line = l
    · simp [hl]
    · simp [hl, Ne.symm hl]

/-- Each element is listed once. -/
theorem count_eraseDups (n : Nat) : ∀ l : List Nat, l.length ≤ n → ∀ x, l.eraseDups.count x = if x ∈ l then 1 else 0 := by
  induction n with
  | zero =>
    intro l hl x
    rw [List.length_eq_zero_iff.mp (Nat.le_zero.mp hl)]
    rfl
  | succ n ih =>
    intro l hl x
    cases l with
    | nil => rfl
    | cons a r =>
      have hr : (r.filter (fun b => !b == a)).length ≤ n := (List.length_filter_le _ r).trans (by simpa using hl)
      rw [List.eraseDups_cons, List.count_cons, ih _ hr]
      by_cases hx : x = a
      · simp [hx]
      · simp [hx, Ne.symm hx]

/-- The lines of a copy's packets, each once. -/
theorem count_segLines (l : List CopySeg) (line : Nat) :
    (segLines l).count line = if l.any (fun y => decide (y.la / 128 = line)) = true then 1 else 0 := by
  rw [segLines, count_eraseDups _ _ (Nat.le_refl _)]
  congr 1
  simp only [List.mem_map, List.any_eq_true, decide_eq_true_eq, lineOf]

/-! The issue (R288, R293, R294). -/

section Issue
variable {s : State} {e : Env} {out : Bool} {pol : Pol} {ctr : Option (BitVec 16)} {grp : Nat}

/-- The operation of a copy. -/
def copyOp (s : State) (e : Env) (out : Bool) (pol : Pol) (ctr : Option (BitVec 16)) (grp id : Nat) (ks : List Nat) (x : List CopySeg) : Op :=
  { id := id, blk := e.b.uid, m := e.sp.m, ctx := e.b.ctx, core := e.b.core, spid := e.sp.spid, slots := ks
    token := e.r.token, hdr := e.r.hdr, start := s.devtime
    kind := .copy out pol (ctr.map (fun c => 16 * c.toNat)) x (x.map (·.len)).sum grp }

/-- Jobs that touch a line. -/
def touches (out : Bool) (xs : List (List CopySeg)) (line : Nat) : Nat :=
  if out then 0 else (xs.filter (fun x => x.any (fun y => decide (y.la / 128 = line)))).length

theorem touches_cons (out : Bool) (x : List CopySeg) (xs : List (List CopySeg)) (line : Nat) :
    touches out (x :: xs) line = touches out [x] line + touches out xs line := by
  unfold touches
  cases out with
  | true => rfl
  | false =>
    simp only [Bool.false_eq_true, if_false, List.filter_cons, List.filter_nil]
    split
    · simp [Nat.add_comm]
    · simp

/-- What issuing copies does to the state, and all it does: fills begin, operations come. -/
structure CopiesIssued (s t : State) (u : Nat) (b : Block) (n : Nat → Nat) (ops : List Op) : Prop where
  rest : t = { s with blocks := t.blocks, ops := t.ops, nextId := t.nextId }
  others : ∀ v, v ≠ u → t.blk v = s.blk v
  block : ∃ b', t.blk u = some b' ∧ Filling b b' n
  ids : t.nextId = s.nextId + ops.length
  ops : t.ops = s.ops ++ ops

theorem blk_startFills {u : Nat} {b : Block} (hb : s.blk u = some b) (ls : List Nat) :
    (∃ b', (s.startFills u ls).blk u = some b' ∧ Filling b b' (fun line => ls.count line)) ∧
      ∀ v, v ≠ u → (s.startFills u ls).blk v = s.blk v := by
  have huid (c : Block) : (ls.foldl (fun b l => b.fillStart l) c).uid = c.uid :=
    (congrArg Block.uid (filling_starts ls c).else_ :)
  refine ⟨⟨_, blk_updBlk_same hb huid, filling_starts ls b⟩, fun v hv => ?_⟩
  rw [State.startFills, State.blk_updBlk _ _ _ _ huid]
  cases hc : s.blk v with
  | none => rfl
  | some c => simp [State.blk_uid hc, hv]

/-- One copy. -/
theorem issueCopy_spec {b : Block} (hb : s.blk e.b.uid = some b) (ks : List Nat) {l : List CopySeg} (hl : l ≠ []) :
    CopiesIssued s (s.issueCopy e ks out pol ctr grp l) e.b.uid b (touches out [l]) [copyOp s e out pol ctr grp s.nextId ks l] := by
  have hne : l.isEmpty = false := List.isEmpty_eq_false_iff.mpr hl
  rw [State.issueCopy, hne, if_neg Bool.false_ne_true]
  cases out with
  | true => exact ⟨rfl, fun _ _ => rfl, ⟨b, hb, .refl b⟩, rfl, rfl⟩
  | false =>
    obtain ⟨⟨b', hb', hf⟩, hother⟩ := blk_startFills hb (segLines l)
    refine ⟨rfl, hother, ⟨b', hb', hf.congr fun line => ?_⟩, rfl, rfl⟩
    rw [count_segLines, touches, if_neg Bool.false_ne_true, List.filter_cons]
    split
    · rfl
    · rfl

/-- The copies of several slots, each with its job (R293). -/
theorem issueCopies_spec (job : Nat → List CopySeg) (ks : List Nat) {s : State} {b : Block} (hb : s.blk e.b.uid = some b) :
    CopiesIssued s ((ks.map (fun k => (k, job k))).foldl (fun t x => t.issueCopy e [x.1] out pol ctr grp x.2) s) e.b.uid b
      (touches out (ks.map job)) ((ks.filter (fun k => !(job k).isEmpty)).zipIdx.map (fun x =>
        copyOp s e out pol ctr grp (s.nextId + x.2) [x.1] (job x.1))) := by
  induction ks generalizing s b with
  | nil =>
    refine ⟨rfl, fun _ _ => rfl, ⟨b, hb, (Filling.refl b).congr fun line => ?_⟩, rfl, (List.append_nil _).symm⟩
    rw [touches]
    split
    · rfl
    · rfl
  | cons k r ih =>
    rw [List.map_cons, List.map_cons, List.foldl_cons]
    by_cases hk : job k = []
    · have hskip : s.issueCopy e [k] out pol ctr grp (job k) = s := by rw [State.issueCopy, hk]; rfl
      obtain ⟨h1, h2, ⟨b', h3, h4⟩, h5, h6⟩ := ih hb
      have hfil : (k :: r).filter (fun k => !(job k).isEmpty) = r.filter (fun k => !(job k).isEmpty) := by
        rw [List.filter_cons, hk]
        rfl
      dsimp only
      rw [hskip, hfil]
      refine ⟨h1, h2, ⟨b', h3, h4.congr fun line => ?_⟩, h5, h6⟩
      rw [touches_cons, hk]
      have h0 : touches out [[]] line = 0 := by unfold touches; split <;> rfl
      rw [h0, Nat.zero_add]
    · obtain ⟨h1, h2, ⟨b1, h3, h4⟩, h5, h6⟩ := issueCopy_spec (out := out) (pol := pol) (ctr := ctr) (grp := grp) hb [k] hk
      obtain ⟨k1, k2, ⟨b', k3, k4⟩, k5, k6⟩ := ih h3
      have hfil : (k :: r).filter (fun k => !(job k).isEmpty) = k :: r.filter (fun k => !(job k).isEmpty) := by
        rw [List.filter_cons, List.isEmpty_eq_false_iff.mpr hk]
        rfl
      have htime : (s.issueCopy e [k] out pol ctr grp (job k)).devtime = s.devtime := by rw [h1]
      dsimp only
      rw [hfil, List.zipIdx_cons, List.map_cons, List.zipIdx_succ, List.map_map]
      refine ⟨?_, fun v hv => (k2 v hv).trans (h2 v hv), ⟨b', k3, (h4.trans k4).congr fun line => (touches_cons _ _ _ _).symm⟩, ?_, ?_⟩
      · rw [k1, h1]
      · rw [k5, h5]
        simp only [List.length_cons, List.length_map, List.length_nil]
        omega
      · rw [k6, h6, h5, List.append_assoc]
        congr 1
        simp only [List.singleton_append, List.cons.injEq]
        refine ⟨rfl, List.map_congr_left fun x _ => ?_⟩
        simp only [copyOp, Function.comp, htime, List.length_singleton]
        congr 1
        omega

end Issue

/-! Engine accesses where nothing stands between: at the home they are the same (R109, R161). -/

theorem linePieces_inside {pa n : Nat} {p : Nat × Nat} (h : p ∈ linePieces pa n) : p.1 % 128 + p.2 ≤ 128 := by
  obtain ⟨j, hj⟩ := List.mem_iff_getElem?.mp h
  exact (cutAt_piece (by decide) _ _ _ _ _ hj).2.2

section Quiet
variable {s : State} {core : Nat}

theorem Quiet.refresh (q : Quiet s core) (line : Nat) : s.refresh line = s := refresh_none (by rw [q.device]; rfl)

theorem take_blocks (q : Quiet s core) (die : Option Nat) (line : Nat) (w : Bool) : (s.takeLine die line w).blocks = s.blocks := by
  rw [takeLine_noFlips q.flips, recall_quiet q, ack_blocks, (snoopKeeps s line w).blocks]

theorem storeSeen_home (q : Quiet s core) (pa : Nat) (d : List Byte) : s.storeSeen pa d true = s.storeSeen pa d false := by
  have h : s.rmwLine (lineOf pa) true = s.rmwLine (lineOf pa) false := (took_write q (lineOf pa)).quiet.refresh _
  rw [State.storeSeen, State.storeSeen, h]

theorem engineStore_home (q : Quiet s core) (pa : Nat) (d : List Byte) (home : Bool) :
    s.engineStore pa d home = s.engineStore pa d false := by
  cases home with
  | false => rfl
  | true =>
    have hgo : ∀ (l : List (Nat × Nat)) (t : State), Quiet t core → (∀ p ∈ l, p.1 % 128 + p.2 ≤ 128) →
        l.foldl (fun t p => t.storeSeen p.1 ((d.drop (p.1 - pa)).take p.2) true) t =
          l.foldl (fun t p => t.storeSeen p.1 ((d.drop (p.1 - pa)).take p.2) false) t := by
      intro l
      induction l with
      | nil => exact fun _ _ _ => rfl
      | cons p r ih =>
        intro t ht hl
        have hp := hl p List.mem_cons_self
        have hlen : ((d.drop (p.1 - pa)).take p.2).length ≤ p.2 := List.length_take_le _ _
        rw [List.foldl_cons, List.foldl_cons, storeSeen_home ht]
        exact ih _ (storeSeen_quiet ht p.1 _ (by omega)).1 (fun x hx => hl x (List.mem_cons_of_mem _ hx))
    exact hgo _ s q (fun p hp => linePieces_inside hp)

/-- A read by an engine of a core leaves the blocks, at the home too. -/
theorem engineLoad_home (q : Quiet s core) (pa n : Nat) (home : Bool) :
    s.engineLoad (some core) pa n home = s.engineLoad (some core) pa n false ∧ (s.engineLoad (some core) pa n home).2.blocks = s.blocks := by
  have hgo : ∀ (l : List (Nat × Nat)) (t : State), Quiet t core →
      l.foldl (fun (t : State) p =>
        if home || (some core).isNone then (State.dropOwn (t.takeLine (some (dieOf core)) (lineOf p.1) false) core (lineOf p.1)).refresh (lineOf p.1)
        else State.dropOwn (t.takeLine (some (dieOf core)) (lineOf p.1) false) core (lineOf p.1)) t =
        l.foldl (fun (t : State) p => State.dropOwn (t.takeLine (some (dieOf core)) (lineOf p.1) false) core (lineOf p.1)) t ∧
      (l.foldl (fun (t : State) p => State.dropOwn (t.takeLine (some (dieOf core)) (lineOf p.1) false) core (lineOf p.1)) t).blocks = t.blocks := by
    intro l
    induction l with
    | nil => exact fun _ _ => ⟨rfl, rfl⟩
    | cons p r ih =>
      intro t ht
      have hq : Quiet ((t.takeLine (some (dieOf core)) (lineOf p.1) false).dropOwn core (lineOf p.1)) core :=
        (took_read ht (lineOf p.1)).quiet.mono rfl rfl rfl (fun _ h => h) (fun _ h => h) (fun c hc => (List.mem_filter.mp hc).1)
      obtain ⟨h1, h2⟩ := ih _ hq
      rw [List.foldl_cons, List.foldl_cons, hq.refresh, ite_self]
      exact ⟨h1, h2.trans (take_blocks ht _ _ _)⟩
  obtain ⟨h1, h2⟩ := hgo (linePieces pa n) s q
  have heq : s.engineLoad (some core) pa n home = s.engineLoad (some core) pa n false := congrArg (fun u : State => (bytesAt (u.view (some (dieOf core))) pa n, u)) h1
  exact ⟨heq, by rw [heq]; exact h2⟩

end Quiet

/-! Packets (R118, R124, R161). -/

section Packet
variable {s : State} {o : Op} {b : Block} {out : Bool} {pol : Pol} {ctr : Option Nat} {segs : List CopySeg} {bytes grp n : Nat}
  {x : CopySeg} {pa : Nat}

theorem execCopyWrite_eq (ho : pending s o.id = some o) (n : Nat) : exec (.copyWrite o.id n) s = .next ((s.copyPacket o n).getD s) := by
  have hfind : s.ops.find? (fun x => x.id == o.id) = some o := ho
  show execCopyWrite o.id n s = _
  rw [execCopyWrite, hfind]

/-- The packets left once one is over. -/
def packetsLeft (segs : List CopySeg) (n : Nat) : List CopySeg := segs.take n ++ segs.drop (n + 1)

/-- A packet out to memory. -/
theorem copyPacket_out (hk : o.kind = .copy true pol ctr segs bytes grp) (hb : s.blk o.blk = some b) (hx : segs[n]? = some x)
    (hloc : x.loc = .mem pa) (hbefore : s.copyBefore o true grp (segs.take n) x = false) (hp : b.present (x.la / 128) = true)
    (hd : s.downIn pa x.len = none) :
    s.copyPacket o n = some ((s.engineStore pa (b.lbytes x.la x.len) (pol == .sys)).copyLand o x (packetsLeft segs n) none) := by
  rw [State.copyPacket, hk]
  dsimp only
  rw [hx, hb]
  dsimp only
  have hgo : (s.copyBefore o true grp (segs.take n) x || (true && !b.present (lineOf x.la))) = false := by
    rw [hbefore, hp]
    rfl
  rw [hgo, if_neg Bool.false_ne_true, hloc]
  dsimp only
  rw [if_pos rfl, hd]
  rfl

/-- A packet in from memory. -/
theorem copyPacket_in (hk : o.kind = .copy false pol ctr segs bytes grp) (hb : s.blk o.blk = some b) (hx : segs[n]? = some x)
    (hloc : x.loc = .mem pa) (hbefore : s.copyBefore o false grp (segs.take n) x = false) (hd : s.badIn pa x.len = none) :
    s.copyPacket o n = some ((s.engineLoad (some o.core) pa x.len (pol == .sys)).2.copyLand o x (packetsLeft segs n)
      (some (s.engineLoad (some o.core) pa x.len (pol == .sys)).1)) := by
  rw [State.copyPacket, hk]
  dsimp only
  rw [hx, hb]
  dsimp only
  have hgo : (s.copyBefore o false grp (segs.take n) x || (false && !b.present (lineOf x.la))) = false := by
    rw [hbefore]
    rfl
  rw [hgo, if_neg Bool.false_ne_true, hloc]
  dsimp only
  rw [if_neg Bool.false_ne_true, hd]
  rfl

/-- The last step of a packet: what is left to do, and the counter's gain. -/
def counted (o : Op) (k : OpKind) (ctr : Option Nat) (len : Nat) (s : State) : State :=
  match ctr with
  | some a => (s.setKind o.id k).arcAdd o.blk a len
  | none => s.setKind o.id k

/-- Counting leaves the block but for the counter's bytes and what waits for it, and what the operation has left to do is set. -/
theorem counted_spec {s : State} {c : Block} (hc : s.blk o.blk = some c) (ho : pending s o.id = some o) (k : OpKind) (ctr : Option Nat) (len : Nat) :
    (pending (counted o k ctr len s) o.id).map (·.kind) = some k ∧
      shell (counted o k ctr len s) o.blk = some { (match ctr with
        | some a => c.lwrite a (leBytes 8 ((c.counter a).1 + len))
        | none => c) with spindles := [] } := by
  have hset : (s.setKind o.id k).blk o.blk = some c := hc
  cases ctr with
  | none => exact ⟨pending_setKind ho k, by rw [shell, counted, hset]; rfl⟩
  | some a =>
    have hw := wakes_arcAdd (s.setKind o.id k) hset a len
    refine ⟨?_, ?_⟩
    · rw [counted, pending_congr hw.ops]
      exact pending_setKind ho k
    · rw [counted, hw.shells, shell, blk_lwritten_same hset]
      rfl

theorem copyLand_out (hk : o.kind = .copy out pol ctr segs bytes grp) (s : State) (rest : List CopySeg) :
    s.copyLand o x rest none = counted o (.copy out pol ctr rest bytes grp) ctr x.len s := by
  rw [State.copyLand, hk]
  rfl

/-- The block once a packet's bytes have landed. -/
def landed (x : CopySeg) (rest : List CopySeg) (d : List Byte) (b : Block) : Block :=
  if rest.any (fun y => decide (y.la / 128 = x.la / 128)) then (b.lwrite x.la d).seenAll x.la x.len
  else wakeLines (((b.lwrite x.la d).seenAll x.la x.len).fillEnd (x.la / 128))

theorem lines_eq (x y : CopySeg) : (lineOf y.la == lineOf x.la) = decide (y.la / 128 = x.la / 128) := by
  rw [Bool.eq_iff_iff, beq_iff_eq, decide_eq_true_iff]

theorem wakeLines_shell (b : Block) : { wakeLines b with spindles := [] } = { b with spindles := [] } := rfl

theorem fillEnd_else (b : Block) (l : Nat) : { b.fillEnd l with absent := [], fills := [] } = { b with absent := [], fills := [] } := by
  unfold Block.fillEnd
  dsimp only
  split
  · rfl
  · rfl

/-- A fill ends: the line's count goes down, and its presence bit is set with the last. -/
theorem fillEnd_line (b : Block) (l : Nat) : (b.fillEnd l).fillCount l = b.fillCount l - 1 ∧
    (b.fillEnd l).present l = (b.present l || decide (b.fillCount l ≤ 1)) := by
  unfold Block.fillEnd
  dsimp only
  by_cases hn : b.fillCount l - 1 = 0
  · rw [if_pos hn]
    refine ⟨?_, ?_⟩
    · rw [hn, Block.fillCount]
      dsimp only
      rw [find?_filter_ne]
      rfl
    · have hle : b.fillCount l ≤ 1 := by omega
      rw [decide_eq_true hle, Bool.or_true, Block.present]
      simp
  · rw [if_neg hn]
    refine ⟨?_, ?_⟩
    · rw [Block.fillCount]
      dsimp only
      rw [List.find?_cons, beq_self_eq_true]
      rfl
    · have hle : ¬b.fillCount l ≤ 1 := by omega
      rw [decide_eq_false hle, Bool.or_false]
      rfl

theorem fillEnd_other (b : Block) {l line : Nat} (h : line ≠ l) : (b.fillEnd l).fillCount line = b.fillCount line ∧
    (b.fillEnd l).present line = b.present line := by
  have hfind : (b.fills.filter (fun x => x.1 != l)).find? (fun x => x.1 == line) = b.fills.find? (fun x => x.1 == line) := by
    rw [List.find?_filter]
    congr 1
    funext x
    by_cases hx : x.1 = line
    · simp [hx, h]
    · simp [hx]
  unfold Block.fillEnd
  dsimp only
  by_cases hn : b.fillCount l - 1 = 0
  · rw [if_pos hn]
    refine ⟨?_, ?_⟩
    · rw [Block.fillCount]
      dsimp only
      rw [hfind]
      rfl
    · rw [Block.present, Block.present]
      simp [h]
  · rw [if_neg hn]
    refine ⟨?_, rfl⟩
    rw [Block.fillCount]
    dsimp only
    rw [List.find?_cons, beq_false_of_ne (Ne.symm h), hfind]
    rfl

theorem landed_lbyte (x : CopySeg) (rest : List CopySeg) (d : List Byte) (b : Block) (a : Nat) :
    (landed x rest d b).lbyte a = (b.lwrite x.la d).lbyte a := by
  unfold landed
  split
  · rfl
  · have h := congrArg (fun c : Block => c.lbyte a) (fillEnd_else ((b.lwrite x.la d).seenAll x.la x.len) (x.la / 128))
    exact h

theorem landed_other (x : CopySeg) (rest : List CopySeg) (d : List Byte) (b : Block) {line : Nat} (h : line ≠ x.la / 128) :
    (landed x rest d b).present line = b.present line ∧ (landed x rest d b).fillCount line = b.fillCount line := by
  unfold landed
  split
  · exact ⟨rfl, rfl⟩
  · obtain ⟨h1, h2⟩ := fillEnd_other ((b.lwrite x.la d).seenAll x.la x.len) h
    exact ⟨h2, h1⟩

theorem landed_line (x : CopySeg) (rest : List CopySeg) (d : List Byte) (b : Block) :
    if rest.any (fun y => decide (y.la / 128 = x.la / 128)) then
      (landed x rest d b).present (x.la / 128) = b.present (x.la / 128) ∧ (landed x rest d b).fillCount (x.la / 128) = b.fillCount (x.la / 128)
    else (landed x rest d b).fillCount (x.la / 128) = b.fillCount (x.la / 128) - 1 ∧
      (landed x rest d b).present (x.la / 128) = (b.present (x.la / 128) || decide (b.fillCount (x.la / 128) ≤ 1)) := by
  unfold landed
  split
  · exact ⟨rfl, rfl⟩
  · exact fillEnd_line ((b.lwrite x.la d).seenAll x.la x.len) (x.la / 128)

/-- Bytes elsewhere leave a counter. -/
theorem landed_counter (x : CopySeg) (rest : List CopySeg) (d : List Byte) (b : Block) {c : Nat}
    (h : ¬(x.la < c + 16 ∧ c < x.la + d.length)) : (landed x rest d b).counter c = b.counter c := by
  have hbyte (a : Nat) (h1 : c ≤ a) (h2 : a < c + 16) : (landed x rest d b).lbyte a = b.lbyte a := by
    rw [landed_lbyte, lbyte_lwrite, if_neg (by omega)]
  have hw (a : Nat) (h1 : c ≤ a) (h2 : a + 8 ≤ c + 16) : (landed x rest d b).lbytes a 8 = b.lbytes a 8 :=
    bytesAt_congr fun y k1 k2 => hbyte y (by omega) (by omega)
  rw [Block.counter, hw c (by omega) (by omega), hw (c + 8) (by omega) (by omega), Block.counter]

theorem landed_uid (x : CopySeg) (rest : List CopySeg) (d : List Byte) (b : Block) : (landed x rest d b).uid = b.uid := by
  unfold landed
  split
  · rfl
  · exact (congrArg Block.uid (fillEnd_else ((b.lwrite x.la d).seenAll x.la x.len) (x.la / 128)) :)

theorem copyLand_in (hk : o.kind = .copy out pol ctr segs bytes grp) (s : State) (rest : List CopySeg) (d : List Byte) :
    s.copyLand o x rest (some d) = counted o (.copy out pol ctr rest bytes grp) ctr x.len
      (if rest.any (fun y => decide (y.la / 128 = x.la / 128)) then s.updBlk o.blk (fun b => (b.lwrite x.la d).seenAll x.la x.len)
        else (s.updBlk o.blk (fun b => (b.lwrite x.la d).seenAll x.la x.len)).endFill o.blk (x.la / 128)) := by
  rw [State.copyLand, hk]
  simp only [lines_eq]
  rfl

/-- The state once the bytes of a packet have landed, before it counts. -/
theorem land_spec {s : State} (hb : s.blk o.blk = some b) (ho : pending s o.id = some o) (x : CopySeg) (rest : List CopySeg) (d : List Byte) :
    let w := if rest.any (fun y => decide (y.la / 128 = x.la / 128)) then s.updBlk o.blk (fun b => (b.lwrite x.la d).seenAll x.la x.len)
      else (s.updBlk o.blk (fun b => (b.lwrite x.la d).seenAll x.la x.len)).endFill o.blk (x.la / 128)
    w.blk o.blk = some (landed x rest d b) ∧ pending w o.id = some o := by
  intro w
  have h1 : (s.updBlk o.blk (fun b => (b.lwrite x.la d).seenAll x.la x.len)).blk o.blk = some ((b.lwrite x.la d).seenAll x.la x.len) :=
    blk_updBlk_same hb (fun _ => rfl)
  by_cases hr : (rest.any (fun y => decide (y.la / 128 = x.la / 128))) = true
  · have hw : w = s.updBlk o.blk (fun b => (b.lwrite x.la d).seenAll x.la x.len) := if_pos hr
    rw [hw, landed, if_pos hr]
    exact ⟨h1, ho⟩
  · have hw : w = (s.updBlk o.blk (fun b => (b.lwrite x.la d).seenAll x.la x.len)).endFill o.blk (x.la / 128) := if_neg hr
    rw [hw, landed, if_neg hr]
    refine ⟨blk_updBlk_same h1 fun c => ?_, ho⟩
    exact (congrArg Block.uid (fillEnd_else c (x.la / 128)) :)

/-- A block known but for its spindles. -/
theorem blk_of_bare {t : State} {u : Nat} {c : Block} (h : shell t u = some { c with spindles := [] }) :
    ∃ b', t.blk u = some b' ∧ { b' with spindles := [] } = { c with spindles := [] } := Option.map_eq_some_iff.mp h

/-- COPY_WRITE out of local memory. -/
theorem copyWrite_out (hk : o.kind = .copy true pol ctr segs bytes grp) (ho : pending s o.id = some o) (hb : s.blk o.blk = some b)
    (hx : segs[n]? = some x) (hloc : x.loc = .mem pa) (hbefore : s.copyBefore o true grp (segs.take n) x = false) (q : Quiet s o.core)
    (hp : b.present (x.la / 128) = true) (hd : s.downIn pa x.len = none) :
    ∃ t, exec (.copyWrite o.id n) s = .next t ∧
      (pending t o.id).map (·.kind) = some (.copy true pol ctr (packetsLeft segs n) bytes grp) ∧
      (ctr = none → (∀ a, localByte t o.blk a = localByte s o.blk a) ∧
        ∀ a, seen t o.core a = if pa ≤ a ∧ a < pa + x.len then b.lbyte (x.la + (a - pa)) else seen s o.core a) := by
  have htraffic := traffic_engineStore s pa (b.lbytes x.la x.len) (pol == .sys)
  have hpend : pending (s.engineStore pa (b.lbytes x.la x.len) (pol == .sys)) o.id = some o :=
    (pending_congr (ops_traffic htraffic) o.id).trans ho
  refine ⟨counted o (.copy true pol ctr (packetsLeft segs n) bytes grp) ctr x.len (s.engineStore pa (b.lbytes x.la x.len) (pol == .sys)),
    ?_, ?_, fun hc => ?_⟩
  · rw [execCopyWrite_eq ho, copyPacket_out hk hb hx hloc hbefore hp hd, copyLand_out hk]
    rfl
  · cases ctr with
    | none => exact pending_setKind hpend _
    | some a =>
      obtain ⟨b1, hb1⟩ : ∃ b1, (s.engineStore pa (b.lbytes x.la x.len) (pol == .sys)).blk o.blk = some b1 := by
        have hbare := bareOf_traffic htraffic o.blk
        rw [bareOf, bareOf, hb] at hbare
        obtain ⟨b1, h1, -⟩ := Option.map_eq_some_iff.mp hbare
        exact ⟨b1, h1⟩
      exact (counted_spec hb1 hpend _ (some a) x.len).1
  · subst hc
    refine ⟨fun a => localByte_traffic htraffic o.blk a, fun a => ?_⟩
    have hseen : seen (counted o (.copy true pol none (packetsLeft segs n) bytes grp) none x.len
        (s.engineStore pa (b.lbytes x.la x.len) (pol == .sys))) o.core a =
        seen (s.engineStore pa (b.lbytes x.la x.len) (pol == .sys)) o.core a := rfl
    rw [hseen, engineStore_home q, engineStore_quiet q, Block.lbytes, length_bytesAt]
    split
    · rw [bytesAt, List.getElem?_map, List.getElem?_range (by omega)]
      rfl
    · rfl

/-- COPY_WRITE into local memory. -/
theorem copyWrite_in (hk : o.kind = .copy false pol ctr segs bytes grp) (ho : pending s o.id = some o) (hb : s.blk o.blk = some b)
    (hx : segs[n]? = some x) (hloc : x.loc = .mem pa) (hbefore : s.copyBefore o false grp (segs.take n) x = false) (q : Quiet s o.core)
    (hd : s.badIn pa x.len = none) :
    ∃ t b', exec (.copyWrite o.id n) s = .next t ∧ t.blk o.blk = some b' ∧
      (pending t o.id).map (·.kind) = some (.copy false pol ctr (packetsLeft segs n) bytes grp) ∧
      { b' with spindles := [] } = { (match ctr with
        | some a => (landed x (packetsLeft segs n) (bytesAt (seen s o.core) pa x.len) b).lwrite a
            (leBytes 8 (((landed x (packetsLeft segs n) (bytesAt (seen s o.core) pa x.len) b).counter a).1 + x.len))
        | none => landed x (packetsLeft segs n) (bytesAt (seen s o.core) pa x.len) b) with spindles := [] } := by
  obtain ⟨hhome, hblocks⟩ := engineLoad_home q pa x.len (pol == .sys)
  have htraffic := traffic_engineLoad s (some o.core) pa x.len (pol == .sys)
  have hpend : pending (s.engineLoad (some o.core) pa x.len (pol == .sys)).2 o.id = some o :=
    (pending_congr (ops_traffic htraffic) o.id).trans ho
  have hblk : (s.engineLoad (some o.core) pa x.len (pol == .sys)).2.blk o.blk = some b := by
    rw [State.blk, hblocks]
    exact hb
  have hval : (s.engineLoad (some o.core) pa x.len (pol == .sys)).1 = bytesAt (seen s o.core) pa x.len := by
    rw [hhome]
    exact engineLoad_quiet q pa x.len
  obtain ⟨hw, hwp⟩ := land_spec hblk hpend x (packetsLeft segs n) (bytesAt (seen s o.core) pa x.len)
  obtain ⟨hkind, hshell⟩ := counted_spec hw hwp (.copy false pol ctr (packetsLeft segs n) bytes grp) ctr x.len
  obtain ⟨b', hb', helse⟩ := blk_of_bare hshell
  exact ⟨_, b', by rw [execCopyWrite_eq ho, copyPacket_in hk hb hx hloc hbefore hd, copyLand_in hk, hval]; rfl, hb', hkind, helse⟩

end Packet

/-- Settles O23: the issue slot by slot, and a packet's landing in either direction. -/
theorem copies : Obligations.Copies := by
  unfold Obligations.Copies
  refine ⟨?issue, ?packet⟩
  case issue =>
    intro s e pol out ctr l base off count shp job segs h n op touched after
    obtain ⟨-, hb, -, -⟩ := env_found h
    refine ⟨fun hall => ?cpy, ?cpyw⟩
    case cpy =>
      obtain ⟨h1, h2, ⟨b', h3, h4⟩, h5, h6⟩ := issueCopies_spec (out := out) (pol := pol) (ctr := ctr) (grp := s.nextId) job e.r.exec hb
      refine ⟨_, ?_, ⟨h1, h2, b', h3, h4.else_, fun line => ⟨h4.count line, h4.present line⟩⟩, h6⟩
      show execCpy pol out ctr l base off count s = _
      rw [execCpy, within_env h, checkSlots_ok (g := job) fun k hk => ?_]
      obtain ⟨hle, hz, hnz⟩ := hall k hk
      have hsmall : ¬2 ^ 20 < (e.read32 count k).toNat := Nat.not_lt.mpr hle
      dsimp only
      rw [if_neg hsmall]
      by_cases hn : (e.read32 count k).toNat = 0
      · rw [if_pos (beq_iff_eq.mpr hn), hz hn]
      · rw [if_neg (by simpa using hn)]
        exact (hnz hn).2
    case cpyw =>
      intro w pitch rows bytes hr hby hlim hpitch hne hcheck
      obtain ⟨h1, h2, ⟨b', h3, h4⟩, h5, h6⟩ := issueCopy_spec (out := out) (pol := pol) (ctr := ctr) (grp := s.nextId) hb e.r.exec hne
      refine ⟨_, ?_, ⟨h1, h2, b', h3, h4.else_, fun line => ⟨h4.count line, h4.present line⟩⟩, h6⟩
      have hrows : (w.extractLsb' 16 16).toNat = rows := by simp [rows, BitVec.extractLsb'_toNat, Nat.shiftRight_eq_div_pow]
      have hbytes : (w.extractLsb' 0 16).toNat = bytes := by simp [bytes, BitVec.extractLsb'_toNat]
      have hpit : (hi32 w).toNat = pitch := by
        have hw := w.isLt
        simp only [hi32, pitch, BitVec.extractLsb'_toNat, Nat.shiftRight_eq_div_pow]
        omega
      show execCpyw pol out ctr l base off shp s = _
      rw [execCpyw, within_env h]
      dsimp only
      rw [show (e.readU shp) = w from rfl, hrows, hbytes, hpit]
      have hgo : ¬((rows == 0 || bytes == 0 || decide (2 ^ 20 < rows * bytes) || decide (pitch < bytes)) = true) := by
        simp only [Bool.or_eq_true, beq_iff_eq, decide_eq_true_eq]
        omega
      rw [if_neg hgo, hcheck]
  case packet =>
    intro s o b out pol ctr segs bytes grp n x pa ho hk hb hx hloc hbefore q rest
    refine ⟨fun hout hp hd => ?_, fun hout hd => ?_⟩
    · subst hout
      exact copyWrite_out hk ho hb hx hloc hbefore q hp hd
    · subst hout
      obtain ⟨t, b', ht, hb', hkind, helse⟩ := copyWrite_in hk ho hb hx hloc hbefore q hd
      have hpresent (line : Nat) : b'.present line = (landed x (packetsLeft segs n) (bytesAt (seen s o.core) pa x.len) b).present line := by
        have h := congrArg (fun c : Block => c.present line) helse
        cases ctr with
        | none => exact h
        | some a => exact h
      have hfills (line : Nat) : b'.fillCount line = (landed x (packetsLeft segs n) (bytesAt (seen s o.core) pa x.len) b).fillCount line := by
        have h := congrArg (fun c : Block => c.fillCount line) helse
        cases ctr with
        | none => exact h
        | some a => exact h
      refine ⟨t, b', ht, hb', hkind, fun hc a => ?_, fun line hl => ?_, ?_, fun c hc hap => ?_⟩
      · subst hc
        have h : b'.lbyte a = (landed x (packetsLeft segs n) (bytesAt (seen s o.core) pa x.len) b).lbyte a := by
          have h := congrArg (fun c : Block => c.lbyte a) helse
          exact h
        rw [h, landed_lbyte, lbyte_lwrite, length_bytesAt]
        split
        · rw [bytesAt, List.getElem?_map, List.getElem?_range (by omega)]
          rfl
        · rfl
      · rw [hpresent, hfills]
        exact landed_other x _ _ b hl
      · rw [hpresent, hfills]
        exact landed_line x _ _ b
      · subst hc
        have hcount : b'.counter c = _ := Eq.trans (by have h := congrArg (fun d : Block => d.counter c) helse; exact h) (counter_lwrite _ c _)
        rw [landed_counter x _ _ b (by rw [length_bytesAt]; exact hap)] at hcount
        rw [hcount]
        exact ⟨rfl, rfl⟩

end Sys2Proof.Safety
end

section
/-! PROOF. Local accesses (R117 to R119, R124, R246, R256, R257). -/

namespace Sys2Proof.Safety
open Sys2Proof.Machine

/-! Loads of local memory (R119, R246). -/

/-- A bit vector's number of either sign is read as R243 says. -/
theorem signExtend_ofNat (w : Nat) (v : Nat) (hw : 0 < w) (hv : v < 2 ^ w) :
    (BitVec.ofNat w v).signExtend 32 = BitVec.ofInt 32 (if v < 2 ^ (w - 1) then (v : Int) else (v : Int) - 2 ^ w) := by
  rw [BitVec.signExtend, BitVec.toInt_eq_toNat_cond, BitVec.toNat_ofNat, Nat.mod_eq_of_lt hv]
  have hp : 2 ^ w = 2 * 2 ^ (w - 1) := by rw [← Nat.pow_succ']; congr 1; omega
  congr 1
  by_cases h : v < 2 ^ (w - 1)
  · rw [if_pos (by omega), if_pos h]
  · rw [if_neg (by omega), if_neg h]
    push_cast
    rfl

theorem leNat_bytesAt_lt (f : Nat → Byte) (a n : Nat) : leNat (bytesAt f a n) < 2 ^ (8 * n) := by
  have h := leNat_lt (bytesAt f a n)
  rwa [length_bytesAt, show 256 = 2 ^ 8 from rfl, ← Nat.pow_mul] at h

/-- R243: the words of a load of as many bytes as its size says. -/
theorem loadWords_bytesAt (sz : Size) (f : Nat → Byte) (a : Nat) :
    loadWords sz (bytesAt f a sz.bytes) = loaded sz (bytesAt f a sz.bytes) := by
  cases sz with
  | i8 =>
    exact congrArg (fun w : Word => [w]) (signExtend_ofNat 8 _ (by decide) (leNat_bytesAt_lt f a 1))
  | i16 =>
    exact congrArg (fun w : Word => [w]) (signExtend_ofNat 16 _ (by decide) (leNat_bytesAt_lt f a 2))
  | b128 => simp [loadWords, loaded, List.range_succ]
  | b8 | b16 | b32 | b64 => rfl

section Load
variable {s : State} {e : Env}

/-- Every line that ranges of one length touch is that of an address in one of them. -/
theorem linesOf_inside {l : List (Nat × Nat)} {n x : Nat} (h : x ∈ linesOf l n) : ∃ y ∈ l, ∃ i, i < n ∧ x = (y.2 + i) / 128 := by
  rw [linesOf, List.mem_eraseDups, List.mem_flatMap] at h
  obtain ⟨y, hy, hx⟩ := h
  obtain ⟨i, hi⟩ := linesOf_mem (j := y.1) (a := y.2) (n := n) (l := x) (by
    rw [linesOf, List.mem_eraseDups, List.flatMap_singleton]
    exact hx)
  exact ⟨y, hy, i, hi⟩

/-- The lines of one range are among those of all. -/
theorem linesOf_one {l : List (Nat × Nat)} {n i : Nat} {x : Nat × Nat} (hx : x ∈ l) (hi : i ∈ linesOf [x] n) : i ∈ linesOf l n := by
  rw [linesOf, List.mem_eraseDups, List.flatMap_singleton] at hi
  rw [linesOf, List.mem_eraseDups, List.mem_flatMap]
  exact ⟨x, hx, hi⟩

/-- No fill starts where no line of the ranges asks for one. -/
theorem fillsOk_none {l : List (Nat × Nat)} {n : Nat} (h : ∀ x ∈ linesOf l n, e.b.present x = true ∨ e.b.stashAt (128 * x) = none) :
    s.fillsOk e l n = .ok [] := by
  have hun (j : Nat) : e.b.unfilled (linesOf (l.filter (fun x => x.1 == j)) n) = [] := by
    rw [Block.unfilled, List.filter_eq_nil_iff.mpr]
    · rfl
    · intro x hx
      have hin : x ∈ linesOf l n := by
        rw [linesOf, List.mem_eraseDups, List.mem_flatMap] at hx ⊢
        obtain ⟨y, hy, hx⟩ := hx
        exact ⟨y, List.mem_of_mem_filter hy, hx⟩
      obtain h | h := h x hin <;> simp [h]
  rw [State.fillsOk, checkSlots_ok (g := fun _ => []) fun j _ => by rw [hun]; rfl]
  dsimp only
  rw [List.flatMap_eq_nil_iff.mpr]
  · rfl
  · intro x hx
    obtain ⟨k, -, rfl⟩ := List.mem_map.mp hx
    rfl

theorem firstSome_none {α : Type} {l : List (Option α)} (h : ∀ x ∈ l, x = none) : firstSome l = none := by
  induction l with
  | nil => rfl
  | cons x r ih =>
    rw [h x List.mem_cons_self]
    exact ih fun y hy => h y (List.mem_cons_of_mem _ hy)

theorem badStash_present {l : List (Nat × Nat)} {n : Nat} (h : ∀ x ∈ linesOf l n, e.b.present x = true) : s.badStash e l n = none := by
  refine firstSome_none fun y hy => ?_
  obtain ⟨x, hx, rfl⟩ := List.mem_map.mp hy
  refine firstSome_none fun z hz => ?_
  obtain ⟨i, hi, rfl⟩ := List.mem_map.mp hz
  rw [h i (linesOf_one hx hi), Bool.true_or]
  rfl

/-- Local addresses that lie in the block's reservation pass their checks. -/
theorem localOks {at_ : Nat → Nat} {n : Nat} (h : ∀ k ∈ e.r.exec, at_ k + n ≤ e.b.lsize) :
    checkSlots (fun k => e.localOk (at_ k) n) e.r.exec = .ok (e.r.exec.map fun k => (k, at_ k)) :=
  checkSlots_ok fun k hk => if_pos (h k hk)

/-- R246: a load of lines that are present completes. -/
theorem ldl_issues {d : BitVec 7} {sz : Size} {m : MemOp} (h : s.env = some e)
    (hl : ∀ k ∈ e.r.exec, e.laddr m sz.bytes k + sz.bytes ≤ e.b.lsize ∧
      ∀ i, i < sz.bytes → e.b.present ((e.laddr m sz.bytes k + i) / 128) = true) :
    ∃ t f, exec (.ldl d sz m) s = .next t ∧ Issued s t e d.toNat sz.regs f ∧
      ∀ k, f k = loaded sz (bytesAt (fun a => (ownByte s e.b.uid e.sp.m a).getD 0) (e.laddr m sz.bytes k) sz.bytes) := by
  obtain ⟨-, hb, -, -⟩ := env_found h
  have hpres : ∀ x ∈ linesOf (e.r.exec.map fun k => (k, e.laddr m sz.bytes k)) sz.bytes, e.b.present x = true := fun x hx => by
    obtain ⟨y, hy, i, hi, rfl⟩ := linesOf_inside hx
    obtain ⟨k, hk, rfl⟩ := List.mem_map.mp hy
    exact (hl k hk).2 i hi
  have hmiss : (linesOf (e.r.exec.map fun k => (k, e.laddr m sz.bytes k)) sz.bytes).filter (fun x => !e.b.present x) = [] :=
    List.filter_eq_nil_iff.mpr fun x hx => by simp [hpres x hx]
  have hexec : exec (.ldl d sz m) s = .next
      (s.issueRegs e d.toNat sz.regs (fun j => loadWords sz (e.b.lread e.sp.m (e.laddr m sz.bytes j) sz.bytes))) := by
    change execLdl d sz m s = _
    rw [execLdl, within_env h, localOks fun k hk => (hl k hk).1]
    dsimp only
    rw [fillsOk_none fun x hx => .inl (hpres x hx)]
    dsimp only
    rw [badStash_present hpres, hmiss, List.isEmpty_nil]
    rfl
  exact ⟨_, _, hexec, issueRegs_spec h _ _ _, fun k => by rw [lread_own hb, loadWords_bytesAt]⟩

end Load

/-! Lines made absent (R257, R124). -/

/-- The lines of a range are those of its addresses. -/
theorem mem_rangeLines {a n x : Nat} : x ∈ (linePieces a n).map (fun p => lineOf p.1) ↔ ∃ i, i < n ∧ (a + i) / 128 = x := by
  rw [List.mem_map]
  constructor
  · rintro ⟨p, hp, rfl⟩
    obtain ⟨h1, h2⟩ := cutAt_within (by decide) _ _ _ p hp
    exact ⟨p.1 - a, by omega, by rw [Nat.add_sub_cancel' h1]⟩
  · rintro ⟨i, hi, rfl⟩
    obtain ⟨p, hp, hl⟩ := cutAt_covers (n / 128 + 2) a n (a + i) (by omega) (by omega) (by omega)
    exact ⟨p, hp, hl⟩

section Clear
variable {s : State} {e : Env}

theorem pclrRange_ok {a n : Nat} (h : n ≠ 0 → a + n ≤ e.b.lsize ∧ ∀ x ∈ e.b.stash, ¬(x.l < a + n ∧ a < x.l + x.bytes)) :
    e.pclrRange a n = .ok ((linePieces a n).map (fun p => lineOf p.1)) := by
  rw [Env.pclrRange]
  by_cases hn : n = 0
  · subst hn
    rfl
  · obtain ⟨hl, hs⟩ := h hn
    have hany : e.b.stash.any (fun m => decide (m.l < a + n) && decide (a < m.l + m.bytes)) = false :=
      List.any_eq_false.mpr fun x hx => by simpa using hs x hx
    rw [if_neg (by simpa using hn), if_neg]
    rw [hany]
    simpa using hl

/-- `pclr`. -/
theorem pclr_clears {m : MemOp} {len : Sel} (h : s.env = some e)
    (hl : ∀ k ∈ e.r.exec, (e.readU len).toNat ≠ 0 → e.laddr m 1 k + (e.readU len).toNat ≤ e.b.lsize ∧
      ∀ x ∈ e.b.stash, ¬(x.l < e.laddr m 1 k + (e.readU len).toNat ∧ e.laddr m 1 k < x.l + x.bytes)) :
    ∃ t b, exec (.pclr m len) s = .next t ∧ t.blk e.b.uid = some b ∧
      t = { s with blocks := t.blocks } ∧ { b with absent := e.b.absent } = e.b ∧ (∀ u', u' ≠ e.b.uid → t.blk u' = s.blk u') ∧
      ∀ x, b.present x = (e.b.present x && decide (∀ k ∈ e.r.exec, ∀ i < (e.readU len).toNat, (e.laddr m 1 k + i) / 128 ≠ x)) := by
  generalize hls : (e.r.exec.map fun k => (k, (linePieces (e.laddr m 1 k) (e.readU len).toNat).map (fun p => lineOf p.1))).flatMap (·.2) = ls
  obtain ⟨habs, hpres⟩ := clearLines_spec ls e.b
  have hexec : exec (.pclr m len) s = .next (s.updBlk e.b.uid (fun b => ls.foldl (fun b x => b.clearLine x) b)) := by
    change execPclr m len s = _
    rw [execPclr, within_env h, checkSlots_ok fun k hk => pclrRange_ok (hl k hk), ← hls]
  obtain ⟨hsame, hother⟩ := blk_updBlk_env h (fun b => ls.foldl (fun b x => b.clearLine x) b)
    (fun b => (congrArg Block.uid (clearLines_spec ls b).1 :))
  refine ⟨_, ls.foldl (fun b x => b.clearLine x) e.b, hexec, hsame, rfl, habs, hother, fun x => ?_⟩
  · have hmem : x ∈ ls ↔ ∃ k ∈ e.r.exec, ∃ i, i < (e.readU len).toNat ∧ (e.laddr m 1 k + i) / 128 = x := by
      rw [← hls, List.mem_flatMap]
      constructor
      · rintro ⟨y, hy, hx⟩
        obtain ⟨k, hk, rfl⟩ := List.mem_map.mp hy
        exact ⟨k, hk, mem_rangeLines.mp hx⟩
      · rintro ⟨k, hk, hi⟩
        exact ⟨_, List.mem_map.mpr ⟨k, hk, rfl⟩, mem_rangeLines.mpr hi⟩
    refine (hpres x).trans (congrArg (e.b.present x && ·) ?_)
    rw [Bool.eq_iff_iff, Bool.not_eq_true', decide_eq_true_eq, ← Bool.not_eq_true, List.contains_iff_mem, hmem]
    push Not
    rfl

end Clear

/-! Stores to local memory (R118, R151, R156, R246). -/

/-- A block but for what a local store changes. -/
def unstored (b : Block) : Block := { b with lmem := [], dirty := [], unseen := [], late := [] }

/-- A byte with a store laid over it. -/
def laid (pa : Nat) (d : List Byte) (a : Nat) (old : Byte) : Byte :=
  if pa ≤ a ∧ a < pa + d.length then (d[a - pa]?).getD old else old

/-- A local byte as a spindle sees it (R156). -/
def ownOf (b : Block) (m a : Nat) : Byte := (b.late.filter (fun x => x.m == m)).foldl (fun old x => laid x.addr x.data a old) (b.lbyte a)

theorem ownByte_blk {s : State} {u : Nat} {b : Block} (hb : s.blk u = some b) (m a : Nat) : ownByte s u m a = some (ownOf b m a) := by
  rw [ownByte, hb]
  rfl

theorem localByte_blk {s : State} {u : Nat} {b : Block} (hb : s.blk u = some b) (a : Nat) : localByte s u a = some (b.lbyte a) := by
  rw [localByte, hb, Option.map_some]

namespace LocalOnly

theorem refl (s : State) (u : Nat) : LocalOnly s s u := ⟨rfl, fun _ h => h, rfl, fun _ _ => rfl, id⟩

theorem trans {s t w : State} {u : Nat} (h : LocalOnly s t u) (k : LocalOnly t w u) : LocalOnly s w u where
  rest := by
    have hk := k.rest
    rw [h.rest] at hk
    exact hk
  copies c hc := h.copies c (k.copies c hc)
  blocks := k.blocks.trans h.blocks
  others v hv := (h.others v hv).trans (k.others v hv)
  memory := k.memory ∘ h.memory

theorem foldl {α : Type} {f : State → α → State} {u : Nat} (h : ∀ t x, LocalOnly t (f t x) u) (l : List α) (s : State) :
    LocalOnly s (l.foldl f s) u := by
  induction l generalizing s with
  | nil => exact .refl s u
  | cons x r ih => exact (h s x).trans (ih _)

theorem updBlk (s : State) (u : Nat) {f : Block → Block} (hf : ∀ b, unstored (f b) = unstored b)
    (hw : ∀ b, Memory.wf b.lmem = true → Memory.wf (f b).lmem = true) : LocalOnly s (s.updBlk u f) u where
  rest := rfl
  copies _ hc := hc
  blocks := by
    rw [State.updBlk, List.map_map]
    refine List.map_congr_left fun b _ => ?_
    dsimp only [Function.comp]
    split
    · exact hf b
    · rfl
  others v hv := by
    rw [State.blk_updBlk s u v f fun b => (congrArg Block.uid (hf b) :)]
    cases hb : s.blk v with
    | none => rfl
    | some b => rw [Option.map_some, if_neg (by simpa [State.blk_uid hb] using hv)]
  memory h := ⟨h.1, fun b hb => by
    obtain ⟨c, hc, rfl⟩ := List.mem_map.mp hb
    split
    · exact hw c (h.2 c hc)
    · exact h.2 c hc⟩

theorem dropL1 (s : State) (line u : Nat) : LocalOnly s (s.dropL1 line) u :=
  ⟨rfl, fun _ hc => List.mem_of_mem_filter hc, rfl, fun _ _ => rfl, id⟩

end LocalOnly

/-- A state after local stores to block `u`, and the block as it stands then. -/
structure StoredTo (s t : State) (u : Nat) (b b' : Block) : Prop where
  found : t.blk u = some b'
  kept : unstored b' = unstored b
  only : LocalOnly s t u

theorem StoredTo.trans {s t w : State} {u : Nat} {b b' b'' : Block} (h : StoredTo s t u b b') (k : StoredTo t w u b' b'') :
    StoredTo s w u b b'' := ⟨k.found, k.kept.trans h.kept, h.only.trans k.only⟩

section Stores
variable {s : State} {u : Nat} {b : Block} (hb : s.blk u = some b)
include hb

theorem storedTo_updBlk {f : Block → Block} (hf : ∀ b, unstored (f b) = unstored b)
    (hw : ∀ b, Memory.wf b.lmem = true → Memory.wf (f b).lmem = true) : StoredTo s (s.updBlk u f) u b (f b) :=
  ⟨blk_updBlk_same hb fun b => (congrArg Block.uid (hf b) :), hf b, .updBlk s u hf hw⟩

theorem storedTo_localWrite (a : Nat) (d : List Byte) : StoredTo s (s.localWrite u a d) u b (b.lwrite a d) := by
  have hw := storedTo_updBlk hb (f := fun b => b.lwrite a d) (fun _ => rfl) (fun b h => Memory.setMany_wf h a d)
  have hx (l : List (Nat × Nat)) (t : State) : (l.foldl (fun t x => t.dropL1 x.2) t).blk u = t.blk u := by
    induction l generalizing t with
    | nil => rfl
    | cons x r ih => exact ih _
  rw [State.localWrite, hb]
  exact ⟨(hx _ _).trans hw.found, hw.kept, hw.only.trans (.foldl (f := fun t (x : Nat × Nat) => t.dropL1 x.2) (fun t x => .dropL1 t x.2 u) _ _)⟩

omit hb in
theorem lbyte_lwrite_laid (b : Block) (pa : Nat) (d : List Byte) (a : Nat) : (b.lwrite pa d).lbyte a = laid pa d a (b.lbyte a) := by
  rw [lbyte_lwrite, laid]
  split
  · rw [List.getElem?_eq_getElem (by omega)]
    rfl
  · rfl

/-- A store that is performed. -/
theorem seenStl_spec (x : LateStl) :
    ∃ b', StoredTo s (s.seenStl u x) u b b' ∧ b'.late = b.late ∧ ∀ a, b'.lbyte a = laid x.addr x.data a (b.lbyte a) := by
  have hh : ∀ b : Block, { b.hide x.m x.slot x.addr x.data.length with unseen := [] } = { b with unseen := [] } := fun b => by
    rw [Block.hide]
    split <;> rfl
  have hf := storedTo_updBlk hb (f := fun b => b.hide x.m x.slot x.addr x.data.length)
    (fun b => (congrArg unstored (hh b) :))
    (fun b h => by rw [show (b.hide x.m x.slot x.addr x.data.length).lmem = b.lmem from (congrArg Block.lmem (hh b) :)]; exact h)
  have hw := storedTo_localWrite hf.found x.addr x.data
  refine ⟨_, hf.trans hw, (congrArg Block.late (hh b) :), fun a => ?_⟩
  rw [lbyte_lwrite_laid]
  exact congrArg (laid x.addr x.data a) (congrArg (fun c : Block => c.lbyte a) (hh b) :)

/-- Stores performed one after another. -/
theorem seenStls_spec (l : List LateStl) :
    ∃ b', StoredTo s (l.foldl (fun t x => t.seenStl u x) s) u b b' ∧ b'.late = b.late ∧
      ∀ a, b'.lbyte a = l.foldl (fun old x => laid x.addr x.data a old) (b.lbyte a) := by
  induction l generalizing s b with
  | nil => exact ⟨b, ⟨hb, rfl, .refl s u⟩, rfl, fun _ => rfl⟩
  | cons x r ih =>
    obtain ⟨b1, h1, hlate1, hbyte1⟩ := seenStl_spec hb x
    obtain ⟨b2, h2, hlate2, hbyte2⟩ := ih h1.found
    exact ⟨b2, h1.trans h2, hlate2.trans hlate1, fun a => by rw [hbyte2, hbyte1, List.foldl_cons]⟩

/-- A spindle's late stores are performed: the others see what it saw. -/
theorem landNow_spec (m : Nat) :
    ∃ b', StoredTo s (s.landNow u (· == m)) u b b' ∧ b'.late.filter (fun x => x.m == m) = [] ∧ ∀ a, b'.lbyte a = ownOf b m a := by
  rw [State.landNow, hb]
  dsimp only
  split
  · have h0 := storedTo_updBlk hb (f := fun b => { b with late := b.late.filter (fun x => !(x.m == m)) }) (fun _ => rfl) (fun _ h => h)
    obtain ⟨b', h1, hlate, hbyte⟩ := seenStls_spec h0.found (b.late.filter (fun x => x.m == m))
    refine ⟨b', h0.trans h1, ?_, hbyte⟩
    rw [hlate]
    exact List.filter_eq_nil_iff.mpr fun x hx => by simpa using (List.mem_filter.mp hx).2
  · rename_i hnone
    have hown : b.late.filter (fun x => x.m == m) = [] :=
      List.filter_eq_nil_iff.mpr fun x hx hm => hnone (List.any_eq_true.mpr ⟨x, hx, hm⟩)
    exact ⟨b, ⟨hb, rfl, .refl s u⟩, hown, fun a => by rw [ownOf, hown]; rfl⟩

end Stores

section Stl
variable {s : State} {e : Env} {b : Block}

/-- What a store of `n` bytes at `a` by a spindle does to a block: the spindle sees it, the others at once, or, of a spindle
whose stores are seen late, not yet. -/
structure SeesStl (e : Env) (g : Nat → Byte → Byte) (plain : Prop) (b b' : Block) : Prop where
  own : ∀ a, ownOf b' e.sp.m a = g a (ownOf b e.sp.m a)
  atOnce : e.b.slow.contains e.sp.m = false → ∀ a, b'.lbyte a = ownOf b' e.sp.m a
  later : e.b.slow.contains e.sp.m = true → plain → ∀ a, b'.lbyte a = b.lbyte a

/-- R151, R156: one slot's `stl`. -/
theorem stlOne_spec (hb : s.blk e.b.uid = some b) (hk : unstored b = unstored e.b) (ins slot pa : Nat) (d : List Byte) :
    ∃ b', StoredTo s (s.stlOne e ins slot pa d) e.b.uid b b' ∧
      SeesStl e (laid pa d) (∀ i, i < d.length → e.b.stashAt (pa + i) = none) b b' := by
  have hslow : b.slow = e.b.slow := (congrArg Block.slow hk :)
  have hstash (a : Nat) : b.stashAt a = e.b.stashAt a := (congrArg (fun c : Block => c.stashAt a) hk :)
  have hall : (∀ i, i < d.length → e.b.stashAt (pa + i) = none) → (linePieces pa d.length).all (fun p => (b.stashAt p.1).isNone) = true :=
    fun hplain => List.all_eq_true.mpr fun p hp => by
      obtain ⟨h1, h2⟩ := cutAt_within (by decide) _ _ _ p hp
      rw [hstash, ← Nat.add_sub_cancel' h1, hplain _ (by omega)]
      rfl
  rw [State.stlOne, hb, Option.any_some, hslow]
  split
  · rename_i hlate
    have h0 := storedTo_updBlk hb (f := fun b => { b with late := b.late ++ [{ m := e.sp.m, slot := slot, addr := pa, data := d, ins := ins }] })
      (fun _ => rfl) (fun _ h => h)
    refine ⟨_, h0, fun a => ?_, fun hn => ?_, fun _ _ _ => rfl⟩
    · rw [ownOf, ownOf, List.filter_append, List.foldl_append, List.filter_cons_of_pos (by simp)]
      rfl
    · rw [hn] at hlate
      cases hlate
  · rename_i hseen
    obtain ⟨b1, h1, hnone, hland⟩ := landNow_spec hb e.sp.m
    obtain ⟨b2, h2, hlate, hbyte⟩ := seenStl_spec h1.found { m := e.sp.m, slot := slot, addr := pa, data := d, ins := ins }
    have hown (a : Nat) : ownOf b2 e.sp.m a = b2.lbyte a := by
      rw [ownOf, hlate, hnone]
      rfl
    refine ⟨b2, h1.trans h2, fun a => ?_, fun _ a => (hown a).symm, fun hs hplain => ?_⟩
    · rw [hown, hbyte, hland]
    · exact absurd (Bool.and_eq_true_iff.mpr ⟨hs, hall hplain⟩) hseen

/-- What one instruction's stores make of a byte. -/
def laidAll (f : Nat × Nat → List Byte) (l : List (Nat × Nat)) (a : Nat) (old : Byte) : Byte :=
  l.foldl (fun old x => laid x.2 (f x) a old) old

theorem stlAll_spec (f : Nat × Nat → List Byte) (ins : Nat) {l : List (Nat × Nat)} (hne : l ≠ []) (hb : s.blk e.b.uid = some b)
    (hk : unstored b = unstored e.b) :
    ∃ b', StoredTo s (l.foldl (fun t x => t.stlOne e ins x.1 x.2 (f x)) s) e.b.uid b b' ∧
      SeesStl e (laidAll f l) (∀ x ∈ l, ∀ i, i < (f x).length → e.b.stashAt (x.2 + i) = none) b b' := by
  induction l generalizing s b with
  | nil => exact absurd rfl hne
  | cons x r ih =>
    obtain ⟨b1, h1, hs1⟩ := stlOne_spec hb hk ins x.1 x.2 (f x)
    by_cases hr : r = []
    · subst hr
      exact ⟨b1, h1, hs1.own, hs1.atOnce, fun hs hp => hs1.later hs (hp x List.mem_cons_self)⟩
    · obtain ⟨b2, h2, hs2⟩ := ih hr h1.found (h1.kept.trans hk)
      refine ⟨b2, h1.trans h2, fun a => ?_, hs2.atOnce, fun hs hp a => ?_⟩
      · rw [hs2.own, hs1.own]
        rfl
      · rw [hs2.later hs (fun y hy => hp y (List.mem_cons_of_mem _ hy)), hs1.later hs (hp x List.mem_cons_self)]

theorem regionStl_none {l : List (Nat × Nat)} {n : Nat} (h : ∀ x ∈ linesOf l n, e.b.stashAt (128 * x) = none ∨
    ∀ p, s.stashLine e.b x = some p → s.inRegion (128 * p) 128 = false) : s.regionStl e l n = none := by
  refine firstSome_none fun y hy => ?_
  obtain ⟨x, hx, rfl⟩ := List.mem_map.mp hy
  refine firstSome_none fun z hz => ?_
  obtain ⟨i, hi, rfl⟩ := List.mem_map.mp hz
  rw [if_neg]
  intro hc
  obtain ⟨hst, hreg⟩ := Bool.and_eq_true_iff.mp hc
  obtain hnone | hout := h i (linesOf_one hx hi)
  · rw [hnone] at hst
    cases hst
  · cases hp : s.stashLine e.b i with
    | none =>
      rw [hp] at hreg
      cases hreg
    | some p =>
      rw [hp, Option.any_some, hout p hp] at hreg
      cases hreg

theorem length_data (sz : Size) (x : Sel) (k : Nat) : (e.data sz x k).length = sz.bytes := by
  cases sz with
  | b128 => cases x <;> simp [Env.data, length_leBytes, Size.bytes, List.length_flatMap]
  | b8 | i8 | b16 | i16 | b32 | b64 => exact length_leBytes _ _

/-- An instruction is executed in a slot at least. -/
theorem env_exec (h : s.env = some e) : e.r.exec ≠ [] := by
  obtain ⟨hr, -, -, -⟩ := env_found h
  rw [State.env] at h
  split at h
  · rename_i hc
    rw [hr]
    intro hn
    rw [hn] at hc
    simp at hc
  · cases h

/-- R118, R121, R246: a store to lines of scratchpad, or to lines of a stash that are present, completes. -/
theorem stl_stores {sz : Size} {m : MemOp} {data : Sel} (h : s.env = some e)
    (hl : ∀ k ∈ e.r.exec, e.laddr m sz.bytes k + sz.bytes ≤ e.b.lsize ∧ ∀ i, i < sz.bytes →
      let line := (e.laddr m sz.bytes k + i) / 128
      e.b.stashAt (128 * line) = none ∨ (e.b.present line = true ∧
        ∀ p, s.stashLine e.b line = some p → s.inRegion (128 * p) 128 = false)) :
    ∃ t, exec (.stl sz m data) s = .next t ∧ LocalOnly s t e.b.uid ∧
      (∀ a, ownByte t e.b.uid e.sp.m a = (ownByte s e.b.uid e.sp.m a).map (fun x => e.r.exec.foldl (fun old k =>
        if e.laddr m sz.bytes k ≤ a ∧ a < e.laddr m sz.bytes k + sz.bytes then
          ((e.data sz data k)[a - e.laddr m sz.bytes k]?).getD old else old) x)) ∧
      (e.b.slow.contains e.sp.m = false → ∀ a, localByte t e.b.uid a = ownByte t e.b.uid e.sp.m a) ∧
      (e.b.slow.contains e.sp.m = true → (∀ k ∈ e.r.exec, ∀ i, i < sz.bytes → e.b.stashAt (e.laddr m sz.bytes k + i) = none) →
        ∀ a, localByte t e.b.uid a = localByte s e.b.uid a) := by
  obtain ⟨-, hb, -, -⟩ := env_found h
  have hlines : ∀ x ∈ linesOf (e.r.exec.map fun k => (k, e.laddr m sz.bytes k)) sz.bytes, e.b.stashAt (128 * x) = none ∨
      (e.b.present x = true ∧ ∀ p, s.stashLine e.b x = some p → s.inRegion (128 * p) 128 = false) := fun x hx => by
    obtain ⟨y, hy, i, hi, rfl⟩ := linesOf_inside hx
    obtain ⟨k, hk, rfl⟩ := List.mem_map.mp hy
    exact (hl k hk).2 i hi
  have hmiss : (linesOf (e.r.exec.map fun k => (k, e.laddr m sz.bytes k)) sz.bytes).filter
      (fun x => !e.b.present x && (e.b.stashAt (128 * x)).isSome) = [] :=
    List.filter_eq_nil_iff.mpr fun x hx => by obtain hx | ⟨hx, -⟩ := hlines x hx <;> simp [hx]
  obtain ⟨b', hst, hsees⟩ := stlAll_spec (fun x => e.data sz data x.1) (e.b.late.foldl (fun n x => max n (x.ins + 1)) 0)
    (l := e.r.exec.map fun k => (k, e.laddr m sz.bytes k)) (by simpa using env_exec h) hb rfl
  have hexec : exec (.stl sz m data) s = .next ((e.r.exec.map fun k => (k, e.laddr m sz.bytes k)).foldl
      (fun (t : State) x => t.stlOne e (e.b.late.foldl (fun n x => max n (x.ins + 1)) 0) x.1 x.2 (e.data sz data x.1)) s) := by
    change execStl sz m data s = _
    rw [execStl, within_env h, localOks fun k hk => (hl k hk).1]
    dsimp only
    rw [fillsOk_none fun x hx => (hlines x hx).symm.imp_left And.left, regionStl_none fun x hx => (hlines x hx).imp_right And.right]
    dsimp only
    rw [hmiss, List.isEmpty_nil]
    rfl
  refine ⟨_, hexec, hst.only, fun a => ?_, fun hs a => ?_, fun hs hplain a => ?_⟩
  · rw [ownByte_blk hst.found, ownByte_blk hb, Option.map_some, hsees.own, laidAll, List.foldl_map]
    simp only [laid, length_data]
  · rw [ownByte_blk hst.found, localByte_blk hst.found, hsees.atOnce hs]
  · rw [localByte_blk hst.found, localByte_blk hb, hsees.later hs]
    intro x hx i hi
    obtain ⟨k, hk, rfl⟩ := List.mem_map.mp hx
    exact hplain k hk i (by rwa [length_data] at hi)

end Stl

/-! Counters (R124, R257). -/

/-- A thread of the block is parked on a condition. -/
def ParkedOn (s : State) (u : Nat) (c : Park) : Prop := ∃ b, s.blk u = some b ∧ ∃ sp ∈ b.spindles, ∃ x ∈ sp.threads, x.st = .parked c

/-- No thread of the block is parked on the counter at `a` with its condition true. -/
def NoneMet (s : State) (u a : Nat) : Prop :=
  ∀ b, s.blk u = some b → ∀ sp ∈ b.spindles, ∀ x ∈ sp.threads, ∀ c, x.st = .parked c → b.counterMet a c = false

theorem counterMet_congr {b b' : Block} {a : Nat} (h : b'.counter a = b.counter a) (c : Park) : b'.counterMet a c = b.counterMet a c := by
  cases c with
  | counter x =>
    by_cases hx : x = a
    · subst hx
      rw [Block.counterMet, Block.counterMet, h]
    · rw [Block.counterMet, Block.counterMet, beq_eq_false_iff_ne.mpr hx, Bool.false_and, Bool.false_and]
  | lines _ _ | result _ | bar | gbar | rejoin _ | allot | tokens _ => rfl

theorem wakeIf_parked {x : Thread} {again : Bool} {p : Park → Bool} {c : Park} (h : (x.wakeIf again p).st = .parked c) :
    x.st = .parked c ∧ p c = false := by
  have hpast : x.past.st = .ready := by
    rw [Thread.past]
    split
    · split <;> rfl
    · rfl
  rw [Thread.wakeIf] at h
  split at h
  · rename_i c' hst
    by_cases hp : p c' = true
    · rw [if_pos hp] at h
      split at h
      · cases h
      · rw [hpast] at h
        cases h
    · rw [if_neg hp, hst] at h
      cases h
      exact ⟨hst, Bool.not_eq_true _ ▸ hp⟩
  · rename_i hst _
    split at h
    · cases h
    · rw [hst] at h
      cases h
  · rename_i hne _
    exact (hne c h).elim

theorem woken_parked {x : Thread} {c : Park} (h : (woken x).st = .parked c) : x.st = .parked c := by
  rw [woken] at h
  split at h
  · split at h
    · cases h
    · exact h
  · exact h

section Counters
variable {s : State} {u : Nat}

theorem parkedOn_settle {v m : Nat} {c : Park} (h : ParkedOn (s.settle v m) u c) : ParkedOn s u c := by
  obtain ⟨b', hb', sp', hsp', x', hx', hst⟩ := h
  rw [settle_eq, State.updSp, State.blk_updBlk s v u (fun b => b.updSp m (settleSp s v m)) fun _ => rfl] at hb'
  obtain ⟨b, hb, rfl⟩ := Option.map_eq_some_iff.mp hb'
  refine ⟨b, hb, ?_⟩
  split at hsp'
  · obtain ⟨sp, hsp, rfl⟩ := List.mem_map.mp hsp'
    refine ⟨sp, hsp, ?_⟩
    split at hx'
    · obtain ⟨y, hy, rfl⟩ := List.mem_map.mp hx'
      have hy' := woken_parked hst
      exact ⟨y.1, List.fst_mem_of_mem_zipIdx hy, hy'⟩
    · exact ⟨x', hx', hst⟩
  · exact ⟨sp', hsp', x', hx', hst⟩

theorem parkedOn_settles {v : Nat} {c : Park} (l : List Spindle) (h : ParkedOn (l.foldl (fun t sp => t.settle v sp.m) s) u c) :
    ParkedOn s u c := by
  induction l generalizing s with
  | nil => exact h
  | cons x r ih => exact parkedOn_settle (ih h)

theorem blk_acquire (core : Nat) (sc : Scope) : (s.acquire core sc).blk u = s.blk u := by
  have hack : (s.ack (fun p => p.die == dieOf core)).blk u = s.blk u := by
    rw [State.blk, ack_blocks, State.blk]
  cases sc with
  | gang | no | sp | blk => rfl
  | dev | sys => exact hack

/-- R124, R276: a counter is written: what the block's local memory holds then, and which of its threads still wait. -/
theorem updCounter_spec {b : Block} (hb : s.blk u = some b) (a : Nat) (d : List Byte) :
    ∃ b', (s.updCounter u a d).blk u = some b' ∧ { b' with spindles := [] } = { b.lwrite a d with spindles := [] } ∧
      ∀ c, ParkedOn (s.updCounter u a d) u c → ParkedOn s u c ∧ b'.counterMet a c = false := by
  have hw := blk_lwritten_same hb a d
  obtain ⟨b', hb', hbare⟩ : ∃ b', (s.updCounter u a d).blk u = some b' ∧ { b' with spindles := [] } = { b.lwrite a d with spindles := [] } :=
    blk_of_bare (by rw [(wakes_updCounter s u a d).shells, shell, hw]; rfl)
  have hmet (c : Park) : b'.counterMet a c = (b.lwrite a d).counterMet a c := counterMet_congr (congrArg (fun b : Block => b.counter a) hbare :) c
  have hpark (c : Park) (h : ParkedOn (lwritten s u a d) u c) : ParkedOn s u c := by
    obtain ⟨b1, hb1, hsp⟩ := h
    cases hw.symm.trans hb1
    exact ⟨b, hb, hsp⟩
  refine ⟨b', hb', hbare, fun c h => ?_⟩
  rw [hmet]
  clear hmet hbare hb' b'
  rw [State.updCounter] at h
  dsimp only at h
  rw [show s.updBlk u (fun b => b.lwrite a d) = lwritten s u a d from rfl, hw] at h
  dsimp only at h
  split at h
  · obtain ⟨b1, hb1, sp, hsp, x, hx, hst⟩ := parkedOn_settles _ h
    rw [blk_acquire, blk_updBlk_same (f := fun c => c.wake c.evicted (c.counterMet a)) hw fun _ => rfl] at hb1
    cases hb1
    obtain ⟨sp0, hsp0, rfl⟩ := List.mem_map.mp hsp
    obtain ⟨y, hy, rfl⟩ := List.mem_map.mp hx
    obtain ⟨hy', hp⟩ := wakeIf_parked hst
    exact ⟨⟨b, hb, sp0, hsp0, y, hy, hy'⟩, hp⟩
  · rename_i hnone
    refine ⟨hpark c h, ?_⟩
    obtain ⟨b1, hb1, sp, hsp, x, hx, hst⟩ := h
    cases hw.symm.trans hb1
    rw [← Bool.not_eq_true]
    intro hm
    refine hnone (List.any_eq_true.mpr ⟨sp, hsp, List.any_eq_true.mpr ⟨x, hx, ?_⟩⟩)
    rw [hst]
    exact hm

/-- After a write of the counter at `a`, its waiters have read it again, and the waiters of others wait as before. -/
structure Rereads (s t : State) (u a : Nat) : Prop where
  here : NoneMet t u a
  apart : ∀ a', (a' + 16 ≤ a ∨ a + 16 ≤ a') → NoneMet s u a' → NoneMet t u a'

theorem rereads_updCounter {a : Nat} {d : List Byte} (hd : d.length ≤ 16) : Rereads s (s.updCounter u a d) u a := by
  cases hb : s.blk u with
  | none =>
    have hn (x : Nat) : NoneMet (s.updCounter u a d) u x := fun b hb' => by
      have h := (wakes_updCounter s u a d).shells u
      rw [shell, hb', shell, blk_lwritten, hb] at h
      cases h
    exact ⟨hn a, fun a' _ _ => hn a'⟩
  | some b =>
    obtain ⟨b', hb', hbare, hpark⟩ := updCounter_spec hb a d
    refine ⟨fun b1 hb1 sp hsp x hx c hst => ?_, fun a' hapart hnone b1 hb1 sp hsp x hx c hst => ?_⟩
    · cases hb'.symm.trans hb1
      exact (hpark c ⟨b', hb', sp, hsp, x, hx, hst⟩).2
    · cases hb'.symm.trans hb1
      obtain ⟨⟨b0, hb0, sp0, hsp0, y, hy, hyst⟩, -⟩ := hpark c ⟨b', hb', sp, hsp, x, hx, hst⟩
      have hsame : (b.lwrite a d).counter a' = b.counter a' := by
        rw [Block.counter, lbytes_lwrite_apart b (by omega), lbytes_lwrite_apart b (by omega), Block.counter]
      cases hb.symm.trans hb0
      have hc : b'.counter a' = b.counter a' := (congrArg (fun b : Block => b.counter a') hbare :).trans hsame
      rw [counterMet_congr hc]
      exact hnone b hb sp0 hsp0 y hy c hyst

theorem rereads_arcAdd (a n : Nat) : Rereads s (s.arcAdd u a n) u a := by
  rw [State.arcAdd]
  split
  · exact rereads_updCounter (by rw [length_leBytes]; decide)
  · rename_i hb
    have hn (x : Nat) : NoneMet s u x := fun b hb' => nomatch hb.symm.trans hb'
    exact ⟨hn a, fun _ _ h => h⟩

/-- Counters written one after another. -/
theorem noneMet_foldl {α : Type} {f : State → α → State} {at_ : α → Nat} (hf : ∀ t x, Rereads t (f t x) u (at_ x)) {l : List α}
    (hl : ∀ x ∈ l, at_ x % 16 = 0) : (∀ x ∈ l, NoneMet (l.foldl f s) u (at_ x)) ∧
      ∀ a, a % 16 = 0 → NoneMet s u a → NoneMet (l.foldl f s) u a := by
  induction l generalizing s with
  | nil => exact ⟨fun x hx => absurd hx List.not_mem_nil, fun a _ h => h⟩
  | cons x r ih =>
    obtain ⟨hr, hkeep⟩ := ih (s := f s x) fun y hy => hl y (List.mem_cons_of_mem _ hy)
    have hx := hl x List.mem_cons_self
    refine ⟨fun y hy => ?_, fun a ha h => hkeep a ha ?_⟩
    · obtain rfl | hy := List.mem_cons.mp hy
      · exact hkeep _ hx (hf s y).here
      · exact hr y hy
    · by_cases hax : a = at_ x
      · rw [hax]
        exact (hf s x).here
      · exact (hf s x).apart a (by omega) h

/-- Local bytes after counters are written one after another. -/
theorem updCounters_lbyte {α : Type} (at_ : α → Nat) (d : α → List Byte) (l : List α) {b : Block} (hb : s.blk u = some b) :
    ∃ b', (l.foldl (fun t x => t.updCounter u (at_ x) (d x)) s).blk u = some b' ∧
      ∀ a, b'.lbyte a = l.foldl (fun old x => laid (at_ x) (d x) a old) (b.lbyte a) := by
  induction l generalizing s b with
  | nil => exact ⟨b, hb, fun _ => rfl⟩
  | cons x r ih =>
    obtain ⟨b1, hb1, hbare, -⟩ := updCounter_spec hb (at_ x) (d x)
    obtain ⟨b2, hb2, hbyte⟩ := ih hb1
    refine ⟨b2, hb2, fun a => ?_⟩
    rw [hbyte, List.foldl_cons, ← lbyte_lwrite_laid]
    exact congrArg (List.foldl _ · r) (congrArg (fun c : Block => c.lbyte a) hbare :)

end Counters

section Arc
variable {s : State} {e : Env} {base : Sel} {off : BitVec 16} (h : s.env = some e)
  (hc : ∀ k ∈ e.r.exec, e.caddr base off k % 16 = 0 ∧ e.caddr base off k + 16 ≤ e.b.lsize ∧ e.b.stashAt (e.caddr base off k) = none)
include h hc

omit h in
theorem counterOks : checkSlots (fun k => e.counterOk (e.caddr base off k)) e.r.exec = .ok (e.r.exec.map fun k => (k, e.caddr base off k)) :=
  checkSlots_ok fun k hk => by
    obtain ⟨h1, h2, h3⟩ := hc k hk
    rw [Env.counterOk, if_pos]
    rw [h1, h3]
    simpa using h2

/-- `arcset`. -/
theorem arcset_sets (count target : Sel) : ∃ t, exec (.arcset base count target off) s = .next t ∧
    (∀ a, localByte t e.b.uid a = some (e.r.exec.foldl (fun old k =>
      if e.caddr base off k ≤ a ∧ a < e.caddr base off k + 16 then
        ((leBytes 8 (e.read true count k).toNat ++ leBytes 8 (e.read true target k).toNat)[a - e.caddr base off k]?).getD old
      else old) (e.b.lbyte a))) ∧
    ∀ k ∈ e.r.exec, NoneMet t e.b.uid (e.caddr base off k) := by
  obtain ⟨-, hb, -, -⟩ := env_found h
  let d (k : Nat) : List Byte := leBytes 8 (e.read true count k).toNat ++ leBytes 8 (e.read true target k).toNat
  have hd (k : Nat) : (d k).length = 16 := by simp only [d, List.length_append, length_leBytes]
  have hexec : exec (.arcset base count target off) s =
      .next (e.r.exec.foldl (fun (t : State) k => t.updCounter e.b.uid (e.caddr base off k) (d k)) s) := by
    change execArcset base count target off s = _
    rw [execArcset, within_env h, counterOks hc]
    dsimp only
    rw [List.foldl_map]
  obtain ⟨b', hb', hbyte⟩ := updCounters_lbyte (e.caddr base off) d e.r.exec hb
  refine ⟨_, hexec, fun a => ?_, (noneMet_foldl (at_ := e.caddr base off)
    (fun t k => rereads_updCounter (Nat.le_of_eq (hd k))) fun k hk => (hc k hk).1).1⟩
  rw [localByte_blk hb', hbyte]
  simp only [laid, hd, d]

/-- `arcadd`. -/
theorem arcadd_adds (addend : Sel) : ∃ t, exec (.arcadd base addend off) s = .next t ∧
    (∀ k ∈ e.r.exec, NoneMet t e.b.uid (e.caddr base off k)) ∧
    ∀ k, e.r.exec = [k] → ∃ b, t.blk e.b.uid = some b ∧
      (b.counter (e.caddr base off k)).1 = ((e.b.counter (e.caddr base off k)).1 + (e.read true addend k).toNat) % 2 ^ 64 ∧
      (b.counter (e.caddr base off k)).2 = (e.b.counter (e.caddr base off k)).2 ∧
      ∀ a, ¬(e.caddr base off k ≤ a ∧ a < e.caddr base off k + 8) → b.lbyte a = e.b.lbyte a := by
  obtain ⟨-, hb, -, -⟩ := env_found h
  have hexec : exec (.arcadd base addend off) s =
      .next (e.r.exec.foldl (fun (t : State) k => t.arcAdd e.b.uid (e.caddr base off k) (e.read true addend k).toNat) s) := by
    change execArcadd base addend off s = _
    rw [execArcadd, within_env h, counterOks hc]
    dsimp only
    rw [List.foldl_map]
  refine ⟨_, hexec, (noneMet_foldl (at_ := e.caddr base off) (fun t k => rereads_arcAdd _ _) fun k hk => (hc k hk).1).1, fun k hk => ?_⟩
  rw [hk, List.foldl_cons, List.foldl_nil, State.arcAdd, hb]
  obtain ⟨b', hb', hbare, -⟩ := updCounter_spec hb (e.caddr base off k)
    (leBytes 8 ((e.b.counter (e.caddr base off k)).1 + (e.read true addend k).toNat))
  have hcount : b'.counter (e.caddr base off k) = _ :=
    (congrArg (fun c : Block => c.counter (e.caddr base off k)) hbare :).trans (counter_lwrite _ _ _)
  have hbyte (a : Nat) : b'.lbyte a = _ := (congrArg (fun c : Block => c.lbyte a) hbare :).trans (lbyte_lwrite _ _ _ a)
  refine ⟨b', hb', ?_, ?_, fun a ha => ?_⟩
  · rw [hcount]
  · rw [hcount]
  · rw [hbyte, length_leBytes, if_neg ha]

end Arc

/-- Settles O17. -/
theorem localAccesses : Obligations.LocalAccesses := by
  unfold Obligations.LocalAccesses
  intro s e d sz m data base count target addend len off h
  refine ⟨ldl_issues h, stl_stores h, pclr_clears h, fun hc => ⟨?_, ?_⟩⟩
  · obtain ⟨t, hexec, hbyte, hnone⟩ := arcset_sets h hc count target
    exact ⟨t, hexec, hbyte, fun b hb sp hsp x hx c k hk hst => hnone k hk b hb sp hsp x hx c hst⟩
  · obtain ⟨t, hexec, hnone, hone⟩ := arcadd_adds h hc addend
    exact ⟨t, hexec, fun b hb sp hsp x hx c k hk hst => hnone k hk b hb sp hsp x hx c hst, hone⟩

end Sys2Proof.Safety
end

section
/-! PROOF. The ordering instructions (R113, R116, R127, R140, R154, R250 to R254, R300). -/

namespace Sys2Proof.Safety
open Sys2Proof.Machine

/-! Fences of memory (R113, R154, R250). -/

section Fence
variable {s : State} {e : Env}

/-- Every store of the core's die acknowledged: the core sees what it saw. -/
theorem seen_ackDie {core : Nat} (q : Quiet s core) (a : Nat) : seen (s.ack (fun p => p.die == dieOf core)) core a = seen s core a :=
  view_ack q.frames (fun p hp => (q.pend p hp).1) (.inl fun p hp _ => beq_iff_eq.mpr (q.pend p hp).1)

/-- What a fence of memory does at its scope: the die's stores are acknowledged at `.dev` and `.sys`, the core's leases age
where the set has loads. -/
structure Fences (s t : State) (e : Env) (sc : Scope) : Prop where
  traffic : Traffic s t
  acked : sc = .dev ∨ sc = .sys → ∀ p ∈ t.coh.pend, p.die ≠ dieOf e.b.core
  seen : Quiet s e.b.core → ∀ a, seen t e.b.core a = seen s e.b.core a

theorem fences_release (s : State) (e : Env) (sc : Scope) : Fences s (s.release e sc) e sc := by
  have hack : ∀ p ∈ (s.ack (fun p => p.die == dieOf e.b.core)).coh.pend, p.die ≠ dieOf e.b.core := fun p hp => by
    rw [ack_coh] at hp
    simpa using (List.mem_filter.mp hp).2
  cases sc with
  | dev => exact ⟨traffic_ack s _, fun _ => hack, seen_ackDie⟩
  | sys =>
    have hr := requestsOnly_outst (s.ack (fun p => p.die == dieOf e.b.core)) ((s.ack (fun p => p.die == dieOf e.b.core)).fabric.outst.filter
      (fun x => !(x.op.isNone && !(s.ack (fun p => p.die == dieOf e.b.core)).fabric.frozen.contains x.key &&
        e.r.exec.any (fun k => x.thr == some (e.name k)))))
    refine ⟨(traffic_ack s _).trans hr.traffic, fun _ p hp => hack p ?_, fun q a => ?_⟩
    · rw [← hr.coh]
      exact hp
    · exact ((SameMemory.requests hr).seen a).trans (seen_ackDie q a)
  | no | sp | blk | gang => exact ⟨.refl s, fun h => by simp at h, fun _ _ => rfl⟩

theorem fences_fenceNow (s : State) (e : Env) (sc : Scope) {set : FSet} (hw : set ≠ .win) :
    Fences s (s.fenceNow e sc set) e sc ∧ (sc = .gang ∨ sc = .dev ∨ sc = .sys → set = .ll ∨ set = .sl ∨ set = .all →
      ∀ c ∈ (s.fenceNow e sc set).coh.l1, c.core ≠ e.b.core) := by
  obtain ⟨htr, hack, hseen⟩ := fences_release s e sc
  have hage : Fences s ((s.release e sc).ageLeases e.b.core) e sc := ⟨htr.trans (traffic_ageLeases _ _), hack, hseen⟩
  have hwide : sc = .gang ∨ sc = .dev ∨ sc = .sys → wideScope sc = true := by
    rintro (rfl | rfl | rfl) <;> rfl
  have hload : Fences s (if wideScope sc then (s.release e sc).ageLeases e.b.core else s.release e sc) e sc ∧
      (sc = .gang ∨ sc = .dev ∨ sc = .sys →
        ∀ c ∈ (if wideScope sc then (s.release e sc).ageLeases e.b.core else s.release e sc).coh.l1, c.core ≠ e.b.core) := by
    refine ⟨?_, fun h c hc => ?_⟩
    · split
      · exact hage
      · exact ⟨htr, hack, hseen⟩
    · rw [if_pos (hwide h)] at hc
      simpa using (List.mem_filter.mp hc).2
  cases set with
  | win => exact absurd rfl hw
  | ls | ss => exact ⟨⟨htr, hack, hseen⟩, fun _ h => by simp at h⟩
  | ll | sl | all | async => exact ⟨hload.1, fun h _ => hload.2 h⟩

theorem engineOps_mem {o : Op} (ho : o ∈ s.ops) (hb : o.blk = e.b.uid) (hm : o.m = e.sp.m) (hk : ∃ k ∈ o.slots, k ∈ e.r.exec)
    (he : o.kind.engine ≠ none) : o.id ∈ s.engineOps e := by
  obtain ⟨k, hk, hke⟩ := hk
  have hany : o.slots.any (fun k => e.r.exec.contains k) = true := List.any_eq_true.mpr ⟨k, hk, List.contains_iff_mem.mpr hke⟩
  refine List.mem_append_left _ (List.mem_map.mpr ⟨o, List.mem_filter.mpr ⟨ho, ?_⟩, rfl⟩)
  rw [hb, hm, hany, Option.isSome_iff_ne_none.mpr he]
  simp

/-- A fence of memory. -/
theorem fence_orders (h : s.env = some e) (sc : Scope) {set : FSet} (hw : set ≠ .win) (ha : set ≠ .async) :
    ∃ t0 t, exec (.fence sc set) s = .next t ∧ Traffic s t0 ∧ Queued t0 t e (.fence (sc == .sys)) ∧
      (sc = .dev ∨ sc = .sys → ∀ p ∈ t.coh.pend, p.die ≠ dieOf e.b.core) ∧
      (sc = .gang ∨ sc = .dev ∨ sc = .sys → set = .ll ∨ set = .sl ∨ set = .all → ∀ c ∈ t.coh.l1, c.core ≠ e.b.core) ∧
      (Quiet s e.b.core → ∀ a, seen t e.b.core a = seen s e.b.core a) := by
  obtain ⟨⟨htr, hack, hseen⟩, hage⟩ := fences_fenceNow s e sc hw
  have hexec : exec (.fence sc set) s = .next ((s.fenceNow e sc set).addOp e e.r.exec (.fence (sc == .sys))) := by
    change execFence sc set s = _
    rw [execFence, within_env h, if_neg (by simpa using hw), if_neg (by simpa using ha)]
  exact ⟨_, _, hexec, htr, rfl, hack, hage, hseen⟩

/-- `fence.async`. -/
theorem fence_async (h : s.env = some e) (sc : Scope) :
    ∃ t0 t before, exec (.fence sc .async) s = .next t ∧ Traffic s t0 ∧ Queued t0 t e (.asyncFence before sc) ∧
      (∀ o ∈ s.ops, o.blk = e.b.uid → o.m = e.sp.m → (∃ k ∈ o.slots, k ∈ e.r.exec) → o.kind.engine ≠ none → o.id ∈ before) ∧
      (Quiet s e.b.core → ∀ a, seen t e.b.core a = seen s e.b.core a) := by
  obtain ⟨⟨htr, -, hseen⟩, -⟩ := fences_fenceNow s e sc (set := .async) nofun
  have hexec : exec (.fence sc .async) s = .next ((s.fenceNow e sc .async).addOp e e.r.exec (.asyncFence (s.engineOps e) sc)) := by
    change execFence sc .async s = _
    rw [execFence, within_env h, if_neg (by decide), if_pos (by decide)]
  exact ⟨_, _, _, hexec, htr, rfl, fun o ho hb hm hk he => engineOps_mem ho hb hm hk he, hseen⟩

end Fence

/-! Prefetch (R252). -/

/-- A state without the copies in the L1s, which no view of memory reads. -/
def noL1 (s : State) : State := { s with coh := { s.coh with l1 := [] } }

theorem noL1_commit (s : State) (pa : Nat) (d : List Byte) : noL1 (s.commit pa d) = (noL1 s).commit pa d := by
  unfold State.commit
  dsimp only
  split <;> rfl

theorem noL1_ack (s : State) (f : Pend → Bool) : noL1 (s.ack f) = (noL1 s).ack f := by
  have h (l : List Pend) (t : State) : noL1 (l.foldl (fun t x => t.commit x.pa x.data) t) = l.foldl (fun t x => t.commit x.pa x.data) (noL1 t) := by
    induction l generalizing t with
    | nil => rfl
    | cons x r ih => exact (ih _).trans (congrArg (fun t => r.foldl (fun t x => t.commit x.pa x.data) t) (noL1_commit t x.pa x.data))
  exact h _ _

theorem noL1_snoopHost (s : State) (line : Nat) : noL1 (s.snoopHost line false) = (noL1 s).snoopHost line false := by
  have hl : (noL1 s).coh.hostLines = s.coh.hostLines := rfl
  unfold State.snoopHost
  rw [hl]
  split <;> rfl

/-- What a prefetch keeps: memory quiet, but for copies in the L1s, and what the core sees. -/
structure KeepsSeen (s t : State) (core : Nat) : Prop where
  quiet : Quiet (noL1 s) core → Quiet (noL1 t) core
  seen : Quiet (noL1 s) core → ∀ a, seen t core a = seen s core a

theorem KeepsSeen.refl (s : State) (core : Nat) : KeepsSeen s s core := ⟨id, fun _ _ => rfl⟩

theorem KeepsSeen.trans {s t u : State} {core : Nat} (h : KeepsSeen s t core) (k : KeepsSeen t u core) : KeepsSeen s u core :=
  ⟨k.quiet ∘ h.quiet, fun q a => (k.seen (h.quiet q) a).trans (h.seen q a)⟩

theorem keepsSeen_of {s t : State} {core : Nat} (h : noL1 t = noL1 s) : KeepsSeen s t core :=
  ⟨fun q => by rw [h]; exact q, fun _ a => (congrArg (fun s : State => seen s core a) h :)⟩

theorem keepsSeen_seeLine (s : State) (core line : Nat) : KeepsSeen s (s.seeLine (some (dieOf core)) line) core := by
  have hf (q : Quiet (noL1 s) core) (p : Pend) (hp : p ∈ (noL1 s).coh.pend) : (lineOf p.pa == line && some p.die == some (dieOf core)) = (lineOf p.pa == line) := by
    rw [(q.pend p hp).1]
    simp
  refine ⟨fun q => ?_, fun q a => ?_⟩
  · rw [State.seeLine, noL1_ack]
    exact (q.ack _).1
  · exact (congrArg (fun s : State => seen s core a) (noL1_ack s _) :).trans (seen_ackLine q line (hf q) a)

theorem keepsSeen_takeLine (s : State) (core line : Nat) : KeepsSeen s (s.takeLine (some (dieOf core)) line false) core := by
  have h (q : Quiet (noL1 s) core) : noL1 (s.takeLine (some (dieOf core)) line false) = (noL1 s).takeLine (some (dieOf core)) line false := by
    rw [takeLine_noFlips q.flips, takeLine_noFlips (s := s) q.flips, noL1_ack, recall_quiet q, recall_unowned fun b hb x hx => by
      rw [q.stash b hb] at hx
      cases hx]
    exact congrArg (fun t : State => t.ack _) (noL1_snoopHost s line)
  exact ⟨fun q => by rw [h q]; exact (took_read q line).quiet,
    fun q a => (congrArg (fun s : State => seen s core a) (h q) :).trans ((took_read q line).seen a)⟩

theorem keepsSeen_loadL1 (s : State) (core pa n : Nat) : KeepsSeen s (s.loadLine core .l1 pa n).2 core := by
  have he : KeepsSeen s s.expireLeases core := keepsSeen_of rfl
  unfold State.loadLine
  dsimp only
  split
  · exact he.trans (keepsSeen_seeLine _ core _)
  · refine (he.trans (keepsSeen_takeLine _ core (lineOf pa))).trans (keepsSeen_of ?_)
    dsimp only
    unfold State.l1Fill
    split <;> rfl

theorem keepsSeen_loadPhys (s : State) (core pa n : Nat) : KeepsSeen s (s.loadPhys core .l1 pa n).2 core := by
  have h (l : List (Nat × Nat)) (acc : List Byte × State) : KeepsSeen acc.2 (l.foldl (fun acc p =>
      let (d, t) := acc.2.loadLine core .l1 p.1 p.2
      (acc.1 ++ d, t)) acc).2 core := by
    induction l generalizing acc with
    | nil => exact .refl _ core
    | cons p r ih =>
      have hp := keepsSeen_loadL1 acc.2 core p.1 p.2
      exact hp.trans (ih (acc.1 ++ (acc.2.loadLine core .l1 p.1 p.2).1, (acc.2.loadLine core .l1 p.1 p.2).2))
  exact h _ ([], s)

/-- One slot's prefetch. -/
def prefetched (e : Env) (pol : Pol) (m : MemOp) (t : State) (k : Nat) : State :=
  match t.access e (e.gaddr m 1 k) 1 { askLd ⟨pol, .no, .no⟩ 1 with allow := fun p => if p.mtype < 3 then none else some .window }
      mkLoad with
  | .ok ((.mem pa, _) :: _) => if pol == .l1 && (t.badIn pa 1).isNone then (t.loadPhys e.b.core .l1 pa 1).2 else t
  | _ => t

theorem execPref_eq {s : State} {e : Env} (h : s.env = some e) (pol : Pol) (m : MemOp) :
    exec (.pref pol m) s = .next (e.r.exec.foldl (prefetched e pol m) s) := by
  change execPref pol m s = _
  rw [execPref, within_env h]
  rfl

theorem prefetched_keeps (e : Env) (pol : Pol) (m : MemOp) (t : State) (k : Nat) :
    Traffic t (prefetched e pol m t k) ∧ KeepsSeen t (prefetched e pol m t k) e.b.core := by
  unfold prefetched
  split
  · split
    · exact ⟨traffic_loadPhys t _ _ _ _, keepsSeen_loadPhys t _ _ _⟩
    · exact ⟨.refl t, .refl t _⟩
  · exact ⟨.refl t, .refl t _⟩

theorem prefetches_keep (e : Env) (pol : Pol) (m : MemOp) (l : List Nat) (t : State) :
    Traffic t (l.foldl (prefetched e pol m) t) ∧ KeepsSeen t (l.foldl (prefetched e pol m) t) e.b.core := by
  induction l generalizing t with
  | nil => exact ⟨.refl t, .refl t _⟩
  | cons k r ih =>
    obtain ⟨h1, h2⟩ := prefetched_keeps e pol m t k
    obtain ⟨h3, h4⟩ := ih (prefetched e pol m t k)
    exact ⟨h1.trans h3, h2.trans h4⟩

/-- `pref`. -/
theorem pref_keeps {s : State} {e : Env} (h : s.env = some e) (pol : Pol) (m : MemOp) :
    ∃ t, exec (.pref pol m) s = .next t ∧ Traffic s t ∧ t.run = s.run ∧ t.ops = s.ops ∧
      (Quiet s e.b.core → ∀ a, seen t e.b.core a = seen s e.b.core a) := by
  obtain ⟨htr, hkeep⟩ := prefetches_keep e pol m e.r.exec s
  refine ⟨_, execPref_eq h pol m, htr, (congrArg State.run htr.1 :), (congrArg State.ops htr.1 :), fun q => hkeep.seen ?_⟩
  exact q.mono rfl rfl rfl (fun _ hx => hx) (fun _ hp => hp) (fun c hc => nomatch hc)

/-! `roinv`, `persist` and `opfence` issue (R116, R253, R300). -/

section Issue
variable {s : State} {e : Env}

theorem roinv_drops (h : s.env = some e) : ∃ t, exec .roinv s = .next t ∧
    t = { s with coh := { s.coh with ro := s.coh.ro.filter (fun c => c.core != e.b.core) } } := by
  have hexec : exec .roinv s = .next { s with coh := { s.coh with ro := s.coh.ro.filter (fun c => c.core != e.b.core) } } := by
    change execRoinv s = _
    rw [execRoinv, within_env h]
  exact ⟨_, hexec, rfl⟩

theorem downLocs_none {l : List (Nat × Nat)} (h : ∀ r ∈ l, s.downIn r.1 r.2 = none) : s.downLocs (l.map (fun r => (Loc.mem r.1, r.2))) = none := by
  refine firstSome_none fun y hy => ?_
  obtain ⟨x, hx, rfl⟩ := List.mem_map.mp hy
  obtain ⟨r, hr, rfl⟩ := List.mem_map.mp hx
  exact h r hr

theorem persist_issues {m : MemOp} {len : Sel} {l : List (Nat × List (Nat × Nat))} (h : s.env = some e)
    (hl : checkSlots (fun k => s.persistRange e (e.gaddr m 1 k) (e.readU len).toNat) e.r.exec = .ok l)
    (hd : ∀ x ∈ l, ∀ r ∈ x.2, s.downIn r.1 r.2 = none) :
    ∃ t, exec (.persist m len) s = .next t ∧ Queued s t e (.persist (l.flatMap (·.2)) none) := by
  have hdown : s.downSlot (l.map (fun x => (x.1, x.2.map (fun r => (Loc.mem r.1, r.2))))) = none := by
    refine firstSome_none fun y hy => ?_
    obtain ⟨x, hx, rfl⟩ := List.mem_map.mp hy
    obtain ⟨z, hz, rfl⟩ := List.mem_map.mp hx
    dsimp only
    rw [downLocs_none (hd z hz), Option.map_none]
  have hexec : exec (.persist m len) s = .next (s.addOp e e.r.exec (.persist (l.flatMap (·.2)) none)) := by
    change execPersist m len s = _
    rw [execPersist, within_env h, hl]
    dsimp only
    rw [hdown]
  exact ⟨_, hexec, rfl⟩

theorem opfence_shows (h : s.env = some e) :
    ∃ t b, exec .opfence s = .next t ∧ t = { s with blocks := t.blocks } ∧ t.blk e.b.uid = some b ∧
      b = { e.b with unseen := b.unseen } ∧ (∀ u', u' ≠ e.b.uid → t.blk u' = s.blk u') ∧
      ∀ u, u ∈ b.unseen ↔ u ∈ e.b.unseen ∧ ¬(u.m = e.sp.m ∧ u.slot ∈ e.r.exec) := by
  have hexec : exec .opfence s = .next (s.updBlk e.b.uid (fun b => b.opfence e.sp.m e.r.exec)) := by
    change execOpfence s = _
    rw [execOpfence, within_env h]
  obtain ⟨hsame, hother⟩ := blk_updBlk_env h (fun b => b.opfence e.sp.m e.r.exec) fun _ => rfl
  refine ⟨_, _, hexec, rfl, hsame, rfl, hother, fun u => ?_⟩
  refine List.mem_filter.trans (and_congr_right fun _ => ?_)
  rw [Bool.not_eq_true', Bool.and_eq_false_iff, beq_eq_false_iff_ne, ← Bool.not_eq_true, List.contains_iff_mem, not_and_or]

end Issue

/-! Window requests join (R134, R136, R140, R254). -/

/-- An operator but for its slots. -/
def unslotted (o : Operator) : Operator := { o with slotst := [] }

/-- The posted requests, the units and the operators stand, but for the operators' slots. -/
structure SlotsOnly (s t : State) : Prop where
  posted : t.posted = s.posted
  sched : t.sched = s.sched
  operators : t.operators.map unslotted = s.operators.map unslotted

namespace SlotsOnly

theorem refl (s : State) : SlotsOnly s s := ⟨rfl, rfl, rfl⟩

theorem trans {s t u : State} (h : SlotsOnly s t) (k : SlotsOnly t u) : SlotsOnly s u :=
  ⟨k.posted.trans h.posted, k.sched.trans h.sched, k.operators.trans h.operators⟩

theorem foldl {α : Type} {f : State → α → State} (h : ∀ t x, SlotsOnly t (f t x)) (l : List α) (s : State) : SlotsOnly s (l.foldl f s) := by
  induction l generalizing s with
  | nil => exact .refl s
  | cons x r ih => exact (h s x).trans (ih _)

theorem putSlot (s : State) (op : Nat) (x : OSlot) : SlotsOnly s (s.putSlot op x) := by
  refine ⟨rfl, rfl, ?_⟩
  rw [State.putSlot, State.updOp, List.map_map]
  refine List.map_congr_left fun o _ => ?_
  dsimp only [Function.comp]
  split <;> rfl

theorem haltOnly {s t : State} (h : HaltOnly s t) : SlotsOnly s t :=
  ⟨(congrArg State.posted h.rest :), (congrArg State.sched h.rest :), (congrArg (fun s : State => s.operators.map unslotted) h.rest :)⟩

theorem logError (s : State) (n cause : Nat) (seq : Dword) : SlotsOnly s (s.logError n cause seq) := by
  have h := (traffic_logError s n cause seq).1
  exact ⟨(congrArg State.posted h :), (congrArg State.sched h :), (congrArg (fun s : State => s.operators.map unslotted) h :)⟩

theorem trapParked (s : State) (o : Op) (cause : Trap) (d : Dword) : SlotsOnly s (s.trapParked o cause d) := by
  have hd : SlotsOnly s (s.dropOp o) := haltOnly (haltOnly_dropOp s o)
  rw [State.trapParked]
  refine hd.trans ?_
  generalize s.dropOp o = t
  unfold State.trapThread
  split
  · exact .refl t
  · rename_i b _
    have hu : SlotsOnly t (t.updThr o.blk o.m (o.slots.headD 0) (fun t => { t with st := .halted, before := .ready, stop := some ⟨cause, d⟩ })) :=
      ⟨rfl, rfl, rfl⟩
    exact hu.trans (haltOnly (haltOnly_haltCtx _ b.ctx cause))

theorem failLoad (s : State) (owner : Nat) (h : Held) : SlotsOnly s (s.failLoad owner h) := by
  unfold State.failLoad
  split
  · split
    · split
      · split
        · exact ⟨rfl, rfl, rfl⟩
        · exact trapParked s _ _ _
      · exact .refl s
    · exact .refl s
  · obtain ⟨h1, h2, h3⟩ := logError s owner 0x41 0
    exact ⟨h1, h2, h3⟩
  · obtain ⟨h1, h2, h3⟩ := logError s owner 0x45 0
    exact ⟨h1, h2, h3⟩
  · exact .refl s

theorem joinStore (s : State) (op k : Nat) (ps : List (Nat × List Byte)) : SlotsOnly s (s.joinStore op k ps) := by
  unfold State.joinStore
  split
  · exact .refl s
  · dsimp only
    split <;> exact putSlot s op _

theorem joinFire (s : State) (op k : Nat) : SlotsOnly s (s.joinFire op k) := by
  unfold State.joinFire
  split
  · exact .refl s
  · dsimp only
    split
    · exact putSlot s op _
    · exact putSlot s op _
    · exact .refl s
    · exact .refl s

theorem joinRelease (s : State) (op k : Nat) : SlotsOnly s (s.joinRelease op k) := by
  unfold State.joinRelease
  split
  · exact .refl s
  · rename_i o _
    dsimp only
    split
    · exact putSlot s op _
    · exact (putSlot s op _).trans (.foldl (fun t h => failLoad t o.owner h) _ _)
    · exact putSlot s op _
    · exact .refl s

theorem joinPosted (s : State) (p : Posted) : SlotsOnly s (s.joinPosted p) := by
  unfold State.joinPosted
  split
  · rename_i o _
    unfold State.joinKind
    split
    · exact .foldl (f := fun t (q : Nat × Nat × Nat × Nat) => t.joinStore o.num q.1 _) (fun t q => joinStore t o.num q.1 _) _ s
    · exact joinStore s _ _ _
    · exact joinFire s _ _
    · exact joinRelease s _ _
    · exact .refl s
  · exact .refl s

end SlotsOnly

section Joins
variable {s : State} {e : Env}

/-- An operator as it was but for its slots. -/
theorem SlotsOnly.operator {t : State} (h : SlotsOnly s t) {n : Nat} {o : Operator} (ho : s.operator n = some o) :
    ∃ o', t.operator n = some o' ∧ unslotted o' = unslotted o := by
  have hf (u : State) : (u.operator n).map unslotted = (u.operators.map unslotted).find? (fun o => o.num == n) := by
    rw [State.operator, List.find?_map]
    rfl
  have := hf t
  rw [h.operators, ← hf s, ho, Option.map_some] at this
  exact Option.map_eq_some_iff.mp this

/-- A request that joins, or does not yet, leaves no request that was not posted. -/
theorem joinAt_posted (s : State) (i : Nat) : ∀ p ∈ (s.joinAt i).posted, p ∈ s.posted := by
  unfold State.joinAt
  split
  · exact fun p hp => hp
  · split
    · exact fun p hp => hp
    · rename_i x _ _ o _
      split
      · by_cases hs : Serves s o.unit o.owner
        · rw [serve_some hs]
          dsimp only
          rw [(SlotsOnly.joinPosted _ x).posted]
          have hpost : (serving s o.unit o.owner).posted = s.posted := by
            unfold serving
            split <;> rfl
          intro p hp
          dsimp only at hp
          rw [hpost] at hp
          obtain hp | hp := List.mem_append.mp hp
          · exact List.mem_of_mem_take hp
          · exact List.mem_of_mem_drop hp
        · rw [serve_none hs]
          dsimp only
          unfold State.stopUnit
          split
          · exact fun p hp => hp
          · exact fun p hp => hp
      · exact fun p hp => hp

/-- The request of a number joins, as far as it may. -/
def joinOne (u : State) (p : Posted) : State := ((u.posted.findIdx? (fun x => x.id == p.id)).map u.joinAt).getD u

theorem joinOne_posted (s : State) (q : Posted) : ∀ p ∈ (joinOne s q).posted, p ∈ s.posted := by
  unfold joinOne
  cases s.posted.findIdx? (fun x => x.id == q.id) with
  | none => exact fun p hp => hp
  | some i => exact joinAt_posted s i

theorem joinAll_posted (s : State) (f : Posted → Bool) : ∀ p ∈ (s.joinAll f).posted, p ∈ s.posted := by
  have h (l : List Posted) (t : State) : ∀ p ∈ (l.foldl joinOne t).posted, p ∈ t.posted := by
    induction l generalizing t with
    | nil => exact fun p hp => hp
    | cons x r ih => exact fun p hp => joinOne_posted t x p (ih _ p hp)
  exact h _ s

theorem joinAll_none {f : Posted → Bool} (h : ∀ p ∈ s.posted, f p = false) : s.joinAll f = s := by
  rw [State.joinAll, List.filter_eq_nil_iff.mpr fun p hp => by rw [h p hp]; exact Bool.false_ne_true]
  rfl

theorem posted_iff (p : Posted) : e.posted p = true ↔ ∃ k ∈ e.r.exec, p.thr = some (e.name k) := by
  rw [Env.posted, List.any_eq_true]
  exact exists_congr fun k => and_congr_right fun _ => beq_iff_eq

/-- The batch's window requests can all join: its spindle has no others, their operators are in the chucks, and the
operators' units hold the owners' programs and stop for nobody. -/
structure Joinable (s : State) (e : Env) : Prop where
  nodup : (s.posted.map (·.id)).Nodup
  waits : s.sched.waits = []
  whole : ∀ p ∈ s.posted, p.thr.map (fun x => (x.1, x.2.1)) = some (e.b.uid, e.sp.m) → e.posted p = true
  ready : ∀ p ∈ s.posted, e.posted p = true → ∃ o, s.operator p.op = some o ∧ o.bound = true ∧ o.resident = true ∧
    s.sched.units.contains (o.unit, o.owner) = true

/-- The first of the batch's requests joins. -/
theorem joinable_step (h : Joinable s e) {p : Posted} {r : List Posted} (hf : s.posted.filter e.posted = p :: r) :
    Joinable (joinOne s p) e ∧ (joinOne s p).posted.filter e.posted = r := by
  obtain ⟨l1, l2, hposted, hl1, hp, hl2⟩ := List.filter_eq_cons_iff.mp hf
  have hmem : p ∈ s.posted := by rw [hposted]; simp
  obtain ⟨o, ho, hbound, hres, hunit⟩ := h.ready p hmem hp
  have hnodup := h.nodup
  rw [hposted] at hnodup
  have hidx : s.posted.findIdx? (fun x => x.id == p.id) = some l1.length := by
    have hbefore : l1.findIdx? (fun x => x.id == p.id) = none := List.findIdx?_eq_none_iff.mpr fun q hq => by
      rw [List.map_append, List.nodup_append] at hnodup
      exact beq_eq_false_iff_ne.mpr (hnodup.2.2 q.id (List.mem_map_of_mem hq) p.id (List.mem_map_of_mem List.mem_cons_self))
    rw [hposted, List.findIdx?_append, hbefore, List.findIdx?_cons, if_pos (beq_self_eq_true p.id)]
    simp
  have hthr : p.thr.map (fun x => (x.1, x.2.1)) = some (e.b.uid, e.sp.m) := by
    obtain ⟨k, -, hk⟩ := (posted_iff p).mp hp
    rw [hk]
    rfl
  have hmay : s.mayJoin l1.length p o = true := by
    have hnone : l1.any (fun y => y.op == p.op && y.thr.map (fun t => (t.1, t.2.1)) == p.thr.map (fun t => (t.1, t.2.1)) &&
        (o.slotOf y.kind == o.slotOf p.kind || (p.grp != 0 && y.grp == p.grp))) = false := List.any_eq_false.mpr fun y hy hc => by
      obtain ⟨hc, -⟩ := Bool.and_eq_true_iff.mp hc
      obtain ⟨-, hc⟩ := Bool.and_eq_true_iff.mp hc
      exact hl1 y hy (h.whole y (by rw [hposted]; exact List.mem_append_left _ hy) ((beq_iff_eq.mp hc).trans hthr))
    rw [State.mayJoin, hbound, hres, hposted, List.take_left, hnone]
    rfl
  have hserve : s.serve o.unit o.owner = some s := by
    have hstop : s.unitStopped o.unit o.owner = false := by
      rw [State.unitStopped, h.waits]
      rfl
    rw [serve_some ⟨hstop, .inl hunit⟩, serving, if_pos hunit]
  have hjoin : joinOne s p = ({ s with posted := l1 ++ l2 } : State).joinPosted p := by
    rw [joinOne, hidx, Option.map_some, Option.getD_some, State.joinAt]
    have hget : s.posted[l1.length]? = some p := by rw [hposted]; simp
    rw [hget]
    dsimp only
    rw [ho]
    dsimp only
    rw [if_pos hmay, hserve]
    dsimp only
    rw [hposted]
    simp
  have hsl := SlotsOnly.joinPosted ({ s with posted := l1 ++ l2 } : State) p
  rw [hjoin]
  have hsub : ∀ q ∈ l1 ++ l2, q ∈ s.posted := fun q hq => by
    rw [hposted]
    obtain hq | hq := List.mem_append.mp hq
    · exact List.mem_append_left _ hq
    · exact List.mem_append_right _ (List.mem_cons_of_mem _ hq)
  refine ⟨⟨?_, ?_, fun q hq => ?_, fun q hq hm => ?_⟩, ?_⟩
  · rw [hsl.posted]
    refine hnodup.sublist (List.Sublist.map _ ?_)
    exact List.Sublist.append_left (List.sublist_cons_self p l2) l1
  · rw [hsl.sched]
    exact h.waits
  · rw [hsl.posted] at hq
    exact h.whole q (hsub q hq)
  · rw [hsl.posted] at hq
    obtain ⟨o1, ho1, hb1, hr1, hu1⟩ := h.ready q (hsub q hq) hm
    obtain ⟨o2, ho2, hsame⟩ := hsl.operator (o := o1) (n := q.op) ho1
    refine ⟨o2, ho2, (congrArg Operator.bound hsame :).trans hb1, (congrArg Operator.resident hsame :).trans hr1, ?_⟩
    rw [hsl.sched, show o2.unit = o1.unit from (congrArg Operator.unit hsame :), show o2.owner = o1.owner from (congrArg Operator.owner hsame :)]
    exact hu1
  · rw [hsl.posted, List.filter_append, List.filter_eq_nil_iff.mpr hl1, hl2]
    rfl

/-- R140: all join. -/
theorem joinAll_joins (h : Joinable s e) : (s.joinAll e.posted).posted.filter e.posted = [] := by
  have hgo (l : List Posted) (t : State) (ht : Joinable t e) (hf : t.posted.filter e.posted = l) : (l.foldl joinOne t).posted.filter e.posted = [] := by
    induction l generalizing t with
    | nil => exact hf
    | cons p r ih =>
      obtain ⟨h1, h2⟩ := joinable_step ht hf
      exact ih _ h1 h2
  exact hgo _ s h rfl

/-- What a fence of the window does at issue. -/
structure JoinsAll (s t0 t : State) (e : Env) (all : Bool) : Prop where
  queued : ∃ reqs, Queued t0 t e (.winFence reqs all) ∧ ∀ i, i ∈ reqs ↔ ∃ p ∈ t0.posted, (∃ k ∈ e.r.exec, p.thr = some (e.name k)) ∧ p.id = i
  none : (∀ p ∈ s.posted, ¬∃ k ∈ e.r.exec, p.thr = some (e.name k)) → t0 = s
  posted : ∀ p ∈ t0.posted, p ∈ s.posted
  whole : (s.posted.map (·.id)).Nodup → s.sched.waits = [] →
    (∀ p ∈ s.posted, p.thr.map (fun x => (x.1, x.2.1)) = some (e.b.uid, e.sp.m) → ∃ k ∈ e.r.exec, p.thr = some (e.name k)) →
    (∀ p ∈ s.posted, (∃ k ∈ e.r.exec, p.thr = some (e.name k)) → ∃ o, s.operator p.op = some o ∧ o.bound = true ∧ o.resident = true ∧
      s.sched.units.contains (o.unit, o.owner) = true) →
    ∀ p ∈ t0.posted, ¬∃ k ∈ e.r.exec, p.thr = some (e.name k)

theorem winFence_joins (s : State) (e : Env) (all : Bool) : JoinsAll s (s.joinAll e.posted) (s.winFence e all) e all where
  queued := ⟨_, rfl, fun i => by
    rw [List.mem_map]
    refine exists_congr fun p => ?_
    rw [List.mem_filter, posted_iff, and_assoc]⟩
  none h := joinAll_none fun p hp => by
    rw [← Bool.not_eq_true, posted_iff]
    exact h p hp
  posted := joinAll_posted s _
  whole hnodup hwaits hwhole hready p hp hm := by
    have h : Joinable s e := ⟨hnodup, hwaits, fun q hq hk => (posted_iff q).mpr (hwhole q hq hk), fun q hq hk =>
      hready q hq ((posted_iff q).mp hk)⟩
    exact List.filter_eq_nil_iff.mp (joinAll_joins h) p hp ((posted_iff p).mpr hm)

end Joins

/-! `persist` completes (R126, R127, R253). -/

/-- The earlier contents kept for a loss of power are numbered below the next. -/
def Numbered (s : State) : Prop := ∀ x ∈ s.durable, x.2.1 < s.writes

section Persist

theorem numbered_commit {s : State} (h : Numbered s) (pa : Nat) (d : List Byte) : Numbered (s.commit pa d) := by
  have hk : Numbered (s.keepLine (lineOf pa)) := fun x hx => by
    obtain rfl | hx := List.mem_cons.mp hx
    · exact Nat.lt_succ_self _
    · exact Nat.lt_succ_of_lt (h x hx)
  unfold State.commit
  dsimp only
  split
  · exact hk
  · exact hk
  · exact h

theorem numbered_ack {s : State} (h : Numbered s) (f : Pend → Bool) : Numbered (s.ack f) := by
  have hl (l : List Pend) (t : State) (ht : Numbered t) : Numbered (l.foldl (fun t x => t.commit x.pa x.data) t) := by
    induction l generalizing t with
    | nil => exact ht
    | cons x r ih => exact ih _ (numbered_commit ht x.pa x.data)
  exact hl _ _ h

theorem numbered_stashBack {s : State} (h : Numbered s) (b : Block) (x : Nat × Nat) : Numbered (s.stashBack b x) := by
  unfold State.stashBack
  split
  · exact h
  · exact numbered_commit (numbered_ack h _) _ _

theorem numbered_recallFrom {s : State} (h : Numbered s) (u : Nat) (x : Nat × Nat) : Numbered (s.recallFrom u x) := by
  unfold State.recallFrom
  split
  · exact h
  · rename_i b _
    dsimp only
    split
    · exact numbered_stashBack h b x
    · exact h

theorem numbered_recall {s : State} (h : Numbered s) (line : Nat) : Numbered (s.recall line) := by
  have hone (u : Nat) (l : List (Nat × Nat)) (t : State) (ht : Numbered t) : Numbered (l.foldl (fun t x => t.recallFrom u x) t) := by
    induction l generalizing t with
    | nil => exact ht
    | cons x r ih => exact ih _ (numbered_recallFrom ht u x)
  have hall (l : List Block) (t : State) (ht : Numbered t) :
      Numbered (l.foldl (fun t b => (b.owned.filter (fun x => x.2 == line)).foldl (fun u x => u.recallFrom b.uid x) t) t) := by
    induction l generalizing t with
    | nil => exact ht
    | cons b r ih => exact ih _ (hone b.uid _ t ht)
  exact hall s.blocks s h

/-- The lines of ranges leave the part's caches. -/
def flushed (s : State) (ranges : List (Nat × Nat)) : State := (rangeLines ranges).foldl (fun t l => (t.recall l).ackLine l) s

theorem flushed_spec (s : State) (ranges : List (Nat × Nat)) :
    Traffic s (flushed s ranges) ∧ (flushed s ranges).health = s.health ∧ (Numbered s → Numbered (flushed s ranges)) := by
  have h (l : List Nat) (t : State) : Traffic t (l.foldl (fun t l => (t.recall l).ackLine l) t) ∧
      (l.foldl (fun t l => (t.recall l).ackLine l) t).health = t.health ∧
      (Numbered t → Numbered (l.foldl (fun t l => (t.recall l).ackLine l) t)) := by
    induction l generalizing t with
    | nil => exact ⟨.refl t, rfl, id⟩
    | cons x r ih =>
      obtain ⟨h1, h2, h3⟩ := ih ((t.recall x).ackLine x)
      have hk := (recallKeeps_recall t x).trans (recallKeeps_ack (t.recall x) (fun p => lineOf p.pa == x))
      exact ⟨(traffic_giveLine t x).trans h1, h2.trans hk.health, fun hn => h3 (numbered_ack (numbered_recall hn x) _)⟩
  exact h _ s

theorem mem_allLines {ranges : List (Nat × Nat)} {r : Nat × Nat} (hr : r ∈ ranges) {i : Nat} (hi : i < r.2) :
    (rangeLines ranges).contains ((r.1 + i) / 128) = true :=
  List.contains_iff_mem.mpr (List.mem_flatMap.mpr ⟨r, hr, mem_rangeLines.mpr ⟨i, hi, rfl⟩⟩)

/-- Of the contents of a range's lines, those numbered below the mark are dropped. -/
theorem persisted_durable (s : State) {ranges : List (Nat × Nat)} (mark : Nat) {r : Nat × Nat} (hr : r ∈ ranges) {i : Nat} (hi : i < r.2)
    {x : Nat × Nat × List Byte} (hx : x ∈ (s.persisted ranges mark).durable) (hl : x.1 = (r.1 + i) / 128) : x ∈ s.durable ∧ mark ≤ x.2.1 := by
  obtain ⟨hm, hkeep⟩ := List.mem_filter.mp hx
  rw [hl, mem_allLines hr hi, Bool.true_and, Bool.not_eq_true', decide_eq_false_iff_not] at hkeep
  exact ⟨hm, Nat.le_of_not_lt hkeep⟩

variable {s : State} {o : Op} {ranges : List (Nat × Nat)}

/-- A range lies in stock memory. -/
def inStock (r : Nat × Nat) : Bool := match pclass r.1 with | .stock _ => true | _ => false

theorem inStock_iff (r : Nat × Nat) : inStock r = true ↔ ∃ p, pclass r.1 = .stock p := by
  unfold inStock
  cases pclass r.1 <;> simp

theorem persistStart_eq (hd : ∀ r ∈ ranges, s.downIn r.1 r.2 = none) : s.persistStart o ranges =
    if (ranges.filter inStock).isEmpty then ((flushed s ranges).persisted ranges (flushed s ranges).writes).dropOp o
    else ({ flushed s ranges with out := (flushed s ranges).out ++ (ranges.filter inStock).map (fun (r : Nat × Nat) => OutMsg.downFlush r.1 r.2) }).setKind
      o.id (.persist ranges (some (flushed s ranges).writes)) := by
  have hdown : firstSome (ranges.map (fun r => (flushed s ranges).downIn r.1 r.2)) = none := firstSome_none fun y hy => by
    obtain ⟨r, hr, rfl⟩ := List.mem_map.mp hy
    rw [State.downIn, (flushed_spec s ranges).2.1]
    exact hd r hr
  have h : s.persistStart o ranges = (match firstSome (ranges.map (fun r => (flushed s ranges).downIn r.1 r.2)) with
    | some l => ((flushed s ranges).dropOp o).faultThread o.blk o.m (o.slots.headD 0) .uncorrectable (BitVec.ofNat 64 (128 * l))
    | none =>
      if (ranges.filter inStock).isEmpty then ((flushed s ranges).persisted ranges (flushed s ranges).writes).dropOp o
      else ({ flushed s ranges with out := (flushed s ranges).out ++ (ranges.filter inStock).map (fun (r : Nat × Nat) => OutMsg.downFlush r.1 r.2) }).setKind
        o.id (.persist ranges (some (flushed s ranges).writes))) := rfl
  rw [h, hdown]

theorem complete_persist (hk : o.kind = .persist ranges none) (hu : s.unsent o = false) : s.complete o = some (s.persistStart o ranges) := by
  have haway : s.away o = false := by
    rw [State.away, hk]
    simp [OpKind.engine, OpKind.rows]
  rw [State.complete, haway, hu, hk]
  rfl

theorem ops_dropOp (s : State) (o : Op) : ∀ x ∈ (s.dropOp o).ops, x.id ≠ o.id := fun x hx => by
  simpa using (List.mem_filter.mp hx).2

/-- `persist` completes, or waits for its devices. -/
theorem persist_completes (ho : pending s o.id = some o) (hk : o.kind = .persist ranges none) (hu : s.unsent o = false)
    (hd : ∀ r ∈ ranges, s.downIn r.1 r.2 = none) (hn : Numbered s) :
    ∃ t, exec (.tokenClear o.id) s = .next t ∧
      ((∀ r ∈ ranges, ¬∃ p, pclass r.1 = .stock p) → (∀ x ∈ t.ops, x.id ≠ o.id) ∧
        ∀ r ∈ ranges, ∀ i < r.2, ∀ x ∈ t.durable, x.1 ≠ (r.1 + i) / 128) ∧
      ∀ r ∈ ranges, (∃ p, pclass r.1 = .stock p) → OutMsg.downFlush r.1 r.2 ∈ t.out ∧
        ∃ mark, (pending t o.id).map (·.kind) = some (.persist ranges (some mark)) ∧ ∀ x ∈ t.durable, x.2.1 < mark := by
  obtain ⟨htr, -, hnum⟩ := flushed_spec s ranges
  refine ⟨_, execTokenClear_complete ho (complete_persist hk hu), fun hnone => ?_, fun r hr hstock => ?_⟩
  · have hempty : (ranges.filter inStock).isEmpty = true := List.isEmpty_iff.mpr (List.filter_eq_nil_iff.mpr fun r hr h =>
      hnone r hr ((inStock_iff r).mp h))
    rw [persistStart_eq hd, if_pos hempty]
    have hreq := requestsOnly_answered (((flushed s ranges).persisted ranges (flushed s ranges).writes).dropOp o) o
    refine ⟨fun x hx => ?_, fun r hr i hi x hx hl => ?_⟩
    · rw [hreq.ops] at hx
      exact ops_dropOp _ o x hx
    · have hdur : x ∈ ((flushed s ranges).persisted ranges (flushed s ranges).writes).durable := by
        rw [show _ = _ from (congrArg State.durable hreq :)] at hx
        exact hx
      obtain ⟨hm, hge⟩ := persisted_durable _ _ hr hi hdur hl
      exact absurd (hnum hn x hm) (Nat.not_lt.mpr hge)
  · have hmem : r ∈ ranges.filter inStock := List.mem_filter.mpr ⟨hr, (inStock_iff r).mpr hstock⟩
    rw [persistStart_eq hd, if_neg fun h => by rw [List.isEmpty_iff.mp h] at hmem; cases hmem]
    generalize hw : ({ flushed s ranges with
      out := (flushed s ranges).out ++ (ranges.filter inStock).map (fun (r : Nat × Nat) => OutMsg.downFlush r.1 r.2) } : State) = w
    have hreq := requestsOnly_answered (w.setKind o.id (.persist ranges (some (flushed s ranges).writes))) o
    have hpend : pending w o.id = some o := by
      rw [← ho, ← hw]
      exact pending_congr (congrArg State.ops htr.1 :) o.id
    refine ⟨(out_flushHeld _).subset ?_, (flushed s ranges).writes, ?_, fun x hx => ?_⟩
    · subst hw
      exact List.mem_append_right _ (List.mem_map.mpr ⟨r, hmem, rfl⟩)
    · rw [pending_congr hreq.ops]
      exact pending_setKind hpend _
    · rw [show _ = _ from (congrArg State.durable hreq :)] at hx
      subst hw
      exact hnum hn x hx

/-- The devices have flushed. -/
theorem persistAck_ends (ho : pending s o.id = some o) {mark : Nat} (hk : o.kind = .persist ranges (some mark)) :
    ∃ t, execMicro (.persistAck o.id) s = .next t ∧ (∀ x ∈ t.ops, x.id ≠ o.id) ∧
      ∀ r ∈ ranges, ∀ i < r.2, ∀ x ∈ t.durable, x.1 = (r.1 + i) / 128 → mark ≤ x.2.1 := by
  have hexec : execMicro (.persistAck o.id) s = .next ((s.persisted ranges mark).dropOp o) := by
    change execPersistAck o.id s = _
    rw [execPersistAck, show s.ops.find? (fun x => x.id == o.id) = some o from ho]
    dsimp only
    rw [hk]
  exact ⟨_, hexec, ops_dropOp _ o, fun r hr i hi x hx hl => (persisted_durable s mark hr hi hx hl).2⟩

end Persist

/-- Settles O18. -/
theorem orderingInstructions : Obligations.OrderingInstructions := by
  unfold Obligations.OrderingInstructions
  intro s e sc set pol m len l h
  refine ⟨fence_orders h sc, fence_async h sc, ?_, ?_, pref_keeps h pol m, roinv_drops h, persist_issues h, opfence_shows h,
    fun o ranges ho => ⟨fun hk hu hd hn => persist_completes ho hk hu hd hn, fun mark hk => persistAck_ends ho hk⟩⟩
  · obtain ⟨h1, h2, h3, h4⟩ := winFence_joins s e false
    have hexec : exec (.fence sc .win) s = .next (s.winFence e false) := by
      change execFence sc .win s = _
      rw [execFence, within_env h, if_pos (by decide)]
    exact ⟨_, _, hexec, h1, h2, h3, h4⟩
  · obtain ⟨h1, h2, h3, h4⟩ := winFence_joins s e true
    have hexec : exec .wfence s = .next (s.winFence e true) := by
      change execWfence s = _
      rw [execWfence, within_env h]
    exact ⟨_, _, hexec, h1, h2, h3, h4⟩

end Sys2Proof.Safety
end

section
/-! PROOF. A collective issues (R314 to R317). -/

namespace Sys2Proof.Safety
open Sys2Proof.Machine

/-! The stages of the issue: descriptor, table, ranges. -/

/-- The number of devices in a descriptor's table. -/
def collDevices (b : List Byte) : Nat := ((List.range 4).map (fun n => bitsOf b (128 + 16 * n) 16)).foldl (· * ·) 1

/-- The device numbers in the bytes of a table. -/
def collEnts (b tb : List Byte) : List Nat := (List.range (collDevices b)).map (fun i => leNat ((tb.drop (2 * i)).take 2))

section Stages
variable (e : Env) (d : BitVec 6) (red : Red) (desc inp out ctr : Dword)

/-- The issue, its descriptor `b` and its table `tb` read. -/
def collTabled (b tb : List Byte) (s : State) : State :=
  if (collEnts b tb).any (fun x => decide (4095 < x)) || !(decide (collEnts b tb).Nodup) then s.collEnd e d ctr 0x11
  else if collFields b red != 0 then s.collEnd e d ctr (collFields b red)
  else s.collStart e d (collDesc b red (collEnts b tb)) inp out ctr

/-- The issue, its descriptor `b` read and its table's translations at hand. -/
def collListed (b : List Byte) (s : State) : State :=
  match s.collRange e (BitVec.ofNat 64 (bitsOf b 0 64)) (2 * collDevices b) askRead with
  | .error x => s.stopped e e.low false x
  | .ok none => s.collEnd e d ctr 0x14
  | .ok (some tl) =>
    match s.badLocs tl with
    | some b => s.unitHalt e 5 b
    | none => collTabled e d red inp out ctr b (s.readLocs (some e.b.core) tl).1 (s.readLocs (some e.b.core) tl).2

/-- The issue, its descriptor `b` read. -/
def collDescribed (b : List Byte) (s : State) : State :=
  if collFields b red == 0x11 then s.collEnd e d ctr 0x11
  else collListed e d red inp out ctr b (s.walked (e.walker s) (BitVec.ofNat 64 (bitsOf b 0 64)) (2 * collDevices b))

/-- The issue, its descriptor's translations at hand. -/
def collFetched (s : State) : State :=
  if desc.toNat % 64 != 0 then s.collEnd e d ctr 0x11
  else
    match s.collRange e desc 64 askRead with
    | .error x => s.stopped e e.low false x
    | .ok none => s.collEnd e d ctr 0x14
    | .ok (some l) =>
      match s.badLocs l with
      | some b => s.unitHalt e 5 b
      | none => collDescribed e d red inp out ctr (s.readLocs (some e.b.core) l).1 (s.readLocs (some e.b.core) l).2

end Stages

section Coll
variable {s : State} {e : Env} {d : BitVec 6} {red : Red} {desc inp out ctr : Sel}

theorem coll_halts (h : s.env = some e) {c : Trap} {x : Dword} (hbad : s.counterFault e.b.launch e.b.ctx (e.readU ctr) = some (c, x)) :
    exec (.coll d red desc inp out ctr) s = .next (s.trap e e.low c x) := by
  change execColl d red desc inp out ctr s = _
  rw [execColl, within_env h]
  dsimp only
  rw [hbad]

theorem coll_unit (h : s.env = some e) (hgood : s.counterFault e.b.launch e.b.ctx (e.readU ctr) = none) :
    exec (.coll d red desc inp out ctr) s = .next (s.withUnit e 0 (fun u =>
      collFetched e d red (e.readU desc) (e.readU inp) (e.readU out) (e.readU ctr) (u.walkedAll (e.walker u) [(e.readU desc, 64)]))) := by
  change execColl d red desc inp out ctr s = _
  rw [execColl, within_env h]
  dsimp only
  rw [hgood]
  rfl

theorem coll_held (h : s.env = some e) (hgood : s.counterFault e.b.launch e.b.ctx (e.readU ctr) = none) (hs : ¬Serves s 0 e.b.ctx) :
    ∃ t, exec (.coll d red desc inp out ctr) s = .next t ∧ HeldAt s t e := ⟨_, coll_unit h hgood, withUnit_held hs _⟩

/-- The sequencer serves: the issue goes on from the state in which it does. -/
theorem coll_served (h : s.env = some e) (hgood : s.counterFault e.b.launch e.b.ctx (e.readU ctr) = none) (hs : Serves s 0 e.b.ctx) :
    exec (.coll d red desc inp out ctr) s = .next (collFetched e d red (e.readU desc) (e.readU inp) (e.readU out) (e.readU ctr)
      ((serving s 0 e.b.ctx).walkedAll (e.walker (serving s 0 e.b.ctx)) [(e.readU desc, 64)])) := by
  rw [coll_unit h hgood, withUnit_served hs]

end Coll

section Steps
variable {w u : State} {e : Env} {d : BitVec 6} {red : Red} {desc inp out ctr va : Dword} {n : Nat} {a : Ask} {l tl : List (Loc × Nat)}
  {b tb : List Byte} {c : Trap} {x : Dword}

theorem collRange_ok (hn : n ≠ 0) (h : w.checkAccess (e.walker w) va n a (fun _ => none) = .ok l) : w.collRange e va n a = .ok (some l) := by
  rw [State.collRange, if_neg (by simpa using hn), h]

theorem collRange_fails (hn : n ≠ 0) (h : w.checkAccess (e.walker w) va n a (fun _ => none) = .error (.trap c x)) :
    w.collRange e va n a = .ok none := by
  rw [State.collRange, if_neg (by simpa using hn), h]

theorem collFetched_misaligned (ha : desc.toNat % 64 ≠ 0) : collFetched e d red desc inp out ctr w = w.collEnd e d ctr 0x11 := by
  rw [collFetched, if_pos (by simpa using ha)]

theorem collFetched_fails (ha : desc.toNat % 64 = 0) (h : w.checkAccess (e.walker w) desc 64 askRead (fun _ => none) = .error (.trap c x)) :
    collFetched e d red desc inp out ctr w = w.collEnd e d ctr 0x14 := by
  rw [collFetched, if_neg (by simpa using ha), collRange_fails (by decide) h]

theorem collFetched_reads (ha : desc.toNat % 64 = 0) (h : w.checkAccess (e.walker w) desc 64 askRead (fun _ => none) = .ok l)
    (hb : w.badLocs l = none) (hr : w.readLocs (some e.b.core) l = (b, u)) :
    collFetched e d red desc inp out ctr w = collDescribed e d red inp out ctr b u := by
  rw [collFetched, if_neg (by simpa using ha), collRange_ok (by decide) h]
  dsimp only
  rw [hb, hr]

theorem collDescribed_reserved (h : collFields b red = 0x11) : collDescribed e d red inp out ctr b w = w.collEnd e d ctr 0x11 := by
  rw [collDescribed, if_pos (by simpa using h)]

theorem collDescribed_lists (h : collFields b red ≠ 0x11) : collDescribed e d red inp out ctr b w =
    collListed e d red inp out ctr b (w.walked (e.walker w) (BitVec.ofNat 64 (bitsOf b 0 64)) (2 * collDevices b)) := by
  rw [collDescribed, if_neg (by simpa using h)]

theorem collListed_fails (hn : collDevices b ≠ 0)
    (h : w.checkAccess (e.walker w) (BitVec.ofNat 64 (bitsOf b 0 64)) (2 * collDevices b) askRead (fun _ => none) = .error (.trap c x)) :
    collListed e d red inp out ctr b w = w.collEnd e d ctr 0x14 := by
  rw [collListed, collRange_fails (by omega) h]

theorem collListed_reads (hn : collDevices b ≠ 0)
    (h : w.checkAccess (e.walker w) (BitVec.ofNat 64 (bitsOf b 0 64)) (2 * collDevices b) askRead (fun _ => none) = .ok tl)
    (hb : w.badLocs tl = none) (hr : w.readLocs (some e.b.core) tl = (tb, u)) :
    collListed e d red inp out ctr b w = collTabled e d red inp out ctr b tb u := by
  rw [collListed, collRange_ok (by omega) h]
  dsimp only
  rw [hb, hr]

theorem collTabled_refused (h : (∃ y ∈ collEnts b tb, 4096 ≤ y) ∨ ¬(collEnts b tb).Nodup) :
    collTabled e d red inp out ctr b tb w = w.collEnd e d ctr 0x11 := by
  rw [collTabled, if_pos]
  rw [Bool.or_eq_true, List.any_eq_true, Bool.not_eq_true', decide_eq_false_iff_not]
  exact h.imp_left fun ⟨y, hy, h⟩ => ⟨y, hy, decide_eq_true h⟩

theorem collTabled_good (h : ∀ y ∈ collEnts b tb, y < 4096) (hn : (collEnts b tb).Nodup) : collTabled e d red inp out ctr b tb w =
    if collFields b red != 0 then w.collEnd e d ctr (collFields b red)
    else w.collStart e d (collDesc b red (collEnts b tb)) inp out ctr := by
  rw [collTabled, if_neg]
  rw [Bool.or_eq_true, List.any_eq_true, Bool.not_eq_true', decide_eq_false_iff_not]
  rintro (⟨y, hy, hle⟩ | hn')
  · have := h y hy
    have := of_decide_eq_true hle
    omega
  · exact hn' hn

/-! The ranges (R317). -/

/-- The state with the ranges' translations at hand. -/
def collPlaced (e : Env) (D : CollD) (inp out : Dword) (pos : Nat) (s : State) : State :=
  s.walkedAll (e.walker s) [(inp, D.bytes D.froms pos), (out, D.bytes D.tos pos)]

variable {D : CollD} {pos : Nat} {li lo : List (Loc × Nat)}

theorem collStart_absent (h : w.fabric.device.toNat ∉ D.table) : w.collStart e d D inp out ctr = w.collEnd e d ctr 0x13 := by
  rw [State.collStart, List.findIdx?_eq_none_iff.mpr fun y hy => by
    rw [beq_eq_false_iff_ne]
    rintro rfl
    exact h hy]

/-- An operation takes part in the collective of the number. -/
def collBusy (s : State) (id : Nat) : Prop := ∃ o ∈ s.ops, ∃ r q i' o' w sl, o.kind = .coll r q i' o' w sl none ∧ q.collid = id

theorem collBusy_iff (s : State) (id : Nat) : s.ops.any (fun x => match x.kind with
    | .coll _ q _ _ _ _ none => q.collid == id
    | _ => false) = true ↔ collBusy s id := by
  rw [List.any_eq_true]
  refine exists_congr fun o => and_congr_right fun _ => ?_
  constructor
  · intro h
    split at h
    · rename_i r q i' o' w sl hk
      exact ⟨r, q, i', o', w, sl, hk, beq_iff_eq.mp h⟩
    · cases h
  · rintro ⟨r, q, i', o', w, sl, hk, hq⟩
    rw [hk]
    exact beq_iff_eq.mpr hq

section Ranges
variable (hpos : D.table.findIdx? (fun y => y == w.fabric.device.toNat) = some pos) (hi : D.bytes D.froms pos ≠ 0)
  (ho : D.bytes D.tos pos ≠ 0) (hlo : (collPlaced e D inp out pos w).checkAccess (e.walker (collPlaced e D inp out pos w)) out
    (D.bytes D.tos pos) askWrite (fun _ => none) = .ok lo)
include hpos hi ho hlo

theorem collStart_fails (hli : (collPlaced e D inp out pos w).checkAccess (e.walker (collPlaced e D inp out pos w)) inp
    (D.bytes D.froms pos) askRead (fun _ => none) = .error (.trap c x)) :
    w.collStart e d D inp out ctr = (collPlaced e D inp out pos w).collEnd e d ctr 0x14 := by
  rw [State.collStart, hpos]
  dsimp only
  rw [← collPlaced, collRange_fails hi hli, collRange_ok ho hlo]

theorem collStart_placed (hli : (collPlaced e D inp out pos w).checkAccess (e.walker (collPlaced e D inp out pos w)) inp
    (D.bytes D.froms pos) askRead (fun _ => none) = .ok li) :
    (collBusy (collPlaced e D inp out pos w) D.collid →
      w.collStart e d D inp out ctr = (collPlaced e D inp out pos w).collEnd e d ctr 0x16) ∧
    (¬collBusy (collPlaced e D inp out pos w) D.collid → w.collStart e d D inp out ctr =
      ({ collPlaced e D inp out pos w with out := (collPlaced e D inp out pos w).out ++ [OutMsg.collStart D.collid] } : State).addOp e e.r.exec
        (.coll d.toNat D li lo ctr [] none)) := by
  rw [State.collStart, hpos]
  dsimp only
  rw [← collPlaced, collRange_ok hi hli, collRange_ok ho hlo]
  dsimp only
  rw [← collBusy_iff]
  exact ⟨fun h => if_pos h, fun h => if_neg h⟩

end Ranges
end Steps

/-! The fields of a descriptor (R314, R317). -/

/-- The size of an axis, and the layout bytes of an axis before and after. -/
def axisSize (b : List Byte) (k : Nat) : Nat := bitsOf b (128 + 16 * k) 16
def layFrom (b : List Byte) (k : Nat) : Byte := BitVec.ofNat 8 (bitsOf b (192 + 8 * k) 8)
def layTo (b : List Byte) (k : Nat) : Byte := BitVec.ofNat 8 (bitsOf b (224 + 8 * k) 8)

section Fields
variable (b : List Byte) (red : Red)

/-- A layout byte that R314 reserves. -/
def badLay (y : Byte) : Prop := layKind y = 3 ∨ y.toNat / 4 % 16 ≠ 0 ∨ (layKind y = 1 ∧ bitsOf b 116 4 ≤ layDim y) ∨
  (layKind y ≠ 1 ∧ layDim y ≠ 0)

/-- A reserved field has another value, or a field lies outside its range (status 0x11). -/
def collReserved : Prop := bitsOf b 448 64 ≠ 0 ∨ bitsOf b 123 5 ≠ 0 ∨ 4 < bitsOf b 120 3 ∨ bitsOf b 116 4 = 0 ∨ 4 < bitsOf b 116 4 ∨
  bitsOf b 112 4 = 0 ∨ 4 < bitsOf b 112 4 ∨ bitsOf b 96 16 = 0 ∨ bitsOf b 0 64 % 2 = 1 ∨
  (∃ k, k < 4 ∧ (axisSize b k = 0 ∨ 4096 < axisSize b k)) ∨
  (∃ k, bitsOf b 112 4 ≤ k ∧ k < 4 ∧ axisSize b k ≠ 1) ∨ 4096 < axisSize b 0 * axisSize b 1 * axisSize b 2 * axisSize b 3 ∨
  (∃ k, k < bitsOf b 112 4 ∧ (badLay b (layFrom b k) ∨ badLay b (layTo b k))) ∨
  (red = .clip ∧ ¬(0 < bitsOf b 436 12 ∧ bitsOf b 436 12 < 0x7FF))

/-- An axis cuts a dimension under a layout. -/
def cutsDim (lay : Nat → Byte) (k : Nat) : Prop := k < bitsOf b 112 4 ∧ layKind (lay k) = 1

/-- A layout that R315 refuses. -/
def layRefused (lay : Nat → Byte) : Prop :=
  (∃ k, cutsDim b lay k ∧ bitsOf b (256 + 32 * layDim (lay k)) 32 % axisSize b k ≠ 0) ∨
  ∃ j k, j ≠ k ∧ cutsDim b lay j ∧ cutsDim b lay k ∧ layDim (lay j) = layDim (lay k)

/-- An axis that reduces. -/
def reducesAxis (k : Nat) : Prop := k < bitsOf b 112 4 ∧ layKind (layFrom b k) = 2 ∧ layKind (layTo b k) ≠ 2

/-- The layouts are refused (status 0x12). -/
def collLayout : Prop := (∃ k, k < bitsOf b 112 4 ∧ layKind (layFrom b k) = 1 ∧ layKind (layTo b k) = 2) ∨ layRefused b (layFrom b) ∨
  layRefused b (layTo b) ∨ (red = .clip ∧ (2 < bitsOf b 120 3 ∨ ¬∃ k, reducesAxis b k ∧ ∀ j, reducesAxis b j → j = k))

/-! The tests as `collFields` makes them: `collFields_eq` ties them to it, and a lemma `_iff` each to its field's rule. -/

def okLay (y : Byte) : Bool :=
  layKind y != 3 && y.toNat / 4 % 16 == 0 && (if layKind y == 1 then decide (layDim y < bitsOf b 116 4) else layDim y == 0)

def sizeList : List Nat := (List.range 4).map (axisSize b)

def reservedTest : Bool :=
  bitsOf b 448 64 != 0 || bitsOf b 123 5 != 0 || decide (4 < bitsOf b 120 3) || bitsOf b 116 4 == 0 || decide (4 < bitsOf b 116 4) ||
    bitsOf b 112 4 == 0 || decide (4 < bitsOf b 112 4) || bitsOf b 96 16 == 0 || bitsOf b 0 1 != 0 ||
    (sizeList b).any (fun s => s == 0 || decide (4096 < s)) || ((sizeList b).drop (bitsOf b 112 4)).any (· != 1) ||
    decide (4096 < (sizeList b).foldl (· * ·) 1) ||
    (List.range (bitsOf b 112 4)).any (fun n => !okLay b (layFrom b n) || !okLay b (layTo b n)) ||
    (red == .clip && !limitOk (BitVec.ofNat 64 (bitsOf b 384 64)))

def shardList (lay : Nat → Byte) : List (Nat × Nat) :=
  (List.range (bitsOf b 112 4)).filterMap (fun n => if layKind (lay n) == 1 then some (layDim (lay n), (sizeList b).getD n 1) else none)

def refusedTest (lay : Nat → Byte) : Bool :=
  !(decide (((shardList b lay).map (·.1)).Nodup)) || (shardList b lay).any (fun x => bitsOf b (256 + 32 * x.1) 32 % x.2 != 0)

def reduceList : List Nat := (List.range (bitsOf b 112 4)).filter (fun n => layKind (layFrom b n) == 2 && layKind (layTo b n) != 2)

def layoutTest : Bool :=
  (List.range (bitsOf b 112 4)).any (fun n => layKind (layFrom b n) == 1 && layKind (layTo b n) == 2) || refusedTest b (layFrom b) ||
    refusedTest b (layTo b) || (red == .clip && (decide (2 < bitsOf b 120 3) || (reduceList b).length != 1))

theorem collFields_eq : collFields b red = if reservedTest b red then 0x11 else if layoutTest b red then 0x12 else 0 := rfl

theorem okLay_iff (y : Byte) : okLay b y = false ↔ badLay b y := by
  unfold okLay badLay
  by_cases h1 : layKind y = 1
  · simp [h1]
    omega
  · simp [h1]
    omega

/-- A field of a field. -/
theorem bitsOf_part (lo n k m : Nat) (h : k + m ≤ n) : bitsOf b lo n / 2 ^ k % 2 ^ m = bitsOf b (lo + k) m := by
  unfold bitsOf
  rw [Nat.pow_add, ← Nat.div_div_eq_div_mul]
  generalize leNat b / 2 ^ lo = v
  rw [show n = k + (n - k) by omega, Nat.pow_add, Nat.mod_mul_right_div_self, Nat.mod_mod_of_dvd]
  exact Nat.pow_dvd_pow 2 (by omega)

theorem limitOk_iff : limitOk (BitVec.ofNat 64 (bitsOf b 384 64)) = true ↔ 0 < bitsOf b 436 12 ∧ bitsOf b 436 12 < 0x7FF := by
  have hlt : bitsOf b 384 64 < 2 ^ 64 := bitsOf_lt b 384 64
  have hpart := bitsOf_part b 384 64 52 12 (by decide)
  have hdiv : bitsOf b 384 64 / 2 ^ 52 = bitsOf b 436 12 := by
    rw [← hpart]
    omega
  rw [limitOk, BitVec.toNat_ofNat, Nat.mod_eq_of_lt hlt, hdiv]
  simp

theorem reservedTest_iff : reservedTest b red = true ↔ collReserved b red := by
  have hmul : (sizeList b).foldl (· * ·) 1 = axisSize b 0 * axisSize b 1 * axisSize b 2 * axisSize b 3 := by
    simp [sizeList, List.range_succ]
  have h0 : bitsOf b 0 64 % 2 = bitsOf b 0 1 := by
    have := bitsOf_part b 0 64 0 1 (by decide)
    simpa using this
  have h1 : bitsOf b 0 1 ≠ 0 ↔ bitsOf b 0 1 = 1 := by
    have : bitsOf b 0 1 < 2 := bitsOf_lt b 0 1
    omega
  have hsize : (sizeList b).any (fun s => s == 0 || decide (4096 < s)) = true ↔ ∃ k, k < 4 ∧ (axisSize b k = 0 ∨ 4096 < axisSize b k) := by
    simp [sizeList]
  have hdrop : ((sizeList b).drop (bitsOf b 112 4)).any (· != 1) = true ↔ ∃ k, bitsOf b 112 4 ≤ k ∧ k < 4 ∧ axisSize b k ≠ 1 := by
    rw [List.any_eq_true]
    constructor
    · rintro ⟨x, hx, hne⟩
      obtain ⟨i, hi, rfl⟩ := List.mem_drop_iff_getElem.mp hx
      have hlen : (sizeList b).length = 4 := rfl
      rw [hlen] at hi
      refine ⟨bitsOf b 112 4 + i, Nat.le_add_right _ _, by omega, ?_⟩
      simpa [sizeList] using hne
    · rintro ⟨k, h1, h2, hne⟩
      refine ⟨axisSize b k, List.mem_drop_iff_getElem.mpr ⟨k - bitsOf b 112 4, ?_, ?_⟩, by simpa using hne⟩
      · rw [show (sizeList b).length = 4 from rfl]
        omega
      · simp [sizeList, Nat.add_sub_cancel' h1]
  have hlay : (List.range (bitsOf b 112 4)).any (fun n => !okLay b (layFrom b n) || !okLay b (layTo b n)) = true ↔
      ∃ k, k < bitsOf b 112 4 ∧ (badLay b (layFrom b k) ∨ badLay b (layTo b k)) := by
    simp [List.any_eq_true, okLay_iff]
  rw [reservedTest, collReserved, hmul, h0]
  simp only [Bool.or_eq_true, hsize, hdrop, hlay, Bool.and_eq_true, Bool.not_eq_true', ← Bool.not_eq_true (limitOk _), limitOk_iff,
    bne_iff_ne, beq_iff_eq, decide_eq_true_eq, or_assoc, h1]

/-- An axis's size, of the four listed. -/
theorem sizeList_getD {k : Nat} (h : k < 4) : (sizeList b).getD k 1 = axisSize b k := by
  rw [sizeList, List.getD_eq_getElem?_getD, List.getElem?_map, List.getElem?_range h]
  rfl

theorem mem_shardList (hna : bitsOf b 112 4 ≤ 4) (lay : Nat → Byte) (x : Nat × Nat) :
    x ∈ shardList b lay ↔ ∃ k, cutsDim b lay k ∧ x = (layDim (lay k), axisSize b k) := by
  rw [shardList, List.mem_filterMap]
  constructor
  · rintro ⟨k, hk, hx⟩
    have hk := List.mem_range.mp hk
    split at hx
    · rename_i hkind
      rw [sizeList_getD b (by omega)] at hx
      exact ⟨k, ⟨hk, beq_iff_eq.mp hkind⟩, (Option.some.inj hx).symm⟩
    · cases hx
  · rintro ⟨k, ⟨hk, hkind⟩, rfl⟩
    refine ⟨k, List.mem_range.mpr hk, ?_⟩
    rw [if_pos (beq_iff_eq.mpr hkind), sizeList_getD b (by omega)]

theorem shardList_nodup (lay : Nat → Byte) : ((shardList b lay).map (·.1)).Nodup ↔
    ¬∃ j k, j ≠ k ∧ cutsDim b lay j ∧ cutsDim b lay k ∧ layDim (lay j) = layDim (lay k) := by
  have hd (k : Nat) (x : Nat × Nat) (hx : (if layKind (lay k) == 1 then some (layDim (lay k), (sizeList b).getD k 1) else none) = some x) :
      layKind (lay k) = 1 ∧ x.1 = layDim (lay k) := by
    split at hx
    · rename_i hkind
      exact ⟨beq_iff_eq.mp hkind, congrArg Prod.fst (Option.some.inj hx).symm⟩
    · cases hx
  rw [List.Nodup, List.pairwise_map, shardList, List.pairwise_filterMap, List.pairwise_iff_getElem]
  constructor
  · rintro h ⟨j, k, hne, ⟨hj, hjk⟩, ⟨hk, hkk⟩, heq⟩
    have hlt (i j : Nat) (hi : i < bitsOf b 112 4) (hj : j < bitsOf b 112 4) (hik : layKind (lay i) = 1) (hjk : layKind (lay j) = 1)
        (hij : i < j) : layDim (lay i) ≠ layDim (lay j) := by
      have := h i j (by simpa using hi) (by simpa using hj) hij
      simp only [List.getElem_range] at this
      exact this _ (if_pos (beq_iff_eq.mpr hik)) _ (if_pos (beq_iff_eq.mpr hjk))
    rcases Nat.lt_or_gt_of_ne hne with hlt' | hgt
    · exact hlt j k hj hk hjk hkk hlt' heq
    · exact hlt k j hk hj hkk hjk hgt heq.symm
  · intro h i j hi hj hij x hx y hy heq
    simp only [List.getElem_range] at hx hy
    obtain ⟨hik, hxi⟩ := hd i x hx
    obtain ⟨hjk, hyj⟩ := hd j y hy
    refine h ⟨i, j, by omega, ⟨by simpa using hi, hik⟩, ⟨by simpa using hj, hjk⟩, ?_⟩
    rw [← hxi, ← hyj, heq]

theorem refusedTest_iff (hna : bitsOf b 112 4 ≤ 4) (lay : Nat → Byte) : refusedTest b lay = true ↔ layRefused b lay := by
  rw [refusedTest, layRefused, Bool.or_eq_true, Bool.not_eq_true', decide_eq_false_iff_not, shardList_nodup, not_not, List.any_eq_true, or_comm]
  refine or_congr_left ?_
  constructor
  · rintro ⟨x, hx, hne⟩
    obtain ⟨k, hk, rfl⟩ := (mem_shardList b hna lay x).mp hx
    exact ⟨k, hk, bne_iff_ne.mp hne⟩
  · rintro ⟨k, hk, hne⟩
    exact ⟨_, (mem_shardList b hna lay _).mpr ⟨k, hk, rfl⟩, bne_iff_ne.mpr hne⟩

theorem mem_reduceList (k : Nat) : k ∈ reduceList b ↔ reducesAxis b k := by
  simp [reduceList, reducesAxis]

theorem reduceList_one : (reduceList b).length = 1 ↔ ∃ k, reducesAxis b k ∧ ∀ j, reducesAxis b j → j = k := by
  have hnodup : (reduceList b).Nodup := List.nodup_range.filter _
  simp only [← mem_reduceList]
  generalize reduceList b = l at hnodup
  constructor
  · intro h
    obtain ⟨a, rfl⟩ := List.length_eq_one_iff.mp h
    exact ⟨a, List.mem_singleton_self a, fun j hj => List.mem_singleton.mp hj⟩
  · rintro ⟨k, hk, hall⟩
    match l with
    | [] => cases hk
    | [_] => rfl
    | x :: y :: r =>
      have hxy : x = y := (hall x (by simp)).trans (hall y (by simp)).symm
      rw [hxy] at hnodup
      exact absurd (List.mem_cons_self) (List.nodup_cons.mp hnodup).1

theorem layoutTest_iff (hna : bitsOf b 112 4 ≤ 4) : layoutTest b red = true ↔ collLayout b red := by
  have hscatter : (List.range (bitsOf b 112 4)).any (fun n => layKind (layFrom b n) == 1 && layKind (layTo b n) == 2) = true ↔
      ∃ k, k < bitsOf b 112 4 ∧ layKind (layFrom b k) = 1 ∧ layKind (layTo b k) = 2 := by
    simp
  rw [layoutTest, collLayout, ← reduceList_one, ← refusedTest_iff b hna, ← refusedTest_iff b hna]
  simp only [Bool.or_eq_true, hscatter, Bool.and_eq_true, bne_iff_ne, beq_iff_eq, decide_eq_true_eq, or_assoc]

/-- The status of a descriptor's fields. -/
theorem collFields_spec : (collReserved b red → collFields b red = 0x11) ∧
    (¬collReserved b red → collLayout b red → collFields b red = 0x12) ∧ (¬collReserved b red → ¬collLayout b red → collFields b red = 0) := by
  have hna : ¬collReserved b red → bitsOf b 112 4 ≤ 4 := fun h => by
    by_contra hlt
    exact h (.inr (.inr (.inr (.inr (.inr (.inr (.inl (by omega))))))))
  rw [collFields_eq]
  refine ⟨fun h => if_pos ((reservedTest_iff b red).mpr h), fun h hl => ?_, fun h hl => ?_⟩
  · rw [if_neg (mt (reservedTest_iff b red).mp h), if_pos ((layoutTest_iff b red (hna h)).mpr hl)]
  · rw [if_neg (mt (reservedTest_iff b red).mp h), if_neg (mt (layoutTest_iff b red (hna h)).mp hl)]

end Fields

/-! A device's piece (R315). -/

section Piece
variable {sizes ranks : List Nat} {lay : List Byte} {dims : List Nat} {dim axis : Nat}

/-- What one axis does to a range of dimension `dim`. -/
def pieceStep (sizes ranks : List Nat) (lay : List Byte) (dims : List Nat) (dim : Nat) (acc : Nat × Nat) (n : Nat) : Nat × Nat :=
  if layKind (lay.getD n 0) == 1 && layDim (lay.getD n 0) == dim then
    (max acc.1 (ranks.getD n 0 * (dims.getD dim 0 / sizes.getD n 1)),
      min (acc.1 + acc.2) ((ranks.getD n 0 + 1) * (dims.getD dim 0 / sizes.getD n 1)) -
        max acc.1 (ranks.getD n 0 * (dims.getD dim 0 / sizes.getD n 1)))
  else acc

theorem pieceDim_eq : pieceDim sizes ranks lay dims dim = (List.range sizes.length).foldl (pieceStep sizes ranks lay dims dim) (0, dims.getD dim 0) :=
  rfl

theorem pieceSteps_none {l : List Nat} (h : ∀ k ∈ l, ¬(layKind (lay.getD k 0) = 1 ∧ layDim (lay.getD k 0) = dim)) (acc : Nat × Nat) :
    l.foldl (pieceStep sizes ranks lay dims dim) acc = acc := by
  induction l generalizing acc with
  | nil => rfl
  | cons k r ih =>
    have hk : pieceStep sizes ranks lay dims dim acc k = acc := if_neg fun hc => h k List.mem_cons_self (by simpa using hc)
    rw [List.foldl_cons, hk, ih fun j hj => h j (List.mem_cons_of_mem _ hj)]

/-- The piece on an axis that cuts the dimension alone. -/
theorem pieceStep_cut (hr : ranks.getD axis 0 < sizes.getD axis 1) (h : layKind (lay.getD axis 0) = 1 ∧ layDim (lay.getD axis 0) = dim) :
    pieceStep sizes ranks lay dims dim (0, dims.getD dim 0) axis =
      (ranks.getD axis 0 * (dims.getD dim 0 / sizes.getD axis 1), dims.getD dim 0 / sizes.getD axis 1) := by
  rw [pieceStep, if_pos (by simpa using h)]
  generalize dims.getD dim 0 = n at *
  generalize ranks.getD axis 0 = r at *
  generalize sizes.getD axis 1 = q at *
  have hmul : (r + 1) * (n / q) ≤ n := (Nat.mul_le_mul_right _ hr).trans (Nat.mul_div_le n q)
  dsimp only
  rw [Nat.zero_max, Nat.zero_add, Nat.min_eq_right hmul, Nat.succ_mul, Nat.add_sub_cancel_left]

theorem pieceOf_dim (hd : dim < dims.length) (ha : axis < sizes.length) (hr : ranks.getD axis 0 < sizes.getD axis 1)
    (honly : ∀ k, k < sizes.length → layKind (lay.getD k 0) = 1 → layDim (lay.getD k 0) = dim → k = axis) :
    (pieceOf sizes ranks lay dims)[dim]? = some (
      if layKind (lay.getD axis 0) = 1 ∧ layDim (lay.getD axis 0) = dim then
        (ranks.getD axis 0 * (dims.getD dim 0 / sizes.getD axis 1), dims.getD dim 0 / sizes.getD axis 1)
      else (0, dims.getD dim 0)) := by
  rw [pieceOf, List.getElem?_map, List.getElem?_range hd, Option.map_some, pieceDim_eq]
  congr 1
  split
  · rename_i hcut
    have hsplit : List.range sizes.length = List.range axis ++ axis :: (List.range (sizes.length - (axis + 1))).map (fun i => axis + 1 + i) := by
      rw [show sizes.length = axis + 1 + (sizes.length - (axis + 1)) by omega, List.range_add, List.range_succ, List.append_assoc,
        Nat.add_sub_cancel_left]
      rfl
    have hbefore : ∀ k ∈ List.range axis, ¬(layKind (lay.getD k 0) = 1 ∧ layDim (lay.getD k 0) = dim) := fun k hk hc => by
      have hlt := List.mem_range.mp hk
      have := honly k (by omega) hc.1 hc.2
      omega
    have hafter : ∀ k ∈ (List.range (sizes.length - (axis + 1))).map (fun i => axis + 1 + i),
        ¬(layKind (lay.getD k 0) = 1 ∧ layDim (lay.getD k 0) = dim) := fun k hk hc => by
      obtain ⟨i, hi, rfl⟩ := List.mem_map.mp hk
      have hlt := List.mem_range.mp hi
      have := honly (axis + 1 + i) (by omega) hc.1 hc.2
      omega
    rw [hsplit, List.foldl_append, List.foldl_cons, pieceSteps_none hbefore, pieceSteps_none hafter, pieceStep_cut hr hcut]
  · rename_i hcut
    refine pieceSteps_none (fun k hk hc => hcut ?_) _
    rw [← honly k (List.mem_range.mp hk) hc.1 hc.2]
    exact hc

end Piece

theorem traffic_read {w u : State} {core : Option Nat} {l : List (Loc × Nat)} {b : List Byte} (h : w.readLocs core l = (b, u)) : Traffic w u := by
  have ht := traffic_readLocs w core l
  rw [h] at ht
  exact ht

/-- Settles O38. -/
theorem collectiveIssue : Obligations.CollectiveIssue := by
  unfold Obligations.CollectiveIssue
  intro s e d red desc inp out ctr l tl b tb u1 u2 st pos li lo c x h
  refine ⟨coll_halts h, coll_held h, fun hgood hserves => ?_, collFields_spec b red, fun sizes ranks lay dims dim axis hd ha hr honly =>
    pieceOf_dim hd ha hr honly⟩
  obtain ⟨hdevice, hops⟩ : (serving s 0 e.b.ctx).fabric = s.fabric ∧ (serving s 0 e.b.ctx).ops = s.ops := by
    unfold serving
    split <;> exact ⟨rfl, rfl⟩
  have hgo := coll_served (d := d) (red := red) (desc := desc) (inp := inp) (out := out) (ctr := ctr) h hgood hserves
  have htr1 := traffic_walkedAll (serving s 0 e.b.ctx) (e.walker (serving s 0 e.b.ctx)) [(e.readU desc, 64)]
  rw [hgo]
  refine ⟨fun ha => ?_, fun ha hchk => ?_, fun ha hchk hbad hmem hread hst => ?_⟩
  · exact ⟨_, congrArg _ (collFetched_misaligned ha), rfl⟩
  · exact ⟨_, congrArg _ (collFetched_fails ha hchk), rfl⟩
  rw [collFetched_reads ha hchk hbad hread]
  have htu1 : Traffic (serving s 0 e.b.ctx) u1 := htr1.trans (traffic_read hread)
  refine ⟨htu1, fun h11 => ⟨_, congrArg _ (collDescribed_reserved (hst.trans h11)), rfl⟩, fun h11 hn => ?_⟩
  rw [collDescribed_lists (by rwa [hst])]
  refine ⟨fun hchk => ⟨_, congrArg _ (collListed_fails hn hchk), rfl⟩, fun hchk hbad hmem hread => ?_⟩
  rw [collListed_reads (w := u1.walked (e.walker u1) (BitVec.ofNat 64 (bitsOf b 0 64)) (2 * collDevices b)) hn hchk hbad hread]
  have htu2 : Traffic (serving s 0 e.b.ctx) u2 :=
    (htu1.trans (traffic_walked _ _ _ _)).trans (traffic_read hread)
  have hdev2 : u2.fabric.device = s.fabric.device := by
    rw [← hdevice]
    exact (congrArg (fun s : State => s.fabric.device) htu2.1 :)
  refine ⟨htu2, fun hno => ⟨_, congrArg _ (collTabled_refused hno), rfl⟩, fun hsmall hnodup => ?_⟩
  rw [collTabled_good hsmall hnodup, hst]
  refine ⟨fun h0 => ⟨_, congrArg _ (if_pos (by simpa using h0)), rfl⟩, fun h0 habsent => ?_, fun h0 hpos hi ho => ?_⟩
  · rw [h0]
    exact ⟨_, congrArg _ (collStart_absent (D := collDesc b red (collEnts b tb)) (by rw [hdev2]; exact habsent)), rfl⟩
  rw [h0]
  have hpos2 : (collDesc b red (collEnts b tb)).table.findIdx? (fun y => y == u2.fabric.device.toNat) = some pos := by
    rw [hdev2]
    exact hpos
  refine ⟨fun hli hlo => ⟨_, congrArg _ (collStart_fails hpos2 hi ho hlo hli), rfl⟩, fun hli hlo => ?_⟩
  obtain ⟨hbusy, hfree⟩ := collStart_placed (d := d) (ctr := e.readU ctr) hpos2 hi ho hlo hli
  have hops3 : (collPlaced e (collDesc b red (collEnts b tb)) (e.readU inp) (e.readU out) pos u2).ops = s.ops :=
    (congrArg State.ops (htu2.trans (traffic_walkedAll _ _ _)).1 :).trans hops
  rw [collBusy, hops3] at hbusy hfree
  exact ⟨fun hb => ⟨_, congrArg _ (hbusy hb), rfl⟩, fun hb => ⟨_, congrArg _ (hfree hb), rfl⟩⟩

end Sys2Proof.Safety
end

section
/-! PROOF. A collective ends (R315 to R317). -/

namespace Sys2Proof.Safety
open Sys2Proof.Machine

/-! The counter that a counter word names (R290). -/

/-- A block but for what memory traffic and its threads change. -/
def unheld (b : Block) : Block := { b with spindles := [], absent := [], owned := [], dirty := [] }

/-- The block that holds the counter, among some blocks. -/
def counterIn (l : List Block) (launch ctx core a : Nat) : Option Block :=
  match l.find? (fun b => b.core == core && b.launch == launch) with
  | some b => if a + 16 ≤ b.lsize then some b else none
  | none =>
    (l.filter (fun b => b.core == core && b.ctx == ctx && a + 16 ≤ b.lsize)).foldl (fun best b =>
      match best with
      | some x => if b.order < x.order then some b else some x
      | none => some b) none

theorem counterBlock_eq (s : State) (launch ctx core a : Nat) : s.counterBlock launch ctx core a = counterIn s.blocks launch ctx core a := rfl

theorem counterIn_map (l : List Block) (launch ctx core a : Nat) :
    counterIn (l.map unheld) launch ctx core a = (counterIn l launch ctx core a).map unheld := by
  have hbest (l : List Block) (acc : Option Block) : (l.map unheld).foldl (fun best b =>
      match best with
      | some x => if b.order < x.order then some b else some x
      | none => some b) (acc.map unheld) = (l.foldl (fun best b =>
      match best with
      | some x => if b.order < x.order then some b else some x
      | none => some b) acc).map unheld := by
    induction l generalizing acc with
    | nil => rfl
    | cons b r ih =>
      rw [List.map_cons, List.foldl_cons, List.foldl_cons, ← ih]
      congr 1
      cases acc with
      | none => rfl
      | some x =>
        change (if b.order < x.order then some (unheld b) else some (unheld x)) = _
        dsimp only
        split <;> rfl
  unfold counterIn
  rw [List.find?_map, List.filter_map]
  have hp : (fun b : Block => b.core == core && b.launch == launch) ∘ unheld = fun b => b.core == core && b.launch == launch := rfl
  have hq : (fun b : Block => b.core == core && b.ctx == ctx && decide (a + 16 ≤ b.lsize)) ∘ unheld =
    fun b => b.core == core && b.ctx == ctx && decide (a + 16 ≤ b.lsize) := rfl
  rw [hp, hq]
  cases l.find? (fun b => b.core == core && b.launch == launch) with
  | some b =>
    change (if a + 16 ≤ b.lsize then some (unheld b) else none) = _
    dsimp only
    split <;> rfl
  | none => exact hbest _ none

/-- The blocks stand, but for what memory traffic and their threads change. -/
structure HoldsBlocks (s t : State) : Prop where
  blocks : t.blocks.map unheld = s.blocks.map unheld

theorem HoldsBlocks.trans {s t u : State} (h : HoldsBlocks s t) (k : HoldsBlocks t u) : HoldsBlocks s u := ⟨k.blocks.trans h.blocks⟩

theorem HoldsBlocks.traffic {s t : State} (h : Traffic s t) : HoldsBlocks s t := by
  have hb (s : State) : s.blocks.map unheld = (calm s).blocks.map unheld := by
    change _ = (s.blocks.map _).map unheld
    rw [List.map_map]
    rfl
  exact ⟨by rw [hb t, hb s, h.1]⟩

theorem HoldsBlocks.updSp (s : State) (u m : Nat) (f : Spindle → Spindle) : HoldsBlocks s (s.updSp u m f) := by
  refine ⟨?_⟩
  rw [State.updSp, State.updBlk, List.map_map]
  refine List.map_congr_left fun b _ => ?_
  dsimp only [Function.comp]
  split <;> rfl

theorem HoldsBlocks.deliverS (s : State) (o : Op) (r : Nat) (v : Dword) : HoldsBlocks s (s.deliverS o r v) := by
  unfold State.deliverS
  split
  · exact ⟨rfl⟩
  · dsimp only
    split
    · exact ⟨rfl⟩
    · exact ⟨(HoldsBlocks.updSp s o.blk o.m _).blocks⟩

theorem HoldsBlocks.dropOp (s : State) (o : Op) : HoldsBlocks s (s.dropOp o) := ⟨(HoldsBlocks.updSp (offList s o) o.blk o.m _).blocks⟩

theorem HoldsBlocks.blk {s t : State} (h : HoldsBlocks s t) (u : Nat) : (t.blk u).map unheld = (s.blk u).map unheld := by
  have hf (s : State) : (s.blk u).map unheld = (s.blocks.map unheld).find? (fun b => b.uid == u) := by
    rw [List.find?_map]
    rfl
  rw [hf, hf, h.blocks]

theorem HoldsBlocks.counterBlock {s t : State} (h : HoldsBlocks s t) (launch ctx core a : Nat) :
    (t.counterBlock launch ctx core a).map unheld = (s.counterBlock launch ctx core a).map unheld := by
  rw [counterBlock_eq, counterBlock_eq, ← counterIn_map, ← counterIn_map, h.blocks]

/-- Counting, or the record that nothing counts, leaves the operations and the registers. -/
theorem bumpWord_keeps (s : State) (launch ctx : Nat) (ctr : Dword) (x : Nat) :
    (s.bumpWord launch ctx ctr x).ops = s.ops ∧ ∀ u m i, sreg (s.bumpWord launch ctx ctr x) u m i = sreg s u m i := by
  rw [State.bumpWord]
  split
  · exact ⟨rfl, fun _ _ _ => rfl⟩
  · dsimp only
    split
    · rename_i b _
      cases hb : s.blk b.uid with
      | none =>
        rw [State.arcAdd, hb]
        exact ⟨rfl, fun _ _ _ => rfl⟩
      | some c =>
        have hw := wakes_arcAdd s hb (16 * (ctr.extractLsb' 0 16).toNat) x
        refine ⟨hw.ops, fun u m i => ?_⟩
        rw [hw.sreg, sreg, spn_lwritten, sreg]
    · have ht := traffic_logError s ctx 0x40 (((s.launch launch).map (·.seq)).getD 0)
      exact ⟨ops_traffic ht, fun u m i => by rw [sreg, ht.spn_eq, sreg]⟩

/-- A counter word's counter gains one. -/
theorem bumpWord_counts {s t : State} (hh : HoldsBlocks s t) {launch ctx : Nat} {ctr : Dword} {b : Block} (hctr : ctr.getLsbD 32 = true)
    (hb : s.counterBlock launch ctx (ctr.extractLsb' 16 8).toNat (16 * (ctr.extractLsb' 0 16).toNat) = some b) (hfound : s.blk b.uid = some b) :
    ((t.bumpWord launch ctx ctr 1).blk b.uid).map (·.counter (16 * (ctr.extractLsb' 0 16).toNat)) =
      some (((b.counter (16 * (ctr.extractLsb' 0 16).toNat)).1 + 1) % 2 ^ 64, (b.counter (16 * (ctr.extractLsb' 0 16).toNat)).2) := by
  have hc := hh.counterBlock launch ctx (ctr.extractLsb' 16 8).toNat (16 * (ctr.extractLsb' 0 16).toNat)
  rw [hb] at hc
  obtain ⟨b', hb', hsame⟩ := Option.map_eq_some_iff.mp hc
  have hf := hh.blk b.uid
  rw [hfound] at hf
  obtain ⟨c, hfc, hcsame⟩ := Option.map_eq_some_iff.mp hf
  have huid : b'.uid = b.uid := (congrArg Block.uid hsame :)
  have hcount (a : Nat) : c.counter a = b.counter a := (congrArg (fun b : Block => b.counter a) hcsame :)
  rw [State.bumpWord, hctr, if_neg (by decide)]
  dsimp only
  rw [hb']
  dsimp only
  rw [huid, counter_arcAdd hfc, hcount]

/-! The end of a device's part (R317). -/

/-- A device's part has ended with a status: the operation is gone, the status stands in sD, the counter has gained one. -/
structure CollEnds (s : State) (o : Op) (r : Nat) (ctr : Dword) (b : Block) (st : Nat) (t : State) : Prop where
  gone : OpGone s t o.id
  delivered : live s o → ∀ i, sreg t o.blk o.m i = (sreg s o.blk o.m i).map (fun old => if i = r then BitVec.ofNat 64 st else old)
  lost : ¬live s o → ∀ i, sreg t o.blk o.m i = sreg s o.blk o.m i
  counted : ctr.getLsbD 32 = true →
    s.counterBlock (((s.blk o.blk).map (·.launch)).getD 0) o.ctx (ctr.extractLsb' 16 8).toNat (16 * (ctr.extractLsb' 0 16).toNat) = some b →
    s.blk b.uid = some b → (t.blk b.uid).map (·.counter (16 * (ctr.extractLsb' 0 16).toNat)) =
      some (((b.counter (16 * (ctr.extractLsb' 0 16).toNat)).1 + 1) % 2 ^ 64, (b.counter (16 * (ctr.extractLsb' 0 16).toNat)).2)

section Done
variable {s w : State} {o : Op}

theorem collDone_ends (ht : Traffic s w) (r st : Nat) (ctr : Dword) (b : Block) : CollEnds s o r ctr b st (w.collDone o r st ctr) := by
  have hw := KeepsWork.traffic ht
  have hheld : HoldsBlocks s ((w.deliverS o r (BitVec.ofNat 64 st)).dropOp o) :=
    ((HoldsBlocks.traffic ht).trans (.deliverS w o r _)).trans (.dropOp _ o)
  have hlaunch : (((w.deliverS o r (BitVec.ofNat 64 st)).blk o.blk).map (·.launch)).getD 0 = ((s.blk o.blk).map (·.launch)).getD 0 := by
    have h := ((HoldsBlocks.traffic ht).trans (.deliverS w o r (BitVec.ofNat 64 st))).blk o.blk
    have h' := congrArg (fun x => (x.map Block.launch).getD 0) h
    simp only [Option.map_map] at h'
    exact h'
  rw [State.collDone, hlaunch]
  obtain ⟨hops, hsreg⟩ := bumpWord_keeps ((w.deliverS o r (BitVec.ofNat 64 st)).dropOp o) (((s.blk o.blk).map (·.launch)).getD 0) o.ctx ctr 1
  refine ⟨⟨fun x hx => ?_, fun x hx hid => ?_⟩, fun hl i => ?_, fun hn i => ?_, fun hctr hb hfound => bumpWord_counts hheld hctr hb hfound⟩
  · rw [hops] at hx
    simpa using (List.mem_filter.mp hx).2
  · obtain ⟨y, hy, hyx⟩ := ops_deliverS w o r (BitVec.ofNat 64 st) (hw.ops ▸ hx)
    have hyid : y.id = x.id := (congrArg Op.id hyx :)
    have hyk : y.kind = x.kind := (congrArg Op.kind hyx :)
    refine ⟨y, ?_, by rw [hyk]; exact hyx⟩
    rw [hops]
    exact List.mem_filter.mpr ⟨hy, by simpa [hyid] using hid⟩
  · rw [hsreg, sreg_dropOp]
    by_cases hi : i = r
    · subst hi
      rw [sreg_deliverS w o i _ (hw.live.mpr hl), hw.sreg]
      simp
    · rw [sreg_deliverS_other w o r _ hi, hw.sreg]
      simp [hi]
  · rw [hsreg, sreg_dropOp, deliverS_dead (mt hw.live.mp hn), hw.sreg]

/-- A collective that was refused ends. -/
theorem coll_refused {r : Nat} {D : CollD} {inp out : List (Loc × Nat)} {ctr : Dword} {silent : List Silent} {st : Nat} (b : Block)
    (ho : pending s o.id = some o) (hu : s.unsent o = false) (hk : o.kind = .coll r D inp out ctr silent (some st)) :
    ∃ t, exec (.tokenClear o.id) s = .next t ∧ CollEnds s o r ctr b st t := by
  have hc : s.complete o = some (s.collDone o r st ctr) := by
    have haway : s.away o = false := by
      rw [State.away, hk]
      simp [OpKind.engine, OpKind.rows]
    rw [State.complete, haway, hu, hk]
    rfl
  obtain ⟨hgone, hlive, hlost, hcount⟩ := collDone_ends (o := o) (Traffic.refl s) r st ctr b
  have hr := requestsOnly_answered (s.collDone o r st ctr) o
  refine ⟨_, execTokenClear_complete ho hc, ⟨?_, ?_⟩, fun hl i => ?_, fun hn i => ?_, fun h1 h2 h3 => ?_⟩
  · rw [hr.ops]
    exact hgone.1
  · rw [hr.ops]
    exact hgone.2
  · rw [sreg, hr.spn, ← sreg]
    exact hlive hl i
  · rw [sreg, hr.spn, ← sreg]
    exact hlost hn i
  · rw [hr.blk]
    exact hcount h1 h2 h3

end Done

/-! COLL_COMPLETE (R317). -/

/-- The part's output written. -/
def collWritten (s : State) (o : Op) (elem : Nat) (out : List (Loc × Nat)) (k : Nat) (vals : List (Option Nat)) : State :=
  { s.opWrite o out (outBytes elem s.freeCtr vals) with freeCtr := (s.opWrite o out (outBytes elem s.freeCtr vals)).freeCtr + k }

section Complete
variable {s : State} {o : Op} {r : Nat} {D : CollD} {inp out : List (Loc × Nat)} {ctr : Dword} {silent : List Silent} {pos : Nat}

/-- The piece of the output that a device holds. -/
def outPiece (D : CollD) (pos : Nat) : List (Nat × Nat) := pieceOf D.sizes (ranksOf D.sizes pos) D.tos D.dims

/-- The output written, the part ends, or waits until the output has left. -/
def collPut (o : Op) (r : Nat) (D : CollD) (out : List (Loc × Nat)) (ctr : Dword) (silent : List Silent) (pos : Nat) (s : State)
    (vals : List (Option Nat)) (st : Nat) : State :=
  if (collWritten s o D.elem out (pieceSize (outPiece D pos)) vals).unsent o then
    (collWritten s o D.elem out (pieceSize (outPiece D pos)) vals).setKind o.id (.coll r D [] [] ctr silent (some st))
  else (collWritten s o D.elem out (pieceSize (outPiece D pos)) vals).collDone o r st ctr

/-- The members' inputs are whole. -/
def inputsFit (D : CollD) (pos : Nat) (inputs : Option (List (List Byte))) : Bool :=
  inputs.isSome && (inputs.getD []).length == D.table.length &&
    ((inputs.getD []).zipIdx).all (fun x => x.2 == pos || x.1.length == D.bytes D.froms x.2)

/-- The values of the output, its device's own input read. -/
def collVals (D : CollD) (pos : Nat) (data : List (List Byte)) : List (Option Nat) :=
  (List.range (pieceSize (outPiece D pos))).map (fun i =>
    outBits D.elem (collVal D (inputOf D data) D.sizes.length (ranksOf D.sizes pos) (globalOf (outPiece D pos) i)))

theorem execCollComplete_eq (ho : pending s o.id = some o) (hk : o.kind = .coll r D inp out ctr silent none)
    (hpos : D.table.findIdx? (fun x => x == s.fabric.device.toNat) = some pos) (hbad : s.badLocs inp = none) (hdown : s.downLocs out = none)
    (inputs : Option (List (List Byte))) (degraded : Bool) : exec (.collComplete o.id inputs degraded) s = .next (
      if silent.any (D.lost silent) then collPut o r D out ctr silent pos s (List.replicate (pieceSize (outPiece D pos)) none) 2
      else if !inputsFit D pos inputs then s.collDone o r 0x15 ctr
      else collPut o r D out ctr silent pos (s.readLocs (some o.core) inp).2
        (collVals D pos ((inputs.getD []).set pos (s.readLocs (some o.core) inp).1)) (if degraded || !silent.isEmpty then 1 else 0)) := by
  change execCollComplete o.id inputs degraded s = _
  rw [execCollComplete, show s.ops.find? (fun x => x.id == o.id) = some o from ho]
  dsimp only
  rw [hk]
  dsimp only
  rw [hpos, hbad, hdown]
  dsimp only [firstSome]
  split
  · rfl
  · split
    · rename_i hfit
      exact congrArg Host.Outcome.next (if_pos hfit).symm
    · rename_i hfit
      exact congrArg Host.Outcome.next (if_neg hfit).symm

/-- R317: a contribution is lost. -/
theorem lost_iff (D : CollD) (silent : List Silent) : silent.any (D.lost silent) = true ↔
    ∃ x ∈ silent, x.buddyHolds = false ∨ D.sizes.getD x.axis 0 ≤ ((ranksOf D.sizes x.pos).getD x.axis 0) ^^^ 1 ∨
      ∃ y ∈ silent, y.pos = posOf D.sizes ((ranksOf D.sizes x.pos).set x.axis (((ranksOf D.sizes x.pos).getD x.axis 0) ^^^ 1)) := by
  rw [List.any_eq_true]
  refine exists_congr fun x => and_congr_right fun _ => ?_
  rw [CollD.lost, Bool.or_eq_true, Bool.not_eq_true', CollD.buddy]
  refine or_congr_right ?_
  by_cases hr : ((ranksOf D.sizes x.pos).getD x.axis 0) ^^^ 1 < D.sizes.getD x.axis 0
  · rw [if_pos hr]
    dsimp only
    rw [List.any_eq_true]
    constructor
    · rintro ⟨y, hy, hyp⟩
      exact .inr ⟨y, hy, beq_iff_eq.mp hyp⟩
    · rintro (hge | ⟨y, hy, hyp⟩)
      · exact absurd hr (Nat.not_lt.mpr hge)
      · exact ⟨y, hy, beq_iff_eq.mpr hyp⟩
  · rw [if_neg hr]
    exact ⟨fun _ => .inl (Nat.le_of_not_lt hr), fun _ => rfl⟩

theorem inputsFit_iff (D : CollD) (pos : Nat) (inputs : Option (List (List Byte))) : inputsFit D pos inputs = true ↔
    inputs.isSome = true ∧ (inputs.getD []).length = D.table.length ∧
      ∀ i x, (inputs.getD [])[i]? = some x → i = pos ∨ x.length = D.bytes D.froms i := by
  rw [inputsFit, Bool.and_eq_true, Bool.and_eq_true, beq_iff_eq, List.all_eq_true, and_assoc]
  refine and_congr_right fun _ => and_congr_right fun _ => ?_
  constructor
  · intro h i x hx
    have := h (x, i) (List.mem_zipIdx_iff_getElem?.mpr hx)
    simpa using this
  · rintro h ⟨x, i⟩ hx
    have := h i x (List.mem_zipIdx_iff_getElem?.mp hx)
    simpa using this

/-! What the output's writing leaves. -/

theorem inward_writeLocs (s : State) (k : StreamId) (id : Nat) {l : List (Loc × Nat)} (hmem : ∀ x ∈ l, isMem x.1) (d : List Byte) :
    Inward s (s.writeLocs k (some id) l d) := by
  induction l generalizing s d with
  | nil => exact .refl s
  | cons x r ih =>
    obtain ⟨l, n⟩ := x
    obtain ⟨pa, hpa⟩ := hmem _ List.mem_cons_self
    change l = .mem pa at hpa
    subst hpa
    exact (inward_engineStore s pa (d.take n)).trans (ih _ (fun x hx => hmem x (List.mem_cons_of_mem _ hx)) _)

theorem inward_readLocs (s : State) (core : Nat) {l : List (Loc × Nat)} (hmem : ∀ x ∈ l, isMem x.1) : Inward s (s.readLocs (some core) l).2 := by
  induction l generalizing s with
  | nil => exact .refl s
  | cons x r ih =>
    obtain ⟨l, n⟩ := x
    obtain ⟨pa, hpa⟩ := hmem _ List.mem_cons_self
    change l = .mem pa at hpa
    subst hpa
    exact (inward_engineLoad s core pa n).trans (ih _ fun x hx => hmem x (List.mem_cons_of_mem _ hx))

theorem collWritten_traffic (hdown : s.downLocs out = none) (elem k : Nat) (vals : List (Option Nat)) :
    Traffic s (collWritten s o elem out k vals) := by
  have hw : s.opWrite o out (outBytes elem s.freeCtr vals) = s.writeLocs o.stream (some o.id) out (outBytes elem s.freeCtr vals) := by
    rw [State.opWrite, hdown]
  rw [collWritten, hw]
  exact (traffic_writeLocs s _ _ _ _).trans (.of rfl rfl rfl)

theorem collWritten_sent (hdown : s.downLocs out = none) (hmem : ∀ x ∈ out, isMem x.1) (hu : s.unsent o = false) (elem k : Nat)
    (vals : List (Option Nat)) : (collWritten s o elem out k vals).unsent o = false := by
  have hf : (collWritten s o elem out k vals).fabric = s.fabric := by
    rw [collWritten, State.opWrite, hdown]
    exact (inward_writeLocs s o.stream o.id hmem _).1
  rw [State.unsent, hf]
  exact hu

/-- The part ends, its output written. -/
theorem collPut_ends (hdown : s.downLocs out = none) (hmem : ∀ x ∈ out, isMem x.1) (hu : s.unsent o = false) (vals : List (Option Nat))
    (st : Nat) : collPut o r D out ctr silent pos s vals st = (collWritten s o D.elem out (pieceSize (outPiece D pos)) vals).collDone o r st ctr := by
  rw [collPut, if_neg]
  rw [collWritten_sent hdown hmem hu]
  exact Bool.false_ne_true

/-! The output's bytes (R316). -/

theorem outBytes_length (elem c : Nat) (l : List (Option Nat)) : (outBytes elem c l).length = collSize elem * l.length := by
  rw [outBytes, length_flatMap_chunks (fun x => length_leBytes _ _), List.length_zipIdx]

/-- An element's bytes. -/
theorem outBytes_element (elem c : Nat) {l : List (Option Nat)} {i v : Nat} (h : l[i]? = some (some v)) :
    ((outBytes elem c l).drop (collSize elem * i)).take (collSize elem) = leBytes (collSize elem) v := by
  have hz : l.zipIdx[i]? = some (some v, i) := by
    rw [List.getElem?_zipIdx, h, Option.map_some, Nat.zero_add]
  have := flatMap_chunk (f := fun x : Option Nat × Nat => leBytes (collSize elem) ((x.1).getD (Config.freeWord (c + x.2)).toNat))
    (fun x => length_leBytes _ _) [] hz
  rw [List.append_nil] at this
  exact this

/-- The end of a part leaves memory, where its counter word names no counter. -/
theorem seesSame_collDone (s : State) (o : Op) {core : Nat} (r st : Nat) (hctr : ctr.getLsbD 32 = false) :
    SeesSame core s (s.collDone o r st ctr) := by
  rw [State.collDone, bumpWord_off _ _ _ _ hctr]
  exact (seesSame_deliverS s o r _).trans (seesSame_dropOp _ o)

/-- The output stands in memory, and no other byte differs. -/
theorem collOutput_seen {pd k : Nat} {vals : List (Option Nat)} {w : State} (q : Quiet s o.core) (hr : SeesSame o.core s w)
    (hk : vals.length = k) (hdown : w.downLocs [(.mem pd, k * collSize D.elem)] = none) (hctr : ctr.getLsbD 32 = false) (st : Nat) :
    let t := (collWritten w o D.elem [(.mem pd, k * collSize D.elem)] k vals).collDone o r st ctr
    (∀ i v, i < k → vals[i]? = some (some v) →
      leNat (bytesAt (seen t o.core) (pd + i * collSize D.elem) (collSize D.elem)) = v % 2 ^ (8 * collSize D.elem)) ∧
    ∀ a, ¬(pd ≤ a ∧ a < pd + k * collSize D.elem) → seen t o.core a = seen s o.core a := by
  intro t
  obtain ⟨qw, hw⟩ := hr q
  have hlen : (outBytes D.elem w.freeCtr vals).length = k * collSize D.elem := by rw [outBytes_length, hk, Nat.mul_comm]
  have hwrite : w.opWrite o [(.mem pd, k * collSize D.elem)] (outBytes D.elem w.freeCtr vals) =
      w.engineStore pd (outBytes D.elem w.freeCtr vals) := by
    rw [State.opWrite, hdown, ← hlen]
    exact writeLocs_mem w o.stream o.id pd _
  have hq := quiet_engineStore qw pd (outBytes D.elem w.freeCtr vals)
  have hqw : Quiet (collWritten w o D.elem [(.mem pd, k * collSize D.elem)] k vals) o.core := by
    rw [collWritten, hwrite]
    exact ⟨hq.flips, hq.stash, hq.frames, hq.device, hq.pend, hq.copies⟩
  have hseen (a : Nat) : seen t o.core a =
      if pd ≤ a ∧ a < pd + k * collSize D.elem then ((outBytes D.elem w.freeCtr vals)[a - pd]?).getD 0 else seen s o.core a := by
    rw [(seesSame_collDone _ o r st hctr hqw).2, ← hw, ← hlen, ← engineStore_quiet qw, ← hwrite, hlen]
    rfl
  refine ⟨fun i v hi hv => ?_, fun a ha => by rw [hseen, if_neg ha]⟩
  have hbytes : bytesAt (seen t o.core) pd (k * collSize D.elem) = outBytes D.elem w.freeCtr vals := by
    have h := bytesAt_eq (pa := pd) (d := outBytes D.elem w.freeCtr vals) fun a h1 h2 => (hseen a).trans (if_pos ⟨h1, by rwa [hlen] at h2⟩)
    rwa [hlen] at h
  have hle : i * collSize D.elem + collSize D.elem ≤ k * collSize D.elem := by
    rw [← Nat.succ_mul]
    exact Nat.mul_le_mul_right _ hi
  rw [← bytesAt_chunk _ pd hle, hbytes, Nat.mul_comm i, outBytes_element D.elem w.freeCtr hv, leNat_leBytes, Nat.pow_mul]

end Complete

/-! Values exchanged along one axis (R315, R316). -/

section OneAxis
variable {D : CollD} {q : Nat} {f g : Byte} {v : List Nat → List Nat → CVal} {x : Nat} {gi : List Nat} {bits : Nat → Nat}

/-- An integer element as a signed number. -/
def signedElem (elem n : Nat) : Int := if 2 ^ (8 * collSize elem - 1) ≤ n then (n : Int) - 2 ^ (8 * collSize elem) else n

/-- The members' elements along the axis. -/
def memberVals (q : Nat) (bits : Nat → Nat) : List CVal := (List.range q).map (fun y => .raw (bits y))

theorem alongAxis_one (q x : Nat) : alongAxis [q] [x] 0 = (List.range q).map (fun i => [i]) := rfl

/-- What an axis that reduces makes of the members' elements. -/
theorem collVal_reduces (hs : D.sizes = [q]) (hfs : D.froms = [f]) (hts : D.tos = [g]) (hv : ∀ y, v [y] gi = .raw (bits y))
    (hf : layKind f = 2) (hg : layKind g ≠ 2) :
    (D.red = .sum → collVal D v 1 [x] gi = sumVals D.elem (memberVals q bits)) ∧
    (D.red = .max → collVal D v 1 [x] gi =
      (memberVals q bits).foldl (fun a b => pickVal D.elem true a b) ((memberVals q bits).headD (.raw 0))) ∧
    (D.red = .min → collVal D v 1 [x] gi =
      (memberVals q bits).foldl (fun a b => pickVal D.elem false a b) ((memberVals q bits).headD (.raw 0))) := by
  have hall : (alongAxis D.sizes [x] 0).map (fun r => collVal D v 0 r gi) = memberVals q bits := by
    rw [hs, alongAxis_one, List.map_map]
    exact List.map_congr_left fun y _ => hv y
  have hcond : (layKind (D.froms.getD 0 0) == 2 && layKind (D.tos.getD 0 0) != 2) = true := by
    rw [hfs, hts]
    simp [hf, hg]
  refine ⟨fun hr => ?_, fun hr => ?_, fun hr => ?_⟩ <;> rw [collVal, if_pos hcond, hr, ← hall]

/-- An axis that cuts: the element comes from the member whose piece holds it. -/
theorem collVal_cut (hs : D.sizes = [q]) (hfs : D.froms = [f]) (hv : ∀ y, v [y] gi = .raw (bits y)) (hf : layKind f = 1) :
    collVal D v 1 [x] gi = .raw (bits (gi.getD (layDim f) 0 / (D.dims.getD (layDim f) 0 / q))) := by
  have h0 : D.froms.getD 0 0 = f := by rw [hfs]; rfl
  have hq : D.sizes.getD 0 1 = q := by rw [hs]; rfl
  rw [collVal, h0, hf, hq]
  exact hv _

/-- An axis that leaves the members' elements as they are. -/
theorem collVal_kept (hfs : D.froms = [f]) (hts : D.tos = [g]) (hv : ∀ y, v [y] gi = .raw (bits y)) (hf : layKind f = 0)
    (hg : layKind g ≠ 2) : collVal D v 1 [x] gi = .raw (bits x) := by
  have h0 : D.froms.getD 0 0 = f := by rw [hfs]; rfl
  have h1 : D.tos.getD 0 0 = g := by rw [hts]; rfl
  have h2 : (layKind g == 2) = false := beq_false_of_ne hg
  rw [collVal, h0, h1, hf, h2]
  exact hv x

/-- An axis whose sum is still to come: member 0 holds the element, the others 0. -/
theorem collVal_split (hfs : D.froms = [f]) (hts : D.tos = [g]) (hv : ∀ y, v [y] gi = .raw (bits y)) (hf : layKind f = 0)
    (hg : layKind g = 2) : collVal D v 1 [x] gi = .raw (if x = 0 then bits 0 else 0) := by
  have h0 : D.froms.getD 0 0 = f := by rw [hfs]; rfl
  have h1 : D.tos.getD 0 0 = g := by rw [hts]; rfl
  rw [collVal, h0, h1, hf, hg]
  change (if ((x == 0) = true) then v [x] gi else .raw 0) = _
  by_cases hx : x = 0
  · subst hx
    exact hv 0
  · rw [if_neg (by simpa using hx), if_neg hx]

/-! Sums of integers. -/

variable {elem : Nat}

/-- An integer element's exact value. -/
def intElem (elem n : Nat) : Int := if elem == 3 then (BitVec.ofNat 32 n).toInt else (BitVec.ofNat 64 n).toInt

theorem exact_raw (he : elem = 3 ∨ elem = 4) (n : Nat) : CVal.exact elem (.raw n) = some ⟨intElem elem n, 0⟩ := by
  obtain rfl | rfl := he <;> rfl

theorem intElem_modEq (he : elem = 3 ∨ elem = 4) (n : Nat) : intElem elem n ≡ n [ZMOD 2 ^ (8 * collSize elem)] := by
  obtain rfl | rfl := he
  · change (BitVec.ofNat 32 n).toInt % 2 ^ 32 = _
    rw [BitVec.toInt_ofNat']
    exact Int.bmod_emod
  · change (BitVec.ofNat 64 n).toInt % 2 ^ 64 = _
    rw [BitVec.toInt_ofNat']
    exact Int.bmod_emod

theorem exAdd_ints (a b : Int) : Ex.add ⟨a, 0⟩ ⟨b, 0⟩ = ⟨a + b, 0⟩ := by
  simp [Ex.add]

/-- The exact sum is an integer that differs from the sum of the bits by whole turns. -/
theorem sumVals_ints (he : elem = 3 ∨ elem = 4) (l : List Nat) :
    ∃ m : Int, sumVals elem (l.map (fun n => .raw n)) = .sum (some ⟨m, 0⟩) ∧ m ≡ (l.sum : Nat) [ZMOD 2 ^ (8 * collSize elem)] := by
  have h (l : List Nat) (a : Int) : ∃ m : Int, (l.map (fun n => CVal.raw n)).foldl (fun acc v =>
      match acc, v.exact elem with
      | some a, some b => some (Ex.add a b)
      | _, _ => none) (some ⟨a, 0⟩) = some ⟨m, 0⟩ ∧ m ≡ a + (l.sum : Nat) [ZMOD 2 ^ (8 * collSize elem)] := by
    induction l generalizing a with
    | nil => exact ⟨a, rfl, by simp [Int.ModEq]⟩
    | cons n r ih =>
      obtain ⟨m, hm, hmod⟩ := ih (a + intElem elem n)
      refine ⟨m, ?_, hmod.trans ?_⟩
      · rw [List.map_cons, List.foldl_cons, exact_raw he]
        dsimp only
        rw [exAdd_ints]
        exact hm
      · rw [List.sum_cons, Nat.cast_add, ← add_assoc]
        exact ((intElem_modEq he n).add_left a).add_right _
  obtain ⟨m, hm, hmod⟩ := h l 0
  exact ⟨m, congrArg CVal.sum hm, by rwa [zero_add] at hmod⟩

/-- R316: a sum of integers is taken modulo the width. -/
theorem outBits_sum (he : elem = 3 ∨ elem = 4) (l : List Nat) :
    outBits elem (sumVals elem (l.map (fun n => .raw n))) = some (l.sum % 2 ^ (8 * collSize elem)) := by
  obtain ⟨m, hm, hmod⟩ := sumVals_ints he l
  have hfmt : collFmt elem = none := by obtain rfl | rfl := he <;> rfl
  have hunits : (⟨m, 0⟩ : Ex).units 0 = m := by simp [Ex.units]
  rw [hm, outBits, hfmt]
  dsimp only
  rw [hunits, intBits, hmod]
  exact congrArg some (Int.toNat_natCast (l.sum % 2 ^ (8 * collSize elem)))

/-! Extremes of integers. -/

/-- The order in which `.max` (`mx`) and `.min` look for the last. -/
def pickKey (elem : Nat) (mx : Bool) (n : Nat) : Int := if mx then signedElem elem n else -signedElem elem n

theorem pickVal_ints (he : elem = 3 ∨ elem = 4) (mx : Bool) (a b : Nat) :
    pickVal elem mx (.raw a) (.raw b) = if pickKey elem mx a < pickKey elem mx b then .raw b else .raw a := by
  have hfmt : collFmt elem = none := by obtain rfl | rfl := he <;> rfl
  have h : pickVal elem mx (.raw a) (.raw b) =
      if (if mx then signedElem elem a < signedElem elem b else signedElem elem b < signedElem elem a) then .raw b else .raw a := by
    rw [pickVal, hfmt]
    rfl
  rw [h]
  cases mx with
  | true => rfl
  | false => exact if_congr (by simp [pickKey]) rfl rfl

theorem pickVals_last (he : elem = 3 ∨ elem = 4) (mx : Bool) (bits : Nat → Nat) (l : List Nat) (y0 : Nat) :
    ∃ y, (y = y0 ∨ y ∈ l) ∧ (l.map (fun y => CVal.raw (bits y))).foldl (fun a b => pickVal elem mx a b) (.raw (bits y0)) = .raw (bits y) ∧
      pickKey elem mx (bits y0) ≤ pickKey elem mx (bits y) ∧ ∀ z ∈ l, pickKey elem mx (bits z) ≤ pickKey elem mx (bits y) := by
  induction l generalizing y0 with
  | nil => exact ⟨y0, .inl rfl, rfl, le_refl _, fun z hz => nomatch hz⟩
  | cons n r ih =>
    rw [List.map_cons, List.foldl_cons, pickVal_ints he]
    by_cases hlt : pickKey elem mx (bits y0) < pickKey elem mx (bits n)
    · rw [if_pos hlt]
      obtain ⟨y, hy, hval, hle, hall⟩ := ih n
      refine ⟨y, .inr ?_, hval, hlt.le.trans hle, fun z hz => ?_⟩
      · obtain rfl | hy := hy
        · exact List.mem_cons_self
        · exact List.mem_cons_of_mem _ hy
      · obtain rfl | hz := List.mem_cons.mp hz
        · exact hle
        · exact hall z hz
    · rw [if_neg hlt]
      obtain ⟨y, hy, hval, hle, hall⟩ := ih y0
      refine ⟨y, hy.imp_right (List.mem_cons_of_mem _), hval, hle, fun z hz => ?_⟩
      obtain rfl | hz := List.mem_cons.mp hz
      · exact (not_lt.mp hlt).trans hle
      · exact hall z hz

/-- R316: `.max` and `.min` of signed integers. -/
theorem memberVals_pick (he : elem = 3 ∨ elem = 4) (mx : Bool) (hx : x < q) (bits : Nat → Nat) :
    ∃ y, y < q ∧ (memberVals q bits).foldl (fun a b => pickVal elem mx a b) ((memberVals q bits).headD (.raw 0)) = .raw (bits y) ∧
      ∀ z, z < q → pickKey elem mx (bits z) ≤ pickKey elem mx (bits y) := by
  have hhead : (memberVals q bits).headD (.raw 0) = .raw (bits 0) := by
    obtain ⟨n, rfl⟩ := Nat.exists_eq_succ_of_ne_zero (Nat.ne_zero_of_lt hx)
    rw [memberVals, List.range_succ_eq_map]
    rfl
  obtain ⟨y, hy, hval, -, hall⟩ := pickVals_last he mx bits (List.range q) 0
  refine ⟨y, ?_, by rw [hhead]; exact hval, fun z hz => hall z (List.mem_range.mpr hz)⟩
  obtain rfl | hy := hy
  · omega
  · exact List.mem_range.mp hy

end OneAxis

/-- TSILENT. -/
theorem tsilent_joins {s : State} {o : Op} {r : Nat} {D : CollD} {inp out : List (Loc × Nat)} {ctr : Dword} {silent : List Silent} (m : Silent)
    (ho : pending s o.id = some o) (hk : o.kind = .coll r D inp out ctr silent none) :
    exec (.tsilent o.id m) s = .next (if s.devtime < o.start + 1000 * D.tsilent ∨
        ¬(m.pos < D.table.length ∧ m.axis < D.sizes.length ∧ D.table[m.pos]? ≠ some s.fabric.device.toNat) then s
      else s.setKind o.id (.coll r D inp out ctr (silent ++ [m]) none)) := by
  change execTsilent o.id m s = _
  rw [execTsilent, show s.ops.find? (fun x => x.id == o.id) = some o from ho]
  dsimp only
  rw [hk]
  dsimp only
  have hcond : (decide (s.devtime < o.start + 1000 * D.tsilent) || !(decide (m.pos < D.table.length) && decide (m.axis < D.sizes.length) &&
      D.table[m.pos]? != some s.fabric.device.toNat)) = true ↔ (s.devtime < o.start + 1000 * D.tsilent ∨
        ¬(m.pos < D.table.length ∧ m.axis < D.sizes.length ∧ D.table[m.pos]? ≠ some s.fabric.device.toNat)) := by
    rw [Bool.or_eq_true, decide_eq_true_eq, Bool.not_eq_true', ← Bool.not_eq_true, Bool.and_eq_true, Bool.and_eq_true, decide_eq_true_eq,
      decide_eq_true_eq, bne_iff_ne, and_assoc]
  split
  · rename_i h
    rw [if_pos (hcond.mp h)]
  · rename_i h
    rw [if_neg (mt hcond.mpr h)]

/-- Settles O39. -/
theorem collectiveEnds : Obligations.CollectiveEnds := by
  unfold Obligations.CollectiveEnds
  intro s o r D inp out ctr degraded silent m pos pa pd st inputs b ho hu
  have hends {n : Nat} {t : State} (h : CollEnds s o r ctr b n t) := (⟨h.gone, h.delivered, h.lost, h.counted⟩ : _ ∧ _ ∧ _ ∧ _)
  refine ⟨fun hk => ?refused, fun hk hpos hbad hdown hmem => ⟨fun hlost => ?lost, fun hkept => ⟨fun hfit => ?misfit, fun hfit => ?whole⟩⟩,
    fun hk => tsilent_joins m ho hk, fun q f g v x gi bits hs hfs hts hx hv => ⟨fun hf hg he => ⟨fun hr => ?sum, fun hr => ?max, fun hr => ?min⟩,
      collVal_cut hs hfs hv, collVal_kept hfs hts hv, collVal_split hfs hts hv⟩⟩
  case refused =>
    obtain ⟨t, hexec, h⟩ := coll_refused b ho hu hk
    exact ⟨t, hexec, hends h⟩
  case lost =>
    obtain ⟨-, hout⟩ := List.forall_mem_append.mp hmem
    refine ⟨_, (execCollComplete_eq ho hk hpos hbad hdown inputs degraded).trans
      (congrArg _ ((if_pos ((lost_iff D silent).mpr hlost)).trans (collPut_ends hdown hout hu _ 2))), ?_⟩
    exact hends (collDone_ends (collWritten_traffic hdown _ _ _) r 2 ctr b)
  case misfit =>
    refine ⟨_, (execCollComplete_eq ho hk hpos hbad hdown inputs degraded).trans
      (congrArg _ ((if_neg (mt (lost_iff D silent).mp hkept)).trans (if_pos ?_))), hends (collDone_ends (.refl s) r 0x15 ctr b)⟩
    rw [Bool.not_eq_true', ← Bool.not_eq_true, inputsFit_iff]
    exact hfit
  case whole =>
    obtain ⟨hin, hout⟩ := List.forall_mem_append.mp hmem
    have htr := traffic_readLocs s (some o.core) inp
    have hdownw : (s.readLocs (some o.core) inp).2.downLocs out = none := (downLocs_traffic htr out).trans hdown
    have huw : (s.readLocs (some o.core) inp).2.unsent o = false := by
      rw [State.unsent, (inward_readLocs s o.core hin).1]
      exact hu
    have hst : (if (degraded || !silent.isEmpty) = true then 1 else 0) = if degraded = true ∨ silent ≠ [] then 1 else 0 :=
      if_congr (by simp) rfl rfl
    refine ⟨_, (execCollComplete_eq ho hk hpos hbad hdown inputs degraded).trans
      (congrArg _ ((if_neg (mt (lost_iff D silent).mp hkept)).trans ((if_neg ?_).trans (collPut_ends hdownw hout huw _ _)))), ?_, ?_⟩
    · rw [Bool.not_eq_true', ← Bool.not_eq_true, inputsFit_iff, not_not]
      exact hfit
    · rw [hst]
      exact hends (collDone_ends (htr.trans (collWritten_traffic hdownw _ _ _)) r _ ctr b)
    · intro q hctr hinp ranks piece hpd
      have hmine : (s.readLocs (some o.core) inp).1 = bytesAt (seen s o.core) pa (D.bytes D.froms pos) := by
        rw [hinp]
        exact readLocs_mem s q pa _
      rw [hpd] at hdownw ⊢
      rw [hmine]
      obtain ⟨helem, helse⟩ := collOutput_seen (D := D) (ctr := ctr) (r := r) (pd := pd) (k := pieceSize piece)
        (vals := collVals D pos ((inputs.getD []).set pos (bytesAt (seen s o.core) pa (D.bytes D.froms pos)))) q
        (seesSame_readLocs s inp) (by rw [collVals, List.length_map, List.length_range]; rfl) hdownw hctr
        (if (degraded || !silent.isEmpty) = true then 1 else 0)
      refine ⟨fun i v hi hv => helem i v hi ?_, helse⟩
      rw [collVals, List.getElem?_map, List.getElem?_range (show i < pieceSize (outPiece D pos) from hi)]
      exact congrArg some hv
  case sum =>
    have hvals : memberVals q bits = ((List.range q).map bits).map (fun n => .raw n) := by
      rw [memberVals, List.map_map]
      rfl
    rw [(collVal_reduces hs hfs hts hv hf hg).1 hr, hvals]
    exact outBits_sum he _
  case max =>
    rw [(collVal_reduces hs hfs hts hv hf hg).2.1 hr]
    exact memberVals_pick he true hx bits
  case min =>
    obtain ⟨y, hy, hval, hall⟩ := memberVals_pick he false hx bits
    rw [(collVal_reduces hs hfs hts hv hf hg).2.2 hr]
    exact ⟨y, hy, hval, fun z hz => neg_le_neg_iff.mp (hall z hz)⟩

end Sys2Proof.Safety
end
